-- ==== Sys2Proof/Word.lean ====
section
/-!
DEFINITION. The plain word types of the Oztil-3 (R3, R16).
-/

namespace Sys2Proof

/-- A byte of memory or scratchpad (R3). -/
abbrev Byte := BitVec 8

/-- A 32-bit slot word of a bundle (R38). -/
abbrev SlotWord := BitVec 32

/-- A 64-bit scalar register, latch or control register (R66). -/
abbrev Word := BitVec 64

/-- A 1024-bit vector register or vector latch (R66). -/
abbrev Vec := BitVec 1024

/-- A tile register of 8 KiB (R180). -/
abbrev Tile := BitVec 65536

/-- An expanded bundle of twelve words (R38). -/
abbrev Bundle := BitVec 384

end Sys2Proof
end

