-- ==== Sys2Proof/Config.lean ====
section
/-!
DEFINITION. What one device fixes and the manual leaves open: the free values. None has a body,
so no proof can see a value of it (log 6).
-/

namespace Sys2Proof

/-- FREE VALUE (log 6): the energy, in µJ, that a cell adds to ENJ in one issue cycle. R396 gives the kinds
of event and says that the energy of each is calibrated; it states no figure. -/
opaque Config.cycleEnergy : Nat → BitVec 64

/-- FREE VALUE (log 6): whether the Ed25519 signature of the firmware image at an address is good
(R392). The argument is a fresh number for each check. -/
opaque Config.signatureGood : Nat → Bool

/-- FREE VALUE (log 6): the SHA-512 digest the security processor returns for a measurement (R333). The
arguments are the measurement index and what is measured: the manual gives no bytes for S2ROOT, VMID, FUNC and the life-cycle state,
and nothing of the firmware of the security processor. -/
opaque Config.digest : Nat → List Nat → BitVec 512

/-- FREE VALUE (log 6): the length of a Sirvy image in bytes, which no rule gives (R392). -/
opaque Config.imageBytes : Nat

/-- FREE VALUE (log 6): the ECC syndrome of an uncorrectable word (R381). -/
opaque Config.syndrome : Nat → BitVec 8

/-- FREE VALUE (log 6): a byte that a peer device holds in a checkpoint piece (R390). The arguments are a fresh number for
each command, the member index and the address there. -/
opaque Config.peerByte : Nat → Nat → Nat → BitVec 8

/-- FREE VALUE (log 87): the bytes that an address above the 1,024 GiB of R11 reads as. -/
opaque Config.absentBytes : Nat → BitVec 1024

/-- FREE VALUE (log 12): bits that the manual calls unpredictable or leaves unstated. The argument is a
fresh number. -/
opaque Config.freeVec : Nat → BitVec 1024

end Sys2Proof
end

