-- ==== Sys2Proof/Syntax.lean ====
section
/-!
DEFINITION. The abstract syntax: one constructor for each row of spec/opcode_table.json.
A slot-word row carries the fields the table gives it (g the guard of R43, s the source code, d the destination
code), and, where more than one word of the bundle can hold it, k: the index of that word (1 to 3 for S0 to S2,
4 to 7 for V0 to V3, 8 for M). An event row (no encoding) carries what the manual says the event names.
-/

namespace Sys2Proof

/-- The operations and events of the Oztil-3 (opcode_table.json). -/
inductive Instr where
  /-- BR (R102): Relative branch with one bubble. -/
  | br (i : BitVec 12) (g : BitVec 12) (y : BitVec 1) (s : BitVec 1) (d : BitVec 1)
  /-- BR_CALL (R104): Relative call that writes the return address to br.r. -/
  | brCall (i : BitVec 12) (g : BitVec 12) (y : BitVec 1) (s : BitVec 1) (d : BitVec 1)
  /-- BR_RET (R102): Branch to br.o with two bubbles. -/
  | brRet (g : BitVec 12) (y : BitVec 1) (s : BitVec 1) (d : BitVec 1)
  /-- BR_IND (R102): Indirect branch to br.o plus 2 times IMM. -/
  | brInd (i : BitVec 12) (g : BitVec 12) (y : BitVec 1) (s : BitVec 1) (d : BitVec 1)
  /-- BR_LOOP (R106): Counted loop: while LC is nonzero, decrement it, turn, set p16 and take the branch. -/
  | brLoop (i : BitVec 12) (g : BitVec 12) (y : BitVec 1) (s : BitVec 1) (d : BitVec 1)
  /-- BR_LOOPX (R107): Software-pipelined loop close that also runs the epilogue on TAIL. -/
  | brLoopx (i : BitVec 12) (g : BitVec 12) (y : BitVec 1) (s : BitVec 1) (d : BitVec 1)
  /-- BR_UIRET (R109): Return from a user-interrupt handler to UIRA. -/
  | brUiret (g : BitVec 12) (y : BitVec 1) (s : BitVec 1) (d : BitVec 1)
  /-- BR_IFENCE (R110): Fetch fence: discards fetch lines and invalidates the instruction cache. -/
  | brIfence (g : BitVec 12) (y : BitVec 1) (s : BitVec 1) (d : BitVec 1)
  /-- BR_SWAP (R111): Flips ISPCTL.ACT and continues at br.o after three bubbles. -/
  | brSwap (g : BitVec 12) (y : BitVec 1) (s : BitVec 1) (d : BitVec 1)
  /-- BR_END (R112): Ends the tile task. -/
  | brEnd (g : BitVec 12) (y : BitVec 1) (s : BitVec 1) (d : BitVec 1)
  /-- BR_CALLI (R104): Indirect call that writes the return address to br.r. -/
  | brCalli (i : BitVec 12) (g : BitVec 12) (y : BitVec 1) (s : BitVec 1) (d : BitVec 1)
  /-- BR_UNSPIN (R108): Sets SPIN to 0, p16 to 1 and p17 to p63 to 0. -/
  | brUnspin (g : BitVec 12) (y : BitVec 1) (s : BitVec 1) (d : BitVec 1)
  /-- MOVE (R43): Moves a source value to a register, operand latch or control register. -/
  | move (k : BitVec 4) (g : BitVec 12) (s : BitVec 10) (d : BitVec 10)
  /-- CB_READ (R160): Reads circular-buffer slot k after waiting until FILL is at least k. -/
  | cbRead (k : BitVec 4) (g : BitVec 12) (h : BitVec 3) (n : BitVec 4) (d : BitVec 10)
  /-- CB_WRITE_V (R161): V-slot write into circular-buffer slot k after waiting for free slots. -/
  | cbWriteV (k : BitVec 4) (g : BitVec 12) (s : BitVec 10) (h : BitVec 3) (n : BitVec 3)
  /-- CB_WRITE_M (R161): M-slot write into circular-buffer slot k after waiting for free slots. -/
  | cbWriteM (g : BitVec 12) (s : BitVec 10) (h : BitVec 3) (n : BitVec 3)
  /-- ALU_MOV (R91): r := t. -/
  | aluMov (k : BitVec 4) (g : BitVec 12) (s : BitVec 10) (u : BitVec 1)
  /-- ALU_ADD (R91): r := o + t. -/
  | aluAdd (k : BitVec 4) (g : BitVec 12) (s : BitVec 10) (u : BitVec 1)
  /-- ALU_SUB (R91): r := o − t. -/
  | aluSub (k : BitVec 4) (g : BitVec 12) (s : BitVec 10) (u : BitVec 1)
  /-- ALU_ADDS1 (R91): r := o + 2t. -/
  | aluAdds1 (k : BitVec 4) (g : BitVec 12) (s : BitVec 10) (u : BitVec 1)
  /-- ALU_ADDS2 (R91): r := o + 4t. -/
  | aluAdds2 (k : BitVec 4) (g : BitVec 12) (s : BitVec 10) (u : BitVec 1)
  /-- ALU_ADDS3 (R91): r := o + 8t. -/
  | aluAdds3 (k : BitVec 4) (g : BitVec 12) (s : BitVec 10) (u : BitVec 1)
  /-- ALU_AND (R91): r := o AND t. -/
  | aluAnd (k : BitVec 4) (g : BitVec 12) (s : BitVec 10) (u : BitVec 1)
  /-- ALU_OR (R91): r := o OR t. -/
  | aluOr (k : BitVec 4) (g : BitVec 12) (s : BitVec 10) (u : BitVec 1)
  /-- ALU_XOR (R91): r := o XOR t. -/
  | aluXor (k : BitVec 4) (g : BitVec 12) (s : BitVec 10) (u : BitVec 1)
  /-- ALU_ANDN (R91): r := o AND NOT t. -/
  | aluAndn (k : BitVec 4) (g : BitVec 12) (s : BitVec 10) (u : BitVec 1)
  /-- ALU_SHL (R91): Shift left by t[5:0]. -/
  | aluShl (k : BitVec 4) (g : BitVec 12) (s : BitVec 10) (u : BitVec 1)
  /-- ALU_SHR (R91): Logical shift right by t[5:0]. -/
  | aluShr (k : BitVec 4) (g : BitVec 12) (s : BitVec 10) (u : BitVec 1)
  /-- ALU_SAR (R91): Arithmetic shift right by t[5:0]. -/
  | aluSar (k : BitVec 4) (g : BitVec 12) (s : BitVec 10) (u : BitVec 1)
  /-- ALU_ROL (R91): Rotate left by t[5:0]. -/
  | aluRol (k : BitVec 4) (g : BitVec 12) (s : BitVec 10) (u : BitVec 1)
  /-- ALU_ROR (R91): Rotate right by t[5:0]. -/
  | aluRor (k : BitVec 4) (g : BitVec 12) (s : BitVec 10) (u : BitVec 1)
  /-- ALU_MIN (R91): Signed minimum. -/
  | aluMin (k : BitVec 4) (g : BitVec 12) (s : BitVec 10) (u : BitVec 1)
  /-- ALU_MAX (R91): Signed maximum. -/
  | aluMax (k : BitVec 4) (g : BitVec 12) (s : BitVec 10) (u : BitVec 1)
  /-- ALU_MINN (R91): Unsigned minimum. -/
  | aluMinn (k : BitVec 4) (g : BitVec 12) (s : BitVec 10) (u : BitVec 1)
  /-- ALU_MAXN (R91): Unsigned maximum. -/
  | aluMaxn (k : BitVec 4) (g : BitVec 12) (s : BitVec 10) (u : BitVec 1)
  /-- ALU_SEXT (R91): Sign-extend o from bit t[5:0]. -/
  | aluSext (k : BitVec 4) (g : BitVec 12) (s : BitVec 10) (u : BitVec 1)
  /-- ALU_ZEXT (R91): Zero-extend o above bit t[5:0]. -/
  | aluZext (k : BitVec 4) (g : BitVec 12) (s : BitVec 10) (u : BitVec 1)
  /-- ALU_BFX (R92): Signed field extract. -/
  | aluBfx (k : BitVec 4) (g : BitVec 12) (s : BitVec 10) (u : BitVec 1)
  /-- ALU_BFXN (R92): Unsigned field extract. -/
  | aluBfxn (k : BitVec 4) (g : BitVec 12) (s : BitVec 10) (u : BitVec 1)
  /-- ALU_CLZ (R91): Count leading zeros of t. -/
  | aluClz (k : BitVec 4) (g : BitVec 12) (s : BitVec 10) (u : BitVec 1)
  /-- ALU_CTZ (R91): Count trailing zeros of t. -/
  | aluCtz (k : BitVec 4) (g : BitVec 12) (s : BitVec 10) (u : BitVec 1)
  /-- ALU_POPC (R91): Count the one bits of t. -/
  | aluPopc (k : BitVec 4) (g : BitVec 12) (s : BitVec 10) (u : BitVec 1)
  /-- ALU_BSWAP (R91): Reverse the bytes of t. -/
  | aluBswap (k : BitVec 4) (g : BitVec 12) (s : BitVec 10) (u : BitVec 1)
  /-- MUL_MUL (R93): Low 64 bits of o × t. -/
  | mulMul (k : BitVec 4) (g : BitVec 12) (s : BitVec 10)
  /-- MUL_MULH (R93): High half of the signed product. -/
  | mulMulh (k : BitVec 4) (g : BitVec 12) (s : BitVec 10)
  /-- MUL_MULHN (R93): High half of the unsigned product. -/
  | mulMulhn (k : BitVec 4) (g : BitVec 12) (s : BitVec 10)
  /-- MUL_MULHSN (R93): High half of a signed-by-unsigned product. -/
  | mulMulhsn (k : BitVec 4) (g : BitVec 12) (s : BitVec 10)
  /-- MUL_DINIT (R95): Starts a signed division in DV. -/
  | mulDinit (k : BitVec 4) (g : BitVec 12) (s : BitVec 10)
  /-- MUL_DINITN (R95): Starts an unsigned division in DV. -/
  | mulDinitn (k : BitVec 4) (g : BitVec 12) (s : BitVec 10)
  /-- MUL_DSTEP (R95): Develops t[3:0] + 1 quotient bits. -/
  | mulDstep (k : BitVec 4) (g : BitVec 12) (s : BitVec 10)
  /-- MUL_DFIX (R95): Returns the quotient or the remainder. -/
  | mulDfix (k : BitVec 4) (g : BitVec 12) (s : BitVec 10)
  /-- CMP_EQ (R96): Compare o = t. -/
  | cmpEq (k : BitVec 4) (g : BitVec 12) (s : BitVec 10)
  /-- CMP_NE (R96): Compare o ≠ t. -/
  | cmpNe (k : BitVec 4) (g : BitVec 12) (s : BitVec 10)
  /-- CMP_LT (R96): Signed less than. -/
  | cmpLt (k : BitVec 4) (g : BitVec 12) (s : BitVec 10)
  /-- CMP_LE (R96): Signed less or equal. -/
  | cmpLe (k : BitVec 4) (g : BitVec 12) (s : BitVec 10)
  /-- CMP_GT (R96): Signed greater than. -/
  | cmpGt (k : BitVec 4) (g : BitVec 12) (s : BitVec 10)
  /-- CMP_GE (R96): Signed greater or equal. -/
  | cmpGe (k : BitVec 4) (g : BitVec 12) (s : BitVec 10)
  /-- CMP_LTN (R96): Unsigned less than. -/
  | cmpLtn (k : BitVec 4) (g : BitVec 12) (s : BitVec 10)
  /-- CMP_LEN (R96): Unsigned less or equal. -/
  | cmpLen (k : BitVec 4) (g : BitVec 12) (s : BitVec 10)
  /-- CMP_GTN (R96): Unsigned greater than. -/
  | cmpGtn (k : BitVec 4) (g : BitVec 12) (s : BitVec 10)
  /-- CMP_GEN (R96): Unsigned greater or equal. -/
  | cmpGen (k : BitVec 4) (g : BitVec 12) (s : BitVec 10)
  /-- CMP_TBIT (R96): Tests bit t[5:0] of o. -/
  | cmpTbit (k : BitVec 4) (g : BitVec 12) (s : BitVec 10)
  /-- CMP_TANY (R96): Tests whether o AND t is nonzero. -/
  | cmpTany (k : BitVec 4) (g : BitVec 12) (s : BitVec 10)
  /-- DICT_LD (R217): Loads the issuing cell's dictionary from an image. -/
  | dictLd (k : BitVec 4) (g : BitVec 12) (s : BitVec 10)
  /-- SCAN_OUT (R219): Scans out context images of a rectangle of frozen cells. -/
  | scanOut (k : BitVec 4) (g : BitVec 12) (s : BitVec 10)
  /-- SCAN_IN (R361): Restores context images into frozen cells. -/
  | scanIn (k : BitVec 4) (g : BitVec 12) (s : BitVec 10)
  /-- CELL_FRZ (R220): Sets HOLD in the named cells that PART owns. -/
  | cellFrz (k : BitVec 4) (g : BitVec 12) (s : BitVec 10)
  /-- CELL_RSM (R220): Clears HOLD in the named cells that PART owns. -/
  | cellRsm (k : BitVec 4) (g : BitVec 12) (s : BitVec 10)
  /-- MIG_SWAP (R221): Exchanges the active and standby dirty bitmap buffers. -/
  | migSwap (k : BitVec 4) (g : BitVec 12) (s : BitVec 10)
  /-- COS_WR (R222): Writes one L2 partitioning field of a CoS. -/
  | cosWr (k : BitVec 4) (g : BitVec 12) (s : BitVec 10)
  /-- OWN_WR (R223): Sets segment owners of a cell, clearing the segments on change. -/
  | ownWr (k : BitVec 4) (g : BitVec 12) (s : BitVec 10)
  /-- VX_ADD (R117): Lane-wise integer add. -/
  | vxAdd (k : BitVec 4) (g : BitVec 12) (s : BitVec 10) (u : BitVec 1) (w : BitVec 2)
  /-- VX_SUB (R117): Lane-wise integer subtract. -/
  | vxSub (k : BitVec 4) (g : BitVec 12) (s : BitVec 10) (u : BitVec 1) (w : BitVec 2)
  /-- VX_ADDS (R117): Signed saturating add. -/
  | vxAdds (k : BitVec 4) (g : BitVec 12) (s : BitVec 10) (u : BitVec 1) (w : BitVec 2)
  /-- VX_ADDSN (R117): Unsigned saturating add. -/
  | vxAddsn (k : BitVec 4) (g : BitVec 12) (s : BitVec 10) (u : BitVec 1) (w : BitVec 2)
  /-- VX_SUBS (R117): Signed saturating subtract. -/
  | vxSubs (k : BitVec 4) (g : BitVec 12) (s : BitVec 10) (u : BitVec 1) (w : BitVec 2)
  /-- VX_SUBSN (R117): Unsigned saturating subtract. -/
  | vxSubsn (k : BitVec 4) (g : BitVec 12) (s : BitVec 10) (u : BitVec 1) (w : BitVec 2)
  /-- VX_MUL (R117): Low bits of the lane product. -/
  | vxMul (k : BitVec 4) (g : BitVec 12) (s : BitVec 10) (u : BitVec 1) (w : BitVec 2)
  /-- VX_MIN (R117): Signed lane minimum. -/
  | vxMin (k : BitVec 4) (g : BitVec 12) (s : BitVec 10) (u : BitVec 1) (w : BitVec 2)
  /-- VX_MAX (R117): Signed lane maximum. -/
  | vxMax (k : BitVec 4) (g : BitVec 12) (s : BitVec 10) (u : BitVec 1) (w : BitVec 2)
  /-- VX_AND (R117): Bitwise AND over 1024 bits. -/
  | vxAnd (k : BitVec 4) (g : BitVec 12) (s : BitVec 10) (u : BitVec 1)
  /-- VX_OR (R117): Bitwise OR over 1024 bits. -/
  | vxOr (k : BitVec 4) (g : BitVec 12) (s : BitVec 10) (u : BitVec 1)
  /-- VX_XOR (R117): Bitwise XOR over 1024 bits. -/
  | vxXor (k : BitVec 4) (g : BitVec 12) (s : BitVec 10) (u : BitVec 1)
  /-- VX_ANDN (R117): Bitwise AND NOT over 1024 bits. -/
  | vxAndn (k : BitVec 4) (g : BitVec 12) (s : BitVec 10) (u : BitVec 1)
  /-- VX_SHL (R118): Lane shift left by a whole-lane count. -/
  | vxShl (k : BitVec 4) (g : BitVec 12) (s : BitVec 10) (u : BitVec 1) (w : BitVec 2)
  /-- VX_SHR (R118): Lane logical shift right. -/
  | vxShr (k : BitVec 4) (g : BitVec 12) (s : BitVec 10) (u : BitVec 1) (w : BitVec 2)
  /-- VX_SAR (R118): Lane arithmetic shift right. -/
  | vxSar (k : BitVec 4) (g : BitVec 12) (s : BitVec 10) (u : BitVec 1) (w : BitVec 2)
  /-- VX_CEQ (R117): Lane equality mask. -/
  | vxCeq (k : BitVec 4) (g : BitVec 12) (s : BitVec 10) (u : BitVec 1) (w : BitVec 2)
  /-- VX_CLT (R117): Signed less-than mask. -/
  | vxClt (k : BitVec 4) (g : BitVec 12) (s : BitVec 10) (u : BitVec 1) (w : BitVec 2)
  /-- VX_CLTN (R117): Unsigned less-than mask. -/
  | vxCltn (k : BitVec 4) (g : BitVec 12) (s : BitVec 10) (u : BitVec 1) (w : BitVec 2)
  /-- VF_ADD (R121): Floating-point add. -/
  | vfAdd (k : BitVec 4) (g : BitVec 12) (s : BitVec 10) (f : BitVec 2)
  /-- VF_SUB (R121): Floating-point subtract. -/
  | vfSub (k : BitVec 4) (g : BitVec 12) (s : BitVec 10) (f : BitVec 2)
  /-- VF_MUL (R121): Floating-point multiply. -/
  | vfMul (k : BitVec 4) (g : BitVec 12) (s : BitVec 10) (f : BitVec 2)
  /-- VF_FMA (R121): Fused o × m + t. -/
  | vfFma (k : BitVec 4) (g : BitVec 12) (s : BitVec 10) (f : BitVec 2)
  /-- VF_FMS (R121): Fused o × m − t. -/
  | vfFms (k : BitVec 4) (g : BitVec 12) (s : BitVec 10) (f : BitVec 2)
  /-- VF_MIN (R123): Floating-point minimum. -/
  | vfMin (k : BitVec 4) (g : BitVec 12) (s : BitVec 10) (f : BitVec 2)
  /-- VF_MAX (R123): Floating-point maximum. -/
  | vfMax (k : BitVec 4) (g : BitVec 12) (s : BitVec 10) (f : BitVec 2)
  /-- VF_ABS (R120): Clears the sign bit. -/
  | vfAbs (k : BitVec 4) (g : BitVec 12) (s : BitVec 10) (f : BitVec 2)
  /-- VF_NEG (R120): Inverts the sign bit. -/
  | vfNeg (k : BitVec 4) (g : BitVec 12) (s : BitVec 10) (f : BitVec 2)
  /-- VF_CEQ (R123): Floating-point equality mask. -/
  | vfCeq (k : BitVec 4) (g : BitVec 12) (s : BitVec 10) (f : BitVec 2)
  /-- VF_CLT (R123): Floating-point less-than mask. -/
  | vfClt (k : BitVec 4) (g : BitVec 12) (s : BitVec 10) (f : BitVec 2)
  /-- VF_CLE (R123): Floating-point less-or-equal mask. -/
  | vfCle (k : BitVec 4) (g : BitVec 12) (s : BitVec 10) (f : BitVec 2)
  /-- VF_RCPE (R124): Reciprocal estimate. -/
  | vfRcpe (k : BitVec 4) (g : BitVec 12) (s : BitVec 10) (f : BitVec 2)
  /-- VF_RSQE (R124): Reciprocal square-root estimate. -/
  | vfRsqe (k : BitVec 4) (g : BitVec 12) (s : BitVec 10) (f : BitVec 2)
  /-- VF_TOI (R125): Floating-point to signed integer, with records and counts. -/
  | vfToi (k : BitVec 4) (g : BitVec 12) (s : BitVec 10) (f : BitVec 2)
  /-- VF_FROMI (R125): Signed integer to floating point. -/
  | vfFromi (k : BitVec 4) (g : BitVec 12) (s : BitVec 10) (f : BitVec 2)
  /-- VR_PERM (R128): Per-lane index permute of o followed by m. -/
  | vrPerm (k : BitVec 4) (g : BitVec 12) (s : BitVec 10) (w : BitVec 2)
  /-- VR_LSH (R128): Lane shift toward lane 0 across o and m. -/
  | vrLsh (k : BitVec 4) (g : BitVec 12) (s : BitVec 10) (w : BitVec 2)
  /-- VR_ROT (R128): Lane rotation of o. -/
  | vrRot (k : BitVec 4) (g : BitVec 12) (s : BitVec 10) (w : BitVec 2)
  /-- VR_RADD (R129): Signed integer sum of all lanes. -/
  | vrRadd (k : BitVec 4) (g : BitVec 12) (s : BitVec 10) (w : BitVec 2)
  /-- VR_RMAX (R129): Signed lane maximum and its lowest index. -/
  | vrRmax (k : BitVec 4) (g : BitVec 12) (s : BitVec 10) (w : BitVec 2)
  /-- VR_RFADD (R130): Floating-point tree sum. -/
  | vrRfadd (k : BitVec 4) (g : BitVec 12) (s : BitVec 10) (f : BitVec 2)
  /-- VR_RFMAX (R130): Floating-point tree maximum. -/
  | vrRfmax (k : BitVec 4) (g : BitVec 12) (s : BitVec 10) (f : BitVec 2)
  /-- VR_XTR (R131): Extracts one lane of vr.o to vr.x. -/
  | vrXtr (k : BitVec 4) (g : BitVec 12) (s : BitVec 10) (w : BitVec 2)
  /-- LSU_SLD_N8 (R144): Scratchpad load of 1 byte, zero-extended. -/
  | lsuSldN8 (g : BitVec 12) (s : BitVec 10)
  /-- LSU_SLD_I8 (R144): Scratchpad load of 1 byte, sign-extended. -/
  | lsuSldI8 (g : BitVec 12) (s : BitVec 10)
  /-- LSU_SLD_N16 (R144): Scratchpad load of 2 bytes, zero-extended. -/
  | lsuSldN16 (g : BitVec 12) (s : BitVec 10)
  /-- LSU_SLD_I16 (R144): Scratchpad load of 2 bytes, sign-extended. -/
  | lsuSldI16 (g : BitVec 12) (s : BitVec 10)
  /-- LSU_SLD_N32 (R144): Scratchpad load of 4 bytes, zero-extended. -/
  | lsuSldN32 (g : BitVec 12) (s : BitVec 10)
  /-- LSU_SLD_I32 (R144): Scratchpad load of 4 bytes, sign-extended. -/
  | lsuSldI32 (g : BitVec 12) (s : BitVec 10)
  /-- LSU_SLD_64 (R144): Scratchpad load of 8 bytes. -/
  | lsuSld64 (g : BitVec 12) (s : BitVec 10)
  /-- LSU_SST_8 (R144): Streamed scratchpad store of 1 byte. -/
  | lsuSst8 (g : BitVec 12) (s : BitVec 10)
  /-- LSU_SST_16 (R144): Streamed scratchpad store of 2 bytes. -/
  | lsuSst16 (g : BitVec 12) (s : BitVec 10)
  /-- LSU_SST_32 (R144): Streamed scratchpad store of 4 bytes. -/
  | lsuSst32 (g : BitVec 12) (s : BitVec 10)
  /-- LSU_SST_64 (R144): Streamed scratchpad store of 8 bytes. -/
  | lsuSst64 (g : BitVec 12) (s : BitVec 10)
  /-- LSU_MLD_N8 (R144): Memory load of 1 byte, zero-extended. -/
  | lsuMldN8 (g : BitVec 12) (s : BitVec 10)
  /-- LSU_MLD_I8 (R144): Memory load of 1 byte, sign-extended. -/
  | lsuMldI8 (g : BitVec 12) (s : BitVec 10)
  /-- LSU_MLD_N16 (R144): Memory load of 2 bytes, zero-extended. -/
  | lsuMldN16 (g : BitVec 12) (s : BitVec 10)
  /-- LSU_MLD_I16 (R144): Memory load of 2 bytes, sign-extended. -/
  | lsuMldI16 (g : BitVec 12) (s : BitVec 10)
  /-- LSU_MLD_N32 (R144): Memory load of 4 bytes, zero-extended. -/
  | lsuMldN32 (g : BitVec 12) (s : BitVec 10)
  /-- LSU_MLD_I32 (R144): Memory load of 4 bytes, sign-extended. -/
  | lsuMldI32 (g : BitVec 12) (s : BitVec 10)
  /-- LSU_MLD_64 (R144): Memory load of 8 bytes. -/
  | lsuMld64 (g : BitVec 12) (s : BitVec 10)
  /-- LSU_MST_8 (R144): Streamed memory store of 1 byte. -/
  | lsuMst8 (g : BitVec 12) (s : BitVec 10)
  /-- LSU_MST_16 (R144): Streamed memory store of 2 bytes. -/
  | lsuMst16 (g : BitVec 12) (s : BitVec 10)
  /-- LSU_MST_32 (R144): Streamed memory store of 4 bytes. -/
  | lsuMst32 (g : BitVec 12) (s : BitVec 10)
  /-- LSU_MST_64 (R144): Streamed memory store of 8 bytes. -/
  | lsuMst64 (g : BitVec 12) (s : BitVec 10)
  /-- LSU_MLD_AQ32 (R151): 4-byte memory load followed by an acquire. -/
  | lsuMldAq32 (g : BitVec 12) (s : BitVec 10)
  /-- LSU_MLD_AQ64 (R151): 8-byte memory load followed by an acquire. -/
  | lsuMldAq64 (g : BitVec 12) (s : BitVec 10)
  /-- LSU_MST_RL32 (R151): Release followed by a 4-byte memory store. -/
  | lsuMstRl32 (g : BitVec 12) (s : BitVec 10)
  /-- LSU_MST_RL64 (R151): Release followed by an 8-byte memory store. -/
  | lsuMstRl64 (g : BitVec 12) (s : BitVec 10)
  /-- LSU_AMO (R152): Scalar scratchpad atomic. -/
  | lsuAmo (g : BitVec 12) (s : BitVec 10)
  /-- LSU_L2AMO (R156): Scalar memory atomic performed at the home L2 slice. -/
  | lsuL2amo (g : BitVec 12) (s : BitVec 10)
  /-- LSU_CPY (R149): Converting copy between scratchpad banks. -/
  | lsuCpy (g : BitVec 12) (s : BitVec 10)
  /-- LSU_CBADV (R162): Advances a circular buffer's read or write pointer. -/
  | lsuCbadv (g : BitVec 12) (s : BitVec 10)
  /-- LSU_REL (R150): Inserts a release marker of a scope. -/
  | lsuRel (g : BitVec 12) (s : BitVec 10)
  /-- LSU_ACQ (R150): Acquire that invalidates clean RC lines of a scope. -/
  | lsuAcq (g : BitVec 12) (s : BitVec 10)
  /-- LSU_FENCE (R150): Release then acquire that also covers UO pages. -/
  | lsuFence (g : BitVec 12) (s : BitVec 10)
  /-- LSU_VLDS (R144): 128-byte scratchpad vector load. -/
  | lsuVlds (g : BitVec 12) (s : BitVec 10)
  /-- LSU_VLDM (R144): 128-byte memory vector load. -/
  | lsuVldm (g : BitVec 12) (s : BitVec 10)
  /-- LSU_TLD (R146): Tile load from the scratchpad through the tile port. -/
  | lsuTld (g : BitVec 12) (s : BitVec 10)
  /-- LSU_TST (R146): Tile store to the scratchpad through the tile port. -/
  | lsuTst (g : BitVec 12) (s : BitVec 10)
  /-- LSU_VSTS (R144): Streamed 128-byte scratchpad vector store. -/
  | lsuVsts (g : BitVec 12) (s : BitVec 10)
  /-- LSU_VSTM (R144): Streamed 128-byte memory vector store. -/
  | lsuVstm (g : BitVec 12) (s : BitVec 10)
  /-- LSU_VAMO (R152): 32-byte vector scratchpad atomic. -/
  | lsuVamo (g : BitVec 12) (s : BitVec 10)
  /-- LSU_VCAS128 (R152): 128-bit compare-and-swap at L2. -/
  | lsuVcas128 (g : BitVec 12) (s : BitVec 10)
  /-- XLT_MAP (R164): Translates a virtual address into a physical handle. -/
  | xltMap (g : BitVec 12) (s : BitVec 10)
  /-- XLT_UNMAP (R164): Clears V of every handle named in the mask. -/
  | xltUnmap (g : BitVec 12) (s : BitVec 10)
  /-- XLT_PROBE (R164): Returns a handle's summary. -/
  | xltProbe (g : BitVec 12) (s : BitVec 10)
  /-- CE_GO (R169): Checks and submits the foreground copy-engine set. -/
  | ceGo (g : BitVec 12) (s : BitVec 10)
  /-- CE_SWAP (R168): Exchanges the foreground and shadow sets. -/
  | ceSwap (g : BitVec 12) (s : BitVec 10)
  /-- CE_POLL (R168): Returns the counts of queued and ended commands. -/
  | cePoll (g : BitVec 12) (s : BitVec 10)
  /-- CE_ABORT (R172): Ends every queued and running command of the cell. -/
  | ceAbort (g : BitVec 12) (s : BitVec 10)
  /-- LNK_SEND (R173): Sends 1024 bits to a neighbour on the named port. -/
  | lnkSend (g : BitVec 12) (s : BitVec 10) (p : BitVec 2)
  /-- MX_PUSH (R183): Injects a slice and advances the array. -/
  | mxPush (a : BitVec 3) (t : BitVec 4) (b : BitVec 4)
  /-- MX_SHIFT (R183): Advances the array without accumulating. -/
  | mxShift
  /-- MX_ACC (R183): Advances the array and accumulates products. -/
  | mxAcc
  /-- MX_PACC (R183): Injects a slice, advances the array and accumulates. -/
  | mxPacc (a : BitVec 3) (t : BitVec 4) (b : BitVec 4)
  /-- MX_DRAIN (R188): Converts an accumulator row into mx.r. -/
  | mxDrain (a : BitVec 3) (r : BitVec 6) (f : BitVec 3) (h : BitVec 1)
  /-- MX_MRG (R189): Merges a vector row into an accumulator row. -/
  | mxMrg (a : BitVec 3) (r : BitVec 6) (f : BitVec 3) (h : BitVec 1) (c : BitVec 3)
  /-- MX_CLR (R190): Clears a row, or the whole tile. -/
  | mxClr (a : BitVec 3) (r : BitVec 6) (w : BitVec 1)
  /-- MX_NORM (R34): Normalises a row, or every row. -/
  | mxNorm (a : BitVec 3) (r : BitVec 6) (w : BitVec 1)
  /-- MX_RDM (R191): Reads a quarter of a row's mantissas into mx.r. -/
  | mxRdm (a : BitVec 3) (r : BitVec 6) (q : BitVec 2)
  /-- MX_RDX (R191): Reads row records or counters into mx.r. -/
  | mxRdx (a : BitVec 3) (q : BitVec 2)
  /-- MX_WRM (R192): Writes a quarter of a row's mantissas. -/
  | mxWrm (a : BitVec 3) (r : BitVec 6) (q : BitVec 2) (c : BitVec 3)
  /-- MX_WRX (R192): Writes row records or counters. -/
  | mxWrx (a : BitVec 3) (q : BitVec 2) (c : BitVec 3)
  /-- XF_CVT (R200): Converts latch elements between formats into xf.r. -/
  | xfCvt (i : BitVec 4) (o : BitVec 4) (v : BitVec 4) (p : BitVec 3) (r : BitVec 2)
  /-- XF_EXP (R202): Widens half of an 8-bit tile into a 16-bit tile. -/
  | xfExp (i : BitVec 4) (o : BitVec 4) (s : BitVec 4) (d : BitVec 4) (l : BitVec 1) (h : BitVec 1)
  /-- XF_TR (R203): Transposes a tile. -/
  | xfTr (s : BitVec 4) (d : BitVec 4) (w : BitVec 1)
  /-- XF_SPLIT (R205): Splits outlier columns of an A tile and writes TDMAP. -/
  | xfSplit (s : BitVec 4) (d : BitVec 4) (e : BitVec 8)
  /-- XF_PACK (R204): Writes one tile line from a latch. -/
  | xfPack (v : BitVec 4) (d : BitVec 4) (l : BitVec 6) (m : BitVec 1) (q : BitVec 1)
  /-- LONG_IMMEDIATE (R207): Supplies a 30-bit signed immediate on source 0x300. -/
  | longImmediate (i : BitVec 30)
  /-- BCAST (R208): Broadcasts a scalar register to every lane on bc. -/
  | bcast (e : BitVec 2) (x : BitVec 6)
  /-- CHK (R209): Compares a primary with its shadow and traps DUPMIS on a difference. -/
  | chk (c : BitVec 1) (i : BitVec 5)
  /-- ISSUE (R257): The next bundle of an unfrozen cell issues, and every slot word acts under the timing of R69. -/
  | issue (n : Nat)
  /-- RESULT_LANDING (R69): When its latency count runs out, an operation in flight writes its result latch or target register, and held results land at their SCYC. -/
  | resultLanding (n : Nat)
  /-- FIRMWARE_BUNDLE (R81): The firmware context issues one bundle in a cycle taken from the user schedule, which freezes the lockstep group for that cycle. -/
  | firmwareBundle (n : Nat)
  /-- GANG_STREAM_ISSUE (R409): A gang follower issues a queued gang-stream entry r times SKEW cycles after the leader, and applies the leader's outcome. -/
  | gangStreamIssue (n : Nat)
  /-- FETCH_LINE_ARRIVAL (R57): A missing fetch line arrives, and the cell frozen for the instruction-cache miss can issue. -/
  | fetchLineArrival (n : Nat) (fw : Bool) (line : Word)
  /-- CELL_FREEZE (R347): A freeze request or HOLD takes effect at a cycle boundary, and results in flight are held in snapshot registers. -/
  | cellFreeze (n : Nat)
  /-- LINK_ARRIVAL (R173): A link send lands in the receiver's staging register and, if a buffer names the port, is deposited. -/
  | linkArrival (n : Nat)
  /-- FILL_REQUEST (R257): A load that needs an invalid word sends a fill of the line toward its home. -/
  | fillRequest (n : Nat) (id : Nat)
  /-- BIND (R257): A queued load binds its bytes from the store buffer or L1 and leaves the load queue. -/
  | bind (n : Nat) (id : Nat)
  /-- ACQUIRE (R257): An acquire whose older loads have bound invalidates clean lines of its scope. -/
  | acquire (n : Nat)
  /-- DRAIN (R257): The oldest store drains into L1, its words become D, and a dirty-line FIFO entry is made. -/
  | drain (n : Nat)
  /-- PLACE (R257): The oldest store-buffer marker enters the dirty-line FIFO. -/
  | place (n : Nat)
  /-- WRITE_BACK (R257): A line's D words enter the channel to the home as one message and become C. -/
  | writeBack (n : Nat) (line : Nat)
  /-- COMPLETE (R257): The oldest incomplete release marker completes once everything ahead of it is performed. -/
  | complete (n : Nat)
  /-- SO (R257): A queued strongly-ordered access enters the channel to its home once its conditions hold. -/
  | so (n : Nat)
  /-- ENGINE (R257): The head of the engine queue starts: an L2 atomic writes back its line and goes to its home, or a ce command runs under R263. -/
  | engine (n : Nat)
  /-- RECORD (R257): The oldest exception-record write enters the channel to its home. -/
  | record (n : Nat)
  /-- PERFORM (R257): The oldest message in a channel acts at its home: a fill, a writeback, an atomic, or an engine or SO access. -/
  | perform (id : Nat)
  /-- HOST (R261): The oldest host-to-device queue entry is performed at its home. -/
  | host (f : Nat)
  /-- HOST_ATOMIC_WRITE (R262): The later write of a host atomic to a page without SYSAT is performed as a separate step. -/
  | hostAtomicWrite (f : Nat)
  /-- FILL_START (R340): A waiting L2 fill starts under the credit arbitration, chooses its victim and updates OCC. -/
  | fillStart (die slice : Nat)
  /-- CE_COMPLETION (R171): A finished copy-engine command deposits its completion record. -/
  | ceCompletion (n : Nat)
  /-- TASK_COMPLETION (R112): After br.end, once results have landed, commands are done and the release completes, the cell reports completion. -/
  | taskCompletion (n : Nat)
  /-- TRANSLATION_WALK (R322): A walk of both stages builds a handle, sets A and D, and restarts if ISEQ changed. -/
  | translationWalk (n : Nat) (fw : Bool)
  /-- INVREQ (R327): A tenant write requests invalidation of a range of its stage 1. -/
  | invreq (f : Nat) (v : Word)
  /-- HINVREQ (R327): A hypervisor write requests invalidation of a range of a function's stage 2. -/
  | hinvreq (v : Word)
  /-- INVALIDATION_COMPLETE (R328): An invalidation request completes once caches, walks, handles and accesses are done, and DONE takes its number. -/
  | invalidationComplete (f : Nat) (stage2 : Bool)
  /-- HVRESP_RETRY (R326): A hypervisor answer that restarts a held second-stage walk, or re-checks a scan pin. -/
  | hvrespRetry (n : Nat)
  /-- HVRESP_REFLECT (R326): A hypervisor answer that ends a held walk with a trap filed in the region's queue, or ends a scan. -/
  | hvrespReflect (n : Nat)
  /-- HVRESP_KILL (R326): A hypervisor answer that kills the region's kernel with FAULTKILL. -/
  | hvrespKill (n : Nat)
  /-- LOCK_INTERFACE_REQUEST (R332): A TDISP message that locks a function's context and takes its measurement. -/
  | lockInterfaceRequest (f : Nat)
  /-- START_INTERFACE_REQUEST (R332): A TDISP message that moves a locked function to RUN. -/
  | startInterfaceRequest (f : Nat)
  /-- STOP_INTERFACE_REQUEST (R332): A TDISP message that returns a function to CONFIG_UNLOCKED. -/
  | stopInterfaceRequest (f : Nat)
  /-- TDISP_ERROR (R332): A locked-context write, end of session, function reset or life-cycle change puts a function in ERROR and kills its kernels. -/
  | tdispError (f : Nat)
  /-- GET_VERSION (R333): An SPDM request answered by the security processor. -/
  | getVersion (f : Nat)
  /-- GET_CAPABILITIES (R333): An SPDM request answered by the security processor. -/
  | getCapabilities (f : Nat)
  /-- NEGOTIATE_ALGORITHMS (R333): An SPDM request that settles the fixed algorithms. -/
  | negotiateAlgorithms (f : Nat)
  /-- GET_DIGESTS (R333): An SPDM request for certificate digests. -/
  | getDigests (f : Nat)
  /-- GET_CERTIFICATE (R333): An SPDM request for a certificate. -/
  | getCertificate (f : Nat)
  /-- CHALLENGE (R333): An SPDM challenge request. -/
  | challenge (f : Nat)
  /-- GET_MEASUREMENTS (R333): An SPDM request that computes and returns measurements, including each function's stage-2 digest. -/
  | getMeasurements (f : Nat) (idx : Nat)
  /-- KEY_EXCHANGE (R333): An SPDM request that opens a session key exchange. -/
  | keyExchange (f : Nat)
  /-- FINISH (R333): An SPDM request that finishes session establishment. -/
  | finish (f : Nat)
  /-- HEARTBEAT (R333): An SPDM session heartbeat request. -/
  | heartbeat (f : Nat)
  /-- KEY_UPDATE (R333): An SPDM request that updates session keys. -/
  | keyUpdate (f : Nat)
  /-- END_SESSION (R333): An SPDM request that ends the secure session. -/
  | endSession (f : Nat)
  /-- VENDOR_DEFINED_REQUEST (R333): An SPDM vendor-defined request, which carries the TDISP messages. -/
  | vendorDefinedRequest (f : Nat) (msg : Nat)
  /-- QNOTIFY (R312): A doorbell write with CAN 0 makes the CP read packet slots from RD up to WIDX minus 1. -/
  | qnotify (q : Nat) (v : Word)
  /-- QNOTIFY_CANCEL (R317): A doorbell write with CAN 1 cancels or kills the kernel of the named packet. -/
  | qnotifyCancel (q : Nat) (v : Word)
  /-- KERNEL_ADMISSION (R316): Once WSIG and the energy conditions are met, a LAUNCH is admitted, EEST is reserved and RD advances. -/
  | kernelAdmission (kid : Nat)
  /-- TASK_DISPATCH (R232): A die scheduler binds a ready tile task to free cells and starts it. -/
  | taskDispatch (kid : Nat) (lead : Nat)
  /-- PREEMPTION (R364): The scheduler freezes a lower-priority task, scans it out, changes the owner and dispatches the waiting task. -/
  | preemption (kid : Nat) (victim : Nat) (base : Nat)
  /-- PACKET_RETIREMENT (R367): The CP releases, writes word 0 with STATUS, and decrements SIGNAL. -/
  | packetRetirement (kid : Nat)
  /-- ADMIT_RCB (R307): A hypervisor command asks Sirvy to check and admit a region control block. -/
  | admitRcb (pa : Nat)
  /-- QUEUE_CONTEXT_WRITE (R310): A hypervisor command has Sirvy write a queue's 32-byte context. -/
  | queueContextWrite (q : Nat) (v : BitVec 256)
  /-- TRANSLATION_CONTEXT_WRITE (R318): A hypervisor command has Sirvy write a region's translation context. -/
  | translationContextWrite (part : Nat) (v : BitVec 256)
  /-- SUBTREE_RELEASE (R309): A hypervisor release command unfreezes a frozen subtree and resumes its dispatch. -/
  | subtreeRelease (part : Nat)
  /-- ENERGY_REFILL (R316): Every 1 ms each region's EREM is refilled by EREF, up to EBUD. -/
  | energyRefill (dt : Nat)
  /-- ENERGY_CHARGE (R397): Every 100 µs, and when a task ends, each cell's ENJ growth is charged to its region and ancestors. -/
  | energyCharge (dt : Nat)
  /-- ENERGY_CALIBRATION (R396): Every 1 ms the Vesper engine rescales the energy calibration to the measured die power. -/
  | energyCalibration (die : Nat)
  /-- TELEMETRY_SAMPLE (R398): Every PERIOD µs the Vesper engine appends a 32-byte telemetry record. -/
  | telemetrySample (die : Nat) (pwr : BitVec 32) (hbmt : BitVec 16) (qt : BitVec 64)
  /-- THERMAL_THRESHOLD (R399): A quadrant crossing 105, 115 or 100 °C stops or resumes dispatch, or freezes or releases the die. -/
  | thermalThreshold (die : Nat) (qt : BitVec 64)
  /-- SCRUB (R378): The Vesper engine reads a protected word in idle cycles, corrects it, or marks it poisoned and reports it. -/
  | scrub (die : Nat) (addr : Nat) (bad : Bool)
  /-- SCHEDULE_TABLE_FIRING (R315): When TIME reaches TICK, a valid schedule entry launches its kernel and advances TICK. -/
  | scheduleTableFiring (die : Nat) (i : Nat) (dt : Nat)
  /-- PPS_EDGE (R314): At a 1PPS edge after a TSET write, TIME steps or starts to slew toward TSET. -/
  | ppsEdge (dt : Nat)
  /-- SLEW_END (R314): A slew ends once TIME has gained or lost the measured offset. -/
  | slewEnd (dt : Nat)
  /-- LOCK_TIMEOUT (R314): TSTAT.LOCK clears when no 1PPS edge has arrived for 1.5 s. -/
  | lockTimeout (dt : Nat)
  /-- CRCTL_WRITE (R267): A write to a codec region's CRCTL is checked and, when it changes EN, starts the L2 drain. -/
  | crctlWrite (r : Nat) (v : Word)
  /-- CODEC_DRAIN_END (R267): When every slice has written back the view range, EN takes its new value and DRN clears. -/
  | codecDrainEnd (r : Nat)
  /-- SCAN_TRANSFER (R348): Once a cell is quiescent, the scan moves its image bits and writes VALID last as a release. -/
  | scanTransfer (die : Nat) (n : Nat)
  /-- SYS_COMPLETION (R215): An accepted sys command ends and writes its completion record as a device-scope release. -/
  | sysCompletion (die : Nat)
  /-- FWRSM_RESUME (R405): A FWRSM write with NEW 0 resumes a stopped firmware context under R211. -/
  | fwrsmResume (die : Nat) (v : Word)
  /-- FWRSM_START (R405): A FWRSM write with NEW 1 starts a stopped firmware context at FWRPC. -/
  | fwrsmStart (die : Nat) (v : Word)
  /-- HALT (R299): DBGCTL.HALT requests a debugger stop of the cell's lockstep group. -/
  | halt (n : Nat)
  /-- STEP (R299): DBGCTL.STEP releases a stopped cell for one issue cycle. -/
  | step (n : Nat)
  /-- RUN (R298): DBGCTL.RUN clears HOLD as cell.rsm does. -/
  | run (n : Nat)
  /-- DBGDATA_READ (R302): A read of DBGDATA returns the state bits named by DBGSEL, or zero with ERR. -/
  | dbgdataRead (n : Nat) (part : Nat)
  /-- DBGDATA_WRITE (R302): A write of DBGDATA replaces the state bits named by DBGSEL, or sets ERR. -/
  | dbgdataWrite (n : Nat) (part : Nat) (v : Word)
  /-- PRECISE_STOP (R300): A precise HALT stops the cell at the first cycle with no result in flight. -/
  | preciseStop (n : Nat)
  /-- PRECISE_STOP_TIMEOUT (R300): After 256 cycles without reaching a precise point, the cell stops with REASON 6. -/
  | preciseStopTimeout (n : Nat)
  /-- GANGFAIL (R382): Sirvy scans out a failed cell's lockstep group, flags the failed image and files a group-failure record. -/
  | gangfail (n : Nat) (base : Nat)
  /-- DEVICE_RESET (R395): A reset applies repair classes and starts a wipe. -/
  | deviceReset
  /-- LIFECYCLE_CHANGE (R394): A life-cycle change is permitted or refused and, when permitted, starts a wipe. -/
  | lifecycleChange (nst : BitVec 3)
  /-- WIPE_END (R395): The wipe finishes, every word is zero, and WIPING clears. -/
  | wipeEnd
  /-- FWCMD_STAGE (R392): FWCMD with OP 1 stages a firmware image and checks its signature. -/
  | fwcmdStage (v : Word)
  /-- FWCMD_ACTIVATE (R393): FWCMD with OP 2 pauses the queues and sends PAUSE to the functions. -/
  | fwcmdActivate (v : Word)
  /-- FWACK (R393): A function acknowledges the pause, and once all have acknowledged Sirvy is replaced and RESUME is sent. -/
  | fwack (f : Nat)
  /-- FW_ACTIVATION_TIMEOUT (R393): With acknowledgements missing after 10 s, the old firmware stays, TIMEOUT is reported and RESUME is sent. -/
  | fwActivationTimeout
  /-- CKSAVE (R390): A collective command writes chunks to peers and the parity locally. -/
  | cksave (blk : BitVec 512)
  /-- CKLOAD (R391): A collective command rebuilds a shard from the pieces of all members. -/
  | ckload (blk : BitVec 512)
  /-- COLLECTIVE_COMPLETION (R264): A collective command writes its completion record once its writes are performed. -/
  | collectiveCompletion
  /-- HALF_READ_LOW (R401): A host read of the low half returns bits 31:0 and latches bits 63:32 for that function. -/
  | halfReadLow (f : Nat) (sp die off : Nat)
  /-- HALF_READ_HIGH (R401): A host read of the high half returns the function's latch. -/
  | halfReadHigh (f : Nat)
  /-- REGISTER_WRITE (R4): A write to a register that has no row of its own sets its fields under its access codes. -/
  | registerWrite (sp die off : Nat) (v : Word)
  /-- FILL_INSTALL (R370): The data of a started L2 fill arrives from memory and is installed in the chosen way, ending the window in which lookups join the fill. -/
  | fillInstall (die slice : Nat)
  /-- PEER_PORT_ACCESS (R390): A peer device's collective engine writes checkpoint pieces into this device's memory, or reads them, over a peer Jisum port. -/
  | peerPortAccess (port : Nat) (wr : Bool) (addr : Nat) (v : BitVec 512)
  /-- RCB_TEARDOWN (R304): A region is torn down, ending its admission and the pinning of its pages and save area. -/
  | rcbTeardown (part : Nat)
  deriving DecidableEq, Repr

end Sys2Proof
end

