-- ==== Sys2Proof/WellFormed.lean ====
section
/-!
DEFINITION. The decoding checks of a slot word (R43, R46, R176, R198, R206, R209): an instruction is well-formed
in guard mode P (p = true) or G (p = false) when its word traps nothing at decoding. The checks that look at the
B word of the bundle (sources 0x300 and bc) are made by the bundle.
-/

namespace Sys2Proof

/-- The guard of R43: with G = 0 every other bit is zero; in mode P bits [9:6] are zero. -/
def guardOk (p : Bool) (g : BitVec 12) : Bool :=
  if g.getLsbD 11 then !p || g.extractLsb' 6 4 == 0#4 else g == 0#12

/-- Scalar control-register numbers that exist (R53). -/
def cregOk (n : Nat) : Bool := 0x100 ≤ n && n < 0x160 && n != 0x10E && n != 0x10F

/-- Scalar source codes (R47). -/
def srcSOk (s : BitVec 10) : Bool :=
  let n := s.toNat
  n < 0x4A || (0x60 ≤ n && n < 0x64) || (0x80 ≤ n && n < 0x100) || cregOk n || n == 0x300

/-- Vector source codes (R49), buffer reads included. -/
def srcVOk (s : BitVec 10) : Bool :=
  let n := s.toNat
  n < 0xAB || n == 0xE0 || (0x100 ≤ n && n < 0x180)

/-- S-slot destinations that are no trigger (R48). -/
def dstSOk (d : BitVec 10) : Bool := let n := d.toNat; n < 0x48 || cregOk n

/-- V-slot destinations that are neither trigger nor buffer write (R49). -/
def dstVOk (d : BitVec 10) : Bool := d.toNat < 0x286

/-- The S slots, the V slots. -/
def isS (k : BitVec 4) : Bool := k == 1 || k == 2 || k == 3
/-- The V slots. -/
def isV (k : BitVec 4) : Bool := k == 4 || k == 5 || k == 6 || k == 7

/-- M-slot latch destinations with a scalar source (R52). -/
def dstMOk (d : BitVec 10) : Bool := let n := d.toNat; n < 5 || n == 8 || (0x10 ≤ n && n < 0x14)

/-- A move that is no trigger, by its slot (R47 to R52). An unguarded move of 0 to 0 is the idle word (R39). -/
def moveOk (k : BitVec 4) (g : BitVec 12) (s d : BitVec 10) : Bool :=
  (g != 0 || s != 0 || d != 0) &&
  (if isS k then srcSOk s && dstSOk d
   else if isV k then srcVOk s && s.extractLsb' 7 3 != 2#3 && dstVOk d
   else k == 8 && ((srcSOk s && dstMOk d) || (srcVOk s && s.extractLsb' 7 3 != 2#3 && d == 0x200)))

/-- The element width of a format code of R197. -/
def xfWidth (f : BitVec 4) : Nat :=
  match f.toNat with
  | 0 | 1 | 8 => 8
  | 2 | 3 | 9 | 10 => 16
  | 4 | 5 | 11 => 32
  | _ => 64

/-- The decoding checks. -/
def WellFormed (p : Bool) : Instr → Bool
  | .br _ g _ _ _ => guardOk p g
  | .brCall _ g _ _ _ => guardOk p g
  | .brRet g _ _ _ => guardOk p g
  | .brInd _ g _ _ _ => guardOk p g
  | .brLoop _ g _ _ _ => guardOk p g
  | .brLoopx _ g _ _ _ => guardOk p g
  | .brUiret g _ _ _ => guardOk p g
  | .brIfence g _ _ _ => guardOk p g
  | .brSwap g _ _ _ => guardOk p g
  | .brEnd g _ _ _ => guardOk p g
  | .brCalli _ g _ _ _ => guardOk p g
  | .brUnspin g _ _ _ => guardOk p g
  | .move k g s d => guardOk p g && moveOk k g s d
  | .cbRead k g _ _ d => guardOk p g && (if isV k then dstVOk d else k == 8 && d == 0x200)
  | .cbWriteV k g s _ _ => guardOk p g && isV k && srcVOk s
  | .cbWriteM g s _ _ => guardOk p g && srcVOk s
  | .aluMov k g s _ => guardOk p g && isS k && srcSOk s
  | .aluAdd k g s _ => guardOk p g && isS k && srcSOk s
  | .aluSub k g s _ => guardOk p g && isS k && srcSOk s
  | .aluAdds1 k g s _ => guardOk p g && isS k && srcSOk s
  | .aluAdds2 k g s _ => guardOk p g && isS k && srcSOk s
  | .aluAdds3 k g s _ => guardOk p g && isS k && srcSOk s
  | .aluAnd k g s _ => guardOk p g && isS k && srcSOk s
  | .aluOr k g s _ => guardOk p g && isS k && srcSOk s
  | .aluXor k g s _ => guardOk p g && isS k && srcSOk s
  | .aluAndn k g s _ => guardOk p g && isS k && srcSOk s
  | .aluShl k g s _ => guardOk p g && isS k && srcSOk s
  | .aluShr k g s _ => guardOk p g && isS k && srcSOk s
  | .aluSar k g s _ => guardOk p g && isS k && srcSOk s
  | .aluRol k g s _ => guardOk p g && isS k && srcSOk s
  | .aluRor k g s _ => guardOk p g && isS k && srcSOk s
  | .aluMin k g s _ => guardOk p g && isS k && srcSOk s
  | .aluMax k g s _ => guardOk p g && isS k && srcSOk s
  | .aluMinn k g s _ => guardOk p g && isS k && srcSOk s
  | .aluMaxn k g s _ => guardOk p g && isS k && srcSOk s
  | .aluSext k g s _ => guardOk p g && isS k && srcSOk s
  | .aluZext k g s _ => guardOk p g && isS k && srcSOk s
  | .aluBfx k g s _ => guardOk p g && isS k && srcSOk s
  | .aluBfxn k g s _ => guardOk p g && isS k && srcSOk s
  | .aluClz k g s _ => guardOk p g && isS k && srcSOk s
  | .aluCtz k g s _ => guardOk p g && isS k && srcSOk s
  | .aluPopc k g s _ => guardOk p g && isS k && srcSOk s
  | .aluBswap k g s _ => guardOk p g && isS k && srcSOk s
  | .mulMul k g s => guardOk p g && isS k && srcSOk s
  | .mulMulh k g s => guardOk p g && isS k && srcSOk s
  | .mulMulhn k g s => guardOk p g && isS k && srcSOk s
  | .mulMulhsn k g s => guardOk p g && isS k && srcSOk s
  | .mulDinit k g s => guardOk p g && isS k && srcSOk s
  | .mulDinitn k g s => guardOk p g && isS k && srcSOk s
  | .mulDstep k g s => guardOk p g && isS k && srcSOk s
  | .mulDfix k g s => guardOk p g && isS k && srcSOk s
  | .cmpEq k g s => guardOk p g && isS k && srcSOk s
  | .cmpNe k g s => guardOk p g && isS k && srcSOk s
  | .cmpLt k g s => guardOk p g && isS k && srcSOk s
  | .cmpLe k g s => guardOk p g && isS k && srcSOk s
  | .cmpGt k g s => guardOk p g && isS k && srcSOk s
  | .cmpGe k g s => guardOk p g && isS k && srcSOk s
  | .cmpLtn k g s => guardOk p g && isS k && srcSOk s
  | .cmpLen k g s => guardOk p g && isS k && srcSOk s
  | .cmpGtn k g s => guardOk p g && isS k && srcSOk s
  | .cmpGen k g s => guardOk p g && isS k && srcSOk s
  | .cmpTbit k g s => guardOk p g && isS k && srcSOk s
  | .cmpTany k g s => guardOk p g && isS k && srcSOk s
  | .dictLd k g s => guardOk p g && isS k && srcSOk s
  | .scanOut k g s => guardOk p g && isS k && srcSOk s
  | .scanIn k g s => guardOk p g && isS k && srcSOk s
  | .cellFrz k g s => guardOk p g && isS k && srcSOk s
  | .cellRsm k g s => guardOk p g && isS k && srcSOk s
  | .migSwap k g s => guardOk p g && isS k && srcSOk s
  | .cosWr k g s => guardOk p g && isS k && srcSOk s
  | .ownWr k g s => guardOk p g && isS k && srcSOk s
  | .vxAdd k g s _ _ => guardOk p g && isV k && srcVOk s
  | .vxSub k g s _ _ => guardOk p g && isV k && srcVOk s
  | .vxAdds k g s _ _ => guardOk p g && isV k && srcVOk s
  | .vxAddsn k g s _ _ => guardOk p g && isV k && srcVOk s
  | .vxSubs k g s _ _ => guardOk p g && isV k && srcVOk s
  | .vxSubsn k g s _ _ => guardOk p g && isV k && srcVOk s
  | .vxMul k g s _ _ => guardOk p g && isV k && srcVOk s
  | .vxMin k g s _ _ => guardOk p g && isV k && srcVOk s
  | .vxMax k g s _ _ => guardOk p g && isV k && srcVOk s
  | .vxAnd k g s _ => guardOk p g && isV k && srcVOk s
  | .vxOr k g s _ => guardOk p g && isV k && srcVOk s
  | .vxXor k g s _ => guardOk p g && isV k && srcVOk s
  | .vxAndn k g s _ => guardOk p g && isV k && srcVOk s
  | .vxShl k g s _ _ => guardOk p g && isV k && srcVOk s
  | .vxShr k g s _ _ => guardOk p g && isV k && srcVOk s
  | .vxSar k g s _ _ => guardOk p g && isV k && srcVOk s
  | .vxCeq k g s _ _ => guardOk p g && isV k && srcVOk s
  | .vxClt k g s _ _ => guardOk p g && isV k && srcVOk s
  | .vxCltn k g s _ _ => guardOk p g && isV k && srcVOk s
  | .vfAdd k g s _ => guardOk p g && isV k && srcVOk s
  | .vfSub k g s _ => guardOk p g && isV k && srcVOk s
  | .vfMul k g s _ => guardOk p g && isV k && srcVOk s
  | .vfFma k g s _ => guardOk p g && isV k && srcVOk s
  | .vfFms k g s _ => guardOk p g && isV k && srcVOk s
  | .vfMin k g s _ => guardOk p g && isV k && srcVOk s
  | .vfMax k g s _ => guardOk p g && isV k && srcVOk s
  | .vfAbs k g s _ => guardOk p g && isV k && srcVOk s
  | .vfNeg k g s _ => guardOk p g && isV k && srcVOk s
  | .vfCeq k g s _ => guardOk p g && isV k && srcVOk s
  | .vfClt k g s _ => guardOk p g && isV k && srcVOk s
  | .vfCle k g s _ => guardOk p g && isV k && srcVOk s
  | .vfRcpe k g s _ => guardOk p g && isV k && srcVOk s
  | .vfRsqe k g s _ => guardOk p g && isV k && srcVOk s
  | .vfToi k g s _ => guardOk p g && isV k && srcVOk s
  | .vfFromi k g s _ => guardOk p g && isV k && srcVOk s
  | .vrPerm k g s _ => guardOk p g && isV k && srcVOk s
  | .vrLsh k g s _ => guardOk p g && isV k && srcVOk s
  | .vrRot k g s _ => guardOk p g && isV k && srcVOk s
  | .vrRadd k g s _ => guardOk p g && isV k && srcVOk s
  | .vrRmax k g s _ => guardOk p g && isV k && srcVOk s
  | .vrRfadd k g s _ => guardOk p g && isV k && srcVOk s
  | .vrRfmax k g s _ => guardOk p g && isV k && srcVOk s
  | .vrXtr k g s _ => guardOk p g && isV k && srcVOk s
  | .lsuSldN8 g s => guardOk p g && srcSOk s
  | .lsuSldI8 g s => guardOk p g && srcSOk s
  | .lsuSldN16 g s => guardOk p g && srcSOk s
  | .lsuSldI16 g s => guardOk p g && srcSOk s
  | .lsuSldN32 g s => guardOk p g && srcSOk s
  | .lsuSldI32 g s => guardOk p g && srcSOk s
  | .lsuSld64 g s => guardOk p g && srcSOk s
  | .lsuSst8 g s => guardOk p g && srcSOk s
  | .lsuSst16 g s => guardOk p g && srcSOk s
  | .lsuSst32 g s => guardOk p g && srcSOk s
  | .lsuSst64 g s => guardOk p g && srcSOk s
  | .lsuMldN8 g s => guardOk p g && srcSOk s
  | .lsuMldI8 g s => guardOk p g && srcSOk s
  | .lsuMldN16 g s => guardOk p g && srcSOk s
  | .lsuMldI16 g s => guardOk p g && srcSOk s
  | .lsuMldN32 g s => guardOk p g && srcSOk s
  | .lsuMldI32 g s => guardOk p g && srcSOk s
  | .lsuMld64 g s => guardOk p g && srcSOk s
  | .lsuMst8 g s => guardOk p g && srcSOk s
  | .lsuMst16 g s => guardOk p g && srcSOk s
  | .lsuMst32 g s => guardOk p g && srcSOk s
  | .lsuMst64 g s => guardOk p g && srcSOk s
  | .lsuMldAq32 g s => guardOk p g && srcSOk s
  | .lsuMldAq64 g s => guardOk p g && srcSOk s
  | .lsuMstRl32 g s => guardOk p g && srcSOk s
  | .lsuMstRl64 g s => guardOk p g && srcSOk s
  | .lsuAmo g s => guardOk p g && srcSOk s
  | .lsuL2amo g s => guardOk p g && srcSOk s
  | .lsuCpy g s => guardOk p g && srcSOk s
  | .lsuCbadv g s => guardOk p g && srcSOk s
  | .lsuRel g s => guardOk p g && srcSOk s
  | .lsuAcq g s => guardOk p g && srcSOk s
  | .lsuFence g s => guardOk p g && srcSOk s
  | .lsuVlds g s => guardOk p g && srcSOk s
  | .lsuVldm g s => guardOk p g && srcSOk s
  | .lsuTld g s => guardOk p g && srcSOk s
  | .lsuTst g s => guardOk p g && srcSOk s
  | .lsuVsts g s => guardOk p g && srcVOk s
  | .lsuVstm g s => guardOk p g && srcVOk s
  | .lsuVamo g s => guardOk p g && srcVOk s
  | .lsuVcas128 g s => guardOk p g && srcVOk s
  | .xltMap g s => guardOk p g && srcSOk s
  | .xltUnmap g s => guardOk p g && srcSOk s
  | .xltProbe g s => guardOk p g && srcSOk s
  | .ceGo g s => guardOk p g && srcSOk s
  | .ceSwap g s => guardOk p g && srcSOk s
  | .cePoll g s => guardOk p g && srcSOk s
  | .ceAbort g s => guardOk p g && srcSOk s
  | .lnkSend g s _ => guardOk p g && srcVOk s
  | .mxPush _ t b => t != b
  | .mxShift => true
  | .mxAcc => true
  | .mxPacc _ t b => t != b
  | .mxDrain _ _ f _ => f.toNat < 6
  | .mxMrg _ _ f _ c => f.toNat < 6 && c != 7
  | .mxClr _ _ _ => true
  | .mxNorm _ _ _ => true
  | .mxRdm _ _ _ => true
  | .mxRdx _ q => q != 3
  | .mxWrm _ _ _ c => c != 7
  | .mxWrx _ q c => q != 3 && c != 7
  | .xfCvt i o v p _ => i.toNat < 13 && o.toNat < 13 && v.toNat < 11 &&
    p.toNat < max (xfWidth i) (xfWidth o) / min (xfWidth i) (xfWidth o)
  | .xfExp i o _ _ _ _ => (i == 8 || i == 0) && (o == 9 || o == 10)
  | .xfTr _ _ _ => true
  | .xfSplit _ _ _ => true
  | .xfPack v _ _ m q => v.toNat < 11 && (m == 1 || q == 0)
  | .longImmediate _ => true
  | .bcast _ _ => true
  | .chk c i => c == 1 || i.toNat < 16
  | .issue _ => true
  | .resultLanding _ => true
  | .firmwareBundle _ => true
  | .gangStreamIssue _ => true
  | .fetchLineArrival _ _ _ => true
  | .cellFreeze _ => true
  | .linkArrival _ => true
  | .fillRequest _ _ => true
  | .bind _ _ => true
  | .acquire _ => true
  | .drain _ => true
  | .place _ => true
  | .writeBack _ _ => true
  | .complete _ => true
  | .so _ => true
  | .engine _ => true
  | .record _ => true
  | .perform _ => true
  | .host _ => true
  | .hostAtomicWrite _ => true
  | .fillStart _ _ => true
  | .ceCompletion _ => true
  | .taskCompletion _ => true
  | .translationWalk _ _ => true
  | .invreq _ _ => true
  | .hinvreq _ => true
  | .invalidationComplete _ _ => true
  | .hvrespRetry _ => true
  | .hvrespReflect _ => true
  | .hvrespKill _ => true
  | .lockInterfaceRequest _ => true
  | .startInterfaceRequest _ => true
  | .stopInterfaceRequest _ => true
  | .tdispError _ => true
  | .getVersion _ => true
  | .getCapabilities _ => true
  | .negotiateAlgorithms _ => true
  | .getDigests _ => true
  | .getCertificate _ => true
  | .challenge _ => true
  | .getMeasurements _ _ => true
  | .keyExchange _ => true
  | .finish _ => true
  | .heartbeat _ => true
  | .keyUpdate _ => true
  | .endSession _ => true
  | .vendorDefinedRequest _ _ => true
  | .qnotify _ _ => true
  | .qnotifyCancel _ _ => true
  | .kernelAdmission _ => true
  | .taskDispatch _ _ => true
  | .preemption _ _ _ => true
  | .packetRetirement _ => true
  | .admitRcb _ => true
  | .queueContextWrite _ _ => true
  | .translationContextWrite _ _ => true
  | .subtreeRelease _ => true
  | .energyRefill _ => true
  | .energyCharge _ => true
  | .energyCalibration _ => true
  | .telemetrySample _ _ _ _ => true
  | .thermalThreshold _ _ => true
  | .scrub _ _ _ => true
  | .scheduleTableFiring _ _ _ => true
  | .ppsEdge _ => true
  | .slewEnd _ => true
  | .lockTimeout _ => true
  | .crctlWrite _ _ => true
  | .codecDrainEnd _ => true
  | .scanTransfer _ _ => true
  | .sysCompletion _ => true
  | .fwrsmResume _ _ => true
  | .fwrsmStart _ _ => true
  | .halt _ => true
  | .step _ => true
  | .run _ => true
  | .dbgdataRead _ _ => true
  | .dbgdataWrite _ _ _ => true
  | .preciseStop _ => true
  | .preciseStopTimeout _ => true
  | .gangfail _ _ => true
  | .deviceReset => true
  | .lifecycleChange _ => true
  | .wipeEnd => true
  | .fwcmdStage _ => true
  | .fwcmdActivate _ => true
  | .fwack _ => true
  | .fwActivationTimeout => true
  | .cksave _ => true
  | .ckload _ => true
  | .collectiveCompletion => true
  | .halfReadLow _ _ _ _ => true
  | .halfReadHigh _ => true
  | .registerWrite _ _ _ _ => true
  | .fillInstall _ _ => true
  | .peerPortAccess _ _ _ _ => true
  | .rcbTeardown _ => true

end Sys2Proof
end

