-- ==== Sys2Proof/Decode.lean ====
section
/-!
DEFINITION. Decoding a slot word of an expanded bundle (R38 to R53, R175, R176, R196 to R198, R206), total on
every word and rejecting by name, and the encoder written from the same tables. A word is decoded by its place
in the bundle: k = 0 is w0, 1 to 3 the S slots, 4 to 7 the V slots, 8 M, 9 X, 10 T, 11 B.
-/

namespace Sys2Proof

/-- What a slot word is. -/
inductive SlotRes where
  /-- An idle word (R39), or a w0 without a br operation. -/
  | idle
  /-- An operation. -/
  | ok (i : Instr)
  /-- A word that traps ILLMOVE at decoding (R46). -/
  | illMove
  deriving DecidableEq, Repr

/-- The alu triggers of R91 by index. -/
def decodeAlu (n : Nat) (k : BitVec 4) (g : BitVec 12) (s : BitVec 10) (u : BitVec 1) : Option Instr :=
  match n with
  | 0 => some (.aluMov k g s u)
  | 1 => some (.aluAdd k g s u)
  | 2 => some (.aluSub k g s u)
  | 3 => some (.aluAdds1 k g s u)
  | 4 => some (.aluAdds2 k g s u)
  | 5 => some (.aluAdds3 k g s u)
  | 6 => some (.aluAnd k g s u)
  | 7 => some (.aluOr k g s u)
  | 8 => some (.aluXor k g s u)
  | 9 => some (.aluAndn k g s u)
  | 10 => some (.aluShl k g s u)
  | 11 => some (.aluShr k g s u)
  | 12 => some (.aluSar k g s u)
  | 13 => some (.aluRol k g s u)
  | 14 => some (.aluRor k g s u)
  | 15 => some (.aluMin k g s u)
  | 16 => some (.aluMax k g s u)
  | 17 => some (.aluMinn k g s u)
  | 18 => some (.aluMaxn k g s u)
  | 19 => some (.aluSext k g s u)
  | 20 => some (.aluZext k g s u)
  | 21 => some (.aluBfx k g s u)
  | 22 => some (.aluBfxn k g s u)
  | 23 => some (.aluClz k g s u)
  | 24 => some (.aluCtz k g s u)
  | 25 => some (.aluPopc k g s u)
  | 26 => some (.aluBswap k g s u)
  | _ => none

/-- The mul triggers of R50 by index. -/
def decodeMul (n : Nat) (k : BitVec 4) (g : BitVec 12) (s : BitVec 10) : Option Instr :=
  match n with
  | 0 => some (.mulMul k g s)
  | 1 => some (.mulMulh k g s)
  | 2 => some (.mulMulhn k g s)
  | 3 => some (.mulMulhsn k g s)
  | 4 => some (.mulDinit k g s)
  | 5 => some (.mulDinitn k g s)
  | 6 => some (.mulDstep k g s)
  | 7 => some (.mulDfix k g s)
  | _ => none

/-- The cmp triggers of R50 by index. -/
def decodeCmp (n : Nat) (k : BitVec 4) (g : BitVec 12) (s : BitVec 10) : Option Instr :=
  match n with
  | 0 => some (.cmpEq k g s)
  | 1 => some (.cmpNe k g s)
  | 2 => some (.cmpLt k g s)
  | 3 => some (.cmpLe k g s)
  | 4 => some (.cmpGt k g s)
  | 5 => some (.cmpGe k g s)
  | 6 => some (.cmpLtn k g s)
  | 7 => some (.cmpLen k g s)
  | 8 => some (.cmpGtn k g s)
  | 9 => some (.cmpGen k g s)
  | 10 => some (.cmpTbit k g s)
  | 11 => some (.cmpTany k g s)
  | _ => none

/-- The sys triggers of R217 by index. -/
def decodeSys (n : Nat) (k : BitVec 4) (g : BitVec 12) (s : BitVec 10) : Option Instr :=
  match n with
  | 0 => some (.dictLd k g s)
  | 1 => some (.scanOut k g s)
  | 2 => some (.scanIn k g s)
  | 3 => some (.cellFrz k g s)
  | 4 => some (.cellRsm k g s)
  | 5 => some (.migSwap k g s)
  | 6 => some (.cosWr k g s)
  | 7 => some (.ownWr k g s)
  | _ => none

/-- The S-slot trigger with destination code d (R48). -/
def decodeSTrig (d : Nat) (k : BitVec 4) (g : BitVec 12) (s : BitVec 10) : Option Instr :=
  if d < 0x200 then none
  else if d < 0x240 then decodeAlu (d % 32) k g s (BitVec.ofNat 1 (d / 32))
  else if d < 0x260 then decodeMul (d - 0x240) k g s
  else if d < 0x280 then decodeCmp (d - 0x260) k g s
  else if d < 0x300 then none
  else decodeSys (d - 0x300) k g s

/-- The vx triggers of R117 by operation number. -/
def decodeVx (n : Nat) (k : BitVec 4) (g : BitVec 12) (s : BitVec 10) (u : BitVec 1) (w : BitVec 2) : Option Instr :=
  match n with
  | 0 => some (.vxAdd k g s u w)
  | 1 => some (.vxSub k g s u w)
  | 2 => some (.vxAdds k g s u w)
  | 3 => some (.vxAddsn k g s u w)
  | 4 => some (.vxSubs k g s u w)
  | 5 => some (.vxSubsn k g s u w)
  | 6 => some (.vxMul k g s u w)
  | 7 => some (.vxMin k g s u w)
  | 8 => some (.vxMax k g s u w)
  | 10 => some (.vxShl k g s u w)
  | 11 => some (.vxShr k g s u w)
  | 12 => some (.vxSar k g s u w)
  | 13 => some (.vxCeq k g s u w)
  | 14 => some (.vxClt k g s u w)
  | 15 => some (.vxCltn k g s u w)
  | 9 =>
    if w = 0 then some (.vxAnd k g s u) else if w = 1 then some (.vxOr k g s u)
    else if w = 2 then some (.vxXor k g s u) else some (.vxAndn k g s u)
  | _ => none

/-- The vf triggers of R120 by operation number. -/
def decodeVf (n : Nat) (k : BitVec 4) (g : BitVec 12) (s : BitVec 10) (f : BitVec 2) : Option Instr :=
  match n with
  | 0 => some (.vfAdd k g s f)
  | 1 => some (.vfSub k g s f)
  | 2 => some (.vfMul k g s f)
  | 3 => some (.vfFma k g s f)
  | 4 => some (.vfFms k g s f)
  | 5 => some (.vfMin k g s f)
  | 6 => some (.vfMax k g s f)
  | 7 => some (.vfAbs k g s f)
  | 8 => some (.vfNeg k g s f)
  | 9 => some (.vfCeq k g s f)
  | 10 => some (.vfClt k g s f)
  | 11 => some (.vfCle k g s f)
  | 12 => some (.vfRcpe k g s f)
  | 13 => some (.vfRsqe k g s f)
  | 14 => some (.vfToi k g s f)
  | 15 => some (.vfFromi k g s f)
  | _ => none

/-- The vr triggers of R127 by operation number. -/
def decodeVr (n : Nat) (k : BitVec 4) (g : BitVec 12) (s : BitVec 10) (w : BitVec 2) : Option Instr :=
  match n with
  | 0 => some (.vrPerm k g s w)
  | 1 => some (.vrLsh k g s w)
  | 2 => some (.vrRot k g s w)
  | 3 => some (.vrRadd k g s w)
  | 4 => some (.vrRmax k g s w)
  | 5 => some (.vrRfadd k g s w)
  | 6 => some (.vrRfmax k g s w)
  | 7 => some (.vrXtr k g s w)
  | _ => none

/-- The V-slot trigger with destination code d (R51). -/
def decodeVTrig (d : Nat) (k : BitVec 4) (g : BitVec 12) (s : BitVec 10) : Option Instr :=
  if d < 0x300 then none
  else if d < 0x380 then decodeVx (d / 4 % 16) k g s (BitVec.ofNat 1 (d / 64)) (BitVec.ofNat 2 d)
  else if d < 0x3C0 then decodeVf (d / 4 % 16) k g s (BitVec.ofNat 2 d)
  else if d < 0x3E0 then decodeVr (d / 4 % 8) k g s (BitVec.ofNat 2 d)
  else none

/-- The M-slot trigger with destination code d (R52). -/
def decodeMTrig (d : Nat) (g : BitVec 12) (s : BitVec 10) : Option Instr :=
  match d with
  | 64 => some (.lsuSldN8 g s)
  | 65 => some (.lsuSldI8 g s)
  | 66 => some (.lsuSldN16 g s)
  | 67 => some (.lsuSldI16 g s)
  | 68 => some (.lsuSldN32 g s)
  | 69 => some (.lsuSldI32 g s)
  | 70 => some (.lsuSld64 g s)
  | 72 => some (.lsuSst8 g s)
  | 73 => some (.lsuSst16 g s)
  | 74 => some (.lsuSst32 g s)
  | 75 => some (.lsuSst64 g s)
  | 80 => some (.lsuMldN8 g s)
  | 81 => some (.lsuMldI8 g s)
  | 82 => some (.lsuMldN16 g s)
  | 83 => some (.lsuMldI16 g s)
  | 84 => some (.lsuMldN32 g s)
  | 85 => some (.lsuMldI32 g s)
  | 86 => some (.lsuMld64 g s)
  | 88 => some (.lsuMst8 g s)
  | 89 => some (.lsuMst16 g s)
  | 90 => some (.lsuMst32 g s)
  | 91 => some (.lsuMst64 g s)
  | 92 => some (.lsuMldAq32 g s)
  | 93 => some (.lsuMldAq64 g s)
  | 94 => some (.lsuMstRl32 g s)
  | 95 => some (.lsuMstRl64 g s)
  | 96 => some (.lsuAmo g s)
  | 97 => some (.lsuL2amo g s)
  | 98 => some (.lsuCpy g s)
  | 99 => some (.lsuCbadv g s)
  | 100 => some (.lsuRel g s)
  | 101 => some (.lsuAcq g s)
  | 102 => some (.lsuFence g s)
  | 103 => some (.lsuVlds g s)
  | 104 => some (.lsuVldm g s)
  | 105 => some (.lsuTld g s)
  | 106 => some (.lsuTst g s)
  | 128 => some (.xltMap g s)
  | 129 => some (.xltUnmap g s)
  | 130 => some (.xltProbe g s)
  | 136 => some (.ceGo g s)
  | 137 => some (.ceSwap g s)
  | 138 => some (.cePoll g s)
  | 139 => some (.ceAbort g s)
  | 528 => some (.lsuVsts g s)
  | 529 => some (.lsuVstm g s)
  | 530 => some (.lsuVamo g s)
  | 531 => some (.lsuVcas128 g s)
  | 544 => some (.lnkSend g s 0)
  | 545 => some (.lnkSend g s 1)
  | 546 => some (.lnkSend g s 2)
  | 547 => some (.lnkSend g s 3)
  | _ => none

/-- The word carries move fields: guard, source, destination (R43). -/
def wGuard (w : SlotWord) : BitVec 12 := w.extractLsb' 20 12
/-- SOURCE of a move word (R43). -/
def wSrc (w : SlotWord) : BitVec 10 := w.extractLsb' 10 10
/-- DEST of a move word (R43). -/
def wDst (w : SlotWord) : BitVec 10 := w.extractLsb' 0 10

/-- The instruction if it is well-formed, else a decoding trap. -/
def SlotRes.check (p : Bool) : Option Instr → SlotRes
  | some i => if WellFormed p i then .ok i else .illMove
  | none => .illMove

/-- A word of an S slot. -/
def rawS (k : BitVec 4) (w : SlotWord) : Option Instr :=
  match decodeSTrig (wDst w).toNat k (wGuard w) (wSrc w) with
  | some i => some i
  | none => some (.move k (wGuard w) (wSrc w) (wDst w))

/-- A word of a V slot: a trigger or a buffer write, else a buffer read, else a move. -/
def rawV (k : BitVec 4) (w : SlotWord) : Option Instr :=
  match decodeVTrig (wDst w).toNat k (wGuard w) (wSrc w) with
  | some i => some i
  | none =>
    if w.extractLsb' 6 4 = 11#4 then some (.cbWriteV k (wGuard w) (wSrc w) (w.extractLsb' 3 3) (w.extractLsb' 0 3))
    else if w.extractLsb' 17 3 = 2#3 then
      some (.cbRead k (wGuard w) (w.extractLsb' 14 3) (w.extractLsb' 10 4) (wDst w))
    else some (.move k (wGuard w) (wSrc w) (wDst w))

/-- A word of the M slot: only vector destinations take buffer reads (R52). -/
def rawM (w : SlotWord) : Option Instr :=
  match decodeMTrig (wDst w).toNat (wGuard w) (wSrc w) with
  | some i => some i
  | none =>
    if w.extractLsb' 6 4 = 9#4 then some (.cbWriteM (wGuard w) (wSrc w) (w.extractLsb' 3 3) (w.extractLsb' 0 3))
    else if (w.extractLsb' 17 3 = 2#3) ∧ 0x200 ≤ (wDst w).toNat then
      some (.cbRead 8 (wGuard w) (w.extractLsb' 14 3) (w.extractLsb' 10 4) (wDst w))
    else some (.move 8 (wGuard w) (wSrc w) (wDst w))

/-- The fields GUARD, Y, S, D of w0 (R40). -/
def w0Guard (w : SlotWord) : BitVec 12 := w.extractLsb' 4 12
/-- IMM of w0 (R40). -/
def w0Imm (w : SlotWord) : BitVec 12 := w.extractLsb' 16 12

/-- The br operation of a w0 (R41); the operations that take no displacement need IMM = 0 (R102). -/
def rawC (w : SlotWord) : Option Instr :=
  let g := w0Guard w
  let i := w0Imm w
  let y := w.extractLsb' 3 1
  let s := w.extractLsb' 2 1
  let d := w.extractLsb' 1 1
  if w.extractLsb' 0 1 ≠ 0 then none else
  match (w.extractLsb' 28 4).toNat with
  | 1 => some (.br i g y s d)
  | 2 => some (.brCall i g y s d)
  | 3 => if i = 0 then some (.brRet g y s d) else none
  | 4 => some (.brInd i g y s d)
  | 5 => some (.brLoop i g y s d)
  | 6 => some (.brLoopx i g y s d)
  | 7 => if i = 0 then some (.brUiret g y s d) else none
  | 8 => if i = 0 then some (.brIfence g y s d) else none
  | 9 => if i = 0 then some (.brSwap g y s d) else none
  | 10 => if i = 0 then some (.brEnd g y s d) else none
  | 11 => some (.brCalli i g y s d)
  | 12 => if i = 0 then some (.brUnspin g y s d) else none
  | _ => none

/-- The X word (R176): a field the command does not list must be zero. -/
def rawX (w : SlotWord) : Option Instr :=
  if w &&& 0xF1FFFF00#32 = 0x10000000#32 then some (.mxPush (w.extractLsb' 25 3) (w.extractLsb' 4 4) (w.extractLsb' 0 4))
  else if w &&& 0xFFFFFFFF#32 = 0x20000000#32 then some (.mxShift)
  else if w &&& 0xFFFFFFFF#32 = 0x30000000#32 then some (.mxAcc)
  else if w &&& 0xF1FFFF00#32 = 0x40000000#32 then some (.mxPacc (w.extractLsb' 25 3) (w.extractLsb' 4 4) (w.extractLsb' 0 4))
  else if w &&& 0xF000BFFF#32 = 0x50000000#32 then some (.mxDrain (w.extractLsb' 25 3) (w.extractLsb' 19 6) (w.extractLsb' 16 3) (w.extractLsb' 14 1))
  else if w &&& 0xF00087FF#32 = 0x60000000#32 then some (.mxMrg (w.extractLsb' 25 3) (w.extractLsb' 19 6) (w.extractLsb' 16 3) (w.extractLsb' 14 1) (w.extractLsb' 11 3))
  else if w &&& 0xF007BFFF#32 = 0x70000000#32 then some (.mxClr (w.extractLsb' 25 3) (w.extractLsb' 19 6) (w.extractLsb' 14 1))
  else if w &&& 0xF007BFFF#32 = 0x80000000#32 then some (.mxNorm (w.extractLsb' 25 3) (w.extractLsb' 19 6) (w.extractLsb' 14 1))
  else if w &&& 0xF0073FFF#32 = 0x90000000#32 then some (.mxRdm (w.extractLsb' 25 3) (w.extractLsb' 19 6) (w.extractLsb' 14 2))
  else if w &&& 0xF1FF3FFF#32 = 0xA0000000#32 then some (.mxRdx (w.extractLsb' 25 3) (w.extractLsb' 14 2))
  else if w &&& 0xF00707FF#32 = 0xB0000000#32 then some (.mxWrm (w.extractLsb' 25 3) (w.extractLsb' 19 6) (w.extractLsb' 14 2) (w.extractLsb' 11 3))
  else if w &&& 0xF1FF07FF#32 = 0xC0000000#32 then some (.mxWrx (w.extractLsb' 25 3) (w.extractLsb' 14 2) (w.extractLsb' 11 3))
  else none

/-- The T word (R197). -/
def rawT (w : SlotWord) : Option Instr :=
  if w &&& 0xF000FFE0#32 = 0x10000000#32 then some (.xfCvt (w.extractLsb' 24 4) (w.extractLsb' 20 4) (w.extractLsb' 16 4) (w.extractLsb' 2 3) (w.extractLsb' 0 2))
  else if w &&& 0xF00F00FC#32 = 0x20000000#32 then some (.xfExp (w.extractLsb' 24 4) (w.extractLsb' 20 4) (w.extractLsb' 12 4) (w.extractLsb' 8 4) (w.extractLsb' 1 1) (w.extractLsb' 0 1))
  else if w &&& 0xFFFF00FE#32 = 0x30000000#32 then some (.xfTr (w.extractLsb' 12 4) (w.extractLsb' 8 4) (w.extractLsb' 0 1))
  else if w &&& 0xFFFF0000#32 = 0x40000000#32 then some (.xfSplit (w.extractLsb' 12 4) (w.extractLsb' 8 4) (w.extractLsb' 0 8))
  else if w &&& 0xFFF0F000#32 = 0x50000000#32 then some (.xfPack (w.extractLsb' 16 4) (w.extractLsb' 8 4) (w.extractLsb' 2 6) (w.extractLsb' 1 1) (w.extractLsb' 0 1))
  else none

/-- The B word (R206). -/
def rawB (w : SlotWord) : Option Instr :=
  if w &&& 0xC0000000#32 = 0x40000000#32 then some (.longImmediate (w.extractLsb' 0 30))
  else if w &&& 0xCFFFFFC0#32 = 0x80000000#32 then some (.bcast (w.extractLsb' 28 2) (w.extractLsb' 0 6))
  else if w &&& 0xDFFFFFE0#32 = 0xC0000000#32 then some (.chk (w.extractLsb' 29 1) (w.extractLsb' 0 5))
  else none

/-- Decode word k of a bundle in guard mode P (p = true) or G (R46). -/
def decodeSlot (p : Bool) (k : Nat) (w : SlotWord) : SlotRes :=
  if w = 0 then .idle else
  match k with
  | 0 =>
    if w.extractLsb' 28 4 = 0#4 then
      if w0Imm w = 0 ∧ w.extractLsb' 0 1 = 0#1 ∧ guardOk p (w0Guard w) then .idle else .illMove
    else SlotRes.check p (rawC w)
  | 1 => SlotRes.check p (rawS 1 w)
  | 2 => SlotRes.check p (rawS 2 w)
  | 3 => SlotRes.check p (rawS 3 w)
  | 4 => SlotRes.check p (rawV 4 w)
  | 5 => SlotRes.check p (rawV 5 w)
  | 6 => SlotRes.check p (rawV 6 w)
  | 7 => SlotRes.check p (rawV 7 w)
  | 8 => SlotRes.check p (rawM w)
  | 9 => SlotRes.check p (rawX w)
  | 10 => SlotRes.check p (rawT w)
  | 11 => SlotRes.check p (rawB w)
  | _ => .illMove

/-- Word k of an expanded bundle (R38). -/
def Bundle.word (b : Bundle) (k : Nat) : SlotWord := b.extractLsb' (32 * k) 32

/-- A move word from its fields (R43). -/
def mvWord (g : BitVec 12) (s d : BitVec 10) : SlotWord := g ++ s ++ d

/-- The word w0 from its fields (R40). -/
def w0Word (op : BitVec 4) (i g : BitVec 12) (y s d : BitVec 1) : SlotWord := op ++ i ++ g ++ y ++ s ++ d ++ 0#1

/-- The word index and the word of an instruction that a bundle holds; none for an event. -/
def encode : Instr → Option (Nat × SlotWord)
  | .br i g y s d => some (0, w0Word 1 i g y s d)
  | .brCall i g y s d => some (0, w0Word 2 i g y s d)
  | .brRet g y s d => some (0, w0Word 3 0 g y s d)
  | .brInd i g y s d => some (0, w0Word 4 i g y s d)
  | .brLoop i g y s d => some (0, w0Word 5 i g y s d)
  | .brLoopx i g y s d => some (0, w0Word 6 i g y s d)
  | .brUiret g y s d => some (0, w0Word 7 0 g y s d)
  | .brIfence g y s d => some (0, w0Word 8 0 g y s d)
  | .brSwap g y s d => some (0, w0Word 9 0 g y s d)
  | .brEnd g y s d => some (0, w0Word 10 0 g y s d)
  | .brCalli i g y s d => some (0, w0Word 11 i g y s d)
  | .brUnspin g y s d => some (0, w0Word 12 0 g y s d)
  | .move k g s d => some (k.toNat, mvWord g s d)
  | .cbRead k g h n d => some (k.toNat, mvWord g (2#3 ++ h ++ n) d)
  | .cbWriteV k g s h n => some (k.toNat, mvWord g s (11#4 ++ h ++ n))
  | .cbWriteM g s h n => some (8, mvWord g s (9#4 ++ h ++ n))
  | .aluMov k g s u => some (k.toNat, mvWord g s (8#4 ++ u ++ 0#5))
  | .aluAdd k g s u => some (k.toNat, mvWord g s (8#4 ++ u ++ 1#5))
  | .aluSub k g s u => some (k.toNat, mvWord g s (8#4 ++ u ++ 2#5))
  | .aluAdds1 k g s u => some (k.toNat, mvWord g s (8#4 ++ u ++ 3#5))
  | .aluAdds2 k g s u => some (k.toNat, mvWord g s (8#4 ++ u ++ 4#5))
  | .aluAdds3 k g s u => some (k.toNat, mvWord g s (8#4 ++ u ++ 5#5))
  | .aluAnd k g s u => some (k.toNat, mvWord g s (8#4 ++ u ++ 6#5))
  | .aluOr k g s u => some (k.toNat, mvWord g s (8#4 ++ u ++ 7#5))
  | .aluXor k g s u => some (k.toNat, mvWord g s (8#4 ++ u ++ 8#5))
  | .aluAndn k g s u => some (k.toNat, mvWord g s (8#4 ++ u ++ 9#5))
  | .aluShl k g s u => some (k.toNat, mvWord g s (8#4 ++ u ++ 10#5))
  | .aluShr k g s u => some (k.toNat, mvWord g s (8#4 ++ u ++ 11#5))
  | .aluSar k g s u => some (k.toNat, mvWord g s (8#4 ++ u ++ 12#5))
  | .aluRol k g s u => some (k.toNat, mvWord g s (8#4 ++ u ++ 13#5))
  | .aluRor k g s u => some (k.toNat, mvWord g s (8#4 ++ u ++ 14#5))
  | .aluMin k g s u => some (k.toNat, mvWord g s (8#4 ++ u ++ 15#5))
  | .aluMax k g s u => some (k.toNat, mvWord g s (8#4 ++ u ++ 16#5))
  | .aluMinn k g s u => some (k.toNat, mvWord g s (8#4 ++ u ++ 17#5))
  | .aluMaxn k g s u => some (k.toNat, mvWord g s (8#4 ++ u ++ 18#5))
  | .aluSext k g s u => some (k.toNat, mvWord g s (8#4 ++ u ++ 19#5))
  | .aluZext k g s u => some (k.toNat, mvWord g s (8#4 ++ u ++ 20#5))
  | .aluBfx k g s u => some (k.toNat, mvWord g s (8#4 ++ u ++ 21#5))
  | .aluBfxn k g s u => some (k.toNat, mvWord g s (8#4 ++ u ++ 22#5))
  | .aluClz k g s u => some (k.toNat, mvWord g s (8#4 ++ u ++ 23#5))
  | .aluCtz k g s u => some (k.toNat, mvWord g s (8#4 ++ u ++ 24#5))
  | .aluPopc k g s u => some (k.toNat, mvWord g s (8#4 ++ u ++ 25#5))
  | .aluBswap k g s u => some (k.toNat, mvWord g s (8#4 ++ u ++ 26#5))
  | .mulMul k g s => some (k.toNat, mvWord g s 0x240#10)
  | .mulMulh k g s => some (k.toNat, mvWord g s 0x241#10)
  | .mulMulhn k g s => some (k.toNat, mvWord g s 0x242#10)
  | .mulMulhsn k g s => some (k.toNat, mvWord g s 0x243#10)
  | .mulDinit k g s => some (k.toNat, mvWord g s 0x244#10)
  | .mulDinitn k g s => some (k.toNat, mvWord g s 0x245#10)
  | .mulDstep k g s => some (k.toNat, mvWord g s 0x246#10)
  | .mulDfix k g s => some (k.toNat, mvWord g s 0x247#10)
  | .cmpEq k g s => some (k.toNat, mvWord g s 0x260#10)
  | .cmpNe k g s => some (k.toNat, mvWord g s 0x261#10)
  | .cmpLt k g s => some (k.toNat, mvWord g s 0x262#10)
  | .cmpLe k g s => some (k.toNat, mvWord g s 0x263#10)
  | .cmpGt k g s => some (k.toNat, mvWord g s 0x264#10)
  | .cmpGe k g s => some (k.toNat, mvWord g s 0x265#10)
  | .cmpLtn k g s => some (k.toNat, mvWord g s 0x266#10)
  | .cmpLen k g s => some (k.toNat, mvWord g s 0x267#10)
  | .cmpGtn k g s => some (k.toNat, mvWord g s 0x268#10)
  | .cmpGen k g s => some (k.toNat, mvWord g s 0x269#10)
  | .cmpTbit k g s => some (k.toNat, mvWord g s 0x26A#10)
  | .cmpTany k g s => some (k.toNat, mvWord g s 0x26B#10)
  | .dictLd k g s => some (k.toNat, mvWord g s 0x300#10)
  | .scanOut k g s => some (k.toNat, mvWord g s 0x301#10)
  | .scanIn k g s => some (k.toNat, mvWord g s 0x302#10)
  | .cellFrz k g s => some (k.toNat, mvWord g s 0x303#10)
  | .cellRsm k g s => some (k.toNat, mvWord g s 0x304#10)
  | .migSwap k g s => some (k.toNat, mvWord g s 0x305#10)
  | .cosWr k g s => some (k.toNat, mvWord g s 0x306#10)
  | .ownWr k g s => some (k.toNat, mvWord g s 0x307#10)
  | .vxAdd k g s u w => some (k.toNat, mvWord g s (6#3 ++ u ++ 0#4 ++ w))
  | .vxSub k g s u w => some (k.toNat, mvWord g s (6#3 ++ u ++ 1#4 ++ w))
  | .vxAdds k g s u w => some (k.toNat, mvWord g s (6#3 ++ u ++ 2#4 ++ w))
  | .vxAddsn k g s u w => some (k.toNat, mvWord g s (6#3 ++ u ++ 3#4 ++ w))
  | .vxSubs k g s u w => some (k.toNat, mvWord g s (6#3 ++ u ++ 4#4 ++ w))
  | .vxSubsn k g s u w => some (k.toNat, mvWord g s (6#3 ++ u ++ 5#4 ++ w))
  | .vxMul k g s u w => some (k.toNat, mvWord g s (6#3 ++ u ++ 6#4 ++ w))
  | .vxMin k g s u w => some (k.toNat, mvWord g s (6#3 ++ u ++ 7#4 ++ w))
  | .vxMax k g s u w => some (k.toNat, mvWord g s (6#3 ++ u ++ 8#4 ++ w))
  | .vxAnd k g s u => some (k.toNat, mvWord g s (6#3 ++ u ++ 9#4 ++ 0#2))
  | .vxOr k g s u => some (k.toNat, mvWord g s (6#3 ++ u ++ 9#4 ++ 1#2))
  | .vxXor k g s u => some (k.toNat, mvWord g s (6#3 ++ u ++ 9#4 ++ 2#2))
  | .vxAndn k g s u => some (k.toNat, mvWord g s (6#3 ++ u ++ 9#4 ++ 3#2))
  | .vxShl k g s u w => some (k.toNat, mvWord g s (6#3 ++ u ++ 10#4 ++ w))
  | .vxShr k g s u w => some (k.toNat, mvWord g s (6#3 ++ u ++ 11#4 ++ w))
  | .vxSar k g s u w => some (k.toNat, mvWord g s (6#3 ++ u ++ 12#4 ++ w))
  | .vxCeq k g s u w => some (k.toNat, mvWord g s (6#3 ++ u ++ 13#4 ++ w))
  | .vxClt k g s u w => some (k.toNat, mvWord g s (6#3 ++ u ++ 14#4 ++ w))
  | .vxCltn k g s u w => some (k.toNat, mvWord g s (6#3 ++ u ++ 15#4 ++ w))
  | .vfAdd k g s f => some (k.toNat, mvWord g s (0xE0#8 ++ f))
  | .vfSub k g s f => some (k.toNat, mvWord g s (0xE1#8 ++ f))
  | .vfMul k g s f => some (k.toNat, mvWord g s (0xE2#8 ++ f))
  | .vfFma k g s f => some (k.toNat, mvWord g s (0xE3#8 ++ f))
  | .vfFms k g s f => some (k.toNat, mvWord g s (0xE4#8 ++ f))
  | .vfMin k g s f => some (k.toNat, mvWord g s (0xE5#8 ++ f))
  | .vfMax k g s f => some (k.toNat, mvWord g s (0xE6#8 ++ f))
  | .vfAbs k g s f => some (k.toNat, mvWord g s (0xE7#8 ++ f))
  | .vfNeg k g s f => some (k.toNat, mvWord g s (0xE8#8 ++ f))
  | .vfCeq k g s f => some (k.toNat, mvWord g s (0xE9#8 ++ f))
  | .vfClt k g s f => some (k.toNat, mvWord g s (0xEA#8 ++ f))
  | .vfCle k g s f => some (k.toNat, mvWord g s (0xEB#8 ++ f))
  | .vfRcpe k g s f => some (k.toNat, mvWord g s (0xEC#8 ++ f))
  | .vfRsqe k g s f => some (k.toNat, mvWord g s (0xED#8 ++ f))
  | .vfToi k g s f => some (k.toNat, mvWord g s (0xEE#8 ++ f))
  | .vfFromi k g s f => some (k.toNat, mvWord g s (0xEF#8 ++ f))
  | .vrPerm k g s w => some (k.toNat, mvWord g s (0xF0#8 ++ w))
  | .vrLsh k g s w => some (k.toNat, mvWord g s (0xF1#8 ++ w))
  | .vrRot k g s w => some (k.toNat, mvWord g s (0xF2#8 ++ w))
  | .vrRadd k g s w => some (k.toNat, mvWord g s (0xF3#8 ++ w))
  | .vrRmax k g s w => some (k.toNat, mvWord g s (0xF4#8 ++ w))
  | .vrRfadd k g s f => some (k.toNat, mvWord g s (0xF5#8 ++ f))
  | .vrRfmax k g s f => some (k.toNat, mvWord g s (0xF6#8 ++ f))
  | .vrXtr k g s w => some (k.toNat, mvWord g s (0xF7#8 ++ w))
  | .lsuSldN8 g s => some (8, mvWord g s 0x40#10)
  | .lsuSldI8 g s => some (8, mvWord g s 0x41#10)
  | .lsuSldN16 g s => some (8, mvWord g s 0x42#10)
  | .lsuSldI16 g s => some (8, mvWord g s 0x43#10)
  | .lsuSldN32 g s => some (8, mvWord g s 0x44#10)
  | .lsuSldI32 g s => some (8, mvWord g s 0x45#10)
  | .lsuSld64 g s => some (8, mvWord g s 0x46#10)
  | .lsuSst8 g s => some (8, mvWord g s 0x48#10)
  | .lsuSst16 g s => some (8, mvWord g s 0x49#10)
  | .lsuSst32 g s => some (8, mvWord g s 0x4A#10)
  | .lsuSst64 g s => some (8, mvWord g s 0x4B#10)
  | .lsuMldN8 g s => some (8, mvWord g s 0x50#10)
  | .lsuMldI8 g s => some (8, mvWord g s 0x51#10)
  | .lsuMldN16 g s => some (8, mvWord g s 0x52#10)
  | .lsuMldI16 g s => some (8, mvWord g s 0x53#10)
  | .lsuMldN32 g s => some (8, mvWord g s 0x54#10)
  | .lsuMldI32 g s => some (8, mvWord g s 0x55#10)
  | .lsuMld64 g s => some (8, mvWord g s 0x56#10)
  | .lsuMst8 g s => some (8, mvWord g s 0x58#10)
  | .lsuMst16 g s => some (8, mvWord g s 0x59#10)
  | .lsuMst32 g s => some (8, mvWord g s 0x5A#10)
  | .lsuMst64 g s => some (8, mvWord g s 0x5B#10)
  | .lsuMldAq32 g s => some (8, mvWord g s 0x5C#10)
  | .lsuMldAq64 g s => some (8, mvWord g s 0x5D#10)
  | .lsuMstRl32 g s => some (8, mvWord g s 0x5E#10)
  | .lsuMstRl64 g s => some (8, mvWord g s 0x5F#10)
  | .lsuAmo g s => some (8, mvWord g s 0x60#10)
  | .lsuL2amo g s => some (8, mvWord g s 0x61#10)
  | .lsuCpy g s => some (8, mvWord g s 0x62#10)
  | .lsuCbadv g s => some (8, mvWord g s 0x63#10)
  | .lsuRel g s => some (8, mvWord g s 0x64#10)
  | .lsuAcq g s => some (8, mvWord g s 0x65#10)
  | .lsuFence g s => some (8, mvWord g s 0x66#10)
  | .lsuVlds g s => some (8, mvWord g s 0x67#10)
  | .lsuVldm g s => some (8, mvWord g s 0x68#10)
  | .lsuTld g s => some (8, mvWord g s 0x69#10)
  | .lsuTst g s => some (8, mvWord g s 0x6A#10)
  | .lsuVsts g s => some (8, mvWord g s 0x210#10)
  | .lsuVstm g s => some (8, mvWord g s 0x211#10)
  | .lsuVamo g s => some (8, mvWord g s 0x212#10)
  | .lsuVcas128 g s => some (8, mvWord g s 0x213#10)
  | .xltMap g s => some (8, mvWord g s 0x80#10)
  | .xltUnmap g s => some (8, mvWord g s 0x81#10)
  | .xltProbe g s => some (8, mvWord g s 0x82#10)
  | .ceGo g s => some (8, mvWord g s 0x88#10)
  | .ceSwap g s => some (8, mvWord g s 0x89#10)
  | .cePoll g s => some (8, mvWord g s 0x8A#10)
  | .ceAbort g s => some (8, mvWord g s 0x8B#10)
  | .lnkSend g s p => some (8, mvWord g s (0x88#8 ++ p))
  | .mxPush a t b => some (9, 1#4 ++ a ++ 0#17 ++ t ++ b)
  | .mxShift => some (9, 536870912#32)
  | .mxAcc => some (9, 805306368#32)
  | .mxPacc a t b => some (9, 4#4 ++ a ++ 0#17 ++ t ++ b)
  | .mxDrain a r f h => some (9, 5#4 ++ a ++ r ++ f ++ 0#1 ++ h ++ 0#14)
  | .mxMrg a r f h c => some (9, 6#4 ++ a ++ r ++ f ++ 0#1 ++ h ++ c ++ 0#11)
  | .mxClr a r w => some (9, 7#4 ++ a ++ r ++ 0#4 ++ w ++ 0#14)
  | .mxNorm a r w => some (9, 8#4 ++ a ++ r ++ 0#4 ++ w ++ 0#14)
  | .mxRdm a r q => some (9, 9#4 ++ a ++ r ++ 0#3 ++ q ++ 0#14)
  | .mxRdx a q => some (9, 10#4 ++ a ++ 0#9 ++ q ++ 0#14)
  | .mxWrm a r q c => some (9, 11#4 ++ a ++ r ++ 0#3 ++ q ++ c ++ 0#11)
  | .mxWrx a q c => some (9, 12#4 ++ a ++ 0#9 ++ q ++ c ++ 0#11)
  | .xfCvt i o v p r => some (10, 1#4 ++ i ++ o ++ v ++ 0#11 ++ p ++ r)
  | .xfExp i o s d l h => some (10, 2#4 ++ i ++ o ++ 0#4 ++ s ++ d ++ 0#6 ++ l ++ h)
  | .xfTr s d w => some (10, 12288#16 ++ s ++ d ++ 0#7 ++ w)
  | .xfSplit s d e => some (10, 16384#16 ++ s ++ d ++ e)
  | .xfPack v d l m q => some (10, 1280#12 ++ v ++ 0#4 ++ d ++ l ++ m ++ q)
  | .longImmediate i => some (11, 1#2 ++ i)
  | .bcast e x => some (11, 2#2 ++ e ++ 0#22 ++ x)
  | .chk c i => some (11, 3#2 ++ c ++ 0#24 ++ i)
  | .issue _ => none
  | .resultLanding _ => none
  | .firmwareBundle _ => none
  | .gangStreamIssue _ => none
  | .fetchLineArrival _ _ _ => none
  | .cellFreeze _ => none
  | .linkArrival _ => none
  | .fillRequest _ _ => none
  | .bind _ _ => none
  | .acquire _ => none
  | .drain _ => none
  | .place _ => none
  | .writeBack _ _ => none
  | .complete _ => none
  | .so _ => none
  | .engine _ => none
  | .record _ => none
  | .perform _ => none
  | .host _ => none
  | .hostAtomicWrite _ => none
  | .fillStart _ _ => none
  | .ceCompletion _ => none
  | .taskCompletion _ => none
  | .translationWalk _ _ => none
  | .invreq _ _ => none
  | .hinvreq _ => none
  | .invalidationComplete _ _ => none
  | .hvrespRetry _ => none
  | .hvrespReflect _ => none
  | .hvrespKill _ => none
  | .lockInterfaceRequest _ => none
  | .startInterfaceRequest _ => none
  | .stopInterfaceRequest _ => none
  | .tdispError _ => none
  | .getVersion _ => none
  | .getCapabilities _ => none
  | .negotiateAlgorithms _ => none
  | .getDigests _ => none
  | .getCertificate _ => none
  | .challenge _ => none
  | .getMeasurements _ _ => none
  | .keyExchange _ => none
  | .finish _ => none
  | .heartbeat _ => none
  | .keyUpdate _ => none
  | .endSession _ => none
  | .vendorDefinedRequest _ _ => none
  | .qnotify _ _ => none
  | .qnotifyCancel _ _ => none
  | .kernelAdmission _ => none
  | .taskDispatch _ _ => none
  | .preemption _ _ _ => none
  | .packetRetirement _ => none
  | .admitRcb _ => none
  | .queueContextWrite _ _ => none
  | .translationContextWrite _ _ => none
  | .subtreeRelease _ => none
  | .energyRefill _ => none
  | .energyCharge _ => none
  | .energyCalibration _ => none
  | .telemetrySample _ _ _ _ => none
  | .thermalThreshold _ _ => none
  | .scrub _ _ _ => none
  | .scheduleTableFiring _ _ _ => none
  | .ppsEdge _ => none
  | .slewEnd _ => none
  | .lockTimeout _ => none
  | .crctlWrite _ _ => none
  | .codecDrainEnd _ => none
  | .scanTransfer _ _ => none
  | .sysCompletion _ => none
  | .fwrsmResume _ _ => none
  | .fwrsmStart _ _ => none
  | .halt _ => none
  | .step _ => none
  | .run _ => none
  | .dbgdataRead _ _ => none
  | .dbgdataWrite _ _ _ => none
  | .preciseStop _ => none
  | .preciseStopTimeout _ => none
  | .gangfail _ _ => none
  | .deviceReset => none
  | .lifecycleChange _ => none
  | .wipeEnd => none
  | .fwcmdStage _ => none
  | .fwcmdActivate _ => none
  | .fwack _ => none
  | .fwActivationTimeout => none
  | .cksave _ => none
  | .ckload _ => none
  | .collectiveCompletion => none
  | .halfReadLow _ _ _ _ => none
  | .halfReadHigh _ => none
  | .registerWrite _ _ _ _ => none
  | .fillInstall _ _ => none
  | .peerPortAccess _ _ _ _ => none
  | .rcbTeardown _ => none

/-- The instruction of a 32-bit slot word taken without its place: the word is tried in the places X, T, M, S, V,
w0 and B, most specific first, and last as a buffer read or a move of V0 or S0 (log 2). -/
def tableSlot (w : SlotWord) : Option (Nat × Instr) :=
  let ok (k : Nat) : Option (Nat × Instr) :=
    match decodeSlot false k w with
    | .ok i => some (k, i)
    | _ => none
  let trig (k : Nat) : Option (Nat × Instr) :=
    match ok k with
    | some (_, .move ..) => none
    | some (_, .cbRead ..) => none
    | some (_, .cbWriteM ..) => none
    | r => r
  (trig 9).orElse fun _ => (trig 10).orElse fun _ => (trig 8).orElse fun _ => (trig 1).orElse fun _ =>
  (trig 4).orElse fun _ => (trig 0).orElse fun _ => (trig 11).orElse fun _ => (ok 8).orElse fun _ =>
  (ok 4).orElse fun _ => ok 1

/-- The instruction the decoder reads from a table word of nbits bits. -/
def decodeTableWord (nbits w : Nat) : Option Instr :=
  if nbits = 32 then (tableSlot (BitVec.ofNat 32 w)).map Prod.snd else none

end Sys2Proof
end

