-- ==== Sys2Proof/Machine/State.lean ====
section
/-!
DEFINITION. The machine state of the Oztil-3: plain data, holding every piece of state the manual names
(INVENTORY.md lists each with its rule and its reset value). A sparse map lists (number, value) pairs in
rising order; a number it does not list holds the map's default.
-/

namespace Sys2Proof.Machine

/-- A sparse map: numbers strictly rising. -/
abbrev SMap (α : Type) := List (Nat × α)

/-- Device, host, scratchpad or instruction-scratchpad bytes; an unlisted byte reads as 0 (R395, log 4). -/
abbrev Bytes := List Host.Cell

/-- Why the machine stops. Raised by PERFORM and HOST only. -/
inductive Fault where
  /-- An access of a performed message or host entry reaches a physical address above the 1,024 GiB of R11,
  where the manual puts no memory and no device. Safe: the model stops where the hardware may go on (log 13). -/
  | noMemory (pa : Nat)
  deriving DecidableEq, Repr

/-- Why an instruction is rejected. -/
inductive Refusal where
  /-- An arm of Dispatch that has no meaning yet. Safe: nothing is claimed of it. -/
  | notModelled (mnemonic : String)
  deriving DecidableEq, Repr

/-- The 64-bit operand and result latches of R47, R48, R52, R137, R167, R214, in the order of segment LATCH
(R350), the sys latches last. -/
inductive SLatch where
  | alu0o | alu1o | mulo | cmpo | cmpc | bro | lsuo | lsuh | lsud | lsuc | lsuaop | xlto
  | cesrc | cedst | celen | cectl | cesrc2 | cedst2 | celen2 | cectl2
  | alu0r | alu1r | mulr | cmpr | lsur | xltr | cer | vrx | brr | syso | sysm | sysr
  deriving DecidableEq, Repr

/-- The 1024-bit latches of R49 and R52, in the order of segments LATCH and LINK (R350). -/
inductive VLatch where
  | vx0o | vx1o | vfo | vfm | vro | vrm | lsuvc
  | vx0r | vx1r | vfr | vrr | mxr | lsuvr | xfr
  | lnkn | lnke | lnks | lnkw
  deriving DecidableEq, Repr

/-- A function unit whose trigger ports form one collision target (R75). -/
inductive FUnit where
  | alu0 | alu1 | mul | cmp | sys | vx0 | vx1 | vf | vr | lsu | xlt | ce | lnk
  deriving DecidableEq, Repr

/-- What a write in flight writes (R75, R403). Register numbers are physical (R85). -/
inductive Target where
  /-- A register x0 to x63. -/
  | xreg (i : Nat)
  /-- A register xs0 to xs7 of the interrupt handler. -/
  | xsreg (i : Nat)
  /-- A vector register, 0 to 639 in the order va, vb, vc, vd. -/
  | vreg (i : Nat)
  /-- A scalar latch. -/
  | slat (l : SLatch)
  /-- A vector latch or staging register. -/
  | vlat (l : VLatch)
  /-- A control register of R53, by number. -/
  | creg (n : Nat)
  /-- A predicate; cond marks a conditional write of R76. -/
  | pred (i : Nat) (cond : Bool)
  /-- The trigger ports of a unit that two moves of one bundle reach (R75). -/
  | port (u : FUnit)
  /-- The landing of a division trigger: DV and mul.r (R94). -/
  | divide
  /-- The counts and records of a conversion (R126, R201). -/
  | counts
  /-- The landing of xlt.map on a handle (R164). -/
  | handle (h : Nat)
  deriving DecidableEq, Repr

/-- A physical handle ph0 to ph15 (R165, R321, R350), with the host marking of R330. -/
structure Handle where
  v : Bool
  sz : BitVec 2
  kind : BitVec 2
  pr : Bool
  pw : Bool
  sysat : Bool
  cdc : Bool
  creg : BitVec 6
  slaen : Bool
  sla : BitVec 4
  ppage : Word
  vpage : Word
  gpage : Word
  leaf1 : Word
  leaf2 : Word
  iseq1 : BitVec 32
  iseq2 : BitVec 32
  host : Bool
  /-- The model's own, for R324: the levels of the two leaves, 0 where they are not known (log 91), and whether the stage-1 leaf
  lies in host memory. -/
  lvl1 : BitVec 3
  lvl2 : BitVec 3
  lhost : Bool
  /-- Of a fetch: the fetch permissions of its two leaves (R322). -/
  x1 : Bool
  x2 : Bool
  deriving DecidableEq, Repr

/-- A handle that is not valid (R231). -/
def Handle.invalid : Handle :=
  ⟨false, 0, 0, false, false, false, false, 0, false, 0, 0, 0, 0, 0, 0, 0, 0, false, 0, 0, false, false, false⟩

/-- The division state DV (R94). -/
structure DivState where
  divd : BitVec 64
  quo : BitVec 64
  rem : BitVec 65
  bits : BitVec 7
  nq : Bool
  nr : Bool
  dz : Bool
  deriving DecidableEq, Repr

/-- DV as R94 gives it when a task starts. -/
def DivState.zero : DivState := ⟨0, 0, 0, 0, false, false, false⟩

/-- What a result in flight still waits for. -/
inductive Wait where
  /-- Nothing: the value is known. -/
  | none
  /-- The binding of a memory load (R147). -/
  | load (id : Nat)
  /-- A translation walk (R164). -/
  | walk
  deriving DecidableEq, Repr

/-- A write in flight (R79, R403). cnt counts the issue cycles up to and including the one in which it lands;
slot is the slot word index of a move, 15 for a result. -/
structure Flight where
  tgt : Target
  val : Vec
  cnt : Nat
  slot : Nat
  wait : Wait := .none
  id : Nat := 0
  aux : Word := 0
  ext : BitVec 256 := 0
  dv : DivState := .zero
  h : Handle := .invalid
  deriving DecidableEq, Repr

/-- What a bank access does in its cycle (R145, R155, R247). -/
inductive BankAct where
  /-- A load of len bytes for the flight id; n and signed say how lsu.r extends it. -/
  | load (id : Nat) (signed : Bool)
  /-- A store of len bytes of val. -/
  | store
  /-- The read of a scratchpad atomic for the flight id, with its operation, operand and compare value. -/
  | amoRead (id : Nat) (vec : Bool) (aop : Word) (a k : BitVec 256)
  /-- The held middle cycle of an atomic's window. -/
  | amoHold
  /-- The write of an atomic. -/
  | amoWrite
  /-- The read of a lsu.cpy: source and destination format, destination offset, count of elements. -/
  | cpyRead (sf df : Nat) (dst n : Nat)
  /-- The write of a lsu.cpy; ss is the source element size read from BFMT at issue (R149). -/
  | cpyWrite (ss : Nat)
  /-- A KIND 1 buffer read of the bundle that issues in the cycle. -/
  | cbRead
  /-- A KIND 1 deposit of a link arrival. -/
  | link
  /-- A part of a tile transfer. -/
  | tile
  deriving DecidableEq, Repr

/-- A bank access still to be made (R145, R247). code is the requester code of R247; cnt as in a flight. -/
structure BankOp where
  cnt : Nat
  code : Nat
  act : BankAct
  off : Nat
  len : Nat
  val : Vec := 0
  ext : BitVec 256 := 0
  /-- Groups the accesses of one atomic. -/
  grp : Nat := 0
  dead : Bool := false
  deriving DecidableEq, Repr

/-- A tile landing of an xf command (R199, R350 TLAND). mask selects the bytes of the tile that land. -/
structure TLand where
  cnt : Nat
  tile : Nat
  split : Bool
  pack : Bool
  line : Nat
  val : Tile
  mask : BitVec 128
  tshape : Word
  tdmap : Word
  /-- A tile load of the tile port, all of whose parts have moved. -/
  port : Bool
  deriving DecidableEq, Repr

/-- The transfer on the tile port (R146, R350 TLAND). -/
structure TPort where
  store : Bool
  tile : Nat
  off : Nat
  moved : Nat
  val : Tile
  deriving DecidableEq, Repr

/-- A gang-stream entry (R409). -/
structure GangEntry where
  bundle : Bundle
  addr : Word
  out : BitVec 128
  deriving DecidableEq, Repr

/-- A fetch line or instruction-cache line held: its virtual address and 64 bytes (R57). -/
structure ILine where
  va : Word
  val : BitVec 512
  deriving DecidableEq, Repr

/-- A walk held for a hypervisor response (R326): for a flight of a handle, or for a fetch line. iseq1 and iseq2: those of its start
(R328). -/
structure WalkHold where
  fetch : Bool
  va : Word
  info0 : Word
  info1 : Word
  iseq1 : BitVec 32
  iseq2 : BitVec 32
  deriving DecidableEq, Repr

/-- The execution state of one context, user or firmware (R81). -/
structure Ctx where
  /-- A bundle address is even. Bit 0 marks a relative target that is no valid PC, which traps when it is due (R103). -/
  pc : Word
  lit : Bool
  ulit : Bool
  uira : Word
  /-- Pending target (R350 SEQ). -/
  target : Word
  /-- Pending kind: 0 none, 1 taken to target, 2 end pending (R350 SEQ). -/
  pkind : BitVec 2
  bubbles : BitVec 4
  lead : BitVec 8
  gang : List GangEntry
  x : SMap Word
  xs : SMap Word
  p : Word
  v : SMap Vec
  sl : SMap Word
  vl : SMap Vec
  dv : DivState
  flights : List Flight
  bankOps : List BankOp
  tland : List TLand
  tport : List TPort
  cola : BitVec 1056
  colb : BitVec 1056
  /-- Control registers of R53 by number, but for those the cell holds once (log 7). -/
  cr : SMap Word
  tiles : SMap Tile
  ph : SMap Handle
  scyc : Word
  rankx : Word
  ranky : Word
  ilines : List ILine
  walk : Option WalkHold
  /-- A missing fetch line that trapped or is being walked is asked for here (R58). -/
  want : Option Word
  /-- The model's own: the address of the bundle last issued (log 1). -/
  last : Word
  /-- Commands of the context that have run to completion, modulo 2^32 (R172). -/
  ceEnded : BitVec 32
  deriving DecidableEq, Repr

/-- A context with everything at 0 and nothing held. -/
def Ctx.zero : Ctx where
  pc := 0
  lit := false
  ulit := false
  uira := 0
  target := 0
  pkind := 0
  bubbles := 0
  lead := 0
  gang := []
  x := []
  xs := []
  p := 1
  v := []
  sl := []
  vl := []
  dv := .zero
  flights := []
  bankOps := []
  tland := []
  tport := []
  cola := 0
  colb := 0
  cr := []
  tiles := []
  ph := []
  scyc := 0
  rankx := 0
  ranky := 0
  ilines := []
  walk := none
  want := none
  last := 0
  ceEnded := 0

/-- An accumulator row (R28): M[j] in bits [48j+47:48j]. -/
structure AccRow where
  m : BitVec 3072
  e : BitVec 16
  hr : BitVec 6
  pf : Bool
  z : Bool
  deriving DecidableEq, Repr

/-- The row after mx.clr and after reset (R28). -/
def AccRow.clear : AccRow := ⟨0, 0, 46, false, true⟩

/-- A live slice (R183). DESIGN CHOICE (log 30): where the halves stand, which no rule says. For 8-bit formats half h of a
and b is bits [512h+511:512h]; av and bv hold half h at bits [64h+63:64h]. -/
structure Slice where
  a : BitVec 1024
  b : BitVec 1024
  av : BitVec 128
  bv : BitVec 128
  tile : BitVec 3
  fmt : BitVec 3
  age : Nat
  deriving DecidableEq, Repr

/-- Which access a message or an entry is of: its context, the address of its bundle, and the page of the handle that it goes
through: virtual page, guest-physical page and size, 0 for an access without a handle (R328, R331, R336). -/
structure Origin where
  fw : Bool
  baddr : Word
  vpage : Word
  gpage : Word
  psize : Nat
  deriving DecidableEq, Repr

/-- An access without a handle. -/
def Origin.bare (fw : Bool) (baddr : Word) : Origin := ⟨fw, baddr, 0, 0, 0⟩

/-- A word of an L1 line in state C (dirty = false) or D (R249). whole: one store has written the whole 64-bit word that it
belongs to, so that its writeback clears the mark of that word (R379). orgs: the stores whose bytes it holds in state D
(R328). -/
structure L1Word where
  val : BitVec 32
  dirty : Bool
  poison : Bool
  whole : Bool := false
  orgs : List Origin := []
  deriving DecidableEq, Repr

/-- An L1 line: words that are not listed are in state I (R249). age orders the lines of a set by their last use. org: the
last store to it, or the access that brought it. -/
structure L1Line where
  kind : BitVec 2
  slice : Nat
  host : Bool
  words : SMap L1Word
  age : Nat
  org : Origin
  deriving DecidableEq, Repr

/-- An entry of the load queue (R254). -/
inductive LoadEnt where
  /-- A load of len bytes at pa, on a host page 2^64 higher; signed says how lsu.r extends it. -/
  | load (id : Nat) (pa len : Nat) (signed : Bool) (kind : BitVec 2) (slice : Nat) (host : Bool) (org : Origin)
  /-- An acquire of a context; for the acquire half of lsu.fence, mark is its marker's number plus one. -/
  | acq (id : Nat) (scope : Nat) (mark : Nat) (fw : Bool)
  deriving DecidableEq, Repr

/-- An entry of the store buffer (R254). -/
inductive StoreEnt where
  /-- A store of len bytes of val at pa, on a host page 2^64 higher. strict: the store of lsu.mst.rl (R258). -/
  | store (id : Nat) (pa len : Nat) (val : Vec) (kind : BitVec 2) (slice : Nat) (host : Bool) (strict : Bool)
      (org : Origin)
  /-- A release marker. -/
  | mark (id : Nat)
  deriving DecidableEq, Repr

/-- A release marker that is not complete (R252). pos is its position in the FIFO once it is placed; last is the number of
the youngest marker merged into it, its own at first: what is older than that, it waits for (R259). fw: no marker of the
user task's own is in it, so that it outlives the task. -/
structure Marker where
  id : Nat
  scope : Nat
  fence : Bool
  pos : Option Nat
  last : Nat
  fw : Bool
  deriving DecidableEq, Repr

/-- An entry of the dirty-line FIFO (R251): a line with its position. -/
structure FifoEnt where
  pos : Nat
  line : Nat
  deriving DecidableEq, Repr

/-- The SO access of a cell, or its L2 atomic on an SO page, for which a context freezes (R147, R254, R257). An atomic
stands here with sent set from its issue: its engine-queue entry carries it. -/
structure SoReq where
  id : Nat
  pa : Nat
  len : Nat
  store : Bool
  signed : Bool
  val : Vec
  slice : Nat
  host : Bool
  org : Origin
  sent : Bool
  deriving DecidableEq, Repr

/-- A copy-engine command as accepted (R167, R169). -/
structure CeCmd where
  tag : BitVec 16
  src : Nat
  dst : Nat
  len : Nat
  ctl : Word
  sh : Handle
  dh : Handle
  sfmt : Nat
  dfmt : Nat
  org : Origin
  /-- Ended by ce.abort before it ran (R172). -/
  ab : Bool
  deriving DecidableEq, Repr

/-- An entry of the engine queue (R254). -/
inductive EngEnt where
  /-- An L2 atomic (R156). ret is the return handle plus one, or 0. -/
  | atomic (id : Nat) (pa off : Nat) (aop : Word) (cas128 : Bool) (a k : BitVec 128) (slice : Nat) (sysat host : Bool)
      (ret : Nat) (org : Origin)
  /-- An accepted ce command (R168). -/
  | ce (id : Nat) (cmd : CeCmd)
  deriving DecidableEq, Repr

/-- The command the copy engine runs (R170, R263). -/
structure CeRun where
  cmd : CeCmd
  /-- Source bytes asked for, and destination bytes written so far. -/
  rd : Nat
  wr : Nat
  /-- Pieces of the source that have come and are not written: source offset, length, and the bytes, or none where the host
  IOMMU refused them (R331). -/
  got : List (Nat × Nat × Option Vec)
  /-- Destination bytes at which an abort or an uncorrectable error stops the command (R171, R172). -/
  stop : Option Nat
  /-- 0 running or complete, 1 aborted, 2 stopped on an uncorrectable error (R171). -/
  status : Nat
  /-- A command without REL whose record is deposited while its last blocks are still to be written (R295). -/
  early : Bool
  deriving DecidableEq, Repr

/-- An ended ce command whose completion record is not deposited yet (R171, R172). id is the number of the
first message after its last write. -/
structure CeDone where
  cmd : CeCmd
  done : Nat
  status : Nat
  id : Nat
  deriving DecidableEq, Repr

/-- A queued record of the exception ring (dev = false) or the deviation ring (R26, R303). -/
structure RecEnt where
  id : Nat
  dev : Bool
  val : BitVec 256
  deriving DecidableEq, Repr

/-- An image that a save of Sirvy's own writes (R360, R364, R382): its address, its bytes, how many of them are written, and whether VALID
is written too. One that is whole with no bytes written is a save that the hypervisor ended. -/
structure SaveImg where
  base : Nat
  val : Nat
  done : Nat
  whole : Bool
  deriving DecidableEq, Repr

/-- The frozen interval that is open (R78, R303). -/
structure Frozen where
  cause : Nat
  causer : Nat
  lost : BitVec 32
  multi : Bool
  /-- A scan-out has filed its record already (R303). -/
  filed : Bool
  deriving DecidableEq, Repr

/-- The task bound to a cell (R227). -/
structure TaskRef where
  kid : Nat
  tx : Nat
  ty : Nat
  rank : Nat
  /-- Order of dispatch (R316). -/
  num : Nat
  deriving DecidableEq, Repr

/-- The debug block of a cell (R297 to R303). -/
structure Debug where
  prec : Bool
  stat : Word
  bpa : SMap Word
  bpx : Word
  wp : SMap Word
  sel : Word
  devbase : Word
  devsize : Word
  devhead : Word
  devctl : Word
  /-- A HALT whose precise stop is awaited, with the cycles issued since (R300). -/
  precise : Option Nat
  /-- The next cycle ignores a breakpoint at the bundle of the stop, whose address is at_ (R301). -/
  skip : Bool
  at_ : Word
  /-- The model's own: what the last read of DBGDATA returned (log 1). -/
  data : Word
  deriving DecidableEq, Repr

/-- A link transfer on its way to the receiving cell (R173, R350 LINK). sync: sender and receiver share a
lockstep group, and cnt counts the receiver's cycles. Another has come once cnt is at most 1, and lands with the cycle under
way. A port of 4 + h: it is in its staging register, and its deposit into buffer h is still to be made (R163). fw: the firmware
context of the neighbour sent it, and it goes to that of the receiver (R81). -/
structure Arrival where
  port : Nat
  val : Vec
  cnt : Nat
  sync : Bool
  fw : Bool
  deriving DecidableEq, Repr

/-- A hardware deposit that comes to a running cell from L2 or from its copy engine (R157, R161, R171): it lands with the end
of the cycle under way, or of the next one when a move of the cycle writes its buffer's pointers (R163). -/
structure Deposit where
  fw : Bool
  h : Nat
  val : Vec
  deriving DecidableEq, Repr

/-- A return slot of an L2 atomic, in trigger order; val comes when the atomic is performed (R157). -/
structure RetSlot where
  id : Nat
  fw : Bool
  h : Nat
  val : Option Vec
  deriving DecidableEq, Repr

/-- One element of a store stream (R385). -/
structure StoreElt where
  code : Nat
  va : Word
  size : Nat
  val : Vec
  deriving DecidableEq, Repr

/-- A cell. -/
structure Cell where
  user : Ctx
  fw : Ctx
  acc : SMap AccRow
  rcnt : SMap (BitVec 32)
  tcnt : SMap (BitVec 32)
  slices : List Slice
  spad : Bytes
  isp0 : Bytes
  isp1 : Bytes
  ispAct : Bool
  dict : SMap Bundle
  exlbase : Word
  exlsize : Word
  exlhead : Word
  fwshare : Word
  /-- User bundles issued since the last firmware bundle (R224). -/
  fwcount : Nat
  records : List RecEnt
  l1 : SMap L1Line
  loadq : List LoadEnt
  storeb : List StoreEnt
  markers : List Marker
  fifo : List FifoEnt
  soq : Option SoReq
  engq : List EngEnt
  ce : Option CeRun
  ceDone : List CeDone
  hold : Bool
  /-- A freeze request not yet in effect (R347). -/
  frzReq : Bool
  frozen : Option Frozen
  /-- The model's own: the kernel for which the scheduler has frozen the cell to save its task (R364), and whether HOLD stood before. -/
  saving : Option Nat
  wasHeld : Bool
  /-- The image of the cell that Sirvy's own save writes or has written (R360, R382, R408). -/
  image : Option SaveImg
  task : Option TaskRef
  owners : SMap (BitVec 16)
  lver : BitVec 16
  ok : Bool
  /-- A cell-source ECCU: 0 none, 1 trapped, 2 its group's failure is reported (R382). -/
  failed : Nat
  dbg : Debug
  arrivals : List Arrival
  /-- Deposits that have come and land with the cycle under way, oldest first (R163). -/
  inbox : List Deposit
  /-- Return slots of L2 atomics that are not deposited, in trigger order (R157). -/
  rets : List RetSlot
  enj : Word
  enjCharged : Word
  poison : List (Nat × Nat × Nat)
  fwRun : Bool
  fwStop : Option Nat
  /-- Partition of the last task, whose scratchpad and dictionary stand (R231). -/
  lastPart : BitVec 16
  deriving DecidableEq, Repr

/-- The debug block at reset (R297). -/
def Debug.reset : Debug :=
  ⟨false, 0, [], 0, [], 0, 0, 0, 0, 0, none, false, 0, 0⟩

/-- A cell right after reset (R395; log 3, log 8). -/
def Cell.reset : Cell where
  user := Ctx.zero
  fw := { Ctx.zero with cr := [(0x103, 1)] }
  acc := []
  rcnt := []
  tcnt := []
  slices := []
  spad := []
  isp0 := []
  isp1 := []
  ispAct := false
  dict := []
  exlbase := 0
  exlsize := 0
  exlhead := 0
  fwshare := 64
  fwcount := 0
  records := []
  l1 := []
  loadq := []
  storeb := []
  markers := []
  fifo := []
  soq := none
  engq := []
  ce := none
  ceDone := []
  hold := false
  frzReq := false
  frozen := none
  saving := none
  wasHeld := false
  image := none
  task := none
  owners := []
  lver := 0x0100
  ok := true
  failed := 0
  dbg := Debug.reset
  arrivals := []
  inbox := []
  rets := []
  enj := 0
  enjCharged := 0
  poison := []
  fwRun := false
  fwStop := none
  lastPart := 0

/-- A resident L2 line (R334 to R339). dirty selects bytes. -/
structure L2Line where
  slice : Nat
  set : Nat
  way : Nat
  line : Nat
  cos : Nat
  data : Vec
  dirty : BitVec 128
  age : Nat
  deriving DecidableEq, Repr

/-- A waiting L2 miss (R340). who: the accesses that wait for its data (R339): 2 id of a message, 2 f + 1 of the head of
function f's queue. -/
structure L2Miss where
  slice : Nat
  line : Nat
  cos : Nat
  who : List Nat
  deriving DecidableEq, Repr

/-- A fill that has started: its set and way are chosen (R339). Way 16: the data is returned without a place. age: when it
started, which orders it among the lines of its set (R370). -/
structure L2Fill where
  slice : Nat
  line : Nat
  cos : Nat
  set : Nat
  way : Nat
  age : Nat
  who : List Nat
  deriving DecidableEq, Repr

/-- The registers of one class of service in one slice (R337) and its credit (R340). -/
structure CosRegs where
  ways : BitVec 16
  setmask : BitVec 15
  setbase : BitVec 15
  share : BitVec 8
  peak : BitVec 20
  cur : BitVec 20
  credit : Int
  deriving DecidableEq, Repr

/-- Reset values of R337. -/
def CosRegs.reset : CosRegs := ⟨0xFFFF, 0x7FFF, 0, 16, 0, 0, 0⟩

/-- A leaf that a walk found: its descriptor, its address, whether that is in host memory, its level, and the output
address of the byte. on: its stage is on. -/
structure Leaf where
  desc : Nat
  addr : Nat
  inHost : Bool
  lvl : Nat
  out : Nat
  on : Bool
  deriving DecidableEq, Repr

/-- An entry of a die's walk cache: the leaf that one stage of a context gave for an address (R322, R328, R329). -/
structure WalkEnt where
  key : Nat
  stage2 : Bool
  addr : Nat
  leaf : Leaf
  deriving DecidableEq, Repr

/-- A schedule-table entry (R315). -/
abbrev SchedEnt := BitVec 256

/-- An accepted sys command (R214), by the low digit of its trigger code; 8: a save of Sirvy's own that a save fault holds back (R360,
R364, R382). -/
structure SysCmd where
  cell : Nat
  trig : Nat
  o : Word
  m : Word
  t : Word
  /-- Images reached VALID = 1, and the image a save fault holds back (R360). -/
  cells : Nat
  next : Nat
  held : Bool
  status : Option Nat
  /-- A scan whose checks have passed, and its scan block; a cell.frz whose requests are made (R218 to R220). -/
  started : Bool
  blk : BitVec 512
  /-- The image that a save fault holds back, and its bytes written: the staging buffer (R360). -/
  stage : Option (Nat × Nat)
  /-- What the record is to hold, size, cells and status, and the number of the release that it waits for (R215, R258). -/
  ans : Option (Nat × Nat × Nat × Nat)
  deriving DecidableEq, Repr

/-- A C-die. -/
structure Die where
  ecccnt : Word
  rpctl : Word
  rpstat : Word
  migctl : Word
  migbase0 : Word
  migbase1 : Word
  fwfqbase : Word
  fwfqsize : Word
  fwfqhead : Word
  fwrpc : Word
  rst : SMap Word
  cos : SMap CosRegs
  l2 : List L2Line
  misses : List L2Miss
  fills : List L2Fill
  /-- Accesses whose data has come from memory, with the line: they act whether or not it is still resident (R339). -/
  returned : List (Nat × Nat)
  clock : Nat
  telctl : Word
  telbase : Word
  telsize : Word
  telhead : Word
  /-- Real time at which the next sample is due (R398). -/
  telnext : Nat
  hot : Bool
  melted : Bool
  sched : SMap SchedEnt
  /-- Words 0 to 2 of a schedule-table entry that Sirvy is writing, until word 3 makes the one 32-byte write (R315, log 88). -/
  schedw : SMap Word
  /-- The kernel of the last firing of each entry (R315). -/
  fired : SMap Nat
  /-- How far the die's TIME stands from IO-0's, in ns (R314). -/
  toff : Int
  /-- The walk cache (R322). -/
  walks : List WalkEnt
  sys : List SysCmd
  deriving DecidableEq, Repr

/-- RST0 to RST63 at reset: entries 60 to 63 have V = VES = 1 (R345). -/
def Die.rstReset : SMap Word :=
  [(60, 0xA000000000000000), (61, 0xA000000000000000), (62, 0xA000000000000000), (63, 0xA000000000000000)]

/-- A die right after reset. -/
def Die.reset : Die where
  ecccnt := 0
  rpctl := 0
  rpstat := 0
  migctl := 0
  migbase0 := 0
  migbase1 := 0
  fwfqbase := 0
  fwfqsize := 0
  fwfqhead := 0
  fwrpc := 0
  rst := Die.rstReset
  cos := []
  l2 := []
  misses := []
  fills := []
  returned := []
  clock := 0
  telctl := 0
  telbase := 0
  telsize := 0
  telhead := 0
  telnext := 0
  hot := false
  melted := false
  sched := []
  schedw := []
  fired := []
  toff := 0
  walks := []
  sys := []

/-- A sender of messages (R255). -/
inductive Sender where
  | cell (n : Nat)
  | engine (n : Nat)
  | firm
  deriving DecidableEq, Repr

/-- A home (R255). -/
inductive Home where
  | slice (die slice : Nat)
  | host
  deriving DecidableEq, Repr

/-- What a message does when it is performed (R257). Addresses are physical bytes. -/
inductive MsgOp where
  | fill (line : Nat) (kind : BitVec 2)
  | wb (line pos : Nat) (words : SMap L1Word)
  | soRead (id pa len : Nat)
  | soWrite (id pa len : Nat) (val : Vec)
  | atomic (pa off : Nat) (aop : Word) (cas128 : Bool) (a k : BitVec 128) (sysat : Bool) (ret : Nat) (trig : Nat)
  /-- off: offset of the bytes in the source of the command. -/
  | engRead (pa len off : Nat)
  | engWrite (pa len : Nat) (val : Vec)
  /-- rid: the number of the record in its queue. -/
  | record (pa len : Nat) (val : BitVec 256) (rid : Nat)
  /-- A record of the hypervisor fault queue, in host memory (R326). -/
  | hyper (pa : Nat) (val : BitVec 512)
  deriving DecidableEq, Repr

/-- A message in a channel (R254). cos: the class of the context that made it (R336). func: the host function that a host
access is made for, and trusted: it is marked trusted (R330, R332). org: the access, for a refusal (R331). -/
structure Msg where
  id : Nat
  cell : Nat
  sender : Sender
  home : Home
  op : MsgOp
  cos : Nat
  func : Nat
  trusted : Bool
  org : Origin
  deriving DecidableEq, Repr

/-- An entry of a host-to-device queue (R261). -/
inductive HostReq where
  | read (pa len : Nat)
  | write (pa len : Nat) (val : Vec)
  /-- sysat: the page carries SYSAT (R262). -/
  | atomic (pa : Nat) (aop : Word) (a k : Word) (sysat : Bool)
  /-- The later write of a host atomic to a page without SYSAT (R262). -/
  | later (pa len : Nat) (val : Vec)
  deriving DecidableEq, Repr

/-- The four algorithms of R333. -/
inductive SpdmAlg where
  | ed25519 | sha512 | secp384r1 | aes256gcm
  deriving DecidableEq, Repr

/-- One host function: its queue, the values its reads returned, its latch of R401, its TDISP and SPDM state. -/
structure HostFn where
  queue : List HostReq
  got : List Vec
  latch : BitVec 32
  /-- 0 CONFIG_UNLOCKED, 1 CONFIG_LOCKED, 2 RUN, 3 ERROR (R332). -/
  tdisp : BitVec 2
  measure : BitVec 512
  /-- Stage-2 invalidations since CONFIG_LOCKED (R333). -/
  invs : Word
  /-- SPDM session: 0 none, 1 version, 2 capabilities, 3 algorithms, 4 keys exchanged, 5 secure (R333, log 10). -/
  spdm : Nat
  /-- The algorithms negotiated: none, or the fixed ones of R333. -/
  algs : List SpdmAlg
  keyUpdates : Nat
  /-- The last SPDM or TDISP response: a code and a value. -/
  resp : Nat × BitVec 512
  fwack : Bool
  fwevt : Word
  deriving DecidableEq, Repr

/-- A host function at reset (R332, R401; log 10). -/
def HostFn.reset : HostFn := ⟨[], [], 0, 0, 0, 0, 0, [], 0, (0, 0), false, 0⟩

/-- A codec region (R265, R266, R271). next holds the value EN takes when the drain of R267 ends. -/
structure Codec where
  view : Word
  size : Word
  back : Word
  ctl : Word
  cerrb : Word
  cerrx : Word
  cspec : Word
  next : Bool
  deriving DecidableEq, Repr

/-- A codec region at reset (R266, R271). -/
def Codec.reset : Codec := ⟨0, 0, 0, 0, 0, 0x8000, 0, false⟩

/-- An admitted region (R304 to R316). -/
structure Region where
  pa : Nat
  part : BitVec 16
  rcb : BitVec 2048
  parent : Option (BitVec 16)
  cells : List Nat
  econs : Word
  erem : Int
  fqhead : BitVec 32
  turn : Nat
  /-- Frozen by the fault policy (R309), with the cells it froze. -/
  frozen : Option (List Nat)
  /-- The pages of the save area, each with the stage-2 leaf that maps it: page, leaf address, descriptor (R359). -/
  pins : List (Nat × Nat × Nat)
  deriving DecidableEq, Repr

/-- A translation context (R318) with the sequence numbers and requests of R322 and R327. -/
structure TCtx where
  reg : BitVec 256
  iseq1 : BitVec 32
  iseq2 : BitVec 32
  issued1 : BitVec 32
  done1 : BitVec 32
  issued2 : BitVec 32
  done2 : BitVec 32
  /-- Accepted requests not complete, oldest first. -/
  reqs1 : List Word
  reqs2 : List Word
  deriving DecidableEq, Repr

/-- A translation context at reset (R318). -/
def TCtx.reset : TCtx := ⟨0, 0, 0, 0, 0, 0, 0, [], []⟩

/-- The packet a queue's CP is taking in, and the packets valid to read (R312, R313). -/
structure Queue where
  ctx : BitVec 256
  widx : BitVec 32
  /-- Read up to a slot with V = 0; reading goes on at the next QNOTIFY. -/
  stalled : Bool
  /-- Packets cancelled before the CP read them (R317). -/
  cancels : List (BitVec 32)
  deriving DecidableEq, Repr

/-- A queue that nothing has written (log 3). -/
def Queue.reset : Queue := ⟨0, 0, true, []⟩

/-- A kernel: launched by a packet of queue q (index j), or by the schedule table (q = none). -/
structure Kernel where
  kid : Nat
  q : Option Nat
  pidx : BitVec 32
  part : BitVec 16
  packet : BitVec 512
  desc : BitVec 512
  kdesc : Word
  /-- 0 waiting, 1 admitted, 2 refused or ended, 3 word 0 written and the decrement still to come (R367). -/
  state : Nat
  reserve : Nat
  /-- Next task coordinate to dispatch, tasks ended, tasks waiting for restore: coordinate, base of the images, number of the
pre-emption (R316). -/
  next : Nat
  ended : Nat
  saved : List (Nat × Nat × Nat)
  running : List Nat
  status : Nat
  started : Bool
  /-- The dictionary entries of its DICT image (R62). -/
  image : SMap Bundle
  /-- Die and index of the schedule entry that launched it (R315). -/
  entry : Option (Nat × Nat)
  /-- The number of the last message, or record, before its end or before word 0 was written: what is older is performed first
  (R26, R261). -/
  rel : Nat
  /-- The value at WSIG has been found low enough (R313). -/
  met : Bool
  deriving DecidableEq, Repr

/-- The running issue cycle of a cell's context. -/
structure Cyc where
  cell : Nat
  fw : Bool
  addr : Word
  len : Nat
  bundle : Bundle
  /-- The literal is not the last of its group. -/
  open_ : Bool
  /-- The guard of w0 as the cell itself evaluates it (R42, R234). -/
  wg : Bool
  /-- Function units that two moves of the bundle trigger (R75). -/
  dup : List FUnit
  /-- The KIND 1 reads of the bundle meet a bank conflict (R248). -/
  supp : Bool
  /-- Traps raised: cause, slot, decoding, INFO0, INFO1. -/
  traps : List (Nat × Nat × Bool × Word × Word)
  /-- The br operation: taken, bubbles, target, KIND of R409, ended. -/
  taken : Bool
  bub : Nat
  target : Word
  kind : Nat
  ends : Bool
  /-- A watchpoint matched: its number plus one. -/
  watch : Nat
  deriving DecidableEq, Repr

/-- The unmatched elements of a pair of tasks under the replay check (R385): those of partition ahead, from element idx. Runs of a
task one after the other make pairs of their own, in order. die and
parts: the comparator, and the pair of partitions its RPCTL named. -/
structure ReplayPair where
  die : Nat
  parts : BitVec 32
  kdesc : Word
  tx : Nat
  ty : Nat
  rank : Nat
  ahead : BitVec 16
  elems : List StoreElt
  idx : Nat
  /-- The partitions whose run of the task has begun, and those whose next one has. -/
  begun : List (BitVec 16)
  ends : List (BitVec 16)
  deriving DecidableEq, Repr

/-- No cycle under way. -/
def Cyc.idle : Cyc :=
  ⟨0, false, 0, 0, 0, false, true, [], false, [], false, 0, 0, 0, false, 0⟩

/-- Bytes that the collective engine writes to a peer (R390). -/
structure PeerWrite where
  member : Nat
  port : Nat
  addr : Nat
  len : Nat
  val : Nat
  deriving DecidableEq, Repr

/-- A collective command under way (R389): its block, whether it still waits for its start word, what its record is to hold, and how
far it is (R390, R391). -/
structure Collective where
  blk : BitVec 512
  waits : Bool
  status : Nat
  mask : Nat
  step : Word
  /-- 64-byte blocks read and written, the bytes of the chunk or the shard under way, the parity so far, and the pieces that a CKLOAD
  has read. -/
  pos : Nat
  buf : Nat
  par : Nat
  got : List Nat
  /-- Only the record is still to be written. -/
  done : Bool
  deriving DecidableEq, Repr

/-- The state of the machine: the device, the host memory it reaches, and the model's own fields
(agenda, focus, cyc, free, seq). -/
structure State where
  agenda : List Instr
  focus : Nat
  cyc : Cyc
  free : Nat
  seq : Nat
  cells : SMap Cell
  dies : SMap Die
  mem : Bytes
  hostMem : Bytes
  /-- Host I/O virtual 64 KiB pages that the host IOMMU refuses (R331, log 9). -/
  hostDeny : List Nat
  poison : List Nat
  chan : List Msg
  hosts : SMap HostFn
  codecs : SMap Codec
  regions : List Region
  tctx : SMap TCtx
  queues : SMap Queue
  kernels : List Kernel
  /-- Kernels whose first tasks the scheduler has dispatched in its cycle under way (R317). -/
  newKernels : List Nat
  time : Word
  tset : Word
  /-- The host has written TSET (R314). -/
  tsetw : Bool
  tstat : Word
  /-- What is left of a slew, in 1/1024 ns, with its sign (R314). -/
  slew : Int
  hvbase : Word
  hvsize : Word
  hvhead : Word
  /-- Interrupts sent to the hypervisor, one for each append to its fault queue (R326). -/
  hvirqs : Word
  fwstat : Word
  fwimage : Option Word
  /-- Address of the image that Sirvy runs, 0 for the one at reset (R393). -/
  fwactive : Word
  /-- The bytes of that image, read when it was activated (R333, R393). -/
  fwcode : Nat
  paused : Bool
  lcstat : Word
  failmap : List (Nat × Nat × Nat)
  /-- Corrections of the last 24 hours that R384 counts: cell, structure, number, and TIME in ns, which
a reset takes back with TIME. -/
  corrected : List (Nat × Nat × Nat × Int)
  /-- Sirvy's answer to the last command of the hypervisor: 0 done, 1 BADRCB, 2 DEPTH, 3 NOFIT (R307). -/
  answer : Nat
  coll : List Collective
  groups : SMap Nat
  /-- The model's own: what the collective engine has sent to the peers, oldest first, and what the last read by a peer
  returned (log 1). -/
  peerOut : List PeerWrite
  peerGot : BitVec 512
  replay : List ReplayPair
  /-- Milliseconds and 100 µs intervals of TIME whose refill and charge are done (R316, R397). -/
  refills : Nat
  charges : Nat
  /-- Nanoseconds of real time since the reset (R398), and since the last 1PPS edge (R314). -/
  real : Nat
  sinceEdge : Nat
  /-- Nanoseconds since the queues were paused for an activation (R393). -/
  sincePause : Nat
  deriving DecidableEq, Repr

/-- The machine right after reset: nothing listed, nothing running. -/
def State.reset : State where
  agenda := []
  focus := 0
  cyc := Cyc.idle
  free := 0
  seq := 0
  cells := []
  dies := []
  mem := []
  hostMem := []
  hostDeny := []
  poison := []
  chan := []
  hosts := []
  codecs := []
  regions := []
  tctx := []
  queues := []
  kernels := []
  newKernels := []
  time := 0
  tset := 0
  tsetw := false
  tstat := 0
  slew := 0
  hvbase := 0
  hvsize := 0
  hvhead := 0
  hvirqs := 0
  fwstat := 0
  fwimage := none
  fwactive := 0
  fwcode := 0
  paused := false
  lcstat := 0
  failmap := []
  corrected := []
  answer := 0
  coll := []
  groups := []
  peerOut := []
  peerGot := 0
  replay := []
  refills := 0
  charges := 0
  real := 0
  sinceEdge := 0
  sincePause := 0

end Sys2Proof.Machine
end

