-- ==== Sys2Proof/Machine/Sparse.lean ====
section
/-!
DEFINITION. Operations on sparse maps and on bytes: the one place where the canonical form of memory and the
little-endian order of R3 are decided.
-/

namespace Sys2Proof.Machine

/-- The value a map holds for number k; d where k is not listed. -/
def smGet {α : Type} (d : α) : SMap α → Nat → α
  | [], _ => d
  | (j, v) :: m, k => if k = j then v else if k < j then d else smGet d m k

/-- The map with k removed. -/
def smDel {α : Type} : SMap α → Nat → SMap α
  | [], _ => []
  | (j, v) :: m, k => if k = j then m else if k < j then (j, v) :: m else (j, v) :: smDel m k

/-- The map with k listed as v. -/
def smPut {α : Type} : SMap α → Nat → α → SMap α
  | [], k, v => [(k, v)]
  | (j, u) :: m, k, v =>
    if k = j then (k, v) :: m else if k < j then (k, v) :: (j, u) :: m else (j, u) :: smPut m k v

/-- The map with k holding v, where d is what an unlisted number holds: the canonical form is kept. -/
def smSet {α : Type} [DecidableEq α] (d : α) (m : SMap α) (k : Nat) (v : α) : SMap α :=
  if v = d then smDel m k else smPut m k v

/-- Numbers strictly rising, all at least lo, and no value equal to the default. -/
def smWf {α : Type} [DecidableEq α] (d : α) (lo : Nat) : SMap α → Bool
  | [] => true
  | (j, v) :: m => decide (lo ≤ j) && decide (v ≠ d) && smWf d (j + 1) m

/-- Memory is in canonical form (log 4). -/
def Memory.wf (m : Bytes) : Bool := smWf (0 : Byte) 0 m

/-- One byte. -/
def readByte (m : Bytes) (a : Nat) : Byte := smGet (0 : Byte) m a

/-- Write one byte. -/
def writeByte (m : Bytes) (a : Nat) (v : Byte) : Bytes := smSet (0 : Byte) m a v

/-- n bytes from address a, little-endian (R3). -/
def readNat (m : Bytes) (a : Nat) : Nat → Nat
  | 0 => 0
  | n + 1 => (readByte m a).toNat + 256 * readNat m (a + 1) n

/-- Write the low n bytes of v from address a, little-endian (R3). -/
def writeNat (m : Bytes) (a : Nat) : Nat → Nat → Bytes
  | 0, _ => m
  | n + 1, v => writeNat (writeByte m a (BitVec.ofNat 8 v)) (a + 1) n (v / 256)

/-- Write the bytes of v that the mask selects, from address a. -/
def writeMasked (m : Bytes) (a : Nat) : Nat → Nat → Nat → Bytes
  | 0, _, _ => m
  | n + 1, mask, v =>
    writeMasked (if mask % 2 = 1 then writeByte m a (BitVec.ofNat 8 v) else m) (a + 1) n (mask / 2) (v / 256)

/-- The first element that satisfies p, with its place. -/
def findIdx' {α : Type} (p : α → Bool) : List α → Nat → Option (Nat × α)
  | [], _ => none
  | x :: xs, i => if p x then some (i, x) else findIdx' p xs (i + 1)

/-- Apply f to the first element that satisfies p. -/
def updFirst {α : Type} (p : α → Bool) (f : α → α) : List α → List α
  | [] => []
  | x :: xs => if p x then f x :: xs else x :: updFirst p f xs

/-- Remove the first element that satisfies p. -/
def delFirst {α : Type} (p : α → Bool) : List α → List α
  | [] => []
  | x :: xs => if p x then xs else x :: delFirst p xs

end Sys2Proof.Machine
end

