-- ==== Sys2Proof/Machine/Bits.lean ====
section
/-!
DEFINITION. Fields and lanes of words (R3, R16), sign extension, integer saturation and bit counts.
-/

namespace Sys2Proof.Machine

/-- Bits [lo+n-1:lo] of a natural number. -/
def bits (v lo n : Nat) : Nat := (v >>> lo) % 2 ^ n

/-- Bit lo. -/
def bit (v lo : Nat) : Bool := (v >>> lo) % 2 == 1

/-- v with bits [lo+n-1:lo] replaced by x. -/
def setBits (v lo n x : Nat) : Nat :=
  v % 2 ^ lo + (x % 2 ^ n) * 2 ^ lo + (v >>> (lo + n)) * 2 ^ (lo + n)

/-- The signed value of the low w bits. -/
def sval (w v : Nat) : Int :=
  let u := v % 2 ^ w
  if w ≠ 0 ∧ 2 ^ (w - 1) ≤ u then (u : Int) - 2 ^ w else u

/-- The low w bits of an integer. -/
def wrap (w : Nat) (i : Int) : Nat := (i % (2 ^ w : Nat)).toNat

/-- Sign extension of the low w bits to 64. -/
def sext64 (w v : Nat) : Word := BitVec.ofNat 64 (wrap 64 (sval w v))

/-- Saturation to the signed range of width w. -/
def satS (w : Nat) (i : Int) : Int := max (-(2 ^ (w - 1) : Nat)) (min ((2 ^ (w - 1) : Nat) - 1) i)

/-- Saturation to the unsigned range of width w. -/
def satU (w : Nat) (i : Int) : Int := max 0 (min ((2 ^ w : Nat) - 1) i)

/-- Bit length; bitlen 0 = 0 (R269). -/
def bitlen (n : Nat) : Nat := if n = 0 then 0 else Nat.log2 n + 1

/-- Lane k of width w (R16). -/
def lane (w v k : Nat) : Nat := bits v (w * k) w

/-- n lanes of width w, lane k given by f (R16). -/
def lanes (w : Nat) (f : Nat → Nat) : Nat → Nat → Nat
  | 0, _ => 0
  | n + 1, k => f k % 2 ^ w + 2 ^ w * lanes w f n (k + 1)

/-- A 1024-bit value with lane k given by f. -/
def mkVec (w : Nat) (f : Nat → Nat) : Vec := BitVec.ofNat 1024 (lanes w f (1024 / w) 0)

/-- Bit count. -/
def popcount : Nat → Nat → Nat
  | 0, _ => 0
  | n + 1, v => v % 2 + popcount n (v / 2)

/-- Trailing zeros within n bits. -/
def trailing : Nat → Nat → Nat
  | 0, _ => 0
  | n + 1, v => if v % 2 = 1 then 0 else 1 + trailing n (v / 2)

/-- n bytes in reverse order. -/
def byteRev : Nat → Nat → Nat
  | 0, _ => 0
  | n + 1, v => (v % 256) * 256 ^ n + byteRev n (v / 256)

/-- Least number in [0, n) that satisfies p, else n. -/
def leastFrom (p : Nat → Bool) : Nat → Nat → Nat
  | 0, k => k
  | n + 1, k => if p k then k else leastFrom p n (k + 1)

/-- A bit as a number. -/
def b2n (b : Bool) : Nat := if b then 1 else 0

/-- One step of the CRC-32 of R62 over a bit. -/
def crcBit (c : Nat) : Nat := if c % 2 = 1 then (c >>> 1) ^^^ 0xEDB88320 else c >>> 1

end Sys2Proof.Machine
end

