-- ==== Sys2Proof/Machine/Float.lean ====
section
/-!
DEFINITION. Number formats (R17 to R23): IEEE formats with exact arithmetic rounded once, DM8, and every
conversion of R201, R246 and R35. Bits are natural numbers.
-/

namespace Sys2Proof.Machine

/-- A floating-point format of R17: exponent width and fraction width. -/
structure Fmt where
  ew : Nat
  fw : Nat
  deriving DecidableEq, Repr

/-- The formats of R17. -/
def fp16 : Fmt := ⟨5, 10⟩
@[inherit_doc fp16] def bf16 : Fmt := ⟨8, 7⟩
@[inherit_doc fp16] def fp32 : Fmt := ⟨8, 23⟩
@[inherit_doc fp16] def fp64 : Fmt := ⟨11, 52⟩

namespace FmtOps
/-- Width in bits. -/
def width (f : Fmt) : Nat := 1 + f.ew + f.fw
/-- Exponent bias. -/
def bias (f : Fmt) : Nat := 2 ^ (f.ew - 1) - 1
/-- The code of +infinity without sign. -/
def infBits (f : Fmt) : Nat := (2 ^ f.ew - 1) * 2 ^ f.fw
end FmtOps
open FmtOps

/-- The format of a vf suffix (R120): .h, .b, .s, .d. -/
def fmtOf (f : BitVec 2) : Fmt :=
  match f.toNat with
  | 0 => fp16
  | 1 => bf16
  | 2 => fp32
  | _ => fp64

/-- A value: NaN, infinity, or ±m × 2^e. -/
inductive FVal where
  | nan
  | inf (neg : Bool)
  | fin (neg : Bool) (m : Nat) (e : Int)
  deriving DecidableEq, Repr

/-- The sign bit of a code. -/
def fneg (f : Fmt) (v : Nat) : Bool := bit v (width f - 1)

/-- The value of a code (R17). -/
def funpack (f : Fmt) (v : Nat) : FVal :=
  let x := bits v f.fw f.ew
  let fr := bits v 0 f.fw
  let neg := fneg f v
  if x = 2 ^ f.ew - 1 then (if fr = 0 then .inf neg else .nan)
  else if x = 0 then .fin neg fr (1 - (bias f : Int) - f.fw)
  else .fin neg (2 ^ f.fw + fr) ((x : Int) - bias f - f.fw)

/-- The code is a NaN. -/
def isNaN (f : Fmt) (v : Nat) : Bool := funpack f v == .nan

/-- The canonical quiet NaN (R18). -/
def cnan (f : Fmt) : Nat := infBits f + 2 ^ (f.fw - 1)

/-- A NaN with its top fraction bit set (R122). -/
def quiet (f : Fmt) (v : Nat) : Nat := v % 2 ^ width f ||| 2 ^ (f.fw - 1)

/-- A code with a sign. -/
def withSign (f : Fmt) (neg : Bool) (v : Nat) : Nat := v + b2n neg * 2 ^ (width f - 1)

/-- m / 2^sh rounded in direction rm of R125: 0 nearest even, 1 toward zero, 2 toward −∞, 3 toward +∞. -/
def roundShift (rm : Nat) (neg : Bool) (m sh : Nat) : Nat :=
  let q := m >>> sh
  let r := m % 2 ^ sh
  let up : Bool :=
    match rm with
    | 0 => decide (2 ^ sh < 2 * r) || (decide (2 ^ sh = 2 * r) && q % 2 == 1)
    | 1 => false
    | 2 => neg && r != 0
    | _ => !neg && r != 0
  if up then q + 1 else q

/-- ±m × 2^e rounded to format f in direction rm, overflow as IEEE 754 gives for the direction (R121, R201). -/
def fpack (f : Fmt) (rm : Nat) (neg : Bool) (m : Nat) (e : Int) : Nat :=
  if m = 0 then withSign f neg 0 else
  let emin : Int := 1 - bias f
  let top : Int := e + bitlen m - 1
  let q : Int := max top emin - f.fw
  let mant := if q ≤ e then m * 2 ^ (e - q).toNat else roundShift rm neg m (q - e).toNat
  let code := ((q + f.fw + bias f - 1).toNat) * 2 ^ f.fw + mant
  if code < infBits f then withSign f neg code
  else if rm = 0 || (rm = 2 && neg) || (rm = 3 && !neg) then withSign f neg (infBits f)
  else withSign f neg (infBits f - 1)

/-- Signed integer m × 2^e as a sign and magnitude, packed; a zero takes the sign z. -/
def fpackInt (f : Fmt) (rm : Nat) (z : Bool) (i : Int) (e : Int) : Nat :=
  if i = 0 then withSign f z 0 else fpack f rm (decide (i < 0)) i.natAbs e

/-- A signed mantissa. -/
def signed (neg : Bool) (m : Nat) : Int := if neg then -(m : Int) else m

/-- Exact a × 2^ea + b × 2^eb over the smaller exponent. -/
def exactSum (a : Int) (ea : Int) (b : Int) (eb : Int) : Int × Int :=
  let e := min ea eb
  (a * 2 ^ (ea - e).toNat + b * 2 ^ (eb - e).toNat, e)

/-- The sum of two values, rounded once; zero signs as R121 gives. -/
def fsumVal (f : Fmt) (a b : FVal) : Nat :=
  match a, b with
  | .nan, _ => cnan f
  | _, .nan => cnan f
  | .inf na, .inf nb => if na = nb then withSign f na (infBits f) else cnan f
  | .inf na, _ => withSign f na (infBits f)
  | _, .inf nb => withSign f nb (infBits f)
  | .fin na ma ea, .fin nb mb eb =>
    let (i, e) := exactSum (signed na ma) ea (signed nb mb) eb
    fpackInt f 0 (na && nb) i e

/-- The exact product of two values. -/
def fmulVal : FVal → FVal → FVal
  | .nan, _ => .nan
  | _, .nan => .nan
  | .inf na, .inf nb => .inf (na != nb)
  | .inf na, .fin nb m _ => if m = 0 then .nan else .inf (na != nb)
  | .fin na m _, .inf nb => if m = 0 then .nan else .inf (na != nb)
  | .fin na ma ea, .fin nb mb eb => .fin (na != nb) (ma * mb) (ea + eb)

/-- A value rounded to nearest even (R121); NaN gives the canonical one. -/
def fround (f : Fmt) : FVal → Nat
  | .nan => cnan f
  | .inf n => withSign f n (infBits f)
  | .fin n m e => fpack f 0 n m e

/-- The first NaN among the codes read, quieted (R122). -/
def firstNaN (f : Fmt) : List Nat → Option Nat
  | [] => none
  | v :: vs => if isNaN f v then some (quiet f v) else firstNaN f vs

/-- The sign bit inverted. -/
def fnegate (f : Fmt) (v : Nat) : Nat := v ^^^ 2 ^ (width f - 1)

/-- vf.add, vf.sub, vf.mul, vf.fma, vf.fms (R120 to R122). -/
def fadd (f : Fmt) (o t : Nat) : Nat :=
  (firstNaN f [o, t]).getD (fsumVal f (funpack f o) (funpack f t))
@[inherit_doc fadd] def fsub (f : Fmt) (o t : Nat) : Nat :=
  (firstNaN f [o, t]).getD (fsumVal f (funpack f o) (funpack f (fnegate f t)))
@[inherit_doc fadd] def fmul (f : Fmt) (o t : Nat) : Nat :=
  (firstNaN f [o, t]).getD (fround f (fmulVal (funpack f o) (funpack f t)))
@[inherit_doc fadd] def ffma (f : Fmt) (o m t : Nat) : Nat :=
  (firstNaN f [o, m, t]).getD (fsumVal f (fmulVal (funpack f o) (funpack f m)) (funpack f t))
@[inherit_doc fadd] def ffms (f : Fmt) (o m t : Nat) : Nat :=
  (firstNaN f [o, m, t]).getD (fsumVal f (fmulVal (funpack f o) (funpack f m)) (funpack f (fnegate f t)))

/-- a < b on values that are no NaN, with −0 = +0. -/
def fltVal (a b : FVal) : Bool :=
  match a, b with
  | .nan, _ => false
  | _, .nan => false
  | .inf na, .inf nb => na && !nb
  | .inf na, .fin .. => na
  | .fin .., .inf nb => !nb
  | .fin na ma ea, .fin nb mb eb =>
    let e := min ea eb
    decide (signed na ma * 2 ^ (ea - e).toNat < signed nb mb * 2 ^ (eb - e).toNat)

/-- vf.clt, vf.ceq, vf.cle as truth values (R123). -/
def flt (f : Fmt) (a b : Nat) : Bool := fltVal (funpack f a) (funpack f b)
@[inherit_doc flt] def feq (f : Fmt) (a b : Nat) : Bool :=
  !isNaN f a && !isNaN f b && !flt f a b && !flt f b a
@[inherit_doc flt] def fle (f : Fmt) (a b : Nat) : Bool := flt f a b || feq f a b

/-- vf.min and vf.max (R123). -/
def fminmax (f : Fmt) (mx : Bool) (o t : Nat) : Nat :=
  match isNaN f o, isNaN f t with
  | true, true => quiet f o
  | true, false => t
  | false, true => o
  | false, false =>
    if flt f o t then (if mx then t else o)
    else if flt f t o then (if mx then o else t)
    else if fneg f o = mx then t else o

/-- Integer square root of v, by bits from 2^(n-1) down. -/
def isqrt (v : Nat) : Nat → Nat → Nat
  | 0, r => r
  | n + 1, r => let c := r + 2 ^ n; isqrt v n (if c * c ≤ v then c else r)

/-- m × 2^e rounded to q significant bits, ties to even, without exponent bound; m ≠ 0 (R124 step 1). -/
def roundSig (q m : Nat) (e : Int) : Nat × Int :=
  let l := bitlen m
  if l ≤ q then (m, e) else (roundShift 0 false m (l - q), e + (l - q : Nat))

/-- Precision in bits: min(p, 12) (R124). -/
def estBits (f : Fmt) : Nat := min (f.fw + 1) 12

/-- vf.rcpe (R124). The quotient carries its remainder as a lowest bit. -/
def frcpe (f : Fmt) (t : Nat) : Nat :=
  match funpack f t with
  | .nan => quiet f t
  | .inf n => withSign f n 0
  | .fin n m e =>
    if m = 0 then withSign f n (infBits f) else
    let k := bitlen m + 64
    let d := 2 ^ k / m
    let r := roundSig (estBits f) (2 * d + b2n (2 ^ k % m != 0)) (-(k : Int) - 1 - e)
    fpack f 0 n r.1 r.2

/-- vf.rsqe (R124): 1/√(m × 2^e) with an even exponent; the root carries its remainder as a lowest bit. -/
def frsqe (f : Fmt) (t : Nat) : Nat :=
  match funpack f t with
  | .nan => quiet f t
  | .inf n => if n then cnan f else 0
  | .fin n m e =>
    if m = 0 then withSign f n (infBits f)
    else if n then cnan f else
    let m' := if e % 2 = 0 then m else 2 * m
    let e' := if e % 2 = 0 then e else e - 1
    let k := bitlen m' + 64
    let d := 2 ^ (2 * k) / m'
    let r := isqrt d (k + 1) 0
    let exact := decide (r * r * m' = 2 ^ (2 * k))
    let x := roundSig (estBits f) (2 * r + b2n (!exact)) (-(k : Int) - 1 - e' / 2)
    fpack f 0 false x.1 x.2

/-- A finite value rounded to an integer in direction rm. -/
def froundInt (rm : Nat) (neg : Bool) (m : Nat) (e : Int) : Int :=
  signed neg (if 0 ≤ e then m * 2 ^ e.toNat else roundShift rm neg m (-e).toNat)

/-- What a conversion replaced (R23): nothing, a NaN or an infinity. -/
inductive Special where
  | none
  | nan
  | inf
  deriving DecidableEq, Repr

/-- A value into an integer of width w (R23, R125, R201). -/
def toIntVal (w : Nat) (sg : Bool) (rm : Nat) : FVal → Nat × Special
  | .nan => (0, .nan)
  | .inf n =>
    (if sg then (if n then 2 ^ (w - 1) else 2 ^ (w - 1) - 1) else if n then 0 else 2 ^ w - 1, .inf)
  | .fin n m e =>
    let i := froundInt rm n m e
    (wrap w (if sg then satS w i else satU w i), .none)

/-- A DM8 byte as a value (R20, R21). -/
def dm8Val (b : Nat) : FVal :=
  let neg := bit b 7
  let m := bits b 0 7
  if m = 0 then .fin false 0 0
  else if 0x40 ≤ m then .fin neg (16 + bits m 0 4) ((bits m 4 2 : Int) - 2 - 4)
  else if 0x20 ≤ m then
    .fin neg (8 + bits m 0 3) ((match bits m 3 2 with | 0 => (-4 : Int) | 1 => -3 | 2 => 2 | _ => 3) - 3)
  else if 0x10 ≤ m then
    .fin neg (4 + bits m 0 2) ((match bits m 2 2 with | 0 => (-6 : Int) | 1 => -5 | 2 => 4 | _ => 5) - 2)
  else if 0x08 ≤ m then
    .fin neg (2 + bits m 0 1) ((match bits m 1 2 with | 0 => (-8 : Int) | 1 => -7 | 2 => 6 | _ => 7) - 1)
  else if 0x04 ≤ m then
    .fin neg 1 (match bits m 0 2 with | 0 => (-10 : Int) | 1 => -9 | 2 => 8 | _ => 9)
  else if 0x02 ≤ m then .fin neg 1 (if m = 2 then -11 else 10)
  else .fin neg 1 (-12)

/-- The magnitude of a DM8 code in units of 2^-12 / 16, an integer. -/
def dm8Mag (c : Nat) : Nat :=
  match dm8Val (c % 128) with
  | .fin _ m e => m * 2 ^ (e + 16).toNat
  | _ => 0

/-- The better of two codes for the magnitude m × 2^e: nearer, then bit 0 clear, then the smaller (R22). -/
def dm8Better (m : Nat) (e : Int) (c d : Nat) : Nat :=
  let s := (max 0 (-(e + 16))).toNat
  let v : Int := m * 2 ^ (e + 16 + s).toNat
  let dc := (v - dm8Mag c * 2 ^ s).natAbs
  let dd := (v - dm8Mag d * 2 ^ s).natAbs
  if dc < dd then c else if dd < dc then d
  else if c % 2 ≠ d % 2 then (if c % 2 = 0 then c else d)
  else if dm8Mag c < dm8Mag d then c else d

/-- The best of codes 1 to n for a magnitude. -/
def dm8Search (m : Nat) (e : Int) : Nat → Nat → Nat
  | 0, best => best
  | n + 1, best => dm8Search m e n (dm8Better m e (n + 1) best)

/-- Compare m × 2^e with 2^k: less. -/
def ltPow (m : Nat) (e k : Int) : Bool := decide (m = 0) || decide (e + bitlen m ≤ k)

/-- A conversion into DM8 (R22). -/
def toDm8 : FVal → Nat × Special
  | .nan => (0, .nan)
  | .inf n => (0x03 + 128 * b2n n, .inf)
  | .fin n m e =>
    (if ltPow m e (-13) then 0
     else if ltPow m e (-12) then 0x01 + 128 * b2n n
     else if !ltPow m e 10 then 0x03 + 128 * b2n n
     else dm8Search m e 127 1 + 128 * b2n n, .none)

/-- An element format: integer (width, signed), DM8, or FP. -/
inductive Elem where
  | int (w : Nat) (sg : Bool)
  | dm8
  | fp (f : Fmt)
  deriving DecidableEq, Repr

/-- Width of an element in bits. -/
def elemWidth : Elem → Nat
  | .int w _ => w
  | .dm8 => 8
  | .fp f => width f

/-- FP to FP in direction rm: a NaN keeps its sign, its fraction aligned at the top bit, quieted (R201). -/
def fcvt (a b : Fmt) (rm : Nat) (v : Nat) : Nat :=
  match funpack a v with
  | .nan =>
    let fr := bits v 0 a.fw
    let fr' := if a.fw ≤ b.fw then fr * 2 ^ (b.fw - a.fw) else fr >>> (a.fw - b.fw)
    withSign b (fneg a v) (infBits b + (fr' ||| 2 ^ (b.fw - 1)))
  | .inf n => withSign b n (infBits b)
  | .fin n m e => fpack b rm n m e

/-- Conversion of one element (R201, R246). -/
def convert (src dst : Elem) (rm : Nat) (v : Nat) : Nat × Special :=
  if src = dst then (v % 2 ^ elemWidth src, .none) else
  match src, dst with
  | .int w sg, .int w' sg' =>
    let i : Int := if sg then sval w v else (v % 2 ^ w : Nat)
    (wrap w' (if sg' then satS w' i else satU w' i), .none)
  | .int w sg, .fp f =>
    let i : Int := if sg then sval w v else (v % 2 ^ w : Nat)
    (fpackInt f rm false i 0, .none)
  | .int w sg, .dm8 =>
    let i : Int := if sg then sval w v else (v % 2 ^ w : Nat)
    toDm8 (.fin (decide (i < 0)) i.natAbs 0)
  | .dm8, .int w sg => toIntVal w sg rm (dm8Val v)
  | .dm8, .fp f =>
    match dm8Val v with
    | .fin n m e => (fpack f rm n m e, .none)
    | _ => (0, .none)
  | .dm8, .dm8 => (v % 256, .none)
  | .fp f, .dm8 => toDm8 (funpack f v)
  | .fp f, .int w sg => toIntVal w sg rm (funpack f v)
  | .fp f, .fp g => (fcvt f g rm v, .none)

/-- The element format of a code of R197. -/
def xfElem (c : Nat) : Elem :=
  match c with
  | 0 => .int 8 true
  | 1 => .int 8 false
  | 2 => .int 16 true
  | 3 => .int 16 false
  | 4 => .int 32 true
  | 5 => .int 32 false
  | 6 => .int 64 true
  | 7 => .int 64 false
  | 8 => .dm8
  | 9 => .fp fp16
  | 10 => .fp bf16
  | 11 => .fp fp32
  | _ => .fp fp64

/-- The element format of a bank (R245); none for RAW. -/
def bankElem (c : Nat) : Option Elem :=
  match c with
  | 1 => some .dm8
  | 2 => some (.int 8 true)
  | 3 => some (.int 16 true)
  | 4 => some (.fp bf16)
  | 5 => some (.fp fp16)
  | 6 => some (.fp fp32)
  | 7 => some (.fp fp64)
  | _ => none

/-- Drain of M × 2^E into a format of R175 (R35): FP overflow saturates at the largest finite value. -/
def drainElem (fmt : Nat) (m : Int) (e : Int) : Nat :=
  let n := decide (m < 0)
  let sat (f : Fmt) : Nat :=
    let v := fpack f 0 n m.natAbs e
    if m = 0 then 0 else if bits v 0 (width f - 1) = infBits f then withSign f n (infBits f - 1) else v
  match fmt with
  | 0 => sat fp32
  | 1 => sat bf16
  | 2 => sat fp16
  | 3 => (toDm8 (.fin n m.natAbs e)).1
  | 4 => (toIntVal 8 true 0 (.fin n m.natAbs e)).1
  | _ => (toIntVal 32 true 0 (.fin n m.natAbs e)).1

end Sys2Proof.Machine
end

