-- ==== Sys2Proof/Machine/Codec.lean ====
section
/-!
DEFINITION. The FP64 codec of chapter 14: encoding (R269), decoding (R270), the region table (R266) and the
counters (R271, R272).
-/

namespace Sys2Proof.Machine

/-- Budget B in bits of BUD (R266). -/
def codecBudget (bud : Nat) : Nat :=
  match bud with
  | 0 => 192
  | 1 => 256
  | 2 => 320
  | 3 => 384
  | 4 => 512
  | 5 => 640
  | _ => 768

/-- The outcome of encoding a block: the stream, whether nonzero bits were dropped, the bound of R271, and the count
of NaN and infinite values. -/
structure CodecOut where
  blk : Nat
  dropped : Bool
  bound : Int
  spec : Nat
  deriving DecidableEq, Repr

/-- Quantise one value (R269): the integer, whether a nonzero bit was lost, whether it is special. -/
def codecQuant (eb : Nat) (v : Nat) : Int × Bool × Bool :=
  match funpack fp64 v with
  | .nan => (0, false, true)
  | .inf n => (signed n (2 ^ 58 - 1), false, true)
  | .fin n m e =>
    let sh : Int := e + 57 - ((eb : Int) - 1023)
    if 0 ≤ sh then (signed n (m * 2 ^ sh.toNat), false, false)
    else (signed n (m >>> (-sh).toNat), m % 2 ^ (-sh).toNat != 0, false)

/-- The exponent field that counts for EB (R269): 0 for a value that is zero, infinite or NaN. -/
def codecExp (v : Nat) : Nat :=
  match funpack fp64 v with
  | .fin _ m _ => if m = 0 then 0 else max 1 (bits v 52 11)
  | _ => 0

/-- d and s of one pair (R269). -/
def codecD (a b : Int) : Int := a - b
@[inherit_doc codecD] def codecS (a b : Int) : Int := b + (a - b) / 2

/-- Pairs of a list through f. -/
def pairsWith {α : Type} (f : Int → Int → α) : List Int → List α
  | a :: b :: l => f a b :: pairsWith f l
  | _ => []

/-- Bits f 0, f 1, ... f (n-1) as a number. -/
def bitsOf (f : Nat → Bool) : Nat → Nat → Nat
  | 0, _ => 0
  | n + 1, k => b2n (f k) + 2 * bitsOf f n (k + 1)

/-- Encode the 16 values of a line (R269). -/
def codecEncode (bud : Nat) (line : Nat) : CodecOut :=
  let vs := (List.range 16).map (lane 64 line)
  let eb := (vs.map codecExp).foldl max 0
  let qs := vs.map (codecQuant eb)
  let q := qs.map (·.1)
  let d1 := pairsWith codecD q
  let s1 := pairsWith codecS q
  let c := pairsWith codecS s1 ++ pairsWith codecD s1 ++ d1
  let z := 60 - (c.map (fun i => bitlen i.natAbs)).foldl max 0
  let p := min (60 - z) ((bud - 34) / 16)
  let spec := (qs.filter (·.2.2)).length
  let head := eb + z * 2 ^ 11 + b2n (spec != 0) * 2 ^ 17
  let signs := bitsOf (fun i => decide (c.getD i 0 < 0)) 16 0
  let planes := bitsOf (fun n => bit (c.getD (n % 16) 0).natAbs (59 - z - n / 16)) (16 * p) 0
  { blk := head + signs * 2 ^ 18 + planes * 2 ^ 34
    dropped := qs.any (·.2.1) || c.any (fun i => i.natAbs % 2 ^ (60 - z - p) != 0)
    bound := (eb : Int) - 1023 - 57 + (60 - z - p : Nat)
    spec := spec }

/-- Undo one level: from s and d lists to the values in order (R270). -/
def codecUndo : List Int → List Int → List Int
  | s :: ss, d :: ds => let b := s - d / 2; (b + d) :: b :: codecUndo ss ds
  | _, _ => []

/-- Decode a block to a line (R270). -/
def codecDecode (bud : Nat) (blk : Nat) : Nat :=
  let eb := bits blk 0 11
  let z := min 60 (bits blk 11 6)
  let p := min (60 - z) ((bud - 34) / 16)
  let mag (i : Nat) : Nat := bitsOf (fun m => bit blk (34 + 16 * (p - 1 - m) + i)) p 0 * 2 ^ (60 - z - p)
  let c := (List.range 16).map fun i => signed (bit blk (18 + i)) (mag i)
  let s1 := codecUndo (c.take 4) ((c.drop 4).take 4)
  let q := codecUndo s1 (c.drop 8)
  lanes 64 (fun i => fpackInt fp64 0 false (q.getD i 0) ((eb : Int) - 1080)) 16 0

/-- Fields of a region (R266). -/
def codecBase (c : Codec) : Nat := (bits c.view.toNat 16 32) * 2 ^ 16
@[inherit_doc codecBase] def codecPages (c : Codec) : Nat := bits c.size.toNat 0 24
@[inherit_doc codecBase] def codecBack (c : Codec) : Nat := (bits c.back.toNat 12 36) * 2 ^ 12
@[inherit_doc codecBase] def codecBits (c : Codec) : Nat := codecBudget (bits c.ctl.toNat 0 3)
@[inherit_doc codecBase] def codecOn (c : Codec) : Bool := bit c.ctl.toNat 4
/-- Bytes of backing (R266). -/
def codecBackLen (c : Codec) : Nat := codecPages c * 64 * codecBits c

/-- The enabled region whose view holds address a (R268). -/
def codecOf (s : State) (a : Nat) : Option (Nat × Codec) :=
  s.codecs.find? fun (_, c) => codecOn c && decide (codecBase c ≤ a) && decide (a < codecBase c + codecPages c * 65536)

/-- The address lies in the backing of an enabled region (R276). -/
def codecBacking (s : State) (a : Nat) : Bool :=
  s.codecs.any fun (_, c) => codecOn c && decide (codecBack c ≤ a) && decide (a < codecBack c + codecBackLen c)

/-- The counters after a block is encoded (R271, R272). -/
def codecCount (c : Codec) (o : CodecOut) : Codec :=
  { c with
    cerrb := if o.dropped && c.cerrb != BitVec.allOnes 64 then c.cerrb + 1 else c.cerrb
    cerrx := if o.dropped then
        BitVec.ofNat 64 (wrap 16 (max (sval 16 c.cerrx.toNat) o.bound))
      else c.cerrx
    cspec := BitVec.ofNat 64 (min (2 ^ 64 - 1) (c.cspec.toNat + o.spec)) }

end Sys2Proof.Machine
end

