-- ==== Sys2Proof/Machine/Home.lean ====
section
/-!
DEFINITION. Cells and dies of the state, and memory at its home: where a line lives (R334, R335), the resident
copy or memory behind the codec (R255, R273 to R277), dirty marking (R388), poison (R379) and the fills of L2
(R338 to R341).
-/

namespace Sys2Proof.Machine

/-- A cell of the device; one that is not listed holds its reset value. -/
def getCell (s : State) (n : Nat) : Cell := smGet Cell.reset s.cells n

/-- Replace a cell. -/
def setCell (s : State) (n : Nat) (c : Cell) : State := { s with cells := smPut s.cells n c }

/-- Change a cell. -/
def modCell (s : State) (n : Nat) (f : Cell → Cell) : State := setCell s n (f (getCell s n))

/-- A die. -/
def getDie (s : State) (d : Nat) : Die := smGet Die.reset s.dies d

/-- Replace a die. -/
def setDie (s : State) (d : Nat) (x : Die) : State := { s with dies := smPut s.dies d x }

/-- Change a die. -/
def modDie (s : State) (d : Nat) (f : Die → Die) : State := setDie s d (f (getDie s d))

/-- The die of a cell (R1). -/
def dieOf (n : Nat) : Nat := n / 128

/-- A write covers poisoned words of a cell: their marks go (R379). -/
def unmark (p : Nat × Nat × Nat → Bool) (c : Cell) : Cell := { c with poison := c.poison.filter fun x => !p x }

/-- The same for a cell of the machine; a cell without marks stays as it is. -/
def unmarkAt (s : State) (n : Nat) (p : Nat × Nat × Nat → Bool) : State :=
  if (getCell s n).poison = [] then s else modCell s n (unmark p)

/-- The place of a poisoned word in the segments of R350: segment and byte offset (R381; numbers as log 22 gives). -/
def markPlace (p : Nat × Nat × Nat) : Nat × Nat :=
  let (k, i, w) := p
  match k with
  | 1 => (if i < 72 then 1 else 99, 8 * i)
  | 2 => (if i < 640 then 2 + i / 160 else 99, 128 * (i % 160) + 8 * w)
  | 3 => (if i < 16 then 6 else 99, 8192 * i + 8 * w)
  | 4 => (if i < 8 then 7 + i else 99, 8 * w)
  | 5 => if i < 32 then (15, 8 * i) else if i < 46 then (15, 256 + 128 * (i - 32) + 8 * w)
    else if i < 50 then (16, 128 * (i - 46) + 8 * w) else (99, 0)
  | 6 => (20 + i / 4096, 64 * (i % 4096) + 8 * w)
  | 7 => (25, 48 * i + 8 * w)
  | 8 => (26, 64 * i + 8 * w)
  | 10 => (if i < 0x160 then 24 else 99, 8 * (i - 0x100))
  | _ => (99, 0)

/-- Every mark of a segment goes. -/
def unmarkSeg (s : State) (n seg : Nat) : State := unmarkAt s n fun p => (markPlace p).1 == seg

/-- The cells of the device that are listed. -/
def listed (s : State) : List Nat := s.cells.map Prod.fst

/-- A fresh number. -/
def fresh (s : State) : State := { s with seq := s.seq + 1 }

/-- Home die of a physical address (R334). -/
def homeDie (pa : Nat) : Nat := bits pa 13 3 ^^^ bits pa 22 3 ^^^ bits pa 31 3

/-- Natural slice of a physical address (R334). -/
def homeSlice (pa : Nat) : Nat := bits pa 7 4 ^^^ bits pa 16 4 ^^^ bits pa 25 4

/-- Natural set (R334). -/
def natSet (pa : Nat) : Nat := bits pa 16 13 * 4 + bits pa 11 2

/-- The slice an access takes: 0 for the natural one, k + 1 for affinity slice k (R334, R335). -/
def sliceOf (sel pa : Nat) : Nat := if sel = 0 then homeSlice pa else sel - 1

/-- The registers of a class in a slice (R337). -/
def cosOf (d : Die) (sl c : Nat) : CosRegs := smGet CosRegs.reset d.cos (sl * 16 + c)

/-- Change the registers of a class in a slice. -/
def modCos (d : Die) (sl c : Nat) (f : CosRegs → CosRegs) : Die :=
  { d with cos := smPut d.cos (sl * 16 + c) (f (cosOf d sl c)) }

/-- The set W(c) (R338). -/
def cosSet (r : CosRegs) (pa : Nat) : Nat := (natSet pa &&& r.setmask.toNat) ||| r.setbase.toNat

/-- A set that some class maps the line to (R338). -/
def cosReach (d : Die) (sl line st : Nat) : Bool :=
  (List.range 16).any fun c => cosSet (cosOf d sl c) (line * 128) == st

/-- The lookup of a line address in a slice, which probes every W(c), meets this line (R338). -/
def l2At (d : Die) (sl line : Nat) (x : L2Line) : Bool := x.slice == sl && x.line == line && cosReach d sl line x.set

/-- The resident line that serves an access to a line address in a slice (R338). -/
def l2Find (d : Die) (sl line : Nat) : Option L2Line := d.l2.find? (l2At d sl line)

/-- The line is this one. -/
def l2Is (sl line : Nat) (x : L2Line) : Bool := x.slice == sl && x.line == line

/-- The 64-bit words of memory that hold the block of a codec line (R268). -/
def codecWords (c : Codec) (line : Nat) : List Nat :=
  let b := codecBits c
  let a := codecBack c + (line * 128 - codecBase c) / 128 * (b / 8)
  (List.range (b / 64)).map fun i => a / 8 + i

/-- A line of a codec region whose block holds a poisoned word (R379). -/
def blockPoison (s : State) (line : Nat) : Bool :=
  match codecOf s (line * 128) with
  | some (_, c) => (codecWords c line).any s.poison.contains
  | none => false

/-- n bytes of HBM; where R11 puts no memory, what a read returns is free (log 87). -/
def memGet (s : State) (a n : Nat) : Nat :=
  if a + n ≤ 2 ^ 40 then readNat s.mem a n else (Config.absentBytes a).toNat % 2 ^ (8 * n)

/-- A line lies above the 1,024 GiB of R11: it is nowhere, and L2 does not hold it. -/
def absent (line : Nat) : Bool := decide (2 ^ 33 ≤ line)

/-- The 128 bytes of a line in memory, decoded where the line belongs to a codec region (R268, R273). -/
def memLine (s : State) (line : Nat) : Nat :=
  let a := line * 128
  match codecOf s a with
  | some (_, c) =>
    let b := codecBits c
    codecDecode b (memGet s (codecBack c + (a - codecBase c) / 128 * (b / 8)) (b / 8))
  | none => memGet s a 128

/-- The poison marks that remain after a write of the masked bytes of a line: a whole word clears its mark (R379). -/
def clearPoison (ps : List Nat) (line mask : Nat) : List Nat :=
  ps.filter fun p => !(p / 16 == line && bits mask (8 * (p % 16)) 8 == 0xFF)

/-- The bytes of old replaced by those of new that the mask selects. -/
def mergeBytes : Nat → Nat → Nat → Nat → Nat
  | 0, _, _, _ => 0
  | n + 1, mask, new, old =>
    (if mask % 2 = 1 then new % 256 else old % 256) + 256 * mergeBytes n (mask / 2) (new / 256) (old / 256)

/-- Write the masked bytes of a line to memory. A codec line is encoded, a whole one without a read of its block, whose
marks then go (R274, R379). Where R11 puts no memory, nothing is written (log 87). -/
def memWriteLine (s : State) (line mask v : Nat) : State :=
  let a := line * 128
  match codecOf s a with
  | some (r, c) =>
    let b := codecBits c
    let whole := mask % 2 ^ 128 == 2 ^ 128 - 1
    let o := codecEncode b (if whole then v else mergeBytes 128 mask v (memLine s line))
    let at_ := codecBack c + (a - codecBase c) / 128 * (b / 8)
    { s with
      mem := if at_ + b / 8 ≤ 2 ^ 40 then writeNat s.mem at_ (b / 8) o.blk else s.mem
      poison := if whole then s.poison.filter (fun p => !(codecWords c line).contains p) else s.poison
      codecs := smPut s.codecs r (codecCount c o) }
  | none => if absent line then s else { s with mem := writeMasked s.mem a 128 mask v }

/-- The home value of a line as an access through a slice sees it (R255). While another slice of the die holds a copy too,
the access sees one of the copies or memory, and which is free (R335, log 57). A raw backing line is never served from L2
(R276). -/
def homeLine (s : State) (sel line : Nat) : Nat :=
  let d := getDie s (homeDie (line * 128))
  let sl := sliceOf sel (line * 128)
  if codecBacking s (line * 128) then memLine s line
  else if d.l2.any (fun x => x.line == line && x.slice != sl) then
    let vs := (d.l2.filter fun x => x.line == line).map (·.data.toNat) ++ [memLine s line]
    vs.getD ((Config.freeVec s.free).toNat % vs.length) 0
  else match l2Find d sl line with
    | some x => x.data.toNat
    | none => memLine s line

/-- Write the masked bytes of a line into the resident copy, else to memory; marks stay. -/
def homeStore (s : State) (sel line mask v : Nat) : State :=
  let d := homeDie (line * 128)
  let sl := sliceOf sel (line * 128)
  match (if codecBacking s (line * 128) then none else l2Find (getDie s d) sl line) with
  | some _ =>
    let upd (y : L2Line) : L2Line :=
      { y with
        data := BitVec.ofNat 1024 (mergeBytes 128 mask v y.data.toNat)
        dirty := y.dirty ||| BitVec.ofNat 128 mask }
    modDie s d fun x => { x with l2 := updFirst (l2At x sl line) upd x.l2 }
  | none => memWriteLine s line mask v

/-- Write the masked bytes of a line into the resident copy, else to memory; a whole 64-bit word loses its mark (R379). -/
def homePutLine (s : State) (sel line mask v : Nat) : State :=
  homeStore { s with poison := clearPoison s.poison line mask } sel line mask v

/-- n bytes at their home, for n up to 128 within one line. -/
def homeRead (s : State) (sel pa n : Nat) : Nat := bits (homeLine s sel (pa / 128)) (8 * (pa % 128)) (8 * n)

/-- An access waits for the line at its home: it joins the fill under way, or asks for one (R339, R340). -/
def l2Ask (sl line c : Nat) (who : List Nat) (x : Die) : Die :=
  let isM (m : L2Miss) : Bool := m.slice == sl && m.line == line
  let isF (f : L2Fill) : Bool := f.slice == sl && f.line == line
  let join (l : List Nat) : List Nat := l ++ who.filter fun w => !l.contains w
  if x.fills.any isF then { x with fills := updFirst isF (fun f => { f with who := join f.who }) x.fills }
  else if x.misses.any isM then { x with misses := updFirst isM (fun m => { m with who := join m.who }) x.misses }
  else { x with misses := x.misses ++ [⟨sl, line, c, who⟩] }

/-- An access of class c reaches a slice: a hit renews the recency, a miss asks for one fill (R338, R339). Raw
backing lines are never installed (R276). who: the access, if it waits for the data. -/
def l2Reach (s : State) (sel pa c : Nat) (who : List Nat) : State :=
  let line := pa / 128
  let d := homeDie pa
  let sl := sliceOf sel pa
  if codecBacking s (line * 128) || absent line then s else
  match l2Find (getDie s d) sl line with
  | some _ =>
    let s := fresh s
    let upd (y : L2Line) : L2Line := { y with age := s.seq }
    modDie s d fun x => { x with l2 := updFirst (l2At x sl line) upd x.l2 }
  | none => modDie s d (l2Ask sl line c who)

/-- The same for an access that acts at once. -/
def l2Touch (s : State) (sel pa c : Nat) : State := l2Reach s sel pa c []

/-- An access may act at a slice: the line is resident, is never installed, or its data has come for the access (R276,
R339). -/
def l2Ready (s : State) (who sel line : Nat) : Bool :=
  let x := getDie s (homeDie (line * 128))
  codecBacking s (line * 128) || absent line || (l2Find x (sliceOf sel (line * 128)) line).isSome || x.returned.contains (who, line)

/-- n bytes at their homes, over any number of lines, natural slices. -/
def homeReadN (s : State) (pa : Nat) : Nat → Nat
  | 0 => 0
  | n + 1 => homeRead s 0 pa 1 + 256 * homeReadN s (pa + 1) n

/-- A doubleword at its home. -/
def home64 (s : State) (pa : Nat) : Word := BitVec.ofNat 64 (homeRead s 0 pa 8)

/-- A fresh free value is used (log 6). -/
def useFree (s : State) : State := { s with free := s.free + 1 }

/-- The lines that a range touches. -/
def linesOf (pa len : Nat) : List Nat := (List.range ((pa % 128 + len + 127) / 128)).map (pa / 128 + ·)

/-- Another slice of its die holds a copy of the line too, so that what an access sees is free (R335). -/
def l2Twice (s : State) (sel line : Nat) : Bool :=
  (getDie s (homeDie (line * 128))).l2.any fun x => x.line == line && x.slice != sliceOf sel (line * 128)

/-- Each access to a line with two copies sees a choice of its own (R335). -/
def l2Choose (s : State) (sel line : Nat) : State := if l2Twice s sel line then useFree s else s

/-- The line is resident in some slice of its home die. -/
def l2Held (s : State) (line : Nat) : Bool := (getDie s (homeDie (line * 128))).l2.any fun x => x.line == line

/-- A 64-bit word of memory is poisoned: by its own mark, or as part of a codec line that is decoded from a block with a
poisoned word (R379). -/
def wordPoison (s : State) (p : Nat) : Bool :=
  s.poison.contains p || (!l2Held s (p / 16) && blockPoison s (p / 16))

/-- The first poisoned 64-bit word among n bytes from pa. -/
def poisonIn (s : State) (pa n : Nat) : Option Nat :=
  ((List.range ((pa % 8 + n + 7) / 8)).map (pa / 8 + ·)).find? (wordPoison s)

/-- Write back a line that leaves L2 and count it out (R339). A codec line is written whole (R274), and marks that it holds
go to its block (R379). -/
def l2Evict (s : State) (d : Nat) (y : L2Line) : State :=
  let s := modDie s d fun x =>
    modCos { x with l2 := delFirst (fun z => l2Is y.slice y.line z && z.way == y.way) x.l2 }
      y.slice y.cos (fun r => { r with cur := r.cur - 1 })
  if y.dirty = 0 then s else
  match codecOf s (y.line * 128) with
  | none => memWriteLine s y.line y.dirty.toNat y.data.toNat
  | some (_, c) =>
    let bad := s.poison.any fun p => p / 16 == y.line
    let s := memWriteLine s y.line (2 ^ 128 - 1) y.data.toNat
    if bad then { s with poison := (s.poison.filter fun p => p / 16 != y.line) ++ codecWords c y.line } else s

/-- What holds a way of a set: a resident line, or a fill under way; the number orders them by recency (R339, R370). -/
inductive WayUse where
  | line (y : L2Line)
  | fill (f : L2Fill)
  deriving DecidableEq, Repr

/-- The way, and the recency. -/
def WayUse.way : WayUse → Nat
  | .line y => y.way
  | .fill f => f.way
@[inherit_doc WayUse.way] def WayUse.age : WayUse → Nat
  | .line y => y.age
  | .fill f => f.age

/-- The way a fill takes among those a mask allows: the lowest invalid one, else the least recently used; a way chosen for a
fill counts as valid (R339, R370). None when the mask is 0. -/
def l2Victim (d : Die) (sl st : Nat) (ways : Nat) : Option (Nat × Option WayUse) :=
  let used := ((d.l2.filter fun y => y.slice == sl && y.set == st).map WayUse.line) ++
    (d.fills.filter fun f => f.slice == sl && f.set == st && f.way < 16).map WayUse.fill
  let free := leastFrom (fun w => bit ways w && !used.any (·.way == w)) 16 0
  if free < 16 then some (free, none)
  else
    match used.filter fun y => bit ways y.way with
    | [] => none
    | y :: ys => let v := ys.foldl (fun a b => if b.age < a.age then b else a) y; some (v.way, some v)

/-- A victim leaves its way: a line is written back, a fill loses its place and is only returned (R339, R370). -/
def l2Displace (s : State) (d : Nat) : WayUse → State
  | .line y => l2Evict s d y
  | .fill f => modDie s d fun x =>
      modCos { x with fills := updFirst (· == f) (fun f => { f with way := 16 }) x.fills } f.slice f.cos
        fun r => { r with cur := r.cur - 1 }

/-- The classes with a fill waiting in a slice. -/
def l2Waiting (d : Die) (sl : Nat) : List Nat :=
  (List.range 16).filter fun c => d.misses.any fun m => m.slice == sl && m.cos == c

/-- One credit round (R340): every waiting class gains its share, and the largest credit starts. -/
def l2Arbitrate (d : Die) (sl : Nat) : Option (Nat × Die) :=
  match l2Waiting d sl with
  | [] => none
  | c :: cs =>
    let d := (c :: cs).foldl (fun d c =>
      modCos d sl c fun r => { r with credit := min 256 (r.credit + r.share.toNat) }) d
    let w := cs.foldl (fun a b => if (cosOf d sl a).credit < (cosOf d sl b).credit then b else a) c
    some (w, modCos d sl w fun r => { r with credit := max (-256) (r.credit - 256) })

/-- The data of a line has come for the accesses that wait for it (R339). -/
def l2Return (line : Nat) (who : List Nat) (x : Die) : Die :=
  { x with returned := x.returned ++ who.map fun w => (w, line) }

/-- A miss starts its fill in its set (R339, R370): the victim leaves, OCC moves, the fill is under way. With no way allowed,
or where the line is a raw backing line by now (R276), the data is only returned. -/
def l2Begin (s : State) (d : Nat) (m : L2Miss) : State :=
  let x := getDie s d
  let r := cosOf x m.slice m.cos
  let st := cosSet r (m.line * 128)
  let s := fresh s
  match (if codecBacking s (m.line * 128) then none else l2Victim x m.slice st r.ways.toNat) with
  | none => modDie s d fun x => { x with fills := x.fills ++ [⟨m.slice, m.line, m.cos, st, 16, s.seq, m.who⟩] }
  | some (w, v) =>
    let s := match v with
      | some y => l2Displace s d y
      | none => s
    modDie s d fun x =>
      modCos { x with fills := x.fills ++ [⟨m.slice, m.line, m.cos, st, w, s.seq, m.who⟩] } m.slice m.cos fun r =>
        let cur := r.cur + 1
        { r with cur := cur, peak := if r.peak < cur then cur else r.peak }

/-- Start one fill of a slice (R340). -/
def l2FillStart (s : State) (d sl : Nat) : State :=
  match l2Arbitrate (getDie s d) sl with
  | none => s
  | some (c, x) =>
    match x.misses.find? fun m => m.slice == sl && m.cos == c with
    | none => s
    | some m => l2Begin (setDie s d { x with misses := delFirst (· == m) x.misses }) d m

/-- The fill of a line arrives (R339, R273): it reads memory as it then stands, is installed if it has a place, and its data
is there for the accesses that wait. The marks of its block come with a codec line (R379). -/
def l2Install (s : State) (d : Nat) (f : L2Fill) : State :=
  let s := modDie s d fun x => l2Return f.line f.who { x with fills := delFirst (· == f) x.fills }
  if f.way = 16 then s
  else if codecBacking s (f.line * 128) then
    modDie s d fun x => modCos x f.slice f.cos fun r => { r with cur := r.cur - 1 }
  else
    let s := fresh s
    let v := BitVec.ofNat 1024 (memLine s f.line)
    let s := if blockPoison s f.line then
        { s with poison := (s.poison.filter fun p => p / 16 != f.line) ++ (List.range 16).map (16 * f.line + ·) }
      else s
    modDie s d fun x => { x with l2 := x.l2 ++ [⟨f.slice, f.set, f.way, f.line, f.cos, v, 0, s.seq⟩] }

/-- The fill of a line that an access of class 0 misses is made at once: one under way is installed, one that waits starts
first (R339, log 93). -/
def l2Bring (s : State) (sel line : Nat) : State :=
  let d := homeDie (line * 128)
  let sl := sliceOf sel (line * 128)
  let isM (m : L2Miss) : Bool := m.slice == sl && m.line == line
  let isF (f : L2Fill) : Bool := f.slice == sl && f.line == line
  let x := getDie s d
  let s := if x.fills.any isF then s
    else match x.misses.find? isM with
      | some m => l2Begin (setDie s d { x with misses := delFirst isM x.misses }) d m
      | none => l2Begin s d ⟨sl, line, 0, []⟩
  match (getDie s d).fills.find? isF with
  | some f => l2Install s d f
  | none => s

/-- A line of a codec region that L2 does not hold has its fill before a write of class 0, because only an L1 writeback goes past L2
(R274). -/
def codecBring (s : State) (sel line : Nat) : State :=
  if (codecOf s (line * 128)).isSome && !codecBacking s (line * 128) && !absent line &&
      (l2Find (getDie s (homeDie (line * 128))) (sliceOf sel (line * 128)) line).isNone then l2Bring s sel line
  else s

/-- An access of class 0 to a line, which acts at once: a hit renews the recency, a miss asks for a fill (R336, R338, R339). -/
def ownTouch (wr : Bool) (sel : Nat) (s : State) (line : Nat) : State :=
  l2Choose (l2Touch (if wr then codecBring s sel line else s) sel (line * 128) 0) sel line

/-- Mark the 64 KiB granule of a performed write in the active bitmap, at the bitmap byte's home (R388). -/
def markDirty (s : State) (pa : Nat) : State :=
  let d := getDie s (homeDie pa)
  let ctl := d.migctl.toNat
  if bit ctl 0 then
    let base := bits (if bit ctl 1 then d.migbase1 else d.migbase0).toNat 21 27 * 2 ^ 21
    let g := pa / 65536
    let a := base + g / 8
    let b := bits (homeLine s 0 (a / 128)) (8 * (a % 128)) 8 ||| 2 ^ (g % 8)
    homePutLine (codecBring s 0 (a / 128)) 0 (a / 128) (2 ^ (a % 128)) (b * 2 ^ (8 * (a % 128)))
  else s

/-- Write the masked bytes of a line at its home (R255): into the resident copy, else to memory. -/
def homeWriteLine (s : State) (sel line mask v : Nat) : State := markDirty (homePutLine s sel line mask v) (line * 128)

/-- Write n bytes at their home, for n up to 128 within one line. -/
def homeWrite (s : State) (sel pa n v : Nat) : State :=
  homeWriteLine s sel (pa / 128) ((2 ^ n - 1) * 2 ^ (pa % 128)) ((v % 2 ^ (8 * n)) * 2 ^ (8 * (pa % 128)))

/-- Write n bytes at their homes, natural slices: one access for the part in each line, over at most k lines. -/
def homeWriteLines : Nat → State → Nat → Nat → Nat → State
  | 0, s, _, _, _ => s
  | k + 1, s, pa, n, v =>
    let m := min n (128 - pa % 128)
    if n = 0 then s else homeWriteLines k (homeWrite s 0 pa m v) (pa + m) (n - m) (v / 2 ^ (8 * m))

/-- Write n bytes at their homes, natural slices. -/
def homeWriteN (s : State) (pa n v : Nat) : State := homeWriteLines (n / 128 + 2) s pa n v

/-- A read of n bytes by Sirvy or the Vesper engine, with class 0 (R336): what it does to L2. -/
def ownRead (s : State) (pa n : Nat) : State := (linesOf pa n).foldl (ownTouch false 0) s

/-- A write of n bytes by Sirvy or the Vesper engine, with class 0 (R336). -/
def ownWrite (s : State) (pa n v : Nat) : State := homeWriteN ((linesOf pa n).foldl (ownTouch true 0) s) pa n v

/-- Install the oldest started fill of a slice (R339). -/
def l2FillInstall (s : State) (d sl : Nat) : State :=
  match (getDie s d).fills.find? fun f => f.slice == sl with
  | none => s
  | some f => l2Install s d f

/-- Write back and drop every line of a list of L2 lines. -/
def l2EvictAll (s : State) (d : Nat) (ys : List L2Line) : State := ys.foldl (fun s y => l2Evict s d y) s

/-- After a SETWIN write: lines no window reaches any more leave (R341). -/
def l2Unreachable (d : Die) : List L2Line := d.l2.filter fun y => !cosReach d y.slice y.line y.set

end Sys2Proof.Machine
end

