-- ==== Sys2Proof/Machine/Region.lean ====
section
/-!
DEFINITION. Regions and their fields (R304 to R309), lockstep groups (R80), freezing (R78, R303), killing a kernel
(R317) and filing a fault record (R212, R308, R309).
-/

namespace Sys2Proof.Machine

/-- A field of an RCB (R304). -/
def rcbField (r : Region) (lo n : Nat) : Nat := bits r.rcb.toNat lo n

/-- The admitted region with an identifier (R306). -/
def regionOf (s : State) (p : BitVec 16) : Option Region := s.regions.find? fun r => r.part == p

/-- A region and its ancestors, nearest first; the tree is at most 8 levels deep (R307). -/
def lineage (s : State) (p : BitVec 16) : Nat → List Region
  | 0 => []
  | n + 1 =>
    match regionOf s p with
    | none => []
    | some r => r :: (match r.parent with | some q => lineage s q n | none => [])

/-- The region whose field group g a region uses (R305). -/
def groupRegion (s : State) (r : Region) (g : Nat) : Nat → Region
  | 0 => r
  | n + 1 =>
    if bit (rcbField r 128 32) g then
      match r.parent.bind (regionOf s) with
      | some q => groupRegion s q g n
      | none => r
    else r

/-- A field of a region, taken from the parent where its group is inherited (R305). -/
def regionField (s : State) (r : Region) (g lo n : Nat) : Nat := rcbField (groupRegion s r g 8) lo n

/-- Replace a region. -/
def modRegion (s : State) (p : BitVec 16) (f : Region → Region) : State :=
  { s with regions := updFirst (fun r => r.part == p) f s.regions }

/-- Write 8 bytes of an admitted RCB, which Sirvy alone writes (R304). -/
def rcbWrite (s : State) (r : Region) (lo n v : Nat) : State := ownWrite s (r.pa + lo / 8) (n / 8) v

/-- The regions below a region, itself included. -/
def subtree (s : State) (p : BitVec 16) : List Region :=
  s.regions.filter fun r => (lineage s r.part 9).any fun q => q.part == p

/-- The owner of segment SEQ of a cell (R210, R356). -/
def seqOwner (c : Cell) : BitVec 16 := smGet 0 c.owners 0

/-- The class of service of a cell's accesses (R336). -/
def cellCos (s : State) (n : Nat) : Nat :=
  match (getCell s n).task, regionOf s (seqOwner (getCell s n)) with
  | some _, some r => regionField s r 2 512 4
  | _, _ => 0

/-- The context that a region translates under: its own, or that of its nearest ancestor that has one (R318). -/
def tctxKey (s : State) (p : BitVec 16) : Option Nat :=
  ((lineage s p 9).map fun r => r.part.toNat).find? fun k => s.tctx.any fun e => e.1 == k

/-- The translation context of a context of a cell; Sirvy translates with both stages off (R318). -/
def tctxOf (s : State) (p : BitVec 16) (fw : Bool) : TCtx :=
  if fw then TCtx.reset else
  match tctxKey s p with
  | some k => smGet TCtx.reset s.tctx k
  | none => TCtx.reset

/-- FUNC of a context (R318). -/
def tctxFunc (t : TCtx) : Nat := bits t.reg.toNat 48 8

/-- A host access for a function is refused: by the host IOMMU, or because the function is in ERROR (R331, R332). -/
def refusesHost (s : State) (f pa : Nat) : Bool :=
  s.hostDeny.contains (pa / 65536) || (smGet HostFn.reset s.hosts f).tdisp == 3

/-- A message enters its channel (R254), with the class, the host function and the trusted marking of the context it is made
for (R330, R332, R336). -/
def sendMsg (s : State) (n : Nat) (o : Origin) (snd : Sender) (home : Home) (op : MsgOp) : State :=
  let s := fresh s
  let f := tctxFunc (tctxOf s (seqOwner (getCell s n)) o.fw)
  let m : Msg := ⟨s.seq, n, snd, home, op, if o.fw then 0 else cellCos s n, f, (smGet HostFn.reset s.hosts f).tdisp == 2, o⟩
  { s with chan := s.chan ++ [m] }

/-- The home of an access: the host, or the slice that the handle selects (R255, R334, R335). -/
def homeOf (host : Bool) (sel pa : Nat) : Home := if host then .host else .slice (homeDie pa) (sliceOf sel pa)

/-- An address as the queues and L1 of a cell hold it: host pages are apart from the device's (R255, R330). -/
def keyOf (host : Bool) (pa : Nat) : Nat := if host then pa + 2 ^ 64 else pa

/-- The neighbour of a cell on a port, 0 N, 1 E, 2 S, 3 W, within its die (R9). -/
def neighbour (n port : Nat) : Option Nat :=
  let y := n / 16 % 8
  let x := n % 16
  match port with
  | 0 => if y = 0 then none else some (n - 16)
  | 1 => if x = 15 then none else some (n + 1)
  | 2 => if y = 7 then none else some (n + 16)
  | _ => if x = 0 then none else some (n - 1)

/-- A link between neighbours is fenced while the owners of their SEQ segments differ (R223). -/
def fenced (s : State) (a b : Nat) : Bool := seqOwner (getCell s a) != seqOwner (getCell s b)

/-- Both cells run tasks of one kernel. -/
def sameKernel (s : State) (a b : Nat) : Bool :=
  match (getCell s a).task, (getCell s b).task with
  | some t, some u => t.kid == u.kid
  | _, _ => false

/-- One round of spreading a group over unfenced links between cells of one kernel. -/
def spread (s : State) (g : List Nat) : List Nat → List Nat
  | [] => g
  | n :: ns =>
    let g := if !g.contains n && g.any (fun m =>
        (List.range 4).any fun p => neighbour m p == some n && !fenced s m n && sameKernel s m n) then n :: g else g
    spread s g ns

/-- Repeat the spreading. -/
def spreadN (s : State) : Nat → List Nat → List Nat
  | 0, g => g
  | k + 1, g => spreadN s k (spread s g (listed s))

/-- The lockstep group of a cell (R80). -/
def lockstep (s : State) (n : Nat) : List Nat :=
  match (getCell s n).task with
  | none => [n]
  | some _ => spreadN s (listed s).length [n]

/-- Open a frozen interval, or note another cause in the open one (R303). -/
def openFreeze (cause causer : Nat) (c : Cell) : Cell :=
  match c.frozen with
  | none => { c with frozen := some ⟨cause, causer, 0, false, false⟩ }
  | some f => if f.cause = cause then c else { c with frozen := some { f with multi := true } }

/-- A lost cycle of the open frozen interval (R303). -/
def loseCycle (c : Cell) : Cell :=
  match c.frozen with
  | none => c
  | some f => { c with frozen := some { f with lost := if f.lost = BitVec.allOnes 32 then f.lost else f.lost + 1 } }

/-- Set HOLD in a list of cells (R220). -/
def holdCells (s : State) (cause causer : Nat) (ns : List Nat) : State :=
  ns.foldl (fun s n => modCell s n fun c => openFreeze cause causer { c with hold := true }) s

/-- HEAD with one record more in LOST, which stops at all ones (R26). -/
def ringLost (h : Word) : Word := if bits h.toNat 32 32 = 2 ^ 32 - 1 then h else h + (1 : Word) <<< 32

/-- Append to the record queue of a cell: a record that finds 16 held, or its ring disabled, is dropped and counted
in LOST (R26, R303). -/
def appendRecord (id : Nat) (dev : Bool) (v : BitVec 256) (c : Cell) : Cell :=
  let size := bits (if dev then c.dbg.devsize else c.exlsize).toNat 0 5
  if c.records.length < 16 && 4 ≤ size && size ≤ 20 then { c with records := c.records ++ [⟨id, dev, v⟩] }
  else if dev then { c with dbg := { c.dbg with devhead := ringLost c.dbg.devhead } }
  else { c with exlhead := ringLost c.exlhead }

/-- The bundle address of the first bundle not yet issued (R303): the head of a follower's stream, else the PC. -/
def nextAddr (c : Ctx) : Word :=
  match c.gang with
  | e :: _ => e.addr
  | [] =>
    if !c.pc.getLsbD 0 then c.pc
    -- an interrupt whose UIVEC is odd is taken at UIRA (R212, R242)
    else if c.pkind = 1 && !c.target.getLsbD 0 then c.target else c.pc - 1

/-- File the deviation record of the open frozen interval of a cell, once (R303). -/
def fileFreeze (s : State) (n : Nat) : State :=
  let c := getCell s n
  match c.frozen with
  | none => s
  | some f =>
    if f.filed then s else
    let s := fresh s
    let v := n + (seqOwner c).toNat * 2 ^ 48 + b2n f.multi * 2 ^ 64 + f.cause * 2 ^ 72 + f.causer * 2 ^ 86 +
      f.lost.toNat * 2 ^ 96 + c.user.scyc.toNat * 2 ^ 128 + (nextAddr c.user).toNat * 2 ^ 192
    let c := { c with frozen := some { f with filed := true } }
    setCell s n (if bit c.dbg.devctl.toNat f.cause then c else appendRecord s.seq true (BitVec.ofNat 256 v) c)

/-- Close the open frozen interval of a cell; its record is filed if no scan-out has filed it (R303). -/
def closeFreeze (s : State) (n : Nat) : State :=
  if (getCell s n).frozen.isNone then s else modCell (fileFreeze s n) n fun c => { c with frozen := none }

/-- The D words of an L1 line as a byte mask and a line value. -/
def dirtyMask (ws : SMap L1Word) : Nat :=
  ws.foldl (fun m (w : Nat × L1Word) => if w.2.dirty then m + 15 * 2 ^ (4 * w.1) else m) 0
@[inherit_doc dirtyMask] def lineValue (ws : SMap L1Word) : Nat :=
  ws.foldl (fun m (w : Nat × L1Word) => m + w.2.val.toNat * 2 ^ (32 * w.1)) 0

/-- Every D word of a cell's L1 enters its channel as a writeback; the words become C (R317, R349, R357). -/
def flushL1 (s : State) (n : Nat) : State :=
  let c := getCell s n
  let s := c.l1.foldl (fun s (l : Nat × L1Line) =>
    let pos := match c.fifo.find? fun e => e.line == l.1 with
      | some e => e.pos
      | none => 0
    if l.2.words.any fun e => e.2.dirty then
      sendMsg s n l.2.org (.cell n) (homeOf l.2.host l.2.slice (l.1 * 128))
        (.wb (l.1 % 2 ^ 57) pos (l.2.words.filter fun e => e.2.dirty))
    else s) s
  modCell s n fun c => { c with
    l1 := c.l1.map fun l => (l.1, { l.2 with words := l.2.words.map fun w => (w.1, { w.2 with dirty := false, whole := false, orgs := [] }) })
    fifo := [] }

/-- DBGSTAT with STOPPED and REASON clear (R298). -/
def unstopped (d : Debug) : Debug := { d with stat := BitVec.ofNat 64 (setBits d.stat.toNat 0 4 0), precise := none }

/-- The entry of a queue is the firmware context's, or no marker of the user task's (R81, R254). -/
def loadFw : LoadEnt → Bool
  | .load _ _ _ _ _ _ _ o => o.fw
  | .acq _ _ _ fw => fw
@[inherit_doc loadFw] def storeFw (ms : List Marker) : StoreEnt → Bool
  | .store _ _ _ _ _ _ _ _ o => o.fw
  | .mark id => ms.any fun m => m.id == id && m.fw
@[inherit_doc loadFw] def engFw : EngEnt → Bool
  | .atomic _ _ _ _ _ _ _ _ _ _ _ o => o.fw
  | .ce _ k => k.org.fw

/-- A cell without its task: nothing queued, nothing running of the user context; what firmware has queued stays (R81, R254). A
retired cell keeps HOLD (R383). -/
def freeCell (c : Cell) : Cell :=
  { c with
    task := none, loadq := c.loadq.filter loadFw, storeb := c.storeb.filter (storeFw c.markers)
    markers := c.markers.filter (·.fw), soq := c.soq.filter (·.org.fw), engq := c.engq.filter engFw
    ce := c.ce.filter (·.cmd.org.fw), ceDone := c.ceDone.filter (·.cmd.org.fw), l1 := [], fifo := []
    hold := c.hold && !c.ok, frozen := none, saving := none, wasHeld := false, image := none
    inbox := c.inbox.filter (·.fw), rets := c.rets.filter (·.fw)
    dbg := if c.hold && !c.ok then c.dbg else unstopped c.dbg
    lastPart := seqOwner c
    user := { c.user with flights := [], bankOps := [], tland := [], tport := [], gang := [], walk := none, want := none } }

/-- What a cell without its task still has on its way: the reads of the task come to nothing, its writes and atomics are performed,
and no atomic of it makes a deposit. -/
def orphan (n : Nat) (m : Msg) : Option Msg :=
  if m.cell ≠ n ∨ m.org.fw then some m else
  match m.op with
  | .fill .. => none
  | .soRead .. => none
  | .engRead .. => none
  | .atomic pa off aop cas a k sysat _ _ => some { m with op := .atomic pa off aop cas a k sysat 0 0 }
  | _ => some m

/-- A cell loses its task, with all that is queued for it. D words that its L1 still holds are written back (R317). -/
def freeAt (s : State) (n : Nat) : State :=
  let s := modCell (flushL1 s n) n freeCell
  { s with chan := s.chan.filterMap (orphan n) }

/-- The kernel with an identifier. -/
def kernelOf (s : State) (kid : Nat) : Option Kernel := s.kernels.find? fun k => k.kid == kid

/-- Change a kernel. -/
def modKernel (s : State) (kid : Nat) (f : Kernel → Kernel) : State :=
  { s with kernels := updFirst (fun k => k.kid == kid) f s.kernels }

/-- The regions whose EREM a region draws on, each once (R305, R316). -/
def budgetOf (s : State) (p : BitVec 16) : List (BitVec 16) :=
  ((lineage s p 9).map fun r => (groupRegion s r 1 8).part).eraseDups

/-- Set EREM of a region, in its RCB too (R304). -/
def setErem (s : State) (p : BitVec 16) (v : Int) : State :=
  match regionOf s p with
  | none => s
  | some r => rcbWrite (modRegion s p fun r => { r with erem := v }) r 896 64 (wrap 64 v)

/-- Add to EREM of every region of a list. -/
def addErem (s : State) (ps : List (BitVec 16)) (v : Int) : State :=
  ps.foldl (fun s p => match regionOf s p with
    | some r => setErem s p (r.erem + v)
    | none => s) s

/-- Add to ECONS of a region and its ancestors (R316). -/
def addEcons (s : State) (p : BitVec 16) (v : Word) : State :=
  (lineage s p 9).foldl (fun s r =>
    let e := r.econs + v
    rcbWrite (modRegion s r.part fun r => { r with econs := e }) r 960 64 e.toNat) s

/-- Charge the ENJ growth of a cell to the region of its task, the kernel's reserve first (R316, R397); a cell with no task
is charged to Sirvy, which has no budget. -/
def chargeCell (s : State) (n : Nat) : State :=
  let x := getCell s n
  let e := x.enj - x.enjCharged
  if e = 0 then s else
  let s := modCell s n fun x => { x with enjCharged := x.enj }
  match x.task with
  | none => s
  | some t =>
    let s := addEcons s (seqOwner x) e
    let r := match kernelOf s t.kid with
      | some k => min k.reserve e.toNat
      | none => 0
    let s := modKernel s t.kid fun k => { k with reserve := k.reserve - r }
    if e.toNat = r then s else addErem s (budgetOf s (seqOwner x)) (-((e.toNat - r : Nat) : Int))

/-- Kill a kernel (R317): its tasks' contexts are discarded, their D words written back with no release, and no
more of its tasks are dispatched; an open frozen interval ends with its record (R303). PACKET_RETIREMENT then retires it
with the status. -/
def killKernel (s : State) (kid status : Nat) : State :=
  let s := (listed s).foldl (fun s n =>
    match (getCell s n).task with
    | some t => if t.kid = kid then freeAt (closeFreeze (chargeCell s n) n) n else s
    | none => s) s
  let upd (k : Kernel) : Kernel := { k with state := 2, status := status, running := [], saved := [], rel := s.seq }
  { s with kernels := updFirst (fun k => k.kid == kid && decide (k.state < 2)) upd s.kernels }

/-- Kill every kernel of a list of partitions, which also ends a freeze of theirs (R309, R317). -/
def killParts (s : State) (ps : List (BitVec 16)) (status : Nat) : State :=
  let s := (s.kernels.filter fun k => decide (k.state < 2) && ps.contains k.part).foldl (fun s k => killKernel s k.kid status) s
  { s with regions := s.regions.map fun r => if ps.contains r.part then { r with frozen := none } else r }

/-- The physical address of slot HEAD of a ring of the layout of R25 with slots of size bytes: LOG2N n (R26). -/
def ringSlot (base : Word) (size n head : Nat) : Nat := bits base.toNat 4 44 * size % 2 ^ 48 + size * (head % 2 ^ n)

/-- Advance HEAD of a ring, which wraps at 32 bits (R26). -/
def ringNext (h : Word) : Word := BitVec.ofNat 64 (setBits h.toNat 0 32 (bits h.toNat 0 32 + 1))

/-- The ring is enabled (R25). -/
def ringOn (size : Word) : Bool := 4 ≤ bits size.toNat 0 5 && bits size.toNat 0 5 ≤ 20

/-- Append a 64-byte record to the fault queue of a region, or of its nearest ancestor with one (R308); an
inherited queue is the parent's (R305). -/
def fileRegion (s : State) (p : BitVec 16) (rec : Nat) : State :=
  let on (r : Region) : Bool := let n := rcbField r 736 5; 4 ≤ n && n ≤ 16
  match ((lineage s p 9).map fun r => groupRegion s r 7 8).find? on with
  | none => s
  | some r =>
    let a := rcbField r 672 64 + 64 * (r.fqhead.toNat % 2 ^ rcbField r 736 5)
    let s := ownWrite s a 64 rec
    let s := modRegion s r.part fun r => { r with fqhead := r.fqhead + 1 }
    rcbWrite s r 768 32 (r.fqhead + 1).toNat

/-- Append a 64-byte record to the firmware fault queue of a die (R308). -/
def fileFirmware (s : State) (d : Nat) (rec : Nat) : State :=
  let x := getDie s d
  if ringOn x.fwfqsize then
    let s := ownWrite s (ringSlot x.fwfqbase 64 (bits x.fwfqsize.toNat 0 5) (bits x.fwfqhead.toNat 0 32)) 64 rec
    modDie s d fun x => { x with fwfqhead := ringNext x.fwfqhead }
  else modDie s d fun x => { x with fwfqhead := ringLost x.fwfqhead }

/-- Append a record to the hypervisor fault queue in host memory: it takes the slot of HEAD and joins the device-to-host queue, and its
host interrupt comes when it is written (R261, R326). With the ring disabled the record is lost and counted (R25, R26). -/
def fileHyper (s : State) (n : Nat) (rec : Nat) : State :=
  if ringOn s.hvsize then
    let a := ringSlot s.hvbase 64 (bits s.hvsize.toNat 0 5) (bits s.hvhead.toNat 0 32)
    sendMsg { s with hvhead := ringNext s.hvhead } n (.bare true 0) .firm .host (.hyper a (BitVec.ofNat 512 rec))
  else { s with hvhead := ringLost s.hvhead }

/-- A fault record (R212). -/
def faultRecord (cell count : Nat) (multi dec fw : Bool) (slot cause : Nat) (part : BitVec 16)
    (baddr scyc info0 info1 : Word) : Nat :=
  cell + min count 255 * 2 ^ 25 + b2n multi * 2 ^ 33 + b2n dec * 2 ^ 34 + b2n fw * 2 ^ 35 + slot * 2 ^ 36 +
    cause * 2 ^ 40 + part.toNat * 2 ^ 48 + baddr.toNat * 2 ^ 64 + scyc.toNat * 2 ^ 128 + info0.toNat * 2 ^ 192 +
    info1.toNat * 2 ^ 256

/-- The cells that run tasks of a list of partitions. -/
def cellsOf (s : State) (ps : List (BitVec 16)) : List Nat :=
  (listed s).filter fun n => (getCell s n).task.isSome && ps.contains (seqOwner (getCell s n))

/-- The fault policy of the owning region (R309). -/
def faultPolicy (s : State) (p : BitVec 16) (causer : Nat) : State :=
  match regionOf s p with
  | none => s
  | some r =>
    let ps := (subtree s p).map (·.part)
    match regionField s r 6 90 2 with
    | 1 =>
      let ns := cellsOf s ps
      modRegion (holdCells s 8 causer ns) p fun r => { r with frozen := some ns }
    | 2 => killParts s ps 9
    | _ => s

end Sys2Proof.Machine
end

