-- ==== Sys2Proof/Machine/Ops.lean ====
section
/-!
DEFINITION. The named operations of the cell datapath: contexts, latches, registers under SPIN (R83 to R85),
control registers (R53), circular-buffer fields (R158, R159), raising and taking a trap (R210 to R213) and
returning from a user-interrupt handler (R109, R242).
-/

namespace Sys2Proof.Machine

/-! ### Contexts -/

/-- A context of a cell: the firmware's when fw. -/
def getCtx (s : State) (n : Nat) (fw : Bool) : Ctx := if fw then (getCell s n).fw else (getCell s n).user

/-- Replace a context of a cell. -/
def setCtx (s : State) (n : Nat) (fw : Bool) (c : Ctx) : State :=
  modCell s n fun x => if fw then { x with fw := c } else { x with user := c }

/-- Change a context of a cell. -/
def modCtx (s : State) (n : Nat) (fw : Bool) (f : Ctx → Ctx) : State := setCtx s n fw (f (getCtx s n fw))

/-- The context whose issue cycle is under way. -/
def cur (s : State) : Ctx := getCtx s s.cyc.cell s.cyc.fw

/-- Change the context whose issue cycle is under way. -/
def modCur (s : State) (f : Ctx → Ctx) : State := modCtx s s.cyc.cell s.cyc.fw f

/-- The cell whose issue cycle is under way. -/
def curCell (s : State) : Cell := getCell s s.cyc.cell

/-- Change the cell whose issue cycle is under way. -/
def modCurCell (s : State) (f : Cell → Cell) : State := modCell s s.cyc.cell f

/-! ### Latches -/

/-- Place of a scalar latch in segment LATCH, in words (R350). -/
def sIdx : SLatch → Nat
  | .alu0o => 0 | .alu1o => 1 | .mulo => 2 | .cmpo => 3 | .cmpc => 4 | .bro => 5 | .lsuo => 6 | .lsuh => 7
  | .lsud => 8 | .lsuc => 9 | .lsuaop => 10 | .xlto => 11 | .cesrc => 12 | .cedst => 13 | .celen => 14 | .cectl => 15
  | .cesrc2 => 16 | .cedst2 => 17 | .celen2 => 18 | .cectl2 => 19
  | .alu0r => 20 | .alu1r => 21 | .mulr => 22 | .cmpr => 23 | .lsur => 24 | .xltr => 25 | .cer => 26 | .vrx => 27
  | .brr => 28 | .syso => 29 | .sysm => 30 | .sysr => 31

/-- Place of a vector latch in segments LATCH and LINK, in 128-byte units (R350). -/
def vIdx : VLatch → Nat
  | .vx0o => 0 | .vx1o => 1 | .vfo => 2 | .vfm => 3 | .vro => 4 | .vrm => 5 | .lsuvc => 6
  | .vx0r => 7 | .vx1r => 8 | .vfr => 9 | .vrr => 10 | .mxr => 11 | .lsuvr => 12 | .xfr => 13
  | .lnkn => 14 | .lnke => 15 | .lnks => 16 | .lnkw => 17

/-- A scalar latch. -/
def sGet (c : Ctx) (l : SLatch) : Word := smGet 0 c.sl (sIdx l)
/-- Write a scalar latch. -/
def sPut (c : Ctx) (l : SLatch) (v : Word) : Ctx := { c with sl := smSet 0 c.sl (sIdx l) v }
/-- A vector latch. -/
def vGet (c : Ctx) (l : VLatch) : Vec := smGet 0 c.vl (vIdx l)
/-- Write a vector latch. -/
def vPut (c : Ctx) (l : VLatch) (v : Vec) : Ctx := { c with vl := smSet 0 c.vl (vIdx l) v }

/-! ### Control registers -/

/-- A control register a context holds (R53), reset 0. -/
def creg (c : Ctx) (n : Nat) : Word := smGet 0 c.cr n

/-- Store a control register. -/
def cregPut (c : Ctx) (n : Nat) (v : Word) : Ctx := { c with cr := smSet 0 c.cr n v }

/-- Guard mode P (R87). -/
def modeP (c : Ctx) : Bool := bit (creg c 0x103).toNat 0
/-- Duplicate execution is on (R87). -/
def dupOn (c : Ctx) : Bool := bit (creg c 0x104).toNat 0
/-- A user-interrupt handler runs (R240). -/
def handling (c : Ctx) : Bool := bit (creg c 0x108).toNat 17

/-- The value a control register takes when v is written: reserved bits stay 0, RO fields keep, W1C clears (R4, R5). -/
def cregWrite (n : Nat) (old v : Nat) : Nat :=
  if n = 0x101 then bits v 0 6
  else if n = 0x102 then
    bits v 16 6 % 48 * 2 ^ 16 + bits v 8 5 * 2 ^ 8 + bits v 0 4
  else if n = 0x105 then bits v 0 1
  else if n = 0x108 then
    bits old 17 1 * 2 ^ 17 + bits v 16 1 * 2 ^ 16 + (bits old 0 8 &&& (0xFF - bits v 0 8))
  else if n = 0x10A then bits v 4 44 * 2 ^ 4
  else if n = 0x10B then bits v 0 5
  else if n = 0x10D then bits v 0 7
  else if 0x110 ≤ n ∧ n < 0x118 then bits v 44 20 * 2 ^ 44 + bits v 0 13
  else if 0x118 ≤ n ∧ n < 0x120 then bits old 48 16 * 2 ^ 48 + bits v 0 48
  else if 0x120 ≤ n ∧ n < 0x140 then bits v 0 3
  else if 0x140 ≤ n ∧ n < 0x150 then bits v 24 16 * 2 ^ 24 + bits v 16 7 * 2 ^ 16 + bits v 0 3
  else v

/-- Read a control register by number (R53); the cell holds some of them once (log 7). -/
def readCreg (cell : Cell) (c : Ctx) (n : Nat) : Word :=
  if n = 0x109 then BitVec.ofNat 64 (b2n cell.ispAct)
  else if n = 0x10A then cell.exlbase
  else if n = 0x10B then cell.exlsize
  else if n = 0x10C then cell.exlhead
  else if n = 0x10D then cell.fwshare
  else creg c n

/-- A control-register write lands (R89). -/
def landCreg (s : State) (n : Nat) (fw : Bool) (k : Nat) (v : Word) : State :=
  let w (old : Word) : Word := BitVec.ofNat 64 (cregWrite k old.toNat v.toNat)
  if k = 0x10A then modCell s n fun c => { c with exlbase := w c.exlbase }
  else if k = 0x10B then modCell s n fun c => { c with exlsize := w c.exlsize }
  else if k = 0x10C then modCell s n fun c => { c with exlhead := w c.exlhead }
  else if k = 0x10D then modCell s n fun c => { c with fwshare := w c.fwshare }
  else modCtx s n fw fun c => cregPut c k (w (creg c k))

/-- FWSHARE.N as it acts: 0 and 65 to 127 act as 64 (R224). -/
def fwShareN (c : Cell) : Nat := let n := bits c.fwshare.toNat 0 7; if n = 0 ∨ 64 < n then 64 else n

/-! ### Registers under SPIN -/

/-- The wheel positions (R84). -/
def spinX (c : Ctx) : Nat := bits (creg c 0x102).toNat 0 4
@[inherit_doc spinX] def spinV (c : Ctx) : Nat := bits (creg c 0x102).toNat 8 5
@[inherit_doc spinX] def spinP (c : Ctx) : Nat := bits (creg c 0x102).toNat 16 6

/-- Physical number of logical register i on a wheel with base b, size z and position p (R83). -/
def wheel (b z p i : Nat) : Nat := if b ≤ i ∧ i < b + z then b + (i - b + z - p % z) % z else i

/-- Physical scalar register (R83). -/
def physX (c : Ctx) (i : Nat) : Nat := wheel 32 16 (spinX c) i
/-- Physical vector register i of a file, 0 to 639 (R83). -/
def physV (c : Ctx) (file i : Nat) : Nat := 160 * file + wheel 128 32 (spinV c) i
/-- Physical predicate (R83). -/
def physP (c : Ctx) (i : Nat) : Nat := wheel 16 48 (spinP c) i

/-- Scalar register by logical number: xs0 to xs7 in a handler (R47). -/
def readX (c : Ctx) (i : Nat) : Word :=
  if handling c ∧ i < 8 then smGet 0 c.xs i else smGet 0 c.x (physX c i)

/-- The target of a write to logical scalar register i (R47, R85). -/
def tgtX (c : Ctx) (i : Nat) : Target := if handling c ∧ i < 8 then .xsreg i else .xreg (physX c i)

/-- A predicate by logical number; p0 reads 1 (R44). -/
def readP (c : Ctx) (i : Nat) : Bool := i == 0 || c.p.toNat.testBit (physP c i)

/-- A vector register by physical number. -/
def readVreg (c : Ctx) (i : Nat) : Vec := smGet 0 c.v i

/-- A guard's value at the start of the issue cycle (R43, R44). -/
def guardVal (c : Ctx) (g : BitVec 12) : Bool :=
  let b := if modeP c then readP c (g.toNat % 64) else bit (readX c (bits g.toNat 6 4)).toNat (bits g.toNat 0 6)
  b != bit g.toNat 10

/-- The guard of a word is present. -/
def guardPresent (g : BitVec 12) : Bool := bit g.toNat 11

/-! ### The bundle of the cycle -/

/-- Word k of the bundle that issues. -/
def cycWord (s : State) (k : Nat) : Nat := (Bundle.word s.cyc.bundle k).toNat

/-- S and D of w0 (R40). -/
def stageBit (s : State) : Bool := bit (cycWord s 0) 2
@[inherit_doc stageBit] def dupBit (s : State) : Bool := bit (cycWord s 0) 1

/-- The guard under which a move word acts (R42). -/
def moveOn (s : State) (g : BitVec 12) : Bool :=
  if guardPresent g then guardVal (cur s) g else !stageBit s || s.cyc.wg

/-- The guard under which the X, T and chk words act (R42). -/
def stageOn (s : State) : Bool := !stageBit s || s.cyc.wg

/-- Raise a trap in the cycle (R210). -/
def raise (s : State) (cause slot : Nat) (dec : Bool) (info0 info1 : Word) : State :=
  { s with cyc := { s.cyc with traps := s.cyc.traps ++ [(cause, slot, dec, info0, info1)] } }

/-- ILLMOVE of slot k, when its word acts (R211, R213). -/
def raiseIll (s : State) (k : Nat) : State :=
  raise s 8 k false (BitVec.ofNat 64 (cycWord s k)) (BitVec.ofNat 64 k)

/-- Put a write in flight (R79). -/
def launch (s : State) (f : Flight) : State := modCur s fun c => { c with flights := c.flights ++ [f] }

/-- A scalar result of latency l (R69). -/
def result (s : State) (l : SLatch) (lat : Nat) (v : Word) : State :=
  launch s { tgt := .slat l, val := v.zeroExtend 1024, cnt := lat, slot := 15 }

/-- A vector result of latency l (R69). -/
def vresult (s : State) (l : VLatch) (lat : Nat) (v : Vec) : State :=
  launch s { tgt := .vlat l, val := v, cnt := lat, slot := 15 }

/-- The single pending write to a latch by a move of this bundle (R72, R133). -/
def pendingWrite (c : Ctx) (t : Target) : Option Vec :=
  match c.flights.filter fun f => f.tgt == t && f.cnt == 1 && f.slot < 15 with
  | [f] => some f.val
  | _ => none

/-- A scalar operand latch as a trigger reads it: after the operand moves of its own bundle (R72). -/
def operand (s : State) (l : SLatch) : Word :=
  match pendingWrite (cur s) (.slat l) with
  | some v => v.truncate 64
  | none => sGet (cur s) l

/-- A vector operand latch as a trigger reads it. -/
def voperand (s : State) (l : VLatch) : Vec :=
  match pendingWrite (cur s) (.vlat l) with
  | some v => v
  | none => vGet (cur s) l

/-- Two moves of the bundle trigger the unit: no operation starts, and the writes collide (R75). -/
def doubled (s : State) (u : FUnit) : Bool := s.cyc.dup.contains u

/-- The write of a trigger port that collides (R75, R77); code is the trigger's destination code. -/
def portWrite (s : State) (u : FUnit) (k code : Nat) (v : Vec) : State :=
  launch s { tgt := .port u, val := v, cnt := 1, slot := k, aux := BitVec.ofNat 64 code }

/-! ### Circular buffers -/

/-- Fields of CBCFG h (R158). -/
def cbCfg (c : Ctx) (h : Nat) : Nat := (creg c (0x110 + h)).toNat
/-- Fields of CBFILL h (R159). -/
def cbFill (c : Ctx) (h : Nat) : Nat := (creg c (0x118 + h)).toNat
@[inherit_doc cbCfg] def cbEn (c : Ctx) (h : Nat) : Bool := bit (cbCfg c h) 63
@[inherit_doc cbCfg] def cbKind (c : Ctx) (h : Nat) : Bool := bit (cbCfg c h) 62
@[inherit_doc cbCfg] def cbFile (c : Ctx) (h : Nat) : Nat := bits (cbCfg c h) 60 2
@[inherit_doc cbCfg] def cbSize (c : Ctx) (h : Nat) : Nat := bits (cbCfg c h) 44 12 + 1
@[inherit_doc cbCfg] def cbBase (c : Ctx) (h : Nat) : Nat := bits (cbCfg c h) 0 13
@[inherit_doc cbCfg] def cbLink (c : Ctx) (h : Nat) : Nat := bits (cbCfg c h) 56 3
@[inherit_doc cbCfg] def cbUie (c : Ctx) (h : Nat) : Bool := bit (cbCfg c h) 59
@[inherit_doc cbFill] def cbRd (c : Ctx) (h : Nat) : Nat := bits (cbFill c h) 0 16
@[inherit_doc cbFill] def cbWr (c : Ctx) (h : Nat) : Nat := bits (cbFill c h) 16 16
@[inherit_doc cbFill] def cbFilled (c : Ctx) (h : Nat) : Nat := bits (cbFill c h) 32 16
@[inherit_doc cbFill] def cbRsv (c : Ctx) (h : Nat) : Nat := bits (cbFill c h) 48 16

/-- The buffer may be used (R158, R159). -/
def cbValid (c : Ctx) (h : Nat) : Bool :=
  cbEn c h && decide (cbBase c h + cbSize c h ≤ if cbKind c h then 8192 else 160) &&
  decide (cbRd c h < cbSize c h) && decide (cbWr c h < cbSize c h) &&
  decide (cbFilled c h + cbRsv c h ≤ cbSize c h)

/-- Free slots (R159). -/
def cbFree (c : Ctx) (h : Nat) : Nat := cbSize c h - cbFilled c h - cbRsv c h

/-- CBFILL with its four fields (R159). -/
def cbPack (rd wr fill rsv : Nat) : Word :=
  BitVec.ofNat 64 (rd % 2 ^ 16 + wr % 2 ^ 16 * 2 ^ 16 + fill % 2 ^ 16 * 2 ^ 32 + rsv % 2 ^ 16 * 2 ^ 48)

/-- The register or scratchpad byte offset of slot j (R158). -/
def cbSlotReg (c : Ctx) (h j : Nat) : Nat := 160 * cbFile c h + cbBase c h + j
@[inherit_doc cbSlotReg] def cbSlotOff (c : Ctx) (h j : Nat) : Nat := (cbBase c h + j) * 128

/-- Reserve one slot for an accepted producer (R157). -/
def cbReserve (c : Ctx) (h : Nat) : Ctx :=
  cregPut c (0x118 + h) (cbPack (cbRd c h) (cbWr c h) (cbFilled c h) (cbRsv c h + 1))

/-- The pointers of a buffer after a deposit (R161). -/
def cbDeposited (c : Ctx) (h : Nat) (reserved : Bool) : Ctx :=
  cregPut c (0x118 + h) (cbPack (cbRd c h) ((cbWr c h + 1) % cbSize c h) (cbFilled c h + 1)
    (if reserved then cbRsv c h - 1 else cbRsv c h))

/-- A hardware deposit into buffer h (R161): WR and FILL advance, a reservation is released, and PEND is set when UIE is
(R240). reg and mem say whether slot WR is written here, when it is a register and when it is in the scratchpad. -/
def depositWith (s : State) (n : Nat) (fw : Bool) (h : Nat) (reserved reg mem : Bool) (v : Vec) : State :=
  let c := getCtx s n fw
  let s := if cbKind c h
    then (if mem then modCell s n fun x => { x with spad := writeNat x.spad (cbSlotOff c h (cbWr c h)) 128 v.toNat } else s)
    else if reg then modCtx s n fw fun c => { c with v := smSet 0 c.v (cbSlotReg c h (cbWr c h)) v }
    else s
  modCtx s n fw fun c =>
    let c := cbDeposited c h reserved
    if cbUie c h then cregPut c 0x108 (creg c 0x108 ||| BitVec.ofNat 64 (2 ^ h)) else c

/-- A deposit that writes its slot. -/
def deposit (s : State) (n : Nat) (fw : Bool) (h : Nat) (reserved : Bool) (v : Vec) : State :=
  depositWith s n fw h reserved true true v

/-! ### Traps -/

/-- The traps of a cycle in one record (R210): a decoding trap alone, else the lowest slot; MULTI when there were
others. DESIGN CHOICE (log 97): of several with SLOT 15 it is BANKC, then WCOLL, then the CBOVR of an arrival. -/
def mainTrap (ts : List (Nat × Nat × Bool × Word × Word)) : Option (Nat × Nat × Bool × Word × Word) :=
  match ts with
  | [] => none
  | t :: us => some (us.foldl (fun a b => if b.2.1 < a.2.1 then b else a) t)

/-- A trap is filed (R210, R212, R220): one fault record, and the user context's lockstep group is held, or the firmware
context stops. -/
def fileTrap (s : State) (n : Nat) (fw : Bool) (ts : List (Nat × Nat × Bool × Word × Word)) (count : Nat)
    (baddr scyc : Word) : State :=
  match mainTrap ts with
  | none => s
  | some (cause, slot, dec, info0, info1) =>
    let part := seqOwner (getCell s n)
    let rcd := faultRecord n (if cause = 1 then count else 1) (decide (1 < ts.length)) dec fw slot cause part baddr scyc
      info0 info1
    if fw then modCell (fileFirmware s (dieOf n) rcd) n fun c => { c with fwStop := some cause }
    else
      fileRegion (holdCells s 7 n (lockstep s n)) part rcd

/-- TAKING A TRAP (R210, R309): it is filed, and for a user context the fault policy then acts. -/
def takeTrap (s : State) (n : Nat) (fw : Bool) (ts : List (Nat × Nat × Bool × Word × Word)) (count : Nat)
    (baddr scyc : Word) : State :=
  if ts = [] then s
  else
    let part := seqOwner (getCell s n)
    let s := fileTrap s n fw ts count baddr scyc
    if fw then s else faultPolicy s part n

/-- RETURN FROM A HANDLER (R109, R242): ACT is cleared and the resume address taken; PEND stays. -/
def leaveHandler (c : Ctx) : Ctx :=
  cregPut { c with pc := c.uira, lit := c.ulit } 0x108 (creg c 0x108 &&& ~~~(0x20000 : Word))

/-- ENTERING A HANDLER (R242): the resume address is saved, ACT is set, and the PC goes to UIVEC. -/
def enterHandler (c : Ctx) (resume : Word) (lit : Bool) : Ctx :=
  cregPut { c with uira := resume, ulit := lit, pc := creg c 0x107, lit := false } 0x108 (creg c 0x108 ||| 0x20000)

end Sys2Proof.Machine
end

