-- ==== Sys2Proof/Machine/Operands.lean ====
section
/-!
DEFINITION. Every operand form: scalar sources (R47), vector sources with broadcast and buffer reads (R49, R68,
R160, R208), destinations (R48, R49, R52, R67), buffer writes (R161), and the frame in which a move word acts
(R42, R45).
-/

namespace Sys2Proof.Machine

/-- The result latch of a scalar source code 0x040 to 0x049 (R47). -/
def srcLatch (n : Nat) : SLatch :=
  match n with
  | 0x40 => .alu0r
  | 0x41 => .alu1r
  | 0x42 => .mulr
  | 0x43 => .cmpr
  | 0x44 => .lsur
  | 0x45 => .xltr
  | 0x46 => .cer
  | 0x47 => .vrx
  | 0x48 => .brr
  | _ => .sysr

/-- The latch of a vector source code 0x0A0 to 0x0AA (R49). -/
def srcVLatch (n : Nat) : VLatch :=
  match n with
  | 0xA0 => .vx0r
  | 0xA1 => .vx1r
  | 0xA2 => .vfr
  | 0xA3 => .vrr
  | 0xA4 => .mxr
  | 0xA5 => .lnkn
  | 0xA6 => .lnke
  | 0xA7 => .lnks
  | 0xA8 => .lnkw
  | 0xA9 => .lsuvr
  | _ => .xfr

/-- The long immediate of the bundle (R207). -/
def longImm (s : State) : Word := sext64 30 (cycWord s 11)

/-- A scalar source (R47), read at the start of the issue cycle (R69). -/
def readS (s : State) (src : BitVec 10) : Word :=
  let n := src.toNat
  let c := cur s
  if n < 0x40 then readX c n
  else if n < 0x4A then sGet c (srcLatch n)
  else if n = 0x60 then BitVec.ofNat 64 s.cyc.cell
  else if n = 0x61 then c.rankx
  else if n = 0x62 then c.ranky
  else if n = 0x63 then c.scyc
  else if n < 0x100 then sext64 7 n
  else if n < 0x160 then readCreg (curCell s) c n
  else longImm s

/-- The broadcast value: XR truncated to EW bits and replicated (R68, R208). -/
def broadcast (s : State) : Vec :=
  let w := cycWord s 11
  let v := (readX (cur s) (bits w 0 6)).toNat
  mkVec (8 * 2 ^ bits w 28 2) fun _ => v

/-- The file a slot owns: V0 to V3 own va to vd, M reads vd (R49, R52). -/
def ownFile (k : Nat) : Nat := if k = 8 then 3 else k - 4

/-- A buffer read by slot k of handle h, count n, is legal (R159, R160). -/
def cbReadOk (c : Ctx) (k h n : Nat) : Bool :=
  cbValid c h && decide (n ≤ cbSize c h) && (cbKind c h || cbFile c h == ownFile k)

/-- The slot value of a buffer read (R160); a suppressed KIND 1 read delivers zero bytes (R248). -/
def cbReadVal (s : State) (h n : Nat) : Vec :=
  let c := cur s
  let j := (cbRd c h + n - 1) % cbSize c h
  if cbKind c h then
    (if s.cyc.supp then 0 else BitVec.ofNat 1024 (readNat (curCell s).spad (cbSlotOff c h j) 128))
  else readVreg c (cbSlotReg c h j)

/-- Handle and count of a buffer-read source code (R49). -/
def cbSrc (src : BitVec 10) : Option (Nat × Nat) :=
  let n := src.toNat
  if 0x100 ≤ n ∧ n < 0x180 then some (bits n 4 3, bits n 0 4 + 1) else none

/-- A vector source that is no buffer read (R49). -/
def readV (s : State) (k : Nat) (src : BitVec 10) : Vec :=
  let n := src.toNat
  let c := cur s
  if n < 0xA0 then readVreg c (physV c (ownFile k) n)
  else if n < 0xAB then vGet c (srcVLatch n)
  else broadcast s

/-- A trap CBOVR of slot k on handle h (R211, R213). -/
def raiseCb (s : State) (k h : Nat) : State := raise s 0x0B k false (BitVec.ofNat 64 h) 0

/-- Act with the value of a vector source; a buffer read that is illegal traps and nothing acts (R160). -/
def withV (s : State) (k : Nat) (src : BitVec 10) (f : State → Vec → State) : State :=
  match cbSrc src with
  | some (h, n) => if cbReadOk (cur s) k h n then f s (cbReadVal s h n) else raiseCb s k h
  | none => f s (readV s k src)

/-- A move word acts when its guard holds (R42, R45). -/
def guarded (s : State) (g : BitVec 12) (f : State → State) : State := if moveOn s g then f s else s

/-- A move of slot k into a shadow range, which D idles when DUPEN is 0 (R42). -/
def shadowed (s : State) (k : Nat) (d : BitVec 10) : Bool :=
  !dupOn (cur s) && dupBit s &&
  (if k < 4 then decide (0x30 ≤ d.toNat ∧ d.toNat < 0x40) else decide (k < 8 ∧ 0x140 ≤ d.toNat ∧ d.toNat < 0x160))

/-- The operand latch of an S destination 0x040 to 0x047 (R48). -/
def dstLatch (n : Nat) : SLatch :=
  match n with
  | 0x40 => .alu0o
  | 0x41 => .alu1o
  | 0x42 => .mulo
  | 0x43 => .cmpo
  | 0x44 => .cmpc
  | 0x45 => .bro
  | 0x46 => .syso
  | _ => .sysm

/-- The operand latch of an M destination with a scalar source (R52). -/
def dstMLatch (n : Nat) : SLatch :=
  match n with
  | 0 => .lsuo
  | 1 => .lsuh
  | 2 => .lsud
  | 3 => .lsuc
  | 4 => .lsuaop
  | 8 => .xlto
  | 0x10 => .cesrc
  | 0x11 => .cedst
  | 0x12 => .celen
  | _ => .cectl

/-- The operand latch of a V destination 0x280 to 0x285 (R49). -/
def dstVLatch (n : Nat) : VLatch :=
  match n with
  | 0x280 => .vx0o
  | 0x281 => .vx1o
  | 0x282 => .vfo
  | 0x283 => .vfm
  | 0x284 => .vro
  | _ => .vrm

/-- A write by a move of slot k, landing after lat cycles (R69). -/
def moveWrite (s : State) (k lat : Nat) (t : Target) (v : Vec) : State :=
  launch s { tgt := t, val := v, cnt := lat, slot := k }

/-- A PRIV trap of slot k: INFO0 holds the destination code (R213). -/
def raisePriv (s : State) (k d : Nat) : State := raise s 0x0D k false (BitVec.ofNat 64 d) 0

/-- Registers marked RO, and registers a user may not write (R53). -/
def cregRO (n : Nat) : Bool := n == 0x103 || n == 0x104 || n == 0x109 || decide (0x150 ≤ n ∧ n < 0x160)
@[inherit_doc cregRO] def cregPriv (n : Nat) : Bool := decide (0x10A ≤ n ∧ n < 0x10E)

/-- A scalar value reaches an S destination (R48, R53, R214). -/
def writeS (s : State) (k : Nat) (d : BitVec 10) (v : Word) : State :=
  let n := d.toNat
  let w : Vec := v.zeroExtend 1024
  if n < 0x40 then launch s { tgt := tgtX (cur s) n, val := w, cnt := 1, slot := k, aux := BitVec.ofNat 64 n }
  else if n < 0x48 then
    (if 0x46 ≤ n ∧ !s.cyc.fw then raisePriv s k n else moveWrite s k 1 (.slat (dstLatch n)) w)
  else if cregRO n then raiseIll s k
  else if cregPriv n ∧ !s.cyc.fw then raisePriv s k n
  else moveWrite s k 1 (.creg n) w

/-- A vector value reaches a V destination: an own-file register in the cycle, a foreign one two cycles later
(R67). -/
def writeV (s : State) (k : Nat) (d : BitVec 10) (v : Vec) : State :=
  let n := d.toNat
  if n < 0x280 then
    moveWrite s k (if n / 160 = ownFile k then 1 else 3) (.vreg (physV (cur s) (n / 160) (n % 160))) v
  else moveWrite s k 1 (.vlat (dstVLatch n)) v

/-- A hardware producer deposits into buffer h: a slot is reserved for it, or its LINK names a port (R158, R159, log 12). -/
def cbFed (c : Ctx) (h : Nat) : Bool := decide (0 < cbRsv c h) || (decide (1 ≤ cbLink c h) && decide (cbLink c h ≤ 4))

/-- What a move into a buffer that a producer feeds leaves: contents that the manual calls unpredictable (R161), a free value
in every slot (log 12). -/
def cbScramble (s : State) (h : Nat) : State :=
  let c := cur s
  let js := List.range (cbSize c h)
  let t := if cbKind c h
    then modCurCell s fun x => { x with
      spad := js.foldl (fun m j => writeNat m (cbSlotOff c h j) 128 (Config.freeVec (s.free + j)).toNat) x.spad }
    else modCur s fun c => { c with v := js.foldl (fun m j => smSet 0 m (cbSlotReg c h j) (Config.freeVec (s.free + j))) c.v }
  { t with free := s.free + cbSize c h }

/-- A vector value is written to slot (WR + n − 1) of a valid buffer h by slot k (R161); ext keeps the destination code of a
write still to reach its banks (R403). -/
def putCb (s : State) (k h n : Nat) (v : Vec) : State :=
  let c := cur s
  let j := (cbWr c h + n - 1) % cbSize c h
  let e : BitVec 256 := BitVec.ofNat 256 (0x240 + 8 * h + n - 1)
  if cbKind c h then
    modCur s fun c => { c with
      bankOps := c.bankOps ++ [{ cnt := 4, code := 1, act := .store, off := cbSlotOff c h j, len := 128, val := v, ext := e }] }
  else moveWrite s k (if cbFile c h = ownFile k then 1 else 3) (.vreg (cbSlotReg c h j)) v

/-- A buffer write of slot k (R161): an invalid buffer traps; into one that a producer feeds, the value that arrives is free
too (log 12). -/
def writeCb (s : State) (k h n : Nat) (v : Vec) : State :=
  if cbValid (cur s) h then
    if cbFed (cur s) h then
      putCb { (cbScramble s h) with free := s.free + cbSize (cur s) h + 1 } k h n (Config.freeVec (s.free + cbSize (cur s) h))
    else putCb s k h n v
  else raiseCb s k h

/-- A scalar trigger of an S slot on a unit: guard, then f with t; a doubled unit starts nothing (R75). -/
def trigS (s : State) (u : FUnit) (code : Nat) (k : BitVec 4) (g : BitVec 12) (src : BitVec 10)
    (f : State → Word → State) : State :=
  guarded s g fun s =>
    let t := readS s src
    if doubled s u then portWrite s u k.toNat code (t.zeroExtend 1024) else f s t

/-- A vector trigger of a V slot on a unit. -/
def trigV (s : State) (u : FUnit) (code : Nat) (k : BitVec 4) (g : BitVec 12) (src : BitVec 10)
    (f : State → Vec → State) : State :=
  guarded s g fun s => withV s k.toNat src fun s t =>
    if doubled s u then portWrite s u k.toNat code t else f s t

/-- A scalar trigger of the M slot. -/
def trigM (s : State) (g : BitVec 12) (src : BitVec 10) (f : State → Word → State) : State :=
  guarded s g fun s => f s (readS s src)

/-- A vector trigger of the M slot. -/
def trigMV (s : State) (g : BitVec 12) (src : BitVec 10) (f : State → Vec → State) : State :=
  guarded s g fun s => withV s 8 src f

end Sys2Proof.Machine
end

