-- ==== Sys2Proof/Machine/Flags.lean ====
section
/-!
DEFINITION. Every flag computation: the compare conditions (R96), the lane masks of mode G (R98), the predicate writes
of mode P (R76, R97, R99, R100), the loop flags of the br operations (R105 to R108), and the counts and records of
converting operations (R23 to R27, R126).
-/

namespace Sys2Proof.Machine

/-- A compare condition on two values of width w (R96). -/
def cmpCond (op w o t : Nat) : Bool :=
  match op with
  | 0 => o == t
  | 1 => o != t
  | 2 => decide (sval w o < sval w t)
  | 3 => decide (sval w o ≤ sval w t)
  | 4 => decide (sval w t < sval w o)
  | 5 => decide (sval w t ≤ sval w o)
  | 6 => decide (o < t)
  | 7 => decide (o ≤ t)
  | 8 => decide (t < o)
  | 9 => decide (t ≤ o)
  | 10 => bit o (t % 64)
  | _ => o &&& t != 0

/-- cmp.r in guard mode G (R98): a mask over lanes of width W for eq to gen, over all bits for tbit and tany. -/
def cmpMask (op : Nat) (c o t : Word) : Word :=
  if 10 ≤ op then (if cmpCond op 64 o.toNat t.toNat then BitVec.allOnes 64 else 0)
  else
    let w := 8 * 2 ^ bits c.toNat 20 2
    BitVec.ofNat 64 (lanes w (fun k => if cmpCond op w (lane w o.toNat k) (lane w t.toNat k) then 2 ^ w - 1 else 0)
      (64 / w) 0)

/-- A predicate write by a slot: logical predicate i is mapped under SPIN; p0 is discarded (R44, R85). DESIGN CHOICE (log 81):
in COLA and COLB it counts as a write of its word, with SLOT k. -/
def putPred (s : State) (k i : Nat) (cond : Bool) (v : Bool) : State :=
  if i = 0 then s else
  launch s { tgt := .pred (physP (cur s) i) cond, val := BitVec.ofNat 1024 (b2n v), cnt := 1, slot := k }

/-- The write of one target of a compare in mode P (R99): write mode, qualifier, sense. -/
def cmpTarget (s : State) (k wm : Nat) (q sense : Bool) (p : Nat) : State :=
  match wm with
  | 0 => if q then putPred s k p false sense else s
  | 1 => putPred s k p false (q && sense)
  | 2 => if q && !sense then putPred s k p true false else s
  | _ => if q && sense then putPred s k p true true else s

/-- A compare (R96 to R100): cmp.r and, in mode P, the two predicates that cmp.c names. -/
def compare (s : State) (k op : Nat) (t : Word) : State :=
  let o := operand s .cmpo
  let c := operand s .cmpc
  let x := cur s
  if modeP x then
    let cond := cmpCond op 64 o.toNat t.toNat
    let s := result s .cmpr 1 (BitVec.ofNat 64 (b2n cond))
    let q := readP x (bits c.toNat 24 6) != bit c.toNat 31
    let s1 := cond != bit c.toNat 19
    let s2 := if bit c.toNat 18 then s1 else !s1
    let wm := bits c.toNat 16 2
    let s := cmpTarget s k wm q s1 (bits c.toNat 0 6)
    cmpTarget s k wm q s2 (bits c.toNat 8 6)
  else result s .cmpr 1 (cmpMask op c o t)

/-- SPIN with its three fields (R84). -/
def spinPack (p v x : Nat) : Word := BitVec.ofNat 64 (x % 16 + v % 32 * 2 ^ 8 + p % 48 * 2 ^ 16)

/-- SPIN after one turn (R83). -/
def spinTurn (c : Ctx) : Word := spinPack (spinP c + 1) (spinV c + 1) (spinX c + 1)

/-- A flag write of the br operation (R75): LC, TAIL or SPIN. -/
def putFlag (s : State) (n : Nat) (v : Word) : State := moveWrite s 0 1 (.creg n) (v.zeroExtend 1024)

/-- Turn the wheels and write p16 under the numbering after the turn (R105 to R107). -/
def turnAndPut (s : State) (p16 : Bool) : State :=
  let sp := spinTurn (cur s)
  let s := putFlag s 0x102 sp
  launch s { tgt := .pred (wheel 16 48 (bits sp.toNat 16 6) 16) false, val := BitVec.ofNat 1024 (b2n p16), cnt := 1, slot := 0 }

/-- The bits k < n where f holds, as a mask. -/
def maskOf (f : Nat → Bool) (n : Nat) : Nat → Nat
  | k => bitsOf f n k

/-- An exception record (R24) with LANE 0. -/
def excRecord (src : Nat) (cause slot kind cell : Nat) : Nat :=
  cell + kind * 2 ^ 26 + slot * 2 ^ 28 + cause * 2 ^ 32 + src * 2 ^ 64

/-- The records of flagged lanes in ascending order (R26). For KIND 2, SRC is the offset
of the lane's own element (R24, R149). -/
def appendLanes (s : State) (n : Nat) (rcd step : Nat) (kindOff : Bool) : List Nat → State
  | [] => s
  | l :: ls =>
    let s := fresh s
    let v := rcd + l * 2 ^ 40 + (if kindOff then step * l * 2 ^ 64 else 0)
    appendLanes (modCell s n (appendRecord s.seq false (BitVec.ofNat 256 v))) n rcd step kindOff ls

/-- CVCNT grown by counts of NaNs and infinities; each field stops at all ones (R27, R126). -/
def cvAdd (old : Word) (nan inf : Nat) : Word :=
  BitVec.ofNat 64 (min (2 ^ 32 - 1) (bits old.toNat 0 32 + inf) +
    min (2 ^ 32 - 1) (bits old.toNat 32 32 + nan) * 2 ^ 32)

/-- The counts and records of a conversion land (R126, R201). nan and inf are lane masks over n lanes. -/
def landCounts (s : State) (cell : Nat) (fw : Bool) (n nan inf rcd step : Nat) (kindOff : Bool) : State :=
  let s := modCtx s cell fw fun c => cregPut c 0x106 (cvAdd (creg c 0x106) (popcount n nan) (popcount n inf))
  appendLanes s cell rcd step kindOff ((List.range n).filter (bit nan))

/-- Put the counts and records of a conversion in flight (R126, R201, R403). -/
def countsFlight (s : State) (cnt nan inf rcd : Nat) : State :=
  if nan = 0 ∧ inf = 0 then s else
  launch s { tgt := .counts, val := BitVec.ofNat 1024 (nan + inf * 2 ^ 128 + rcd * 2 ^ 256), cnt := cnt, slot := 15 }

end Sys2Proof.Machine
end

