-- ==== Sys2Proof/Machine/Control.lean ====
section
/-!
DEFINITION. The br operations of w0 (R101 to R113). A br operation leaves its decision in the issue cycle: taken,
target, bubbles and the KIND of R409 (with 7 for br.uiret and 8 for br.ifence); the end of the cycle moves the PC.
-/

namespace Sys2Proof.Machine

/-- The guard of w0 for its br operation (R42, R101). -/
def brOn (st : State) (g : BitVec 12) : Bool := !guardPresent g || guardVal (cur st) g

/-- The decision of the br operation. -/
def decideBr (st : State) (taken : Bool) (bub kind : Nat) (target : Word) : State :=
  { st with cyc := { st.cyc with taken := taken, bub := bub, kind := kind, target := target } }

/-- The target of a relative operation, A + 2 × IMM modulo 2^64 (R60, R102). -/
def relTarget (st : State) (i : BitVec 12) : Word := st.cyc.addr + 2 * i.signExtend 64

/-- The address after the bundle: the return address (R104). -/
def seqAddr (st : State) : Word := st.cyc.addr + BitVec.ofNat 64 st.cyc.len

/-- Go to a relative target; one whose bit 63 differs from that of A is not a valid PC, and traps when it is due (R103). -/
def goRel (st : State) (i : BitVec 12) (bub kind : Nat) : State :=
  let t := relTarget st i
  decideBr st true bub kind (if t.getLsbD 63 = st.cyc.addr.getLsbD 63 then t else t ||| 1)

/-- Go to br.o + 2 × IMM; an odd target traps ALIGN and the operation has no effect (R60, R103). -/
def goInd (st : State) (i : BitVec 12) (bub kind : Nat) (f : State → State) : State :=
  let t := operand st .bro + 2 * i.signExtend 64
  if t.getLsbD 0 then raise st 0x0E 0 false 0 0 else f (decideBr st true bub kind t)

/-- br.r := the return address (R104). -/
def putReturn (st : State) : State := result st .brr 1 (seqAddr st)

/-- The body of br.loop (R106). -/
def loopBody (st : State) (i : BitVec 12) : State :=
  let lc := creg (cur st) 0x100
  if lc = 0 then st else goRel (turnAndPut (putFlag st 0x100 (lc - 1)) true) i 0 1

/-- The body of br.loopx (R107). -/
def loopxBody (st : State) (i : BitVec 12) : State :=
  let lc := creg (cur st) 0x100
  let tail := creg (cur st) 0x101
  if lc ≠ 0 then goRel (turnAndPut (putFlag st 0x100 (lc - 1)) true) i 0 2
  else if 1 < tail.toNat then goRel (turnAndPut (putFlag st 0x101 (tail - 1)) false) i 0 3
  else if tail = 1 then decideBr (turnAndPut (putFlag st 0x101 0) false) false 0 4 0
  else st

/-- The predicate writes of br.unspin: p16 := 1, p17 to p63 := 0, physical numbers (R108). -/
def unspinPreds (st : State) : List Nat → State
  | [] => st
  | i :: is =>
    unspinPreds (launch st { tgt := .pred i false, val := BitVec.ofNat 1024 (b2n (i == 16)), cnt := 1, slot := 0 }) is

/-- p16 to p63. -/
def stagePreds : List Nat := (List.range 48).map (· + 16)

/-- The body of br.unspin (R108). -/
def unspinBody (st : State) : State := decideBr (unspinPreds (putFlag st 0x102 0) stagePreds) true 0 5 0

/-- The body of br.uiret: outside a handler it traps ILLMOVE (R109). -/
def uiretBody (st : State) : State :=
  if handling (cur st) then modCur (decideBr st true 2 7 (cur st).uira) leaveHandler else raiseIll st 0

/-- Every fetch line and the instruction cache of the cell go (R110). -/
def dropLines (x : Cell) : Cell := { x with user := { x.user with ilines := [] }, fw := { x.fw with ilines := [] } }

/-- The body of br.ifence: every fetch line and the instruction cache go (R110). -/
def ifenceBody (st : State) : State := modCurCell (decideBr st true 3 8 0) dropLines

/-- Invert ISPCTL.ACT; the lines held from the half that was active go (R111, log 21). -/
def flipAct (st : State) : State := modCurCell st fun x =>
  let keep (c : Ctx) : Ctx := { c with
    ilines := c.ilines.filter fun l => !(l.va.getLsbD 63 && l.va.getLsbD 16 == x.ispAct) }
  { x with ispAct := !x.ispAct, user := keep x.user, fw := keep x.fw }

/-- The body of br.end (R112). -/
def endBody (st : State) : State := { st with cyc := { st.cyc with taken := true, ends := true } }

/-- BR (R102): Relative branch with one bubble. -/
def execBr (i : BitVec 12) (g : BitVec 12) (_y : BitVec 1) (_s : BitVec 1) (_d : BitVec 1) (st : State) : Host.Outcome State Fault Refusal :=
  .next (if brOn st g then goRel st i 1 0 else st)

/-- BR_CALL (R104): Relative call that writes the return address to br.r. -/
def execBrCall (i : BitVec 12) (g : BitVec 12) (_y : BitVec 1) (_s : BitVec 1) (_d : BitVec 1) (st : State) : Host.Outcome State Fault Refusal :=
  .next (if brOn st g then putReturn (goRel st i 1 6) else st)

/-- BR_RET (R102): Branch to br.o with two bubbles. -/
def execBrRet (g : BitVec 12) (_y : BitVec 1) (_s : BitVec 1) (_d : BitVec 1) (st : State) : Host.Outcome State Fault Refusal :=
  .next (if brOn st g then goInd st 0 2 0 id else st)

/-- BR_IND (R102): Indirect branch to br.o plus 2 times IMM. -/
def execBrInd (i : BitVec 12) (g : BitVec 12) (_y : BitVec 1) (_s : BitVec 1) (_d : BitVec 1) (st : State) : Host.Outcome State Fault Refusal :=
  .next (if brOn st g then goInd st i 2 0 id else st)

/-- BR_LOOP (R106): Counted loop: while LC is nonzero, decrement it, turn, set p16 and take the branch. -/
def execBrLoop (i : BitVec 12) (g : BitVec 12) (_y : BitVec 1) (_s : BitVec 1) (_d : BitVec 1) (st : State) : Host.Outcome State Fault Refusal :=
  .next (if brOn st g then loopBody st i else st)

/-- BR_LOOPX (R107): Software-pipelined loop close that also runs the epilogue on TAIL. -/
def execBrLoopx (i : BitVec 12) (g : BitVec 12) (_y : BitVec 1) (_s : BitVec 1) (_d : BitVec 1) (st : State) : Host.Outcome State Fault Refusal :=
  .next (if brOn st g then loopxBody st i else st)

/-- BR_UIRET (R109): Return from a user-interrupt handler to UIRA. -/
def execBrUiret (g : BitVec 12) (_y : BitVec 1) (_s : BitVec 1) (_d : BitVec 1) (st : State) : Host.Outcome State Fault Refusal :=
  .next (if brOn st g then uiretBody st else st)

/-- BR_IFENCE (R110): Fetch fence: discards fetch lines and invalidates the instruction cache. -/
def execBrIfence (g : BitVec 12) (_y : BitVec 1) (_s : BitVec 1) (_d : BitVec 1) (st : State) : Host.Outcome State Fault Refusal :=
  .next (if brOn st g then ifenceBody st else st)

/-- BR_SWAP (R111): Flips ISPCTL.ACT and continues at br.o after three bubbles. -/
def execBrSwap (g : BitVec 12) (_y : BitVec 1) (_s : BitVec 1) (_d : BitVec 1) (st : State) : Host.Outcome State Fault Refusal :=
  .next (if brOn st g then goInd st 0 3 0 flipAct else st)

/-- BR_END (R112): Ends the tile task. -/
def execBrEnd (g : BitVec 12) (_y : BitVec 1) (_s : BitVec 1) (_d : BitVec 1) (st : State) : Host.Outcome State Fault Refusal :=
  .next (if brOn st g then endBody st else st)

/-- BR_CALLI (R104): Indirect call that writes the return address to br.r. -/
def execBrCalli (i : BitVec 12) (g : BitVec 12) (_y : BitVec 1) (_s : BitVec 1) (_d : BitVec 1) (st : State) : Host.Outcome State Fault Refusal :=
  .next (if brOn st g then goInd st i 2 6 putReturn else st)

/-- BR_UNSPIN (R108): Sets SPIN to 0, p16 to 1 and p17 to p63 to 0. -/
def execBrUnspin (g : BitVec 12) (_y : BitVec 1) (_s : BitVec 1) (_d : BitVec 1) (st : State) : Host.Outcome State Fault Refusal :=
  .next (if brOn st g then unspinBody st else st)

end Sys2Proof.Machine
end

