-- ==== Sys2Proof/Machine/Matrix.lean ====
section
/-!
DEFINITION. Matrix beats and the accumulator store (R28 to R35, R175 to R195). The X word acts on the user context.
-/

namespace Sys2Proof.Machine

/-! ### Accumulator rows -/

/-- Row i of accumulator tile t (R28). -/
def accRow (c : Cell) (t i : Nat) : AccRow := smGet AccRow.clear c.acc (64 * t + i)
/-- Replace a row. -/
def accPut (c : Cell) (t i : Nat) (r : AccRow) : Cell := { c with acc := smSet AccRow.clear c.acc (64 * t + i) r }
/-- Mantissa j of a row, signed (R28). -/
def mant (r : AccRow) (j : Nat) : Int := sval 48 (lane 48 r.m.toNat j)
/-- The row exponent, signed (R28). -/
def rowExp (r : AccRow) : Int := r.e.toInt

/-- The largest bit length of |M| over a row. -/
def maxLen (ms : List Int) : Nat := (ms.map fun i => bitlen i.natAbs).foldl max 0

/-- A row with new mantissas; HR is recomputed (R28, R29). -/
def withMants (r : AccRow) (ms : List Int) : AccRow :=
  { r with
    m := BitVec.ofNat 3072 (lanes 48 (fun j => wrap 48 (ms.getD j 0)) 64 0)
    hr := BitVec.ofNat 6 (wrap 6 (46 - (maxLen ms : Int))) }

/-- The mantissas of a row. -/
def mants (r : AccRow) : List Int := (List.range 64).map (mant r)

/-- A product or element that reaches a row: P, its scale ep, and its column (R30). -/
structure Term where
  p : Int
  ep : Int
  col : Nat
  deriving DecidableEq, Repr

/-- What one pair of operands gives: nothing (a zero), poison, or a product (R30, R187). -/
inductive TermRes where
  | zero
  | poison
  | val (p ep : Int)
  deriving DecidableEq, Repr

/-- The exact value of an operand of an 8- or 16-bit format: TSHAPE.FMT 0 DM8, 1 INT8, 2 BF16, 3 FP16 (R179). A
DM8 value is scaled to 5 bits, 16 + f′ (R30). -/
def opVal (fmt v : Nat) : FVal :=
  match fmt with
  | 0 =>
    match dm8Val v with
    | .fin n m e => let k := 5 - bitlen m; .fin n (m * 2 ^ k) (e - k)
    | x => x
  | 1 => let i := sval 8 v; .fin (decide (i < 0)) i.natAbs 0
  | 2 => funpack bf16 v
  | _ => funpack fp16 v

/-- A value as a term. -/
def termOf : FVal → TermRes
  | .nan => .poison
  | .inf _ => .poison
  | .fin n m e => if m = 0 then .zero else .val (signed n m) e

/-- The product of a valid pair (R30): a NaN or infinite operand poisons, zero included. -/
def product (fmt a b : Nat) : TermRes :=
  match termOf (opVal fmt a), termOf (opVal fmt b) with
  | .poison, _ => .poison
  | _, .poison => .poison
  | .val p e, .val q f => .val (p * q) (e + f)
  | _, _ => .zero

/-- HR of a row (R28); a mantissa that mx.wrm made longer than 46 bits leaves HR at -1 or -2, modulo 64 (R192, log 46). -/
def rowHr (r : AccRow) : Int := if 62 ≤ r.hr.toNat then (r.hr.toNat : Int) - 64 else r.hr.toNat

/-- The exponent a row has for a set V of terms: an empty row takes one (R31). -/
def startExp (r : AccRow) (v : List Term) : Int :=
  let pmax := (v.map (·.ep)).foldl max ((v.map (·.ep)).headD 0)
  if r.z then pmax + maxLen (v.map (·.p)) - 34 else rowExp r

/-- The shift k of the renormalisation that comes before the add, if there is one (R31). -/
def renormShift (r : AccRow) (v : List Term) : Option Nat :=
  let pmax := (v.map (·.ep)).foldl max ((v.map (·.ep)).headD 0)
  let len := maxLen (v.map (·.p))
  let cu : Int := 46 - rowHr r
  let inc : Int := len + pmax - startExp r v
  if 46 < max cu inc + 2 then some (max cu inc - 32).toNat else none

/-- The exponent after renormalisation would exceed 32767 (R32). -/
def expOverflow (r : AccRow) (v : List Term) : Bool :=
  if v.isEmpty then false else
  match renormShift r v with
  | some k => decide (32767 < startExp r v + k)
  | none => false

/-- One signed value shifted right by k, rounded as ACCCTL.ACCRM says (R33). -/
def accRound (rz : Bool) (k : Nat) (i : Int) : Int :=
  signed (decide (i < 0)) (roundShift (if rz then 1 else 0) false i.natAbs k)

/-- An aligned term: its addend at exponent e, and whether bits were lost (R31). -/
def alignTerm (e : Int) (t : Term) : Int × Bool :=
  let s := t.ep - e
  if 0 ≤ s then (t.p * 2 ^ s.toNat, false)
  else
    let sh := (-s).toNat
    (signed (decide (t.p < 0)) (t.p.natAbs >>> sh), t.p.natAbs % 2 ^ sh != 0)

/-- Update a row from V (R31): the row, whether it renormalised, whether bits were lost. -/
def rowUpdate (rz : Bool) (r : AccRow) (v : List Term) : AccRow × Bool × Bool :=
  if v.isEmpty then (r, false, false) else
  let e0 := startExp r v
  let k := renormShift r v
  let ms := match k with
    | some k => (mants r).map (accRound rz k)
    | none => mants r
  let e := e0 + (k.getD 0 : Nat)
  let adds := v.map fun t => (t.col, alignTerm e t)
  let ms := (List.range 64).map fun j =>
    (adds.filter fun a => a.1 == j).foldl (fun acc a => acc + a.2.1) (ms.getD j 0)
  (withMants { r with e := BitVec.ofInt 16 e, z := false } ms, k.isSome, adds.any fun a => a.2.2)

/-- A counter that stops at all ones grows by n (R28). -/
def satAdd32 (c : BitVec 32) (n : Nat) : BitVec 32 := BitVec.ofNat 32 (min (2 ^ 32 - 1) (c.toNat + n))

/-- RCNT and TCNT of tile t grow (R31). -/
def bumpCounts (c : Cell) (t rn lost : Nat) : Cell :=
  { c with
    rcnt := smSet 0 c.rcnt t (satAdd32 (smGet 0 c.rcnt t) rn)
    tcnt := smSet 0 c.tcnt t (satAdd32 (smGet 0 c.tcnt t) lost) }

/-- Update row i of tile t: poison, terms, counters (R31, R187). -/
def beatRow (rz : Bool) (c : Cell) (t i : Nat) (poison : Bool) (v : List Term) : Cell :=
  let r := accRow c t i
  let r := { r with pf := r.pf || poison }
  let u := rowUpdate rz r v
  bumpCounts (accPut c t i u.1) t (b2n u.2.1) (b2n u.2.2)

/-! ### Tiles and slices -/

/-- Tile register t of a context. -/
def tileOf (c : Ctx) (t : Nat) : Tile := smGet 0 c.tiles t
/-- Fields of TSHAPE t (R179). -/
def tCur (c : Ctx) (t : Nat) : Nat := bits (creg c (0x140 + t)).toNat 32 8
@[inherit_doc tCur] def tKlen (c : Ctx) (t : Nat) : Nat := bits (creg c (0x140 + t)).toNat 24 8
@[inherit_doc tCur] def tExt (c : Ctx) (t : Nat) : Nat := bits (creg c (0x140 + t)).toNat 16 7
@[inherit_doc tCur] def tFmt (c : Ctx) (t : Nat) : Nat := bits (creg c (0x140 + t)).toNat 0 3
/-- Move the cursor of tile t. -/
def tSetCur (c : Ctx) (t v : Nat) : Ctx :=
  cregPut c (0x140 + t) (BitVec.ofNat 64 (setBits (creg c (0x140 + t)).toNat 32 8 v))

/-- The KLEN limit of a format (R179). -/
def kLimit (fmt : Nat) : Nat := if fmt < 2 then 128 else 64
/-- The element width of a format. -/
def tWidth (fmt : Nat) : Nat := if fmt < 2 then 8 else 16

/-- A tile may be pushed (R181). -/
def tileOk (c : Ctx) (t : Nat) : Bool :=
  decide (tFmt c t < 4) && decide (0 < tExt c t) && decide (tExt c t ≤ 64) && decide (0 < tKlen c t) &&
  decide (tKlen c t ≤ kLimit (tFmt c t))

/-- Element (line, e) of width w of a tile value (R180). -/
def tileElem (v w line e : Nat) : Nat := bits v (1024 * line + w * e) w

/-- A operand and B operand elements (R180). -/
def aElem (v fmt i ca : Nat) : Nat := tileElem v (tWidth fmt) i ca
@[inherit_doc aElem] def bElem (v fmt rb j : Nat) : Nat :=
  if fmt < 2 then tileElem v 8 (rb / 2) (2 * j + rb % 2) else tileElem v 16 rb j

/-- One half of a push (R182): cursors and the slice's operands. DESIGN CHOICE (log 84): the operand bytes of an invalid half,
and those of B where rb lies beyond the tile's lines, are 0; the valid tags are clear there. -/
def pushHalf (c : Ctx) (ta tb h : Nat) (s : Slice) : Ctx × Slice :=
  let fmt := tFmt c ta
  let w := tWidth fmt
  let ca := tCur c ta
  if tKlen c ta ≤ ca then (c, s) else
  let c := tSetCur c ta (ca + 1)
  let again := 1 ≤ ca && ca ≤ 63 && 1 ≤ tCur c tb && bit (creg c (0x150 + ta)).toNat ca
  let rb := if again then tCur c tb - 1 else tCur c tb
  let inB := decide (rb < tKlen c tb)
  let extA := tExt c ta
  let extB := tExt c tb
  let va := (tileOf c ta).toNat
  let vb := (tileOf c tb).toNat
  let c := if again || !inB then c else tSetCur c tb (rb + 1)
  (c, { s with
    a := s.a ||| BitVec.ofNat 1024 (lanes w (fun i => aElem va fmt i ca) 64 0 * 2 ^ (512 * h))
    b := s.b ||| BitVec.ofNat 1024 (lanes w (fun j => bElem vb fmt rb j) 64 0 * 2 ^ (512 * h))
    av := s.av ||| BitVec.ofNat 128 (bitsOf (fun i => decide (i < extA)) 64 0 * 2 ^ (64 * h))
    bv := s.bv ||| BitVec.ofNat 128 (bitsOf (fun j => decide (j < extB) && inB) 64 0 * 2 ^ (64 * h)) })

/-- The slice a push creates, with the moved cursors (R182, R183): two k of an 8-bit pair of tiles, or one of a 16-bit pair, so that 128 or
64 k take 64 beats (R193). -/
def pushSlice (c : Ctx) (ta tb acc : Nat) : Ctx × Slice :=
  let fmt := tFmt c ta
  let s0 : Slice := ⟨0, 0, 0, 0, BitVec.ofNat 3 acc, BitVec.ofNat 3 fmt, 0⟩
  let (c, s) := pushHalf c ta tb 0 s0
  if fmt < 2 then pushHalf c ta tb 1 s else (c, s)

/-- Every slice ages by one; those beyond 127 leave (R183). -/
def ageSlices (l : List Slice) : List Slice :=
  (l.map fun u => { u with age := u.age + 1 }).filter fun u => u.age ≤ 127

/-- What slice u gives row i in half h (R183): none where the pair is not valid. Row 63 meets column 63 at age 127, 126 advancing beats after
the beat of the push (R193). -/
def sliceTerm (u : Slice) (h i : Nat) : Option (TermRes × Nat) :=
  if i + 1 ≤ u.age ∧ u.age - 1 - i ≤ 63 then
    let j := u.age - 1 - i
    let fmt := u.fmt.toNat
    let w := tWidth fmt
    if bit u.av.toNat (64 * h + i) && bit u.bv.toNat (64 * h + j) then
      some (product fmt (bits u.a.toNat (512 * h + w * i) w) (bits u.b.toNat (512 * h + w * j) w), j)
    else none
  else none

/-- All that reaches row i of tile t in a beat (R183). -/
def rowTerms (l : List Slice) (t i : Nat) : List (TermRes × Nat) :=
  (l.filter fun u => u.tile.toNat == t).flatMap fun u => [0, 1].filterMap fun h => sliceTerm u h i

/-- The set V of R31. -/
def termsV (l : List (TermRes × Nat)) : List Term :=
  l.filterMap fun x => match x.1 with
    | .val p e => some ⟨p, e, x.2⟩
    | _ => none

/-- A poisoning pair is among them (R187). -/
def hasPoison (l : List (TermRes × Nat)) : Bool := l.any fun x => x.1 == .poison

/-- All (tile, row) pairs in ascending order. -/
def allRows : List (Nat × Nat) := (List.range 512).map fun k => (k / 64, k % 64)

/-- The lowest row whose exponent would overflow in a beat (R186). -/
def beatFails (c : Cell) (l : List Slice) : Option (Nat × Nat) :=
  allRows.find? fun x => expOverflow (accRow c x.1 x.2) (termsV (rowTerms l x.1 x.2))

/-- Accumulate one beat into every row (R183, R185). -/
def beatRows (rz : Bool) (l : List Slice) (c : Cell) : Cell :=
  allRows.foldl (fun c x =>
    let ts := rowTerms l x.1 x.2
    if ts.isEmpty then c else beatRow rz c x.1 x.2 (hasPoison ts) (termsV ts)) c

/-- ACCCTL.ACCRM (R33). -/
def accRz (c : Ctx) : Bool := bit (creg c 0x105).toNat 0

/-- ACCEXP of the X slot (R186, R213). -/
def raiseAccExp (st : State) (t i : Nat) : State := raise st 0x0A 9 false (BitVec.ofNat 64 (t + i * 2 ^ 8)) 0

/-- The context after the cursors of a push have moved; the cursor of a tile whose TSHAPE a move of the bundle writes does not
move, whether or not that move lands (R182). -/
def keepMoved (c c' : Ctx) (ts : List Nat) : Ctx :=
  (ts.filter fun t => c.flights.any fun f => f.tgt == .creg (0x140 + t) && f.cnt == 1 && f.slot != 15).foldl
    (fun d t => cregPut d (0x140 + t) (creg c (0x140 + t))) c'

/-- An advancing command (R183): push creates a slice of tiles ta and tb, acc accumulates. -/
def advance (st : State) (push : Option (Nat × Nat × Nat)) (acc : Bool) : State :=
  let c := cur st
  let bad := match push with
    | some (ta, tb, _) => !(tileOk c ta && tileOk c tb && tFmt c ta == tFmt c tb)
    | none => false
  if bad then raiseIll st 9 else
  let cell := curCell st
  let (c', new) := match push with
    | some (ta, tb, a) => let r := pushSlice c ta tb a; (keepMoved c r.1 [ta, tb], [r.2])
    | none => (c, [])
  let l := ageSlices (cell.slices ++ new)
  match (if acc then beatFails cell l else none) with
  | some (t, i) => raiseAccExp st t i
  | none =>
    let st := modCur st fun _ => c'
    modCurCell st fun x =>
      let x := { x with slices := l }
      if acc then beatRows (accRz c) l x else x

/-- The X word acts under the guard of w0 when S = 1 (R177). -/
def xGuard (st : State) (f : State → State) : State := if stageOn st then f st else st

/-- The latch SRC names (R175). -/
def xSrcLatch (n : Nat) : VLatch :=
  match n with
  | 0 => .lnkn
  | 1 => .lnke
  | 2 => .lnks
  | 3 => .lnkw
  | 4 => .lsuvr
  | 5 => .mxr
  | _ => .xfr

/-- Its value. -/
def xSrc (c : Ctx) (n : Nat) : Vec := vGet c (xSrcLatch n)

/-- Lane width and first column of a drain or merge format (R188). -/
def drainWidth (fmt : Nat) : Nat := match fmt with | 0 | 5 => 32 | 1 | 2 => 16 | _ => 8
/-- Columns of a drain or merge. -/
def drainCols (fmt : Nat) : Nat := if drainWidth fmt = 32 then 32 else 64

/-- The canonical NaN a poisoned row drains as (R35). -/
def drainNaN (fmt : Nat) : Nat := match fmt with | 0 => cnan fp32 | 1 => cnan bf16 | 2 => cnan fp16 | _ => 0

/-- The body of mx.drain (R35, R188). DESIGN CHOICE (log 86): the record of a poisoned drain, which is appended in c + 3, is held until
then as counts with clear masks. -/
def drainBody (st : State) (a r f h : Nat) : State :=
  if h = 1 ∧ drainWidth f ≠ 32 then raiseIll st 9 else
  let row := accRow (curCell st) a r
  let w := drainWidth f
  let v := lanes w (fun k =>
    if row.pf then drainNaN f
    else if row.z then 0
    else drainElem f (mant row (32 * h + k)) (rowExp row)) (drainCols f) 0
  let st := vresult st .mxr 4 (BitVec.ofNat 1024 v)
  if row.pf ∧ 3 ≤ f then
    let rcd := excRecord (0x04 * 2 ^ 24 + r * 2 ^ 16 + a) 0x03 9 0 st.cyc.cell + 0xFF * 2 ^ 40
    launch st { tgt := .counts, val := BitVec.ofNat 1024 (rcd * 2 ^ 256), cnt := 4, slot := 15, aux := 1 }
  else st

/-- The value of a merged element (R189). -/
def mergeVal (fmt v : Nat) : TermRes :=
  match fmt with
  | 0 => termOf (funpack fp32 v)
  | 1 => termOf (opVal 2 v)
  | 2 => termOf (opVal 3 v)
  | 3 => termOf (opVal 0 v)
  | 4 => termOf (opVal 1 v)
  | _ => let i := sval 32 v; if i = 0 then .zero else .val i 0

/-- The body of mx.mrg (R189). -/
def mergeBody (st : State) (a r f h c : Nat) : State :=
  if h = 1 ∧ drainWidth f ≠ 32 then raiseIll st 9 else
  let v := (xSrc (cur st) c).toNat
  let ts := (List.range (drainCols f)).map fun k => (mergeVal f (lane (drainWidth f) v k), 32 * h + k)
  let row := accRow (curCell st) a r
  if expOverflow row (termsV ts) then raiseAccExp st a r
  else modCurCell st fun x => beatRow (accRz (cur st)) x a r (hasPoison ts) (termsV ts)

/-- mx.norm on one row (R34). -/
def normRow (r : AccRow) : AccRow :=
  let ms := mants r
  if ms.all (· == 0) then { r with z := true, e := 0 }
  else if r.z then r
  else
    let s := max 0 (rowHr r - 12)
    let s := min s (rowExp r + 32768)
    withMants { r with e := BitVec.ofInt 16 (rowExp r - s) } (ms.map (· * 2 ^ s.toNat))

/-- Rows a command names: one, or the whole tile (R176). -/
def namedRows (r w : Nat) : List Nat := if w = 1 then List.range 64 else [r]

/-- Marks of a tile's words go that a write of mantissas of a row, or of the whole tile, covers (R379). -/
def unmarkAcc (st : State) (a : Nat) (p : Nat → Bool) : State :=
  unmarkAt st st.cyc.cell fun x => x.1 == 4 && x.2.1 == a && p x.2.2

/-- The body of mx.clr (R190). -/
def clearBody (st : State) (a r w : Nat) : State :=
  let st := unmarkAcc st a fun k => w == 1 || k / 48 == r
  modCurCell st fun x =>
    let x := (namedRows r w).foldl (fun x i => accPut x a i AccRow.clear) x
    if w = 1 then { x with rcnt := smSet 0 x.rcnt a 0, tcnt := smSet 0 x.tcnt a 0 } else x

/-- The body of mx.norm (R34, R190). -/
def normBody (st : State) (a r w : Nat) : State :=
  modCurCell st fun x => (namedRows r w).foldl (fun x i => accPut x a i (normRow (accRow x a i))) x

/-- A row record in the layout of R28. -/
def rowRecord (r : AccRow) : Nat := b2n r.z + b2n r.pf * 2 + r.hr.toNat * 2 ^ 2 + r.e.toNat * 2 ^ 8

/-- The body of mx.rdm (R191). -/
def rdmBody (st : State) (a r q : Nat) : State :=
  let row := accRow (curCell st) a r
  vresult st .mxr 4 (mkVec 64 fun k => wrap 64 (mant row (16 * q + k)))

/-- The body of mx.rdx (R191). -/
def rdxBody (st : State) (a q : Nat) : State :=
  let x := curCell st
  vresult st .mxr 4 (if q < 2 then mkVec 32 fun k => rowRecord (accRow x a (32 * q + k))
    else BitVec.ofNat 1024 ((smGet 0 x.rcnt a).toNat + (smGet 0 x.tcnt a).toNat * 2 ^ 32))

/-- The body of mx.wrm (R192). -/
def wrmBody (st : State) (a r q c : Nat) : State :=
  let v := (xSrc (cur st) c).toNat
  modCurCell (unmarkAcc st a fun k => k / 12 == 4 * r + q) fun x =>
    let row := accRow x a r
    accPut x a r (withMants row ((List.range 64).map fun j =>
      if j / 16 = q then sval 48 (lane 64 v (j % 16)) else mant row j))

/-- The body of mx.wrx (R192). -/
def wrxBody (st : State) (a q c : Nat) : State :=
  let v := (xSrc (cur st) c).toNat
  modCurCell (unmarkAcc st a fun k => decide (2 ≤ q) && k == 3104) fun x =>
    if q < 2 then
      (List.range 32).foldl (fun x k =>
        let i := 32 * q + k
        let w := lane 32 v k
        let row := accRow x a i
        accPut x a i (withMants { row with
          e := BitVec.ofNat 16 (bits w 8 16), pf := bit w 1, z := row.z && bit w 0 } (mants row))) x
    else { x with
      rcnt := smSet 0 x.rcnt a (BitVec.ofNat 32 (lane 32 v 0))
      tcnt := smSet 0 x.tcnt a (BitVec.ofNat 32 (lane 32 v 1)) }

/-- MX_PUSH (R183): Injects a slice and advances the array. -/
def execMxPush (a : BitVec 3) (t : BitVec 4) (b : BitVec 4) (st : State) : Host.Outcome State Fault Refusal :=
  .next (xGuard st fun st => advance st (some (t.toNat, b.toNat, a.toNat)) false)

/-- MX_SHIFT (R183): Advances the array without accumulating. -/
def execMxShift  (st : State) : Host.Outcome State Fault Refusal :=
  .next (xGuard st fun st => advance st none false)

/-- MX_ACC (R183): Advances the array and accumulates products. -/
def execMxAcc  (st : State) : Host.Outcome State Fault Refusal :=
  .next (xGuard st fun st => advance st none true)

/-- MX_PACC (R183): Injects a slice, advances the array and accumulates. -/
def execMxPacc (a : BitVec 3) (t : BitVec 4) (b : BitVec 4) (st : State) : Host.Outcome State Fault Refusal :=
  .next (xGuard st fun st => advance st (some (t.toNat, b.toNat, a.toNat)) true)

/-- MX_DRAIN (R188): Converts an accumulator row into mx.r. -/
def execMxDrain (a : BitVec 3) (r : BitVec 6) (f : BitVec 3) (h : BitVec 1) (st : State) : Host.Outcome State Fault Refusal :=
  .next (xGuard st fun st => drainBody st a.toNat r.toNat f.toNat h.toNat)

/-- MX_MRG (R189): Merges a vector row into an accumulator row. -/
def execMxMrg (a : BitVec 3) (r : BitVec 6) (f : BitVec 3) (h : BitVec 1) (c : BitVec 3) (st : State) : Host.Outcome State Fault Refusal :=
  .next (xGuard st fun st => mergeBody st a.toNat r.toNat f.toNat h.toNat c.toNat)

/-- MX_CLR (R190): Clears a row, or the whole tile. -/
def execMxClr (a : BitVec 3) (r : BitVec 6) (w : BitVec 1) (st : State) : Host.Outcome State Fault Refusal :=
  .next (xGuard st fun st => clearBody st a.toNat r.toNat w.toNat)

/-- MX_NORM (R34): Normalises a row, or every row. -/
def execMxNorm (a : BitVec 3) (r : BitVec 6) (w : BitVec 1) (st : State) : Host.Outcome State Fault Refusal :=
  .next (xGuard st fun st => normBody st a.toNat r.toNat w.toNat)

/-- MX_RDM (R191): Reads a quarter of a row's mantissas into mx.r. -/
def execMxRdm (a : BitVec 3) (r : BitVec 6) (q : BitVec 2) (st : State) : Host.Outcome State Fault Refusal :=
  .next (xGuard st fun st => rdmBody st a.toNat r.toNat q.toNat)

/-- MX_RDX (R191): Reads row records or counters into mx.r. -/
def execMxRdx (a : BitVec 3) (q : BitVec 2) (st : State) : Host.Outcome State Fault Refusal :=
  .next (xGuard st fun st => rdxBody st a.toNat q.toNat)

/-- MX_WRM (R192): Writes a quarter of a row's mantissas. -/
def execMxWrm (a : BitVec 3) (r : BitVec 6) (q : BitVec 2) (c : BitVec 3) (st : State) : Host.Outcome State Fault Refusal :=
  .next (xGuard st fun st => wrmBody st a.toNat r.toNat q.toNat c.toNat)

/-- MX_WRX (R192): Writes row records or counters. -/
def execMxWrx (a : BitVec 3) (q : BitVec 2) (c : BitVec 3) (st : State) : Host.Outcome State Fault Refusal :=
  .next (xGuard st fun st => wrxBody st a.toNat q.toNat c.toNat)

end Sys2Proof.Machine
end

