-- ==== Sys2Proof/Machine/Lsu.lean ====
section
/-!
DEFINITION. The lsu operations (R137 to R163): checks, scratchpad and memory accesses, copies, atomics, release,
acquire and fence, buffer advances and tile transfers; watchpoints (R301) and the replay stream (R385).
-/

namespace Sys2Proof.Machine

/-- INFO1 of a trap from lsu or ce (R213). -/
def accessInfo (h : Nat) (sp rd wr : Bool) : Word :=
  BitVec.ofNat 64 (h + b2n sp * 2 ^ 8 + b2n rd * 2 ^ 16 + b2n wr * 2 ^ 17)

/-- A physical handle. -/
def handleOf (c : Ctx) (h : Nat) : Handle := smGet Handle.invalid c.ph h

/-- Bytes of a page (R165). -/
def pageSize (h : Handle) : Nat := match h.sz.toNat with | 0 => 2 ^ 16 | 1 => 2 ^ 21 | _ => 2 ^ 30

/-- The slice selector of a handle: 0 natural, k + 1 affinity slice k (R334, R335). -/
def handleSlice (h : Handle) : Nat := if h.slaen then h.sla.toNat + 1 else 0

/-- H of lsu.h (R138). -/
def lsuH (st : State) : Nat := bits (operand st .lsuh).toNat 0 4
/-- The scope of lsu.h (R138). -/
def lsuScope (st : State) : Nat := bits (operand st .lsuh).toNat 4 3

/-- Checks 2 and 3 of R142 on a scratchpad access under R141: the trap cause, or none. -/
def spCause (off len align : Nat) (idle : Bool) : Option Nat :=
  if 0x100000 < off + len && !(idle && decide (0x100000 ≤ off) && decide (off + len ≤ 0x110000)) then some 4
  else if off % align ≠ 0 then some 0x0E
  else none

/-- The checks of R142 on a memory access: the trap cause, or none. -/
def memCause (h : Handle) (off len align : Nat) (rd wr : Bool) : Option Nat :=
  if !h.v then some 3
  else if pageSize h < off + len then some 4
  else if off % align ≠ 0 then some 0x0E
  else if rd && !h.pr || wr && !h.pw then some 5
  else none

/-- A watchpoint matches an access (R301). -/
def wpMatch (w : Word) (sp : Bool) (h off len : Nat) (rd wr : Bool) : Bool :=
  let w := w.toNat
  let l := 2 ^ bits w 44 6
  let a := bits w 0 40 / l * l
  bit w 63 && (rd && bit w 62 || wr && bit w 61) && bit w 60 == sp && (sp || bits w 56 4 == h) &&
    decide (a < off + len) && decide (off < a + l)

/-- Note the first watchpoint of the cell that an access of the user context matches (R301). -/
def watch (st : State) (sp : Bool) (h off len : Nat) (rd wr : Bool) : State :=
  let d := (curCell st).dbg
  let hit := leastFrom (fun i => wpMatch (smGet 0 d.wp i) sp h off len rd wr) 2 0
  if st.cyc.fw || st.cyc.watch ≠ 0 || hit = 2 then st else { st with cyc := { st.cyc with watch := hit + 1 } }

/-- A scratchpad access of slot M acts when its checks pass; else it traps and starts nothing (R141, R143). -/
def withSp (st : State) (off len align : Nat) (idle rd wr : Bool) (f : State → State) : State :=
  match spCause off len align idle with
  | some c => raise st c 8 false (BitVec.ofNat 64 off) (accessInfo 0 true rd wr)
  | none => f (watch st true 0 off len rd wr)

/-- A memory access of slot M acts when its checks pass; else it traps and starts nothing (R142, R143). -/
def withMem (st : State) (off len : Nat) (rd wr : Bool) (f : State → Handle → State) : State :=
  let h := handleOf (cur st) (lsuH st)
  match memCause h off len len rd wr with
  | some c => raise st c 8 false (BitVec.ofNat 64 off) (accessInfo (lsuH st) false rd wr)
  | none => f (watch st false (lsuH st) off len rd wr) h

/-- The indexed offset (R140). -/
def indexed (st : State) (t : Word) : Nat := (operand st .lsuo + t).toNat
/-- The streamed offset (R140). -/
def streamed (st : State) : Nat := (operand st .lsuo).toNat

/-- The increment of a streamed form (R140). -/
def stream (st : State) : State :=
  let inc := sext64 32 (bits (operand st .lsuh).toNat 32 32)
  modCur st fun c => sPut c .lsuo (sGet c .lsuo + inc)

/-- A result in flight that waits to be filled in under an identifier. -/
def resultFor (st : State) (l : Target) (lat : Nat) (w : Wait) : State :=
  launch st { tgt := l, val := 0, cnt := lat, slot := 15, wait := w, id := st.seq }

/-- A bank access of slot M (R145). -/
def bankOp (st : State) (b : BankOp) : State := modCur st fun c => { c with bankOps := c.bankOps ++ [b] }

/-! ### The replay stream -/

/-- The other partition of the replay check of a cell's die, when it pairs the cell's own (R385). -/
def replayOther (st : State) (n : Nat) : Option (BitVec 16) :=
  let r := (getDie st (dieOf n)).rpctl.toNat
  let own := seqOwner (getCell st n)
  let p : BitVec 16 := BitVec.ofNat 16 (bits r 0 16)
  let q : BitVec 16 := BitVec.ofNat 16 (bits r 16 16)
  if !bit r 63 then none else if own = p then some q else if own = q then some p else none

/-- The kernel descriptor address of a task. -/
def kdescOf (st : State) (t : TaskRef) : Word :=
  match st.kernels.find? fun x => x.kid == t.kid with
  | some k => k.kdesc
  | none => 0

/-- The cell that runs the partner of a task for the replay check (R385): same kernel descriptor, coordinate, rank. -/
def replayPartner (st : State) (n : Nat) (o : BitVec 16) (t : TaskRef) : Option Nat :=
  (listed st).find? fun m => m != n && seqOwner (getCell st m) == o &&
    (match (getCell st m).task with
     | some u => kdescOf st u == kdescOf st t && u.tx == t.tx && u.ty == t.ty && u.rank == t.rank
     | none => false)

/-- The pair of partitions that RPCTL of a cell's die names (R385). -/
def replayParts (st : State) (n : Nat) : BitVec 32 := (getDie st (dieOf n)).rpctl.truncate 32

/-- The pair that the task of a cell is at: the first of its runs that its partition has not ended (R385). -/
def replayIs (st : State) (n : Nat) (t : TaskRef) (r : ReplayPair) : Bool :=
  !r.ends.contains (seqOwner (getCell st n)) && r.die == dieOf n && r.parts == replayParts st n && r.kdesc == kdescOf st t && r.tx == t.tx && r.ty == t.ty && r.rank == t.rank

/-- Where two elements differ: FIELD of R386. -/
def replayField (a b : StoreElt) : Option Nat :=
  if a.va ≠ b.va then some 0 else if a.size ≠ b.size then some 1 else if a.val ≠ b.val then some 2
  else if a.code ≠ b.code then some 3 else none

/-- Record a difference (R386), and freeze both groups when STOP is set (R385). -/
def replayDiff (st : State) (n : Nat) (m : Option Nat) (t : TaskRef) (idx field : Nat) : State :=
  let d := getDie st (dieOf n)
  let st := if bit d.rpstat.toNat 63 then st else
    modDie st (dieOf n) fun d => { d with
      rpstat := BitVec.ofNat 64 (2 ^ 63 + field * 2 ^ 60 + t.rank % 16 * 2 ^ 56 + idx % 2 ^ 24 * 2 ^ 32 +
        t.ty % 2 ^ 16 * 2 ^ 16 + t.tx % 2 ^ 16) }
  if bit d.rpctl.toNat 62 then
    let st := holdCells st 8 n (lockstep st n)
    match m with
    | some m => holdCells st 8 n (lockstep st m)
    | none => st
  else st

/-- Add an element to the store stream of a task and compare it with its partner's (R385). -/
def replayPush (st : State) (e : StoreElt) : State :=
  let n := st.cyc.cell
  if st.cyc.fw then st else
  match replayOther st n, (getCell st n).task with
  | some o, some t =>
    let own := seqOwner (getCell st n)
    match st.replay.find? (replayIs st n t) with
    | none => { st with replay := st.replay ++ [⟨dieOf n, replayParts st n, kdescOf st t, t.tx, t.ty, t.rank, own, [e], 0, [own], []⟩] }
    | some r =>
      match (if r.ahead = own then [] else r.elems) with
      | [] =>
        let r' := { r with ahead := own, elems := (if r.ahead = own then r.elems else []) ++ [e] }
        { st with replay := updFirst (replayIs st n t) (fun _ => r') st.replay }
      | u :: us =>
        let st := { st with replay := updFirst (replayIs st n t) (fun _ => { r with elems := us, idx := r.idx + 1 }) st.replay }
        match replayField e u with
        | some f => replayDiff st n (replayPartner st n o t) t r.idx f
        | none => st
  | _, _ => st

/-- A partition starts a task of the replay check on a cell: its next run of the task, whose elements meet those of its partner's run of
the same number (R385). A pair that both have ended goes. -/
def replayStart (st : State) (n : Nat) (t : TaskRef) : State :=
  let own := seqOwner (getCell st n)
  if (replayOther st n).isNone then st else
  let key := replayIs st n t
  let st := match st.replay.find? key with
    | some r =>
      if r.begun.contains own then { st with replay := updFirst key (fun r => { r with ends := own :: r.ends }) st.replay } else st
    | none => st
  let rs := st.replay.filter fun r => !(r.ends.contains (BitVec.ofNat 16 (bits r.parts.toNat 0 16)) &&
    r.ends.contains (BitVec.ofNat 16 (bits r.parts.toNat 16 16)))
  if rs.any key then { st with replay := updFirst key (fun r => { r with begun := own :: r.begun }) rs }
  else { st with replay := rs ++ [⟨dieOf n, replayParts st n, kdescOf st t, t.tx, t.ty, t.rank, own, [], 0, [own], []⟩] }

/-- The comparator holds 256 unmatched elements of the task (R385). -/
def replayFull (st : State) (n : Nat) : Bool :=
  match replayOther st n, (getCell st n).task with
  | some _, some t => st.replay.any fun r => replayIs st n t r && r.ahead == seqOwner (getCell st n) && decide (256 ≤ r.elems.length)
  | _, _ => false

/-! ### Loads and stores -/

/-- A scratchpad load (R144, R145): the banks are read in c + 1, the result lands at L = 6. -/
def spLoad (st : State) (off len : Nat) (sg : Bool) (l : Target) : State :=
  withSp st off len len true true false fun st =>
    let st := fresh st
    bankOp (resultFor st l 6 .none) { cnt := 2, code := 0, act := .load st.seq sg, off := off, len := len }

/-- A scratchpad store (R144, R145): the banks are written in c + 3. -/
def spStore (st : State) (len : Nat) (v : Vec) : State :=
  withSp st (streamed st) len len true false true fun st =>
    bankOp (stream st) { cnt := 4, code := 1, act := .store, off := streamed st, len := len, val := v }

/-- The access that the bundle under way makes through a handle. -/
def origin (st : State) (h : Handle) : Origin := ⟨st.cyc.fw, st.cyc.addr, h.vpage, h.gpage, pageSize h⟩

/-- The lines of L1 become these: one without words leaves, and with a word its mark of structure 9 (R249, R381; log 22). -/
def l1Keep (ls : SMap L1Line) (c : Cell) : Cell :=
  let ls := ls.filter fun e => e.2.words != []
  { c with
    l1 := ls
    poison := c.poison.filter fun p =>
      p.1 != 9 || ls.any fun e => e.1 == p.2.1 && e.2.words.any fun w => w.1 / 2 == p.2.2 && w.2.poison }

/-- Raw backing bytes are uncacheable: an access to them finds no clean word of their lines in L1 (R276). -/
def uncache (st : State) (h : Handle) (pa len : Nat) (c : Cell) : Cell :=
  let hit (line : Nat) : Bool := !h.host && (linesOf pa len).contains line && codecBacking st (line * 128)
  if c.l1.any (fun e => hit e.1) then
    l1Keep (c.l1.map fun e => if hit e.1 then (e.1, { e.2 with words := e.2.words.filter fun w => w.2.dirty }) else e) c
  else c

/-- An RC or UO load joins the load queue, an SO load the SO queue (R144, R147, R258). -/
def memLoad (st : State) (off len : Nat) (sg : Bool) (l : Target) : State :=
  withMem st off len true false fun st h =>
    let st := fresh st
    let pa := h.ppage.toNat + off
    let st := resultFor st l 12 (.load st.seq)
    if h.kind = 0 then
      modCurCell st fun c => { c with
        soq := some ⟨st.seq, pa, len, false, sg, 0, handleSlice h, h.host, origin st h, false⟩ }
    else
      modCurCell st fun c => { uncache st h pa len c with
        loadq := c.loadq ++ [.load st.seq (keyOf h.host pa) len sg h.kind (handleSlice h) h.host (origin st h)] }

/-- An RC or UO store joins the store buffer, an SO store the SO queue (R144, R147, R258). -/
def memStore (st : State) (code len : Nat) (v : Vec) (h : Handle) (strict : Bool) : State :=
  let off := streamed st
  let st := fresh (stream st)
  let pa := h.ppage.toNat + off
  let st := replayPush st ⟨code, BitVec.ofNat 64 (h.vpage.toNat + off), len, BitVec.ofNat 1024 (v.toNat % 2 ^ (8 * len))⟩
  if h.kind = 0 then
    modCurCell st fun c => { c with
      soq := some ⟨st.seq, pa, len, true, false, v, handleSlice h, h.host, origin st h, false⟩ }
  else
    modCurCell st fun c => { uncache st h pa len c with
      storeb := c.storeb ++ [.store st.seq (keyOf h.host pa) len v h.kind (handleSlice h) h.host strict (origin st h)] }

/-- A release marker joins the store buffer; one of scope cell completes at once (R252, R258). fw: it is not the user task's. -/
def pushMarker (st : State) (n scope : Nat) (fence fw : Bool) : State :=
  if scope = 0 then st else
  let st := fresh st
  modCell st n fun c => { c with
    storeb := c.storeb ++ [.mark st.seq]
    markers := c.markers ++ [⟨st.seq, scope, fence, none, st.seq, fw⟩] }

/-- An acquire joins the load queue (R258); mark is the number of its fence marker plus one, or 0. -/
def pushAcquire (st : State) (n scope mark : Nat) : State :=
  let st := fresh st
  modCell st n fun c => { c with loadq := c.loadq ++ [.acq st.seq scope mark st.cyc.fw] }

/-- A scope of the trigger, or ILLMOVE (R139). -/
def withScope (st : State) (sc : Nat) (f : State → State) : State := if 4 < sc then raiseIll st 8 else f st

/-- lsu.mld.aq (R151): the load, then an acquire of lsu.h.SCOPE. DESIGN CHOICE (log 95): the scope is checked before the handle. -/
def memLoadAq (st : State) (t : Word) (len : Nat) : State :=
  withScope st (lsuScope st) fun st =>
    let n := st.cyc.cell
    let ok := memCause (handleOf (cur st) (lsuH st)) (indexed st t) len len true false
    let st' := memLoad st (indexed st t) len false (.slat .lsur)
    if ok.isNone then pushAcquire st' n (lsuScope st) 0 else st'

/-- lsu.mst.rl (R151, R258): a release of lsu.h.SCOPE, then the store, which drains only after it is complete. DESIGN CHOICE
(log 95): the scope is checked before the handle. -/
def memStoreRl (st : State) (code len : Nat) (v : Vec) : State :=
  withScope st (lsuScope st) fun st =>
    withMem st (streamed st) len false true fun st h =>
      memStore (pushMarker st st.cyc.cell (lsuScope st) false st.cyc.fw) code len v h true

/-! ### Atomics -/

/-- Bytes of a type of lsu.aop (R153). -/
def aopSize (ty : Nat) : Nat := if ty = 1 ∨ ty = 3 ∨ ty = 7 then 8 else 4

/-- The type and the operation are legal together (R154). -/
def aopOk (aop : Nat) : Bool :=
  let ty := bits aop 0 4
  let op := bits aop 4 4
  decide (ty < 8) && decide (op < 8) && (!(op == 2 || op == 3 || op == 4 || op == 7) || decide (ty < 4))

/-- The floating-point operation of an atomic on one lane (R154). -/
def aopFloat (f : Fmt) (op x a : Nat) : Nat :=
  match op with
  | 1 => fadd f x a
  | 5 => fminmax f false x a
  | _ => fminmax f true x a

/-- The new value of one element of w bits and whether it was written (R154). -/
def aopElem (op ty x a k : Nat) : Nat × Bool :=
  let w := 8 * aopSize ty
  let x := x % 2 ^ w
  let a := a % 2 ^ w
  let k := k % 2 ^ w
  if op = 0 then (a, true)
  else if op = 7 then (if x = k then (a, true) else (x, false))
  else if ty < 4 then
    let sg : Bool := decide (ty < 2)
    let lt (p q : Nat) : Bool := if sg then decide (sval w p < sval w q) else decide (p < q)
    (match op with
     | 1 => (x + a) % 2 ^ w
     | 2 => x &&& a
     | 3 => x ||| a
     | 4 => x ^^^ a
     | 5 => if lt a x then a else x
     | _ => if lt x a then a else x, true)
  else if ty = 4 ∨ ty = 5 then
    let f := if ty = 4 then fp16 else bf16
    (lanes 16 (fun i => aopFloat f op (lane 16 x i) (lane 16 a i)) 2 0, true)
  else (aopFloat (if ty = 6 then fp32 else fp64) op x a, true)

/-- An atomic on n elements (R152, R154): the new bytes. -/
def aopVec (aop n x a k : Nat) : Nat :=
  let ty := bits aop 0 4
  let w := 8 * aopSize ty
  lanes w (fun i => (aopElem (bits aop 4 4) ty (lane w x i) (lane w a i) (lane w k i)).1) n 0

/-- lsu.r of an old value (R152). -/
def aopOld (aop v : Nat) : Word :=
  if bits aop 0 4 = 0 then sext64 32 v else BitVec.ofNat 64 (v % 2 ^ (8 * aopSize (bits aop 0 4)))

/-- A scratchpad atomic (R152, R155): the bank is held from c + 1 to c + 3. -/
def spAtomic (st : State) (off len : Nat) (vec : Bool) (a k : BitVec 256) : State :=
  let aop := operand st .lsuaop
  withSp st off len len false true true fun st =>
    let st := fresh (if vec then stream st else st)
    let st := resultFor st (if vec then .vlat .lsuvr else .slat .lsur) 6 .none
    let st := bankOp st { cnt := 2, code := 2, act := .amoRead st.seq vec aop a k, off := off, len := len, grp := st.seq }
    let st := bankOp st { cnt := 3, code := 2, act := .amoHold, off := off, len := len, grp := st.seq }
    bankOp st { cnt := 4, code := 2, act := .amoWrite, off := off, len := len, grp := st.seq }

/-- The return buffer of lsu.aop (R153). -/
def aopRet (aop : Nat) : Bool := bit aop 15
@[inherit_doc aopRet] def aopRh (aop : Nat) : Nat := bits aop 12 3

/-- An L2 atomic joins the engine queue; one on an SO page also freezes the cell until it is performed (R147, R152, R156 to
R158, R258). DESIGN CHOICE (log 95): the handle is checked before the return buffer. A return slot keeps its place in trigger order (R157). -/
def memAtomic (st : State) (code off len : Nat) (cas128 : Bool) (a k : BitVec 128) : State :=
  let aop := operand st .lsuaop
  let hn := lsuH st
  let h := handleOf (cur st) hn
  let ret := aopRet aop.toNat
  let rh := aopRh aop.toNat
  match memCause h off len len true true with
  | some c => raise st c 8 false (BitVec.ofNat 64 off) (accessInfo hn false true true)
  | none =>
    if ret && !cbValid (cur st) rh then raiseCb st 8 rh else
    let st := watch st false hn off len true true
    let st := fresh (if cas128 then stream st else st)
    let st := replayPush st ⟨code, BitVec.ofNat 64 (h.vpage.toNat + off), len,
      BitVec.ofNat 1024 (a.toNat + k.toNat * 2 ^ 128 + aop.toNat * 2 ^ 256)⟩
    let st := if ret then modCur st fun c => cbReserve c rh else st
    let r := if ret then rh + 1 else 0
    let pa := h.ppage.toNat + off
    let e : EngEnt := .atomic st.seq pa off aop cas128 a k (handleSlice h) h.sysat h.host r (origin st h)
    modCurCell st fun c => { c with
      engq := c.engq ++ [e]
      rets := if ret then c.rets ++ [⟨st.seq, st.cyc.fw, rh, none⟩] else c.rets
      soq := if h.kind = 0 then some ⟨st.seq, pa, len, true, false, 0, handleSlice h, h.host, origin st h, true⟩ else c.soq }

/-! ### Copies, advances and tiles -/

/-- Element size of a bank format in bytes (R149). -/
def bankSize (f : Nat) : Nat := match f with | 1 | 2 => 1 | 3 | 4 | 5 => 2 | 6 => 4 | 7 => 8 | _ => 1

/-- The format of the bank of an offset; the idle half counts as RAW (R149, R170). -/
def bankFmt (c : Ctx) (off : Nat) : Nat :=
  if 0x100000 ≤ off ∧ off < 0x110000 then 0 else bits (creg c (0x120 + bits off 6 5)).toNat 0 3

/-- Formats, sizes and count of a copy (R149). -/
def copyPlan (sf df : Nat) : Nat × Nat × Nat :=
  if sf = 0 ∨ df = 0 ∨ sf = df then (1, 1, 64)
  else (bankSize sf, bankSize df, 64 / max (bankSize sf) (bankSize df))

/-- The bytes of n converted elements, with the masks of NaNs and infinities that have no target value (R149,
R246). -/
def copyConvert (sf df n v : Nat) : Nat × Nat × Nat :=
  match bankElem sf, bankElem df with
  | some a, some b =>
    if sf = df then (v % 2 ^ 512, 0, 0) else
    let r (i : Nat) : Nat × Special := convert a b 0 (lane (elemWidth a) v i)
    (lanes (elemWidth b) (fun i => (r i).1) n 0, maskOf (fun i => (r i).2 == .nan) n 0,
     maskOf (fun i => (r i).2 == .inf) n 0)
  | _, _ => (v % 2 ^ 512, 0, 0)

/-- The record cause of a conversion into a format: 1 DM8, 2 an integer type (R24). -/
def copyCause (df : Nat) : Nat := if df = 1 then 1 else 2

/-- lsu.cpy (R149): source in c + 1, destination in c + 3; the formats are those read at issue. -/
def copyBody (st : State) (t : Word) : State :=
  let c := cur st
  let src := indexed st t
  let d := (operand st .lsud).toNat
  let sf := bankFmt c (src % 2 ^ 20)
  let df := bankFmt c (d % 2 ^ 20)
  let (bs, bd, n) := copyPlan sf df
  let dst := d + t.toNat * bd / bs
  match spCause src (n * bs) (n * bs) false, spCause dst (n * bd) (n * bd) false with
  | some e, _ => raise st e 8 false (BitVec.ofNat 64 src) (accessInfo 0 true true false)
  | none, some e => raise st e 8 false (BitVec.ofNat 64 dst) (accessInfo 0 true false true)
  | none, none =>
    let st := watch (watch st true 0 src (n * bs) true false) true 0 dst (n * bd) false true
    let st := fresh st
    let st := bankOp st
      { cnt := 2, code := 0, act := .cpyRead sf df dst n, off := src, len := n * bs, grp := st.seq }
    bankOp st { cnt := 4, code := 1, act := .cpyWrite bs, off := dst, len := n * bd, grp := st.seq }

/-- The advance of lsu.cbadv on CBFILL, for a buffer of z slots (R162). -/
def cbAdvance (c : Ctx) (h z n : Nat) (wr : Bool) : Word :=
  if wr then cbPack (cbRd c h) ((cbWr c h + n) % z) (cbFilled c h + n) (cbRsv c h)
  else cbPack ((cbRd c h + n) % z) (cbWr c h) (cbFilled c h - n) (cbRsv c h)

/-- lsu.cbadv (R162, R163): a write of CBFILL in the issue cycle; aux holds the advance and SIZE as the bundle read it (R89), so
that a deposit of the same cycle combines with it. -/
def cbadvBody (st : State) (t : Word) : State :=
  let c := cur st
  let h := bits t.toNat 0 3
  let wr := bit t.toNat 4
  let n := bits t.toNat 8 8 + 1
  if !cbValid c h || (if wr then decide (cbFree c h < n) else decide (cbFilled c h < n)) then raiseCb st 8 h
  else
    let z := cbSize c h
    let f : Flight := { tgt := .creg (0x118 + h), val := (cbAdvance c h z n wr).zeroExtend 1024, cnt := 1, slot := 8 }
    launch st { f with aux := BitVec.ofNat 64 (n * 2 + b2n wr + z * 2 ^ 16) }

/-- The tile port is taken in some cycle that a transfer triggered now would use (R146). -/
def portBusy (c : Ctx) : Bool := c.tport.any fun p => decide (p.moved < 32)

/-- lsu.tld and lsu.tst (R146): one transfer on the tile port at a time, and one that would meet another is refused
before its own checks (log 58); part i moves in c + 1 + i. -/
def tileBody (st : State) (store : Bool) (t : Word) : State :=
  let c := cur st
  let off := streamed st
  let k := bits t.toNat 0 4
  if portBusy c then raise st 2 8 false (BitVec.ofNat 64 (4 * bits off 8 3 + 0x4400)) 0 else
  match spCause off 8192 256 false with
  | some u => raise st u 8 false (BitVec.ofNat 64 off) (accessInfo 0 true (!store) store)
  | none =>
    let st := stream (watch st true 0 off 8192 (!store) store)
    modCur st fun c => { c with
      tport := c.tport ++ [⟨store, k, off, 0, if store then smGet 0 c.tiles k else 0⟩] }

/-- LSU_SLD_N8 (R144): Scratchpad load of 1 byte, zero-extended. -/
def execLsuSldN8 (g : BitVec 12) (s : BitVec 10) (st : State) : Host.Outcome State Fault Refusal :=
  .next (trigM st g s fun st t => spLoad st (indexed st t) 1 false (.slat .lsur))

/-- LSU_SLD_I8 (R144): Scratchpad load of 1 byte, sign-extended. -/
def execLsuSldI8 (g : BitVec 12) (s : BitVec 10) (st : State) : Host.Outcome State Fault Refusal :=
  .next (trigM st g s fun st t => spLoad st (indexed st t) 1 true (.slat .lsur))

/-- LSU_SLD_N16 (R144): Scratchpad load of 2 bytes, zero-extended. -/
def execLsuSldN16 (g : BitVec 12) (s : BitVec 10) (st : State) : Host.Outcome State Fault Refusal :=
  .next (trigM st g s fun st t => spLoad st (indexed st t) 2 false (.slat .lsur))

/-- LSU_SLD_I16 (R144): Scratchpad load of 2 bytes, sign-extended. -/
def execLsuSldI16 (g : BitVec 12) (s : BitVec 10) (st : State) : Host.Outcome State Fault Refusal :=
  .next (trigM st g s fun st t => spLoad st (indexed st t) 2 true (.slat .lsur))

/-- LSU_SLD_N32 (R144): Scratchpad load of 4 bytes, zero-extended. -/
def execLsuSldN32 (g : BitVec 12) (s : BitVec 10) (st : State) : Host.Outcome State Fault Refusal :=
  .next (trigM st g s fun st t => spLoad st (indexed st t) 4 false (.slat .lsur))

/-- LSU_SLD_I32 (R144): Scratchpad load of 4 bytes, sign-extended. -/
def execLsuSldI32 (g : BitVec 12) (s : BitVec 10) (st : State) : Host.Outcome State Fault Refusal :=
  .next (trigM st g s fun st t => spLoad st (indexed st t) 4 true (.slat .lsur))

/-- LSU_SLD_64 (R144): Scratchpad load of 8 bytes. -/
def execLsuSld64 (g : BitVec 12) (s : BitVec 10) (st : State) : Host.Outcome State Fault Refusal :=
  .next (trigM st g s fun st t => spLoad st (indexed st t) 8 false (.slat .lsur))

/-- LSU_SST_8 (R144): Streamed scratchpad store of 1 byte. -/
def execLsuSst8 (g : BitVec 12) (s : BitVec 10) (st : State) : Host.Outcome State Fault Refusal :=
  .next (trigM st g s fun st t => spStore st 1 (t.zeroExtend 1024))

/-- LSU_SST_16 (R144): Streamed scratchpad store of 2 bytes. -/
def execLsuSst16 (g : BitVec 12) (s : BitVec 10) (st : State) : Host.Outcome State Fault Refusal :=
  .next (trigM st g s fun st t => spStore st 2 (t.zeroExtend 1024))

/-- LSU_SST_32 (R144): Streamed scratchpad store of 4 bytes. -/
def execLsuSst32 (g : BitVec 12) (s : BitVec 10) (st : State) : Host.Outcome State Fault Refusal :=
  .next (trigM st g s fun st t => spStore st 4 (t.zeroExtend 1024))

/-- LSU_SST_64 (R144): Streamed scratchpad store of 8 bytes. -/
def execLsuSst64 (g : BitVec 12) (s : BitVec 10) (st : State) : Host.Outcome State Fault Refusal :=
  .next (trigM st g s fun st t => spStore st 8 (t.zeroExtend 1024))

/-- LSU_MLD_N8 (R144): Memory load of 1 byte, zero-extended. -/
def execLsuMldN8 (g : BitVec 12) (s : BitVec 10) (st : State) : Host.Outcome State Fault Refusal :=
  .next (trigM st g s fun st t => memLoad st (indexed st t) 1 false (.slat .lsur))

/-- LSU_MLD_I8 (R144): Memory load of 1 byte, sign-extended. -/
def execLsuMldI8 (g : BitVec 12) (s : BitVec 10) (st : State) : Host.Outcome State Fault Refusal :=
  .next (trigM st g s fun st t => memLoad st (indexed st t) 1 true (.slat .lsur))

/-- LSU_MLD_N16 (R144): Memory load of 2 bytes, zero-extended. -/
def execLsuMldN16 (g : BitVec 12) (s : BitVec 10) (st : State) : Host.Outcome State Fault Refusal :=
  .next (trigM st g s fun st t => memLoad st (indexed st t) 2 false (.slat .lsur))

/-- LSU_MLD_I16 (R144): Memory load of 2 bytes, sign-extended. -/
def execLsuMldI16 (g : BitVec 12) (s : BitVec 10) (st : State) : Host.Outcome State Fault Refusal :=
  .next (trigM st g s fun st t => memLoad st (indexed st t) 2 true (.slat .lsur))

/-- LSU_MLD_N32 (R144): Memory load of 4 bytes, zero-extended. -/
def execLsuMldN32 (g : BitVec 12) (s : BitVec 10) (st : State) : Host.Outcome State Fault Refusal :=
  .next (trigM st g s fun st t => memLoad st (indexed st t) 4 false (.slat .lsur))

/-- LSU_MLD_I32 (R144): Memory load of 4 bytes, sign-extended. -/
def execLsuMldI32 (g : BitVec 12) (s : BitVec 10) (st : State) : Host.Outcome State Fault Refusal :=
  .next (trigM st g s fun st t => memLoad st (indexed st t) 4 true (.slat .lsur))

/-- LSU_MLD_64 (R144): Memory load of 8 bytes. -/
def execLsuMld64 (g : BitVec 12) (s : BitVec 10) (st : State) : Host.Outcome State Fault Refusal :=
  .next (trigM st g s fun st t => memLoad st (indexed st t) 8 false (.slat .lsur))

/-- LSU_MST_8 (R144): Streamed memory store of 1 byte. -/
def execLsuMst8 (g : BitVec 12) (s : BitVec 10) (st : State) : Host.Outcome State Fault Refusal :=
  .next (trigM st g s fun st t => withMem st (streamed st) 1 false true fun st h =>
    memStore st 0x58 1 (t.zeroExtend 1024) h false)

/-- LSU_MST_16 (R144): Streamed memory store of 2 bytes. -/
def execLsuMst16 (g : BitVec 12) (s : BitVec 10) (st : State) : Host.Outcome State Fault Refusal :=
  .next (trigM st g s fun st t => withMem st (streamed st) 2 false true fun st h =>
    memStore st 0x59 2 (t.zeroExtend 1024) h false)

/-- LSU_MST_32 (R144): Streamed memory store of 4 bytes. -/
def execLsuMst32 (g : BitVec 12) (s : BitVec 10) (st : State) : Host.Outcome State Fault Refusal :=
  .next (trigM st g s fun st t => withMem st (streamed st) 4 false true fun st h =>
    memStore st 0x5A 4 (t.zeroExtend 1024) h false)

/-- LSU_MST_64 (R144): Streamed memory store of 8 bytes. -/
def execLsuMst64 (g : BitVec 12) (s : BitVec 10) (st : State) : Host.Outcome State Fault Refusal :=
  .next (trigM st g s fun st t => withMem st (streamed st) 8 false true fun st h =>
    memStore st 0x5B 8 (t.zeroExtend 1024) h false)

/-- LSU_MLD_AQ32 (R151): 4-byte memory load followed by an acquire. -/
def execLsuMldAq32 (g : BitVec 12) (s : BitVec 10) (st : State) : Host.Outcome State Fault Refusal :=
  .next (trigM st g s fun st t => memLoadAq st t 4)

/-- LSU_MLD_AQ64 (R151): 8-byte memory load followed by an acquire. -/
def execLsuMldAq64 (g : BitVec 12) (s : BitVec 10) (st : State) : Host.Outcome State Fault Refusal :=
  .next (trigM st g s fun st t => memLoadAq st t 8)

/-- LSU_MST_RL32 (R151): Release followed by a 4-byte memory store. -/
def execLsuMstRl32 (g : BitVec 12) (s : BitVec 10) (st : State) : Host.Outcome State Fault Refusal :=
  .next (trigM st g s fun st t => memStoreRl st 0x5E 4 (t.zeroExtend 1024))

/-- LSU_MST_RL64 (R151): Release followed by an 8-byte memory store. -/
def execLsuMstRl64 (g : BitVec 12) (s : BitVec 10) (st : State) : Host.Outcome State Fault Refusal :=
  .next (trigM st g s fun st t => memStoreRl st 0x5F 8 (t.zeroExtend 1024))

/-- LSU_AMO (R152): Scalar scratchpad atomic. DESIGN CHOICE (log 95): lsu.aop is
checked before the address. -/
def execLsuAmo (g : BitVec 12) (s : BitVec 10) (st : State) : Host.Outcome State Fault Refusal :=
  .next (trigM st g s fun st t => 
    let aop := (operand st .lsuaop).toNat
    if !aopOk aop then raiseIll st 8 else
    spAtomic st (indexed st t) (aopSize (bits aop 0 4)) false ((operand st .lsud).zeroExtend 256)
      ((operand st .lsuc).zeroExtend 256))

/-- LSU_L2AMO (R156): Scalar memory atomic performed at the home L2 slice. DESIGN CHOICE (log 95): lsu.aop is
checked before the address. -/
def execLsuL2amo (g : BitVec 12) (s : BitVec 10) (st : State) : Host.Outcome State Fault Refusal :=
  .next (trigM st g s fun st t => 
    let aop := (operand st .lsuaop).toNat
    if !aopOk aop then raiseIll st 8 else
    memAtomic st 0x61 (indexed st t) (aopSize (bits aop 0 4)) false ((operand st .lsud).zeroExtend 128)
      ((operand st .lsuc).zeroExtend 128))

/-- LSU_CPY (R149): Converting copy between scratchpad banks. -/
def execLsuCpy (g : BitVec 12) (s : BitVec 10) (st : State) : Host.Outcome State Fault Refusal :=
  .next (trigM st g s fun st t => copyBody st t)

/-- LSU_CBADV (R162): Advances a circular buffer's read or write pointer. -/
def execLsuCbadv (g : BitVec 12) (s : BitVec 10) (st : State) : Host.Outcome State Fault Refusal :=
  .next (trigM st g s fun st t => cbadvBody st t)

/-- LSU_REL (R150): Inserts a release marker of a scope. -/
def execLsuRel (g : BitVec 12) (s : BitVec 10) (st : State) : Host.Outcome State Fault Refusal :=
  .next (trigM st g s fun st t => withScope st (bits t.toNat 0 3) fun st =>
    pushMarker st st.cyc.cell (bits t.toNat 0 3) false st.cyc.fw)

/-- LSU_ACQ (R150): Acquire that invalidates clean RC lines of a scope. -/
def execLsuAcq (g : BitVec 12) (s : BitVec 10) (st : State) : Host.Outcome State Fault Refusal :=
  .next (trigM st g s fun st t => withScope st (bits t.toNat 0 3) fun st =>
    pushAcquire st st.cyc.cell (bits t.toNat 0 3) 0)

/-- LSU_FENCE (R150): Release then acquire that also covers UO pages. -/
def execLsuFence (g : BitVec 12) (s : BitVec 10) (st : State) : Host.Outcome State Fault Refusal :=
  .next (trigM st g s fun st t => withScope st (bits t.toNat 0 3) fun st =>
    let n := st.cyc.cell
    let st := pushMarker st n (bits t.toNat 0 3) true st.cyc.fw
    pushAcquire st n (bits t.toNat 0 3) (if bits t.toNat 0 3 = 0 then 0 else st.seq + 1))

/-- LSU_VLDS (R144): 128-byte scratchpad vector load. -/
def execLsuVlds (g : BitVec 12) (s : BitVec 10) (st : State) : Host.Outcome State Fault Refusal :=
  .next (trigM st g s fun st t => spLoad st (indexed st t) 128 false (.vlat .lsuvr))

/-- LSU_VLDM (R144): 128-byte memory vector load. -/
def execLsuVldm (g : BitVec 12) (s : BitVec 10) (st : State) : Host.Outcome State Fault Refusal :=
  .next (trigM st g s fun st t => memLoad st (indexed st t) 128 false (.vlat .lsuvr))

/-- LSU_TLD (R146): Tile load from the scratchpad through the tile port. -/
def execLsuTld (g : BitVec 12) (s : BitVec 10) (st : State) : Host.Outcome State Fault Refusal :=
  .next (trigM st g s fun st t => tileBody st false t)

/-- LSU_TST (R146): Tile store to the scratchpad through the tile port. -/
def execLsuTst (g : BitVec 12) (s : BitVec 10) (st : State) : Host.Outcome State Fault Refusal :=
  .next (trigM st g s fun st t => tileBody st true t)

/-- LSU_VSTS (R144): Streamed 128-byte scratchpad vector store. -/
def execLsuVsts (g : BitVec 12) (s : BitVec 10) (st : State) : Host.Outcome State Fault Refusal :=
  .next (trigMV st g s fun st t => spStore st 128 t)

/-- LSU_VSTM (R144): Streamed 128-byte memory vector store. -/
def execLsuVstm (g : BitVec 12) (s : BitVec 10) (st : State) : Host.Outcome State Fault Refusal :=
  .next (trigMV st g s fun st t => withMem st (streamed st) 128 false true fun st h =>
    memStore st 0x211 128 t h false)

/-- LSU_VAMO (R152): 32-byte vector scratchpad atomic. DESIGN CHOICE (log 95): lsu.aop is
checked before the address. -/
def execLsuVamo (g : BitVec 12) (s : BitVec 10) (st : State) : Host.Outcome State Fault Refusal :=
  .next (trigMV st g s fun st t => 
    let aop := (operand st .lsuaop).toNat
    if !aopOk aop then raiseIll st 8 else
    spAtomic st (streamed st) 32 true (t.truncate 256) ((voperand st .lsuvc).truncate 256))

/-- LSU_VCAS128 (R152): 128-bit compare-and-swap at L2. -/
def execLsuVcas128 (g : BitVec 12) (s : BitVec 10) (st : State) : Host.Outcome State Fault Refusal :=
  .next (trigMV st g s fun st t => memAtomic st 0x213 (streamed st) 16 true (BitVec.ofNat 128 (t.toNat >>> 128)) (t.truncate 128))

end Sys2Proof.Machine
end

