-- ==== Sys2Proof/Machine/Translate.lean ====
section
/-!
DEFINITION. Translation (R318 to R325): the walk of both stages as one step, the combined handle, the accessed and
dirty marks, and the summary of R165.
-/

namespace Sys2Proof.Machine

/-- A fault of a walk (R325). -/
structure WalkFault where
  stage2 : Bool
  walk : Bool
  typ : Nat
  lvl : Nat
  gpa : Nat
  /-- The guest-physical address of a table entry whose read the host IOMMU refused, which reads 0 (R331). -/
  refused : Option Nat := none
  deriving DecidableEq, Repr

/-- INFO1 of a walk's fault (R325). -/
def WalkFault.info1 (f : WalkFault) : Word :=
  BitVec.ofNat 64 (f.lvl + f.typ * 2 ^ 3 + b2n f.stage2 * 2 ^ 8 + b2n f.walk * 2 ^ 9 + f.gpa % 2 ^ 48 * 2 ^ 16)

/-- What a walk answers. -/
abbrev Walked (α : Type) := Except WalkFault α

/-- Stage 1 is on, stage 2 is on, and the roots (R318). -/
def s1en (t : TCtx) : Bool := bit t.reg.toNat 1
@[inherit_doc s1en] def s2en (t : TCtx) : Bool := bit t.reg.toNat 0
@[inherit_doc s1en] def s1root (t : TCtx) : Nat := bits t.reg.toNat 192 64
@[inherit_doc s1en] def s2root (t : TCtx) : Nat := bits t.reg.toNat 128 64
/-- Index of an address at a level (R319). -/
def walkIndex (lvl a : Nat) : Nat :=
  match lvl with
  | 0 => bits a 48 9
  | 1 => bits a 39 9
  | 2 => bits a 30 9
  | 3 => bits a 21 9
  | _ => bits a 16 5

/-- Bytes that a leaf at a level maps (R319). -/
def leafSize (lvl : Nat) : Nat := match lvl with | 2 => 2 ^ 30 | 3 => 2 ^ 21 | _ => 2 ^ 16

/-- A valid descriptor has a format fault at a level (R320). -/
def badDesc (stage2 : Bool) (lvl e : Nat) : Bool :=
  if bit e 1 then
    bits e 48 16 != 0 || bits e 2 6 != 0 || lvl == 4 || bits e 8 40 * 256 % (if lvl = 3 then 256 else 4096) != 0
  else
    bits e 55 9 != 0 || (!stage2 && (bits e 48 7 != 0 || bit e 15)) || bits e 7 2 == 3 || decide (lvl < 2) ||
      bits e 16 32 * 2 ^ 16 % leafSize lvl != 0 || (bit e 15 && bit e 54)

/-- Walk the levels of one stage (R322). rd reads an entry and answers its value, address and whether it lies in host
memory. -/
def walkStage (stage2 : Bool) (rd : Nat → Walked (Nat × Nat × Bool)) (flt : Nat → Nat → WalkFault) (a : Nat) :
    List Nat → Nat → Walked Leaf
  | [], _ => .error (flt 1 4)
  | l :: ls, t =>
    match rd (t + 8 * walkIndex l a) with
    | .error f => .error (if f.refused.isSome then { f with lvl := l } else f)
    | .ok (e, pa, hst) =>
      if !bit e 0 then .error (flt 0 l)
      else if badDesc stage2 l e then .error (flt 1 l)
      else if bit e 1 then walkStage stage2 rd flt a ls (bits e 8 40 * 256)
      else .ok ⟨e, pa, hst, l, bits e 16 32 * 2 ^ 16 + a % leafSize l, true⟩

/-- The leaf of a stage that is off (R321): everything allowed, KIND UO, SYSAT 1, 1 GiB, no address. -/
def offLeaf (a : Nat) : Leaf := ⟨0x370, 0, false, 2, a, false⟩

/-- Stage 2 of a guest-physical address (R322). -/
def stage2Walk (s : State) (t : TCtx) (walk : Bool) (gpa : Nat) : Walked Leaf :=
  if s2en t then
    walkStage true (fun a => .ok (homeReadN s a 8, a, false)) (fun ty l => ⟨true, walk, ty, l, gpa, none⟩) gpa [1, 2, 3, 4]
      (s2root t)
  else .ok (offLeaf gpa)

/-- Stage 1 of a virtual address (R322); s2 walks stage 2 for a table entry. A host page that refuses an entry gives 0
(R331). -/
def stage1By (s : State) (t : TCtx) (s2 : Nat → Walked Leaf) (va : Nat) : Walked Leaf :=
  if s1en t then
    let no (pa : Nat) : Bool := refusesHost s (tctxFunc t) pa
    let rd (a : Nat) : Walked (Nat × Nat × Bool) :=
      match s2 a with
      | .error f => .error f
      | .ok l =>
        let h := bit l.desc 15
        if h && no l.out then .error ⟨false, false, 0, 0, 0, some a⟩
        else .ok (if h then readNat s.hostMem l.out 8 else homeReadN s l.out 8, l.out, h)
    walkStage false rd (fun ty l => ⟨false, false, ty, l, 0, none⟩) va [0, 1, 2, 3, 4] (s1root t)
  else if bits va 48 9 ≠ 0 then .error ⟨false, false, 2, 0, 0, none⟩
  else .ok (offLeaf (va % 2 ^ 57))

/-- Stage 1 of a virtual address, all entries read as they stand (R322). -/
def stage1Walk (s : State) (t : TCtx) (va : Nat) : Walked Leaf := stage1By s t (stage2Walk s t true) va

/-- A message to the host with a number up to j is still on its way (R255, R261). -/
def hostBehind (s : State) (j : Nat) : Bool := s.chan.any fun m => m.home == .host && decide (m.id ≤ j)

/-- A walk of stage 1 reads an entry in host memory (R322). -/
def tablesInHost (s : State) (t : TCtx) (va : Nat) : Bool :=
  s1en t && (match walkStage false (fun a => match stage2Walk s t true a with
      | .error f => .error f
      | .ok l => if bit l.desc 15 then .error ⟨false, false, 0, 0, 0, some a⟩ else .ok (homeReadN s l.out 8, l.out, false))
      (fun ty l => ⟨false, false, ty, l, 0, none⟩) va [0, 1, 2, 3, 4] (s1root t) with
    | .error f => f.refused.isSome
    | .ok _ => false)

/-- A walk waits: it reads host memory, which is behind the device-to-host queue (R261). -/
def walkHeld (s : State) (t : TCtx) (va : Nat) : Bool := hostBehind s s.seq && tablesInHost s t va

/-- Write the accessed and dirty marks of a leaf (R322, R323). -/
def markLeaf (s : State) (l : Leaf) (dirty : Bool) : State :=
  let e := l.desc ||| 4 ||| (if dirty then 8 else 0)
  if !l.on ∨ e = l.desc then s
  else if l.inHost then { s with hostMem := writeNat s.hostMem l.addr 8 e }
  else homeWriteN s l.addr 8 e

/-- The handle that two leaves make (R321), with what a fetch asks of them (R322). -/
def combine (t : TCtx) (fetch : Bool) (va gpa : Nat) (l1 l2 : Leaf) : Handle :=
  let d1 := l1.desc
  let d2 := l2.desc
  let lvl := max l1.lvl l2.lvl
  let sz := leafSize lvl
  let k1 := bits d1 7 2
  let k2 := bits d2 7 2
  { v := true
    sz := BitVec.ofNat 2 (4 - lvl)
    kind := BitVec.ofNat 2 (min k1 k2)
    pr := bit d1 4 && bit d2 4
    pw := bit d1 5 && bit d2 5
    sysat := bit d1 9 && bit d2 9
    cdc := bit d2 54
    creg := BitVec.ofNat 6 (bits d2 48 6)
    slaen := bit d1 10 || bit d2 10
    sla := BitVec.ofNat 4 (if bit d2 10 then bits d2 11 4 else bits d1 11 4)
    ppage := BitVec.ofNat 64 (l2.out - l2.out % sz)
    vpage := BitVec.ofNat 64 (va - va % sz)
    gpage := BitVec.ofNat 64 (gpa - gpa % sz)
    leaf1 := BitVec.ofNat 64 l1.addr
    leaf2 := BitVec.ofNat 64 l2.addr
    iseq1 := t.iseq1
    iseq2 := t.iseq2
    host := bit d2 15
    lvl1 := if l1.on then BitVec.ofNat 3 l1.lvl else 0
    lvl2 := if l2.on then BitVec.ofNat 3 l2.lvl else 0
    lhost := l1.inHost
    x1 := fetch && bit d1 6
    x2 := fetch && bit d2 6 }

/-- The leaves of both stages make a handle, or a fault (R321, R322, R325). A fetch walks in the same way, and its permission is looked
at last (R322). -/
def translateBy (t : TCtx) (fetch : Bool) (va : Nat) (s1 : Walked Leaf) (s2 : Nat → Walked Leaf) :
    Walked (Leaf × Leaf × Handle) :=
  if bits va 57 7 ≠ (if bit va 56 then 127 else 0) then .error ⟨false, false, 2, 0, 0, none⟩ else
  match s1 with
  | .error f => .error f
  | .ok l1 =>
    match s2 l1.out with
    | .error f => .error f
    | .ok l2 => .ok (l1, l2, combine t fetch va l1.out l1 l2)

/-- The fault of a fetch whose combined permission is missing: the stage that does not give it (R322, R325). -/
def fetchDenied (h : Handle) (va : Nat) : Option WalkFault :=
  if !h.x1 then some ⟨false, false, 3, h.lvl1.toNat, 0, none⟩
  else if !h.x2 then some ⟨true, false, 3, h.lvl2.toNat, h.gpage.toNat + va % pageSize h, none⟩
  else none

/-- Translate a virtual address under both stages by one walk (R322): the marked state and the handle, or a fault. -/
def translate (s : State) (t : TCtx) (fetch : Bool) (va : Nat) : Walked (State × Handle) :=
  match translateBy t fetch va (stage1Walk s t va) (stage2Walk s t false) with
  | .error f => .error f
  | .ok (l1, l2, h) => .ok (markLeaf (markLeaf s l1 h.pw) l2 h.pw, h)

/-- A leaf as it maps another address of its page. -/
def leafAt (l : Leaf) (a : Nat) : Leaf := { l with out := bits l.desc 16 32 * 2 ^ 16 + a % leafSize l.lvl }

/-- The entry of a die's walk cache that serves an address of a stage (R322, R329). -/
def walkHit (x : Die) (k : Nat) (stage2 : Bool) (a : Nat) : Option Leaf :=
  (x.walks.find? fun e => e.key == k && e.stage2 == stage2 && e.addr / leafSize e.leaf.lvl == a / leafSize e.leaf.lvl).map
    fun e => leafAt e.leaf a

/-- A leaf joins the walk cache. -/
def walkKeep (k : Nat) (stage2 : Bool) (a : Nat) (l : Leaf) (x : Die) : Die :=
  if !l.on || (walkHit x k stage2 a) == some l then x else
  { x with walks := (x.walks.filter fun e =>
      !(e.key == k && e.stage2 == stage2 && e.addr / leafSize l.lvl == a / leafSize l.lvl)) ++ [⟨k, stage2, a, l⟩] }

/-- The entry of a leaf still stands as the walk read it, so that its compare-and-swap does not fail (R322). -/
def leafStands (s : State) (l : Leaf) : Bool :=
  !l.on || (if l.inHost then readNat s.hostMem l.addr 8 else homeReadN s l.addr 8) == l.desc

/-- Translate for a cell of a die, whose walk cache may serve either stage (R322, R329). The cache may have dropped an entry
at any time, so that which of the entries it holds serve is free (log 25); a mark that is due and does not find its entry as it
was makes the walk again. -/
def translateVia (s : State) (d : Nat) (k : Option Nat) (t : TCtx) (fetch : Bool) (va : Nat) : Walked (State × Handle) :=
  match k with
  | none => translate s t fetch va
  | some k =>
    let x := getDie s d
    let hit (b : Nat) (stage2 : Bool) (a : Nat) : Option Leaf :=
      if (Config.freeVec s.free).getLsbD b then walkHit x k stage2 a else none
    let s2 (b : Nat) (w : Bool) (g : Nat) : Walked Leaf := match hit b true g with
      | some l => .ok l
      | none => stage2Walk s t w g
    let s1 : Walked Leaf := match hit 0 false va with
      | some l => .ok l
      | none => stage1By s t (s2 1 true) va
    let s := if x.walks = [] then s else { s with free := s.free + 1 }
    match translateBy t fetch va s1 (s2 2 false) with
    | .error f => if x.walks = [] then .error f else translate s t fetch va
    | .ok (l1, l2, h) =>
      let due (l : Leaf) : Bool := (l.desc ||| 4 ||| (if h.pw then 8 else 0)) != l.desc && !leafStands s l
      if due l1 || due l2 then translate s t fetch va
      else
        let s := markLeaf (markLeaf s l1 h.pw) l2 h.pw
        let e (l : Leaf) : Leaf := { l with desc := l.desc ||| 4 ||| (if h.pw then 8 else 0) }
        .ok (modDie s d fun x => walkKeep k true l1.out (e l2) (walkKeep k false va (e l1) x), h)

/-- The summary of a handle (R165). -/
def summary (h : Handle) (poff : Nat) : Word :=
  BitVec.ofNat 64 (poff % 2 ^ 30 + h.sla.toNat * 2 ^ 43 + b2n h.slaen * 2 ^ 47 + h.creg.toNat * 2 ^ 48 +
    b2n h.cdc * 2 ^ 54 + b2n h.sysat * 2 ^ 55 + b2n h.pw * 2 ^ 56 + b2n h.pr * 2 ^ 57 + h.kind.toNat * 2 ^ 58 +
    h.sz.toNat * 2 ^ 60 + b2n h.v * 2 ^ 63)

/-- An output address still maps a page, for a leaf of a level: the same leaf address as when the handle was made. A level that
is not known stands for any whose pages hold the handle's (R324, log 91). -/
def oaCovers (lvl e page size : Nat) : Bool :=
  (if lvl = 0 then [2 ^ 16, 2 ^ 21, 2 ^ 30] else [leafSize lvl]).any fun z =>
    decide (size ≤ z) && decide (page / z * z = bits e 16 32 * 2 ^ 16)

/-- Mark one leaf by address when it is still valid and still maps the page (R324). An address of 0 with no level known stands for no
leaf (log 91). -/
def markAt (s : State) (lvl addr : Nat) (inHost : Bool) (page size : Nat) (dirty : Bool) : State :=
  let e := if inHost then readNat s.hostMem addr 8 else homeReadN s addr 8
  if (addr = 0 ∧ lvl = 0) ∨ !bit e 0 ∨ bit e 1 ∨ !oaCovers lvl e page size then s
  else markLeaf s ⟨e, addr, inHost, 4, 0, true⟩ dirty

/-- Mark both leaves of a handle when a ce command is accepted (R324). -/
def markLeaves (s : State) (h : Handle) (dirty : Bool) : State :=
  let s := markAt s h.lvl1.toNat h.leaf1.toNat h.lhost h.gpage.toNat (pageSize h) dirty
  markAt s h.lvl2.toNat h.leaf2.toNat false h.ppage.toNat (pageSize h) dirty

end Sys2Proof.Machine
end

