-- ==== Sys2Proof/Machine/Xlt.lean ====
section
/-!
DEFINITION. The xlt, ce and lnk operations of slot M (R164 to R173).
-/

namespace Sys2Proof.Machine

/-! ### xlt -/

/-- xlt.map (R164): the handle and xlt.r wait for the walk and land in c + 15. -/
def mapBody (st : State) (t : Word) : State :=
  let h := bits (operand st .xlto).toNat 0 4
  let st := fresh st
  let f : Flight := { tgt := .handle h, val := 0, cnt := 16, slot := 15, wait := .walk, id := st.seq, aux := t }
  launch (launch st f) { f with tgt := .slat .xltr }

/-- Clear V of a handle (R164, R166). -/
def clearV (c : Ctx) (h : Nat) : Ctx := { c with ph := smSet Handle.invalid c.ph h { handleOf c h with v := false } }

/-- xlt.unmap (R164, R166): handles of the mask become invalid; a map that lands on one in this cycle leaves V = 0. -/
def unmapBody (st : State) (t : Word) : State :=
  let meets (f : Flight) : Bool := match f.tgt with
    | .handle h => bit t.toNat h && f.cnt == 1 && decide (h < 16)
    | _ => false
  modCur st fun c =>
    let c := ((List.range 16).filter (bit t.toNat)).foldl clearV c
    { c with flights := c.flights.map fun f => if meets f then { f with ext := 1 } else f }

/-- xlt.probe (R164). -/
def probeBody (st : State) (t : Word) : State :=
  result st .xltr 2 (summary (handleOf (cur st) (bits t.toNat 0 4)) 0)

/-! ### ce -/

/-- LEN of ce.len (R167). -/
def ceLen (w : Word) : Nat := bits w.toNat 0 40

/-- The command that the foreground set describes (R167, R170). -/
def ceCmd (st : State) (t : Word) : CeCmd :=
  let c := cur st
  let ctl := operand st .cectl
  let src := (operand st .cesrc).toNat
  let dst := (operand st .cedst).toNat
  let both := bit ctl.toNat 16 && bit ctl.toNat 17
  { tag := t.truncate 16, src := src, dst := dst, len := ceLen (operand st .celen), ctl := ctl
    sh := handleOf c (bits ctl.toNat 20 4), dh := handleOf c (bits ctl.toNat 24 4)
    sfmt := if both then bankFmt c src else 0, dfmt := if both then bankFmt c dst else 0
    org := .bare st.cyc.fw st.cyc.addr, ab := false }

/-- Destination bytes of a command (R169). -/
def ceDstLen (c : CeCmd) : Nat := let p := copyPlan c.sfmt c.dfmt; c.len * p.2.1 / p.1

/-- One side of a command: trap cause under R142 or R141, alignment apart (R169). -/
def ceSide (sp : Bool) (h : Handle) (off len : Nat) (rd wr : Bool) : Option Nat :=
  if sp then spCause off len 1 true else memCause h off len 1 rd wr

/-- A trap of ce.go on one side. -/
def ceTrap (st : State) (cause : Nat) (sp : Bool) (h off : Nat) (rd wr : Bool) : State :=
  raise st cause 8 false (BitVec.ofNat 64 off) (accessInfo (if sp then 0 else h) sp rd wr)

/-- Commands of a context queued or running (R168). DESIGN CHOICE (log 82): a running command takes one of the 16 entries.
DEDUCED (log 18): each context has its own 16 entries, its own counts and its own abort, which R15 asks for. -/
def ceBusy (c : Cell) (fw : Bool) : Nat :=
  (c.engq.filter fun e => match e with | .ce _ k => k.org.fw == fw && !k.ab | _ => false).length +
    (match c.ce with | some r => b2n (r.cmd.org.fw == fw && r.status == 0 && !r.early) | none => 0)

/-- Bytes from byte w of the destination to the next 128-byte boundary of it, or to its end (R172). -/
def ceChunk (k : CeCmd) (w : Nat) : Nat := min (128 - (k.dst + w) % 128) (ceDstLen k - w)

/-- Submit an accepted command (R168, R169, R324). -/
def ceSubmit (st : State) (k : CeCmd) : State :=
  let ctl := k.ctl.toNat
  let st := result st .cer 1 1
  let st := if bit ctl 40 then modCur st fun c => cbReserve c (bits ctl 37 3) else st
  let st := fresh st
  let st := modCurCell st fun c => { c with engq := c.engq ++ [.ce st.seq k] }
  let st := if bit ctl 16 then st else markLeaves st k.sh false
  let st := if bit ctl 17 then st else markLeaves st k.dh true
  replayPush st ⟨0x88, (if bit ctl 17 then 0 else k.dh.vpage) + BitVec.ofNat 64 k.dst, k.len,
    BitVec.ofNat 1024 (k.src + k.dst * 2 ^ 64 + (operand st .celen).toNat * 2 ^ 128 + ctl * 2 ^ 192)⟩

/-- ce.go (R168, R169): the checks in their order, then the queue. DESIGN CHOICE (log 83): a destination length of a conversion
copy that is not a multiple of 64 traps ALIGN, with LEN in INFO0, and INFO1 is 0 for every bad length. DESIGN CHOICE (log 95): a full
queue is found after every check. -/
def goBody (st : State) (t : Word) : State :=
  let k := ceCmd st t
  let ctl := k.ctl.toNat
  let ssp := bit ctl 16
  let dsp := bit ctl 17
  let sh := bits ctl 20 4
  let dh := bits ctl 24 4
  match ceSide ssp k.sh k.src k.len true false with
  | some u => ceTrap st u ssp sh k.src true false
  | none =>
  match ceSide dsp k.dh k.dst (ceDstLen k) false true with
  | some u => ceTrap st u dsp dh k.dst false true
  | none =>
    if k.src % 64 ≠ 0 then ceTrap st 0x0E ssp sh k.src true false
    else if k.dst % 64 ≠ 0 then ceTrap st 0x0E dsp dh k.dst false true
    else if k.len = 0 ∨ k.len % 64 ≠ 0 then raise st 0x0E 8 false (BitVec.ofNat 64 k.len) 0
    else if 4 < bits ctl 43 3 then raiseIll st 8
    else if bit ctl 40 && !cbValid (cur st) (bits ctl 37 3) then raiseCb st 8 (bits ctl 37 3)
    else if ceDstLen k % 64 ≠ 0 then raise st 0x0E 8 false (BitVec.ofNat 64 k.len) 0
    else if 16 ≤ ceBusy (curCell st) st.cyc.fw then result st .cer 1 0
    else ceSubmit st k

/-- ce.swap (R168): the foreground and shadow sets change places in the issue cycle. -/
def swapBody (st : State) : State :=
  let sw (c : Ctx) (p : SLatch × SLatch) : Ctx := sPut (sPut c p.1 (sGet c p.2)) p.2 (sGet c p.1)
  result (modCur st fun c => [(SLatch.cesrc, SLatch.cesrc2), (.cedst, .cedst2), (.celen, .celen2), (.cectl, .cectl2)].foldl sw c)
    .cer 1 0

/-- ce.poll (R168). -/
def pollBody (st : State) : State :=
  result st .cer 1 (BitVec.ofNat 64 (ceBusy (curCell st) st.cyc.fw % 32 + (cur st).ceEnded.toNat * 2 ^ 32))

/-- A running command is aborted: it stops at the next 128-byte boundary of its destination (R172). -/
def ceStop (r : CeRun) : CeRun :=
  if r.status ≠ 0 ∨ r.early then r
  else { r with status := 1, stop := some (if r.wr = 0 ∨ (r.cmd.dst + r.wr) % 128 = 0 then r.wr else r.wr + ceChunk r.cmd r.wr) }

/-- ce.abort (R168, R172): every queued and running command of the context ends; their records follow in command order. -/
def abortBody (st : State) : State :=
  let fw := st.cyc.fw
  let n := ceBusy (curCell st) fw
  let st := modCurCell st fun c => { c with
    engq := c.engq.map fun e => match e with | .ce id k => .ce id { k with ab := k.ab || k.org.fw == fw } | e => e
    ce := c.ce.map fun r => if r.cmd.org.fw = fw then ceStop r else r }
  let st := modCur st fun c => { c with ceEnded := c.ceEnded + BitVec.ofNat 32 n }
  result st .cer 1 (BitVec.ofNat 64 n)

/-! ### lnk -/

/-- lnk.send (R173): the neighbour's staging register of the opposite port receives the value in c + 3: that of its firmware context,
where the firmware context sends (R81). -/
def sendBody (st : State) (p : Nat) (v : Vec) : State :=
  let n := st.cyc.cell
  match neighbour n p with
  | none => raise st 0x0C 8 false (BitVec.ofNat 64 p) 0
  | some m =>
    if fenced st n m then raise st 0x0C 8 false (BitVec.ofNat 64 p) 0
    else
      let sync := !st.cyc.fw && (lockstep st n).contains m
      modCell st m fun c => { c with arrivals := c.arrivals ++ [⟨(p + 2) % 4, v, 4, sync, st.cyc.fw⟩] }

/-- XLT_MAP (R164): Translates a virtual address into a physical handle. -/
def execXltMap (g : BitVec 12) (s : BitVec 10) (st : State) : Host.Outcome State Fault Refusal :=
  .next (trigM st g s fun st t => mapBody st t)

/-- XLT_UNMAP (R164): Clears V of every handle named in the mask. -/
def execXltUnmap (g : BitVec 12) (s : BitVec 10) (st : State) : Host.Outcome State Fault Refusal :=
  .next (trigM st g s fun st t => unmapBody st t)

/-- XLT_PROBE (R164): Returns a handle's summary. -/
def execXltProbe (g : BitVec 12) (s : BitVec 10) (st : State) : Host.Outcome State Fault Refusal :=
  .next (trigM st g s fun st t => probeBody st t)

/-- CE_GO (R169): Checks and submits the foreground copy-engine set. -/
def execCeGo (g : BitVec 12) (s : BitVec 10) (st : State) : Host.Outcome State Fault Refusal :=
  .next (trigM st g s fun st t => goBody st t)

/-- CE_SWAP (R168): Exchanges the foreground and shadow sets. -/
def execCeSwap (g : BitVec 12) (s : BitVec 10) (st : State) : Host.Outcome State Fault Refusal :=
  .next (trigM st g s fun st _ => swapBody st)

/-- CE_POLL (R168): Returns the counts of queued and ended commands. -/
def execCePoll (g : BitVec 12) (s : BitVec 10) (st : State) : Host.Outcome State Fault Refusal :=
  .next (trigM st g s fun st _ => pollBody st)

/-- CE_ABORT (R172): Ends every queued and running command of the cell. -/
def execCeAbort (g : BitVec 12) (s : BitVec 10) (st : State) : Host.Outcome State Fault Refusal :=
  .next (trigM st g s fun st _ => abortBody st)

/-- LNK_SEND (R173): Sends 1024 bits to a neighbour on the named port. -/
def execLnkSend (g : BitVec 12) (s : BitVec 10) (p : BitVec 2) (st : State) : Host.Outcome State Fault Refusal :=
  .next (trigMV st g s fun st t => sendBody st p.toNat t)

end Sys2Proof.Machine
end

