-- ==== Sys2Proof/Machine/Sys.lean ====
section
/-!
DEFINITION. The sys triggers of the S slots (R214, R217): acceptance. What an accepted command does is in Scan.
-/

namespace Sys2Proof.Machine

/-- A sys trigger (R214): PRIV in a user context; BUSY while a command of the same trigger from this cell runs;
else the die accepts it. sys.r is written in c + 1. -/
def sysBody (st : State) (trig : Nat) (k : BitVec 4) (t : Word) : State :=
  let n := st.cyc.cell
  if !st.cyc.fw then raisePriv st k.toNat (0x300 + trig)
  else if doubled st .sys then portWrite st .sys k.toNat (0x300 + trig) (t.zeroExtend 1024)
  else if (getDie st (dieOf n)).sys.any fun c => c.cell == n && c.trig == trig then result st .sysr 2 1
  else
    let cmd : SysCmd := ⟨n, trig, operand st .syso, operand st .sysm, t, 0, 0, false, none, false, 0, none, none⟩
    result (modDie st (dieOf n) fun d => { d with sys := d.sys ++ [cmd] }) .sysr 2 0

/-- DICT_LD (R217): Loads the issuing cell's dictionary from an image. -/
def execDictLd (k : BitVec 4) (g : BitVec 12) (s : BitVec 10) (st : State) : Host.Outcome State Fault Refusal :=
  .next (guarded st g fun st => sysBody st 0 k (readS st s))

/-- SCAN_OUT (R219): Scans out context images of a rectangle of frozen cells. -/
def execScanOut (k : BitVec 4) (g : BitVec 12) (s : BitVec 10) (st : State) : Host.Outcome State Fault Refusal :=
  .next (guarded st g fun st => sysBody st 1 k (readS st s))

/-- SCAN_IN (R361): Restores context images into frozen cells. -/
def execScanIn (k : BitVec 4) (g : BitVec 12) (s : BitVec 10) (st : State) : Host.Outcome State Fault Refusal :=
  .next (guarded st g fun st => sysBody st 2 k (readS st s))

/-- CELL_FRZ (R220): Sets HOLD in the named cells that PART owns. -/
def execCellFrz (k : BitVec 4) (g : BitVec 12) (s : BitVec 10) (st : State) : Host.Outcome State Fault Refusal :=
  .next (guarded st g fun st => sysBody st 3 k (readS st s))

/-- CELL_RSM (R220): Clears HOLD in the named cells that PART owns. -/
def execCellRsm (k : BitVec 4) (g : BitVec 12) (s : BitVec 10) (st : State) : Host.Outcome State Fault Refusal :=
  .next (guarded st g fun st => sysBody st 4 k (readS st s))

/-- MIG_SWAP (R221): Exchanges the active and standby dirty bitmap buffers. -/
def execMigSwap (k : BitVec 4) (g : BitVec 12) (s : BitVec 10) (st : State) : Host.Outcome State Fault Refusal :=
  .next (guarded st g fun st => sysBody st 5 k (readS st s))

/-- COS_WR (R222): Writes one L2 partitioning field of a CoS. -/
def execCosWr (k : BitVec 4) (g : BitVec 12) (s : BitVec 10) (st : State) : Host.Outcome State Fault Refusal :=
  .next (guarded st g fun st => sysBody st 6 k (readS st s))

/-- OWN_WR (R223): Sets segment owners of a cell, clearing the segments on change. -/
def execOwnWr (k : BitVec 4) (g : BitVec 12) (s : BitVec 10) (st : State) : Host.Outcome State Fault Refusal :=
  .next (guarded st g fun st => sysBody st 7 k (readS st s))

end Sys2Proof.Machine
end

