-- ==== Sys2Proof/Machine/Landing.lean ====
section
/-!
DEFINITION. What a cycle lands: the banks of the scratchpad and their conflicts (R244 to R248), writes in flight and
their collisions (R75 to R77, R403), tile landings (R146, R199) and link arrivals (R173, R174).
-/

namespace Sys2Proof.Machine

/-! ### Banks -/

/-- An access of one requester in one cycle: its banks, and its port (0 none, 1 load, 2 store). -/
structure BankAcc where
  op : BankOp
  banks : List Nat
  port : Nat
  deriving DecidableEq, Repr

/-- The banks that len bytes from an offset touch; the idle half uses none (R244). -/
def banksOf (off len : Nat) : List Nat :=
  if 0x100000 ≤ off then [] else
  (List.range ((off % 64 + len + 63) / 64)).map fun i => (off / 64 + i) % 32

/-- The port of an access (R247). -/
def accPort (o : BankOp) : Nat :=
  match o.act with
  | .amoRead .. => 1
  | .amoWrite => 2
  | _ => if o.code = 0 then 1 else if o.code = 1 then 2 else 0

/-- A scheduled access as it meets the banks; one to the idle half meets nothing (R65). -/
def toAcc (o : BankOp) : BankAcc :=
  let b := banksOf o.off o.len
  ⟨o, b, if b = [] then 0 else accPort o⟩

/-- The lowest handle whose buffer takes an arrival from a port (R174). -/
def taker (c : Ctx) (port : Nat) : Option Nat :=
  let h := leastFrom (fun h => cbLink c h == port + 1) 8 0
  if h < 8 then some h else none

/-- An advance of lsu.cbadv lands on CBFILL (R162, R163). -/
def landAdvance (c : Ctx) (k : Nat) (aux : Word) : Ctx :=
  cregPut c k (cbAdvance c (k - 0x118) (bits aux.toNat 16 13) (bits aux.toNat 1 15) (aux.getLsbD 0))

/-- The context with the advances of the cycle made, as a deposit of the cycle meets it (R163). -/
def advanced (c : Ctx) (cnt : Nat) : Ctx :=
  c.flights.foldl (fun c f =>
    match f.tgt with
    | .creg k => if f.slot = 8 ∧ f.cnt = cnt then landAdvance c k f.aux else c
    | _ => c) c

/-- A move of the cycle writes CBCFG or CBFILL of a buffer (R163). -/
def cbMoved (c : Ctx) (cnt h : Nat) : Bool :=
  c.flights.any fun f => f.cnt == cnt && f.slot != 8 && (f.tgt == .creg (0x110 + h) || f.tgt == .creg (0x118 + h))

/-- Only the deposit of an arrival is still to be made (R163). -/
def arrLate (a : Arrival) : Bool := decide (4 ≤ a.port)

/-- The buffer that an arrival is for, by the context before the writes of its cycle: the one that names its port, or the one it
waits for (R163, R174). -/
def arrBuf (c : Ctx) (a : Arrival) : Option Nat := if arrLate a then some (a.port - 4) else taker c a.port

/-- The buffer into which an arrival is deposited in this cycle, where c is the context before the cycle's writes and d has its
advances and the deposits that come first (R163, R174). -/
def depositTo (c d : Ctx) (cnt : Nat) (a : Arrival) : Option Nat :=
  match arrBuf c a with
  | some h => if cbMoved c cnt h || !cbValid d h || cbFree d h = 0 then none else some h
  | none => none

/-- The arrivals of a cycle that are deposited, each with its buffer and the context that its deposit meets, and the context after
them all (R174). -/
def arriving (c : Ctx) (cnt : Nat) (as : List Arrival) : Ctx × List (Nat × Ctx × Arrival) :=
  as.foldl (fun acc a =>
    match depositTo c acc.1 cnt a with
    | some h => (cbDeposited acc.1 h false, acc.2 ++ [(h, acc.1, a)])
    | none => acc) (advanced c cnt, [])

/-- The link deposits of a cycle that write banks (R174, R247). -/
def linkOps (c : Ctx) (cnt : Nat) (as : List Arrival) : List BankOp :=
  (arriving c cnt (as.filter fun a => a.cnt == cnt)).2.filterMap fun (h, d, a) =>
    if cbKind d h then
      some { cnt := 0, code := 3, act := .link, off := cbSlotOff d h (cbWr d h), len := 128, val := a.val }
    else none

/-- The part that the tile port moves in a cycle (R146). -/
def tileOps (c : Ctx) : List BankOp :=
  c.tport.filterMap fun p =>
    if p.moved = 0 then none
    else some { cnt := 0, code := 4, act := .tile, off := p.off + 256 * (p.moved - 1), len := 256 }

/-- The arrivals of a context (R81). -/
def arrivalsOf (x : Cell) (fw : Bool) : List Arrival := x.arrivals.filter fun a => a.fw == fw

/-- Every access of a context in the cycle whose accesses have count cnt (R247). -/
def cycleAccs (c : Ctx) (as : List Arrival) (cnt : Nat) : List BankAcc :=
  ((c.bankOps.filter (·.cnt == cnt)) ++ tileOps c ++ linkOps c cnt as).map toAcc

/-- Two accesses meet in a bank or on a port (R248). -/
def meets (a b : BankAcc) : Bool := a.banks.any b.banks.contains || (a.port != 0 && a.port == b.port)

/-- The accesses of the cycle, each with whether it takes part in a conflict (R248). -/
def conflicts (l : List BankAcc) : List (BankAcc × Bool) :=
  (List.range l.length).zip l |>.map fun (i, a) =>
    (a, (List.range l.length).zip l |>.any fun (j, b) => i != j && meets a b)

/-- The two lowest requester codes of a list of accesses. -/
def twoLowest (l : List BankAcc) : Nat × Nat :=
  let c := ((List.range 8).map fun k => List.replicate (l.filter fun a => a.op.code == k).length k).flatten
  (c.getD 0 0, c.getD 1 0)

/-- INFO0 of a BANKC trap: the lowest conflicting bank and the two lowest requesters there (R213, R248). -/
def bankInfo (l : List BankAcc) : Option Word :=
  let inBank (b : Nat) := l.filter fun a => a.banks.contains b
  let onPort (p : Nat) := l.filter fun a => a.port == p
  let low (l : List BankAcc) : Nat := (l.map fun a => a.banks.foldl min 31).foldl min 31
  let cand : List (Nat × List BankAcc) :=
    ((List.range 32).map fun b => (b, inBank b)) ++ [(low (onPort 1), onPort 1), (low (onPort 2), onPort 2)]
  let cand := cand.filter fun x => decide (1 < x.2.length)
  match cand with
  | [] => none
  | x :: xs =>
    let y := xs.foldl (fun a b => if b.1 < a.1 then b else a) x
    let (p, q) := twoLowest y.2
    some (BitVec.ofNat 64 (y.1 + p * 2 ^ 8 + q * 2 ^ 12))

/-- Bytes at a scratchpad offset; offsets from 0x100000 name the half that is idle when the access arrives (R65). -/
def spRead (c : Cell) (off len : Nat) : Nat :=
  if off < 0x100000 then readNat c.spad off len
  else readNat (if c.ispAct then c.isp0 else c.isp1) (off - 0x100000) len

/-- The offset at which an access names a marked word of the scratchpad or of the idle half (R65, R381; log 22). -/
def spMark (c : Cell) (p : Nat × Nat × Nat) : Option Nat :=
  let a := 64 * p.2.1 + 8 * p.2.2
  let half := if c.ispAct then 0 else 65536
  if p.1 = 6 ∧ a < 0x100000 then some a
  else if p.1 = 8 ∧ half ≤ a ∧ a < half + 65536 then some (0x100000 + a - half)
  else none

/-- A range of the scratchpad holds a poisoned word (R380). -/
def spBad (c : Cell) (off len : Nat) : Bool :=
  c.poison.any fun p => match spMark c p with
    | some a => decide (a < off + len) && decide (off < a + 8)
    | none => false

/-- Write bytes at a scratchpad offset (R65); a word that is written whole loses its mark (R379). -/
def spWrite (c : Cell) (off len v : Nat) : Cell :=
  let c := if c.poison = [] then c else unmark (fun p => match spMark c p with
    | some a => decide (off ≤ a) && decide (a + 8 ≤ off + len)
    | none => false) c
  if off < 0x100000 then { c with spad := writeNat c.spad off len v }
  else if c.ispAct then { c with isp0 := writeNat c.isp0 (off - 0x100000) len v }
  else { c with isp1 := writeNat c.isp1 (off - 0x100000) len v }

/-- Fill in the value of the result with an identifier; one whose value a restored or written snapshot slot has given takes only
the zero of a conflict (R248, R302, R361). -/
def fillFlight (c : Ctx) (id : Nat) (zero : Bool) (v : Vec) : Ctx :=
  { c with flights := c.flights.map fun f =>
      if f.id = id ∧ f.wait = .none ∧ id ≠ 0 ∧ (zero ∨ f.aux = 0) then { f with val := v } else f }

/-- Change the later accesses of a group. -/
def modGroup (c : Ctx) (g : Nat) (f : BankOp → BankOp) : Ctx :=
  { c with bankOps := c.bankOps.map fun o => if o.grp = g ∧ g ≠ 0 then f o else o }

/-- Bytes moved by part i of a tile load; a suppressed part is zero (R146, R248). -/
def tilePart (p : TPort) (v : Nat) : TPort :=
  let i := p.moved - 1
  { p with val := BitVec.ofNat 65536 (setBits p.val.toNat (2048 * i) 2048 v) }

/-- One access is made in its cycle, or suppressed (R145, R149, R155, R248). -/
def bankAct (st : State) (n : Nat) (fw : Bool) (x : BankAcc × Bool) : State :=
  let o := x.1.op
  let sup := x.2
  let cell := getCell st n
  match o.act with
  | .load id sg =>
    let v := if sup then 0 else spRead cell o.off o.len
    modCtx st n fw fun c =>
      fillFlight c id sup (if sg then (sext64 (8 * o.len) v).zeroExtend 1024 else BitVec.ofNat 1024 v)
  | .store => if sup then st else modCell st n fun c => spWrite c o.off o.len o.val.toNat
  | .amoRead id vec aop a k =>
    let dead := sup || o.dead
    if o.ext ≠ 0 && !dead then st else
    let v := spRead cell o.off o.len
    let e := 8 * aopSize (bits aop.toNat 0 4)
    let w := BitVec.ofNat 1024 (aopVec aop.toNat (8 * o.len / e) v a.toNat k.toNat)
    modCtx st n fw fun c =>
      let c := fillFlight c id dead (if dead then 0 else if vec then BitVec.ofNat 1024 v else (aopOld aop.toNat v).zeroExtend 1024)
      modGroup c o.grp fun p => { p with val := w, dead := p.dead || dead }
  | .amoHold =>
    if sup then modCtx st n fw fun c => modGroup (fillFlight c o.grp true 0) o.grp fun p => { p with dead := true } else st
  | .amoWrite =>
    if sup || o.dead then modCtx st n fw fun c => fillFlight c o.grp true 0
    else modCell st n fun c => spWrite c o.off o.len o.val.toNat
  | .cpyRead sf df dst cnt =>
    if o.ext ≠ 0 && !sup then st else
    let v := if sup then 0 else spRead cell o.off o.len
    let (r, nan, inf) := copyConvert sf df cnt v
    let conv := decide (sf ≠ 0 ∧ df ≠ 0 ∧ sf ≠ df)
    let rcd := if conv then excRecord o.off (copyCause df) 8 2 n else 0
    modCtx st n fw fun c => modGroup c o.grp fun p =>
      match p.act with
      | .cpyWrite _ =>
        { p with
          off := dst
          val := BitVec.ofNat 1024 (r % 2 ^ (8 * p.len))
          ext := BitVec.ofNat 256 (nan + inf * 2 ^ 64 + rcd * 2 ^ 128) }
      | _ => p
  | .cpyWrite ss =>
    let st := if sup then st else modCell st n fun c => spWrite c o.off o.len o.val.toNat
    let e := o.ext.toNat
    let nan := bits e 0 64
    let inf := bits e 64 64
    let rcd := bits e 128 128
    if nan = 0 ∧ inf = 0 then st else
    let v : Vec := BitVec.ofNat 1024 (nan + inf * 2 ^ 128 + rcd * 2 ^ 256)
    let f : Flight := { tgt := .counts, val := v, cnt := 0, slot := 15, aux := BitVec.ofNat 64 (2 * ss) }
    modCtx st n fw fun c => { c with flights := c.flights ++ [f] }
  | .cbRead => st
  | .link => if sup then st else modCell st n fun c => spWrite c o.off o.len o.val.toNat
  | .tile =>
    match (getCtx st n fw).tport.find? (fun p => decide (p.moved ≠ 0)) with
    | none => st
    | some p =>
      let i := p.moved - 1
      if p.store then
        if sup then st else modCell st n fun c => spWrite c o.off 256 (bits p.val.toNat (2048 * i) 2048)
      else
        let v := if sup then 0 else spRead cell o.off 256
        modCtx st n fw fun c => { c with
          tport := c.tport.map fun q => if q.moved ≠ 0 then tilePart q v else q }

/-- The tile port after the cycle: a part more has moved; a whole load lands its tile in the next cycle (R146). -/
def tileStep (c : Ctx) : Ctx :=
  let done := c.tport.filter fun p => p.moved == 32 && !p.store
  { c with
    tport := (c.tport.filter fun p => p.moved != 32).map fun p => { p with moved := p.moved + 1 }
    tland := c.tland ++ done.map fun p => ⟨2, p.tile, false, false, 0, p.val, 0, 0, 0, true⟩ }

/-- An access reads only; it acts before the writes of its cycle, so that a load sees no store of the same cycle (R145). -/
def isRead (o : BankOp) : Bool := match o.act with
  | .load .. => true
  | _ => false

/-- The bank accesses of the cycle that ends, and the BANKC trap of their conflicts (R248). -/
def bankPhase (st : State) (n : Nat) (fw : Bool) : State × List (Nat × Nat × Bool × Word × Word) :=
  let c := getCtx st n fw
  let arr := arrivalsOf (getCell st n) fw
  let accs := conflicts (cycleAccs c arr 1)
  let st := (accs.filter fun x => isRead x.1.op).foldl (fun st x => bankAct st n fw x) st
  let st := (accs.filter fun x => !isRead x.1.op).foldl (fun st x => bankAct st n fw x) st
  let st := modCtx st n fw fun c =>
    tileStep { c with
      bankOps := (c.bankOps.filter fun o => o.cnt != 1).map fun o => { o with cnt := o.cnt - 1 } }
  let traps := match bankInfo ((accs.filter (·.2)).map (·.1)) with
    | some i => [(2, 15, false, i, (0 : Word))]
    | none => []
  (st, traps)

/-! ### Collisions -/

/-- A write that lands: its target as a number, SPACE, CODE, slot, value, and whether it is conditional (R75, R403). -/
structure ColWrite where
  key : Nat
  space : Nat
  code : Nat
  slot : Nat
  val : Vec
  cond : Bool
  deriving DecidableEq, Repr

/-- Number of a function unit. -/
def unitNum : FUnit → Nat
  | .alu0 => 0 | .alu1 => 1 | .mul => 2 | .cmp => 3 | .sys => 4 | .vx0 => 5 | .vx1 => 6 | .vf => 7 | .vr => 8
  | .lsu => 9 | .xlt => 10 | .ce => 11 | .lnk => 12

/-- A target as a number; none for counts, which never collide. -/
def tgtKey : Target → Option Nat
  | .xreg i => some i
  | .xsreg i => some (0x100 + i)
  | .slat l => some (0x200 + sIdx l)
  | .vlat l => some (0x300 + vIdx l)
  | .creg k => some (0x1000 + k)
  | .vreg i => some (0x2000 + i)
  | .pred i _ => some (0x3000 + i)
  | .port u => some (0x4000 + unitNum u)
  | .divide => some 0x5000
  | .counts => none
  | .handle h => some (0x6000 + h)

/-- CODE of a scalar latch within its SPACE (R403). -/
def slatCode : SLatch → Nat × Nat
  | .alu0o => (0, 0x40) | .alu1o => (0, 0x41) | .mulo => (0, 0x42) | .cmpo => (0, 0x43) | .cmpc => (0, 0x44)
  | .bro => (0, 0x45) | .syso => (0, 0x46) | .sysm => (0, 0x47)
  | .lsuo => (2, 0) | .lsuh => (2, 1) | .lsud => (2, 2) | .lsuc => (2, 3) | .lsuaop => (2, 4) | .xlto => (2, 8)
  | .cesrc => (2, 0x10) | .cedst => (2, 0x11) | .celen => (2, 0x12) | .cectl => (2, 0x13)
  | .cesrc2 => (2, 0x10) | .cedst2 => (2, 0x11) | .celen2 => (2, 0x12) | .cectl2 => (2, 0x13)
  | .alu0r => (5, 0x40) | .alu1r => (5, 0x41) | .mulr => (5, 0x42) | .cmpr => (5, 0x43) | .lsur => (5, 0x44)
  | .xltr => (5, 0x45) | .cer => (5, 0x46) | .vrx => (5, 0x47) | .brr => (5, 0x48) | .sysr => (5, 0x49)

/-- CODE of a vector latch within its SPACE (R403). -/
def vlatCode : VLatch → Nat × Nat
  | .vx0o => (1, 0x280) | .vx1o => (1, 0x281) | .vfo => (1, 0x282) | .vfm => (1, 0x283) | .vro => (1, 0x284)
  | .vrm => (1, 0x285) | .lsuvc => (2, 0x200)
  | .vx0r => (5, 0xA0) | .vx1r => (5, 0xA1) | .vfr => (5, 0xA2) | .vrr => (5, 0xA3) | .mxr => (5, 0xA4)
  | .lnkn => (5, 0xA5) | .lnke => (5, 0xA6) | .lnks => (5, 0xA7) | .lnkw => (5, 0xA8)
  | .lsuvr => (5, 0xA9) | .xfr => (5, 0xAA)

/-- SPACE and CODE of a write in flight (R403). -/
def tgtCode (f : Flight) : Nat × Nat :=
  match f.tgt with
  | .xreg i => (0, if f.slot = 15 then i else f.aux.toNat)
  | .xsreg i => (0, i)
  | .slat l => slatCode l
  | .vlat l => vlatCode l
  | .creg k => (if 0x100 ≤ k ∧ k ≤ 0x102 then 4 else 0, k)
  | .vreg i => (1, i)
  | .pred i _ => (3, i)
  | .port u => (if unitNum u < 5 then 0 else 1, f.aux.toNat)
  | .divide => (6, 0)
  | .counts => (6, 1)
  | .handle h => (6, 0x10 + h)

/-- The writes of flights that land. -/
def flightWrites (fs : List Flight) : List ColWrite :=
  fs.filterMap fun f =>
    match tgtKey f.tgt with
    | none => none
    | some k =>
      let cond := match f.tgt with
        | .pred _ c => c
        | _ => false
      some ⟨k, (tgtCode f).1, (tgtCode f).2, f.slot, f.val, cond⟩

/-- Key of a tile register. -/
def tileKey (t : Nat) : Nat := 0x7000 + t

/-- The writes of tile landings; a split's TSHAPE meets a move to it (R199). -/
def tileWrites (ts : List TLand) : List ColWrite :=
  (ts.map fun t =>
    let w : ColWrite := ⟨tileKey t.tile, 6, 0x20 + t.tile, 15, t.val.truncate 1024, false⟩
    if t.split then [w, ⟨0x1000 + 0x140 + t.tile, 0, 0x140 + t.tile, 15, t.tshape.zeroExtend 1024, false⟩] else [w]).flatten

/-- Keys that two writes of the cycle reach and that keep their old value (R75, R76). -/
def colKeys (ws : List ColWrite) : List Nat :=
  let ks := (ws.map (·.key)).eraseDups
  ks.filter fun k =>
    let g := ws.filter fun w => w.key == k
    decide (1 < g.length) && !g.all (·.cond)

/-- The colliding group that COLA and COLB record: lowest SPACE, then lowest CODE (R77). -/
def firstGroup (ws : List ColWrite) (ks : List Nat) : List ColWrite :=
  let gs := ks.map fun k => ws.filter fun w => w.key == k
  let num (g : List ColWrite) : Nat := match g with
    | w :: _ => w.space * 2 ^ 16 + w.code
    | [] => 0
  match gs with
  | [] => []
  | g :: gs => gs.foldl (fun a b => if num b < num a then b else a) g

/-- Writes in ascending slot order, older first. -/
def bySlot (ws : List ColWrite) : List ColWrite :=
  ((List.range 16).map fun k => ws.filter fun w => w.slot == k).flatten

/-- The value of COLA or COLB (R77). -/
def colReg (w : ColWrite) : BitVec 1056 :=
  BitVec.ofNat 1056 (w.val.toNat + 2 ^ 1024 + w.code % 1024 * 2 ^ 1039 + w.space * 2 ^ 1049 + w.slot * 2 ^ 1052)

/-- A register that the repair class maps out (R353). -/
def mappedOut (c : Cell) (i : Nat) : Bool := decide (160 - 8 * bits c.lver.toNat 0 3 ≤ i % 160)

/-- A predicate register file with bit i set to b. -/
def setPred (p : Word) (i : Nat) (b : Bool) : Word := BitVec.ofNat 64 (setBits p.toNat i 1 (b2n b))

/-- The structure and number of a target (R381; log 22): those of the firmware context lie 0x8000 higher. -/
def tgtMark (fw : Bool) (t : Target) : Option (Nat × Nat) :=
  let o := if fw then 0x8000 else 0
  match t with
  | .xreg i => some (1, o + i)
  | .xsreg i => some (1, o + 64 + i)
  | .vreg i => some (2, o + i)
  | .slat l => some (5, o + sIdx l)
  | .vlat l => some (5, o + 32 + vIdx l)
  | .creg k => some (10, o + k)
  | .divide => some (5, o + sIdx .mulr)
  | _ => none

/-- A write of a whole target clears its marks (R379). -/
def unmarkTgt (st : State) (n : Nat) (fw : Bool) (t : Target) : State :=
  match tgtMark fw t with
  | some m => unmarkAt st n fun p => p.1 == m.1 && p.2.1 == m.2
  | none => st

/-- A write of a tile, or of the masked bytes of a line of one, clears the marks of the words it covers (R379). -/
def unmarkTile (st : State) (n : Nat) (fw : Bool) (t : TLand) : State :=
  unmarkAt st n fun p => p.1 == 3 && p.2.1 == (if fw then 0x8000 else 0) + t.tile &&
    (!t.pack || (p.2.2 / 16 == t.line && bits t.mask.toNat (8 * (p.2.2 % 16)) 8 == 255))

/-- One write lands (R69, R79). -/
def applyFlight (st : State) (n : Nat) (fw : Bool) (f : Flight) : State :=
  let st := unmarkTgt st n fw f.tgt
  match f.tgt with
  | .xreg i => modCtx st n fw fun c => { c with x := smSet 0 c.x i (f.val.truncate 64) }
  | .xsreg i => modCtx st n fw fun c => { c with xs := smSet 0 c.xs i (f.val.truncate 64) }
  | .vreg i => if mappedOut (getCell st n) i then st else modCtx st n fw fun c => { c with v := smSet 0 c.v i f.val }
  | .slat l => modCtx st n fw fun c => sPut c l (f.val.truncate 64)
  | .vlat l => modCtx st n fw fun c => vPut c l f.val
  | .creg k =>
    if f.slot = 8 then modCtx st n fw fun c => landAdvance c k f.aux else landCreg st n fw k (f.val.truncate 64)
  | .pred i _ =>
    modCtx st n fw fun c => { c with p := setPred c.p i (f.val.getLsbD 0) }
  | .port _ => st
  | .divide => modCtx st n fw fun c => { sPut c .mulr (f.val.truncate 64) with dv := f.dv }
  | .counts =>
    let v := f.val.toNat
    let rcd := bits v 256 256
    if f.aux = 1 then modCell (fresh st) n (appendRecord (st.seq + 1) false (BitVec.ofNat 256 rcd))
    else landCounts st n fw 128 (bits v 0 128) (bits v 128 128) rcd (f.aux.toNat / 2) (f.aux != 0)
  | .handle h =>
    modCtx st n fw fun c => { c with ph := smSet Handle.invalid c.ph h { f.h with v := f.h.v && f.ext == 0 } }

/-- Conditional writes of a predicate combine: clearing writes act before setting ones (R76). -/
def condFirst (fs : List Flight) : List Flight :=
  let isC (f : Flight) (b : Bool) : Bool := match f.tgt with
    | .pred _ true => f.val.getLsbD 0 == b
    | _ => false
  (fs.filter fun f => !isC f true) ++ fs.filter fun f => isC f true

/-- Counts land after the moves of the cycle (R126), their records in slot order (R26). -/
def countsLast (fs : List Flight) : List Flight :=
  let cs := fs.filter fun f => f.tgt == .counts
  (fs.filter fun f => f.tgt != .counts) ++
    ((List.range 16).map fun k => cs.filter fun f => bits f.val.toNat 284 4 == k).flatten

/-- A tile register lands (R37, R146, R199, R204, R205). DESIGN CHOICE (log 85): a split's TSHAPE stands over the cursor that a
push moves in the cycle. -/
def applyTile (st : State) (n : Nat) (fw : Bool) (ks : List Nat) (t : TLand) : State :=
  let st := if ks.contains (tileKey t.tile) || (t.tile == 15 && bit (getCell st n).lver.toNat 7) then st else
    modCtx (unmarkTile st n fw t) n fw fun c =>
      let v := if t.pack then
          let a := 1024 * t.line
          let old := (smGet 0 c.tiles t.tile).toNat
          BitVec.ofNat 65536 (setBits old a 1024 (mergeBytes 128 t.mask.toNat t.val.toNat (bits old a 1024)))
        else t.val
      let c := { c with tiles := smSet 0 c.tiles t.tile v }
      cregPut c (0x150 + t.tile) (if t.split then t.tdmap else 0)
  if t.split && !ks.contains (0x1000 + 0x140 + t.tile) then
    modCtx st n fw fun c => cregPut c (0x140 + t.tile) (BitVec.ofNat 64 (cregWrite 0x140 0 t.tshape.toNat))
  else st

/-- The staging register of a port (R173). -/
def stagingOf (port : Nat) : VLatch := match port with | 0 => .lnkn | 1 => .lnke | 2 => .lnks | _ => .lnkw

/-- A trap CBOVR of an arrival (R174, R212). -/
def arriveTrap (h : Nat) : Nat × Nat × Bool × Word × Word := (0x0B, 15, false, BitVec.ofNat 64 h, 0)

/-- An arrival reaches staging and the buffer that it is for (R173, R174). late: buffers that a move of the
cycle wrote, whose deposit waits for the next cycle (R163). ks: colliding targets. The banks of a KIND 1 slot are written as a
link deposit (R247). -/
def landArrival (n : Nat) (late : List Nat) (ks : List Nat) (acc : State × List (Nat × Nat × Bool × Word × Word))
    (p : Arrival × Option Nat) : State × List (Nat × Nat × Bool × Word × Word) :=
  let (st, ts) := acc
  let a := p.1
  let st := if arrLate a then st else modCtx st n a.fw fun c => vPut c (stagingOf a.port) a.val
  let c := getCtx st n a.fw
  match p.2 with
  | none => (st, ts)
  | some h =>
    if late.contains h then
      (modCell st n fun x => { x with arrivals := x.arrivals ++ [{ a with port := h + 4, cnt := 1 }] }, ts)
    else if !cbValid c h || cbFree c h = 0 then (st, ts ++ [arriveTrap h])
    else (depositWith st n a.fw h false (!ks.contains (0x2000 + cbSlotReg c h (cbWr c h))) false a.val, ts)

/-- The deposit from L2 or the copy engine that lands with a cycle: the oldest one for the context, unless a move of the cycle
writes the pointers of its buffer (R163). -/
def boxed (x : Cell) (c : Ctx) (fw : Bool) (cnt : Nat) : Option Deposit :=
  match x.inbox.find? fun d => d.fw == fw with
  | some d => if cbMoved c cnt d.h then none else some d
  | none => none

/-- That deposit (R157, R161, R163, R171); a buffer that is no longer valid takes none, and the cell traps CBOVR. -/
def landBoxed (n : Nat) (ks : List Nat) (acc : State × List (Nat × Nat × Bool × Word × Word)) (d : Deposit) :
    State × List (Nat × Nat × Bool × Word × Word) :=
  let (st, ts) := acc
  let c := getCtx st n d.fw
  if cbValid c d.h then
    (depositWith st n d.fw d.h true (!ks.contains (0x2000 + cbSlotReg c d.h (cbWr c d.h))) true d.val, ts)
  else (st, ts ++ [arriveTrap d.h])

/-- The register that a deposit writes, as a write of the cycle (R163). -/
def depositWrite (d : Ctx) (h : Nat) (v : Vec) : List ColWrite :=
  let i := cbSlotReg d h (cbWr d h)
  if cbKind d h || !cbValid d h then [] else [⟨0x2000 + i, 1, i, 15, v, false⟩]

/-- The register writes of the deposits of a cycle (R163). -/
def depositWrites (c : Ctx) (as : List Arrival) (box : Option Deposit) : List ColWrite :=
  let (d, l) := arriving c 0 as
  ((l.map fun (h, d, a) => depositWrite d h a.val) ++
    match box with
    | some b => [depositWrite d b.h b.val]
    | none => []).flatten

/-- Everything whose cycle has come lands (R69, R75 to R77, R79): writes in flight, tiles and arrivals with count 0, and a
deposit that has come. The
traps are WCOLL and the CBOVR of arrivals; the number is that of colliding targets. -/
def landPhase (st : State) (n : Nat) (fw : Bool) : State × List (Nat × Nat × Bool × Word × Word) × Nat :=
  let c := getCtx st n fw
  let due (f : Flight) : Bool := f.cnt == 0 && f.wait == .none
  let fs := c.flights.filter due
  let tl := c.tland.filter (·.cnt == 0)
  let arr := (arrivalsOf (getCell st n) fw).filter fun a => a.cnt == 0
  let box := boxed (getCell st n) c fw 0
  let ws := flightWrites fs ++ tileWrites tl ++ depositWrites c arr box
  let ks := colKeys ws
  let late := (List.range 8).filter (cbMoved c 0)
  let st := modCtx st n fw fun c => { c with
    flights := c.flights.filter fun f => !due f, tland := c.tland.filter (·.cnt != 0) }
  let st := modCell st n fun x => { x with arrivals := x.arrivals.filter fun a => a.fw != fw || a.cnt != 0 }
  let st := match box with
    | some d => modCell st n fun x => { x with inbox := delFirst (· == d) x.inbox }
    | none => st
  let ok := fs.filter fun f => match tgtKey f.tgt with
    | some k => !ks.contains k
    | none => true
  let st := (countsLast (condFirst ok)).foldl (fun st f => applyFlight st n fw f) st
  let st := tl.foldl (fun st t => applyTile st n fw ks t) st
  let (st, ts) := (arr.map fun a => (a, arrBuf c a)).foldl (landArrival n late ks) (st, [])
  let (st, ts) := box.toList.foldl (landBoxed n ks) (st, ts)
  match bySlot (firstGroup ws ks) with
  | a :: b :: _ =>
    let st := modCtx st n fw fun c => { c with cola := colReg a, colb := colReg b }
    let i := a.code % 1024 + a.space * 2 ^ 10 + a.slot * 2 ^ 13
    let j := b.code % 1024 + b.space * 2 ^ 10 + b.slot * 2 ^ 13
    (st, (1, 15, false, BitVec.ofNat 64 (i + j * 2 ^ 32), (0 : Word)) :: ts, ks.length)
  | _ => (st, ts, 1)

/-- A result whose cycle has come still waits for its load (R78). -/
def landBlocked (c : Ctx) : Bool := c.flights.any fun f => f.cnt == 0 && f.wait != .none

/-- Something has come to land (R79). -/
def landDue (c : Ctx) : Bool := c.flights.any fun f => f.cnt == 0

/-- Count the cycle that ends in everything in flight (R79). -/
def countDown (st : State) (n : Nat) (fw : Bool) : State :=
  let st := modCtx st n fw fun c => { c with
    flights := c.flights.map fun f => { f with cnt := f.cnt - 1 }
    tland := c.tland.map fun t => { t with cnt := t.cnt - 1 } }
  modCell st n fun x => { x with
    arrivals := x.arrivals.map fun a => if a.fw == fw && (a.sync || a.cnt ≤ 1) then { a with cnt := a.cnt - 1 } else a }

/-- A result that waits for its load shares a target with another write that is due (R75, R78). -/
def waitClash (st : State) (n : Nat) (fw : Bool) : Bool :=
  let c := getCtx st n fw
  let fs := c.flights.filter (·.cnt == 0)
  let arr := (arrivalsOf (getCell st n) fw).filter fun a => a.cnt == 0
  let ks := colKeys (flightWrites fs ++ tileWrites (c.tland.filter (·.cnt == 0)) ++
    depositWrites c arr (boxed (getCell st n) c fw 0))
  fs.any fun f => f.wait != .none && (match tgtKey f.tgt with
    | some k => ks.contains k
    | none => false)

/-- The cycle ends: the banks act, everything in flight counts down, and what is due lands. A result that still waits for
its load lands when the load has bound; where it collides, every write of the cycle waits with it (R78, log 20). -/
def cycleEnd (st : State) (n : Nat) (fw : Bool) : State × List (Nat × Nat × Bool × Word × Word) × Nat :=
  let (st, t1) := bankPhase st n fw
  let st := countDown st n fw
  if waitClash st n fw then (st, t1, 1)
  else
    let (st, t2, k) := landPhase st n fw
    (st, t1 ++ t2, k)

end Sys2Proof.Machine
end

