-- ==== Sys2Proof/Machine/MemMachine.lean ====
section
/-!
DEFINITION. The steps of the abstract machine (R254 to R263): fill request, bind, acquire, drain, place, write back,
complete, SO, engine, record, perform and host, with the L2 fills of R339 and the completions of R171. A step whose
condition does not hold changes nothing (log 5).
-/

namespace Sys2Proof.Machine

/-! ### L1 -/

/-- A line of L1 that holds nothing. -/
def L1Line.empty : L1Line := ⟨0, 0, false, [], 0, .bare false 0⟩

/-- A line of a cell's L1. -/
def l1Get (c : Cell) (line : Nat) : L1Line := smGet L1Line.empty c.l1 line

/-- The line is in L1. -/
def l1Has (c : Cell) (line : Nat) : Bool := c.l1.any fun e => e.1 == line

/-- Replace a line; one whose words are all in state I is absent (R249). -/
def l1Put (c : Cell) (line : Nat) (l : L1Line) : Cell :=
  { c with l1 := if l.words = [] then smDel c.l1 line else smPut c.l1 line l }

/-- A word of a line, if it is in state C or D. -/
def l1Word (l : L1Line) (w : Nat) : Option L1Word := (l.words.find? fun e => e.1 == w).map Prod.snd

/-- A line leaves L1, with the marks of structure 9 on it (R381; log 22). -/
def l1Drop (c : Cell) (line : Nat) : Cell :=
  { c with l1 := smDel c.l1 line, poison := c.poison.filter fun p => !(p.1 == 9 && p.2.1 == line) }

/-- A line is used: it is the most recent of its set (R249). -/
def l1Used (age line : Nat) (c : Cell) : Cell :=
  if l1Has c line then { c with l1 := smPut c.l1 line { l1Get c line with age := age } } else c

/-- The line holds a D word. -/
def l1Dirty (l : L1Line) : Bool := l.words.any fun e => e.2.dirty

/-- The clean words of a line become I (R250). -/
def l1Clean (l : L1Line) : L1Line := { l with words := l.words.filter fun e => e.2.dirty }

/-- An acquire of a scope on a cell's L1: RC lines, and for a fence UO lines too (R250, R256). -/
def invalidate (scope : Nat) (fence : Bool) (c : Cell) : Cell :=
  if scope = 0 then c
  else l1Keep (c.l1.map fun e => if e.2.kind = 1 ∨ (fence ∧ e.2.kind = 2) then (e.1, l1Clean e.2) else e) c

/-! ### Markers and queues -/

/-- Number of a queue entry. -/
def loadId : LoadEnt → Nat
  | .load id .. => id
  | .acq id .. => id

/-- The entry is a load. -/
def isLoad : LoadEnt → Bool
  | .load .. => true
  | .acq .. => false

/-- Every marker with a number up to m is complete (R252: markers complete in order). -/
def markersDone (c : Cell) (m : Nat) : Bool := !c.markers.any fun k => decide (k.id ≤ m)

/-- Every load older than a number has bound (R257). -/
def loadsDone (c : Cell) (m : Nat) : Bool :=
  !(c.loadq.any fun e => isLoad e && decide (loadId e < m)) &&
    (match c.soq with
     | some q => q.store || decide (m ≤ q.id)
     | none => true)

/-- The slice selector of a home. -/
def homeSel : Home → Nat
  | .slice _ sl => sl + 1
  | .host => 0

/-- A line number as L1 holds it: the lines of host pages are apart (R255). -/
def keyLine (host : Bool) (line : Nat) : Nat := if host then line + 2 ^ 57 else line

/-- The physical line of an L1 line. -/
def physLine (line : Nat) : Nat := line % 2 ^ 57

/-- A fill of the line is under way for the cell (R257). -/
def fillPending (s : State) (n line : Nat) : Bool :=
  s.chan.any fun m => m.cell == n && (match m.op with
    | .fill l _ => keyLine (m.home == .host) l == line
    | _ => false)

/-- The youngest store older than a number that covers a byte: the byte (R257). -/
def bufByte (l : List StoreEnt) (id a : Nat) : Option Nat :=
  l.foldl (fun r e => match e with
    | .store sid pa len v _ _ _ _ _ =>
      if sid < id ∧ pa ≤ a ∧ a < pa + len then some (bits v.toNat (8 * (a - pa)) 8) else r
    | .mark _ => r) none

/-- A byte as a load of the cell binds it: from the store buffer, else from an L1 word in C or D that is not poisoned
(R257, R380). -/
def boundByte (c : Cell) (id a : Nat) : Option Nat :=
  match bufByte c.storeb id a with
  | some b => some b
  | none =>
    match l1Word (l1Get c (a / 128)) (a % 128 / 4) with
    | some w => if w.poison then none else some (bits w.val.toNat (8 * (a % 4)) 8)
    | none => none

/-- Bytes bound by a load, or none when one is missing. -/
def boundBytes (c : Cell) (id a : Nat) : Nat → Option Nat
  | 0 => some 0
  | n + 1 =>
    match boundByte c id a, boundBytes c id (a + 1) n with
    | some b, some r => some (b + 256 * r)
    | _, _ => none

/-- A byte lacks a word in C or D (R257). -/
def lacksByte (c : Cell) (id a : Nat) : Bool :=
  (bufByte c.storeb id a).isNone && (l1Word (l1Get c (a / 128)) (a % 128 / 4)).isNone

/-- FILL_REQUEST: the load, or the narrow store at the head of the store buffer, that asks for a line. -/
def fillFor (c : Cell) (id : Nat) : Option (Nat × BitVec 2 × Nat × Bool × Origin) :=
  let ld := c.loadq.findSome? fun e => match e with
    | .load i pa len _ kind sl host o =>
      if i = id ∧ (List.range len).any (fun k => lacksByte c id (pa + k)) then some (pa / 128, kind, sl, host, o) else none
    | .acq .. => none
  match ld with
  | some r => some r
  | none =>
    match c.storeb with
    | .store i pa len _ kind sl host _ o :: _ =>
      if i = id ∧ len < 4 ∧ (l1Word (l1Get c (pa / 128)) (pa % 128 / 4)).isNone then some (pa / 128, kind, sl, host, o)
      else none
    | _ => none

/-- Fill the results that wait for a load with its value (R144). -/
def bindResult (s : State) (n : Nat) (fw : Bool) (id len : Nat) (sg : Bool) (v : Nat) : State :=
  let w : Vec := if sg then (sext64 (8 * len) v).zeroExtend 1024 else BitVec.ofNat 1024 v
  modCtx s n fw fun c => { c with
    flights := c.flights.map fun f => if f.wait = .load id then { f with val := w, wait := .none } else f }

/-- Two ranges share a byte. -/
def overlap (a n b m : Nat) : Bool := decide (a < b + m) && decide (b < a + n)

/-- BIND may take the load at this place of the queue (R257). -/
def bindable (c : Cell) (id : Nat) : Option (Nat × Nat × Bool × Bool × Nat) :=
  match c.loadq.find? fun e => loadId e == id with
  | some (.load _ pa len sg _ _ _ o) =>
    let older := c.loadq.takeWhile fun e => loadId e != id
    let free := older.all fun e => match e with
      | .acq .. => false
      | .load _ p l _ _ _ _ _ => !overlap p l pa len
    if free then (boundBytes c id pa len).map fun v => (pa, len, sg, o.fw, v) else none
  | _ => none

/-- The first acquire of the queue may act (R257). -/
def acquirable (c : Cell) : Option (Nat × Nat × Nat) :=
  match c.loadq.find? fun e => !isLoad e with
  | some (.acq id scope mark _) =>
    if loadsDone c id && (mark == 0 || markersDone c (mark - 1)) then some (id, scope, mark) else none
  | _ => none

/-- The store at the head waits for a fill or for a place in the FIFO (R250, R251). -/
def storeBlocked (c : Cell) : Bool :=
  match c.storeb with
  | .store _ pa len _ _ _ _ _ _ :: _ =>
    let l := l1Get c (pa / 128)
    (decide (len < 4) && (l1Word l (pa % 128 / 4)).isNone) || (!l1Dirty l && decide (64 ≤ c.fifo.length))
  | _ => false

/-- The store at the head may drain (R257, R258). -/
def drainable (c : Cell) : Bool :=
  match c.storeb with
  | .store id _ _ _ kind _ _ strict _ :: _ =>
    !storeBlocked c && !(c.markers.any fun m => decide (m.id < id) && (strict || kind == 1 || m.fence))
  | _ => false

/-- Words of a store of len bytes of v at pa over a line's words: they enter state D (R250), and know the stores whose bytes they
hold (R328). A poison mark goes only when one store writes the whole 64-bit word (R379). -/
def storeWords (ws : SMap L1Word) (pa len v : Nat) (o' : Origin) : SMap L1Word :=
  let o := pa % 128
  ((List.range 32).filter fun w => decide (4 * w < o + len) && decide (o < 4 * w + 4)).foldl (fun ws w =>
    let old := ((ws.find? fun e => e.1 == w).map Prod.snd).getD ⟨0, false, false, false, []⟩
    let mask := bits ((2 ^ len - 1) * 2 ^ o) (4 * w) 4
    let new := bits ((v % 2 ^ (8 * len)) * 2 ^ (8 * o)) (32 * w) 32
    let whole := bits ((2 ^ len - 1) * 2 ^ o) (8 * (w / 2)) 8 == 255
    smPut ws w ⟨BitVec.ofNat 32 (mergeBytes 4 mask new old.val.toNat), true, old.poison && !whole, old.whole || whole,
      if mask = 15 ∨ old.orgs.contains o' then (if mask = 15 then [o'] else old.orgs) else old.orgs ++ [o']⟩) ws

/-- The D words of a line enter the channel to its home as one message (R257). -/
def writeLine (s : State) (n line pos : Nat) : State :=
  let l := l1Get (getCell s n) line
  if l1Dirty l then
    sendMsg s n l.org (.cell n) (homeOf l.host l.slice (line * 128)) (.wb (physLine line) pos (l.words.filter fun e => e.2.dirty))
  else s

/-- The words of a line that has been written back are clean (R250). -/
def cleaned (ws : SMap L1Word) : SMap L1Word := ws.map fun w => (w.1, { w.2 with dirty := false, whole := false, orgs := [] })

/-- The FIFO position of the youngest entry of a line. -/
def linePos (c : Cell) (line : Nat) : Nat := (c.fifo.filter fun e => e.line == line).foldl (fun _ e => e.pos) 0

/-- A line is written back whole and leaves L1 (R250). -/
def evictLine (s : State) (n line : Nat) : State :=
  modCell (writeLine s n line (linePos (getCell s n) line)) n fun c => l1Drop c line

/-- The lines of L1 in the set of a line: the set is PA[15:7] (R249). -/
def l1Set (c : Cell) (line : Nat) : SMap L1Line := c.l1.filter fun e => e.1 % 512 == line % 512

/-- A line that comes to L1 takes a way: with 8 lines in its set, the least recently used leaves (R249, R250). -/
def l1Room (s : State) (n line : Nat) : State :=
  let c := getCell s n
  if l1Has c line then s else
  match l1Set c line with
  | [] => s
  | e :: es =>
    if es.length < 7 then s
    else evictLine s n (es.foldl (fun a b => if b.2.age < a.2.age then b else a) e).1

/-- FILL_REQUEST (R257): A fill of a line that a load or a narrow store needs enters the channel. -/
def execFillRequest (n : Nat) (id : Nat) (st : State) : Host.Outcome State Fault Refusal :=
  .next (match fillFor (getCell st n) id with
    | some (line, kind, sl, host, o) =>
      if fillPending st n line then st
      else sendMsg st n o (.cell n) (homeOf host sl (line * 128)) (.fill (physLine line) kind)
    | none => st)

/-- BIND (R257): A load takes its bytes from the store buffer and L1. -/
def execBind (n : Nat) (id : Nat) (st : State) : Host.Outcome State Fault Refusal :=
  .next (match bindable (getCell st n) id with
    | some (pa, len, sg, fw, v) =>
      let st := fresh st
      let used (c : Cell) : Cell := l1Used st.seq ((pa + len - 1) / 128) (l1Used st.seq (pa / 128) c)
      let st := modCell st n fun c => used { c with loadq := delFirst (fun e => loadId e == id) c.loadq }
      bindResult st n fw id len sg v
    | none => st)

/-- ACQUIRE (R257): The oldest acquire acts when every older load has bound. -/
def execAcquire (n : Nat) (st : State) : Host.Outcome State Fault Refusal :=
  .next (match acquirable (getCell st n) with
    | some (id, scope, mark) =>
      modCell st n fun c =>
        invalidate scope (mark != 0) { c with loadq := delFirst (fun e => loadId e == id) c.loadq }
    | none => st)

/-- The 64-bit words of an L1 line that a store writes whole lose their marks of structure 9 (R379, R381; log 22). -/
def unmarkL1 (pa len : Nat) (c : Cell) : Cell :=
  unmark (fun p => p.1 == 9 && p.2.1 == pa / 128 && decide (pa % 128 ≤ 8 * p.2.2) && decide (8 * p.2.2 + 8 ≤ pa % 128 + len)) c

/-- The store at the head of the store buffer enters L1, in a way of its set (R250, R251, R257). -/
def drainHead (st : State) (n : Nat) : State :=
  match (getCell st n).storeb with
  | .store _ pa len v kind sl host _ o :: rest =>
    let line := pa / 128
    let st := fresh (l1Room st n line)
    modCell st n fun c =>
      let old := if l1Has c line then l1Get c line else ⟨kind, sl, host, [], 0, o⟩
      let fifo := if l1Dirty old then c.fifo else c.fifo ++ [⟨st.seq, line⟩]
      l1Put (unmarkL1 pa len { c with storeb := rest, fifo := fifo }) line { old with
        words := storeWords old.words pa len v.toNat o, age := st.seq, org := o }
  | _ => st

/-- DRAIN (R257): The oldest store enters L1 as D words, with a FIFO entry. -/
def execDrain (n : Nat) (st : State) : Host.Outcome State Fault Refusal :=
  .next (if drainable (getCell st n) then drainHead st n else st)

/-- Place a marker: it records its position, or merges into the youngest of 16 placed ones (R252). -/
def placeMarker (pos id : Nat) (c : Cell) : Cell :=
  let placed := c.markers.filter fun m => m.pos.isSome
  if placed.length < 16 then
    { c with markers := c.markers.map fun m => if m.id = id then { m with pos := some pos } else m }
  else
    match placed.getLast?, c.markers.find? fun m => m.id == id with
    | some y, some m =>
      let wider : Marker := { y with
        scope := max y.scope m.scope, fence := y.fence || m.fence, pos := some pos, last := m.last, fw := y.fw || m.fw }
      { c with markers := (c.markers.filter fun k => k.id != id).map fun k => if k.id = y.id then wider else k }
    | _, _ => c

/-- PLACE (R257): A release marker enters the dirty-line FIFO. -/
def execPlace (n : Nat) (st : State) : Host.Outcome State Fault Refusal :=
  .next (match (getCell st n).storeb with
    | .mark id :: rest => modCell st n fun c => placeMarker st.seq id { c with storeb := rest }
    | _ => st)

/-- A line is written back: the FIFO head leaves the FIFO, any other line leaves L1 (R257). -/
def writeBackBody (st : State) (n line : Nat) : State :=
  let c := getCell st n
  match c.fifo with
  | e :: rest =>
    if e.line = line then
      let st := writeLine st n line e.pos
      modCell st n fun c =>
        let l := l1Get c line
        let c := { c with fifo := rest }
        if l1Has c line then l1Put c line { l with words := cleaned l.words } else c
    else evictLine st n line
  | [] => evictLine st n line

/-- WRITE_BACK (R257): D words of a line enter the channel; an evicted or clean line leaves L1. -/
def execWriteBack (n : Nat) (line : Nat) (st : State) : Host.Outcome State Fault Refusal :=
  .next (writeBackBody st n line)

/-- A message that a marker placed at a position waits for: a writeback of the cell up to there, for device scope or wider a
record older than the marker, and for system scope an older message to the host (R252, R257). -/
def markerWaits (n pos : Nat) (k : Marker) (m : Msg) : Bool :=
  (m.cell == n && (match m.op with
    | .wb _ p _ => decide (p ≤ pos)
    | .record _ _ _ rid => decide (3 ≤ k.scope) && decide (rid < k.last)
    | _ => false)) ||
  (decide (k.scope = 4) && m.home == .host && decide (m.id ≤ pos))

/-- The oldest marker is complete; what was merged into it counts as well (R252, R257, R259). -/
def completable (s : State) (n : Nat) : Option Nat :=
  let c := getCell s n
  match c.markers with
  | m :: _ =>
    match m.pos with
    | some p =>
      if !(c.fifo.any fun e => decide (e.pos ≤ p)) && !(s.chan.any (markerWaits n p m)) && loadsDone c m.last &&
          !(decide (3 ≤ m.scope) && c.records.any fun r => decide (r.id < m.last))
      then some m.id else none
    | none => none
  | [] => none

/-- COMPLETE (R257): The oldest marker completes. -/
def execComplete (n : Nat) (st : State) : Host.Outcome State Fault Refusal :=
  .next (match completable st n with
    | some id => modCell st n fun c => { c with markers := delFirst (fun m => m.id == id) c.markers }
    | none => st)

/-- The SO access enters its channel (R257). -/
def soBody (st : State) (n : Nat) : State :=
  let c := getCell st n
  match c.soq with
  | some q =>
    if q.sent || !loadsDone c q.id || !markersDone c q.id then st
    else
      let st := modCell st n fun c => { c with soq := some { q with sent := true } }
      sendMsg st n q.org (.cell n) (homeOf q.host q.slice q.pa)
        (if q.store then .soWrite q.id q.pa q.len q.val else .soRead q.id q.pa q.len)
  | none => st

/-- SO (R257): The SO access goes to its home. -/
def execSo (n : Nat) (st : State) : Host.Outcome State Fault Refusal := .next (soBody st n)

/-! ### The copy engine -/

/-- Memory or scratchpad sides of a command (R167). -/
def ceSsp (k : CeCmd) : Bool := bit k.ctl.toNat 16
@[inherit_doc ceSsp] def ceDsp (k : CeCmd) : Bool := bit k.ctl.toNat 17

/-- The engine has a message under way (R263). -/
def enginePending (s : State) (n : Nat) : Bool := s.chan.any fun m => m.sender == .engine n

/-- The engine waits for the answer of a read. -/
def readsOut (s : State) (n : Nat) : Bool :=
  s.chan.any fun m => m.sender == .engine n && (match m.op with
    | .engRead .. => true
    | _ => false)

/-- Destination bytes that the running command is to write: up to where it stops (R171, R172). -/
def ceGoal (r : CeRun) : Nat := r.stop.getD (ceDstLen r.cmd)

/-- The 64 bytes of the source at an offset, once they have come: the bytes, or none where they were refused. -/
def gotBlock (g : List (Nat × Nat × Option Vec)) (a : Nat) : Option (Option Vec) :=
  (g.find? fun e => decide (e.1 ≤ a) && decide (a + 64 ≤ e.1 + e.2.1)).map fun e =>
    e.2.2.map fun v => BitVec.ofNat 1024 (bits v.toNat (8 * (a - e.1)) 512)

/-- Every byte of the 128-byte destination block under way has come (R171). -/
def blockCome (r : CeRun) : Bool :=
  (List.range ((min (ceChunk r.cmd r.wr) (ceGoal r - r.wr) + 63) / 64)).all fun i => (gotBlock r.got (r.wr + 64 * i)).isSome

/-- The next piece of the destination (R170): its length, and its bytes, or none where the source was refused and nothing is
written (R331). The scratchpad takes 64-byte blocks (R295), memory up to 128 bytes. -/
def cePiece (r : CeRun) : Nat × Option Vec :=
  let b := (gotBlock r.got r.wr).join
  let c := (gotBlock r.got (r.wr + 64)).join
  match b, c with
  | some v, some w =>
    if !ceDsp r.cmd && decide (128 ≤ min (ceChunk r.cmd r.wr) (ceGoal r - r.wr))
    then (128, some (BitVec.ofNat 1024 (v.toNat + w.toNat * 2 ^ 512))) else (64, some v)
  | b, _ => (64, b)

/-- What the engine sends for one side of a command. -/
def ceOrigin (k : CeCmd) (h : Handle) : Origin := ⟨k.org.fw, k.org.baddr, h.vpage, h.gpage, pageSize h⟩

/-- A piece of the destination is written: to the scratchpad at once, to memory as a message (R170, R263). -/
def ceWrite (s : State) (n : Nat) (r : CeRun) (len : Nat) (v : Option Vec) : State :=
  let k := r.cmd
  let s := modCell s n fun c => { c with ce := some { r with
    wr := r.wr + len, got := r.got.filter fun e => decide (r.wr + len < e.1 + e.2.1) } }
  match v with
  | none => s
  | some v =>
    if ceDsp k then modCell s n fun c => spWrite c (k.dst + r.wr) len v.toNat
    else
      let pa := k.dh.ppage.toNat + k.dst + r.wr
      sendMsg s n (ceOrigin k k.dh) (.engine n) (homeOf k.dh.host (handleSlice k.dh) pa) (.engWrite pa len v)

/-- The engine meets a poisoned word while it reads for destination byte o: it stops at the 128-byte boundary of the destination
before that, and its record carries STATUS 2 (R171, R380). -/
def ceBreak (s : State) (n : Nat) (r : CeRun) (o : Nat) : State :=
  modCell s n fun c => { c with ce := some { r with
    status := if r.status = 0 then 2 else r.status
    stop := some (max r.wr (min (ceGoal r) (o - (r.cmd.dst + o) % 128))) } }

/-- A 64-byte block from the scratchpad to the scratchpad: read, converted when both formats differ, and written, with its counts
and records (R170, R246). -/
def ceLocal (s : State) (n : Nat) (r : CeRun) : State :=
  let k := r.cmd
  let (bs, bd, _) := copyPlan k.sfmt k.dfmt
  let off := k.src + r.wr * bs / bd
  let slen := 64 * bs / bd
  if spBad (getCell s n) off (min (ceChunk k r.wr) (ceGoal r - r.wr) * bs / bd) then ceBreak s n r r.wr else
  let v := spRead (getCell s n) off slen
  if k.sfmt = 0 ∨ k.dfmt = 0 ∨ k.sfmt = k.dfmt then ceWrite s n r 64 (some (BitVec.ofNat 1024 v))
  else
    let (w, nan, inf) := copyConvert k.sfmt k.dfmt (64 / bd) v
    let s := ceWrite s n r 64 (some (BitVec.ofNat 1024 (w % 2 ^ 512)))
    landCounts s n k.org.fw 128 nan inf (excRecord off (copyCause k.dfmt) 15 2 n) bs true

/-- The engine asks for the next piece of its source (R170, R263): of the scratchpad at once, of memory by a message. -/
def ceRead (s : State) (n : Nat) (r : CeRun) : State :=
  let k := r.cmd
  if ceGoal r ≤ r.rd then s
  else if ceSsp k then
    if spBad (getCell s n) (k.src + r.rd) 64 then ceBreak s n r r.rd
    else
      let v : Vec := BitVec.ofNat 1024 (spRead (getCell s n) (k.src + r.rd) 64)
      modCell s n fun c => { c with ce := some { r with rd := r.rd + 64, got := r.got ++ [(r.rd, 64, some v)] } }
  else
    let pa := k.sh.ppage.toNat + k.src + r.rd
    let len := min (ceGoal r - r.rd) (128 - pa % 128)
    let s := modCell s n fun c => { c with ce := some { r with rd := r.rd + len } }
    sendMsg s n (ceOrigin k k.sh) (.engine n) (homeOf k.sh.host (handleSlice k.sh) pa) (.engRead pa len r.rd)

/-- A command of a context has run to completion (R168). -/
def ceCount (s : State) (n : Nat) (fw : Bool) : State := modCtx s n fw fun c => { c with ceEnded := c.ceEnded + 1 }

/-- The running command ends: it joins the ended ones, unless its record is deposited already (R168, R171, R295). Reads that it no
longer needs are dropped. -/
def ceEnd (s : State) (n : Nat) (r : CeRun) : State :=
  let s := { s with chan := s.chan.filter fun m => !(m.sender == .engine n && (match m.op with
    | .engRead .. => true
    | _ => false)) }
  let s := modCell s n fun c => { c with
    ce := none
    ceDone := if r.early then c.ceDone else c.ceDone ++ [⟨r.cmd, r.wr, r.status, s.seq + 1⟩] }
  if r.status = 1 ∨ r.early then s else ceCount s n r.cmd.org.fw

/-- One step of the running command (R170, R172, R263). -/
def ceStep (s : State) (n : Nat) (r : CeRun) : State :=
  if ceGoal r ≤ r.wr then ceEnd s n r
  else if ceSsp r.cmd && ceDsp r.cmd then ceLocal s n r
  else if blockCome r then ceWrite s n r (cePiece r).1 (cePiece r).2
  else ceRead s n r

/-- The head of the engine queue acts (R156, R257, R263). -/
def engineHead (st : State) (n : Nat) : State :=
  let c := getCell st n
  match c.engq with
  | .atomic id pa off aop cas a k sl sysat host ret o :: rest =>
    let so := match c.soq with
      | some q => q.id == id
      | none => false
    if markersDone c id && (!so || loadsDone c id) then
      let st := modCell (evictLine st n (keyLine host (pa / 128))) n fun c => { c with engq := rest }
      sendMsg st n o (.cell n) (homeOf host sl pa) (.atomic pa off aop cas a k sysat ret id)
    else st
  | .ce id k :: rest =>
    if k.ab then
      modCell st n fun c => { c with engq := rest, ceDone := c.ceDone ++ [⟨k, 0, 1, st.seq + 1⟩] }
    else if markersDone c id && !enginePending st n then
      modCell st n fun c =>
        let c := if bit k.ctl.toNat 41 then invalidate (bits k.ctl.toNat 43 3) false c else c
        { c with engq := rest, ce := some ⟨k, 0, 0, [], none, 0, false⟩ }
    else st
  | [] => st

/-- ENGINE (R257, R263): The head of the engine queue, or the running copy, takes its next step. -/
def execEngine (n : Nat) (st : State) : Host.Outcome State Fault Refusal :=
  .next (match (getCell st n).ce with
    | some r => ceStep st n r
    | none => engineHead st n)

/-- A trap that a context takes between two bundles, with the first bundle not yet issued (R212, R380). -/
def trapNow (st : State) (n : Nat) (fw : Bool) (t : Nat × Nat × Bool × Word × Word) : State :=
  let c := getCtx st n fw
  takeTrap st n fw [t] 1 (nextAddr c) c.scyc

/-- A context takes cycles: what comes to it lands with the end of one. -/
def running (x : Cell) (fw : Bool) : Bool :=
  if fw then x.fwRun && x.fwStop.isNone else x.task.isSome && x.frozen.isNone && !x.hold

/-- A returned slot or a completion record goes into its buffer at a cycle boundary (R157, R161, R171). -/
def depositNow (st : State) (n : Nat) (fw : Bool) (h : Nat) (v : Vec) : State :=
  if cbValid (getCtx st n fw) h then deposit st n fw h true v
  else trapNow st n fw (arriveTrap h)

/-- Everything that has come for a context is deposited, with no cycle under way (R79, R163). -/
def landInbox (st : State) (n : Nat) (fw : Bool) : State :=
  let l := (getCell st n).inbox.filter fun d => d.fw == fw
  if l = [] then st else
  let st := modCell st n fun x => { x with inbox := x.inbox.filter fun d => d.fw != fw }
  l.foldl (fun st d => depositNow st n d.fw d.h d.val) st

/-- A returned slot or a completion record comes to the cell (R157, R161, R171). The deposit lands with the end of the cycle that a
running context has under way, where it may meet its moves (R163, log 89); a context without a cycle takes it at once. -/
def depositInto (st : State) (n : Nat) (fw : Bool) (h : Nat) (v : Vec) : State :=
  if running (getCell st n) fw then modCell st n fun x => { x with inbox := x.inbox ++ [⟨fw, h, v⟩] }
  else depositNow (landInbox st n fw) n fw h v

/-- The oldest ended command may report (R171, R263). -/
def reportable (st : State) (n : Nat) (d : CeDone) : Bool :=
  !bit d.cmd.ctl.toNat 42 || !(st.chan.any fun m => m.sender == .engine n && decide (m.id < d.id))

/-- The completion record of a command, deposited if CMPL is 1 (R171). -/
def ceReport (st : State) (n : Nat) (k : CeCmd) (done status : Nat) : State :=
  if bit k.ctl.toNat 40 then
    depositInto st n k.org.fw (bits k.ctl.toNat 37 3)
      (BitVec.ofNat 1024 (k.tag.toNat + status * 2 ^ 16 + done % 2 ^ 40 * 2 ^ 24))
  else st

/-- A command within the scratchpad has come to its last blocks, and no poisoned word of what it still reads will stop it. DESIGN CHOICE
(log 99): the last two blocks. -/
def lastBlocks (st : State) (n : Nat) (r : CeRun) : Bool :=
  let (bs, bd, _) := copyPlan r.cmd.sfmt r.cmd.dfmt
  let rest := ceDstLen r.cmd - r.wr
  decide (rest ≤ 128) && !spBad (getCell st n) (r.cmd.src + r.wr * bs / bd) (rest * bs / bd)

/-- A running command without REL whose source is all read may report before its last blocks are written (R171, R295). -/
def earlyReport (st : State) (n : Nat) (r : CeRun) : Bool :=
  !r.early && r.status == 0 && !bit r.cmd.ctl.toNat 42 &&
    (if ceSsp r.cmd && ceDsp r.cmd then lastBlocks st n r else decide (ceDstLen r.cmd ≤ r.rd) && !readsOut st n)

/-- The oldest ended command, or the running one, deposits its record (R171, R295). -/
def completionBody (st : State) (n : Nat) : State :=
  match (getCell st n).ceDone, (getCell st n).ce with
  | d :: rest, _ =>
    if reportable st n d then ceReport (modCell st n fun c => { c with ceDone := rest }) n d.cmd d.done d.status else st
  | [], some r =>
    if earlyReport st n r then
      let st := ceCount (modCell st n fun c => { c with ce := some { r with early := true } }) n r.cmd.org.fw
      ceReport st n r.cmd (ceDstLen r.cmd) 0
    else st
  | [], none => st

/-- CE_COMPLETION (R171): The oldest ended command deposits its record. -/
def execCeCompletion (n : Nat) (st : State) : Host.Outcome State Fault Refusal := .next (completionBody st n)

/-- The oldest queued record enters its channel, at the slot of HEAD, which moves on (R26, R303). -/
def recordBody (st : State) (n : Nat) : State :=
  let c := getCell st n
  let o : Origin := .bare false c.user.last
  match c.records with
  | r :: rest =>
    let st := modCell st n fun c => { c with records := rest }
    if r.dev then
      let a := ringSlot c.dbg.devbase 32 (bits c.dbg.devsize.toNat 0 5) (bits c.dbg.devhead.toNat 0 32)
      let st := modCell st n fun c => { c with dbg := { c.dbg with devhead := ringNext c.dbg.devhead } }
      sendMsg st n o (.cell n) (homeOf false 0 a) (.record a 32 r.val r.id)
    else
      let a := ringSlot c.exlbase 16 (bits c.exlsize.toNat 0 5) (bits c.exlhead.toNat 0 32)
      let st := modCell st n fun c => { c with exlhead := ringNext c.exlhead }
      sendMsg st n o (.cell n) (homeOf false 0 a) (.record a 16 r.val r.id)
  | [] => st

/-- RECORD (R257): The oldest record write enters the channel. -/
def execRecord (n : Nat) (st : State) : Host.Outcome State Fault Refusal := .next (recordBody st n)

/-! ### Performing -/

/-- The first message of a channel: for the host, of the one device-to-host queue (R254). -/
def oldestIn (s : State) (m : Msg) : Bool :=
  match s.chan.find? fun k => k.home == m.home && (m.home == .host || k.sender == m.sender) with
  | some k => k.id == m.id
  | none => false

/-- A record of TYPE 4 in the hypervisor fault queue, with the cell and the bundle of the access: IFETCH for a fetch (R325, R326,
R331). va: the virtual address. f: the guest-physical address, or that of the table entry, and its level. -/
def fileRefusal (s : State) (n : Nat) (fetch : Bool) (o : Origin) (va : Word) (f : WalkFault) : State :=
  fileHyper s n (faultRecord n 1 false false o.fw (if fetch then 14 else 15) (if fetch then 6 else 5) (seqOwner (getCell s n)) o.baddr
    (getCtx s n o.fw).scyc va { f with typ := 4, stage2 := true }.info1)

/-- What a refused access through a handle reports: the byte at pa of its page (R325, R331). -/
def refuseAccess (s : State) (n : Nat) (o : Origin) (pa : Nat) : State :=
  let off := pa % max 1 o.psize
  fileRefusal s n false o (o.vpage + BitVec.ofNat 64 off) ⟨true, false, 4, 0, o.gpage.toNat + off, none⟩

/-- A record of the hypervisor's fault queue, which Sirvy writes: the host IOMMU has no page of a function to refuse in it. -/
def isHyper : MsgOp → Bool
  | .hyper .. => true
  | _ => false

/-- The host refuses what a message asks for (R331, R332). -/
def msgRefused (s : State) (m : Msg) (pa : Nat) : Bool := m.home == .host && !isHyper m.op && refusesHost s m.func pa

/-- n bytes at the home of a message; a refused host page reads 0 (R255, R331). -/
def atHome (s : State) (m : Msg) (pa len : Nat) : Nat :=
  match m.home with
  | .slice _ _ => homeRead s (homeSel m.home) pa len
  | .host => if refusesHost s m.func pa then 0 else readNat s.hostMem pa len

/-- Write masked bytes of a line at the home of a message; a refused host page is not written (R255, R331). -/
def putHome (s : State) (m : Msg) (line mask v : Nat) : State :=
  match m.home with
  | .slice _ _ => homeWriteLine s (homeSel m.home) line mask v
  | .host =>
    if refusesHost s m.func (line * 128) then s
    else { s with hostMem := writeMasked s.hostMem (line * 128) 128 mask v }

/-- Write len bytes at the home of a message. -/
def putBytes (s : State) (m : Msg) (pa len v : Nat) : State :=
  putHome s m (pa / 128) ((2 ^ len - 1) * 2 ^ (pa % 128)) ((v % 2 ^ (8 * len)) * 2 ^ (8 * (pa % 128)))

/-- The address range of a message. -/
def opRange : MsgOp → Nat × Nat
  | .fill line _ => (line * 128, 128)
  | .wb line _ _ => (line * 128, 128)
  | .soRead _ pa len => (pa, len)
  | .soWrite _ pa len _ => (pa, len)
  | .atomic pa _ aop cas _ _ _ _ _ => (pa, if cas then 16 else aopSize (bits aop.toNat 0 4))
  | .engRead pa len _ => (pa, len)
  | .engWrite pa len _ => (pa, len)
  | .record pa len _ _ => (pa, len)
  | .hyper pa _ => (pa, 64)

/-- The marks that a writeback brings with its poisoned words: those of the words, or of the whole block where the line is one of a codec
region and L2 does not hold it (R379). -/
def wbMarks (s : State) (m : Msg) (line : Nat) (ws : SMap L1Word) : List Nat :=
  let bad := ((ws.filter fun e => e.2.poison).map fun e => line * 16 + e.1 / 2).eraseDups
  match codecOf s (line * 128) with
  | some (_, k) =>
    if bad = [] ∨ (l2Find (getDie s (homeDie (line * 128))) (sliceOf (homeSel m.home) (line * 128)) line).isSome then bad
    else codecWords k line
  | none => bad

/-- A writeback acts (R255, R274). A mark goes only where one store wrote the whole 64-bit word, and marks travel with their
words (R379). -/
def performWb (s : State) (m : Msg) (line : Nat) (ws : SMap L1Word) : State :=
  match m.home with
  | .host => putHome s m line (dirtyMask ws) (lineValue ws)
  | .slice _ _ =>
    let t := { s with poison := clearPoison s.poison line (dirtyMask (ws.filter fun e => e.2.whole)) }
    let t := markDirty (homeStore t (homeSel m.home) line (dirtyMask ws) (lineValue ws)) (line * 128)
    { t with poison := t.poison ++ (wbMarks s m line ws).filter fun p => !t.poison.contains p }

/-- The word of a line as the cell's youngest writeback of it carries it, of those sent after a fill and still on their way. -/
def wbWord (s : State) (m : Msg) (line w : Nat) : Option L1Word :=
  (s.chan.filterMap fun k => if k.cell == m.cell && k.home == m.home && decide (m.id < k.id) then (match k.op with
    | .wb l _ ws => if l = line then (ws.find? fun e => e.1 == w && e.2.dirty).map Prod.snd else none
    | _ => none) else none).getLast?

/-- A fill acts (R250, R257): the line takes a way, words in I and C take the home value, and D words keep theirs; a word that a
younger writeback of the cell carries to the home has the value there (R260). Poison travels with the line (R379). -/
def performFill (s : State) (m : Msg) (line : Nat) (kind : BitVec 2) : State :=
  let v := atHome s m (line * 128) 128
  let host := m.home == .host
  let key := keyLine host line
  let word (w : Nat) : L1Word := match wbWord s m line w with
    | some u => { u with dirty := false, whole := false, orgs := [] }
    | none => ⟨BitVec.ofNat 32 (bits v (32 * w) 32), false, !host && wordPoison s (line * 16 + w / 2), false, []⟩
  let s := fresh (l1Room s m.cell key)
  modCell s m.cell fun c =>
    let old := if l1Has c key then l1Get c key else ⟨kind, homeSel m.home, host, [], 0, m.org⟩
    let pick (w : Nat) : L1Word := match l1Word old w with
      | some u => if u.dirty then u else word w
      | none => word w
    l1Put c key { old with words := (List.range 32).map fun w => (w, pick w), age := s.seq }

/-- ECCU of a memory word (R380, R381); the syndrome is free. -/
def eccTrap (s : State) (p : Nat) : Nat × Nat × Bool × Word × Word :=
  (0x10, 15, false, BitVec.ofNat 64 (8 * p), BitVec.ofNat 64 (1 + (Config.syndrome s.free).toNat * 2 ^ 8))

/-- The return slots that are next in trigger order and whose values have come are deposited (R157). -/
def payRets (n : Nat) : Nat → State → State
  | 0, s => s
  | k + 1, s =>
    match (getCell s n).rets with
    | ⟨_, fw, h, some v⟩ :: rest => payRets n k (depositInto (modCell s n fun c => { c with rets := rest }) n fw h v)
    | _ => s

/-- The value of a return slot has come, or none will (R157, R380). -/
def setRet (s : State) (n trig : Nat) (v : Option Vec) : State :=
  let s := modCell s n fun c => { c with rets := match v with
    | some _ => c.rets.map fun e => if e.id = trig then { e with val := v } else e
    | none => c.rets.filter fun e => e.id != trig }
  payRets n (getCell s n).rets.length s

/-- An SO access with a number is performed (R147): the cell freezes for it no more. -/
def soDone (s : State) (n id : Nat) : State :=
  modCell s n fun c => { c with soq := match c.soq with
    | some q => if q.id = id then none else some q
    | none => none }

/-- An L2 atomic acts (R156, R157); one that meets a poisoned word is not performed (R380). -/
def performAtomic (s : State) (m : Msg) (pa off : Nat) (aop : Word) (cas : Bool) (a k : BitVec 128) (ret trig : Nat) : State :=
  let len := if cas then 16 else aopSize (bits aop.toNat 0 4)
  let s := soDone s m.cell trig
  match (if m.home == .host then none else poisonIn s pa len) with
  | some p => trapNow (useFree (setRet s m.cell trig none)) m.cell m.org.fw (eccTrap s p)
  | none =>
    let old := atHome s m pa len
    let (new, ok) := if cas then (if old = k.toNat then (a.toNat, true) else (old, false))
      else aopElem (bits aop.toNat 4 4) (bits aop.toNat 0 4) old a.toNat k.toNat
    let s := if ok then putBytes s m pa len new else s
    if ret = 0 then s
    else setRet s m.cell trig (some (BitVec.ofNat 1024 (old + b2n ok * 2 ^ 128 + off * 2 ^ 192)))

/-- An engine read is performed: its bytes have come (R170, R263), or the host refused them (R331); a poisoned word stops the
command (R380). -/
def performEngRead (s : State) (m : Msg) (pa len off : Nat) : State :=
  match (getCell s m.cell).ce with
  | none => s
  | some r =>
    if m.home != .host && (poisonIn s pa len).isSome then
      ceBreak s m.cell r off
    else
      let v : Option Vec := if msgRefused s m pa then none else some (BitVec.ofNat 1024 (atHome s m pa len))
      modCell s m.cell fun c => { c with ce := some { r with got := r.got ++ [(off, len, v)] } }

/-- An SO load is performed (R147, R380). -/
def performSoRead (s : State) (m : Msg) (id pa len : Nat) : State :=
  let n := m.cell
  match (getCell s n).soq with
  | some q =>
    if q.id ≠ id then s else
    match (if m.home == .host then none else poisonIn s pa len) with
    | some p =>
      -- the load is made again when the context goes on (R380)
      trapNow (useFree (modCell s n fun c => { c with soq := some { q with sent := false } })) n q.org.fw (eccTrap s p)
    | none => bindResult (soDone s n id) n q.org.fw q.id q.len q.signed (atHome s m pa len)
  | none => s

/-- A message acts at its home (R255, R257). -/
def performOp (s : State) (m : Msg) : State :=
  match m.op with
  | .fill line kind => performFill s m line kind
  | .wb line _ ws => performWb s m line ws
  | .soRead id pa len => performSoRead s m id pa len
  | .soWrite id pa len v => putBytes (soDone s m.cell id) m pa len v.toNat
  | .atomic pa off aop cas a k _ ret trig => performAtomic s m pa off aop cas a k ret trig
  | .engRead pa len off => performEngRead s m pa len off
  | .engWrite pa len v => putBytes s m pa len v.toNat
  | .record pa len v _ => putBytes s m pa len v.toNat
  | .hyper pa v => { s with hostMem := writeNat s.hostMem pa 64 v.toNat, hvirqs := s.hvirqs + 1 }

/-- The first line of a range whose data is not there for an access (R339). -/
def lineMissing (s : State) (who sel pa len : Nat) : Option Nat := (linesOf pa len).find? fun l => !l2Ready s who sel l

/-- An access that acts renews the recency of its lines, and has its data (R338, R339); where two slices hold a line, it sees a
choice of its own (R335). -/
def l2Serve (s : State) (who sel pa len c : Nat) : State :=
  (linesOf pa len).foldl (fun s l =>
    let d := homeDie (l * 128)
    let s := if (l2Find (getDie s d) (sliceOf sel (l * 128)) l).isSome then l2Touch s sel (l * 128) c else s
    let s := l2Choose s sel l
    if (getDie s d).returned.contains (who, l) then
      modDie s d fun x => { x with returned := x.returned.filter fun e => e != (who, l) }
    else s) s

/-- A writeback to a codec line that L2 does not hold goes to the memory controller at once (R274). -/
def writesThrough (s : State) (m : Msg) : Bool :=
  match m.op with
  | .wb line _ _ => (codecOf s (line * 128)).isSome
  | _ => false

/-- The line whose data a message still waits for (R339, R340). -/
def msgMissing (s : State) (m : Msg) : Option Nat :=
  if m.home == .host || writesThrough s m then none
  else lineMissing s (2 * m.id) (homeSel m.home) (opRange m.op).1 (opRange m.op).2

/-- What goes with a message that acts: its access to L2 (R338), or the report of a refused host access (R331). -/
def performSide (s : State) (m : Msg) : State :=
  match m.home with
  | .slice _ _ => l2Serve s (2 * m.id) (homeSel m.home) (opRange m.op).1 (opRange m.op).2 m.cos
  | .host => if msgRefused s m (opRange m.op).1 then refuseAccess s m.cell m.org (opRange m.op).1 else s

/-- Outside the memory of the device (R11). -/
def beyond (pa len : Nat) : Bool := decide (2 ^ 40 < pa + len)

/-- A message acts, or joins the fill that its line waits for (R255, R257, R339). -/
def performBody (st : State) (m : Msg) : State :=
  match msgMissing st m with
  | some l => l2Reach st (homeSel m.home) (l * 128) m.cos [2 * m.id]
  | none => performOp (performSide { st with chan := delFirst (fun k => k.id == m.id) st.chan } m) m

/-- PERFORM (R257): The oldest message of a channel acts at its home. -/
def execPerform (id : Nat) (st : State) : Host.Outcome State Fault Refusal :=
  match st.chan.find? fun m => m.id == id with
  | none => .next st
  | some m =>
    if !oldestIn st m then .next st
    else if m.home != .host && beyond (opRange m.op).1 (opRange m.op).2 then .fault (.noMemory (opRange m.op).1)
    else .next (performBody st m)

/-! ### The host -/

/-- A host function. -/
def getHost (s : State) (f : Nat) : HostFn := smGet HostFn.reset s.hosts f

/-- Change a host function. -/
def modHost (s : State) (f : Nat) (g : HostFn → HostFn) : State := { s with hosts := smPut s.hosts f (g (getHost s f)) }

/-- The translation context of a host function, with the partition of the admitted region that it belongs to (R318, R327). -/
def ctxOfFunc (st : State) (f : Nat) : Option (Nat × TCtx) :=
  st.tctx.find? fun e => tctxFunc e.2 == f && (regionOf st (BitVec.ofNat 16 e.1)).isSome

/-- The class of a host access: that of the region bound to the function's context (R336). -/
def hostCos (s : State) (f : Nat) : Nat :=
  match (ctxOfFunc s f).bind fun e => regionOf s (BitVec.ofNat 16 e.1) with
  | some r => regionField s r 2 512 4
  | none => 0

/-- Address and length of a host entry. -/
def hostRange : HostReq → Nat × Nat
  | .read pa len => (pa, len)
  | .write pa len _ => (pa, len)
  | .atomic pa aop _ _ _ => (pa, aopSize (bits aop.toNat 0 4))
  | .later pa len _ => (pa, len)

/-- The old and the updated value of a host atomic, and whether it writes (R154, R262). -/
def hostNew (s : State) (pa : Nat) (aop a k : Word) : Nat × Nat × Bool :=
  let len := aopSize (bits aop.toNat 0 4)
  let old := homeReadN s pa len
  (old, aopElem (bits aop.toNat 4 4) (bits aop.toNat 0 4) old a.toNat k.toNat)

/-- A wipe is under way (R394, R395). -/
def wiping (s : State) : Bool := s.lcstat.getLsbD 8

/-- The oldest entry of a function's queue during a wipe: a read returns zero, a write is dropped (R395). -/
def hostWiped (s : State) (f : Nat) (q : HostReq) (rest : List HostReq) : State :=
  let zero (h : HostFn) : HostFn := { h with queue := rest, got := h.got ++ [0] }
  match q with
  | .read .. => modHost s f zero
  | .atomic .. => modHost s f zero
  | _ => modHost s f fun h => { h with queue := rest }

/-- The later write of another function's atomic to bytes of a range is still to come: host atomics are atomic among themselves
(R262). -/
def hostAtomicOpen (s : State) (f pa len : Nat) : Bool :=
  s.hosts.any fun e => e.1 != f && (match e.2.queue with
    | .later a n _ :: _ => overlap a n pa len
    | _ => false)

/-- The oldest entry of a function's queue is performed (R261, R262). -/
def hostBody (s : State) (f : Nat) (q : HostReq) (rest : List HostReq) : State :=
  let pop (h : HostFn) : HostFn := { h with queue := rest }
  match q with
  | .read pa len => modHost s f fun h => { pop h with got := h.got ++ [BitVec.ofNat 1024 (homeReadN s pa len)] }
  | .write pa len v => homeWriteN (modHost s f pop) pa len v.toNat
  | .atomic pa aop a k sysat =>
    if hostAtomicOpen s f pa (aopSize (bits aop.toNat 0 4)) then s else
    let (old, new, ok) := hostNew s pa aop a k
    let len := aopSize (bits aop.toNat 0 4)
    let s := modHost s f fun h => { h with got := h.got ++ [BitVec.ofNat 1024 old] }
    if !ok then modHost s f pop
    else if sysat then homeWriteN (modHost s f pop) pa len new
    else modHost s f fun h => { h with queue := .later pa len (BitVec.ofNat 1024 new) :: rest }
  | .later .. => s

/-- A host access acts by g, or joins the fill that a line of it waits for (R336, R338, R339). -/
def hostReach (s : State) (f : Nat) (q : HostReq) (g : State → State) : State :=
  let (pa, len) := hostRange q
  match lineMissing s (2 * f + 1) 0 pa len with
  | some l => l2Reach s 0 (l * 128) (hostCos s f) [2 * f + 1]
  | none => g (l2Serve s (2 * f + 1) 0 pa len (hostCos s f))

/-- HOST (R261): The oldest entry of a host-to-device queue is performed. -/
def execHost (f : Nat) (st : State) : Host.Outcome State Fault Refusal :=
  match (getHost st f).queue with
  | [] => .next st
  | q :: rest =>
    if beyond (hostRange q).1 (hostRange q).2 then .fault (.noMemory (hostRange q).1)
    else .next (if wiping st then hostWiped st f q rest else
      match q with
      | .later .. => st
      | _ => hostReach st f q fun st => hostBody st f q rest)

/-- HOST_ATOMIC_WRITE (R262): The later write of a host atomic to a page without SYSAT. -/
def execHostAtomicWrite (f : Nat) (st : State) : Host.Outcome State Fault Refusal :=
  .next (match (getHost st f).queue with
    | .later pa len v :: rest =>
      let pop (st : State) : State := modHost st f fun h => { h with queue := rest }
      if wiping st then pop st
      else hostReach st f (.later pa len v) fun st => homeWriteN (pop st) pa len v.toNat
    | _ => st)

/-- FILL_START (R340): A slice starts one fill. -/
def execFillStart (die slice : Nat) (st : State) : Host.Outcome State Fault Refusal := .next (l2FillStart st die slice)

/-- FILL_INSTALL (R339): The oldest started fill of a slice is installed. -/
def execFillInstall (die slice : Nat) (st : State) : Host.Outcome State Fault Refusal :=
  .next (l2FillInstall st die slice)

end Sys2Proof.Machine
end

