-- ==== Sys2Proof/Machine/Scalar.lean ====
section
/-!
DEFINITION. Moves and buffer accesses (R43, R47 to R53, R160, R161) and the scalar units alu0, alu1, mul and cmp
(R90 to R100).
-/

namespace Sys2Proof.Machine

/-- MOVE (R43): a source goes to a register, an operand latch or a control register; a move into a shadow range
with D set is idle (R42). -/
def execMove (k : BitVec 4) (g : BitVec 12) (s d : BitVec 10) (st : State) : Host.Outcome State Fault Refusal :=
  .next (if shadowed st k.toNat d then st else
    guarded st g fun st =>
      if k.toNat < 4 then writeS st k.toNat d (readS st s)
      else if k.toNat < 8 then writeV st k.toNat d (readV st k.toNat s)
      else if d.toNat < 0x200 then moveWrite st 8 1 (.slat (dstMLatch d.toNat)) ((readS st s).zeroExtend 1024)
      else moveWrite st 8 1 (.vlat .lsuvc) (readV st 8 s))

/-- CB_READ (R160): a slot of a circular buffer goes to a vector register or operand latch. -/
def execCbRead (k : BitVec 4) (g : BitVec 12) (h : BitVec 3) (n : BitVec 4) (d : BitVec 10) (st : State) :
    Host.Outcome State Fault Refusal :=
  .next (if shadowed st k.toNat d then st else
    guarded st g fun st => withV st k.toNat (2#3 ++ h ++ n) fun st v =>
      if k.toNat < 8 then writeV st k.toNat d v else moveWrite st 8 1 (.vlat .lsuvc) v)

/-- CB_WRITE_V (R161): a V slot writes a slot of a circular buffer. -/
def execCbWriteV (k : BitVec 4) (g : BitVec 12) (s : BitVec 10) (h n : BitVec 3) (st : State) :
    Host.Outcome State Fault Refusal :=
  .next (guarded st g fun st => withV st k.toNat s fun st v => writeCb st k.toNat h.toNat (n.toNat + 1) v)

/-- CB_WRITE_M (R161): the M slot writes a slot of a circular buffer. -/
def execCbWriteM (g : BitVec 12) (s : BitVec 10) (h n : BitVec 3) (st : State) :
    Host.Outcome State Fault Refusal :=
  .next (guarded st g fun st => withV st 8 s fun st v => writeCb st 8 h.toNat (n.toNat + 1) v)

/-- An alu operation r := f o t on alu0 or alu1, latency 1 (R91). -/
def aluOp (k : BitVec 4) (g : BitVec 12) (s : BitVec 10) (u : BitVec 1) (idx : Nat) (f : Word → Word → Word)
    (st : State) : State :=
  if u = 0 then
    trigS st .alu0 (0x200 + idx) k g s fun st t => result st .alu0r 1 (f (operand st .alu0o) t)
  else
    trigS st .alu1 (0x220 + idx) k g s fun st t => result st .alu1r 1 (f (operand st .alu1o) t)

/-- ALU_MOV (R91): r := t. -/
def execAluMov (k : BitVec 4) (g : BitVec 12) (s : BitVec 10) (u : BitVec 1) (st : State) : Host.Outcome State Fault Refusal :=
  .next (aluOp k g s u 0x00 (fun _ t => t) st)

/-- ALU_ADD (R91): r := o + t. -/
def execAluAdd (k : BitVec 4) (g : BitVec 12) (s : BitVec 10) (u : BitVec 1) (st : State) : Host.Outcome State Fault Refusal :=
  .next (aluOp k g s u 0x01 (fun o t => o + t) st)

/-- ALU_SUB (R91): r := o − t. -/
def execAluSub (k : BitVec 4) (g : BitVec 12) (s : BitVec 10) (u : BitVec 1) (st : State) : Host.Outcome State Fault Refusal :=
  .next (aluOp k g s u 0x02 (fun o t => o - t) st)

/-- ALU_ADDS1 (R91): r := o + 2t. -/
def execAluAdds1 (k : BitVec 4) (g : BitVec 12) (s : BitVec 10) (u : BitVec 1) (st : State) : Host.Outcome State Fault Refusal :=
  .next (aluOp k g s u 0x03 (fun o t => o + t * 2) st)

/-- ALU_ADDS2 (R91): r := o + 4t. -/
def execAluAdds2 (k : BitVec 4) (g : BitVec 12) (s : BitVec 10) (u : BitVec 1) (st : State) : Host.Outcome State Fault Refusal :=
  .next (aluOp k g s u 0x04 (fun o t => o + t * 4) st)

/-- ALU_ADDS3 (R91): r := o + 8t. -/
def execAluAdds3 (k : BitVec 4) (g : BitVec 12) (s : BitVec 10) (u : BitVec 1) (st : State) : Host.Outcome State Fault Refusal :=
  .next (aluOp k g s u 0x05 (fun o t => o + t * 8) st)

/-- ALU_AND (R91): r := o AND t. -/
def execAluAnd (k : BitVec 4) (g : BitVec 12) (s : BitVec 10) (u : BitVec 1) (st : State) : Host.Outcome State Fault Refusal :=
  .next (aluOp k g s u 0x06 (fun o t => o &&& t) st)

/-- ALU_OR (R91): r := o OR t. -/
def execAluOr (k : BitVec 4) (g : BitVec 12) (s : BitVec 10) (u : BitVec 1) (st : State) : Host.Outcome State Fault Refusal :=
  .next (aluOp k g s u 0x07 (fun o t => o ||| t) st)

/-- ALU_XOR (R91): r := o XOR t. -/
def execAluXor (k : BitVec 4) (g : BitVec 12) (s : BitVec 10) (u : BitVec 1) (st : State) : Host.Outcome State Fault Refusal :=
  .next (aluOp k g s u 0x08 (fun o t => o ^^^ t) st)

/-- ALU_ANDN (R91): r := o AND NOT t. -/
def execAluAndn (k : BitVec 4) (g : BitVec 12) (s : BitVec 10) (u : BitVec 1) (st : State) : Host.Outcome State Fault Refusal :=
  .next (aluOp k g s u 0x09 (fun o t => o &&& ~~~t) st)

/-- ALU_SHL (R91): Shift left by t[5:0]. -/
def execAluShl (k : BitVec 4) (g : BitVec 12) (s : BitVec 10) (u : BitVec 1) (st : State) : Host.Outcome State Fault Refusal :=
  .next (aluOp k g s u 0x0A (fun o t => o <<< (t.toNat % 64)) st)

/-- ALU_SHR (R91): Logical shift right by t[5:0]. -/
def execAluShr (k : BitVec 4) (g : BitVec 12) (s : BitVec 10) (u : BitVec 1) (st : State) : Host.Outcome State Fault Refusal :=
  .next (aluOp k g s u 0x0B (fun o t => o >>> (t.toNat % 64)) st)

/-- ALU_SAR (R91): Arithmetic shift right by t[5:0]. -/
def execAluSar (k : BitVec 4) (g : BitVec 12) (s : BitVec 10) (u : BitVec 1) (st : State) : Host.Outcome State Fault Refusal :=
  .next (aluOp k g s u 0x0C (fun o t => o.sshiftRight (t.toNat % 64)) st)

/-- ALU_ROL (R91): Rotate left by t[5:0]. -/
def execAluRol (k : BitVec 4) (g : BitVec 12) (s : BitVec 10) (u : BitVec 1) (st : State) : Host.Outcome State Fault Refusal :=
  .next (aluOp k g s u 0x0D (fun o t => o.rotateLeft (t.toNat % 64)) st)

/-- ALU_ROR (R91): Rotate right by t[5:0]. -/
def execAluRor (k : BitVec 4) (g : BitVec 12) (s : BitVec 10) (u : BitVec 1) (st : State) : Host.Outcome State Fault Refusal :=
  .next (aluOp k g s u 0x0E (fun o t => o.rotateRight (t.toNat % 64)) st)

/-- ALU_MIN (R91): Signed minimum. -/
def execAluMin (k : BitVec 4) (g : BitVec 12) (s : BitVec 10) (u : BitVec 1) (st : State) : Host.Outcome State Fault Refusal :=
  .next (aluOp k g s u 0x0F (fun o t => if o.toInt ≤ t.toInt then o else t) st)

/-- ALU_MAX (R91): Signed maximum. -/
def execAluMax (k : BitVec 4) (g : BitVec 12) (s : BitVec 10) (u : BitVec 1) (st : State) : Host.Outcome State Fault Refusal :=
  .next (aluOp k g s u 0x10 (fun o t => if t.toInt ≤ o.toInt then o else t) st)

/-- ALU_MINN (R91): Unsigned minimum. -/
def execAluMinn (k : BitVec 4) (g : BitVec 12) (s : BitVec 10) (u : BitVec 1) (st : State) : Host.Outcome State Fault Refusal :=
  .next (aluOp k g s u 0x11 (fun o t => if o.toNat ≤ t.toNat then o else t) st)

/-- ALU_MAXN (R91): Unsigned maximum. -/
def execAluMaxn (k : BitVec 4) (g : BitVec 12) (s : BitVec 10) (u : BitVec 1) (st : State) : Host.Outcome State Fault Refusal :=
  .next (aluOp k g s u 0x12 (fun o t => if t.toNat ≤ o.toNat then o else t) st)

/-- ALU_SEXT (R91): Sign-extend o from bit t[5:0]. -/
def execAluSext (k : BitVec 4) (g : BitVec 12) (s : BitVec 10) (u : BitVec 1) (st : State) : Host.Outcome State Fault Refusal :=
  .next (aluOp k g s u 0x13 (fun o t => sext64 (t.toNat % 64 + 1) o.toNat) st)

/-- ALU_ZEXT (R91): Zero-extend o above bit t[5:0]. -/
def execAluZext (k : BitVec 4) (g : BitVec 12) (s : BitVec 10) (u : BitVec 1) (st : State) : Host.Outcome State Fault Refusal :=
  .next (aluOp k g s u 0x14 (fun o t => BitVec.ofNat 64 (o.toNat % 2 ^ (t.toNat % 64 + 1))) st)

/-- ALU_BFX (R92): Signed field extract. -/
def execAluBfx (k : BitVec 4) (g : BitVec 12) (s : BitVec 10) (u : BitVec 1) (st : State) : Host.Outcome State Fault Refusal :=
  .next (aluOp k g s u 0x15 (fun o t => sext64 (bits t.toNat 8 6 + 1) (o.sshiftRight (bits t.toNat 0 6)).toNat) st)

/-- ALU_BFXN (R92): Unsigned field extract. -/
def execAluBfxn (k : BitVec 4) (g : BitVec 12) (s : BitVec 10) (u : BitVec 1) (st : State) : Host.Outcome State Fault Refusal :=
  .next (aluOp k g s u 0x16 (fun o t => BitVec.ofNat 64 (bits o.toNat (bits t.toNat 0 6) (bits t.toNat 8 6 + 1))) st)

/-- ALU_CLZ (R91): Count leading zeros of t. -/
def execAluClz (k : BitVec 4) (g : BitVec 12) (s : BitVec 10) (u : BitVec 1) (st : State) : Host.Outcome State Fault Refusal :=
  .next (aluOp k g s u 0x17 (fun _ t => BitVec.ofNat 64 (64 - bitlen t.toNat)) st)

/-- ALU_CTZ (R91): Count trailing zeros of t. -/
def execAluCtz (k : BitVec 4) (g : BitVec 12) (s : BitVec 10) (u : BitVec 1) (st : State) : Host.Outcome State Fault Refusal :=
  .next (aluOp k g s u 0x18 (fun _ t => BitVec.ofNat 64 (trailing 64 t.toNat)) st)

/-- ALU_POPC (R91): Count the one bits of t. -/
def execAluPopc (k : BitVec 4) (g : BitVec 12) (s : BitVec 10) (u : BitVec 1) (st : State) : Host.Outcome State Fault Refusal :=
  .next (aluOp k g s u 0x19 (fun _ t => BitVec.ofNat 64 (popcount 64 t.toNat)) st)

/-- ALU_BSWAP (R91): Reverse the bytes of t. -/
def execAluBswap (k : BitVec 4) (g : BitVec 12) (s : BitVec 10) (u : BitVec 1) (st : State) : Host.Outcome State Fault Refusal :=
  .next (aluOp k g s u 0x1A (fun _ t => BitVec.ofNat 64 (byteRev 8 t.toNat)) st)

/-- A mul operation without DV, latency 3 (R93). -/
def mulOp (k : BitVec 4) (g : BitVec 12) (s : BitVec 10) (idx : Nat) (f : Word → Word → Word) (st : State) : State :=
  trigS st .mul (0x240 + idx) k g s fun st t => result st .mulr 3 (f (operand st .mulo) t)

/-- A division trigger: its new DV and mul.r land together, latency 3 (R94, R95). -/
def divOp (k : BitVec 4) (g : BitVec 12) (s : BitVec 10) (idx : Nat) (f : DivState → Word → Word → DivState × Word)
    (st : State) : State :=
  trigS st .mul (0x240 + idx) k g s fun st t =>
    let r := f (cur st).dv (operand st .mulo) t
    launch st { tgt := .divide, val := r.2.zeroExtend 1024, cnt := 3, slot := 15, dv := r.1 }

/-- dinit and dinitn (R95). -/
def divInit (sg : Bool) (o t : Word) : DivState :=
  let a : Int := if sg then o.toInt else o.toNat
  let b : Int := if sg then t.toInt else t.toNat
  { divd := BitVec.ofNat 64 b.natAbs, quo := BitVec.ofNat 64 a.natAbs, rem := 0, bits := 0
    nq := decide (a < 0) != decide (b < 0), nr := decide (a < 0), dz := b == 0 }

/-- n steps of dstep (R95). -/
def divSteps : Nat → DivState → DivState
  | 0, d => d
  | n + 1, d =>
    let c := d.rem.toNat * 2 + b2n (d.quo.getLsbD 63)
    let q := d.quo <<< 1
    divSteps n (if d.divd.toNat ≤ c
      then { d with rem := BitVec.ofNat 65 (c - d.divd.toNat), quo := q ||| 1, bits := d.bits + 1 }
      else { d with rem := BitVec.ofNat 65 c, quo := q, bits := d.bits + 1 })

/-- dfix (R95). -/
def divFix (d : DivState) (t : Word) : Word :=
  if t.getLsbD 0 then (if d.nr then -(d.rem.truncate 64) else d.rem.truncate 64)
  else if d.dz then BitVec.allOnes 64
  else if d.nq then -d.quo else d.quo

/-- MUL_MUL (R93): Low 64 bits of o × t. -/
def execMulMul (k : BitVec 4) (g : BitVec 12) (s : BitVec 10) (st : State) : Host.Outcome State Fault Refusal :=
  .next (mulOp k g s 0 (fun o t => o * t) st)

/-- MUL_MULH (R93): High half of the signed product. -/
def execMulMulh (k : BitVec 4) (g : BitVec 12) (s : BitVec 10) (st : State) : Host.Outcome State Fault Refusal :=
  .next (mulOp k g s 1 (fun o t => BitVec.ofNat 64 (wrap 128 (o.toInt * t.toInt) / 2 ^ 64)) st)

/-- MUL_MULHN (R93): High half of the unsigned product. -/
def execMulMulhn (k : BitVec 4) (g : BitVec 12) (s : BitVec 10) (st : State) : Host.Outcome State Fault Refusal :=
  .next (mulOp k g s 2 (fun o t => BitVec.ofNat 64 (o.toNat * t.toNat / 2 ^ 64)) st)

/-- MUL_MULHSN (R93): High half of a signed-by-unsigned product. -/
def execMulMulhsn (k : BitVec 4) (g : BitVec 12) (s : BitVec 10) (st : State) : Host.Outcome State Fault Refusal :=
  .next (mulOp k g s 3 (fun o t => BitVec.ofNat 64 (wrap 128 (o.toInt * (t.toNat : Int)) / 2 ^ 64)) st)

/-- MUL_DINIT (R95): Starts a signed division in DV. -/
def execMulDinit (k : BitVec 4) (g : BitVec 12) (s : BitVec 10) (st : State) : Host.Outcome State Fault Refusal :=
  .next (divOp k g s 4 (fun _ o t => (divInit true o t, 0)) st)

/-- MUL_DINITN (R95): Starts an unsigned division in DV. -/
def execMulDinitn (k : BitVec 4) (g : BitVec 12) (s : BitVec 10) (st : State) : Host.Outcome State Fault Refusal :=
  .next (divOp k g s 5 (fun _ o t => (divInit false o t, 0)) st)

/-- MUL_DSTEP (R95): Develops t[3:0] + 1 quotient bits. -/
def execMulDstep (k : BitVec 4) (g : BitVec 12) (s : BitVec 10) (st : State) : Host.Outcome State Fault Refusal :=
  .next (divOp k g s 6 (fun d _ t =>
    let d := divSteps (min (t.toNat % 16 + 1) (64 - d.bits.toNat)) d
    (d, BitVec.ofNat 64 d.bits.toNat)) st)

/-- MUL_DFIX (R95): Returns the quotient or the remainder. -/
def execMulDfix (k : BitVec 4) (g : BitVec 12) (s : BitVec 10) (st : State) : Host.Outcome State Fault Refusal :=
  .next (trigS st .mul 0x247 k g s fun st t => result st .mulr 3 (divFix (cur st).dv t))

/-- A compare of the cmp unit (R96 to R100). -/
def cmpOp (k : BitVec 4) (g : BitVec 12) (s : BitVec 10) (op : Nat) (st : State) : State :=
  trigS st .cmp (0x260 + op) k g s fun st t => compare st k.toNat op t

/-- CMP_EQ (R96): Compare o = t. -/
def execCmpEq (k : BitVec 4) (g : BitVec 12) (s : BitVec 10) (st : State) : Host.Outcome State Fault Refusal :=
  .next (cmpOp k g s 0 st)

/-- CMP_NE (R96): Compare o ≠ t. -/
def execCmpNe (k : BitVec 4) (g : BitVec 12) (s : BitVec 10) (st : State) : Host.Outcome State Fault Refusal :=
  .next (cmpOp k g s 1 st)

/-- CMP_LT (R96): Signed less than. -/
def execCmpLt (k : BitVec 4) (g : BitVec 12) (s : BitVec 10) (st : State) : Host.Outcome State Fault Refusal :=
  .next (cmpOp k g s 2 st)

/-- CMP_LE (R96): Signed less or equal. -/
def execCmpLe (k : BitVec 4) (g : BitVec 12) (s : BitVec 10) (st : State) : Host.Outcome State Fault Refusal :=
  .next (cmpOp k g s 3 st)

/-- CMP_GT (R96): Signed greater than. -/
def execCmpGt (k : BitVec 4) (g : BitVec 12) (s : BitVec 10) (st : State) : Host.Outcome State Fault Refusal :=
  .next (cmpOp k g s 4 st)

/-- CMP_GE (R96): Signed greater or equal. -/
def execCmpGe (k : BitVec 4) (g : BitVec 12) (s : BitVec 10) (st : State) : Host.Outcome State Fault Refusal :=
  .next (cmpOp k g s 5 st)

/-- CMP_LTN (R96): Unsigned less than. -/
def execCmpLtn (k : BitVec 4) (g : BitVec 12) (s : BitVec 10) (st : State) : Host.Outcome State Fault Refusal :=
  .next (cmpOp k g s 6 st)

/-- CMP_LEN (R96): Unsigned less or equal. -/
def execCmpLen (k : BitVec 4) (g : BitVec 12) (s : BitVec 10) (st : State) : Host.Outcome State Fault Refusal :=
  .next (cmpOp k g s 7 st)

/-- CMP_GTN (R96): Unsigned greater than. -/
def execCmpGtn (k : BitVec 4) (g : BitVec 12) (s : BitVec 10) (st : State) : Host.Outcome State Fault Refusal :=
  .next (cmpOp k g s 8 st)

/-- CMP_GEN (R96): Unsigned greater or equal. -/
def execCmpGen (k : BitVec 4) (g : BitVec 12) (s : BitVec 10) (st : State) : Host.Outcome State Fault Refusal :=
  .next (cmpOp k g s 9 st)

/-- CMP_TBIT (R96): Tests bit t[5:0] of o. -/
def execCmpTbit (k : BitVec 4) (g : BitVec 12) (s : BitVec 10) (st : State) : Host.Outcome State Fault Refusal :=
  .next (cmpOp k g s 10 st)

/-- CMP_TANY (R96): Tests whether o AND t is nonzero. -/
def execCmpTany (k : BitVec 4) (g : BitVec 12) (s : BitVec 10) (st : State) : Host.Outcome State Fault Refusal :=
  .next (cmpOp k g s 11 st)

end Sys2Proof.Machine
end

