-- ==== Sys2Proof/Machine/Transform.lean ====
section
/-!
DEFINITION. The transform commands of the T word (R36, R37, R196 to R205) and the B word (R206 to R209).
-/

namespace Sys2Proof.Machine

/-- The T word acts under the guard of w0 when S = 1 (R199). -/
def tGuard (st : State) (f : State → State) : State := if stageOn st then f st else st

/-- The source latch SV names (R196). -/
def tSrc (c : Ctx) (v : Nat) : Vec := vGet c (srcVLatch (0xA0 + v))

/-- Put a tile landing in flight (R199). -/
def tileLand (st : State) (l : TLand) : State := modCur st fun c => { c with tland := c.tland ++ [l] }

/-- A whole-tile landing (R202, R203). -/
def wholeTile (tile cnt : Nat) (v : Nat) : TLand :=
  ⟨cnt, tile, false, false, 0, BitVec.ofNat 65536 v, 0, 0, 0, false⟩

/-- The body of xf.cvt (R200, R201). -/
def cvtBody (st : State) (fi fo v p rm : Nat) : State :=
  let src := (tSrc (cur st) v).toNat
  let a := xfElem fi
  let b := xfElem fo
  let wi := elemWidth a
  let wo := elemWidth b
  let n := 1024 / max wi wo
  let sl (k : Nat) : Nat := if wi < wo then p * n + k else k
  let r (k : Nat) : Nat × Special := convert a b rm (lane wi src (sl k))
  let out := lanes wo (fun k => (r k).1) n 0
  let val := if wo < wi then out * 2 ^ (wo * (p * n)) else out
  let base := if wi < wo then p * n else 0
  let nan := maskOf (fun k => (r k).2 == .nan) n 0 * 2 ^ base
  let inf := maskOf (fun k => (r k).2 == .inf) n 0 * 2 ^ base
  let rcd := excRecord (0x05 * 2 ^ 24 + 0xA0 + v) (if fo = 8 then 1 else 2) 10 0 st.cyc.cell
  countsFlight (vresult st .xfr 4 (BitVec.ofNat 1024 val)) 4 nan inf rcd

/-- The body of xf.exp (R202). -/
def expBody (st : State) (fi fo ts td lay h : Nat) : State :=
  let v := (tileOf (cur st) ts).toNat
  let el (k : Nat) : Nat :=
    let i := k / 64
    let j := k % 64
    let x := if lay = 0 then tileElem v 8 i (64 * h + j) else tileElem v 8 ((64 * h + i) / 2) (2 * j + i % 2)
    (convert (xfElem fi) (xfElem fo) 0 x).1
  tileLand st (wholeTile td 6 (lanes 16 el 4096 0))

/-- The body of xf.tr (R203). -/
def trBody (st : State) (ts td w : Nat) : State :=
  let v := (tileOf (cur st) ts).toNat
  tileLand st (wholeTile td 8 (if w = 1 then
    lanes 16 (fun k => tileElem v 16 (k % 64) (k / 64)) 4096 0
    else lanes 8 (fun b => tileElem v 8 (b % 128 / 2) (2 * (b / 128) + b % 2)) 8192 0))

/-- The body of xf.pack (R204). -/
def packBody (st : State) (v td l m q : Nat) : State :=
  let src := (tSrc (cur st) v).toNat
  let line := if m = 0 then src else lanes 8 (fun b => if b % 2 = q then lane 8 src (b / 2) else 0) 128 0
  let mask := if m = 0 then 2 ^ 128 - 1 else bitsOf (fun b => b % 2 == q) 128 0
  tileLand st ⟨2, td, false, true, l, BitVec.ofNat 65536 line, BitVec.ofNat 128 mask, 0, 0, false⟩

/-- ±m × 2^e has a magnitude above 2^k. -/
def gtPow (m : Nat) (e k : Int) : Bool :=
  m != 0 && (decide (k + 1 < e + bitlen m) || (decide (e + bitlen m = k + 1) && m != 2 ^ (bitlen m - 1)))

/-- An element makes its column qualify (R205): an infinite one does, a NaN does not. -/
def splitQualifies (fmt : Nat) (the : Int) (v : Nat) : Bool :=
  match opVal fmt v with
  | .nan => false
  | .inf _ => true
  | .fin _ m e => gtPow m e the

/-- The largest DM8 code of magnitude at most half that of a code (R36). -/
def dm8Half (a : Nat) : Nat → Nat → Nat
  | 0, best => best
  | n + 1, best =>
    dm8Half a n (if 2 * dm8Mag (n + 1) ≤ dm8Mag a ∧ dm8Mag best < dm8Mag (n + 1) then n + 1 else best)

/-- The two halves of an element (R36). DESIGN CHOICE (log 79): a half of a BF16 or FP16 element that becomes 0 has sign +. -/
def splitElem (fmt v : Nat) : Nat × Nat :=
  let fp (f : Fmt) : Nat × Nat :=
    match funpack f v with
    | .fin n m e =>
      let h := fpack f 1 n m (e - 1)
      let h1 := if bits h 0 (FmtOps.width f - 1) = 0 then 0 else h
      match funpack f h1 with
      | .fin n' m' e' =>
        let s := exactSum (signed n m) e (-(signed n' m')) e'
        (h1, fpackInt f 0 false s.1 s.2)
      | _ => (v, v)
    | _ => (v, v)
  match fmt with
  | 0 =>
    let neg := bit v 7
    let h := dm8Half v 127 0
    let h1 := if dm8Mag h = 0 then 0 else h + 128 * b2n neg
    (h1, (toDm8 (.fin neg (dm8Mag v - dm8Mag h) (-16))).1)
  | 1 =>
    let i := sval 8 v
    let h := signed (decide (i < 0)) (i.natAbs / 2)
    (wrap 8 h, wrap 8 (i - h))
  | 2 => fp bf16
  | _ => fp fp16

/-- Columns of the split tile and the places of the second halves (R205). -/
def splitCols (fmt ext : Nat) (the : Int) (v : Nat) : Nat → Nat → Nat → List (List Nat) × Nat
  | 0, _, _ => ([], 0)
  | n + 1, c, o =>
    let col := (List.range 64).map fun i => aElem v fmt i c
    if (col.take ext).any (splitQualifies fmt the) then
      let r := splitCols fmt ext the v n (c + 1) (o + 2)
      ((col.map fun x => (splitElem fmt x).1) :: (col.map fun x => (splitElem fmt x).2) :: r.1, r.2 + 2 ^ (o + 1))
    else
      let r := splitCols fmt ext the v n (c + 1) (o + 1)
      (col :: r.1, r.2)

/-- The body of xf.split (R205). -/
def splitBody (st : State) (ts td : Nat) (the : Int) : State :=
  let c := cur st
  if !tileOk c ts then raiseIll st 10 else
  let fmt := tFmt c ts
  let w := tWidth fmt
  let ext := tExt c ts
  let (cols, map) := splitCols fmt ext the (tileOf c ts).toNat (tKlen c ts) 0 0
  let n := cols.length
  let fail := if kLimit fmt < n then 1 else if map >>> 64 ≠ 0 then 2 else 0
  let res := BitVec.ofNat 1024 (n + fail * 2 ^ 64 + (if fail = 0 then map else 0) * 2 ^ 128)
  let st := vresult st .xfr 6 res
  if fail = 0 then
    let line (i : Nat) : Nat := lanes w (fun k => (cols.getD k []).getD i 0) n 0
    tileLand st ⟨6, td, true, false, 0, BitVec.ofNat 65536 (lanes 1024 line 64 0), 0,
      BitVec.ofNat 64 (n * 2 ^ 24 + ext * 2 ^ 16 + fmt), BitVec.ofNat 64 map, false⟩
  else st

/-- Word 11 of the bundle supplies its value to the moves of the cycle (R206 to R208). -/
def supplyB (st : State) (w : SlotWord) : State :=
  { st with cyc := { st.cyc with bundle := w ++ st.cyc.bundle.extractLsb' 0 352 } }

/-- The body of chk (R209): D = 1 idles it when DUPEN is 0. -/
def chkBody (st : State) (cls idx : Nat) : State :=
  let c := cur st
  if !dupOn c && dupBit st then st else
  let same := if cls = 0 then smGet 0 c.x idx == smGet 0 c.x (48 + idx)
    else readVreg c idx == readVreg c (320 + idx)
  if same then st else raise st 9 11 false (BitVec.ofNat 64 (idx + cls * 2 ^ 5)) 0

/-- XF_CVT (R200): Converts latch elements between formats into xf.r. -/
def execXfCvt (i : BitVec 4) (o : BitVec 4) (v : BitVec 4) (p : BitVec 3) (r : BitVec 2) (st : State) : Host.Outcome State Fault Refusal :=
  .next (tGuard st fun st => cvtBody st i.toNat o.toNat v.toNat p.toNat r.toNat)

/-- XF_EXP (R202): Widens half of an 8-bit tile into a 16-bit tile. -/
def execXfExp (i : BitVec 4) (o : BitVec 4) (s : BitVec 4) (d : BitVec 4) (l : BitVec 1) (h : BitVec 1) (st : State) : Host.Outcome State Fault Refusal :=
  .next (tGuard st fun st => expBody st i.toNat o.toNat s.toNat d.toNat l.toNat h.toNat)

/-- XF_TR (R203): Transposes a tile. -/
def execXfTr (s : BitVec 4) (d : BitVec 4) (w : BitVec 1) (st : State) : Host.Outcome State Fault Refusal :=
  .next (tGuard st fun st => trBody st s.toNat d.toNat w.toNat)

/-- XF_SPLIT (R205): Splits outlier columns of an A tile and writes TDMAP. -/
def execXfSplit (s : BitVec 4) (d : BitVec 4) (e : BitVec 8) (st : State) : Host.Outcome State Fault Refusal :=
  .next (tGuard st fun st => splitBody st s.toNat d.toNat e.toInt)

/-- XF_PACK (R204): Writes one tile line from a latch. -/
def execXfPack (v : BitVec 4) (d : BitVec 4) (l : BitVec 6) (m : BitVec 1) (q : BitVec 1) (st : State) : Host.Outcome State Fault Refusal :=
  .next (tGuard st fun st => packBody st v.toNat d.toNat l.toNat m.toNat q.toNat)

/-- LONG_IMMEDIATE (R207): Supplies a 30-bit signed immediate on source 0x300. -/
def execLongImmediate (i : BitVec 30) (st : State) : Host.Outcome State Fault Refusal :=
  .next (supplyB st (1#2 ++ i))

/-- BCAST (R208): Broadcasts a scalar register to every lane on bc. -/
def execBcast (e : BitVec 2) (x : BitVec 6) (st : State) : Host.Outcome State Fault Refusal :=
  .next (supplyB st (2#2 ++ e ++ 0#22 ++ x))

/-- CHK (R209): Compares a primary with its shadow and traps DUPMIS on a difference. -/
def execChk (c : BitVec 1) (i : BitVec 5) (st : State) : Host.Outcome State Fault Refusal :=
  .next (tGuard st fun st => chkBody st c.toNat i.toNat)

end Sys2Proof.Machine
end

