-- ==== Sys2Proof/Machine/Vector.lean ====
section
/-!
DEFINITION. The vector units vx0, vx1, vf and vr (R114 to R136).
-/

namespace Sys2Proof.Machine

/-- Width of an integer suffix (R51). -/
def widthOf (w : BitVec 2) : Nat := 8 * 2 ^ w.toNat

/-- A vx operation lane by lane, latency 2 (R116, R117): f takes o and t of one lane. -/
def vxOp (k : BitVec 4) (g : BitVec 12) (s : BitVec 10) (u : BitVec 1) (op low : Nat) (w : Nat)
    (f : Nat → Nat → Nat) (st : State) : State :=
  let r (o t : Vec) : Vec := mkVec w fun i => f (lane w o.toNat i) (lane w t.toNat i)
  if u = 0 then
    trigV st .vx0 (0x300 + 4 * op + low) k g s fun st t => vresult st .vx0r 2 (r (voperand st .vx0o) t)
  else
    trigV st .vx1 (0x340 + 4 * op + low) k g s fun st t => vresult st .vx1r 2 (r (voperand st .vx1o) t)

/-- A logic operation over all 1024 bits (R117). -/
def vxLogic (k : BitVec 4) (g : BitVec 12) (s : BitVec 10) (u : BitVec 1) (low : Nat) (f : Vec → Vec → Vec)
    (st : State) : State :=
  if u = 0 then
    trigV st .vx0 (0x324 + low) k g s fun st t => vresult st .vx0r 2 (f (voperand st .vx0o) t)
  else
    trigV st .vx1 (0x364 + low) k g s fun st t => vresult st .vx1r 2 (f (voperand st .vx1o) t)

/-- All ones of width w where b holds. -/
def maskLane (w : Nat) (b : Bool) : Nat := if b then 2 ^ w - 1 else 0

/-- VX_ADD (R117): Lane-wise integer add. -/
def execVxAdd (k : BitVec 4) (g : BitVec 12) (s : BitVec 10) (u : BitVec 1) (w : BitVec 2) (st : State) : Host.Outcome State Fault Refusal :=
  .next (vxOp k g s u 0 w.toNat (widthOf w) (fun o t => o + t) st)

/-- VX_SUB (R117): Lane-wise integer subtract. -/
def execVxSub (k : BitVec 4) (g : BitVec 12) (s : BitVec 10) (u : BitVec 1) (w : BitVec 2) (st : State) : Host.Outcome State Fault Refusal :=
  .next (vxOp k g s u 1 w.toNat (widthOf w) (fun o t => o + 2 ^ (widthOf w) - t) st)

/-- VX_ADDS (R117): Signed saturating add. -/
def execVxAdds (k : BitVec 4) (g : BitVec 12) (s : BitVec 10) (u : BitVec 1) (w : BitVec 2) (st : State) : Host.Outcome State Fault Refusal :=
  .next (vxOp k g s u 2 w.toNat (widthOf w) (fun o t => wrap (widthOf w) (satS (widthOf w) (sval (widthOf w) o + sval (widthOf w) t))) st)

/-- VX_ADDSN (R117): Unsigned saturating add. -/
def execVxAddsn (k : BitVec 4) (g : BitVec 12) (s : BitVec 10) (u : BitVec 1) (w : BitVec 2) (st : State) : Host.Outcome State Fault Refusal :=
  .next (vxOp k g s u 3 w.toNat (widthOf w) (fun o t => min (2 ^ (widthOf w) - 1) (o + t)) st)

/-- VX_SUBS (R117): Signed saturating subtract. -/
def execVxSubs (k : BitVec 4) (g : BitVec 12) (s : BitVec 10) (u : BitVec 1) (w : BitVec 2) (st : State) : Host.Outcome State Fault Refusal :=
  .next (vxOp k g s u 4 w.toNat (widthOf w) (fun o t => wrap (widthOf w) (satS (widthOf w) (sval (widthOf w) o - sval (widthOf w) t))) st)

/-- VX_SUBSN (R117): Unsigned saturating subtract. -/
def execVxSubsn (k : BitVec 4) (g : BitVec 12) (s : BitVec 10) (u : BitVec 1) (w : BitVec 2) (st : State) : Host.Outcome State Fault Refusal :=
  .next (vxOp k g s u 5 w.toNat (widthOf w) (fun o t => o - t) st)

/-- VX_MUL (R117): Low bits of the lane product. -/
def execVxMul (k : BitVec 4) (g : BitVec 12) (s : BitVec 10) (u : BitVec 1) (w : BitVec 2) (st : State) : Host.Outcome State Fault Refusal :=
  .next (vxOp k g s u 6 w.toNat (widthOf w) (fun o t => o * t) st)

/-- VX_MIN (R117): Signed lane minimum. -/
def execVxMin (k : BitVec 4) (g : BitVec 12) (s : BitVec 10) (u : BitVec 1) (w : BitVec 2) (st : State) : Host.Outcome State Fault Refusal :=
  .next (vxOp k g s u 7 w.toNat (widthOf w) (fun o t => if sval (widthOf w) o ≤ sval (widthOf w) t then o else t) st)

/-- VX_MAX (R117): Signed lane maximum. -/
def execVxMax (k : BitVec 4) (g : BitVec 12) (s : BitVec 10) (u : BitVec 1) (w : BitVec 2) (st : State) : Host.Outcome State Fault Refusal :=
  .next (vxOp k g s u 8 w.toNat (widthOf w) (fun o t => if sval (widthOf w) t ≤ sval (widthOf w) o then o else t) st)

/-- VX_SHL (R118): Lane shift left by a whole-lane count. -/
def execVxShl (k : BitVec 4) (g : BitVec 12) (s : BitVec 10) (u : BitVec 1) (w : BitVec 2) (st : State) : Host.Outcome State Fault Refusal :=
  .next (vxOp k g s u 10 w.toNat (widthOf w) (fun o t => if (widthOf w) ≤ t then 0 else o <<< t) st)

/-- VX_SHR (R118): Lane logical shift right. -/
def execVxShr (k : BitVec 4) (g : BitVec 12) (s : BitVec 10) (u : BitVec 1) (w : BitVec 2) (st : State) : Host.Outcome State Fault Refusal :=
  .next (vxOp k g s u 11 w.toNat (widthOf w) (fun o t => if (widthOf w) ≤ t then 0 else o >>> t) st)

/-- VX_SAR (R118): Lane arithmetic shift right. -/
def execVxSar (k : BitVec 4) (g : BitVec 12) (s : BitVec 10) (u : BitVec 1) (w : BitVec 2) (st : State) : Host.Outcome State Fault Refusal :=
  .next (vxOp k g s u 12 w.toNat (widthOf w) (fun o t => wrap (widthOf w) (sval (widthOf w) o >>> (min t (widthOf w)))) st)

/-- VX_CEQ (R117): Lane equality mask. -/
def execVxCeq (k : BitVec 4) (g : BitVec 12) (s : BitVec 10) (u : BitVec 1) (w : BitVec 2) (st : State) : Host.Outcome State Fault Refusal :=
  .next (vxOp k g s u 13 w.toNat (widthOf w) (fun o t => maskLane (widthOf w) (o == t)) st)

/-- VX_CLT (R117): Signed less-than mask. -/
def execVxClt (k : BitVec 4) (g : BitVec 12) (s : BitVec 10) (u : BitVec 1) (w : BitVec 2) (st : State) : Host.Outcome State Fault Refusal :=
  .next (vxOp k g s u 14 w.toNat (widthOf w) (fun o t => maskLane (widthOf w) (decide (sval (widthOf w) o < sval (widthOf w) t))) st)

/-- VX_CLTN (R117): Unsigned less-than mask. -/
def execVxCltn (k : BitVec 4) (g : BitVec 12) (s : BitVec 10) (u : BitVec 1) (w : BitVec 2) (st : State) : Host.Outcome State Fault Refusal :=
  .next (vxOp k g s u 15 w.toNat (widthOf w) (fun o t => maskLane (widthOf w) (decide (o < t))) st)

/-- VX_AND (R117): Bitwise AND over 1024 bits. -/
def execVxAnd (k : BitVec 4) (g : BitVec 12) (s : BitVec 10) (u : BitVec 1) (st : State) : Host.Outcome State Fault Refusal :=
  .next (vxLogic k g s u 0 (fun o t => o &&& t) st)

/-- VX_OR (R117): Bitwise OR over 1024 bits. -/
def execVxOr (k : BitVec 4) (g : BitVec 12) (s : BitVec 10) (u : BitVec 1) (st : State) : Host.Outcome State Fault Refusal :=
  .next (vxLogic k g s u 1 (fun o t => o ||| t) st)

/-- VX_XOR (R117): Bitwise XOR over 1024 bits. -/
def execVxXor (k : BitVec 4) (g : BitVec 12) (s : BitVec 10) (u : BitVec 1) (st : State) : Host.Outcome State Fault Refusal :=
  .next (vxLogic k g s u 2 (fun o t => o ^^^ t) st)

/-- VX_ANDN (R117): Bitwise AND NOT over 1024 bits. -/
def execVxAndn (k : BitVec 4) (g : BitVec 12) (s : BitVec 10) (u : BitVec 1) (st : State) : Host.Outcome State Fault Refusal :=
  .next (vxLogic k g s u 3 (fun o t => o &&& ~~~t) st)

/-- A vf operation lane by lane, latency 4 (R116, R120): f takes the format and o, m, t of one lane. -/
def vfOp (k : BitVec 4) (g : BitVec 12) (s : BitVec 10) (op : Nat) (fm : BitVec 2) (f : Fmt → Nat → Nat → Nat → Nat)
    (st : State) : State :=
  trigV st .vf (0x380 + 4 * op + fm.toNat) k g s fun st t =>
    let F := fmtOf fm
    let w := FmtOps.width F
    let o := (voperand st .vfo).toNat
    let m := (voperand st .vfm).toNat
    vresult st .vfr 4 (mkVec w fun i => f F (lane w o i) (lane w m i) (lane w t.toNat i))

/-- The SRC field of a conversion's records (R24, R126): the physical vector register, or the source code. -/
def convSrc (st : State) (k : Nat) (s : BitVec 10) : Nat :=
  if s.toNat < 0xA0 then 0x02 * 2 ^ 24 + physV (cur st) (ownFile k) s.toNat else 0x05 * 2 ^ 24 + s.toNat

/-- VF_ADD (R121): Floating-point add. -/
def execVfAdd (k : BitVec 4) (g : BitVec 12) (s : BitVec 10) (f : BitVec 2) (st : State) : Host.Outcome State Fault Refusal :=
  .next (vfOp k g s 0 f (fun F o _ t => fadd F o t) st)

/-- VF_SUB (R121): Floating-point subtract. -/
def execVfSub (k : BitVec 4) (g : BitVec 12) (s : BitVec 10) (f : BitVec 2) (st : State) : Host.Outcome State Fault Refusal :=
  .next (vfOp k g s 1 f (fun F o _ t => fsub F o t) st)

/-- VF_MUL (R121): Floating-point multiply. -/
def execVfMul (k : BitVec 4) (g : BitVec 12) (s : BitVec 10) (f : BitVec 2) (st : State) : Host.Outcome State Fault Refusal :=
  .next (vfOp k g s 2 f (fun F o _ t => fmul F o t) st)

/-- VF_FMA (R121): Fused o × m + t. -/
def execVfFma (k : BitVec 4) (g : BitVec 12) (s : BitVec 10) (f : BitVec 2) (st : State) : Host.Outcome State Fault Refusal :=
  .next (vfOp k g s 3 f (fun F o m t => ffma F o m t) st)

/-- VF_FMS (R121): Fused o × m − t. -/
def execVfFms (k : BitVec 4) (g : BitVec 12) (s : BitVec 10) (f : BitVec 2) (st : State) : Host.Outcome State Fault Refusal :=
  .next (vfOp k g s 4 f (fun F o m t => ffms F o m t) st)

/-- VF_MIN (R123): Floating-point minimum. -/
def execVfMin (k : BitVec 4) (g : BitVec 12) (s : BitVec 10) (f : BitVec 2) (st : State) : Host.Outcome State Fault Refusal :=
  .next (vfOp k g s 5 f (fun F o _ t => fminmax F false o t) st)

/-- VF_MAX (R123): Floating-point maximum. -/
def execVfMax (k : BitVec 4) (g : BitVec 12) (s : BitVec 10) (f : BitVec 2) (st : State) : Host.Outcome State Fault Refusal :=
  .next (vfOp k g s 6 f (fun F o _ t => fminmax F true o t) st)

/-- VF_ABS (R120): Clears the sign bit. -/
def execVfAbs (k : BitVec 4) (g : BitVec 12) (s : BitVec 10) (f : BitVec 2) (st : State) : Host.Outcome State Fault Refusal :=
  .next (vfOp k g s 7 f (fun F _ _ t => t % 2 ^ (FmtOps.width F - 1)) st)

/-- VF_NEG (R120): Inverts the sign bit. -/
def execVfNeg (k : BitVec 4) (g : BitVec 12) (s : BitVec 10) (f : BitVec 2) (st : State) : Host.Outcome State Fault Refusal :=
  .next (vfOp k g s 8 f (fun F _ _ t => fnegate F t) st)

/-- VF_CEQ (R123): Floating-point equality mask. -/
def execVfCeq (k : BitVec 4) (g : BitVec 12) (s : BitVec 10) (f : BitVec 2) (st : State) : Host.Outcome State Fault Refusal :=
  .next (vfOp k g s 9 f (fun F o _ t => maskLane (FmtOps.width F) (feq F o t)) st)

/-- VF_CLT (R123): Floating-point less-than mask. -/
def execVfClt (k : BitVec 4) (g : BitVec 12) (s : BitVec 10) (f : BitVec 2) (st : State) : Host.Outcome State Fault Refusal :=
  .next (vfOp k g s 10 f (fun F o _ t => maskLane (FmtOps.width F) (flt F o t)) st)

/-- VF_CLE (R123): Floating-point less-or-equal mask. -/
def execVfCle (k : BitVec 4) (g : BitVec 12) (s : BitVec 10) (f : BitVec 2) (st : State) : Host.Outcome State Fault Refusal :=
  .next (vfOp k g s 11 f (fun F o _ t => maskLane (FmtOps.width F) (fle F o t)) st)

/-- VF_RCPE (R124): Reciprocal estimate. -/
def execVfRcpe (k : BitVec 4) (g : BitVec 12) (s : BitVec 10) (f : BitVec 2) (st : State) : Host.Outcome State Fault Refusal :=
  .next (vfOp k g s 12 f (fun F _ _ t => frcpe F t) st)

/-- VF_RSQE (R124): Reciprocal square-root estimate. -/
def execVfRsqe (k : BitVec 4) (g : BitVec 12) (s : BitVec 10) (f : BitVec 2) (st : State) : Host.Outcome State Fault Refusal :=
  .next (vfOp k g s 13 f (fun F _ _ t => frsqe F t) st)

/-- VF_TOI (R125): Floating-point to signed integer, with records and counts. -/
def execVfToi (k : BitVec 4) (g : BitVec 12) (s : BitVec 10) (f : BitVec 2) (st : State) : Host.Outcome State Fault Refusal :=
  .next (trigV st .vf (0x3B8 + f.toNat) k g s fun st t =>
    let F := fmtOf f
    let w := FmtOps.width F
    let n := 1024 / w
    let rm := bits (voperand st .vfm).toNat 0 2
    let r (i : Nat) : Nat × Special := convert (.fp F) (.int w true) rm (lane w t.toNat i)
    let nan := maskOf (fun i => (r i).2 == .nan) n 0
    let inf := maskOf (fun i => (r i).2 == .inf) n 0
    let rcd := excRecord (convSrc st k.toNat s) 0x02 k.toNat 0 st.cyc.cell
    countsFlight (vresult st .vfr 4 (mkVec w fun i => (r i).1)) 4 nan inf rcd)

/-- VF_FROMI (R125): Signed integer to floating point. -/
def execVfFromi (k : BitVec 4) (g : BitVec 12) (s : BitVec 10) (f : BitVec 2) (st : State) : Host.Outcome State Fault Refusal :=
  .next (trigV st .vf (0x3BC + f.toNat) k g s fun st t =>
    let F := fmtOf f
    let w := FmtOps.width F
    let rm := bits (voperand st .vfm).toNat 0 2
    vresult st .vfr 4 (mkVec w fun i => (convert (.int w true) (.fp F) rm (lane w t.toNat i)).1))

/-- A vr operation with result latch l and latency lat: f takes the width, o, m and t (R127). -/
def vrOp (k : BitVec 4) (g : BitVec 12) (s : BitVec 10) (op : Nat) (w : BitVec 2) (lat : Nat)
    (f : Nat → Nat → Nat → Nat → Vec) (st : State) : State :=
  trigV st .vr (0x3C0 + 4 * op + w.toNat) k g s fun st t =>
    vresult st .vrr lat (f (widthOf w) (voperand st .vro).toNat (voperand st .vrm).toNat t.toNat)

/-- Lane i of the sequence o followed by m, 0 beyond (R128). -/
def vrPick (w o m i : Nat) : Nat :=
  let n := 1024 / w
  if i < n then lane w o i else if i < 2 * n then lane w m (i - n) else 0

/-- One level of a reduction tree: adjacent pairs combine (R130). -/
def treeLevel (f : Nat → Nat → Nat) : List Nat → List Nat
  | a :: b :: l => f a b :: treeLevel f l
  | l => l

/-- Levels of a reduction tree. -/
def treeReduce (f : Nat → Nat → Nat) : Nat → List Nat → List Nat
  | 0, l => l
  | n + 1, l => treeReduce f n (treeLevel f l)

/-- A floating-point reduction, latency 8 (R130). -/
def vrFp (k : BitVec 4) (g : BitVec 12) (s : BitVec 10) (op : Nat) (fm : BitVec 2) (f : Fmt → Nat → Nat → Nat)
    (st : State) : State :=
  trigV st .vr (0x3C0 + 4 * op + fm.toNat) k g s fun st t =>
    let F := fmtOf fm
    let w := FmtOps.width F
    let l := treeReduce (f F) 6 ((List.range (1024 / w)).map (lane w t.toNat))
    vresult st .vrr 8 (BitVec.ofNat 1024 (l.headD 0))

/-- VR_PERM (R128): Per-lane index permute of o followed by m. -/
def execVrPerm (k : BitVec 4) (g : BitVec 12) (s : BitVec 10) (w : BitVec 2) (st : State) : Host.Outcome State Fault Refusal :=
  .next (vrOp k g s 0 w 3 (fun w o m t => mkVec w fun i => vrPick w o m (lane w t i)) st)

/-- VR_LSH (R128): Lane shift toward lane 0 across o and m. -/
def execVrLsh (k : BitVec 4) (g : BitVec 12) (s : BitVec 10) (w : BitVec 2) (st : State) : Host.Outcome State Fault Refusal :=
  .next (vrOp k g s 1 w 3 (fun w o m t => mkVec w fun i => vrPick w o m (i + lane w t 0)) st)

/-- VR_ROT (R128): Lane rotation of o. -/
def execVrRot (k : BitVec 4) (g : BitVec 12) (s : BitVec 10) (w : BitVec 2) (st : State) : Host.Outcome State Fault Refusal :=
  .next (vrOp k g s 2 w 3 (fun w o _ t => mkVec w fun i => lane w o ((i + lane w t 0) % (1024 / w))) st)

/-- VR_RADD (R129): Signed integer sum of all lanes. -/
def execVrRadd (k : BitVec 4) (g : BitVec 12) (s : BitVec 10) (w : BitVec 2) (st : State) : Host.Outcome State Fault Refusal :=
  .next (vrOp k g s 3 w 8 (fun w _ _ t => (BitVec.ofNat 1024 (wrap 64 (((List.range (1024 / w)).map fun i => sval w (lane w t i)).foldl (· + ·) 0)))) st)

/-- VR_RMAX (R129): Signed lane maximum and its lowest index. -/
def execVrRmax (k : BitVec 4) (g : BitVec 12) (s : BitVec 10) (w : BitVec 2) (st : State) : Host.Outcome State Fault Refusal :=
  .next (vrOp k g s 4 w 8 (fun w _ _ t => 
    let l := (List.range (1024 / w)).map fun i => sval w (lane w t i)
    let b := l.foldl max (l.headD 0)
    BitVec.ofNat 1024 (wrap 64 b + leastFrom (fun i => l.getD i 0 == b) (1024 / w) 0 * 2 ^ 64)) st)

/-- VR_RFADD (R130): Floating-point tree sum. -/
def execVrRfadd (k : BitVec 4) (g : BitVec 12) (s : BitVec 10) (f : BitVec 2) (st : State) : Host.Outcome State Fault Refusal :=
  .next (vrFp k g s 5 f fadd st)

/-- VR_RFMAX (R130): Floating-point tree maximum. -/
def execVrRfmax (k : BitVec 4) (g : BitVec 12) (s : BitVec 10) (f : BitVec 2) (st : State) : Host.Outcome State Fault Refusal :=
  .next (vrFp k g s 6 f (fun F => fminmax F true) st)

/-- VR_XTR (R131): Extracts one lane of vr.o to vr.x. -/
def execVrXtr (k : BitVec 4) (g : BitVec 12) (s : BitVec 10) (w : BitVec 2) (st : State) : Host.Outcome State Fault Refusal :=
  .next (trigV st .vr (0x3DC + w.toNat) k g s fun st t =>
    let W := widthOf w
    let j := lane W t.toNat 0 % (1024 / W)
    result st .vrx 3 (sext64 W (lane W (voperand st .vro).toNat j)))

end Sys2Proof.Machine
end

