-- ==== Sys2Proof/Machine/Slots.lean ====
section
/-!
DEFINITION. The slot words of a bundle by constructor: what ISSUE runs (R38). The events are no slot words.
-/

namespace Sys2Proof.Machine

/-- Run the operation of a slot word. -/
def execSlot (i : Instr) (st : State) : Host.Outcome State Fault Refusal :=
  match i with
  | .br i g y s d => execBr i g y s d st
  | .brCall i g y s d => execBrCall i g y s d st
  | .brRet g y s d => execBrRet g y s d st
  | .brInd i g y s d => execBrInd i g y s d st
  | .brLoop i g y s d => execBrLoop i g y s d st
  | .brLoopx i g y s d => execBrLoopx i g y s d st
  | .brUiret g y s d => execBrUiret g y s d st
  | .brIfence g y s d => execBrIfence g y s d st
  | .brSwap g y s d => execBrSwap g y s d st
  | .brEnd g y s d => execBrEnd g y s d st
  | .brCalli i g y s d => execBrCalli i g y s d st
  | .brUnspin g y s d => execBrUnspin g y s d st
  | .move k g s d => execMove k g s d st
  | .cbRead k g h n d => execCbRead k g h n d st
  | .cbWriteV k g s h n => execCbWriteV k g s h n st
  | .cbWriteM g s h n => execCbWriteM g s h n st
  | .aluMov k g s u => execAluMov k g s u st
  | .aluAdd k g s u => execAluAdd k g s u st
  | .aluSub k g s u => execAluSub k g s u st
  | .aluAdds1 k g s u => execAluAdds1 k g s u st
  | .aluAdds2 k g s u => execAluAdds2 k g s u st
  | .aluAdds3 k g s u => execAluAdds3 k g s u st
  | .aluAnd k g s u => execAluAnd k g s u st
  | .aluOr k g s u => execAluOr k g s u st
  | .aluXor k g s u => execAluXor k g s u st
  | .aluAndn k g s u => execAluAndn k g s u st
  | .aluShl k g s u => execAluShl k g s u st
  | .aluShr k g s u => execAluShr k g s u st
  | .aluSar k g s u => execAluSar k g s u st
  | .aluRol k g s u => execAluRol k g s u st
  | .aluRor k g s u => execAluRor k g s u st
  | .aluMin k g s u => execAluMin k g s u st
  | .aluMax k g s u => execAluMax k g s u st
  | .aluMinn k g s u => execAluMinn k g s u st
  | .aluMaxn k g s u => execAluMaxn k g s u st
  | .aluSext k g s u => execAluSext k g s u st
  | .aluZext k g s u => execAluZext k g s u st
  | .aluBfx k g s u => execAluBfx k g s u st
  | .aluBfxn k g s u => execAluBfxn k g s u st
  | .aluClz k g s u => execAluClz k g s u st
  | .aluCtz k g s u => execAluCtz k g s u st
  | .aluPopc k g s u => execAluPopc k g s u st
  | .aluBswap k g s u => execAluBswap k g s u st
  | .mulMul k g s => execMulMul k g s st
  | .mulMulh k g s => execMulMulh k g s st
  | .mulMulhn k g s => execMulMulhn k g s st
  | .mulMulhsn k g s => execMulMulhsn k g s st
  | .mulDinit k g s => execMulDinit k g s st
  | .mulDinitn k g s => execMulDinitn k g s st
  | .mulDstep k g s => execMulDstep k g s st
  | .mulDfix k g s => execMulDfix k g s st
  | .cmpEq k g s => execCmpEq k g s st
  | .cmpNe k g s => execCmpNe k g s st
  | .cmpLt k g s => execCmpLt k g s st
  | .cmpLe k g s => execCmpLe k g s st
  | .cmpGt k g s => execCmpGt k g s st
  | .cmpGe k g s => execCmpGe k g s st
  | .cmpLtn k g s => execCmpLtn k g s st
  | .cmpLen k g s => execCmpLen k g s st
  | .cmpGtn k g s => execCmpGtn k g s st
  | .cmpGen k g s => execCmpGen k g s st
  | .cmpTbit k g s => execCmpTbit k g s st
  | .cmpTany k g s => execCmpTany k g s st
  | .dictLd k g s => execDictLd k g s st
  | .scanOut k g s => execScanOut k g s st
  | .scanIn k g s => execScanIn k g s st
  | .cellFrz k g s => execCellFrz k g s st
  | .cellRsm k g s => execCellRsm k g s st
  | .migSwap k g s => execMigSwap k g s st
  | .cosWr k g s => execCosWr k g s st
  | .ownWr k g s => execOwnWr k g s st
  | .vxAdd k g s u w => execVxAdd k g s u w st
  | .vxSub k g s u w => execVxSub k g s u w st
  | .vxAdds k g s u w => execVxAdds k g s u w st
  | .vxAddsn k g s u w => execVxAddsn k g s u w st
  | .vxSubs k g s u w => execVxSubs k g s u w st
  | .vxSubsn k g s u w => execVxSubsn k g s u w st
  | .vxMul k g s u w => execVxMul k g s u w st
  | .vxMin k g s u w => execVxMin k g s u w st
  | .vxMax k g s u w => execVxMax k g s u w st
  | .vxAnd k g s u => execVxAnd k g s u st
  | .vxOr k g s u => execVxOr k g s u st
  | .vxXor k g s u => execVxXor k g s u st
  | .vxAndn k g s u => execVxAndn k g s u st
  | .vxShl k g s u w => execVxShl k g s u w st
  | .vxShr k g s u w => execVxShr k g s u w st
  | .vxSar k g s u w => execVxSar k g s u w st
  | .vxCeq k g s u w => execVxCeq k g s u w st
  | .vxClt k g s u w => execVxClt k g s u w st
  | .vxCltn k g s u w => execVxCltn k g s u w st
  | .vfAdd k g s f => execVfAdd k g s f st
  | .vfSub k g s f => execVfSub k g s f st
  | .vfMul k g s f => execVfMul k g s f st
  | .vfFma k g s f => execVfFma k g s f st
  | .vfFms k g s f => execVfFms k g s f st
  | .vfMin k g s f => execVfMin k g s f st
  | .vfMax k g s f => execVfMax k g s f st
  | .vfAbs k g s f => execVfAbs k g s f st
  | .vfNeg k g s f => execVfNeg k g s f st
  | .vfCeq k g s f => execVfCeq k g s f st
  | .vfClt k g s f => execVfClt k g s f st
  | .vfCle k g s f => execVfCle k g s f st
  | .vfRcpe k g s f => execVfRcpe k g s f st
  | .vfRsqe k g s f => execVfRsqe k g s f st
  | .vfToi k g s f => execVfToi k g s f st
  | .vfFromi k g s f => execVfFromi k g s f st
  | .vrPerm k g s w => execVrPerm k g s w st
  | .vrLsh k g s w => execVrLsh k g s w st
  | .vrRot k g s w => execVrRot k g s w st
  | .vrRadd k g s w => execVrRadd k g s w st
  | .vrRmax k g s w => execVrRmax k g s w st
  | .vrRfadd k g s f => execVrRfadd k g s f st
  | .vrRfmax k g s f => execVrRfmax k g s f st
  | .vrXtr k g s w => execVrXtr k g s w st
  | .lsuSldN8 g s => execLsuSldN8 g s st
  | .lsuSldI8 g s => execLsuSldI8 g s st
  | .lsuSldN16 g s => execLsuSldN16 g s st
  | .lsuSldI16 g s => execLsuSldI16 g s st
  | .lsuSldN32 g s => execLsuSldN32 g s st
  | .lsuSldI32 g s => execLsuSldI32 g s st
  | .lsuSld64 g s => execLsuSld64 g s st
  | .lsuSst8 g s => execLsuSst8 g s st
  | .lsuSst16 g s => execLsuSst16 g s st
  | .lsuSst32 g s => execLsuSst32 g s st
  | .lsuSst64 g s => execLsuSst64 g s st
  | .lsuMldN8 g s => execLsuMldN8 g s st
  | .lsuMldI8 g s => execLsuMldI8 g s st
  | .lsuMldN16 g s => execLsuMldN16 g s st
  | .lsuMldI16 g s => execLsuMldI16 g s st
  | .lsuMldN32 g s => execLsuMldN32 g s st
  | .lsuMldI32 g s => execLsuMldI32 g s st
  | .lsuMld64 g s => execLsuMld64 g s st
  | .lsuMst8 g s => execLsuMst8 g s st
  | .lsuMst16 g s => execLsuMst16 g s st
  | .lsuMst32 g s => execLsuMst32 g s st
  | .lsuMst64 g s => execLsuMst64 g s st
  | .lsuMldAq32 g s => execLsuMldAq32 g s st
  | .lsuMldAq64 g s => execLsuMldAq64 g s st
  | .lsuMstRl32 g s => execLsuMstRl32 g s st
  | .lsuMstRl64 g s => execLsuMstRl64 g s st
  | .lsuAmo g s => execLsuAmo g s st
  | .lsuL2amo g s => execLsuL2amo g s st
  | .lsuCpy g s => execLsuCpy g s st
  | .lsuCbadv g s => execLsuCbadv g s st
  | .lsuRel g s => execLsuRel g s st
  | .lsuAcq g s => execLsuAcq g s st
  | .lsuFence g s => execLsuFence g s st
  | .lsuVlds g s => execLsuVlds g s st
  | .lsuVldm g s => execLsuVldm g s st
  | .lsuTld g s => execLsuTld g s st
  | .lsuTst g s => execLsuTst g s st
  | .lsuVsts g s => execLsuVsts g s st
  | .lsuVstm g s => execLsuVstm g s st
  | .lsuVamo g s => execLsuVamo g s st
  | .lsuVcas128 g s => execLsuVcas128 g s st
  | .xltMap g s => execXltMap g s st
  | .xltUnmap g s => execXltUnmap g s st
  | .xltProbe g s => execXltProbe g s st
  | .ceGo g s => execCeGo g s st
  | .ceSwap g s => execCeSwap g s st
  | .cePoll g s => execCePoll g s st
  | .ceAbort g s => execCeAbort g s st
  | .lnkSend g s p => execLnkSend g s p st
  | .mxPush a t b => execMxPush a t b st
  | .mxShift => execMxShift st
  | .mxAcc => execMxAcc st
  | .mxPacc a t b => execMxPacc a t b st
  | .mxDrain a r f h => execMxDrain a r f h st
  | .mxMrg a r f h c => execMxMrg a r f h c st
  | .mxClr a r w => execMxClr a r w st
  | .mxNorm a r w => execMxNorm a r w st
  | .mxRdm a r q => execMxRdm a r q st
  | .mxRdx a q => execMxRdx a q st
  | .mxWrm a r q c => execMxWrm a r q c st
  | .mxWrx a q c => execMxWrx a q c st
  | .xfCvt i o v p r => execXfCvt i o v p r st
  | .xfExp i o s d l h => execXfExp i o s d l h st
  | .xfTr s d w => execXfTr s d w st
  | .xfSplit s d e => execXfSplit s d e st
  | .xfPack v d l m q => execXfPack v d l m q st
  | .longImmediate i => execLongImmediate i st
  | .bcast e x => execBcast e x st
  | .chk c i => execChk c i st
  | _ => .next st

/-- The state after the operation of a slot word. -/
def afterSlot (st : State) (i : Instr) : State :=
  match execSlot i st with
  | .next t => t
  | _ => st

end Sys2Proof.Machine
end

