-- ==== Sys2Proof/Machine/Fetch.lean ====
section
/-!
DEFINITION. Fetching the next bundle from the index stream, the dictionary or the instruction scratchpad (R54 to R59),
checking its words (R42, R46, R178, R199, R209), what its moves wait for (R157, R160, R161, R169), and the poisoned words
of the cell that it would read (R380, R381).
-/

namespace Sys2Proof.Machine

/-! ### The index stream -/

/-- A halfword of the stream: held, on a line that is not held, or at an address that is no valid PC (R57). -/
inductive Half where
  | val (v : Nat)
  | missing (line : Word)
  | bad (a : Word)
  deriving DecidableEq, Repr

/-- The 64-byte fetch line of an address (R57). -/
def lineOf (a : Word) : Word := a - a % 64

/-- A scratchpad PC (R57). -/
def ispPc (a : Word) : Bool := a.getLsbD 63

/-- The name of an address of the instruction scratchpad among the lines held: its half stands in bit 16 (log 21). -/
def ispKey (half : Bool) (a : Word) : Word := if half then a ||| 0x10000 else a

/-- A halfword as the sequencer of a context sees it: from a line it holds, or from the active half of the instruction scratchpad
(R57, R59, log 21). -/
def fetchHalf (x : Cell) (c : Ctx) (a : Word) : Half :=
  if ispPc a then
    if bits a.toNat 16 47 ≠ 0 then .bad a
    else match c.ilines.find? fun l => l.va == ispKey x.ispAct (lineOf a) with
      | some l => .val (bits l.val.toNat (8 * bits a.toNat 0 6) 16)
      | none => .val (readNat (if x.ispAct then x.isp1 else x.isp0) (bits a.toNat 0 16) 2)
  else
    match c.ilines.find? fun l => l.va == lineOf a with
    | some l => .val (bits l.val.toNat (8 * bits a.toNat 0 6) 16)
    | none => .missing (lineOf a)

/-- The bundle that the stream holds at an address: its words, length in bytes, whether its literal group goes on, and the
dictionary index it issued from; or what stands in the way. -/
inductive Fetched where
  | ok (b : Bundle) (len : Nat) (open_ : Bool) (idx : Option Nat)
  | missing (line : Word)
  | trap (cause : Nat) (info0 info1 : Word)
  deriving DecidableEq, Repr

/-- The words of a literal that PRES names, low half first (R55); rd reads a halfword. -/
def literalWords (rd : Word → Half) (pres : Nat) : List Nat → Word → Nat → Except Half (Nat × Word)
  | [], a, acc => .ok (acc, a)
  | k :: ks, a, acc =>
    if bit pres k then
      match rd a with
      | .val lo =>
        match rd (a + 2) with
        | .val hi => literalWords rd pres ks (a + 4) (acc + (lo + hi * 2 ^ 16) * 2 ^ (32 * k))
        | h => .error h
      | h => .error h
    else literalWords rd pres ks a acc

/-- What a halfword that is not held makes of the fetch: a wait, or IFETCH (R57, R58, R213). -/
def halfFail : Half → Fetched
  | .missing l => .missing l
  | .bad a => .trap 6 a 0
  | .val _ => .trap 6 0 0

/-- br.call or br.calli stands in a bundle (R104). -/
def callsIn (b : Bundle) : Bool := let op := bits (b.word 0).toNat 28 4; op == 2 || op == 11

/-- The literal whose template stands at t, in a bundle that begins at a (R55, R104). -/
def fetchLiteral (rd : Word → Half) (a t : Word) : Fetched :=
  match rd t with
  | .val v =>
    if bits v 12 3 ≠ 0 then .trap 7 t (BitVec.ofNat 64 v)
    else
      match literalWords rd v (List.range 12) (t + 2) 0 with
      | .ok (n, e) =>
        let b : Bundle := BitVec.ofNat 384 n
        if !bit v 15 && callsIn b then .trap 7 t (BitVec.ofNat 64 v)
        else .ok b (e - a).toNat (!bit v 15) none
      | .error h => halfFail h
  | h => halfFail h

/-- The next bundle of a context (R54 to R56). -/
def fetchBundle (x : Cell) (c : Ctx) : Fetched :=
  let rd := fetchHalf x c
  if c.lit then fetchLiteral rd c.pc c.pc
  else
    match rd c.pc with
    | .val v =>
      if v < 0x800 then .ok (smGet 0 x.dict v) 2 false (some v)
      else if v = 0xFFFD then .ok 0 2 false none
      else if v = 0xFFFE then fetchLiteral rd c.pc (c.pc + 2)
      else .trap 7 c.pc (BitVec.ofNat 64 v)
    | h => halfFail h

/-! ### Decoding checks -/

/-- Kind of the B word (R206). -/
def kindB (b : Bundle) : Nat := bits (b.word 11).toNat 30 2

/-- A move word whose source is in the vector space (R49, R52). -/
def vectorWord (b : Bundle) (k : Nat) : Bool :=
  decide (4 ≤ k) && (decide (k < 8) || decide (0x200 ≤ (wDst (b.word k)).toNat))

/-- A move word reads a long immediate or a broadcast that the B word does not supply (R46). -/
def lacksB (b : Bundle) (k : Nat) : Bool :=
  let s := (wSrc (b.word k)).toNat
  decide (1 ≤ k) && decide (k ≤ 8) &&
    (if vectorWord b k then s == 0xE0 && kindB b != 2 else s == 0x300 && kindB b != 1)

/-- A word that no firmware bundle may hold: X, T or chk (R178, R199, R209). -/
def firmwareBars (b : Bundle) (k : Nat) : Bool := k == 9 || k == 10 || (k == 11 && kindB b == 3)

/-- Word k of the bundle traps ILLMOVE at decoding (R46). DESIGN CHOICE (log 80): a word that D makes idle (R42) is checked
too. -/
def wordBad (p fw : Bool) (b : Bundle) (k : Nat) : Bool :=
  b.word k != 0 && (decodeSlot p k (b.word k) == .illMove || lacksB b k || (fw && firmwareBars b k))

/-- The lowest failing word (R46). -/
def firstBad (p fw : Bool) (b : Bundle) : Option Nat := (List.range 12).find? (wordBad p fw b)

/-- The operations of the bundle, in word order. -/
def bundleOps (p : Bool) (b : Bundle) : List (Nat × Instr) :=
  (List.range 12).filterMap fun k =>
    match decodeSlot p k (b.word k) with
    | .ok i => some (k, i)
    | _ => none

/-- A move, buffer read or buffer write, as against a trigger. -/
def plainMove : Instr → Bool
  | .move .. => true
  | .cbRead .. => true
  | .cbWriteV .. => true
  | .cbWriteM .. => true
  | _ => false

/-! ### The moves that act -/

/-- The unit whose trigger port the destination of a word names, for the classes where two words of a bundle may
name one unit (R75). -/
def unitOf (k d : Nat) : Option FUnit :=
  if 1 ≤ k ∧ k < 4 then
    if d < 0x200 then none else if d < 0x220 then some .alu0 else if d < 0x240 then some .alu1
    else if d < 0x260 then some .mul else if d < 0x300 then some .cmp else some .sys
  else if 4 ≤ k ∧ k < 8 then
    if d < 0x300 then none else if d < 0x340 then some .vx0 else if d < 0x380 then some .vx1
    else if d < 0x3C0 then some .vf else some .vr
  else none

/-- Word k of the bundle of the cycle acts (R39, R42, R45). -/
def wordActs (s : State) (k : Nat) : Bool :=
  let w := Bundle.word s.cyc.bundle k
  w != 0 && !shadowed s k (wDst w) && moveOn s (wGuard w)

/-- The move words that act. -/
def actingWords (s : State) : List Nat := (List.range 9).filter fun k => k != 0 && wordActs s k

/-- Handle and count of the buffer read of a word (R49, R52). -/
def wordCbRead (s : State) (k : Nat) : Option (Nat × Nat) :=
  if vectorWord s.cyc.bundle k then cbSrc (wSrc (Bundle.word s.cyc.bundle k)) else none

/-- Handle and count of the buffer write of a word (R49, R52). -/
def wordCbWrite (s : State) (k : Nat) : Option (Nat × Nat) :=
  let d := (wDst (Bundle.word s.cyc.bundle k)).toNat
  if (4 ≤ k ∧ k < 8 ∧ 0x2C0 ≤ d ∧ d < 0x300) ∨ (k = 8 ∧ 0x240 ≤ d ∧ d < 0x280) then some (bits d 3 3, bits d 0 3 + 1)
  else none

/-- The buffer read of a word traps, so that nothing of the word acts (R160). -/
def badRead (s : State) (k : Nat) : Bool :=
  match wordCbRead s k with
  | some (h, n) => !cbReadOk (cur s) k h n
  | none => false

/-- The units that two acting words trigger (R75). DESIGN CHOICE (log 96): a trigger whose buffer read is illegal starts nothing
(R160) and is none of the two. -/
def doubledUnits (s : State) : List FUnit :=
  let us := (actingWords s).filterMap fun k =>
    if badRead s k then none else unitOf k (wDst (Bundle.word s.cyc.bundle k)).toNat
  us.eraseDups.filter fun u => decide (1 < us.count u)

/-- The issue cycle of a bundle begins: guards, doubled triggers. -/
def startCyc (s : State) (n : Nat) (fw : Bool) (addr : Word) (len : Nat) (b : Bundle) (open_ : Bool) : State :=
  let s := { s with
    cyc := { Cyc.idle with cell := n, fw := fw, addr := addr, len := len, bundle := b, open_ := open_ } }
  let g := w0Guard (b.word 0)
  let s := { s with cyc := { s.cyc with wg := !guardPresent g || guardVal (cur s) g } }
  { s with cyc := { s.cyc with dup := doubledUnits s } }

/-- Offsets of the KIND 1 slots that the bundle reads (R160). -/
def kind1Reads (s : State) : List Nat :=
  let c := cur s
  (actingWords s).filterMap fun k =>
    match wordCbRead s k with
    | some (h, n) =>
      if cbReadOk c k h n && cbKind c h then some (cbSlotOff c h ((cbRd c h + n - 1) % cbSize c h)) else none
    | none => none

/-- An acting word waits for a circular buffer before the bundle issues (R157, R160, R161, R169). -/
def wordWaits (s : State) (k : Nat) : Bool :=
  let c := cur s
  let d := (wDst (Bundle.word s.cyc.bundle k)).toNat
  let full (h : Nat) : Bool := cbValid c h && cbFree c h == 0
  (match wordCbRead s k with
   | some (h, n) => cbReadOk c k h n && decide (cbFilled c h < n)
   | none => false) ||
  (match wordCbWrite s k with
   | some (h, n) => cbValid c h && decide (cbFree c h < n)
   | none => false) ||
  (k == 8 && (d == 0x61 || d == 0x213) &&
    (let aop := (sGet c .lsuaop).toNat; aopRet aop && full (aopRh aop))) ||
  (k == 8 && d == 0x88 &&
    (let ctl := (sGet c .cectl).toNat; bit ctl 40 && full (bits ctl 37 3) && decide (ceBusy (curCell s) s.cyc.fw < 16)))

/-! ### Poisoned words of the cell -/

/-- The scratchpad bytes that a word of the M slot reads (R140, R146, R149, R152). -/
def spReadRange (s : State) (d : Nat) : Option (Nat × Nat) :=
  let c := cur s
  let t := (readS s (wSrc (Bundle.word s.cyc.bundle 8))).toNat
  let o := (sGet c .lsuo).toNat
  if 0x40 ≤ d ∧ d < 0x42 then some (o + t, 1) else if 0x42 ≤ d ∧ d < 0x44 then some (o + t, 2)
  else if 0x44 ≤ d ∧ d < 0x46 then some (o + t, 4) else if d = 0x46 then some (o + t, 8)
  else if d = 0x60 then some (o + t, if bits (sGet c .lsuaop).toNat 0 4 ∈ [1, 3, 7] then 8 else 4)
  else if d = 0x67 then some (o + t, 128)
  else if d = 0x62 then
    let src := o + t
    let (bs, _, n) := copyPlan (bankFmt c (src % 2 ^ 20)) (bankFmt c ((sGet c .lsud).toNat % 2 ^ 20))
    some (src, n * bs)
  else if d = 0x69 then some (o, 8192) else if d = 0x212 then some (o, 32) else none

/-- The operand latches that the trigger with a destination reads, by their place in LATCH (R71). -/
def trigLatches (k d : Nat) : List Nat :=
  match unitOf k d with
  | some .alu0 => [0]
  | some .alu1 => [1]
  | some .mul => [2]
  | some .cmp => [3, 4]
  | some .sys => [29, 30]
  | some .vx0 => [32]
  | some .vx1 => [33]
  | some .vf => [34, 35]
  | some .vr => [36, 37]
  | _ =>
    if k ≠ 8 then []
    else if d = 0x60 ∨ d = 0x61 then [6, 7, 8, 9, 10]
    else if d = 0x212 ∨ d = 0x213 then [6, 7, 10, 38]
    else if 0x200 ≤ d then [6, 7]
    else if 0x40 ≤ d ∧ d < 0x80 then [6, 7]
    else if d = 0x80 then [11]
    else if d = 0x88 then [12, 13, 14, 15]
    else []

/-- The latch that an X or a T word reads (R175, R196). -/
def xLatches : Instr → List Nat
  | .mxMrg _ _ _ _ c => [32 + vIdx (xSrcLatch c.toNat)]
  | .mxWrm _ _ _ c => [32 + vIdx (xSrcLatch c.toNat)]
  | .mxWrx _ _ c => [32 + vIdx (xSrcLatch c.toNat)]
  | .xfCvt _ _ v _ _ => [32 + vIdx (srcVLatch (0xA0 + v.toNat))]
  | .xfPack v _ _ _ _ => [32 + vIdx (srcVLatch (0xA0 + v.toNat))]
  | _ => []

/-- The tiles that the X, T and M words read (R175, R197). -/
def tilesRead : Instr → List Nat
  | .mxPush _ t b => [t.toNat, b.toNat]
  | .mxPacc _ t b => [t.toNat, b.toNat]
  | .xfExp _ _ s _ _ _ => [s.toNat]
  | .xfTr s _ _ => [s.toNat]
  | .xfSplit s _ _ => [s.toNat]
  | _ => []

/-- A word of an accumulator tile belongs to the mantissas or the record of a row (R28, R350). -/
def accWordOf (w i : Nat) : Bool :=
  if w < 3072 then w / 48 == i else decide (w < 3104) && (2 * (w - 3072) == i || 2 * (w - 3072) + 1 == i)

/-- A beat accumulates into row i of tile t (R183, R185). -/
def beatReads (x : Cell) (new : List Slice) (t w : Nat) : Bool :=
  let l := ageSlices (x.slices ++ new)
  (List.range 64).any fun i => accWordOf w i && !(rowTerms l t i).isEmpty

/-- An X word reads word w of accumulator tile t (R175, R184 to R191). -/
def accReads (x : Cell) (c : Ctx) (t w : Nat) : Instr → Bool
  | .mxAcc => beatReads x [] t w
  | .mxPacc a u v => tileOk c u.toNat && tileOk c v.toNat && beatReads x [(pushSlice c u.toNat v.toNat a.toNat).2] t w
  | .mxDrain a r _ _ => a.toNat == t && accWordOf w r.toNat
  | .mxMrg a r _ _ _ => a.toNat == t && accWordOf w r.toNat
  | .mxNorm a r m => a.toNat == t && (List.range 64).any fun i => accWordOf w i && (m == 1 || i == r.toNat)
  | .mxRdm a r q => a.toNat == t && w / 12 == 4 * r.toNat + q.toNat
  | .mxRdx a q => a.toNat == t && (if q.toNat < 2 then decide (3072 ≤ w) && (w - 3072) / 16 == q.toNat && decide (w < 3104) else w == 3104)
  | _ => false

/-- The control registers that a br operation reads: LC, TAIL and SPIN (R101, R106, R107). -/
def brReads : Instr → List Nat
  | .brLoop .. => [0x100, 0x102]
  | .brLoopx .. => [0x100, 0x101, 0x102]
  | _ => []

/-- The number of the scalar register that a source code names: xs registers from 64 on (log 22). -/
def xNum (c : Ctx) (i : Nat) : Nat :=
  match tgtX c i with
  | .xsreg j => 64 + j
  | .xreg j => j
  | _ => i

/-- A word of the bundle of the cycle reads the poisoned 64-bit word of a structure (R380, R381; log 22). -/
def wordReads (s : State) (p : Nat × Nat × Nat) (idx : Option Nat) (k : Nat) : Bool :=
  let c := cur s
  let b := s.cyc.bundle
  let w := Bundle.word b k
  let src := (wSrc w).toNat
  let d := (wDst w).toNat
  let mv := decide (1 ≤ k) && decide (k ≤ 8) && wordActs s k
  let vec := vectorWord b k
  let o := if s.cyc.fw then 0x8000 else 0
  let slot : Option Instr := match decodeSlot (modeP c) k w with
    | .ok i => some i
    | _ => none
  let g := if k = 0 then w0Guard w else wGuard w
  let chk : Option (Nat × Nat) := match slot with
    | some (.chk x i) => if (dupOn c || !dupBit s) && stageOn s then some (x.toNat, i.toNat) else none
    | _ => none
  match p.1 with
  | 1 =>
    (decide (k ≤ 8) && w != 0 && guardPresent g && !modeP c && xNum c (bits g.toNat 6 4) + o == p.2.1) ||
      (match chk with | some (0, i) => p.2.1 == i + o || p.2.1 == 48 + i + o | _ => false) ||
    (mv && !vec && decide (src < 0x40) && xNum c src + o == p.2.1) ||
      (k == 11 && kindB b == 2 && xNum c (bits w.toNat 0 6) + o == p.2.1)
  | 2 =>
    (match chk with | some (1, i) => p.2.1 == i + o || p.2.1 == 320 + i + o | _ => false) ||
    mv && vec && ((decide (src < 0xA0) && physV c (ownFile k) src + o == p.2.1) ||
      (match wordCbRead s k with
       | some (h, n) => !cbKind c h && cbSlotReg c h ((cbRd c h + n - 1) % cbSize c h) + o == p.2.1
       | none => false))
  | 3 =>
    (stageOn s && (k == 9 || k == 10) && (match slot with | some i => ((tilesRead i).map (· + o)).contains p.2.1 | none => false)) ||
      (mv && k == 8 && d == 0x6A && bits (readS s (wSrc w)).toNat 0 4 + o == p.2.1)
  | 4 => stageOn s && k == 9 && (match slot with | some i => accReads (curCell s) c p.2.1 p.2.2 i | none => false)
  | 5 =>
    (mv && (((trigLatches k d).map (· + o)).contains p.2.1 ||
      (!vec && decide (0x40 ≤ src) && decide (src < 0x4A) && sIdx (srcLatch src) + o == p.2.1) ||
      (vec && decide (0xA0 ≤ src) && decide (src < 0xAB) && 32 + vIdx (srcVLatch src) + o == p.2.1))) ||
      ((k == 9 || k == 10) && stageOn s && (match slot with | some i => ((xLatches i).map (· + o)).contains p.2.1 | none => false)) ||
      (k == 0 && p.2.1 == o + 5 && (match slot with
        | some (.brInd ..) => s.cyc.wg
        | some (.brCalli ..) => s.cyc.wg
        | some (.brRet ..) => s.cyc.wg
        | some (.brSwap ..) => s.cyc.wg
        | _ => false))
  | 6 =>
    let a := p.2.1 * 64 + p.2.2 * 8
    let hit (o n : Nat) : Bool := decide (a < o + n) && decide (o < a + 8)
    mv && ((k == 8 && (match spReadRange s d with | some (o, n) => hit o n | none => false)) ||
      (match wordCbRead s k with
       | some (h, n) => cbKind c h && hit (cbSlotOff c h ((cbRd c h + n - 1) % cbSize c h)) 128
       | none => false))
  | 7 => k == 0 && idx == some p.2.1
  | 8 =>
    let a := p.2.1 * 64 + p.2.2 * 8
    let at_ := bits s.cyc.addr.toNat 0 16 + 65536 * b2n (curCell s).ispAct
    k == 0 && ispPc s.cyc.addr && decide (a < at_ + s.cyc.len) && decide (at_ < a + 8)
  | 10 => (mv && !vec && decide (0x100 ≤ src) && decide (src < 0x160) && src + o == p.2.1) ||
      (k == 0 && s.cyc.wg && (match slot with | some i => ((brReads i).map (· + o)).contains p.2.1 | none => false))
  | _ => false

/-- The first poisoned word of the cell that the bundle reads, with the lowest word that reads it (R380). -/
def poisonRead (s : State) (idx : Option Nat) : Option ((Nat × Nat × Nat) × Nat) :=
  (curCell s).poison.findSome? fun p => ((List.range 12).find? (wordReads s p idx)).map fun k => (p, k)

/-- INFO0 of ECCU from a cell source (R381). -/
def cellEccInfo (p : Nat × Nat × Nat) : Word := BitVec.ofNat 64 (p.1 + p.2.1 % 2 ^ 16 * 2 ^ 16 + p.2.2 % 2 ^ 16 * 2 ^ 32)

end Sys2Proof.Machine
end

