-- ==== Sys2Proof/Machine/Issue.lean ====
section
/-!
DEFINITION. Issue cycles: what a context does next (R78, R103, R112, R234), the bundle of a cycle (R69, R72), the gang
stream (R234, R235, R409), the end of the cycle with interrupts, traps and debugger stops (R210, R241, R242, R299 to
R301), the lockstep group as one unit (R80, R81), and the events ISSUE, RESULT_LANDING, FIRMWARE_BUNDLE,
GANG_STREAM_ISSUE, FETCH_LINE_ARRIVAL, CELL_FREEZE, LINK_ARRIVAL, PRECISE_STOP and PRECISE_STOP_TIMEOUT.
-/

namespace Sys2Proof.Machine

/-! ### What comes next -/

/-- What a context does in its next cycle. -/
inductive Next where
  /-- Nothing: no task, or an ended task with nothing in flight. -/
  | none
  /-- A task that has issued br.end only lands what is in flight (R112). -/
  | land
  /-- The all-idle bundle: a bubble or a leading idle bundle (R103, R234). -/
  | idle
  /-- A bundle issues. -/
  | bundle (b : Bundle) (addr : Word) (len : Nat) (open_ : Bool) (idx : Option Nat)
  /-- A trap before issue (R211). -/
  | trap (cause slot : Nat) (dec : Bool) (info0 info1 : Word)
  /-- A freeze with its cause (R78, R303). -/
  | wait (cause : Nat)
  /-- A breakpoint stop (R301). -/
  | stop (reason which : Nat)
  /-- A poisoned word of the cell would be read by a slot (R380). -/
  | poison (slot : Nat) (p : Nat × Nat × Nat)
  /-- A load that is due has met a poisoned byte at an address of L1 (R380). -/
  | ecc (pa : Nat)
  deriving DecidableEq, Repr

/-- Nothing of a context is in flight, apart from what has come and waits for its load: no result, no bank access still to be made and
no tile transfer (R241, R404). -/
def nothingInFlight (c : Ctx) : Bool :=
  c.flights.all (·.cnt == 0) && c.bankOps.isEmpty && c.tland.isEmpty && c.tport.isEmpty

/-- An ended task has nothing left to land (R112). -/
def landedAll (x : Cell) (c : Ctx) (fw : Bool) : Bool :=
  c.flights.isEmpty && c.tland.isEmpty && c.tport.isEmpty && c.bankOps.isEmpty && (fw || !x.arrivals.any (·.sync))

/-- A walk is due: its result would land in the next cycle (R78, R164). -/
def walkDue (c : Ctx) : Bool := c.flights.any fun f => f.wait == .walk && f.cnt == 1

/-- Rank of a cell in its gang. -/
def rankOf (x : Cell) : Nat := match x.task with | some t => t.rank | none => 0

/-- A breakpoint that matches a bundle: REASON and WHICH (R301). -/
def breakAt (d : Debug) (addr : Word) (idx : Option Nat) : Option (Nat × Nat) :=
  if d.skip && addr == d.at_ then none else
  let i := leastFrom (fun i => let w := smGet 0 d.bpa i; w.getLsbD 0 && addr == w - 1) 4 0
  if i < 4 then some (3, i)
  else if d.bpx.getLsbD 63 && idx == some (bits d.bpx.toNat 0 11) then some (4, 0)
  else none

/-- A debugger stop of the cell is due after its last cycle (R300): 300 reached, 301 not reached in 256 cycles. -/
def stopDue (d : Debug) : Bool := d.precise == some 300 || d.precise == some 301

/-- Breakpoints, decoding, poison and waits of a bundle that is about to issue. -/
def judge (st : State) (n : Nat) (fw : Bool) (b : Bundle) (addr : Word) (len : Nat) (open_ : Bool) (idx : Option Nat) : Next :=
  match (if fw then none else breakAt (getCell st n).dbg addr idx) with
  | some (r, w) => .stop r w
  | none =>
    match firstBad (modeP (getCtx st n fw)) fw b with
    | some k => .trap 8 k true ((b.word k).zeroExtend 64) (BitVec.ofNat 64 k)
    | none =>
      let s := startCyc st n fw addr len b open_
      match poisonRead s idx with
      | some (p, k) => .poison k p
      | none => if (actingWords s).any (wordWaits s) then .wait 4 else .bundle b addr len open_ idx

/-- The first poisoned byte that a load which is due would bind (R380). -/
def poisonedLoad (x : Cell) (c : Ctx) : Option Nat :=
  c.flights.findSome? fun f =>
    if f.cnt ≠ 0 then none else
    x.loadq.findSome? fun e => match e with
      | .load id pa len _ _ _ _ _ =>
        if f.wait = .load id then
          ((List.range len).map (pa + ·)).find? fun a => (bufByte x.storeb id a).isNone &&
            (match l1Word (l1Get x (a / 128)) (a % 128 / 4) with
             | some w => w.poison
             | none => false)
        else none
      | .acq .. => none

/-- The poison of an L1 word is the cell's own: a mark of structure 9 (R381; log 22). -/
def ownMark (x : Cell) (a : Nat) : Bool := x.poison.any fun p => p == (9, a / 128, a % 128 / 8)

/-- The cause of the freeze that a HOLD stands for: that of its frozen interval (R303). -/
def holdCause (x : Cell) : Nat := match x.frozen with | some f => f.cause | none => 8

/-- What stands before any bundle of a context: freezes, the wait after br.end, idle cycles, and the ALIGN of an interrupt
whose UIVEC is odd (R78, R103, R112, R234, R242). -/
def beforeBundle (st : State) (n : Nat) (fw : Bool) : Option Next :=
  let x := getCell st n
  let c := getCtx st n fw
  if fw && (!x.fwRun || x.fwStop.isSome) then some .none
  else if !fw && x.task.isNone then some .none
  else if !fw && x.hold then some (.wait (holdCause x))
  else if !fw && (getDie st (dieOf n)).melted then some (.wait 8)
  else if !fw && stopDue x.dbg then some (.wait 9)
  else if x.soq.isSome then some (.wait 5)
  else if landBlocked c then some (match poisonedLoad x c with
    | some a => if ownMark x a then .poison 15 (9, a / 128, a % 128 / 8) else .ecc a
    | none => .wait 1)
  else if walkDue c then some (.wait 3)
  else if storeBlocked x || (!fw && replayFull st n) then some (.wait 2)
  else if c.pkind = 2 then some (if landedAll x c fw then .none else .land)
  else if c.lead ≠ 0 || c.bubbles ≠ 0 then some .idle
  else if c.pkind = 1 && c.pc.getLsbD 0 then some (.trap 0x0E 13 false 0 0)
  else none

/-- The bundle that the stream of a context holds next (R54, R103); a target of the other half traps IFETCH. -/
def fetchNext (st : State) (n : Nat) (fw : Bool) : Next :=
  let c := getCtx st n fw
  if c.pc.getLsbD 0 then .trap 6 14 false (c.pc - 1) 0 else
  match fetchBundle (getCell st n) c with
  | .ok b len o idx => .bundle b c.pc len o idx
  | .missing _ => .wait 6
  | .trap k i j => .trap k 14 false i j

/-- The line that a context freezes for (R57, R58). -/
def missingLine (st : State) (n : Nat) (fw : Bool) : Option Word :=
  match fetchBundle (getCell st n) (getCtx st n fw) with
  | .missing l => some l
  | _ => none

/-- A context that fetches for itself. -/
def ownNext (st : State) (n : Nat) (fw : Bool) : Next :=
  match beforeBundle st n fw with
  | some x => x
  | none =>
    match fetchNext st n fw with
    | .bundle b a l o i => judge st n fw b a l o i
    | x => x

/-- The leader of a cell's gang (R234). -/
def leaderOf (st : State) (n : Nat) : Option Nat :=
  match (getCell st n).task with
  | some t => (listed st).find? fun m =>
      match (getCell st m).task with
      | some u => u.kid == t.kid && u.tx == t.tx && u.ty == t.ty && u.rank == 0
      | none => false
  | none => none

/-- SKEW of the kernel of a cell's task (R229). -/
def skewOf (st : State) (n : Nat) : Nat :=
  match (getCell st n).task with
  | some t => match st.kernels.find? fun k => k.kid == t.kid with
    | some k => bits k.desc.toNat 344 4
    | none => 0
  | none => 0

/-- A follower's next cycle: the head of its stream, or with SKEW 0 the bundle that the leader is about to issue
(R234, R409). -/
def followNext (st : State) (n : Nat) : Next :=
  match beforeBundle st n false with
  | some x => x
  | none =>
    match (getCell st n).user.gang with
    | e :: _ => judge st n false e.bundle e.addr (bits e.out.toNat 30 6) false none
    | [] =>
      match leaderOf st n with
      | some m =>
        if skewOf st n = 0 then
          match ownNext st m false with
          | .bundle b a l o _ => judge st n false b a l o none
          | _ => .idle
        else .idle
      | none => .idle

/-- What a context does next. -/
def nextOf (st : State) (n : Nat) (fw : Bool) : Next :=
  if fw || rankOf (getCell st n) = 0 then ownNext st n fw else followNext st n

/-! ### Running a bundle -/

/-- A flag of the br operation as it stands after the bundle: the one write to it lands, and two collide (R75, R409). -/
def afterBundle (c : Ctx) (k : Nat) : Word :=
  match c.flights.filter fun f => f.tgt == .creg k && f.cnt == 1 with
  | [f] => BitVec.ofNat 64 (cregWrite k (creg c k).toNat (f.val.truncate 64 : Word).toNat)
  | _ => creg c k

/-- The outcome of the leader's br operation (R409). INT is set later. -/
def outcomeOf (st : State) : BitVec 128 :=
  let y := st.cyc
  let c := cur st
  let kind := if y.kind < 7 then y.kind else 0
  let op := bits (cycWord st 0) 28 4
  let val := if 1 ≤ kind ∧ kind ≤ 4 then (afterBundle c 0x100).toNat
    else if y.taken && (op == 3 || op == 4 || op == 7 || op == 9 || op == 11) then y.target.toNat else 0
  let tl := if 2 ≤ kind ∧ kind ≤ 4 then (afterBundle c 0x101).toNat else 0
  let p16 := kind == 1 || kind == 2 || kind == 5
  let sp := if 1 ≤ kind ∧ kind ≤ 5 then (afterBundle c 0x102).toNat else 0
  BitVec.ofNat 128 (bits sp 0 4 + bits sp 8 5 * 2 ^ 4 + bits sp 16 6 * 2 ^ 9 + b2n p16 * 2 ^ 15 + tl % 64 * 2 ^ 16 +
    kind * 2 ^ 22 + b2n y.taken * 2 ^ 25 + y.bub * 2 ^ 26 + y.len % 64 * 2 ^ 30 + val % 2 ^ 64 * 2 ^ 64)

/-- A follower applies the leader's outcome in place of w0 (R235, R409). -/
def applyOutcome (st : State) (o : Nat) : State :=
  let kind := bits o 22 3
  let tkn := bit o 25
  let val : Word := BitVec.ofNat 64 (bits o 64 64)
  let w0 := Bundle.word st.cyc.bundle 0
  let op := bits w0.toNat 28 4
  let rel := relTarget st (w0Imm w0)
  let target := if op = 3 ∨ op = 4 ∨ op = 7 ∨ op = 9 ∨ op = 11 then val else rel
  let st := if kind = 1 ∨ kind = 2 then putFlag st 0x100 val else st
  let st := if kind = 3 ∨ kind = 4 then putFlag st 0x101 (BitVec.ofNat 64 (bits o 16 6)) else st
  let st := if 1 ≤ kind ∧ kind ≤ 5 then putFlag st 0x102 (spinPack (bits o 9 6) (bits o 4 5) (bits o 0 4)) else st
  let st := if 1 ≤ kind ∧ kind ≤ 4 then
      launch st { tgt := .pred (wheel 16 48 (bits o 9 6) 16) false, val := BitVec.ofNat 1024 (bits o 15 1), cnt := 1, slot := 0 }
    else if kind = 5 then unspinPreds st stagePreds else st
  let st := if kind = 6 then putReturn st else st
  let st := if tkn && op == 9 then flipAct st else st
  let st := if tkn && op == 8 then modCurCell st dropLines else st
  let st := if tkn && op == 7 then modCur st leaveHandler else st
  let seq := if op = 7 ∧ tkn then 7 else if op = 8 then 8 else kind
  let st := decideBr st (tkn && op != 10) (bits o 26 2) seq target
  if tkn && op == 10 then endBody st else st

/-- The slot words of the bundle of the cycle act: moves, then triggers, then the X, T and B words, then the br operation or the
leader's outcome (R69, R72, R101, R235). -/
def actWords (st : State) (b : Bundle) (out : Option (BitVec 128)) : State :=
  let ops := bundleOps (modeP (cur st)) b
  let act (st : State) (p : Nat × Instr → Bool) : State := ((ops.filter p).map Prod.snd).foldl afterSlot st
  let st := act st fun o => decide (1 ≤ o.1) && decide (o.1 ≤ 8) && plainMove o.2
  let st := act st fun o => decide (1 ≤ o.1) && decide (o.1 ≤ 8) && !plainMove o.2
  let st := act st fun o => decide (9 ≤ o.1)
  match out with
  | some o => applyOutcome st o.toNat
  | none => act st fun o => o.1 == 0

/-- A KIND 1 read of the cycle meets a conflict, once the bundle has acted (R248). -/
def readsClash (st : State) (n : Nat) (fw : Bool) : Bool :=
  (conflicts (cycleAccs (getCtx st n fw) (arrivalsOf (getCell st n) fw) 1)).any fun x =>
    x.2 && (match x.1.op.act with
      | .cbRead => true
      | _ => false)

/-- The bundle of the cycle (R69). Its KIND 1 reads take their banks; where one of them meets a conflict, which the bundle's own
writes of the buffer registers may move, the reads deliver zero (R248). -/
def runBundle (st : State) (n : Nat) (fw : Bool) (b : Bundle) (addr : Word) (len : Nat) (open_ : Bool)
    (out : Option (BitVec 128)) : State :=
  let st := startCyc st n fw addr len b open_
  let offs := kind1Reads st
  if offs = [] then actWords st b out else
  let rd (o : Nat) : BankOp := { cnt := 1, code := 0, act := .cbRead, off := o, len := 128 }
  let st := modCur st fun c => { c with bankOps := c.bankOps ++ offs.map rd }
  let t := actWords st b out
  if readsClash t n fw then actWords { st with cyc := { st.cyc with supp := true } } b out else t

/-- The followers of a leader, in rank order (R234). -/
def followersOf (st : State) (n : Nat) : List Nat :=
  match (getCell st n).task with
  | some t =>
    if t.rank ≠ 0 then [] else
    (listed st).filter fun m =>
      match (getCell st m).task with
      | some u => u.kid == t.kid && u.tx == t.tx && u.ty == t.ty && u.rank != 0
      | none => false
  | none => []

/-- The leader's bundle joins the stream of every follower (R409). -/
def pushStream (st : State) (n : Nat) : State :=
  let e : GangEntry := ⟨st.cyc.bundle, st.cyc.addr, outcomeOf st⟩
  (followersOf st n).foldl (fun st m => modCell st m fun x => { x with user := { x.user with gang := x.user.gang ++ [e] } }) st

/-- The decision to take an interrupt is told to every follower (R235, R409). -/
def markInt (st : State) (n : Nat) : State :=
  let upd (g : List GangEntry) : List GangEntry :=
    match g.reverse with
    | e :: es => (es.reverse) ++ [{ e with out := e.out ||| BitVec.ofNat 128 (2 ^ 28) }]
    | [] => []
  (followersOf st n).foldl (fun st m => modCell st m fun x => { x with user := { x.user with gang := upd x.user.gang } }) st

/-- Begin the cycle of a context (first half): the bundle acts, or the cycle is idle. -/
def beginCycle (st : State) (n : Nat) (fw : Bool) (x : Next) : State :=
  let c := getCtx st n fw
  let blank : State := { st with cyc := { Cyc.idle with cell := n, fw := fw, addr := nextAddr c } }
  match x with
  | .bundle b addr len o _ =>
    if fw || rankOf (getCell st n) = 0 then
      let st := runBundle st n fw b addr len o none
      if fw then st else pushStream st n
    else
      match c.gang with
      | e :: _ => runBundle st n fw e.bundle e.addr (bits e.out.toNat 30 6) false (some e.out)
      | [] => blank
  | _ => blank

/-! ### The end of a cycle -/

/-- Stop the lockstep group for the debugger (R299, R301). -/
def dbgStop (st : State) (n reason which cause : Nat) : State :=
  let g := lockstep st n
  let st := holdCells st cause n g
  g.foldl (fun st m => modCell st m fun x => { x with dbg := { x.dbg with
    stat := BitVec.ofNat 64 (bits x.dbg.stat.toNat 8 1 * 2 ^ 8 + which * 2 ^ 4 + reason * 2 + 1), precise := none
    at_ := nextAddr x.user } }) st

/-- The PC after a bundle (R103, R113); the sequencer owes its bubbles (R350). -/
def advancePc (y : Cyc) (c : Ctx) : Ctx :=
  let c := if y.ends then { c with pkind := 2, target := 0, pc := y.addr + BitVec.ofNat 64 y.len, lit := y.open_ }
    else if y.taken ∧ y.kind ≠ 5 ∧ y.kind ≠ 8 then
      (if y.kind = 7 then c else { c with pc := y.target, lit := false })
    else { c with pc := y.addr + BitVec.ofNat 64 y.len, lit := y.open_ }
  let b := if y.taken ∧ !y.ends then y.bub else 0
  let owed := decide (b ≠ 0)
  { c with
    bubbles := BitVec.ofNat 4 b
    pkind := if c.pkind = 2 then c.pkind else if owed then 1 else 0
    target := if owed ∧ !y.ends then c.pc else 0 }

/-- A follower owes the bubbles and the idle cycles of its entry, but no target: its next bundle is its next entry
(R234, R409). -/
def followPc (y : Cyc) (c : Ctx) : Ctx :=
  let c := advancePc y c
  if c.pkind = 1 then { c with pkind := 0, target := 0 } else c

/-- An idle cycle has issued: a leading idle bundle, or a bubble (R103, R234). After the last bubble no target is pending, but for the
interrupt whose UIVEC is odd, which traps then (R242). -/
def advanceIdle (c : Ctx) : Ctx :=
  if c.lead ≠ 0 then { c with lead := c.lead - 1 }
  else if c.bubbles ≠ 0 then
    let c := { c with bubbles := c.bubbles - 1 }
    if c.bubbles ≠ 0 ∨ (c.pkind = 1 ∧ c.pc.getLsbD 0 ∧ !c.target.getLsbD 0) then c
    else { c with target := 0, pkind := if c.pkind = 1 then 0 else c.pkind }
  else c

/-- The bundle of the cycle qualifies for an interrupt (R241). -/
def takesInterrupt (y : Cyc) (c : Ctx) (traps : Bool) : Bool :=
  let u := (creg c 0x108).toNat
  bit (Bundle.word y.bundle 0).toNat 3 && !traps && !y.ends && bit u 16 && !bit u 17 && bits u 0 8 != 0 && nothingInFlight c

/-- A context takes an interrupt (R242): the branch's bubbles stay owed, with two idle cycles after them, and UIRA holds the
address that comes after them. pend: the context has UIVEC pending as a target. With an odd UIVEC the target is the resume address, for
a follower too, and the context traps ALIGN with SLOT 13 after the idle cycles (log 23). -/
def enterInterrupt (st : State) (n : Nat) (pend : Bool) : State :=
  modCtx st n false fun c =>
    let t := { enterHandler c c.pc c.lit with bubbles := c.bubbles + 2 }
    if pend || t.pc.getLsbD 0 then { t with pkind := 1, target := if t.pc.getLsbD 0 then c.pc else t.pc } else t

/-- Taking the interrupt (R242), which the followers take too (R235, R409). -/
def interrupt (st : State) (n : Nat) : State := markInt (enterInterrupt st n true) n

/-- The ALIGN of taking an interrupt: ACT is 0 again, and the program goes on at UIRA (R242). -/
def leaveInterrupt (c : Ctx) : Ctx :=
  { leaveHandler c with pc := c.uira, lit := c.ulit, pkind := 0, target := 0 }

/-- A follower takes the interrupt that its leader took, by its own UIVEC (R409, log 23). -/
def followInterrupt (st : State) (n : Nat) (o : Nat) : State := if bit o 28 then enterInterrupt st n false else st

/-- Debugger bookkeeping after a cycle of the user context: a step ends, a precise stop is reached or times out (R299,
R300). Values from 512 mark a step; 300 and 301 a stop that PRECISE_STOP or PRECISE_STOP_TIMEOUT makes. -/
def debugAfter (st : State) (n : Nat) : State :=
  let d := (getCell st n).dbg
  let put (k : Nat) : State := modCell st n fun x => { x with dbg := { x.dbg with precise := some k } }
  match d.precise with
  | none => st
  | some k =>
    if 512 ≤ k then dbgStop st n 2 0 0x0B
    else if nothingInFlight (getCell st n).user then put 300
    else if 255 ≤ k then put 301
    else put (k + 1)

/-- The energy that a cell takes in one cycle, leakage with it (R396); that of a firmware bundle is charged to no region (R397). -/
def spendEnergy (st : State) (n : Nat) (fw : Bool) : State :=
  let e := Config.cycleEnergy st.free
  useFree (modCell st n fun k => { k with enj := k.enj + e, enjCharged := if fw then k.enjCharged + e else k.enjCharged })

/-- End the cycle of a context (second half): results land, the PC moves on, SCYC counts, an interrupt is taken, and
traps follow (R69, R79, R82, R103, R210, R241, R396). -/
def finishCycle (st : State) (n : Nat) (fw : Bool) (x : Next) (y : Cyc) : State :=
  let scyc := (getCtx st n fw).scyc
  let st := { st with cyc := y }
  let (st, ts, count) := cycleEnd st n fw
  let traps := y.traps ++ ts
  -- a collision whose load has not bound is a trap of this cycle, though it is filed once the load has (R78, R241)
  let clash := waitClash st n fw
  let st := spendEnergy (modCtx st n fw fun c => { c with last := y.addr }) n fw
  match x with
  | .land => takeTrap st n fw traps count (getCtx st n fw).last (scyc - 1)
  | _ =>
    let st := modCtx st n fw fun c => { c with scyc := c.scyc + 1 }
    let st := (modCell st n fun k => { k with
      fwcount := if fw then 0 else k.fwcount + 1
      dbg := if fw then k.dbg else { k.dbg with skip := false } })
    let st := match x with
      | .bundle .. =>
        if fw then modCtx st n fw (advancePc y)
        else if rankOf (getCell st n) = 0 then
          let st := modCtx st n false (advancePc y)
          (if takesInterrupt y (getCtx st n false) (traps != [] || clash) then interrupt st n else st)
        else
          let st := modCtx st n false (followPc y)
          match (getCell st n).user.gang with
          | e :: es => followInterrupt (modCtx st n false fun c => { c with gang := es }) n e.out.toNat
          | [] => st
      | _ => modCtx st n fw advanceIdle
    takeTrap st n fw traps count y.addr scyc

/-- What the debugger asks for after a cycle of the user context, which every member of the group has ended: a watchpoint stop, a step, a
precise stop (R299 to R301). -/
def stopAfter (st : State) (n : Nat) (y : Cyc) : State :=
  debugAfter (if y.watch ≠ 0 then dbgStop st n 5 (y.watch - 1) 9 else st) n

/-! ### The lockstep group -/

/-- The cells of a lockstep group in ascending order (R80). -/
def members (st : State) (n : Nat) : List Nat :=
  let g := lockstep st n
  if g.length ≤ 1 then [n] else (listed st).filter g.contains

/-- Results that have come, and whose loads have bound, land (R78, R79). -/
def settle (st : State) (n : Nat) (fw : Bool) : State :=
  let c := getCtx st n fw
  if landDue c && !landBlocked c then
    let (st, ts, k) := landPhase st n fw
    takeTrap st n fw ts k c.last (c.scyc - 1)
  else st

/-- A cell loses a cycle (R78, R80, R303), with its leakage (R396). -/
def freezeCell (st : State) (cause causer n : Nat) : State :=
  spendEnergy (modCell st n fun x =>
    loseCycle (if x.hold && x.frozen.isSome then x else openFreeze cause causer x)) n false

/-- The waiting member with the lowest number, and its cause. -/
def firstWait (nx : List (Nat × Next)) : Option (Nat × Nat) :=
  nx.findSome? fun p => match p.2 with
    | .wait k => some (p.1, k)
    | _ => none

/-- An arrival has come, and lands with the next cycle (R163, R173). -/
def arrCome (a : Arrival) : Bool := arrLate a || (!a.sync && decide (a.cnt ≤ 1))

/-- An arrival that is counted in no cycle of its receiver (R173, R174, R232, R238). -/
def asyncArrival (st : State) (n : Nat) (a : Arrival) : State :=
  let st := modCell st n fun x => { x with arrivals := delFirst (· == a) x.arrivals }
  let st := if arrLate a then st else modCtx st n a.fw fun c => vPut c (stagingOf a.port) a.val
  let c := getCtx st n a.fw
  match arrBuf c a with
  | none => st
  | some h =>
    if !cbValid c h || cbFree c h = 0 then takeTrap st n a.fw [arriveTrap h] 1 c.last (c.scyc - 1)
    else deposit st n a.fw h false a.val

/-- Everything that has come for a context lands with no cycle under way: deposits, those that a move held back for a cycle among
them, and link arrivals from outside its lockstep group (R163, R174, R238). -/
def landCome (st : State) (n : Nat) (fw : Bool) : State :=
  let st := landInbox st n fw
  let as := (arrivalsOf (getCell st n) fw).filter arrCome
  as.foldl (fun st a => asyncArrival st n a) st

/-- Every member of the group loses the cycle; a member that waits itself records its own cause (R80). What has come for it
lands. -/
def groupWait (st : State) (nx : List (Nat × Next)) (causer cause : Nat) : State :=
  let st := nx.foldl (fun st p => landCome st p.1 false) st
  nx.foldl (fun st p => match p.2 with
    | .wait k =>
      let st := if k = 6 then
          match missingLine st p.1 false with
          | some l => modCtx st p.1 false fun c => { c with want := some l }
          | none => st
        else st
      freezeCell st k p.1 p.1
    | .none => if (getCell st p.1).task.isSome then freezeCell st cause causer p.1 else st
    | _ => freezeCell st cause causer p.1) st

/-- The failing unit of a cell joins the failure map, and the cell leaves service (R383, R384). Its whole group is frozen, for a trap of its
firmware context too (R382). -/
def retireCell (st : State) (n : Nat) (p : Nat × Nat × Nat) : State :=
  let st := holdCells (modCell st n fun x => { x with ok := false, failed := 1 }) 7 n (lockstep st n)
  let e := (n, p.1, p.2.1)
  { st with failmap := if st.failmap.contains e then st.failmap else st.failmap ++ [e] }

/-- The traps and stops that keep a bundle from issuing (R46, R58, R301, R380). -/
def beforeIssue (st : State) (n : Nat) (fw : Bool) (x : Next) : State :=
  let c := getCtx st n fw
  match x with
  | .trap cause 13 dec i j =>
    takeTrap (modCtx st n fw leaveInterrupt) n fw [(cause, 13, dec, i, j)] 1 c.uira c.scyc
  | .trap cause slot dec i j => takeTrap st n fw [(cause, slot, dec, i, j)] 1 (nextAddr c) c.scyc
  | .stop r w => dbgStop st n r w 9
  | .poison k p =>
    let j := BitVec.ofNat 64 ((Config.syndrome st.free).toNat * 2 ^ 8)
    retireCell (fileTrap (useFree st) n fw [(0x10, k, false, cellEccInfo p, j)] 1 (nextAddr c) c.scyc) n p
  | .ecc a =>
    let st := takeTrap (useFree st) n fw [eccTrap st (a / 8)] 1 (nextAddr c) c.scyc
    modCell st n fun x =>
      let l := l1Get x (a / 128)
      l1Put x (a / 128) { l with words := l.words.filter fun w => !w.2.poison || w.2.dirty }
  | _ => st

/-- The next step keeps a bundle from issuing. -/
def preempts : Next → Bool
  | .trap .. => true
  | .stop .. => true
  | .poison .. => true
  | .ecc _ => true
  | _ => false

/-- The place of a cell's task in its kernel, ty·TW + tx, and its rank (R386). -/
def taskPlace (st : State) (n : Nat) : Nat :=
  match (getCell st n).task with
  | some t => match st.kernels.find? fun k => k.kid == t.kid with
    | some k => (t.ty * bits k.desc.toNat 368 16 + t.tx) * 16 + t.rank
    | none => 0
  | none => 0

/-- Insert a member into a list that rises by the place of its task. -/
def byPlace (st : State) (p : Nat × Next) : List (Nat × Next) → List (Nat × Next)
  | [] => [p]
  | q :: l => if taskPlace st p.1 < taskPlace st q.1 then p :: q :: l else q :: byPlace st p l

/-- A cycle of the whole group: every member begins it, in the order of their tasks, then every member ends it (R80, R386), and what the
debugger asks for follows. A member without a cycle of its own has its leakage (R396). -/
def groupCycle (st : State) (nx : List (Nat × Next)) : State :=
  let live := (nx.filter fun p => p.2 != .none).foldr (byPlace st) []
  let st := nx.foldl (fun st p => if (getCell st p.1).task.isSome then closeFreeze st p.1 else st) st
  let (st, ys) := live.foldl (fun (acc : State × List (Nat × Next × Cyc)) p =>
    let st := beginCycle acc.1 p.1 false p.2
    (st, acc.2 ++ [(p.1, p.2, st.cyc)])) (st, [])
  let st := ys.foldl (fun st y => finishCycle st y.1 false y.2.1 y.2.2) st
  let st := ys.foldl (fun st y => stopAfter st y.1 y.2.2) st
  let rest := (nx.filter fun p => p.2 == .none).map Prod.fst
  let st := rest.foldl (fun st m => stopAfter (spendEnergy st m false) m Cyc.idle) st
  { st with cyc := Cyc.idle }

/-- The user cycle of a lockstep group (R78, R80). -/
def issueGroup (st : State) (n : Nat) : State :=
  let ms := members st n
  let st := ms.foldl (fun st m => settle st m false) st
  let nx := ms.map fun m => (m, nextOf st m false)
  match firstWait nx with
  | some (m, cause) => groupWait st nx m cause
  | none =>
    if nx.any fun p => preempts p.2 then nx.foldl (fun st p => beforeIssue st p.1 false p.2) st
    else groupCycle st nx

/-! ### The firmware context -/

/-- A firmware cycle of one cell (R81, R405): its bundle issues, or its trap stops the context; br.end stops it once all has
landed, with a release of device scope (R112, R258). -/
def firmCycle (st : State) (n : Nat) : State :=
  let st := settle st n true
  let x := nextOf st n true
  match x with
  | .none =>
    if (getCell st n).fw.pkind = 2 then
      pushMarker (modCell (landCome st n true) n fun k => { k with fwRun := false, fw := { k.fw with pkind := 0 } }) n 3 false true
    else landCome st n true
  | .wait 6 =>
    match missingLine st n true with
    | some l => modCtx st n true fun c => { c with want := some l }
    | none => st
  | .wait _ => landCome st n true
  | _ =>
    if preempts x then beforeIssue st n true x
    else
      let st := beginCycle st n true x
      { finishCycle st n true x st.cyc with cyc := Cyc.idle }

/-- The firmware context has a cycle to take (R224). -/
def firmReady (st : State) (n : Nat) : Bool :=
  match nextOf (settle st n true) n true with
  | .bundle .. => true
  | .idle => true
  | .land => true
  | _ => false

/-- The user context of a cell is frozen, or holds no task (R224). -/
def userStopped (st : State) (n : Nat) : Bool :=
  (getCell st n).task.isNone || ((members st n).map fun m => (m, nextOf (settle st m false) m false)).any fun p =>
    match p.2 with
    | .wait _ => true
    | _ => false

/-- A member qualifies for a firmware cycle taken from the user schedule (R224). -/
def firmQualifies (st : State) (n : Nat) : Bool :=
  firmReady st n && decide (fwShareN (getCell st n) - 1 ≤ (getCell st n).fwcount)

/-- A firmware cycle is due for the group of a cell (R224). -/
def firmDue (st : State) (n : Nat) : Bool := (members st n).any (firmQualifies st)

/-- The whole group gives one cycle to its firmware contexts (R81, R224). -/
def firmGroup (st : State) (n : Nat) : State :=
  let ms := members st n
  let causer := (ms.find? (firmQualifies st)).getD n
  ms.foldl (fun st m =>
    let st := freezeCell st 0x0A causer m
    let st := if firmReady st m then firmCycle st m else st
    modCell st m fun x => { x with fwcount := 0 }) st

/-! ### Fetch -/

/-- A byte of memory at an address of the queues, as a cell's own writes leave it on top of the home value: the youngest store in its
store buffer, else a D word of L1, else a writeback on its way (R59). -/
def ownByte (st : State) (n a : Nat) : Option Nat :=
  let x := getCell st n
  let inWord (w : L1Word) : Nat := bits w.val.toNat (8 * (a % 4)) 8
  match bufByte x.storeb (st.seq + 1) a with
  | some b => some b
  | none =>
    match l1Word (l1Get x (a / 128)) (a % 128 / 4) with
    | some w => if w.dirty then some (inWord w) else none
    | none => none

/-- The bytes of a line of memory that a fetch reads: the home value under the cell's own writes that it can see (R57, R59). A host
page that is refused reads 0 (R331). DESIGN CHOICE (log 87): above the 1,024 GiB of R11 a fetch reads bytes that are free. -/
def lineBytes (st : State) (n : Nat) (func : Nat) (h : Handle) (va : Word) : BitVec 512 :=
  let pa := h.ppage.toNat + va.toNat % pageSize h
  let home := if h.host then (if refusesHost st func pa then 0 else readNat st.hostMem pa 64) else homeRead st (handleSlice h) pa 64
  let wbs := st.chan.filterMap fun m => if m.cell ≠ n then none else match m.op with
    | .wb l _ ws => if keyLine (m.home == .host) l = keyLine h.host (pa / 128) then some ws else none
    | _ => none
  let line := wbs.foldl (fun v ws => mergeBytes 128 (dirtyMask ws) (lineValue ws) v) (home * 2 ^ (8 * (pa % 128)))
  BitVec.ofNat 512 (lanes 8 (fun i => (ownByte st n (keyOf h.host pa + i)).getD (bits line (8 * (pa % 128 + i)) 8)) 64 0)

/-- The lines of memory that a context holds. -/
def memLines (c : Ctx) : Nat := (c.ilines.filter fun l => !ispPc l.va).length

/-- A context comes to hold a line: of memory at most what fills the cell's instruction cache and the sequencer's four lines, of the
instruction scratchpad at most four (R10, R57). The oldest leaves. -/
def keepLine (x : Cell) (fw : Bool) (l : ILine) : Cell :=
  let c := if fw then x.fw else x.user
  let o := if fw then x.user else x.fw
  let sp := ispPc l.va
  let rest := c.ilines.filter fun k => k.va != l.va
  let full := if sp then decide (4 ≤ (rest.filter fun k => ispPc k.va).length) else decide (516 ≤ memLines { c with ilines := rest } + memLines o)
  let mine := if full then delFirst (fun k => ispPc k.va == sp) rest else rest
  let c := { c with ilines := mine ++ [l] }
  let o := if full && !sp && mine.length == rest.length then { o with ilines := delFirst (fun k => !ispPc k.va) o.ilines } else o
  if fw then { x with fw := c, user := o } else { x with user := c, fw := o }

/-- The partition a context fetches for, and its translation context (R57, R318). -/
def fetchCtx (st : State) (n : Nat) (fw : Bool) : TCtx := tctxOf st (seqOwner (getCell st n)) fw

/-- INFO0 and INFO1 of a fault record of a walk that the hypervisor answers (R326). -/
def fileWalk (st : State) (n : Nat) (cause : Nat) (info0 info1 : Word) : State :=
  let x := getCell st n
  fileHyper st n (faultRecord n 1 false false false (if cause = 6 then 14 else 15) cause (seqOwner x) (nextAddr x.user)
    x.user.scyc info0 info1)

/-- A line that comes, as it joins those held: from an odd address, one halfword of it is read anew (R59). -/
def joinLine (c : Ctx) (line : Word) (l : ILine) : ILine :=
  match (if line.getLsbD 0 then c.ilines.find? fun k => k.va == l.va else none) with
  | some k => { k with val := BitVec.ofNat 512 (mergeBytes 64 (3 * 2 ^ (bits line.toNat 1 5 * 2)) l.val.toNat k.val.toNat) }
  | none => l

/-- The translation of a fetch line faults (R58, R325): a fault of a line that is not asked for is dropped. -/
def lineFault (st : State) (n : Nat) (fw : Bool) (va : Word) (f : WalkFault) : State :=
  if (getCtx st n fw).want ≠ some va then st
  else if f.stage2 then
    let t := fetchCtx st n fw
    let st := modCtx st n fw fun c => { c with want := none, walk := some ⟨true, va, va, f.info1, t.iseq1, t.iseq2⟩ }
    fileWalk st n 6 va f.info1
  else trapNow (modCtx st n fw fun c => { c with want := none }) n fw (6, 14, false, va, f.info1)

/-- A fetch line comes, or its translation faults (R57, R58, R322, R325). -/
def lineArrival (st : State) (n : Nat) (fw : Bool) (line : Word) : State :=
  let va := lineOf line
  let c := getCtx st n fw
  if ispPc va then
    if bits va.toNat 17 46 ≠ 0 then st else
    let x := getCell st n
    let half := va.getLsbD 16
    let l : ILine := ⟨va, BitVec.ofNat 512 (readNat (if half then x.isp1 else x.isp0) (bits va.toNat 0 16) 64)⟩
    modCell st n fun x => keepLine x fw (joinLine c line l)
  else
  let t := fetchCtx st n fw
  if walkHeld st t va.toNat then st else
  match translateVia st (dieOf n) (if fw then none else tctxKey st (seqOwner (getCell st n))) t true va.toNat with
  | .ok (st, h) =>
    match fetchDenied h va.toNat with
    | some f => lineFault st n fw va f
    | none =>
    let pa := h.ppage.toNat + va.toNat % pageSize h
    let o : Origin := .bare fw (nextAddr c)
    let st := if h.host then
        (if refusesHost st (tctxFunc t) pa then
          fileRefusal st n true o va ⟨true, false, 4, 0, h.gpage.toNat + va.toNat % pageSize h, none⟩ else st)
      else l2Choose (l2Touch st (handleSlice h) pa (if fw then 0 else cellCos st n)) (handleSlice h) (pa / 128)
    let l : ILine := joinLine c line ⟨va, lineBytes st n (tctxFunc t) h va⟩
    modCtx (modCell st n fun x => keepLine x fw l) n fw fun c => { c with want := if c.want = some va then none else c.want }
  | .error f =>
    let st := match f.refused with
      | some gpa => fileRefusal st n true (.bare fw (nextAddr c)) va ⟨true, true, 4, f.lvl, gpa, none⟩
      | none => st
    lineFault st n fw va f

/-! ### The events -/

/-- ISSUE (R257): The next bundle of an unfrozen cell issues, and every slot word acts under the timing of R69. -/
def execIssue (n : Nat) (st : State) : Host.Outcome State Fault Refusal :=
  .next (if !userStopped st n && firmDue st n then firmGroup st n else issueGroup st n)

/-- What has come for a context that takes no cycle lands (R163, R238). -/
def landRest (st : State) (n : Nat) (fw : Bool) : State :=
  if !running (getCell st n) fw || nextOf st n fw == .none then landCome st n fw else st

/-- RESULT_LANDING (R69): When its latency count runs out, an operation in flight writes its result latch or target
register, and held results land at their SCYC. -/
def execResultLanding (n : Nat) (st : State) : Host.Outcome State Fault Refusal :=
  .next (landRest (landRest (settle (settle st n false) n true) n false) n true)

/-- FIRMWARE_BUNDLE (R81): The firmware context issues one bundle in a cycle taken from the user schedule, which freezes
the lockstep group for that cycle. -/
def execFirmwareBundle (n : Nat) (st : State) : Host.Outcome State Fault Refusal :=
  .next (if userStopped st n then firmCycle st n
    else if firmDue st n then firmGroup st n
    else if firmReady st n then st else firmCycle st n)

/-- GANG_STREAM_ISSUE (R409): A gang follower issues a queued gang-stream entry r times SKEW cycles after the leader, and
applies the leader's outcome. -/
def execGangStreamIssue (n : Nat) (st : State) : Host.Outcome State Fault Refusal :=
  .next (if rankOf (getCell st n) ≠ 0 ∧ (beforeBundle st n false).isNone ∧ (getCell st n).user.gang ≠ [] then
      (if firmDue st n then firmGroup st n else issueGroup st n)
    else st)

/-- FETCH_LINE_ARRIVAL (R57): A missing fetch line arrives, and the cell frozen for the instruction-cache miss can issue. -/
def execFetchLineArrival (n : Nat) (fw : Bool) (line : Word) (st : State) : Host.Outcome State Fault Refusal :=
  .next (lineArrival st n fw line)

/-- CELL_FREEZE (R347): A freeze request or HOLD takes effect at a cycle boundary, and results in flight are held in
snapshot registers. -/
def execCellFreeze (n : Nat) (st : State) : Host.Outcome State Fault Refusal :=
  .next (if (getCell st n).frzReq then
      let st := (members st n).foldl (fun st m => modCell st m (openFreeze 8 n)) st
      modCell st n fun x => { x with frzReq := false, hold := true }
    else st)

/-- LINK_ARRIVAL (R173): A link send lands in the receiver's staging register and, if a buffer names the port, is
deposited. -/
def execLinkArrival (n : Nat) (st : State) : Host.Outcome State Fault Refusal :=
  .next (match (getCell st n).arrivals.find? fun a => (!a.sync && decide (1 < a.cnt)) || (!a.fw && (getCell st n).task.isNone) with
    | some a =>
      if running (getCell st n) a.fw then
        modCell st n fun x => { x with arrivals := updFirst (· == a) (fun a => { a with cnt := 1 }) x.arrivals }
      else asyncArrival st n a
    | none => st)

/-- PRECISE_STOP (R300): A precise HALT stops the cell at the first cycle with no result in flight. -/
def execPreciseStop (n : Nat) (st : State) : Host.Outcome State Fault Refusal :=
  .next (if (getCell st n).dbg.precise = some 300 then dbgStop st n 1 0 9 else st)

/-- PRECISE_STOP_TIMEOUT (R300): After 256 cycles without reaching a precise point, the cell stops with REASON 6. -/
def execPreciseStopTimeout (n : Nat) (st : State) : Host.Outcome State Fault Refusal :=
  .next (if (getCell st n).dbg.precise = some 301 then dbgStop st n 6 0 9 else st)

end Sys2Proof.Machine
end

