-- ==== Sys2Proof/Machine/Walk.lean ====
section
/-!
DEFINITION. The walk of an xlt.map (R164, R322, R325, R326) and invalidations (R166, R327, R328).
-/

namespace Sys2Proof.Machine

/-! ### Walks -/

/-- The oldest xlt.map of a context whose walk is not made. -/
def openWalk (c : Ctx) : Option Flight := c.flights.find? fun f => f.wait == .walk

/-- A summary with V = 0 (R166). -/
def unsummed (v : Vec) : Vec := v &&& BitVec.ofNat 1024 (2 ^ 63 - 1)

/-- The walk of an xlt.map ends: the handle and the summary are known and land at their cycle (R164, R165). -/
def walkDone (c : Ctx) (id : Nat) (va : Word) (h : Handle) : Ctx :=
  let s : Vec := (summary h (va.toNat % pageSize h)).zeroExtend 1024
  let upd (f : Flight) : Flight :=
    if f.id = id ∧ f.wait = .walk then
      (match f.tgt with
       | .handle _ => { f with wait := .none, h := h }
       | _ => { f with wait := .none, val := if f.ext = 0 then s else unsummed s })
    else f
  { c with flights := c.flights.map upd }

/-- One walk as one step (R322, R329); a fault acts in the cycle in which xlt.r is due (R78, R325). -/
def walkBody (st : State) (n : Nat) (fw : Bool) : State :=
  let c := getCtx st n fw
  match openWalk c with
  | none => st
  | some f =>
    if c.walk.isSome || walkHeld st (fetchCtx st n fw) f.aux.toNat then st else
    match translateVia st (dieOf n) (if fw then none else tctxKey st (seqOwner (getCell st n))) (fetchCtx st n fw) false f.aux.toNat with
    | .ok (st, h) => modCtx st n fw fun c => walkDone c f.id f.aux h
    | .error e =>
      if f.cnt ≠ 1 then st else
      let st := match e.refused with
        | some gpa => fileRefusal st n false (.bare fw (nextAddr c)) f.aux ⟨true, true, 4, e.lvl, gpa, none⟩
        | none => st
      if e.stage2 then
        let t := fetchCtx st n fw
        fileWalk (modCtx st n fw fun c => { c with walk := some ⟨false, f.aux, f.aux, e.info1, t.iseq1, t.iseq2⟩ }) n 5 f.aux e.info1
      else trapNow st n fw (5, 15, false, f.aux, e.info1)

/-- TRANSLATION_WALK (R322): A walk of both stages builds a handle, sets A and D, and restarts if ISEQ changed. -/
def execTranslationWalk (n : Nat) (fw : Bool) (st : State) : Host.Outcome State Fault Refusal :=
  .next (walkBody st n fw)

/-! ### Invalidations -/

/-- Change a translation context. -/
def modTctx (st : State) (k : Nat) (g : TCtx → TCtx) : State :=
  { st with tctx := smPut st.tctx k (g (smGet TCtx.reset st.tctx k)) }

/-- Accept an invalidation of stage 1 (R327, R328). -/
def acceptInv1 (v : Word) (t : TCtx) : TCtx :=
  { t with iseq1 := t.iseq1 + 1, issued1 := t.issued1 + 1, reqs1 := t.reqs1 ++ [v] }

/-- Accept an invalidation of stage 2 (R327, R328). -/
def acceptInv2 (v : Word) (t : TCtx) : TCtx :=
  { t with iseq2 := t.iseq2 + 1, issued2 := t.issued2 + 1, reqs2 := t.reqs2 ++ [v] }

/-- INVREQ (R327): A tenant write requests invalidation of a range of its stage 1. It acts once every earlier write of the
function has been performed. -/
def execInvreq (f : Nat) (v : Word) (st : State) : Host.Outcome State Fault Refusal :=
  .next (match ctxOfFunc st f with
    | some (k, _) => if (getHost st f).queue = [] then modTctx st k (acceptInv1 v) else st
    | none => st)

/-- HINVREQ (R327): A hypervisor write requests invalidation of a range of a function's stage 2. It acts once every earlier write of
the hypervisor's function, which is function 0 (log 56), has been performed. -/
def execHinvreq (v : Word) (st : State) : Host.Outcome State Fault Refusal :=
  .next (let f := bits v.toNat 8 8
    match ctxOfFunc st f with
    | some (k, _) =>
      if (getHost st 0).queue ≠ [] then st else
      let st := modTctx st k (acceptInv2 v)
      if (getHost st f).tdisp = 0 then st else modHost st f fun h => { h with invs := h.invs + 1 }
    | none => st)

/-- A page overlaps the range of a request (R327). -/
def rangeCovers (v : Word) (page size : Nat) : Bool :=
  let n := 2 ^ bits v.toNat 0 6 * 65536
  let a := bits v.toNat 16 48 * 65536 / n * n
  bit v.toNat 7 || (decide (a < page + size) && decide (page < a + n))

/-- A handle is covered by a request of a stage (R328). -/
def covered (stage2 : Bool) (v : Word) (h : Handle) : Bool :=
  rangeCovers v (if stage2 then h.gpage.toNat else h.vpage.toNat) (pageSize h)

/-- The translation of an xlt.map in flight is covered by a request: of its handle, or while its walk is not made of the handle that
the tables would give now (R166). -/
def mapCovered (st : State) (t : TCtx) (stage2 : Bool) (v : Word) (f : Flight) : Bool :=
  match f.tgt with
  | .handle _ =>
    if f.wait = .walk then
      (match translate st t false f.aux.toNat with
       | .ok (_, h) => covered stage2 v h
       | .error _ => !stage2 && rangeCovers v f.aux.toNat 1)
    else f.wait == .none && covered stage2 v f.h
  | _ => false

/-- The handles of a context are cleared, those still in flight land with V = 0, and its fetch lines go (R166, R328). -/
def clearHandles (st : State) (t : TCtx) (stage2 : Bool) (v : Word) (c : Ctx) : Ctx :=
  let hits := (c.flights.filter (mapCovered st t stage2 v)).map (·.id)
  let upd (f : Flight) : Flight :=
    if f.id ≠ 0 ∧ hits.contains f.id then
      (match f.tgt with
       | .handle _ => { f with ext := 1 }
       | _ => if f.wait = .walk then { f with ext := 1 } else { f with val := unsummed f.val })
    else f
  { c with
    ph := c.ph.map fun e => (e.1, if covered stage2 v e.2 then { e.2 with v := false } else e.2)
    flights := c.flights.map upd
    ilines := c.ilines.filter fun l => !(stage2 || rangeCovers v l.va.toNat 64) }

/-- An access of the user context goes through a covered handle (R328). -/
def orgCovered (stage2 : Bool) (v : Word) (o : Origin) : Bool :=
  !o.fw && o.psize != 0 && rangeCovers v (if stage2 then o.gpage.toNat else o.vpage.toNat) o.psize

/-- An access of a cell through a covered handle is still to be performed at its home (R328). -/
def accessPending (st : State) (n : Nat) (stage2 : Bool) (v : Word) : Bool :=
  let x := getCell st n
  let hit := orgCovered stage2 v
  let cmd (k : CeCmd) : Bool :=
    !k.org.fw && ((!ceSsp k && covered stage2 v k.sh) || (!ceDsp k && covered stage2 v k.dh))
  (x.loadq.any fun e => match e with
    | .load _ _ _ _ _ _ _ o => hit o
    | .acq .. => false) ||
  (x.storeb.any fun e => match e with
    | .store _ _ _ _ _ _ _ _ o => hit o
    | .mark _ => false) ||
  (match x.soq with | some q => hit q.org | none => false) ||
  (x.engq.any fun e => match e with
    | .atomic _ _ _ _ _ _ _ _ _ _ _ o => hit o
    | .ce _ k => cmd k) ||
  (match x.ce with | some r => cmd r.cmd | none => false) ||
  (x.l1.any fun l => l.2.words.any fun w => w.2.orgs.any hit) ||
  (st.chan.any fun m => m.cell == n && (hit m.org || (match m.op with
    | .wb _ _ ws => ws.any fun w => w.2.orgs.any hit
    | _ => false)))

/-- An entry of a walk cache is covered by a request. A stage-1 leaf was read through stage 2, so that a request for stage 2 covers
it too (R328). -/
def walkCovered (k : Nat) (stage2 : Bool) (v : Word) (e : WalkEnt) : Bool :=
  let z := leafSize e.leaf.lvl
  e.key == k && (if e.stage2 == stage2 then rangeCovers v (e.addr / z * z) z else stage2)

/-- The walk caches of every die drop what a request covers (R328). -/
def dropWalks (st : State) (k : Nat) (stage2 : Bool) (v : Word) : State :=
  { st with dies := st.dies.map fun d => (d.1, { d.2 with walks := d.2.walks.filter fun e => !walkCovered k stage2 v e }) }

/-- The cells whose tasks translate under the context of a partition (R318, R328). -/
def cellsUnder (st : State) (k : Nat) : List Nat :=
  (listed st).filter fun n => (getCell st n).task.isSome && tctxKey st (seqOwner (getCell st n)) == some k

/-- A cell holds a walk that began before the oldest request of a stage was accepted (R328). -/
def walkOpen (t : TCtx) (stage2 : Bool) (x : Cell) : Bool :=
  match x.user.walk with
  | some w => if stage2 then decide (t.reqs2.length ≤ (t.iseq2 - w.iseq2).toNat) else decide (t.reqs1.length ≤ (t.iseq1 - w.iseq1).toNat)
  | none => false

/-- The oldest request of a stage acts and, once every access through its handles is performed, completes (R328). -/
def invComplete (st : State) (k : Nat) (stage2 : Bool) : State :=
  let t := smGet TCtx.reset st.tctx k
  match (if stage2 then t.reqs2 else t.reqs1) with
  | [] => st
  | v :: rest =>
    let ns := cellsUnder st k
    let st := dropWalks st k stage2 v
    let st := ns.foldl (fun st n => modCell st n fun x => { x with user := clearHandles st t stage2 v x.user }) st
    if ns.any fun n => accessPending st n stage2 v || walkOpen t stage2 (getCell st n) then st
    else modTctx st k fun t =>
      if stage2 then { t with reqs2 := rest, done2 := t.done2 + 1 } else { t with reqs1 := rest, done1 := t.done1 + 1 }

/-- INVALIDATION_COMPLETE (R328): An invalidation request completes once caches, walks, handles and accesses are done,
and DONE takes its number. -/
def execInvalidationComplete (f : Nat) (stage2 : Bool) (st : State) : Host.Outcome State Fault Refusal :=
  .next (match ctxOfFunc st f with
    | some (k, _) => invComplete st k stage2
    | none => st)

end Sys2Proof.Machine
end

