-- ==== Sys2Proof/Machine/Dict.lean ====
section
/-!
DEFINITION. Large values and their bytes, the CRC-32 and the dictionary image of R62 and R63, and the reads and writes that a
command processor makes under a region's translation (R407).
-/

namespace Sys2Proof.Machine

/-! ### Large values -/

/-- The 2^d bytes of a value, lowest first. -/
def byteList : Nat → Nat → List Nat
  | 0, v => [v % 256]
  | d + 1, v => byteList d (v % 2 ^ (8 * 2 ^ d)) ++ byteList d (v >>> (8 * 2 ^ d))

/-- Least d with n ≤ 2^d. -/
def log2up (n : Nat) : Nat := if n ≤ 1 then 0 else Nat.log2 (n - 1) + 1

/-- The low n bytes of a value. -/
def bytesOf (n v : Nat) : List Nat := (byteList (log2up n) v).take n

/-- The nonzero bytes of a value, each with its place, as bytes listed from address a. -/
def sparseBytes : Nat → Nat → Nat → Bytes
  | 0, a, v => if v % 256 = 0 then [] else [(a, BitVec.ofNat 8 v)]
  | d + 1, a, v =>
    if v = 0 then [] else sparseBytes d a (v % 2 ^ (8 * 2 ^ d)) ++ sparseBytes d (a + 2 ^ d) (v >>> (8 * 2 ^ d))

/-- The value of n bytes from address a. -/
def sparseNat (m : Bytes) (a n : Nat) : Nat :=
  m.foldl (fun v c => if a ≤ c.1 ∧ c.1 < a + n then v + c.2.toNat <<< (8 * (c.1 - a)) else v) 0

/-- The bytes of a range replaced by the 2^d bytes of a value. -/
def sparsePut (m : Bytes) (a d v : Nat) : Bytes :=
  (m.filter fun c => decide (c.1 < a)) ++ sparseBytes d a (v % 2 ^ (8 * 2 ^ d)) ++
    m.filter fun c => decide (a + 2 ^ d ≤ c.1)

/-- 2^d lines at their natural homes, from a line number. -/
def homeLines (s : State) : Nat → Nat → Nat
  | 0, l => homeLine s 0 l
  | d + 1, l => homeLines s d l + homeLines s d (l + 2 ^ d) <<< (1024 * 2 ^ d)

/-- Write the low n bytes of a value at their homes from a line number on, within 2^d lines. -/
def homePutLines (s : State) : Nat → Nat → Nat → Nat → State
  | 0, l, n, v => if n = 0 then s else homeWriteLine (codecBring s 0 l) 0 l (2 ^ min n 128 - 1) v
  | d + 1, l, n, v =>
    if n = 0 then s else
    homePutLines (homePutLines s d l (min n (128 * 2 ^ d)) (v % 2 ^ (1024 * 2 ^ d))) d (l + 2 ^ d) (n - 128 * 2 ^ d)
      (v >>> (1024 * 2 ^ d))

/-- n bytes at their homes from a physical address aligned to 16 bytes. -/
def homeBig (s : State) (pa n : Nat) : Nat :=
  bits (homeLines s (log2up (n / 128 + 2)) (pa / 128)) (8 * (pa % 128)) (8 * n)

/-- Write n bytes from a physical address aligned to 128 bytes. -/
def homePutBig (s : State) (pa n v : Nat) : State := homePutLines s (log2up (n / 128 + 1)) (pa / 128) n v

/-! ### CRC-32 -/

/-- n steps of the reflected IEEE 802.3 polynomial (R62). -/
def crcBits : Nat → Nat → Nat
  | 0, c => c
  | n + 1, c => crcBits n (crcBit c)

/-- CRC-32 of a list of bytes: initial value and final XOR 0xFFFF_FFFF (R62). -/
def crc32 (bs : List Nat) : Nat := bs.foldl (fun c b => crcBits 8 (c ^^^ b)) 0xFFFFFFFF ^^^ 0xFFFFFFFF

/-! ### The dictionary image -/

/-- The halfwords of a list of bytes. -/
def halfwords : List Nat → List Nat
  | a :: b :: l => (a + 256 * b) :: halfwords l
  | _ => []

/-- The words that a template names, low half first (R55). -/
def entryWords (pres : Nat) : List Nat → List Nat → Nat → Option (Nat × List Nat)
  | [], hs, acc => some (acc, hs)
  | k :: ks, hs, acc =>
    if bit pres k then
      match hs with
      | lo :: hi :: hs => entryWords pres ks hs (acc + (lo + hi * 2 ^ 16) * 2 ^ (32 * k))
      | _ => none
    else entryWords pres ks hs acc

/-- COUNT literals of an entry stream, and what is left of it: STOP on the last one only (R62, R63). -/
def entryStream : Nat → List Nat → Option (List Bundle × List Nat)
  | 0, hs => some ([], hs)
  | n + 1, hs =>
    match hs with
    | [] => none
    | v :: hs =>
      if bits v 12 3 ≠ 0 ∨ bit v 15 ≠ decide (n = 0) then none
      else
        match entryWords v (List.range 12) hs 0 with
        | none => none
        | some (b, hs) => (entryStream n hs).map fun r => (BitVec.ofNat 384 b :: r.1, r.2)

/-- Bytes of the entry stream as an image header gives them, when the header passes R63. -/
def imageLen (hdr : Nat) : Option Nat :=
  if bits hdr 0 16 = 1 ∧ bits hdr 48 16 = 0 ∧ bits hdr 16 16 + bits hdr 32 16 ≤ 2048 ∧ bits hdr 64 32 ≤ 102400 ∧
      bits hdr 64 32 % 2 = 0 ∧ 0 < bits hdr 32 16 then some (bits hdr 64 32)
  else none

/-- The entries of an accepted image, from its header and its entry stream (R63). -/
def imageEntries (hdr stream : Nat) : Option (SMap Bundle) :=
  match imageLen hdr with
  | none => none
  | some n =>
    let bs := bytesOf n stream
    if crc32 bs ≠ bits hdr 96 32 then none
    else
      match entryStream (bits hdr 32 16) (halfwords bs) with
      | some (es, []) => some ((List.range es.length).map fun i => (bits hdr 16 16 + i, es.getD i 0))
      | _ => none

/-- The image at a physical address (R217). -/
def imageAt (s : State) (pa : Nat) : Option (SMap Bundle) :=
  let hdr := homeBig s pa 16
  match imageLen hdr with
  | some n => imageEntries hdr (homeBig s (pa + 16) n)
  | none => none

/-- A dictionary with entries replaced (R63). -/
def loadEntries (d es : SMap Bundle) : SMap Bundle := es.foldl (fun d e => smSet 0 d e.1 e.2) d

/-! ### Access by a command processor -/

/-- One access of at most 16 bytes within one line (R407): its handle, where the access is allowed. -/
def cpHandle (s : State) (t : TCtx) (va : Nat) (wr : Bool) : Option (State × Handle × Nat) :=
  match translate s t false va with
  | .ok (s, h) =>
    let pa := h.ppage.toNat + va % pageSize h
    if !(if wr then h.pw else h.pr) then none
    else if h.host then (if refusesHost s (tctxFunc t) pa then none else some (s, h, pa))
    else some (ownTouch wr (handleSlice h) s (pa / 128), h, pa)
  | .error _ => none

/-- An access of a command processor to a host page, or through a table in host memory, waits: the device-to-host queue, which it
enters behind the messages up to number j, is performed in order (R255, R261). -/
def cpHeld (s : State) (t : TCtx) (va j : Nat) : Bool :=
  hostBehind s j && (tablesInHost s t va || (match cpHandle s t va false with
    | some (_, h, _) => h.host
    | none => false))

/-- Read k blocks of 16 bytes under a translation context (R407). -/
def cpBlocks (t : TCtx) : Nat → State → Nat → Option (State × Nat)
  | 0, s, _ => some (s, 0)
  | k + 1, s, va =>
    match cpHandle s t va false with
    | none => none
    | some (s, h, pa) =>
      let v := if h.host then readNat s.hostMem pa 16 else homeRead s (handleSlice h) pa 16
      (cpBlocks t k s (va + 16)).map fun r => (r.1, v + r.2 <<< 128)

/-- Read n bytes of virtual memory aligned to 16 bytes, or none where a page does not translate (R407). -/
def cpRead (s : State) (t : TCtx) (va n : Nat) : Option (State × Nat) :=
  (cpBlocks t ((n + 15) / 16) s va).map fun r => (r.1, r.2 % 2 ^ (8 * n))

/-- Read an aligned 64-bit word of virtual memory (R407). -/
def cpRead64 (s : State) (t : TCtx) (va : Nat) : Option (State × Nat) :=
  match cpHandle s t va false with
  | none => none
  | some (s, h, pa) => some (s, if h.host then readNat s.hostMem pa 8 else homeRead s (handleSlice h) pa 8)

/-- Write an aligned 64-bit word of virtual memory; without a translation nothing is written (R407). -/
def cpWrite64 (s : State) (t : TCtx) (va v : Nat) : State :=
  match cpHandle s t va true with
  | none => s
  | some (s, h, pa) =>
    if h.host then { s with hostMem := writeNat s.hostMem pa 8 v } else homeWrite s (handleSlice h) pa 8 v

/-- A DICT image at a virtual address (R62, R230, R407); outer none: it is refused. -/
def imageAtVirtual (s : State) (t : TCtx) (va : Nat) : Option (State × SMap Bundle) :=
  match cpRead s t va 16 with
  | none => none
  | some (s, hdr) =>
    match imageLen hdr with
    | none => none
    | some n =>
      match cpRead s t (va + 16) n with
      | none => none
      | some (s, v) => (imageEntries hdr v).map fun es => (s, es)

end Sys2Proof.Machine
end

