-- ==== Sys2Proof/Machine/Image.lean ====
section
/-!
DEFINITION. Context images: the segments of R350 as values, read from a cell and put into it, snapshot and arrival slots
(R79, R403), the image header (R351), quiescence (R348) and the repair class (R353).
-/

namespace Sys2Proof.Machine

/-! ### Packing -/

/-- Fields of given lengths in bytes, first field lowest (R350). -/
def packBytes : List (Nat × Nat) → Nat
  | [] => 0
  | (n, v) :: l => v % 2 ^ (8 * n) + packBytes l <<< (8 * n)

/-- The field of n bytes at a byte offset. -/
def field (v off n : Nat) : Nat := bits v (8 * off) (8 * n)

/-- n values of w bytes each, value k given by f. -/
def packList (w n : Nat) (f : Nat → Nat) : Nat := packBytes ((List.range n).map fun k => (w, f k))

/-- The map that lists the nonzero values among n of w bits, numbered from lo. -/
def unpackMap (w n lo v : Nat) : SMap (BitVec w) :=
  (List.range n).filterMap fun k => let x := BitVec.ofNat w (v >>> (w * k)); if x = 0 then none else some (lo + k, x)

/-- A map with the numbers lo to lo+n−1 replaced. -/
def putRange {α : Type} (m : SMap α) (lo n : Nat) (r : SMap α) : SMap α :=
  (m.filter fun e => decide (e.1 < lo)) ++ r ++ m.filter fun e => decide (lo + n ≤ e.1)

/-! ### Repair classes -/

/-- What a cell offers: scalar registers, registers of each vector file, tiles and accumulator tiles (R353). -/
def offers (x : Cell) : Nat × Nat × Nat × Nat :=
  let l := x.lver.toNat
  (64, 160 - 8 * bits l 0 3, 16 - bits l 7 1, 8 - bits l 6 1)

/-- A use in the layout of descriptor bits [447:400] fits a cell (R230, R353, R355). -/
def useFits (x : Cell) (use : Nat) : Bool :=
  let o := offers x
  decide (bits use 41 7 ≤ o.1) && decide (bits use 33 8 ≤ o.2.1) && decide (bits use 25 8 ≤ o.2.1) &&
    decide (bits use 17 8 ≤ o.2.1) && decide (bits use 9 8 ≤ o.2.1) && decide (bits use 4 5 ≤ o.2.2.1) &&
    decide (bits use 0 4 ≤ o.2.2.2)

/-- The use fields of an image header, in the layout of a descriptor (R351). -/
def headerUse (hdr : Nat) : Nat :=
  bits hdr 300 4 + bits hdr 295 5 * 2 ^ 4 + bits hdr 287 8 * 2 ^ 9 + bits hdr 279 8 * 2 ^ 17 + bits hdr 271 8 * 2 ^ 25 +
    bits hdr 263 8 * 2 ^ 33 + bits hdr 256 7 * 2 ^ 41

/-- A use in the layout of the header, shifted to bit 256 (R351). -/
def useHeader (use : Nat) : Nat :=
  (bits use 41 7 + bits use 33 8 * 2 ^ 7 + bits use 25 8 * 2 ^ 15 + bits use 17 8 * 2 ^ 23 + bits use 9 8 * 2 ^ 31 +
    bits use 4 5 * 2 ^ 39 + bits use 0 4 * 2 ^ 44) * 2 ^ 256

/-- The largest use (R351). -/
def maxUse : Nat := 8 + 16 * 2 ^ 4 + 160 * 2 ^ 9 + 160 * 2 ^ 17 + 160 * 2 ^ 25 + 160 * 2 ^ 33 + 64 * 2 ^ 41

/-- Length of a segment in bytes (R350). -/
def segLen (s : Nat) : Nat :=
  if s = 0 then 16384 else if s = 1 then 640 else if s < 6 then 20480 else if s = 6 then 131328 else if s < 15 then 24896
  else if s = 15 then 55424 else if s = 16 then 2816 else if s = 17 then 128 else if s = 18 then 1024 else if s = 19 then 64
  else if s < 24 then 262144 else if s = 24 then 832 else if s = 25 then 98304 else if s = 26 then 131072
  else if s = 27 then 74304 else 0

/-- The segments that a mask names, in ascending order. -/
def namedSegs (segs : Nat) : List Nat := (List.range 28).filter (bit segs)

/-- Length of an image (R350). -/
def imageBytes (segs : Nat) : Nat := (namedSegs segs).foldl (fun n s => n + segLen s) 256

/-! ### DV, handles and accumulators -/

/-- DV in 64 bytes (R94; the places are the model's, log 30). -/
def dvPack (d : DivState) : Nat :=
  d.divd.toNat + d.quo.toNat * 2 ^ 64 + d.rem.toNat * 2 ^ 128 +
    (d.bits.toNat + b2n d.nq * 2 ^ 7 + b2n d.nr * 2 ^ 8 + b2n d.dz * 2 ^ 9) * 2 ^ 256
@[inherit_doc dvPack] def dvUnpack (v : Nat) : DivState :=
  ⟨BitVec.ofNat 64 v, BitVec.ofNat 64 (v >>> 64), BitVec.ofNat 65 (v >>> 128), BitVec.ofNat 7 (v >>> 256), bit v 263,
    bit v 264, bit v 265⟩

/-- A handle record of 64 bytes (R350). -/
def handlePack (h : Handle) : Nat :=
  packBytes [(8, (summary h 0).toNat), (8, h.ppage.toNat), (8, h.vpage.toNat), (8, h.gpage.toNat), (8, h.leaf1.toNat),
    (8, h.leaf2.toNat), (4, h.iseq1.toNat), (4, h.iseq2.toNat)]

/-- The level of the stage-1 leaf at an address, and whether it lies in host memory, as a walk of its page finds them now; a record
does not carry them (R324, R350, log 91). -/
def leafNow (s : State) (t : TCtx) (vpage leaf : Nat) : Nat × Bool :=
  match (if leaf = 0 then .error ⟨false, false, 0, 0, 0, none⟩ else stage1Walk s t vpage) with
  | .ok l => if l.addr = leaf then (l.lvl, l.inHost) else (0, false)
  | .error _ => (0, false)

/-- The handle of a record; the host marking is that of its stage-2 leaf (R330). -/
def handleUnpack (s : State) (t : TCtx) (v : Nat) : Handle :=
  let l2 := field v 40 8
  let l1 := leafNow s t (field v 16 8) (field v 32 8)
  { v := bit v 63, sz := BitVec.ofNat 2 (bits v 60 2), kind := BitVec.ofNat 2 (bits v 58 2), pr := bit v 57, pw := bit v 56
    sysat := bit v 55, cdc := bit v 54, creg := BitVec.ofNat 6 (bits v 48 6), slaen := bit v 47
    sla := BitVec.ofNat 4 (bits v 43 4), ppage := BitVec.ofNat 64 (field v 8 8), vpage := BitVec.ofNat 64 (field v 16 8)
    gpage := BitVec.ofNat 64 (field v 24 8), leaf1 := BitVec.ofNat 64 (field v 32 8), leaf2 := BitVec.ofNat 64 l2
    iseq1 := BitVec.ofNat 32 (field v 48 4), iseq2 := BitVec.ofNat 32 (field v 52 4)
    host := decide (l2 ≠ 0) && bit (homeReadN s l2 8) 15
    lvl1 := BitVec.ofNat 3 l1.1, lvl2 := 0, lhost := l1.2, x1 := false, x2 := false }

/-- A row from a row record and its mantissas (R28). -/
def rowUnpack (v m : Nat) : AccRow :=
  ⟨BitVec.ofNat 3072 m, BitVec.ofNat 16 (bits v 8 16), BitVec.ofNat 6 (bits v 2 6), bit v 1, bit v 0⟩

/-! ### Snapshot slots -/

/-- A snapshot slot with what it stands for: the writes in flight and the bank accesses (R79, R403). -/
structure Snap where
  img : Nat
  fs : List Flight
  bs : List BankOp
  deriving DecidableEq, Repr

/-- A slot of 192 bytes (R403). -/
def slotPack (val space code cnt aux ext : Nat) (again : Bool) : Nat :=
  val % 2 ^ 1024 + (code % 1024 + space * 2 ^ 10 + b2n again * 2 ^ 16) * 2 ^ 1024 + cnt * 2 ^ 1088 + 2 ^ 1152 +
    aux % 2 ^ 64 * 2 ^ 1216 + ext % 2 ^ 256 * 2 ^ 1280

/-- The bytes a read that is due in the next cycle would return (log 31). -/
def readAhead (x : Cell) (o : BankOp) : Nat :=
  let v := spRead x o.off o.len
  match o.act with
  | .load _ sg => if sg then (sext64 (8 * o.len) v).toNat else v
  | .amoRead _ vec aop _ _ => if vec then v else (aopOld aop.toNat v).toNat
  | _ => v

/-- The read that is to fill a write in flight. -/
def readFor (c : Ctx) (id : Nat) : Option BankOp :=
  c.bankOps.find? fun o => match o.act with
    | .load i _ => i == id
    | .amoRead i _ _ _ _ => i == id
    | _ => false

/-- AUX of a slot of SPACE 5 whose bank read is still to be made: bit 63, the offset and the length. R403 gives it nothing there, and
the read can still meet a conflict after a restore (R361, log 31). -/
def readAux (o : BankOp) : Nat := 2 ^ 63 + o.len * 2 ^ 24 + o.off % 2 ^ 21

/-- The slot of a write in flight; xlt.r has none beside its handle (R403). AUX of a move holds its slot word index, which COLA is to
name (R77, R361, log 31). -/
def flightSnap (x : Cell) (c : Ctx) (f : Flight) : Option Snap :=
  let isMap (g : Flight) : Bool := match g.tgt with | .handle _ => g.id == f.id | _ => false
  match f.tgt with
  | .handle h =>
    let p := c.flights.filter fun g => g.id == f.id && g.tgt == .slat .xltr
    let rcd := handlePack { f.h with v := f.h.v && f.ext == 0 }
    let sum := match p with | g :: _ => g.val.toNat % 2 ^ 64 | [] => 0
    some ⟨slotPack (rcd + sum * 2 ^ 512) 6 (0x10 + h) f.cnt f.aux.toNat 0 (f.wait == .walk), f :: p, []⟩
  | .divide => some ⟨slotPack (f.val.toNat % 2 ^ 64 + dvPack f.dv * 2 ^ 512) 6 0 f.cnt 0 0 false, [f], []⟩
  | .counts => some ⟨slotPack f.val.toNat 6 1 f.cnt 0 0 false, [f], []⟩
  | _ =>
    if f.id ≠ 0 ∧ f.tgt = .slat .xltr ∧ c.flights.any isMap then none else
    let r := if f.id = 0 ∨ f.wait ≠ .none then none else readFor c f.id
    let v := match r with
      | some o => if f.aux = 0 then readAhead x o else f.val.toNat
      | none => if f.wait = .none then f.val.toNat else 0
    let own := match r with
      | some o => (match o.act with | .load .. => [o] | _ => [])
      | none => []
    let (sp, code) := tgtCode f
    let aux := match own with | o :: _ => readAux o | [] => if f.slot < 15 then f.slot else 0
    some ⟨slotPack v sp code f.cnt aux 0 false, [f], own⟩

/-- The slot of a bank write still to come: AUX holds the offset. That of a lsu.cpy has 64 bytes to write at most, and its last value
word carries their number, the source element size, and the read that is still to be made (log 31). An atomic that has met a conflict
holds its bank still, and its slot carries the bytes that stand there (R248, R403, log 31). -/
def bankSnap (x : Cell) (n : Nat) (c : Ctx) (o : BankOp) : Option Snap :=
  let g := c.bankOps.filter fun p => p.grp == o.grp
  let aux := o.off
  match o.act with
  | .store =>
    let code := if o.ext ≠ 0 then o.ext.toNat else
      match o.len with | 1 => 0x48 | 2 => 0x49 | 4 => 0x4A | 8 => 0x4B | _ => 0x210
    some ⟨slotPack o.val.toNat 2 code o.cnt aux 0 false, [], [o]⟩
  | .amoWrite =>
    let v := if o.dead then spRead x o.off o.len else
      match g.find? (fun p => p.ext == 0 && (match p.act with | .amoRead .. => true | _ => false)) with
      | some p =>
        (match p.act with
         | .amoRead _ _ aop a k => aopVec aop.toNat (p.len / aopSize (bits aop.toNat 0 4)) (spRead x p.off p.len) a.toNat k.toNat
         | _ => 0)
      | none => o.val.toNat
    some ⟨slotPack v 2 (if o.len = 32 then 0x212 else 0x60) o.cnt aux 0 false, [], g⟩
  | .cpyWrite ss =>
    let due := g.find? fun p => match p.act with | .cpyRead .. => true | _ => false
    let more := (o.len * 2 ^ 24 + ss * 2 ^ 60 +
      (match due with | some p => 2 ^ 63 + p.len * 2 ^ 53 + p.off * 2 ^ 32 | none => 0)) * 2 ^ 960
    match due.filter fun p => p.ext == 0 with
    | some p =>
      (match p.act with
       | .cpyRead sf df dst cnt =>
         let (r, nan, inf) := copyConvert sf df cnt (spRead x p.off p.len)
         let conv := decide (sf ≠ 0 ∧ df ≠ 0 ∧ sf ≠ df)
         let rcd := if conv then excRecord p.off (copyCause df) 8 2 n else 0
         some ⟨slotPack (r % 2 ^ (8 * o.len) + more) 2 0x62 o.cnt dst (nan + inf * 2 ^ 64 + rcd * 2 ^ 128) false,
           [], g⟩
       | _ => none)
    | none => some ⟨slotPack (o.val.toNat + more) 2 0x62 o.cnt aux o.ext.toNat false, [], g⟩
  | _ => none

/-- The snapshot slots of a context (R79, R404). -/
def snaps (x : Cell) (n : Nat) (c : Ctx) : List Snap := c.flights.filterMap (flightSnap x c) ++ c.bankOps.filterMap (bankSnap x n c)

/-- The window of an atomic whose write comes in cnt cycles; the read of a window of three is made again, with its bytes known
(R155, R361). -/
def windowOps (id off len cnt : Nat) (v : Vec) : List BankOp :=
  let hold (k : Nat) : BankOp :=
    { cnt := k, code := 2, act := if k + 2 = cnt then .amoRead id false 0 0 0 else .amoHold, off := off, len := len, ext := 1, grp := id }
  ((List.range cnt).filter (0 < ·)).map hold ++
    [{ cnt := cnt, code := 2, act := .amoWrite, off := off, len := len, val := v, grp := id }]

/-- The bytes to write and the source element size of a lsu.cpy whose slot does not say them: its record names the source element, and
the formats are those of the banks as they stand (R24, R149, R403, log 31). -/
def cpyLen (c : Ctx) (off rcd : Nat) : Nat × Nat :=
  if rcd = 0 then (64, 1) else
  let (bs, bd, n) := copyPlan (bankFmt c (bits rcd 64 21)) (bankFmt c off)
  (n * bd, bs)

/-- The bank accesses of a slot of SPACE 2; wid is the width of a lsu.amo (R153, R403, log 31). -/
def bankUnpack (c : Ctx) (wid id code aux cnt : Nat) (v : Vec) (ext : BitVec 256) : List BankOp :=
  let off := bits aux 0 21
  if code = 0x60 then windowOps id off wid cnt v
  else if code = 0x212 then windowOps id off 32 cnt v
  else if code = 0x62 then
    let m := bits v.toNat 960 64
    let (len, ss) := if m = 0 then cpyLen c off (bits ext.toNat 128 128) else (bits m 24 7, bits m 60 3)
    let read : BankOp :=
      { cnt := max 1 (cnt - 2), code := 0, act := .cpyRead 0 0 off 0, off := bits m 32 21, len := bits m 53 7, ext := 1, grp := id }
    let write : BankOp :=
      { cnt := cnt, code := 1, act := .cpyWrite ss, off := off, len := len, val := BitVec.ofNat 1024 (bits v.toNat 0 (8 * len)),
        ext := ext, grp := id }
    if bit m 63 then [read, write] else [write]
  else
    let n := match code with | 0x48 => 1 | 0x49 => 2 | 0x4A => 4 | 0x4B => 8 | _ => 128
    [{ cnt := cnt, code := 1, act := .store, off := off, len := n, val := v, ext := if 0x240 ≤ code then BitVec.ofNat 256 code else 0 }]

/-- The target of a slot that is neither a memory port nor unit state (R403). -/
def slotTarget (space code : Nat) : Target :=
  match space with
  | 0 => if code < 0x40 then .xreg code else if code < 0x48 then .slat (dstLatch code) else .creg code
  | 1 => if code < 640 then .vreg code else .vlat (dstVLatch code)
  | 3 => .pred code false
  | 4 => .creg code
  | _ => if code < 0x50 then .slat (srcLatch code) else .vlat (srcVLatch code)

/-- What a slot of an image stands for; id numbers it (R79, R361, R403). DESIGN CHOICE (log 86): a slot of SPACE 6, CODE 0x001 with
clear masks and LANE 0xFF is the record of a poisoned drain. A bank read that is still to be made gives the value of the slot unless
it meets a conflict (R302, log 31). wid is the width of a lsu.amo. -/
def slotUnpack (s : State) (t : TCtx) (c : Ctx) (wid id img : Nat) : Snap :=
  if !bit img 1152 then ⟨0, [], []⟩ else
  let tw := bits img 1024 64
  let space := bits tw 10 3
  let code := bits tw 0 10
  let again := bit tw 16
  let cnt := max 1 (bits img 1088 64)
  let aux := bits img 1216 64
  let ext : BitVec 256 := BitVec.ofNat 256 (img >>> 1280)
  let v : Vec := BitVec.ofNat 1024 img
  let f : Flight := { tgt := .counts, val := v, cnt := cnt, slot := 15 }
  if space = 2 then ⟨img, [], bankUnpack c wid id code aux cnt v ext⟩
  else if space = 6 then
    if code = 0 then ⟨img, [{ f with tgt := .divide, val := (v.truncate 64).zeroExtend 1024, dv := dvUnpack (v.toNat >>> 512) }], []⟩
    else if code = 1 then
      let lone := decide (bits img 0 256 = 0) && bits img 296 8 == 0xFF
      ⟨img, [{ f with aux := if lone then 1 else 0 }], []⟩
    else
      let w : Wait := if again then .walk else .none
      let g : Flight := { f with wait := w, id := id, aux := BitVec.ofNat 64 aux }
      ⟨img, [{ g with tgt := .handle (code - 0x10), val := 0, h := handleUnpack s t (bits img 0 512) },
        { g with tgt := .slat .xltr, val := BitVec.ofNat 1024 (bits img 512 64) }], []⟩
  else if space = 7 then ⟨img, [], []⟩
  else if space = 5 ∧ bit aux 63 then
    ⟨img, [{ f with tgt := slotTarget space code, id := id, aux := 1 }],
      [{ cnt := 1, code := 0, act := .load id false, off := bits aux 0 21, len := bits aux 24 8, ext := 1 }]⟩
  else ⟨img, [{ f with tgt := slotTarget space code, slot := if aux % 16 = 0 then 15 else aux % 16,
                       aux := if space = 0 then BitVec.ofNat 64 code else 0 }], []⟩

/-- A restored result of a scratchpad atomic: the window whose write comes two cycles earlier is its own, so that a
conflict still returns zero (R152, R155, R248). -/
def tieWindow (bs : List BankOp) (f : Flight) : Flight :=
  if f.id = 0 ∧ (f.tgt = .slat .lsur ∨ f.tgt = .vlat .lsuvr) then
    match bs.find? (fun o => o.act == .amoWrite && o.cnt + 2 == f.cnt) with
    | some o => { f with id := o.grp, aux := 1 }
    | none => f
  else f

/-- The bank write of an atomic or a copy that a slot stands for. -/
def snapWindow (k : Snap) : Option BankOp := k.bs.find? fun o => match o.act with
  | .amoWrite => true
  | .cpyWrite _ => true
  | _ => false

/-- Replace the snapshot slots of a context: a slot that is unchanged keeps what it stands for, unless the bank access that was to
fill it has gone; a slot that is written lands what is written (R302, R361). A bank write that replaces another keeps the width and
the result of its operation; the width of any other lsu.amo is that of lsu.aop (log 31). -/
def putSnaps (s : State) (n : Nat) (c : Ctx) (v : Nat) : State :=
  let was := (getCell s n).user
  let old := snaps (getCell s n) n was
  let t := fetchCtx s n false
  let img (j : Nat) : Nat := bits v (1536 * j) 1536
  let kept (j : Nat) : Option Snap := old[j]?.filter fun k => k.img == img j
  let live := ((List.range 64).filterMap kept).map (·.bs) |>.flatten
  let lost (f : Flight) : Bool := match (if f.id = 0 then none else readFor was f.id) with
    | some o => !live.contains o
    | none => false
  let one (j : Nat) : Snap := match (kept j).filter fun k => !k.fs.any lost with
    | some k => k
    | none =>
      let o := if bits (img j) 1034 3 = 2 then old[j]?.bind snapWindow else none
      slotUnpack s t c (match o with | some o => o.len | none => aopSize (bits (sGet c .lsuaop).toNat 0 3))
        (match o with | some o => o.grp | none => s.seq + 1 + j) (img j)
  let new := (List.range 64).map one
  let bs := (new.map (·.bs)).flatten
  let s := { s with seq := s.seq + 65 }
  modCtx s n false fun c => { c with flights := (new.map (·.fs)).flatten.map (tieWindow bs), bankOps := bs }

/-! ### Segments of a cell -/

/-- A gang-stream entry of 72 bytes (R350). -/
def gangPack (e : GangEntry) : Nat := e.bundle.toNat + e.addr.toNat * 2 ^ 384 + e.out.toNat * 2 ^ 448
@[inherit_doc gangPack] def gangUnpack (v : Nat) : GangEntry :=
  ⟨BitVec.ofNat 384 v, BitVec.ofNat 64 (v >>> 384), BitVec.ofNat 128 (v >>> 448)⟩

/-- Segment SEQ (R350). -/
def seqPack (c : Ctx) : Nat :=
  let st := c.bubbles.toNat + c.pkind.toNat * 2 ^ 4 + b2n c.lit * 2 ^ 6 + b2n c.ulit * 2 ^ 7 +
    c.gang.length % 256 * 2 ^ 8 + c.lead.toNat * 2 ^ 24
  packBytes ([(8, c.pc.toNat), (8, c.uira.toNat), (8, c.target.toNat), (8, st), (32, 0)] ++
    (c.gang.take 226).map fun e => (72, gangPack e))
@[inherit_doc seqPack] def seqUnpack (v : Nat) (c : Ctx) : Ctx :=
  let st := field v 24 8
  { c with
    pc := BitVec.ofNat 64 v, uira := BitVec.ofNat 64 (field v 8 8), target := BitVec.ofNat 64 (field v 16 8)
    bubbles := BitVec.ofNat 4 st, pkind := BitVec.ofNat 2 (bits st 4 2), lit := bit st 6, ulit := bit st 7
    lead := BitVec.ofNat 8 (bits st 24 8)
    gang := (List.range (min 226 (bits st 8 8))).map fun k => gangUnpack (field v (64 + 72 * k) 72) }

/-- Segment LATCH (R350). DESIGN CHOICE (log 78): the bits of lsu.h, lsu.aop, cmp.c, ce.len and ce.ctl (foreground and
shadow) that the spec tables as Reserved and RW stand here as they were written. -/
def latchPack (x : Cell) (n : Nat) : Nat :=
  let c := x.user
  let sl := packList 8 32 fun k => if k < 29 then (smGet 0 c.sl k).toNat else 0
  let vl := packList 128 14 fun k => (smGet 0 c.vl k).toNat
  let ss := ((snaps x n c).take 64).map fun k => (192, k.img)
  let pad := List.replicate (64 - ss.length) (192, 0)
  let rec1 (u : Slice) : Nat := packBytes [(128, u.a.toNat), (128, u.b.toNat), (16, u.av.toNat), (16, u.bv.toNat),
    (8, u.tile.toNat + u.fmt.toNat * 2 ^ 4 + u.age % 128 * 2 ^ 8), (24, 0)]
  let byAge := ((List.range 128).map fun a => x.slices.filter fun u => u.age == a).flatten
  packBytes ([(256, sl), (1792, vl), (64, dvPack c.dv), (192, c.cola.toNat), (192, c.colb.toNat)] ++ ss ++ pad ++
    (byAge.take 127).map fun u => (320, rec1 u))

/-- The bits of COLA, COLB and xlt.r that are not reserved (R5, R77, R165). -/
def colMask : BitVec 1056 := ~~~(0x3FFF#1056 <<< 1025)
@[inherit_doc colMask] def summaryMask : Word := 0xBFFFF8003FFFFFFF

/-- Put segment LATCH into a cell (R361); reserved bits of COLA, COLB and xlt.r read as 0 (R5). DESIGN CHOICE (log 94): no rule says
which of the 127 slice records are live, and a record that is not all zero is. -/
def latchPut (s : State) (n v : Nat) : State :=
  let sl := unpackMap 64 29 0 (field v 0 232)
  let vl := unpackMap 1024 14 0 (field v 256 1792)
  let sums (c : Ctx) : Ctx := sPut c .xltr (sGet c .xltr &&& summaryMask)
  let s := putSnaps s n { (getCell s n).user with sl := sl } (field v 2496 12288)
  let slice (k : Nat) : Option Slice :=
    let w := field v (14784 + 320 * k) 320
    if w = 0 then none else
    let t := field w 288 8
    some ⟨BitVec.ofNat 1024 w, BitVec.ofNat 1024 (field w 128 128), BitVec.ofNat 128 (field w 256 16),
      BitVec.ofNat 128 (field w 272 16), BitVec.ofNat 3 t, BitVec.ofNat 3 (bits t 4 3), bits t 8 7⟩
  modCell s n fun x => { x with
    slices := (List.range 127).filterMap slice
    user := sums { x.user with
      sl := putRange x.user.sl 0 29 sl, vl := putRange x.user.vl 0 14 vl, dv := dvUnpack (field v 2048 64)
      cola := BitVec.ofNat 1056 (field v 2112 192) &&& colMask, colb := BitVec.ofNat 1056 (field v 2304 192) &&& colMask } }

/-- An arrival slot (R350, R403). -/
def arrivalPack (a : Arrival) : Nat := slotPack a.val.toNat 5 (0xA5 + a.port) a.cnt 0 0 false
@[inherit_doc arrivalPack] def arrivalUnpack (v : Nat) : Option Arrival :=
  if !bit v 1152 then none
  else
    some ⟨(bits v 1024 10 - 0xA5) % 4, BitVec.ofNat 1024 v, bits v 1088 64, true, false⟩

/-- Segment LINK (R350): a deposit still to be made is made before a cell is quiescent. -/
def linkPack (x : Cell) : Nat :=
  packBytes ((512, packList 128 4 fun k => (smGet 0 x.user.vl (14 + k)).toNat) ::
    ((x.arrivals.filter fun a => a.sync && decide (a.port < 4)).take 12).map fun a => (192, arrivalPack a))
@[inherit_doc linkPack] def linkUnpack (v : Nat) (x : Cell) : Cell :=
  { x with
    arrivals := (x.arrivals.filter fun a => !a.sync) ++
      (List.range 12).filterMap fun k => arrivalUnpack (field v (512 + 192 * k) 192)
    user := { x.user with vl := putRange x.user.vl 14 4 (unpackMap 1024 4 14 (field v 0 512)) } }

/-- The L1 lines and 4-byte words that a scan would write back (R350). -/
def l1Counts (x : Cell) : Nat :=
  let d := (x.l1.map fun l => (l.2.words.filter fun w => w.2.dirty).length).filter (0 < ·)
  d.length + d.foldl (· + ·) 0 * 2 ^ 64

/-- A control register as an image carries it, reserved bits 0 (R350). -/
def cregMask (n v : Nat) : Nat :=
  if n = 0x100 ∨ n = 0x106 ∨ n = 0x107 then v
  else if n = 0x103 ∨ n = 0x104 ∨ n = 0x109 then bits v 0 1
  else if n = 0x108 then bits v 16 2 * 2 ^ 16 + bits v 0 8
  else if n = 0x10C then v
  else if 0x118 ≤ n ∧ n < 0x120 then v
  else if n = 0x10E ∨ n = 0x10F ∨ 0x140 ≤ n then 0
  else cregWrite n 0 v

/-- Segment CTL (R350). -/
def ctlPack (x : Cell) : Nat :=
  packBytes [(768, packList 8 96 fun k => (readCreg x x.user (0x100 + k)).toNat), (8, x.user.scyc.toNat),
    (8, x.user.rankx.toNat), (8, x.user.ranky.toNat), (40, 0)]
@[inherit_doc ctlPack] def ctlUnpack (v : Nat) (x : Cell) : Cell :=
  let at_ (k : Nat) : Word := BitVec.ofNat 64 (cregMask k (field v (8 * (k - 0x100)) 8))
  let own := (List.range 64).filter fun k => !(9 ≤ k && k ≤ 13)
  let c := own.foldl (fun c k => cregPut c (0x100 + k) (at_ (0x100 + k))) x.user
  { x with
    ispAct := bit (at_ 0x109).toNat 0, exlbase := at_ 0x10A, exlsize := at_ 0x10B, exlhead := at_ 0x10C, fwshare := at_ 0x10D
    user := { c with
      scyc := BitVec.ofNat 64 (field v 768 8), rankx := BitVec.ofNat 64 (bits (field v 776 8) 0 40)
      ranky := BitVec.ofNat 64 (bits (field v 784 8) 0 32) } }

/-- A tile-landing slot of 8,256 bytes (R350). -/
def tlandPack (t : TLand) : Nat :=
  1 + b2n t.split * 2 + b2n t.pack * 4 + t.tile * 2 ^ 8 + t.line * 2 ^ 16 + t.cnt * 2 ^ 64 + t.tshape.toNat * 2 ^ 128 +
    t.tdmap.toNat * 2 ^ 192 + ((if t.pack then t.val.toNat % 2 ^ 1024 + t.mask.toNat * 2 ^ 1024 else t.val.toNat)) <<< 512
@[inherit_doc tlandPack] def tlandUnpack (v : Nat) : Option TLand :=
  if !bit v 0 then none else
  let p := bit v 2
  some ⟨max 1 (field v 8 8), bits v 8 8 % 16, bit v 1, p, bits v 16 8 % 64,
    BitVec.ofNat 65536 (if p then bits v 512 1024 else v >>> 512), if p then BitVec.ofNat 128 (v >>> 1536) else 0,
    BitVec.ofNat 64 (field v 16 8), BitVec.ofNat 64 (field v 24 8), false⟩

/-- The tile-port slot: its transfer, or a load that is only to land (R146, R350). -/
def tportPack (c : Ctx) : Nat :=
  match c.tport, c.tland.filter (·.port) with
  | p :: _, _ =>
    1 + b2n p.store * 2 + p.tile * 2 ^ 8 + p.off * 2 ^ 64 + (p.moved - 1) * 2 ^ 128 +
      (if p.store then 0 else 34 - p.moved) * 2 ^ 192 + p.val.toNat <<< 512
  | [], t :: _ => 1 + t.tile * 2 ^ 8 + 32 * 2 ^ 128 + t.cnt * 2 ^ 192 + t.val.toNat <<< 512
  | [], [] => 0

/-- Segment TLAND (R350). -/
def tlandSeg (c : Ctx) : Nat :=
  let xs := (c.tland.filter fun t => !t.port || !c.tport.isEmpty).take 8
  packBytes ((xs.map fun t => (8256, tlandPack t)) ++ List.replicate (8 - xs.length) (8256, 0) ++ [(8256, tportPack c)])
@[inherit_doc tlandSeg] def tlandPut (v : Nat) (c : Ctx) : Ctx :=
  let xs := (List.range 8).filterMap fun k => tlandUnpack (field v (8256 * k) 8256)
  let p := field v 66048 8256
  let tile := bits p 8 8 % 16
  let val : Tile := BitVec.ofNat 65536 (p >>> 512)
  if !bit p 0 then { c with tland := xs, tport := [] }
  else if !bit p 1 ∧ 32 ≤ field p 16 8 then
    { c with tland := xs ++ [⟨max 1 (field p 24 8), tile, false, false, 0, val, 0, 0, 0, true⟩], tport := [] }
  else { c with tland := xs, tport := [⟨bit p 1, tile, field p 8 8, field p 16 8 + 1, val⟩] }

/-- The value of a segment of a cell (R350, R353). -/
def segVal (s : State) (n seg : Nat) : Nat :=
  let x := getCell s n
  let c := x.user
  if seg = 0 then seqPack c
  else if seg = 1 then
    packBytes [(512, packList 8 64 fun k => (smGet 0 c.x k).toNat), (64, packList 8 8 fun k => (smGet 0 c.xs k).toNat),
      (8, c.p.toNat), (56, 0)]
  else if seg < 6 then
    packList 128 160 fun k => let i := 160 * (seg - 2) + k; if mappedOut x i then 0 else (smGet 0 c.v i).toNat
  else if seg = 6 then
    packBytes [(131072, packList 8192 16 fun k => if k = 15 ∧ bit x.lver.toNat 7 then 0 else (smGet 0 c.tiles k).toNat),
      (128, packList 8 16 fun k => (creg c (0x140 + k)).toNat), (128, packList 8 16 fun k => (creg c (0x150 + k)).toNat)]
  else if seg < 15 then
    let t := seg - 7
    if t = 7 ∧ bit x.lver.toNat 6 then 0 else
    packBytes [(24576, packList 384 64 fun i => (accRow x t i).m.toNat), (256, packList 4 64 fun i => rowRecord (accRow x t i)),
      (4, (smGet 0 x.rcnt t).toNat), (4, (smGet 0 x.tcnt t).toNat), (56, 0)]
  else if seg = 15 then latchPack x n
  else if seg = 16 then linkPack x
  else if seg = 17 then packList 8 16 fun k => (creg c (0x110 + k)).toNat
  else if seg = 18 then packList 64 16 fun k => handlePack (handleOf c k)
  else if seg = 19 then l1Counts x
  else if seg < 24 then sparseNat x.spad (0x40000 * (seg - 20)) 0x40000
  else if seg = 24 then ctlPack x
  else if seg = 25 then packList 48 2048 fun k => (smGet 0 x.dict k).toNat
  else if seg = 26 then sparseNat x.isp0 0 65536 + sparseNat x.isp1 0 65536 <<< 524288
  else if seg = 27 then tlandSeg c
  else 0

/-- Put the 16 tiles with their shapes and maps; the reserved bits of TSHAPE read as 0 (R179, R350, R353). -/
def tilePut (v : Nat) (x : Cell) : Cell :=
  let k := if bit x.lver.toNat 7 then 15 else 16
  let c := { x.user with tiles := putRange x.user.tiles 0 k (unpackMap 65536 k 0 (field v 0 131072)) }
  let put (c : Ctx) (i : Nat) : Ctx :=
    cregPut (cregPut c (0x140 + i) (BitVec.ofNat 64 (cregWrite 0x140 0 (field v (131072 + 8 * i) 8)))) (0x150 + i)
      (BitVec.ofNat 64 (field v (131200 + 8 * i) 8))
  { x with user := (List.range 16).foldl put c }

/-- Put an accumulator tile (R350). -/
def accSeg (t v : Nat) (x : Cell) : Cell :=
  if t = 7 ∧ bit x.lver.toNat 6 then x else
  let x := (List.range 64).foldl (fun x i => accPut x t i (rowUnpack (field v (24576 + 4 * i) 4) (field v (384 * i) 384))) x
  { x with
    rcnt := smSet 0 x.rcnt t (BitVec.ofNat 32 (field v 24832 4))
    tcnt := smSet 0 x.tcnt t (BitVec.ofNat 32 (field v 24836 4)) }

/-- Put the value of a segment into a cell (R302, R361). -/
def segPut (s : State) (n seg v : Nat) : State :=
  let user (f : Ctx → Ctx) : State := modCtx s n false f
  if seg = 0 then user (seqUnpack v)
  else if seg = 1 then user fun c => { c with
    x := unpackMap 64 64 0 (field v 0 512), xs := unpackMap 64 8 0 (field v 512 64), p := BitVec.ofNat 64 (field v 576 8) }
  else if seg < 6 then
    let k := 160 - 8 * bits (getCell s n).lver.toNat 0 3
    let lo := 160 * (seg - 2)
    user fun c => { c with v := putRange c.v lo k (unpackMap 1024 k lo (v % 2 ^ (1024 * k))) }
  else if seg = 6 then modCell s n (tilePut v)
  else if seg < 15 then modCell s n (accSeg (seg - 7) v)
  else if seg = 15 then latchPut s n v
  else if seg = 16 then modCell s n (linkUnpack v)
  else if seg = 17 then user fun c => (List.range 16).foldl (fun c k =>
    cregPut c (0x110 + k) (BitVec.ofNat 64 (cregMask (0x110 + k) (field v (8 * k) 8)))) c
  else if seg = 18 then user fun c => (List.range 16).foldl (fun c k =>
    { c with ph := smSet Handle.invalid c.ph k (handleUnpack s (fetchCtx s n false) (field v (64 * k) 64)) }) c
  else if seg = 19 then s
  else if seg < 24 then modCell s n fun x => { x with spad := sparsePut x.spad (0x40000 * (seg - 20)) 18 v }
  else if seg = 24 then modCell s n (ctlUnpack v)
  else if seg = 25 then modCell s n fun x => { x with dict := unpackMap 384 2048 0 v }
  else if seg = 26 then modCell s n fun x => { x with
    isp0 := sparseBytes 16 0 (v % 2 ^ 524288), isp1 := sparseBytes 16 0 (v >>> 524288 % 2 ^ 524288) }
  else if seg = 27 then user (tlandPut v)
  else s

/-! ### Images -/

/-- The declared use and the descriptor address of the task on a cell (R351). -/
def taskUse (s : State) (n : Nat) : Nat × Word :=
  match (getCell s n).task with
  | some t =>
    match s.kernels.find? fun k => k.kid == t.kid with
    | some k => (bits k.desc.toNat 400 48, k.kdesc)
    | none => (maxUse, 0)
  | none => (maxUse, 0)

/-- The handles as an image carries them (R328): those that an accepted invalidation covers are cleared, and the others
hold the ISEQ pair in force. -/
def stampHandles (s : State) (t : TCtx) (c : Ctx) : Ctx :=
  let c := t.reqs2.foldl (fun c v => clearHandles s t true v c) (t.reqs1.foldl (fun c v => clearHandles s t false v c) c)
  let now (h : Handle) : Handle := { h with iseq1 := t.iseq1, iseq2 := t.iseq2 }
  { c with
    ph := c.ph.map fun e => (e.1, if e.2.v then now e.2 else e.2)
    flights := c.flights.map fun f => match f.tgt with
      | .handle _ => if f.wait = .none then { f with h := now f.h } else f
      | _ => f }

/-- The segments of an image, one after the other (R350). zap changes a segment before it is written. -/
def imageBody (s : State) (n segs : Nat) (zap : Nat → Nat → Nat) : Nat :=
  let s := modCtx s n false (stampHandles s (fetchCtx s n false))
  packBytes ((namedSegs segs).map fun k => (segLen k, zap k (segVal s n k)))

/-- The header of an image (R351). -/
def imageHeader (s : State) (n segs part body valid : Nat) : Nat :=
  let len := imageBytes segs
  let u := taskUse s n
  0x4F43 + (getCell s n).lver.toNat * 2 ^ 16 + segs * 2 ^ 32 + part * 2 ^ 64 + n * 2 ^ 80 + len * 2 ^ 96 +
    crc32 (bytesOf (len - 256) body) * 2 ^ 128 + u.2.toNat * 2 ^ 192 + useHeader u.1 + valid * 2 ^ 1984

/-- The cell is quiescent (R348). -/
def quiescent (s : State) (n : Nat) : Bool :=
  let x := getCell s n
  x.loadq.isEmpty && x.storeb.isEmpty && x.markers.isEmpty && x.soq.isNone && x.engq.isEmpty && x.ce.isNone &&
    x.ceDone.isEmpty && x.records.isEmpty && x.inbox.isEmpty && x.rets.isEmpty && !(arrivalsOf x false).any arrCome && !s.chan.any (fun m => m.cell == n) &&
    x.user.flights.all fun f => f.cnt != 0 && (match f.wait with | .load _ => false | _ => true)

/-- A scan.out has read a cell: its walks are abandoned, its deviation record is filed, D words go home when L1 is named
(R303, R348, R349). -/
def scanned (s : State) (n segs : Nat) : State :=
  let s := modCtx s n false fun c => { c with walk := none }
  let s := if bit segs 19 then flushL1 s n else s
  fileFreeze s n

/-- The cell has a writeback on its way to a home. -/
def wbOut (s : State) (n : Nat) : Bool :=
  s.chan.any fun m => m.cell == n && (match m.op with
    | .wb .. => true
    | _ => false)

/-- An image as a save writes it first, with VALID 0 (R352). zap changes a segment before it is written (R382). -/
def imageHeld (s : State) (n segs part : Nat) (zap : Nat → Nat → Nat) : Nat :=
  let body := imageBody s n segs zap
  imageHeader s n segs part body 0 + body <<< 2048

/-- The bytes of an image from one offset to another are written (R352, R360). -/
def imagePart (s : State) (base v lo hi : Nat) : State := homePutBig s (base + lo) (hi - lo) (v >>> (8 * lo))

/-- VALID of an image, written last as a release (R352, R382). -/
def imageValid (s : State) (base valid : Nat) : State := homeWriteN s (base + 248) 8 valid

/-- The bits of an image header that must be 0 (R351). -/
def headerReserved (hdr : Nat) : Bool := bits hdr 304 1680 != 0 || bits hdr 160 32 != 0 || bits hdr 90 6 != 0

/-- Offset of a segment in an image that holds the segments of a mask (R350). -/
def segOffset (segs seg : Nat) : Nat := imageBytes (segs % 2 ^ seg)

/-- The status of an image for a scan.in onto a cell, 0 when it is accepted (R355). -/
def imageStatus (s : State) (n base segs : Nat) : Nat :=
  let hdr := homeBig s base 256
  let have_ := bits hdr 32 32
  let len := bits hdr 96 32
  if bits hdr 0 16 ≠ 0x4F43 ∨ bits hdr 1984 64 ≠ 1 ∨ headerReserved hdr ∨ have_ >>> 28 ≠ 0 ∨ len ≠ imageBytes have_ ∨
      segs &&& have_ ≠ segs ∨ crc32 (bytesOf (len - 256) (homeBig s (base + 256) (len - 256))) ≠ bits hdr 128 32 then 0x13
  else if bits hdr 24 8 ≠ bits (getCell s n).lver.toNat 8 8 ∨ !useFits (getCell s n) (headerUse hdr) then 0x12
  else 0

/-- A handle is out of date (R328, R361). -/
def stale (t : TCtx) (h : Handle) : Bool := h.iseq1 != t.iseq1 || h.iseq2 != t.iseq2

/-- Handles that came from an image, in segment HND and in the snapshot slots of LATCH, are cleared when they are out of
date (R328, R361). -/
def dropStale (t : TCtx) (segs : Nat) (c : Ctx) : Ctx :=
  { c with
    ph := if bit segs 18 then c.ph.map fun e => (e.1, if stale t e.2 then { e.2 with v := false } else e.2) else c.ph
    flights := if bit segs 15 then c.flights.map fun f => match f.tgt with
        | .handle _ => if f.wait = .none && stale t f.h then { f with ext := 1 } else f
        | _ => f
      else c.flights }

/-- Restore the named segments of an image into a frozen cell, from the image alone (R361). -/
def readImage (s : State) (n base segs : Nat) : State :=
  let have_ := bits (homeBig s base 256) 32 32
  let s := if bit segs 15 then modCtx s n false fun c => { c with flights := [], bankOps := [] } else s
  let s := if bit segs 19 then modCell (flushL1 s n) n fun x => { x with l1 := [] } else s
  let s := (namedSegs segs).foldl (fun s k =>
    segPut (unmarkSeg s n k) n k (homeBig s (base + segOffset have_ k) (segLen k))) s
  let s := modCtx s n false fun c =>
    let c := if bit segs 27 then c else { c with tland := [], tport := [] }
    { c with ilines := [], walk := none, want := none }
  modCtx s n false (dropStale (fetchCtx s n false) segs)

end Sys2Proof.Machine
end

