-- ==== Sys2Proof/Machine/Scan.lean ====
section
/-!
DEFINITION. The effects of accepted sys commands (R214 to R223): checks and transfers of scans (R219, R348 to R361), freezing and
releasing (R220), ownership (R223, R357), L2 partitioning (R222, R337, R341), mig.swap (R221) and completion records (R215).
-/

namespace Sys2Proof.Machine

/-! ### Cell sets and scan blocks -/

/-- The cells of a descriptor in image order, on the issuing die; none breaks a limit of R216. -/
def cellSet (d v : Nat) : Option (List Nat) :=
  let x1 := bits v 16 4
  let y1 := bits v 12 4
  let x0 := bits v 8 4
  let y0 := bits v 4 4
  if v >>> 20 ≠ 0 ∨ bits v 0 4 ≠ d ∨ x1 < x0 ∨ y1 < y0 ∨ 7 < y1 then none
  else some (((List.range (y1 - y0 + 1)).map fun i =>
    (List.range (x1 - x0 + 1)).map fun j => 128 * d + 16 * (y0 + i) + x0 + j).flatten)

/-- Fields of a scan block (R218). -/
def blkSegs (b : Nat) : Nat := bits b 0 32
@[inherit_doc blkSegs] def blkPart (b : Nat) : Nat := bits b 48 16
@[inherit_doc blkSegs] def blkSet (b : Nat) : Nat := bits b 64 64
@[inherit_doc blkSegs] def blkBase (b : Nat) : Nat := bits b 128 64
@[inherit_doc blkSegs] def blkStride (b : Nat) : Nat := bits b 192 64
@[inherit_doc blkSegs] def blkDone (b : Nat) : Nat := bits b 256 64

/-- Address of image k of a block (R218). -/
def blkImage (b k : Nat) : Nat := blkBase b + k * blkStride b

/-- A segment mask obeys R218. -/
def segsOk (m : Nat) : Bool := m != 0 && m >>> 28 == 0

/-- The block obeys R218. -/
def blockOk (d b : Nat) : Bool :=
  bits b 320 192 == 0 && bits b 32 16 == 0 && segsOk (blkSegs b) && (cellSet d (blkSet b)).isSome &&
    blkBase b % 4096 == 0 && blkStride b % 4096 == 0 && decide (imageBytes (blkSegs b) ≤ blkStride b)

/-- The region among a partition and its ancestors whose SAVE area holds a range (R359). -/
def saveRegion (s : State) (part : BitVec 16) (a n : Nat) : Option Region :=
  (lineage s part 9).find? fun r =>
    decide (rcbField r 800 64 ≤ a) && decide (a + n ≤ rcbField r 800 64 + 4096 * rcbField r 864 32)

/-- The pinned leaf of a page still maps it (R359). -/
def pinOk (s : State) (r : Region) (page : Nat) : Bool :=
  match r.pins.find? fun p => p.1 == page with
  | none => true
  | some (_, leaf, e) =>
    let now := homeReadN s leaf 8
    bit now 0 && !bit now 1 && bits now 16 32 == bits e 16 32

/-- The first byte of an image on a page whose pin fails (R359). -/
def pinFails (s : State) (part : BitVec 16) (a n : Nat) : Option Nat :=
  match saveRegion s part a n with
  | none => none
  | some r => ((List.range (n / 65536 + 2)).map fun k => max a ((a / 65536 + k) * 65536)).find? fun b =>
      decide (b < a + n) && !pinOk s r (b / 65536 * 65536)

/-! ### Scans -/

/-- A command is a scan. -/
def isScan (c : SysCmd) : Bool := c.trig == 1 || c.trig == 2 || c.trig == 8

/-- A command is a scan that has not ended. -/
def scanLive (c : SysCmd) : Bool := isScan c && c.status.isNone

/-- The cells a scan command names. -/
def scanCells (d : Nat) (c : SysCmd) : List Nat := (cellSet d (blkSet c.blk.toNat)).getD []

/-- A scan names a cell. The block of one that has not made its checks is read as it stands (R218). -/
def scanNames (s : State) (d n : Nat) (c : SysCmd) : Bool :=
  (if c.started then scanCells d c else (cellSet d (blkSet (homeBig s c.t.toNat 64))).getD []).contains n

/-- A scan still runs: it is to move images, or what it wrote back and its record are still to come (R219, R349). -/
def scanOpen (c : SysCmd) : Bool := isScan c && c.status.getD 0 == 0

/-- A running scan names a cell (R219, R220, R223). -/
def scanRuns (s : State) (n : Nat) : Bool :=
  (getDie s (dieOf n)).sys.any fun c => scanOpen c && scanNames s (dieOf n) n c

/-- A scan other than command i runs on a cell: one that has made its checks, or was accepted before it (R214, R219). -/
def scanBusy (s : State) (d i n : Nat) : Bool :=
  let l := (getDie s d).sys
  ((List.range l.length).zip l).any fun p =>
    p.1 != i && scanOpen p.2 && (p.2.started || decide (p.1 < i)) && scanNames s d n p.2

/-- Status of the checks of R219 on the cells that command i names, 0 when all pass; and the place of the image that is refused. The
SAVE area of R359 is that of a region that owns the cells, and is looked at after the owners (R375). -/
def scanCheck (s : State) (out : Bool) (d i b : Nat) : Nat × Nat :=
  let ns := (cellSet d (blkSet b)).getD []
  let segs := blkSegs b
  let part := BitVec.ofNat 16 (blkPart b)
  let owns (n : Nat) : Bool := (namedSegs segs).all fun k => smGet 0 (getCell s n).owners k == part
  let lands (n : Nat) : Bool := let c := (getCell s n).user; !c.tland.isEmpty || !c.tport.isEmpty
  let inside (k : Nat) : Bool := (saveRegion s part (blkImage b k) (imageBytes segs)).isSome
  if !blockOk d b then (0x14, 0)
  else if !ns.all owns then (0x11, 0)
  else if out && !(List.range ns.length).all inside then (0x14, 0)
  else if !ns.all fun n => (getCell s n).hold then (0x15, 0)
  else if out && bit segs 0 && !bit segs 27 && ns.any lands then (0x14, 0)
  else if ns.any (scanBusy s d i) then (0x17, 0)
  else if out then (0, 0)
  else
    match ((List.range ns.length).map fun k => (imageStatus s (ns.getD k 0) (blkImage b k) segs, ns.getD k 0, k)).find?
        fun r => r.1 != 0 with
    | some r => (r.1, r.2.2)
    | none => (0, 0)

/-- The fault record of a LAYOUT refusal: it goes to the region that PART of the block names, and carries the owner of SEQ of the cell
(R212, R213, R355). -/
def layoutRecord (s : State) (d b k : Nat) : State :=
  let n := ((cellSet d (blkSet b)).getD []).getD k 0
  let a := blkImage b k
  let hdr := homeBig s a 256
  let segs := bits hdr 32 32
  let part := BitVec.ofNat 16 (blkPart b)
  let pc := if bit segs 0 then homeBig s (a + segOffset segs 0) 8 else 0
  let scyc := if bit segs 24 then bits (homeBig s (a + segOffset segs 24) 832) (8 * 768) 64 else 0
  fileRegion s part (faultRecord n 1 false false false 13 0x0F (seqOwner (getCell s n)) (BitVec.ofNat 64 pc) (BitVec.ofNat 64 scyc)
    (BitVec.ofNat 64 ((getCell s n).lver.toNat + bits hdr 16 16 * 2 ^ 16)) 0)

/-- The cells whose structures a command acts on; none: a scan whose block is not read yet (R217). -/
def sysCells (d : Nat) (c : SysCmd) : Option (List Nat) :=
  match c.trig with
  | 0 => some [c.cell]
  | 3 => some ((cellSet d c.t.toNat).getD [])
  | 4 => some ((cellSet d c.t.toNat).getD [])
  | 5 => some []
  | 6 => some []
  | 7 => some [bits c.o.toNat 0 10]
  | _ => if c.started then some (scanCells d c) else none

/-- Two commands share a cell or a structure (R214). -/
def sysShare (d : Nat) (a b : SysCmd) : Bool :=
  (a.trig == b.trig && (a.trig == 5 || a.trig == 6)) ||
    (match sysCells d a, sysCells d b with
     | some l, some m => l.any m.contains
     | some l, none => !l.isEmpty
     | none, some m => !m.isEmpty
     | none, none => true)

/-- An earlier command of the same cell has still to act on what command i shares with it (R214). A scan that has made its checks
holds back dict.ld only: the others are refused while it runs (R219, R220, R223). -/
def sysWaits (d : Nat) (l : List SysCmd) (i : Nat) : Bool :=
  match l[i]? with
  | none => true
  | some c => (l.take i).any fun e => e.cell == c.cell && e.ans.isNone && sysShare d e c &&
      (!isScan e || (scanLive e && (!e.started || c.trig == 0)))

/-- Replace command i of a die. -/
def setSys (s : State) (d i : Nat) (c : SysCmd) : State := modDie s d fun x => { x with sys := x.sys.set i c }

/-- Command i, a scan, makes its checks (R218, R219, R355, R359). -/
def scanStart (s : State) (d i : Nat) (c : SysCmd) : State :=
  if c.t.toNat % 64 ≠ 0 then setSys s d i { c with status := some 0x14 } else
  let s := ownRead s c.t.toNat 64
  let b := homeBig s c.t.toNat 64
  let c := { c with blk := BitVec.ofNat 512 b, started := true }
  match scanCheck s (c.trig == 1) d i b with
  | (0, _) => setSys s d i c
  | (st, k) => setSys (if st = 0x12 then layoutRecord s d b k else s) d i { c with status := some st }

/-- A save fault holds the scan back (R360). -/
def saveFault (s : State) (n a : Nat) : State :=
  let x := getCell s n
  let f : WalkFault := ⟨true, false, 0, 0, a, none⟩
  fileHyper s n (faultRecord n 1 false false false 15 5 (seqOwner x) (nextAddr x.user) x.user.scyc (BitVec.ofNat 64 a) f.info1)

/-- A save of Sirvy's own is held back at the image of a cell (R360, R364, R382). -/
def holdSave (s : State) (n part a : Nat) : State :=
  let y := n / 16 % 8
  let x := n % 16
  let set := dieOf n + y * 2 ^ 4 + x * 2 ^ 8 + y * 2 ^ 12 + x * 2 ^ 16
  let c : SysCmd := ⟨n, 8, 0, 0, 0, 0, 0, true, none, true, BitVec.ofNat 512 (0x0FFFFFFF + part * 2 ^ 48 + set * 2 ^ 64), none, none⟩
  modDie (saveFault s n a) (dieOf n) fun x => { x with sys := x.sys ++ [c] }

/-- A save of Sirvy's own of the images of some cells is held back (R360). -/
def saveHeld (s : State) (ns : List Nat) : Bool :=
  ns.any fun n => (getDie s (dieOf n)).sys.any fun c => c.trig == 8 && (scanCells (dieOf n) c).contains n

/-- A cell runs the task that an image names: the kernel by its descriptor and partition, tile coordinate and rank. -/
def runsTask (s : State) (n kd tx ty r : Nat) : Bool :=
  match (getCell s n).task with
  | some t => t.tx == tx && t.ty == ty && t.rank == r && (match kernelOf s t.kid with
      | some k => k.kdesc.toNat == kd && k.part == seqOwner (getCell s n)
      | none => false)
  | none => false

/-- A restored context takes its task with it: the task of the admitted kernel that the header and RANKX and RANKY name. The cell that had
it gives it up, and the task that the restored cell had is no more on it (R351, R362, R363; log 92). -/
def rebind (s : State) (n base segs : Nat) : State :=
  let x := getCell s n
  if !(bit segs 0 && bit segs 24) then s else
  let kd := bits (homeBig s base 256) 192 64
  let tx := bits x.user.rankx.toNat 0 16
  let ty := bits x.user.ranky.toNat 0 16
  let r := bits x.user.rankx.toNat 32 4
  if runsTask s n kd tx ty r then s else
  match s.kernels.find? fun k => k.state == 1 && k.part == seqOwner x && k.kdesc.toNat == kd with
  | none => s
  | some k =>
    let c := ty * bits k.desc.toNat 368 16 + tx
    if !(k.running.contains c || k.saved.any fun e => e.1 == c) then s else
    let old := (listed s).filter fun m => m != n && (match (getCell s m).task with
      | some t => t.kid == k.kid && t.tx == tx && t.ty == ty && t.rank == r
      | none => false)
    let s := fresh (old.foldl (fun s m => freeAt (closeFreeze (chargeCell s m) m) m) (chargeCell s n))
    let s := modCell s n fun x => { x with task := some ⟨k.kid, tx, ty, r, s.seq⟩, enjCharged := x.enj, lastPart := k.part }
    modKernel s k.kid fun k => { k with
      saved := k.saved.filter fun e => e.1 != c, running := if k.running.contains c then k.running else k.running ++ [c] }

/-- Command i moves the next image (R348, R352, R360, R361). Its bytes are written first, and VALID once the D words that the scan wrote
back are at their homes (R253, R352). -/
def scanMove (s : State) (d i : Nat) (c : SysCmd) : State :=
  let b := c.blk.toNat
  let ns := scanCells d c
  let n := ns.getD c.next 0
  let a := blkImage b c.next
  let segs := blkSegs b
  let part := blkPart b
  let len := imageBytes segs
  let end_ (c : SysCmd) : SysCmd := if c.next = ns.length then { c with status := some 0 } else c
  let next := end_ { c with next := c.next + 1, cells := c.cells + 1, stage := none }
  if c.trig = 1 then
    if !quiescent s n && c.stage.isNone then s else
    let (v, off) := c.stage.getD (imageHeld s n segs part fun _ v => v, 0)
    match pinFails s (BitVec.ofNat 16 part) (a + off) (len - off) with
    | some p => setSys (saveFault (imagePart s a v off (p - a)) n p) d i { c with held := true, stage := some (v, p - a) }
    | none =>
      let s := if off < len then scanned (imagePart s a v off len) n segs else s
      if wbOut s n then setSys s d i { c with stage := some (v, len) }
      else setSys (imageValid s a 1) d i next
  else setSys (rebind (readImage s n a segs) n a segs) d i next

/-- The scan of a die that acts on a cell next: its place in the list. -/
def scanFor (s : State) (d n : Nat) : Option (Nat × SysCmd) :=
  let l := (getDie s d).sys
  findIdx' (fun p => scanLive p.2 && !p.2.held && !sysWaits d l p.1 &&
    (!p.2.started || (scanCells d p.2).getD p.2.next 0 == n)) (((List.range l.length).zip l)) 0 |>.map (·.2)

/-- SCAN_TRANSFER (R348): Once a cell is quiescent, the scan moves its image bits and writes VALID last as a release. A scan
that has not made its checks makes them first (R219). -/
def execScanTransfer (die : Nat) (n : Nat) (st : State) : Host.Outcome State Fault Refusal :=
  .next (match scanFor st die n with
    | some (i, c) => if c.started then scanMove st die i c else scanStart st die i c
    | none => st)

/-! ### The other commands -/

/-- With the latches of a cell what its user context has on its way for them goes too: loads, copies, deposits and walks. Its stores are
performed (R357). -/
def dropPending (s : State) (n : Nat) : State :=
  let s := modCell s n fun c => { c with
    loadq := c.loadq.filter loadFw, soq := c.soq.filter fun q => q.org.fw || q.store, engq := c.engq.filter engFw
    ce := c.ce.filter (·.cmd.org.fw), ceDone := c.ceDone.filter (·.cmd.org.fw)
    inbox := c.inbox.filter (·.fw), rets := c.rets.filter (·.fw), user := { c.user with walk := none, want := none } }
  { s with chan := s.chan.filterMap (orphan n) }

/-- A segment takes its value of R231 (R357). -/
def clearSeg (s : State) (n seg : Nat) : State :=
  if seg = 1 then modCtx s n false fun c => { c with x := [], xs := [], p := 1 }
  else if 7 ≤ seg ∧ seg < 15 then
    let t := seg - 7
    modCell s n fun x => { x with
      acc := x.acc.filter fun e => e.1 / 64 != t, rcnt := smDel x.rcnt t, tcnt := smDel x.tcnt t }
  else if seg = 15 then dropPending (segPut s n 15 0) n
  else if seg = 16 then modCell (segPut s n 16 0) n fun x => { x with arrivals := x.arrivals.filter (·.fw) }
  else if seg = 19 then modCell (flushL1 s n) n fun x => { x with l1 := [] }
  else segPut s n seg 0

/-- A segment changes hands (R223, R306, R357). -/
def ownSeg (s : State) (n : Nat) (p : BitVec 16) (seg : Nat) : State :=
  if smGet 0 (getCell s n).owners seg = p then s
  else modCell (unmarkSeg (clearSeg s n seg) n seg) n fun x => { x with owners := smSet 0 x.owners seg p }

/-- HOLD is cleared in a cell that is in service (R220, R383); fetch starts again (R347). A save of its task is given up. -/
def release (x : Cell) : Cell :=
  if x.hold && x.ok then
    { x with
      hold := false, saving := none, wasHeld := false, image := none, user := { x.user with ilines := [] }
      dbg := { x.dbg with stat := BitVec.ofNat 64 (bits x.dbg.stat.toNat 8 1 * 2 ^ 8) } }
  else x

/-- Way mask, set window, fill share or occupancy peak of a class in one slice (R222, R337). -/
def cosPut (field : Nat) (t : Nat) (r : CosRegs) : CosRegs :=
  match field with
  | 0 => { r with ways := BitVec.ofNat 16 t }
  | 1 => { r with setbase := BitVec.ofNat 15 t, setmask := BitVec.ofNat 15 (t >>> 16) }
  | 2 => { r with share := BitVec.ofNat 8 t }
  | _ => { r with peak := BitVec.ofNat 20 (t >>> 32) }

/-- cos.wr on a die (R222, R337, R341). Under a new set window a line that no window reaches leaves, and so does the place of a fill
that is under way. -/
def cosWrite (s : State) (d slice c field t : Nat) : State :=
  let sl := if slice = 15 then List.range 16 else [slice]
  let s := modDie s d fun x => sl.foldl (fun x k => modCos x k c (cosPut field t)) x
  if field = 1 then
    let x := getDie s d
    let out := x.fills.filter fun f => f.way < 16 && !cosReach x f.slice f.line f.set
    out.foldl (fun s f => l2Displace s d (.fill f)) (l2EvictAll s d (l2Unreachable x))
  else s

/-- What a command answers: the state, image bytes over 64, cells, status (R215). -/
abbrev SysDone := State × Nat × Nat × Nat

/-- dict.ld (R217). -/
def dictDone (s : State) (c : SysCmd) : SysDone :=
  if c.t.toNat % 16 ≠ 0 then (s, 0, 0, 0x14)
  else if !userStopped s c.cell then (s, 0, 0, 0x15)
  else
    match imageAt s c.t.toNat with
    | none => (s, 0, 0, 0x13)
    | some es => (modCell (unmarkAt s c.cell fun p => p.1 == 7 && es.any fun e => e.1 == p.2.1) c.cell fun x =>
        { x with dict := loadEntries x.dict es }, 0, 1, 0)

/-- The named cells whose SEQ owner is PART (R220). -/
def counted (s : State) (d : Nat) (c : SysCmd) : Option (List Nat) :=
  (cellSet d c.t.toNat).map fun ns => ns.filter fun n => seqOwner (getCell s n) == BitVec.ofNat 16 c.o.toNat

/-- cell.frz (R220): requests first; done once every counted cell holds. -/
def frzDone (s : State) (d i : Nat) (c : SysCmd) : State × Option SysDone :=
  match counted s d c with
  | none => (s, some (s, 0, 0, 0x14))
  | some ns =>
    if !c.started then
      let s := ns.foldl (fun s n => modCell s n fun x => if x.hold then x else { x with frzReq := true }) s
      (setSys s d i { c with started := true, cells := ns.length }, none)
    else if (scanCellsHeld s d c) then (s, some (s, 0, c.cells, 0))
    else (s, none)
where
  /-- No counted cell still has a request that is not in effect. -/
  scanCellsHeld (s : State) (d : Nat) (c : SysCmd) : Bool :=
    ((cellSet d c.t.toNat).getD []).all fun n => !(getCell s n).frzReq

/-- cell.rsm (R220). -/
def rsmDone (s : State) (d i : Nat) (c : SysCmd) : SysDone :=
  match counted s d c with
  | none => (s, 0, 0, 0x14)
  | some ns =>
    if ((cellSet d c.t.toNat).getD []).any (scanBusy s d i) then (s, 0, 0, 0x17)
    else (ns.foldl (fun s n => modCell s n release) s, 0, ns.length, 0)

/-- cos.wr (R222, R337). -/
def cosDone (s : State) (d : Nat) (c : SysCmd) : SysDone :=
  let o := c.o.toNat
  let t := c.t.toNat
  if o >>> 20 ≠ 0 ∨ bits o 2 6 ≠ 0 ∨ bits o 16 4 ≠ d then (s, 0, 0, 0x14)
  else if bits o 0 2 = 1 ∧ bits t 0 15 &&& bits t 16 15 ≠ 0 then (s, 0, 0, 0x14)
  else (cosWrite s d (bits o 12 4) (bits o 8 4) (bits o 0 2) t, 0, 0, 0)

/-- own.wr (R223, R357). -/
def ownDone (s : State) (d i : Nat) (c : SysCmd) : SysDone :=
  let n := bits c.o.toNat 0 10
  let mask := bits c.o.toNat 32 32
  if dieOf n ≠ d ∨ !segsOk mask then (s, 0, 0, 0x14)
  else if !userStopped s n then (s, 0, 0, 0x15)
  else if scanBusy s d i n then (s, 0, 0, 0x17)
  else ((namedSegs mask).foldl (fun s k => ownSeg s n (BitVec.ofNat 16 c.t.toNat) k) s, 0, 1, 0)

/-- Command i acts, and answers when it ends (R214 to R223); a scan.out ends once what it wrote back of L1 is performed (R349). -/
def sysAct (s : State) (d i : Nat) (c : SysCmd) : State × Option SysDone :=
  match c.trig with
  | 0 => (s, some (dictDone s c))
  | 3 => frzDone s d i c
  | 4 => (s, some (rsmDone s d i c))
  | 5 => (s, some (modDie s d fun x => { x with migctl := x.migctl ^^^ 2 }, 0, 0, 0))
  | 6 => (s, some (cosDone s d c))
  | 7 => (s, some (ownDone s d i c))
  | _ =>
    (s, if c.trig = 1 ∧ c.started ∧ (scanCells d c).any (wbOut s) then none else c.status.map fun st => (s, c.cells * (imageBytes (blkSegs c.blk.toNat) / 64), c.cells, st))

/-- The completion address of a command (R215, R218). -/
def doneAddr (c : SysCmd) : Nat :=
  let a := if (c.trig = 1 ∨ c.trig = 2) ∧ blkDone c.blk.toNat ≠ 0 then blkDone c.blk.toNat else c.m.toNat
  if a % 8 = 0 then a else 0

/-- The completion record of an ended command is written, and the command leaves the die (R215). -/
def sysRecord (s : State) (d i : Nat) (c : SysCmd) (r : Nat × Nat × Nat × Nat) : State :=
  ownWrite (modDie s d fun x => { x with sys := x.sys.eraseIdx i }) (doneAddr c) 8
    (2 ^ 63 + r.1 % 2 ^ 31 * 2 ^ 32 + r.2.1 % 2 ^ 16 * 2 ^ 16 + r.2.2.1)

/-- A command ends: its record waits for a release of device scope of the firmware context, and without a record it leaves the die
(R215, R258). -/
def sysEnd (d i : Nat) (c : SysCmd) (r : SysDone) : State :=
  if doneAddr c = 0 then modDie r.1 d fun x => { x with sys := x.sys.eraseIdx i }
  else
    let s := pushMarker r.1 c.cell 3 false true
    setSys s d i { c with ans := some (r.2.1, r.2.2.1, r.2.2.2, s.seq) }

/-- The commands of a die from place i on: the first that can act does (R214). -/
def sysFirst (s : State) (d : Nat) : List SysCmd → Nat → State
  | [], _ => s
  | c :: cs, i =>
    match c.ans with
    | some r => if markersDone (getCell s c.cell) r.2.2.2 then sysRecord s d i c r else sysFirst s d cs (i + 1)
    | none =>
      if sysWaits d (getDie s d).sys i ∨ scanLive c then sysFirst s d cs (i + 1)
      else
        match sysAct s d i c with
        | (_, some r) => sysEnd d i c r
        | (s', none) => if c.started then sysFirst s d cs (i + 1) else s'

/-- SYS_COMPLETION (R215): An accepted sys command ends and writes its completion record as a device-scope release: one call makes the
release, and a later one, once it is complete, writes the record. The first call for a cell.frz makes its requests (R220). -/
def execSysCompletion (die : Nat) (st : State) : Host.Outcome State Fault Refusal :=
  .next (sysFirst st die (getDie st die).sys 0)

end Sys2Proof.Machine
end

