-- ==== Sys2Proof/Machine/Launch.lean ====
section
/-!
DEFINITION. Time and energy (R314, R316, R396, R397), admission of regions and their contexts (R304 to R310, R318, R359), queues and
packets (R311 to R313, R317, R366, R367, R407), the schedule table (R315), and dispatch, pre-emption and completion of tile tasks
(R227 to R233, R316, R332, R364, R408).
-/

namespace Sys2Proof.Machine

/-! ### Time -/

/-- Whole nanoseconds in a count of 1/1024 ns, rounded up. -/
def ceil1024 (n : Nat) : Nat := (n + 1023) / 1024

/-- TIME after dt ns of real time: 1 ns per ns, and 1/1024 ns more or less per ns while it slews; LOCK goes 1.5 s after the last edge
(R314). The scheduler's cycle ends (R317). -/
def advanceTime (s : State) (dt : Nat) : State :=
  let left := s.slew.natAbs
  let after := left - dt
  let gain := ceil1024 left - ceil1024 after
  let since := s.sinceEdge + dt
  let s := { s with
    real := s.real + dt, sinceEdge := since, sincePause := s.sincePause + dt, newKernels := if dt = 0 then s.newKernels else []
    tstat := if 1500000000 ≤ since then s.tstat &&& ~~~(1 : Word) else s.tstat }
  if s.slew = 0 then { s with time := s.time + BitVec.ofNat 64 dt } else
  let d := if 0 < s.slew then dt + gain else dt - gain
  { s with
    time := s.time + BitVec.ofNat 64 d
    slew := if 0 < s.slew then (after : Int) else -(after : Int)
    tstat := if after = 0 then s.tstat &&& ~~~(2 : Word) else s.tstat }

/-- TIME as a die holds it (R314). -/
def dieTime (s : State) (d : Nat) : Nat := ((s.time.toNat : Int) + (getDie s d).toff).toNat

/-! ### Energy -/

/-- EREM := min(EBUD, EREM + EREF) in every region that has a budget of its own (R305, R316). -/
def refillAll (s : State) : State :=
  s.regions.foldl (fun s r =>
    if (groupRegion s r 1 8).part = r.part then
      setErem s r.part (min (rcbField r 416 64 : Int) ((match regionOf s r.part with | some q => q.erem | none => 0) +
        (rcbField r 480 32 : Int)))
    else s) s

/-- ENERGY_REFILL (R316): Every 1 ms each region's EREM is refilled by EREF, up to EBUD. -/
def execEnergyRefill (dt : Nat) (st : State) : Host.Outcome State Fault Refusal :=
  .next (let st := advanceTime st dt
    if st.refills < st.time.toNat / 1000000 then refillAll { st with refills := st.refills + 1 } else st)

/-- ENERGY_CHARGE (R397): Every 100 µs, and when a task ends, each cell's ENJ growth is charged to its region and ancestors. -/
def execEnergyCharge (dt : Nat) (st : State) : Host.Outcome State Fault Refusal :=
  .next (let st := advanceTime st dt
    if st.charges < st.time.toNat / 100000 then (listed st).foldl chargeCell { st with charges := st.charges + 1 } else st)

/-- ENERGY_CALIBRATION (R396): Every 1 ms the Vesper engine rescales the energy calibration to the measured die power. The
energy of each cycle is a free value, so that the next ones are others (log 6). -/
def execEnergyCalibration (_die : Nat) (st : State) : Host.Outcome State Fault Refusal := .next (useFree st)

/-! ### Regions -/

/-- A field of an RCB as read. -/
def rf (v lo n : Nat) : Nat := bits v lo n

/-- Some reserved field of an RCB is nonzero (R304, R305). -/
def rcbReserved (v : Nat) : Bool :=
  rf v 1024 1024 != 0 || rf v 741 27 != 0 || rf v 648 24 != 0 || rf v 516 6 != 0 || rf v 160 224 != 0 || rf v 137 23 != 0 ||
    rf v 96 32 != 0 || rf v 92 3 != 0 || rf v 80 3 != 0

/-- The child inherits a field group (R305). -/
def inherits (v g : Nat) : Bool := bit (rf v 128 32) g

/-- The cells of the rectangle of an RCB; none when it is no rectangle of the die (R304). -/
def rcbRect (v : Nat) : Option (List Nat) :=
  let y0 := rf v 388 4
  let y1 := rf v 392 4
  let x0 := rf v 396 4
  let x1 := rf v 400 4
  if y1 < y0 ∨ x1 < x0 ∨ 7 < y1 then none
  else some (((List.range (y1 - y0 + 1)).map fun i =>
    (List.range (x1 - x0 + 1)).map fun j => 128 * rf v 384 3 + 16 * (y0 + i) + x0 + j).flatten)

/-- The admitted siblings of a region: the regions with its parent (R307). -/
def siblings (s : State) (p : BitVec 16) : List Region := s.regions.filter fun r => r.parent == some p

/-- The cells siblings hold of their own (R304, R307). -/
def heldCells (s : State) (p : BitVec 16) : List Nat :=
  ((siblings s p).filter fun r => !inherits r.rcb.toNat 0).map (·.cells) |>.flatten

/-- The cells a child would hold (R304, R307); none: NOFIT. -/
def childCells (s : State) (par : Region) (v : Nat) : Option (List Nat) :=
  if inherits v 0 then some par.cells
  else
    let held := heldCells s par.part
    if bit v 387 then
      match rcbRect v with
      | some ns => if ns.all par.cells.contains && !ns.any held.contains then some ns else none
      | none => none
    else
      let c := rf v 404 12
      let free := ((List.range 1024).filter par.cells.contains).filter fun n => !held.contains n
      if c = 0 ∨ free.length < c then none else some (free.take c)

/-- A set window lies within another (R307, R338). -/
def windowIn (cm cb pm pb : Nat) : Bool :=
  cm &&& (0x7FFF - pm) == 0 && (cb &&& (0x7FFF - pm)) == (pb &&& (0x7FFF - pm))

/-- The fields COS to FILLSH of a region as they act (R305). -/
def cosFields (s : State) (r : Region) : Nat × Nat × Nat × Nat × Nat :=
  (regionField s r 2 512 4, regionField s r 2 522 16, regionField s r 2 553 15, regionField s r 2 538 15, regionField s r 2 568 8)

/-- A child's shares lie within its parent's (R307). -/
def sharesFit (s : State) (par : Region) (v : Nat) : Bool :=
  let (_, pw, pm, pb, _) := cosFields s par
  let slots := rf v 576 64
  let pslots := regionField s par 3 576 64
  (inherits v 2 || ((rf v 522 16 &&& pw) == rf v 522 16 && windowIn (rf v 553 15) (rf v 538 15) pm pb)) &&
  (inherits v 3 || ((slots &&& pslots) == slots &&
    !(siblings s par.part).any fun r => !inherits r.rcb.toNat 3 && (rcbField r 576 64 &&& slots) != 0)) &&
  (inherits v 1 || decide (rf v 416 64 ≤ regionField s par 1 416 64))

/-- A fault queue is enabled in an RCB of its own (R304, R308). -/
def ownQueue (v : Nat) : Bool := !inherits v 7 && decide (4 ≤ rf v 736 5) && decide (rf v 736 5 ≤ 16)

/-- Two regions with one CoS on one die carry the same shares (R336). -/
def cosAgree (s : State) (r : Region) : Bool :=
  s.regions.all fun q => q.part == r.part ||
    !(q.cells.any fun a => r.cells.any fun b => dieOf a == dieOf b) || (cosFields s q).1 != (cosFields s r).1 ||
    cosFields s q == cosFields s r

/-- Sirvy's checks of an RCB, where an inherited budget is the parent's (R305): 0 and the region to admit, or a status (R307): 1 BADRCB, 2 DEPTH, 3 NOFIT. -/
def admitCheck (s : State) (pa v : Nat) : Nat × Option Region :=
  let part : BitVec 16 := BitVec.ofNat 16 (rf v 64 16)
  let mk (par : Option (BitVec 16)) (ns : List Nat) : Region :=
    let budget := match par.bind (regionOf s) with
      | some q => if inherits v 1 then regionField s q 1 416 64 else rf v 416 64
      | none => rf v 416 64
    ⟨pa, part, BitVec.ofNat 2048 v, par, ns, 0, budget, BitVec.ofNat 32 (rf v 768 32), 0, none, []⟩
  let last (r : Region) : Nat × Option Region := if cosAgree { s with regions := s.regions ++ [r] } r then (0, some r) else (1, none)
  if pa % 256 ≠ 0 ∨ rcbReserved v ∨ (rf v 90 2 = 3 ∧ !inherits v 6) ∨ part = 0 ∨ part = 0xFFFF ∨ (regionOf s part).isSome then (1, none)
  else if rf v 0 64 = 0 then
    match rcbRect v with
    | none => (1, none)
    | some ns =>
      let roots := s.regions.filter fun r => r.parent.isNone
      if rf v 128 32 ≠ 0 ∨ !bit v 387 ∨ roots.any (fun r => r.cells.any ns.contains) ∨ !ownQueue v then (1, none)
      else last (mk none ns)
  else
    match s.regions.find? fun r => r.pa == rf v 0 64 with
    | none => (1, none)
    | some par =>
      if rcbField par 83 3 = 7 then (2, none)
      else if rf v 83 3 ≠ rcbField par 83 3 + 1 then (1, none)
      else
        match childCells s par v with
        | none => (3, none)
        | some ns =>
          if !sharesFit s par v ∨ !(ownQueue v || (lineage s par.part 9).any fun r => ownQueue r.rcb.toNat) then (1, none)
          else last (mk (some par.part) ns)

/-- The valid stage-2 leaves below a table of a level: guest-physical page, leaf address, descriptor, level (R319, R322). -/
def leavesFrom (s : State) : Nat → Nat → Nat → Nat → List (Nat × Nat × Nat × Nat)
  | 0, _, _, _ => []
  | f + 1, lvl, table, gpa =>
    let shift := match lvl with | 1 => 39 | 2 => 30 | 3 => 21 | _ => 16
    ((List.range (if lvl = 4 then 32 else 512)).map fun i =>
      let a := table + 8 * i
      let e := homeReadN s a 8
      let g := gpa + i * 2 ^ shift
      if !bit e 0 || badDesc true lvl e then []
      else if bit e 1 then leavesFrom s f (lvl + 1) (bits e 8 40 * 256) g
      else [(g, a, e, lvl)]).flatten

/-- The leaves of a context's stage 2 (R318); none when it is off. -/
def stage2Leaves (s : State) (t : TCtx) : List (Nat × Nat × Nat × Nat) := if s2en t then leavesFrom s 4 1 (s2root t) 0 else []

/-- The pins of a save area: for each of its pages the leaf that maps it (R359). -/
def pinsOf (s : State) (r : Region) : List (Nat × Nat × Nat) :=
  let a := rcbField r 800 64
  let n := 4096 * rcbField r 864 32
  if n = 0 then [] else
  let ls := stage2Leaves s (tctxOf s r.part false)
  if ls = [] then [] else
  ((List.range (n / 65536 + 2)).map fun k => (a / 65536 + k) * 65536).filterMap fun p =>
    if a + n ≤ p then none
    else (ls.find? fun l => oaCovers l.2.2.2 l.2.2.1 p 65536).map fun l => (p, l.2.1, l.2.2.1)

/-- The pins of a kernel's exception ring, each page with the leaf that maps it (R25, R307). -/
def ringPins (s : State) (k : Kernel) : List (Nat × Nat × Nat) :=
  let d := k.desc.toNat
  let a := bits d 260 44 * 16
  let n := 16 * 2 ^ bits d 336 5
  if !(decide (4 ≤ bits d 336 5) && decide (bits d 336 5 ≤ 20)) then [] else
  let ls := stage2Leaves s (tctxOf s k.part false)
  ((List.range (n / 65536 + 2)).map fun i => (a / 65536 + i) * 65536).filterMap fun p =>
    if a + n ≤ p then none
    else (ls.find? fun l => oaCovers l.2.2.2 l.2.2.1 p 65536).map fun l => (p, l.2.1, l.2.2.1)

/-- Pins join those that stand, one for a page. -/
def addPins (ps qs : List (Nat × Nat × Nat)) : List (Nat × Nat × Nat) := ps ++ qs.filter fun x => !ps.any fun y => y.1 == x.1

/-- The save areas of a region and of those below it are pinned under the context that governs them, and so are the exception rings of
the kernels that they hold (R25, R307, R359). -/
def pinAll (s : State) (p : BitVec 16) : State :=
  (subtree s p).foldl (fun s r =>
    let ks := s.kernels.filter fun k => k.part == r.part && decide (k.state < 2)
    modRegion s r.part fun q => { q with pins := (ks.map (ringPins s)).foldl addPins (pinsOf s r) }) s

/-- Sirvy writes the shares of an admitted region into the slices of its dies (R336), and a root's slots into the slot tables
(R345). A set window that cos.wr refuses is not written (R337, R406). -/
def writeShares (s : State) (r : Region) : State :=
  let (c, w, m, b, f) := cosFields s r
  let ds := (r.cells.map dieOf).eraseDups
  let slots := rcbField r 576 64
  let put (x : Die) (i : Nat) : Die :=
    if bit slots i then { x with rst := smSet 0 x.rst i (BitVec.ofNat 64 (2 ^ 63 + r.part.toNat)) } else x
  ds.foldl (fun s d =>
    let s := cosWrite s d 15 c 0 w
    let s := if b &&& m = 0 then cosWrite s d 15 c 1 (b + m * 2 ^ 16) else s
    let s := cosWrite s d 15 c 2 f
    if r.parent.isNone then modDie s d fun x => (List.range 64).foldl put x else s) s

/-- ADMIT_RCB (R307): A hypervisor command asks Sirvy to check and admit a region control block. -/
def execAdmitRcb (pa : Nat) (st : State) : Host.Outcome State Fault Refusal :=
  .next (let st := ownRead st pa 256
    match admitCheck st pa (homeReadN st pa 256) with
    | (0, some r) =>
      let st := { st with regions := st.regions ++ [r], answer := 0 }
      let st := rcbWrite (rcbWrite st r 896 64 (wrap 64 r.erem)) r 960 64 0
      let st := writeShares st r
      pinAll st r.part
    | (e, _) => { st with answer := e })

/-- The walk caches drop what they hold of a context (R318, R328). -/
def forgetCtx (s : State) (part : Nat) : State :=
  { s with dies := s.dies.map fun d => (d.1, { d.2 with walks := d.2.walks.filter fun e => e.key != part }) }

/-- RCB_TEARDOWN (R304): A region is torn down, ending its admission and the pinning of its pages and save area, and its translation
context. A region with admitted children or with kernels at work is not torn down; kernels whose tasks are all still to run, or
saved, wait for its next admission, which may have other cells (R363, log 40). -/
def execRcbTeardown (part : Nat) (st : State) : Host.Outcome State Fault Refusal :=
  .next (let p : BitVec 16 := BitVec.ofNat 16 part
    if (siblings st p) ≠ [] ∨ st.kernels.any (fun k => k.part == p && (k.state != 1 || k.running != [])) then st
    else { forgetCtx st part with
      regions := st.regions.filter fun r => r.part != p, tctx := st.tctx.filter fun e => e.1 != part, answer := 0 })

/-- Kill the kernels of a host function and put it in ERROR (R332). -/
def functionError (s : State) (f : Nat) : State :=
  let ps := (s.regions.map (·.part)).filter fun p => (tctxKey s p).isSome && tctxFunc (tctxOf s p false) == f
  modHost (killParts s ps 3) f fun h => { h with tdisp := 3 }

/-- The RW fields of a translation context (R318). -/
def tctxMask (v : Nat) : Nat := bits v 204 52 * 2 ^ 204 + bits v 140 52 * 2 ^ 140 + bits v 32 24 * 2 ^ 32 + bits v 0 2

/-- TRANSLATION_CONTEXT_WRITE (R318): A hypervisor command has Sirvy write a region's translation context, under which its save area
is pinned from then on. Only a function in CONFIG_UNLOCKED lets it: a write to a locked context puts the function in ERROR, and in
ERROR nothing is written (R332). -/
def execTranslationContextWrite (part : Nat) (v : BitVec 256) (st : State) : Host.Outcome State Fault Refusal :=
  .next (if (regionOf st (BitVec.ofNat 16 part)).isNone then { st with answer := 1 } else
    let t := smGet TCtx.reset st.tctx part
    let td := (getHost st (tctxFunc t)).tdisp
    let held := st.tctx.any fun e => e.1 == part
    if held && (td == 1 || td == 2) then functionError st (tctxFunc t)
    else if held && td == 3 then { st with answer := 1 }
    else
      let st := forgetCtx st part
      pinAll { st with tctx := smPut st.tctx part { t with reg := BitVec.ofNat 256 (tctxMask v.toNat) }, answer := 0 }
        (BitVec.ofNat 16 part))

/-- SUBTREE_RELEASE (R309): A hypervisor release command unfreezes a frozen subtree and resumes its dispatch. HOLD is cleared as
cell.rsm does: of the cells that the subtree still owns, and not under a running scan, which refuses the whole (R220). -/
def execSubtreeRelease (part : Nat) (st : State) : Host.Outcome State Fault Refusal :=
  .next (match regionOf st (BitVec.ofNat 16 part) with
    | some r =>
      (match r.frozen with
       | some ns =>
         let ps := (subtree st r.part).map (·.part)
         let ns := ns.filter fun n => ps.contains (seqOwner (getCell st n))
         if ns.any (scanRuns st) then st
         else modRegion (ns.foldl (fun s n => modCell s n release) st) r.part fun r => { r with frozen := none }
       | none => st)
    | none => st)

/-! ### Queues -/

/-- The context of a queue and its fields (R310). -/
def queueOf (s : State) (q : Nat) : Queue := smGet Queue.reset s.queues q
@[inherit_doc queueOf] def qRcb (u : Queue) : Nat := bits u.ctx.toNat 192 64
@[inherit_doc queueOf] def qBase (u : Queue) : Nat := bits u.ctx.toNat 128 64
@[inherit_doc queueOf] def qRd (u : Queue) : BitVec 32 := BitVec.ofNat 32 (bits u.ctx.toNat 32 32)
@[inherit_doc queueOf] def qLog (u : Queue) : Nat := bits u.ctx.toNat 0 5

/-- Change a queue. -/
def modQueue (s : State) (q : Nat) (f : Queue → Queue) : State := { s with queues := smPut s.queues q (f (queueOf s q)) }

/-- RD takes a value (R310, R366). -/
def setRd (rd : BitVec 32) (u : Queue) : Queue := { u with ctx := BitVec.ofNat 256 (setBits u.ctx.toNat 32 32 rd.toNat) }

/-- Virtual address of the slot of packet j (R310). -/
def slotOf (u : Queue) (j : BitVec 32) : Nat := qBase u + 64 * (j.toNat % 2 ^ qLog u)

/-- The region a queue is bound to. -/
def qRegion (s : State) (u : Queue) : Option Region := s.regions.find? fun r => r.pa == qRcb u

/-- QUEUE_CONTEXT_WRITE (R310): A hypervisor command has Sirvy write a queue's 32-byte context. -/
def execQueueContextWrite (q : Nat) (v : BitVec 256) (st : State) : Host.Outcome State Fault Refusal :=
  .next (if 512 ≤ q then { st with answer := 1 } else
    let u := bits v.toNat 128 128 * 2 ^ 128 + bits v.toNat 32 32 * 2 ^ 32 + bits v.toNat 0 5
    { st with queues := smPut st.queues q ⟨BitVec.ofNat 256 u, BitVec.ofNat 32 (bits v.toNat 32 32), true, []⟩, answer := 0 })

/-- Fields of a kernel descriptor (R229). -/
def kTw (k : Kernel) : Nat := bits k.desc.toNat 368 16
@[inherit_doc kTw] def kTh (k : Kernel) : Nat := bits k.desc.toNat 352 16
@[inherit_doc kTw] def kG (k : Kernel) : Nat := bits k.desc.toNat 348 4 + 1
@[inherit_doc kTw] def kSkew (k : Kernel) : Nat := bits k.desc.toNat 344 4
@[inherit_doc kTw] def kCores (k : Kernel) : Bool := bit k.desc.toNat 343
@[inherit_doc kTw] def kSignal (k : Kernel) : Nat := bits k.desc.toNat 192 64
@[inherit_doc kTw] def kDict (k : Kernel) : Nat := bits k.desc.toNat 64 64
@[inherit_doc kTw] def kUse (k : Kernel) : Nat := bits k.desc.toNat 400 48

/-- The descriptor breaks R230. -/
def descBad (kd d : Nat) : Bool :=
  let entry := bits d 0 64
  kd % 64 != 0 || bits d 448 32 != 0 || bits d 384 16 != 0 || bits d 320 8 != 0 ||
    decide (64 < bits d 441 7) || decide (160 < bits d 433 8) || decide (160 < bits d 425 8) || decide (160 < bits d 417 8) ||
    decide (160 < bits d 409 8) || decide (16 < bits d 404 5) || decide (8 < bits d 400 4) || bits d 368 16 == 0 ||
    bits d 352 16 == 0 || bits d 256 4 != 0 || bits d 192 3 != 0 || bits d 128 6 != 0 || bits d 64 4 != 0 || bit entry 0 ||
    (bit entry 63 && bits entry 16 47 != 0) || (!bit d 342 && bit d 328)

/-- The rectangle that a list of cells fills wholly on one die: origin cell, rows and columns (R233). -/
def rectOf (ns : List Nat) : Option (Nat × Nat × Nat) :=
  match ns with
  | [] => none
  | n :: _ =>
    let ys := ns.map fun m => m / 16 % 8
    let xs := ns.map fun m => m % 16
    let y0 := ys.foldl min 7
    let x0 := xs.foldl min 15
    let h := ys.foldl max 0 - y0 + 1
    let w := xs.foldl max 0 - x0 + 1
    if ns.all (fun m => dieOf m == dieOf n) ∧ ns.eraseDups.length = h * w then some (128 * dieOf n + 16 * y0 + x0, h, w)
    else none

/-- A co-resident kernel does not fit its region (R233). -/
def coresBad (r : Region) (k : Kernel) : Bool :=
  kCores k && (match rectOf r.cells with
    | some (_, h, w) => decide (h < kTh k) || decide (w < kG k * kTw k)
    | none => true)

/-- A kernel as its packet or entry brings it. -/
def newKernel (kid : Nat) (q : Option Nat) (j : BitVec 32) (p : BitVec 16) (pkt : Nat) (kd : Nat) (e : Option (Nat × Nat)) : Kernel :=
  ⟨kid, q, j, p, BitVec.ofNat 512 pkt, 0, BitVec.ofNat 64 kd, 0, 0, 0, 0, [], [], 0, false, [], e, kid, false⟩

/-- A kernel that ends with a status before any task runs. -/
def ended (s : State) (k : Kernel) (status : Nat) : Kernel := { k with state := 2, status := status, rel := s.seq }

/-- The CP waits to read a packet's descriptor or the head of its DICT image in host memory (R261). -/
def loadHeld (s : State) (t : TCtx) (kd : Nat) : Bool :=
  cpHeld s t kd s.seq || (match cpRead s t kd 64 with
    | some (s, d) => bits d 64 64 != 0 && cpHeld s t (bits d 64 64) s.seq
    | none => false)

/-- The pages of a kernel's exception ring are pinned with those of its region's save area (R25, R307). -/
def pinRing (s : State) (k : Kernel) : State :=
  modRegion s k.part fun q => { q with pins := addPins q.pins (ringPins s k) }

/-- The checks of a LAUNCH: the descriptor, then its DICT image (R230, R233, R407). -/
def loadKernel (s : State) (r : Region) (k : Kernel) : State × Kernel :=
  let t := tctxOf s r.part false
  let kd := k.kdesc.toNat
  if kd % 64 ≠ 0 then (s, ended s k 6) else
  match cpRead s t kd 64 with
  | none => (s, ended s k 6)
  | some (s, d) =>
    let k := { k with desc := BitVec.ofNat 512 d }
    if descBad kd d || coresBad r k then (s, ended s k 6)
    else if kDict k = 0 then (s, k)
    else
      match imageAtVirtual s t (kDict k) with
      | none => (s, ended s k 7)
      | some (s, es) => (s, { k with image := es })

/-- The CP of a queue takes in the packet at RD, when it may (R312, R313, R317, R366, R407). A read of host memory waits behind the
device-to-host queue (R261), and the CP goes on with it at a later KERNEL_ADMISSION. -/
def takeIn (s : State) (q : Nat) : State :=
  let u := queueOf s q
  match qRegion s u with
  | none => s
  | some r =>
    let j := qRd u
    if s.paused || u.stalled || j == u.widx || !(decide (4 ≤ qLog u) && decide (qLog u ≤ 16)) ||
        s.kernels.any (fun k => k.q == some q && k.pidx == j) then s
    else
      let t := tctxOf s r.part false
      let stall : State := modQueue s q fun u => { u with stalled := true }
      if cpHeld s t (slotOf u j) s.seq then s else
      match cpRead64 s t (slotOf u j) with
      | none => stall
      | some (s1, w) =>
        if !bit w 0 then stall else
        match cpRead s1 t (slotOf u j) 64 with
        | none => stall
        | some (s1, p) =>
          if bits p 1 3 = 1 && loadHeld s1 t (bits p 128 64) then s else
          let s1 := fresh s1
          let k := newKernel s1.seq (some q) j r.part p (bits p 128 64) none
          let (s1, k) :=
            if bits p 1 3 = 0 then (s1, ended s1 k (if u.cancels.contains j then 2 else 1))
            else if bits p 1 3 = 1 then loadKernel s1 r k
            else (s1, ended s1 k 5)
          let k := if k.state = 0 ∧ u.cancels.contains j then ended s1 k 2 else k
          let s1 := modQueue s1 q fun u => { u with cancels := u.cancels.filter (· != j) }
          { s1 with kernels := s1.kernels ++ [k] }

/-- FWSTAT with BUSY and a status (R392). -/
def fwStatus (busy status : Nat) : Word := BitVec.ofNat 64 (busy + status * 2 ^ 8)

/-- The functions that were sent PAUSE and not yet RESUME (R393). -/
def pausedFns (s : State) : List Nat := (s.hosts.filter fun e => bits e.2.fwevt.toNat 0 2 == 1).map Prod.fst

/-- RESUME goes to every paused function, and the queues are read again (R393). -/
def resumeAll (s : State) (status : Nat) : State :=
  let resume (h : HostFn) : HostFn := { h with fwack := false, fwevt := h.fwevt + 1 }
  let s := (pausedFns s).foldl (fun s f => modHost s f resume) s
  let s := { s with paused := false, fwimage := none, fwstat := fwStatus 0 status }
  (s.queues.map Prod.fst).foldl takeIn s

/-- No cell runs a task. -/
def noTask (s : State) : Bool := s.cells.all fun e => e.2.task.isNone

/-- Every paused function has acknowledged (R393). -/
def allAcked (s : State) : Bool := (pausedFns s).all fun f => (getHost s f).fwack

/-- Once every function has acknowledged and no task runs, Sirvy is replaced (R393): what an acknowledgement or the end of a task brings
about. -/
def tryActivate (s : State) : State :=
  match s.paused, s.fwimage with
  | true, some a => if allAcked s && noTask s then resumeAll { s with fwactive := a, fwcode := homeReadN s a.toNat Config.imageBytes } 0 else s
  | _, _ => s

/-- A doorbell write comes behind writes of its function that are still in the host-to-device queue (R261, R368). -/
def bellHeld (s : State) (q : Nat) : Bool :=
  match qRegion s (queueOf s q) with
  | some r => (tctxKey s r.part).isSome && !(getHost s (tctxFunc (tctxOf s r.part false))).queue.isEmpty
  | none => false

/-- QNOTIFY (R312): A doorbell write with CAN 0 makes the CP read packet slots from RD up to WIDX minus 1. -/
def execQnotify (q : Nat) (v : Word) (st : State) : Host.Outcome State Fault Refusal :=
  .next (if 512 ≤ q ∨ bellHeld st q then st else
    takeIn (modQueue st q fun u => { u with widx := v.truncate 32, stalled := false }) q)

/-- A waiting packet of a queue that the CP has not read is written: V is 1 in its slot, and no packet that was there before it is still to
retire (R317). -/
def written (s : State) (q : Nat) (j : BitVec 32) : Bool :=
  let u := queueOf s q
  match qRegion s u with
  | none => false
  | some r =>
    decide ((j - qRd u).toNat < 2 ^ qLog u) &&
    !(s.kernels.any fun k => k.q == some q && k.pidx != j && decide (k.state < 3) && slotOf u k.pidx == slotOf u j) &&
    (match cpRead64 s (tctxOf s r.part false) (slotOf u j) with
     | some (_, w) => bit w 0
     | none => false)

/-- The word that a cancel looks at is in host memory, behind the device-to-host queue (R261). -/
def cancelHeld (s : State) (q : Nat) (j : BitVec 32) : Bool :=
  let u := queueOf s q
  match qRegion s u with
  | none => false
  | some r => cpHeld s (tctxOf s r.part false) (slotOf u j) s.seq

/-- QNOTIFY_CANCEL (R317): A doorbell write with CAN 1 cancels or kills the kernel of the named packet. One that the scheduler began to
dispatch in its cycle under way is killed with DISPKILL, or with KILLED where the cancel comes later: which is free (log 41). -/
def execQnotifyCancel (q : Nat) (v : Word) (st : State) : Host.Outcome State Fault Refusal :=
  .next (let j : BitVec 32 := v.truncate 32
    if bellHeld st q then st else
    match st.kernels.find? fun k => k.q == some q && k.pidx == j with
    | some k =>
      if 2 ≤ k.state then st
      else if !k.started then modKernel st k.kid fun k => ended st k 2
      else if st.newKernels.contains k.kid then
        tryActivate (killKernel (useFree st) k.kid (if (Config.freeVec st.free).getLsbD 0 then 4 else 3))
      else tryActivate (killKernel st k.kid 3)
    | none =>
      if !cancelHeld st q j && written st q j then modQueue st q fun u => { u with cancels := u.cancels ++ [j] } else st)

/-! ### Admission -/

/-- The value at WSIG lets the packet go on (R311, R313, R407). -/
def signalMet (s : State) (k : Kernel) : Bool :=
  let a := bits k.packet.toNat 192 64
  k.q.isNone || a == 0 || (!cpHeld s (tctxOf s k.part false) (a - a % 8) s.seq && match cpRead64 s (tctxOf s k.part false) (a - a % 8) with
    | some (_, v) => decide (sval 64 v ≤ sval 64 (bits k.packet.toNat 256 64))
    | none => false)

/-- EEST of a kernel; 0 for one that the schedule table launched (R311, R315). -/
def kEest (k : Kernel) : Nat := if k.q.isSome then bits k.packet.toNat 320 64 else 0

/-- Every cell of a region lies on a die that takes no more work (R399). -/
def tooHot (s : State) (r : Region) : Bool := r.cells.all fun n => (getDie s (dieOf n)).hot

/-- Admission of a waiting kernel under the energy rules (R316). -/
def admitKernel (s : State) (k : Kernel) (r : Region) : State :=
  let ps := budgetOf s k.part
  let rs := ps.filterMap (regionOf s)
  let rd (s : State) : State := match k.q with
    | some q => takeIn (modQueue s q fun u => if qRd u = k.pidx then setRd (k.pidx + 1) u else u) q
    | none => s
  if rs.any fun r => decide (rcbField r 416 64 < kEest k) then modKernel s k.kid fun k => ended s k 8
  else if tooHot s r || !rs.all fun r => decide ((kEest k : Int) ≤ r.erem) && decide (0 < r.erem) then s
  else
    let s := pinRing (addErem s ps (-(kEest k : Int))) k
    let k := { k with state := 1, reserve := kEest k }
    rd { s with kernels := (s.kernels.filter fun x => x.kid != k.kid) ++ [k] }

/-- KERNEL_ADMISSION (R316): Once WSIG and the energy conditions are met, a LAUNCH is admitted, EEST is reserved and RD
advances. A number that names no kernel has the CPs go on with the packets that they wait to read from host memory (R261). -/
def execKernelAdmission (kid : Nat) (st : State) : Host.Outcome State Fault Refusal :=
  .next (match kernelOf st kid with
    | some k =>
      (match regionOf st k.part with
       | some r =>
         if k.state = 0 ∧ (k.met ∨ signalMet st k) then
           admitKernel (modKernel st k.kid fun k => { k with met := true }) { k with met := true } r
         else st
       | none => st)
    | none => (st.queues.map Prod.fst).foldl takeIn st)

/-! ### The schedule table -/

/-- Skip the firings that are late (R315): n of them at most. -/
def skipLate (period time : Nat) : Nat → Nat → Nat → Nat × Nat
  | 0, tick, missed => (tick, missed)
  | n + 1, tick, missed =>
    if tick ≤ time then skipLate period time n (tick + period) (min 0xFFFF (missed + 1)) else (tick, missed)

/-- The entry after a firing (R315). -/
def nextEntry (e time : Nat) : Nat :=
  let period := bits e 224 32
  if period = 0 then setBits e 192 1 0
  else
    let tick := bits e 0 64 + period
    let (tick, missed) := if bit e 193 then skipLate period time ((time - tick) / period + 1) tick (bits e 200 16)
      else (tick, bits e 200 16)
    setBits (setBits e 0 64 tick) 200 16 missed

/-- Entry i of a die is due by the TIME of the die (R314, R315). -/
def entryDue (s : State) (d i : Nat) : Bool :=
  let e := (smGet 0 (getDie s d).sched i).toNat
  bit e 192 && decide (bits e 0 64 ≤ dieTime s d)

/-- An entry fires: its kernel is launched as a LAUNCH packet with WSIG 0 and EEST 0 (R315). -/
def fireEntry (s : State) (d i : Nat) : State :=
  let e := (smGet 0 (getDie s d).sched i).toNat
  let s := modDie s d fun x => { x with sched := smSet 0 x.sched i (BitVec.ofNat 256 (nextEntry e (dieTime s d))), fired := smDel x.fired i }
  match s.regions.find? fun r => r.pa == bits e 64 64 with
  | none => s
  | some r =>
    let s := fresh s
    let s := modDie s d fun x => { x with fired := smPut x.fired i s.seq }
    let (s, k) := loadKernel s r (newKernel s.seq none 0 r.part 0 (bits e 128 64) (some (d, i)))
    { s with kernels := s.kernels ++ [k] }

/-- SCHEDULE_TABLE_FIRING (R315): When TIME reaches TICK, a valid schedule entry launches its kernel and advances TICK. -/
def execScheduleTableFiring (die : Nat) (i : Nat) (dt : Nat) (st : State) : Host.Outcome State Fault Refusal :=
  .next (let st := advanceTime st dt
    if entryDue st die i ∧ !(List.range i).any (entryDue st die) then fireEntry st die i else st)

/-! ### Dispatch -/

/-- Bytes from image to image of a task saved whole (R218, R350). -/
def saveStride : Nat := 0x1C2000

/-- A cell can take a member of a kernel's task (R230, R232, R306, R399). One that still has records of an earlier task to write takes
none, because they go to that task's rings (R26). -/
def freeFor (s : State) (r : Region) (k : Kernel) (n : Nat) : Bool :=
  let x := getCell s n
  x.task.isNone && x.ok && !x.hold && !x.frzReq && x.records.isEmpty && !scanRuns s n && r.cells.contains n && useFits x (kUse k) &&
    !(getDie s (dieOf n)).hot

/-- The next task of a kernel: its coordinate number, and the base of its images when it was saved (R316). -/
def nextTask (k : Kernel) : Option (Nat × Option Nat) :=
  match k.saved with
  | (c, b, _) :: _ => some (c, some b)
  | [] => if k.next < kTw k * kTh k then some (k.next, none) else none

/-- The cell a co-resident task's leader must lie on (R233). -/
def coresLead (r : Region) (k : Kernel) (c : Nat) : Option Nat :=
  (rectOf r.cells).map fun o => o.1 + 16 * (c / kTw k) + kG k * (c % kTw k)

/-- Every cell that the tasks of a co-resident kernel need (R233). -/
def coresCells (r : Region) (k : Kernel) : List Nat :=
  ((List.range (kTw k * kTh k)).map fun c => match coresLead r k c with
    | some l => (List.range (kG k)).map (l + ·)
    | none => []).flatten

/-- The next task of a kernel may be placed with its leader on a cell (R232, R233). -/
def placeAt (s : State) (k : Kernel) (lead : Nat) : Bool :=
  match regionOf s k.part, nextTask k with
  | some r, some (c, saved) =>
    decide (lead % 16 + kG k ≤ 16) && ((List.range (kG k)).map (lead + ·)).all (freeFor s r k) &&
      (!kCores k || (coresLead r k c == some lead && (saved.isSome || (coresCells r k).all (freeFor s r k))))
  | _, _ => false

/-- Tasks of a kernel are ready to be dispatched (R309, R316, R332). -/
def ready (s : State) (k : Kernel) : Bool :=
  k.state == 1 && (nextTask k).isSome && !(lineage s k.part 9).any (·.frozen.isSome) &&
    ((tctxKey s k.part).isNone || (let td := (getHost s (tctxFunc (tctxOf s k.part false))).tdisp; td == 0 || td == 2))

/-- PRIO of a kernel's region, its turn count, and how long ago its saved task was pre-empted: the last one stands first (R316). -/
def rank (s : State) (k : Kernel) : Nat × Nat × Nat × Nat :=
  match regionOf s k.part with
  | some r => (15 - regionField s r 5 86 4, r.turn, k.part.toNat, match k.saved with | e :: _ => s.seq - e.2.2 | [] => s.seq + 1)
  | none => (16, 0, 0, 0)

/-- Lexicographic order of ranks. -/
def before (a b : Nat × Nat × Nat × Nat) : Bool :=
  decide (a.1 < b.1) || (a.1 == b.1 && (decide (a.2.1 < b.2.1) || (a.2.1 == b.2.1 &&
    (decide (a.2.2.1 < b.2.2.1) || (a.2.2.1 == b.2.2.1 && decide (a.2.2.2 < b.2.2.2))))))

/-- The next task of a kernel may be placed on some cell of a die. -/
def placeOn (s : State) (k : Kernel) (d : Nat) : Bool := (List.range 128).any fun i => placeAt s k (128 * d + i)

/-- The scheduler of a die serves this kernel next among those that could place a task there (R316). -/
def served (s : State) (k : Kernel) (d : Nat) : Bool :=
  let r := rank s k
  let others := s.kernels.filter fun x => x.kid != k.kid && ready s x && placeOn s x d
  let earlier := s.kernels.takeWhile fun x => x.kid != k.kid
  !others.any fun x => before (rank s x) r || (!before r (rank s x) && earlier.any fun y => y.kid == x.kid)

/-- The user context that a task starts with (R231). -/
def startCtx (k : Kernel) (tx ty r : Nat) : Ctx :=
  let d := k.desc.toNat
  let gw := kG k - 1
  { Ctx.zero with
    pc := BitVec.ofNat 64 (bits d 0 64)
    lead := BitVec.ofNat 8 (r * kSkew k)
    x := smSet 0 (smSet 0 [] 1 (BitVec.ofNat 64 (bits d 128 64))) 2 (BitVec.ofNat 64 (bits d 480 32))
    cr := smSet 0 (smSet 0 [] 0x103 (BitVec.ofNat 64 (bits d 342 1))) 0x104 (BitVec.ofNat 64 (bits d 341 1))
    rankx := BitVec.ofNat 64 (tx + kTw k * 2 ^ 16 + r * 2 ^ 32 + gw * 2 ^ 36)
    ranky := BitVec.ofNat 64 (ty + kTh k * 2 ^ 16) }

/-- A cell takes a member of a task, with the state of R231 and the owners of R306. -/
def startCell (s : State) (k : Kernel) (n tx ty r num : Nat) : State :=
  let d := k.desc.toNat
  modCell s n fun x =>
    let keep := x.lastPart == k.part
    { x with
      user := startCtx k tx ty r
      acc := [], rcnt := [], tcnt := [], slices := [], l1 := (x.l1.map fun e => (e.1, l1Clean e.2)).filter fun e => e.2.words != []
      spad := if keep then x.spad else []
      isp0 := if keep then x.isp0 else []
      isp1 := if keep then x.isp1 else []
      ispAct := keep && x.ispAct
      dict := loadEntries (if keep then x.dict else []) k.image
      poison := x.poison.filter fun p => keep && (p.1 == 6 || p.1 == 8 || (p.1 == 7 && !k.image.any fun e => e.1 == p.2.1))
      exlbase := BitVec.ofNat 64 (bits d 260 44 * 16), exlsize := BitVec.ofNat 64 (bits d 336 5), exlhead := 0
      fwshare := BitVec.ofNat 64 (bits d 329 7)
      task := some ⟨k.kid, tx, ty, r, num⟩
      owners := if k.part = 0 then [] else (List.range 28).map fun i => (i, k.part)
      arrivals := x.arrivals.filter fun a => a.fw || (keep && !a.sync)
      saving := none, wasHeld := false, image := none
      enjCharged := x.enj
      lastPart := k.part }

/-- A region's turn count grows by one task (R316). -/
def takeTurn (s : State) (p : BitVec 16) : State :=
  match regionOf s p with
  | none => s
  | some r =>
    let e := (groupRegion s r 1 8).erem
    modRegion s p fun r => { r with turn := r.turn + 2 ^ 32 / (max 1 (e / 1000)).toNat }

/-- A task is placed with its leader on a cell: started anew, or restored from its images (R232, R361 to R364). -/
def bindTask (s : State) (k : Kernel) (c : Nat) (saved : Option Nat) (lead : Nat) : State :=
  let tx := c % kTw k
  let ty := c / kTw k
  let s := fresh s
  let num := s.seq
  let one (s : State) (r : Nat) : State :=
    let s := startCell s k (lead + r) tx ty r num
    match saved with
    | some b => readImage s (lead + r) (b + r * saveStride) 0x0FFFFFFF
    | none => replayStart s (lead + r) ⟨k.kid, tx, ty, r, num⟩
  let s := (List.range (kG k)).foldl one s
  let s := if k.started || s.newKernels.contains k.kid then s else { s with newKernels := s.newKernels ++ [k.kid] }
  let s := modKernel s k.kid fun k =>
    match saved with
    | some _ => { k with saved := k.saved.tail, running := k.running ++ [c], started := true }
    | none => { k with next := c + 1, running := k.running ++ [c], started := true }
  takeTurn s k.part

/-- The images of a saved task are whole (R355). -/
def imagesOk (s : State) (k : Kernel) (saved : Option Nat) (lead : Nat) : Bool :=
  match saved with
  | none => true
  | some b => (List.range (kG k)).all fun r => imageStatus s (lead + r) (b + r * saveStride) 0x0FFFFFFF == 0

/-- Dispatch of the next task of a kernel; a co-resident kernel starts all its tasks at once (R233). -/
def dispatch (s : State) (k : Kernel) (lead : Nat) : State :=
  match regionOf s k.part, nextTask k with
  | some r, some (c, saved) =>
    if !imagesOk s k saved lead then s
    else if kCores k && saved.isNone then
      (List.range (kTw k * kTh k)).foldl (fun s c => match coresLead r k c with
        | some l => bindTask s k c none l
        | none => s) s
    else bindTask s k c saved lead
  | _, _ => s

/-- TASK_DISPATCH (R232): A die scheduler binds a ready tile task to free cells and starts it. -/
def execTaskDispatch (kid : Nat) (lead : Nat) (st : State) : Host.Outcome State Fault Refusal :=
  .next (match kernelOf st kid with
    | some k => if ready st k && placeAt st k lead && served st k (dieOf lead) then dispatch st k lead else st
    | none => st)

/-! ### Pre-emption -/

/-- The cells of a task. -/
def taskCells (s : State) (t : TaskRef) : List Nat :=
  (listed s).filter fun n => match (getCell s n).task with
    | some u => u.kid == t.kid && u.tx == t.tx && u.ty == t.ty
    | none => false

/-- The region whose SAVE area holds the images of a region's tasks (R408). -/
def saveArea (s : State) (p : BitVec 16) : Option Region := (lineage s p 9).find? fun r => rcbField r 864 32 != 0

/-- The images that Sirvy holds: base and length (R408): of saved tasks, and of the cells that it saves or has saved (R382), but for those
whose save the hypervisor ended (R360). -/
def liveImages (s : State) : List (Nat × Nat) :=
  ((s.kernels.map fun k => k.saved.map fun e => (e.2.1, kG k * saveStride)).flatten) ++
    s.cells.filterMap fun e => match e.2.image with
      | some g => if g.whole && g.done == 0 then none else some (g.base, saveStride)
      | none => none

/-- A place for the images of a task (R408). -/
def placeImages (s : State) (p : BitVec 16) (g base : Nat) : Bool :=
  match saveArea s p with
  | none => false
  | some r =>
    let a := rcbField r 800 64
    let n := 4096 * rcbField r 864 32
    base % 4096 == 0 && decide (a ≤ base) && decide (base + g * saveStride ≤ a + n) &&
      !(liveImages s).any fun i => overlap base (g * saveStride) i.1 i.2

/-- The first place in a save area for the images of a task: where the area begins, or where another task's images end. No place is
free when none of these is (R408, log 1). -/
def firstPlace (s : State) (p : BitVec 16) (g : Nat) : Option Nat :=
  match saveArea s p with
  | none => none
  | some r =>
    let ends := (liveImages s).map fun i => (i.1 + i.2 + 4095) / 4096 * 4096
    (rcbField r 800 64 :: ends).find? (placeImages s p g)

/-- A task, by the cell of its leader, may make room for a kernel of a region (R316): it runs on such a cell, whose die takes work (R399),
its PRIO is lower, PRE is 1, there is a place for its images, no scan runs on its cells, and none of them has failed (R382). What holds its
cells is no matter. -/
def victimRank (s : State) (r : Region) (k : Kernel) (n : Nat) : Option (Nat × Nat) :=
  let x := getCell s n
  match x.task, regionOf s (seqOwner x) with
  | some t, some q =>
    let p := regionField s q 5 86 4
    let ns := taskCells s t
    if t.rank = 0 ∧ ns.any (fun m => r.cells.contains m && useFits (getCell s m) (kUse k) && !(getDie s (dieOf m)).hot) ∧
        ns.all (fun m => !scanRuns s m && (getCell s m).failed == 0) ∧ p < regionField s r 5 86 4 ∧
        regionField s q 8 95 1 = 1 ∧ (firstPlace s q.part ns.length).isSome then some (p, t.num) else none
  | _, _ => none

/-- The same for a task that is not being saved. -/
def victimOf (s : State) (r : Region) (k : Kernel) (n : Nat) : Option (Nat × Nat) :=
  if (getCell s n).saving.isSome then none else victimRank s r k n

/-- The task that the scheduler would pre-empt: lowest PRIO, then dispatched last (R316). -/
def chosenVictim (s : State) (r : Region) (k : Kernel) : Option Nat :=
  let l := (listed s).filterMap fun n => (victimOf s r k n).map fun v => (n, v)
  match l with
  | [] => none
  | v :: vs => some (vs.foldl (fun a b => if b.2.1 < a.2.1 ∨ (b.2.1 = a.2.1 ∧ a.2.2 < b.2.2) then b else a) v).1

/-- A save of Sirvy's own goes on with the image of a cell: what is left of its bytes is written, and the D words of the cell are written
back; or a page whose pin fails holds the save back (R349, R352, R359, R360). bytes: those of an image that is not begun. -/
def saveOne (s : State) (n base bytes : Nat) : State :=
  let x := getCell s n
  let g := x.image.getD ⟨base, bytes, 0, false⟩
  let len := imageBytes 0x0FFFFFFF
  let put (s : State) (k : Nat) : State := modCell s n fun x => { x with image := some { g with done := k } }
  match pinFails s (seqOwner x) (g.base + g.done) (len - g.done) with
  | some p => holdSave (put (imagePart s g.base g.val g.done (p - g.base)) (p - g.base)) n (seqOwner x).toNat p
  | none => if g.done < len then put (scanned (imagePart s g.base g.val g.done len) n 0x0FFFFFFF) len else s

/-- The images of some cells, in order, until one is held back (R360). -/
def saveAll (bytes : State → Nat → Nat) : State → List (Nat × Nat) → State
  | s, [] => s
  | s, (n, base) :: l =>
    let s := saveOne s n base (bytes s n)
    if saveHeld s [n] then s else saveAll bytes s l

/-- The images of some cells are written and their D words at home: VALID follows (R253, R352). -/
def saveWhole (s : State) (valid : Nat → Nat) (ns : List Nat) : State :=
  ns.foldl (fun s n => match (getCell s n).image with
    | some g => modCell (imageValid s g.base (valid n)) n fun x => { x with image := some ⟨g.base, 0, g.done, true⟩ }
    | none => s) s

/-- The cells of a task with the places of their images from a base on, in rank order. -/
def imagePlaces (s : State) (ns : List Nat) (base : Nat) : List (Nat × Nat) :=
  ns.map fun n => (n, base + (match (getCell s n).task with | some u => u.rank | none => 0) * saveStride)

/-- Where the images of a task lie that a save has begun. -/
def savedBase (s : State) (ns : List Nat) : Option Nat :=
  (imagePlaces s ns 0).findSome? fun e => (getCell s e.1).image.map fun g => g.base - e.2

/-- A saved task leaves its cells, which go to a new owner (R364, R408). -/
def leaveTask (s : State) (t : TaskRef) (ns : List Nat) (base : Nat) (owner : BitVec 16) : State :=
  let tw := match kernelOf s t.kid with | some k => kTw k | none => 1
  let out (s : State) (n : Nat) : State :=
    (List.range 28).foldl (fun s g => ownSeg s n owner g) (freeAt (closeFreeze (chargeCell s n) n) n)
  let s := fresh (ns.foldl out s)
  let c := t.ty * tw + t.tx
  modKernel s t.kid fun k => { k with saved := (c, base, s.seq) :: k.saved, running := k.running.filter (· != c) }

/-- The scheduler gives a save up that it has not begun: it takes away the HOLD that it set (R316, R364). -/
def thaw (s : State) (ns : List Nat) : State :=
  ns.foldl (fun s n => modCell s n fun x => if x.wasHeld then { x with saving := none, wasHeld := false } else release x) s

/-- A save that the scheduler made goes no further, and its cells stay as they are. -/
def noSave (s : State) (ns : List Nat) : State :=
  ns.foldl (fun s n => modCell s n fun x => { x with saving := none, wasHeld := false, image := none }) s

/-- A kernel still waits for the room that a pre-emption makes: it has a task ready, and no cell for it. -/
def stillWaits (s : State) (kid : Nat) : Bool :=
  match kernelOf s kid with
  | some k => ready s k && (match regionOf s k.part with | some r => !r.cells.any (placeAt s k) | none => false)
  | none => false

/-- A pre-emption whose victim is frozen for a kernel goes on (R316, R348, R360, R364): once the victim is quiescent its images are
written, and when their writebacks are performed the task leaves its cells and the kernel's task is dispatched. Where the kernel does
not wait any more, or no place is left for the images, before they are begun, the victim goes on; and where one of its cells has failed,
GANGFAIL saves it instead (R382). -/
def preemptSave (st : State) (kid victim : Nat) (t : TaskRef) (base : Nat) : State :=
  let ns := taskCells st t
  let p := seqOwner (getCell st victim)
  let begun := savedBase st ns
  if ns.any fun n => (getCell st n).failed != 0 then noSave st ns
  else if begun.isNone ∧ (!stillWaits st kid ∨ (firstPlace st p ns.length).isNone) then thaw st ns
  else if begun.isNone ∧ (!placeImages st p ns.length base ∨ !ns.all (quiescent st)) then st
  else
    let base := begun.getD base
    let st := saveAll (fun s n => imageHeld s n 0x0FFFFFFF (seqOwner (getCell s n)).toNat fun _ v => v) st (imagePlaces st ns base)
    if saveHeld st ns ∨ ns.any (wbOut st) then st
    else
      let st := saveWhole st (fun _ => 1) ns
      match kernelOf st kid with
      | some k =>
        let st := leaveTask st t ns base k.part
        if ready st k && placeAt st k victim && served st k (dieOf victim) then dispatch st k victim else st
      | none => leaveTask st t ns base p

/-- The cell whose task a pre-emption for a kernel would freeze (R316, log 1). -/
def preemptFor (s : State) (k : Kernel) : Option Nat :=
  match regionOf s k.part with
  | none => none
  | some r => if !ready s k || r.cells.any (placeAt s k) then none else chosenVictim s r k

/-- The place that the automatic order gives a save: the first free one for the task of a cell (log 1). -/
def autoPlace (s : State) (n : Nat) : Nat :=
  (firstPlace s (seqOwner (getCell s n)) (match (getCell s n).task with | some t => (taskCells s t).length | none => 1)).getD 0

/-- PREEMPTION (R364): The scheduler freezes a lower-priority task, scans it out, changes the owner and dispatches the waiting
task. The first call freezes the victim, which the later ones save, whatever kernel they name. -/
def execPreemption (kid : Nat) (victim : Nat) (base : Nat) (st : State) : Host.Outcome State Fault Refusal :=
  .next (match (getCell st victim).task with
    | none => st
    | some t =>
      let ns := taskCells st t
      if saveHeld st ns then st
      else match (getCell st victim).saving with
        | some w => preemptSave st w victim t base
        | none =>
          match kernelOf st kid with
          | none => st
          | some k =>
            (match regionOf st k.part with
             | none => st
             | some r =>
               if ready st k && !r.cells.any (placeAt st k) && decide (chosenVictim st r k = some victim) &&
                   placeImages st (seqOwner (getCell st victim)) ns.length base then
                 let st := ns.foldl (fun st n => modCell st n fun x => { x with saving := some kid, wasHeld := x.hold }) st
                 holdCells st 8 victim ns
               else st))

/-! ### Completion and retirement -/

/-- A member of an ended task has landed everything, and its ce commands have completed (R112). What firmware has under way is no
matter (R15). -/
def endReady (x : Cell) : Bool :=
  x.user.pkind == 2 && landedAll x x.user false && x.soq.all (·.org.fw) && x.ce.all (·.cmd.org.fw) && x.ceDone.all (·.cmd.org.fw) &&
    !x.hold && x.inbox.all (·.fw) && x.rets.all (·.fw) && x.engq.all fun e => match e with | .ce _ k => k.org.fw | _ => true

/-- The release of a member has been performed (R112, R252). -/
def endReleased (s : State) (n : Nat) : Bool :=
  let x := getCell s n
  x.user.target != 0 && x.markers.all (·.fw) && x.storeb.all (storeFw x.markers) && x.engq.all engFw &&
    !s.chan.any fun m => m.cell == n && !m.org.fw

/-- A task ends: its cells are charged and free (R227, R236, R397). -/
def endTask (s : State) (t : TaskRef) (ns : List Nat) : State :=
  let s := ns.foldl (fun s n => freeAt (closeFreeze (chargeCell s n) n) n) s
  modKernel s t.kid fun k =>
    let c := t.ty * kTw k + t.tx
    let k := { k with ended := k.ended + 1, running := k.running.filter (· != c) }
    if k.ended = kTw k * kTh k then { k with state := 2, status := 1, rel := s.seq } else k

/-- TASK_COMPLETION (R112): After br.end, once results have landed, commands are done and the release completes, the cell reports
completion. The first call places the release marker of each member. -/
def execTaskCompletion (n : Nat) (st : State) : Host.Outcome State Fault Refusal :=
  .next (match (getCell st n).task with
    | none => st
    | some t =>
      let ns := taskCells st t
      -- a die that is frozen for its heat ends no task (R399)
      if !ns.all fun m => endReady (getCell st m) && !(getDie st (dieOf m)).melted then st
      else if ns.all (endReleased st) then tryActivate (endTask st t ns)
      else if ns.all fun m => (getCell st m).user.target == 0 then
        ns.foldl (fun st m =>
          let st := pushMarker st m 3 false false
          modCtx st m false fun c => { c with target := BitVec.ofNat 64 (st.seq + 1) }) st
      else st)

/-- The records that the cells of a kernel's region held when it ended have been performed (R26). -/
def recordsOut (s : State) (k : Kernel) : Bool :=
  match regionOf s k.part with
  | none => true
  | some r => r.cells.all fun n =>
      !((getCell s n).records.any fun e => decide (e.id ≤ k.rel)) &&
        !s.chan.any fun m => m.cell == n && (match m.op with
          | .record _ _ _ rid => decide (rid ≤ k.rel)
          | _ => false)

/-- Word 0 of a retired packet: V = 0 and STATUS, TYPE and the reserved bits kept (R367). -/
def retiredWord (k : Kernel) : Nat := setBits (bits k.packet.toNat 1 15 * 2 + bits k.packet.toNat 32 32 * 2 ^ 32) 16 16 k.status

/-- The kernel's tasks ran or were stopped, so that its signal is decremented (R313). -/
def decrements (k : Kernel) : Bool :=
  (k.entry.isSome || bits k.packet.toNat 1 3 == 1) && [1, 2, 3, 4, 9].contains k.status

/-- The status of a kernel is written: word 0 of its packet, or the schedule entry whose last firing it is; RD moves past a packet that was never
admitted (R315, R366, R367). -/
def retireWord (s : State) (k : Kernel) : State :=
  let s := match k.q with
    | some q =>
      let u := queueOf s q
      let s := cpWrite64 s (tctxOf s k.part false) (slotOf u k.pidx) (retiredWord k)
      modQueue s q fun u => if qRd u = k.pidx then setRd (k.pidx + 1) u else u
    | none => s
  match k.entry with
  | some (d, i) =>
    if smGet 0 (getDie s d).fired i ≠ k.kid then s else modDie s d fun x =>
      { x with sched := smSet 0 x.sched i (BitVec.ofNat 256 (setBits (smGet 0 x.sched i).toNat 216 8 k.status)) }
  | none => s

/-- SIGNAL is decremented by 1 when it names a signal (R313, R367, R407). -/
def decrement (s : State) (k : Kernel) : State :=
  let t := tctxOf s k.part false
  if kSignal k = 0 then s
  else
    match cpRead64 s t (kSignal k) with
    | none => s
    | some (s', v) => cpWrite64 s' t (kSignal k) ((v + 2 ^ 64 - 1) % 2 ^ 64)

/-- PACKET_RETIREMENT (R367): The CP releases, which waits for every older message to the host, writes word 0 with STATUS, and then, as
a step of its own, decrements SIGNAL; a signal in host memory lies behind the device-to-host queue (R261). -/
def execPacketRetirement (kid : Nat) (st : State) : Host.Outcome State Fault Refusal :=
  .next (match kernelOf st kid with
    | none => st
    | some k =>
      let gone (s : State) : State := { s with kernels := s.kernels.filter fun x => x.kid != kid }
      let go (s : State) : State := match k.q with | some q => takeIn s q | none => s
      if k.state = 2 then
        if hostBehind st k.rel then st else
        let st := retireWord st k
        if decrements k then go (modKernel st kid fun k => { k with state := 3, rel := st.seq }) else go (gone st)
      else if k.state = 3 ∧ recordsOut st k ∧ !cpHeld st (tctxOf st k.part false) (kSignal k) k.rel then
        let st := addErem (decrement st k) (budgetOf st k.part) k.reserve
        gone st
      else st)

end Sys2Proof.Machine
end

