-- ==== Sys2Proof/Machine/Hyper.lean ====
section
/-!
DEFINITION. The answers of the hypervisor to second-stage faults of walks and of scans (R326, R360): HVRESP_RETRY, HVRESP_REFLECT
and HVRESP_KILL. An answer that names a cell without a held fault changes nothing.
-/

namespace Sys2Proof.Machine

/-- The scan of a die that a save fault holds back at a cell: its place in the list (R360). -/
def heldScan (s : State) (n : Nat) : Option (Nat × SysCmd) :=
  let d := dieOf n
  let l := (getDie s d).sys
  (findIdx' (fun p => scanLive p.2 && p.2.held && (scanCells d p.2).getD p.2.next 0 == n) ((List.range l.length).zip l) 0).map (·.2)

/-- The command that holds back a save of Sirvy's own leaves the die. -/
def dropHeld (s : State) (n i : Nat) : State := modDie s (dieOf n) fun x => { x with sys := x.sys.eraseIdx i }

/-- A save of Sirvy's own ends at a cell (R360): a victim of the scheduler goes on in its cells (R316), and a failed group's images count as
given up, so that its record and the policy follow (R382). No image of it becomes valid. -/
def endSave (s : State) (n : Nat) : State :=
  let x := getCell s n
  if x.saving.isSome then
    match x.task with
    | some t => thaw (noImages s (taskCells s t)) (taskCells s t)
    | none => s
  else (members s n).foldl (fun s m => modCell s m fun x => { x with image := some ⟨0, 0, 0, true⟩ }) s
where
  /-- The images of some cells are given up. -/
  noImages (s : State) (ns : List Nat) : State := ns.foldl (fun s n => modCell s n fun x => { x with image := none }) s

/-- A held scan ends with SAVEFLT; a save of Sirvy's own has no record (R360, log 61). -/
def endHeld (s : State) (n i : Nat) (c : SysCmd) : State :=
  if c.trig = 8 then endSave (dropHeld s n i) n
  else setSys s (dieOf n) i { c with held := false, status := some 0x16 }

/-- A held scan checks its pin again and goes on with what it holds; a save of Sirvy's own goes on from the bytes that it holds with its
next PREEMPTION or GANGFAIL (R360). -/
def retryScan (s : State) (n i : Nat) (c : SysCmd) : State :=
  if c.trig = 8 then dropHeld s n i else scanMove s (dieOf n) i { c with held := false }

/-- A held walk is made again from the start (R326). -/
def retryWalk (st : State) (n : Nat) (w : WalkHold) : State :=
  let st := modCtx st n false fun c => { c with walk := none }
  if w.fetch then lineArrival (modCtx st n false fun c => { c with want := some w.va }) n false w.va
  else walkBody st n false

/-- A held walk ends with the trap of R325, filed in the region's fault queue (R326). -/
def reflectWalk (st : State) (n : Nat) (w : WalkHold) : State :=
  trapNow (modCtx st n false fun c => { c with walk := none }) n false
    (if w.fetch then 6 else 5, if w.fetch then 14 else 15, false, w.info0, w.info1)

/-- The kernel of the task on a cell is killed with FAULTKILL (R317, R326). A failed cell whose save this ends keeps the mark that it is
ended (R382). -/
def killAt (st : State) (n : Nat) : State :=
  match (getCell st n).task with
  | some t =>
    let failed := (taskCells st t).filter fun m => (getCell st m).failed == 1 && (getCell st m).image.isSome
    let st := killKernel st t.kid 9
    tryActivate (failed.foldl (fun st m => modCell st m fun x => { x with image := some ⟨0, 0, 0, true⟩ }) st)
  | none => st

/-- What a hypervisor answer does to the walk a cell holds, or else to the scan held back at it. -/
def answerHeld (st : State) (n : Nat) (onWalk : WalkHold → State) (onScan : Nat → SysCmd → State) : State :=
  match (getCtx st n false).walk, heldScan st n with
  | some w, _ => onWalk w
  | none, some (i, c) => onScan i c
  | none, none => st

/-- HVRESP with ACT retry, reflect and kill for a cell (R326, R360). -/
def hvRetry (n : Nat) (st : State) : State := answerHeld st n (retryWalk st n) (retryScan st n)
@[inherit_doc hvRetry] def hvReflect (n : Nat) (st : State) : State := answerHeld st n (reflectWalk st n) (endHeld st n)
@[inherit_doc hvRetry] def hvKill (n : Nat) (st : State) : State :=
  answerHeld st n (fun _ => killAt st n) fun i c => killAt (endHeld st n i c) n

/-- A write of HVRESP (R326). -/
def hvrespWrite (st : State) (v : Word) : State :=
  let n := bits v.toNat 0 10
  match bits v.toNat 16 2 with
  | 1 => hvReflect n st
  | 2 => hvKill n st
  | _ => hvRetry n st

/-- HVRESP_RETRY (R326): A hypervisor answer that restarts a held second-stage walk, or re-checks a scan pin. -/
def execHvrespRetry (n : Nat) (st : State) : Host.Outcome State Fault Refusal := .next (hvRetry n st)

/-- HVRESP_REFLECT (R326): A hypervisor answer that ends a held walk with a trap filed in the region's queue, or ends a scan. -/
def execHvrespReflect (n : Nat) (st : State) : Host.Outcome State Fault Refusal := .next (hvReflect n st)

/-- HVRESP_KILL (R326): A hypervisor answer that kills the region's kernel with FAULTKILL. -/
def execHvrespKill (n : Nat) (st : State) : Host.Outcome State Fault Refusal := .next (hvKill n st)

end Sys2Proof.Machine
end

