-- ==== Sys2Proof/Machine/Security.lean ====
section
/-!
DEFINITION. The security processor: the TDISP interface state machine of a function (R332) and the SPDM responder (R333). The order of
requests that makes a session and the response codes are those of SPDM 1.3 and of TDISP, from outside the manual (log 10, PRESUMED).
A response is a code and a value; no message carries bytes here.
-/

namespace Sys2Proof.Machine

/-- Answer a function. -/
def respond (s : State) (f code : Nat) (v : BitVec 512) : State := modHost s f fun h => { h with resp := (code, v) }

/-- The security processor refuses a request (log 10). -/
def refuseSpdm (s : State) (f : Nat) : State := respond s f 0x7F 0

/-! ### Measurements -/

/-- What a measurement index measures (R333): 1 the Sirvy image, 2 the firmware of the security processor, which is no state here, 3 the life-cycle state,
0x10 + FUNC the second stage of a function. -/
def measured (s : State) (idx : Nat) : List Nat :=
  if idx = 1 then [s.fwcode]
  else if idx = 3 then [bits s.lcstat.toNat 0 3]
  else if idx < 0x10 then []
  else
    let f := idx - 0x10
    match ctxOfFunc s f with
    | none => [0, 0, f]
    | some (_, t) =>
      [s2root t, bits t.reg.toNat 32 16, f] ++
        ((stage2Leaves s t).map fun l => [l.1, l.2.2.1 - (l.2.2.1 &&& 12)]).flatten

/-- The indices that name a measurement (R333). -/
def measureIndex (idx : Nat) : Bool := idx == 1 || idx == 2 || idx == 3 || (decide (0x10 ≤ idx) && decide (idx < 0x110))

/-- A measurement as computed now: the SHA-512 digest, which is a free value (log 6), of what the index measures (R333). -/
def measureNow (s : State) (idx : Nat) : BitVec 512 := Config.digest idx (measured s idx)

/-! ### TDISP messages -/

/-- The function has its secure session (R332). -/
def secure (s : State) (f : Nat) : Bool := (getHost s f).spdm == 5

/-- A lock message (R332): the context is locked and its measurement taken; from another state a TDISP error and no change. -/
def lockBody (s : State) (f : Nat) : State :=
  if secure s f ∧ (getHost s f).tdisp = 0 then
    modHost s f fun h => { h with tdisp := 1, measure := measureNow s (0x10 + f), invs := 0, resp := (0x03, 0) }
  else refuseSpdm s f

/-- A start message (R332): RUN from CONFIG_LOCKED; from another state a TDISP error and no change. -/
def startBody (s : State) (f : Nat) : State :=
  if secure s f ∧ (getHost s f).tdisp = 1 then modHost s f fun h => { h with tdisp := 2, resp := (0x06, 0) } else refuseSpdm s f

/-- A stop message (R332): CONFIG_UNLOCKED from any state. -/
def stopBody (s : State) (f : Nat) : State :=
  if secure s f then modHost s f fun h => { h with tdisp := 0, resp := (0x07, 0) } else refuseSpdm s f

/-- LOCK_INTERFACE_REQUEST (R332): A TDISP message that locks a function's context and takes its measurement. -/
def execLockInterfaceRequest (f : Nat) (st : State) : Host.Outcome State Fault Refusal := .next (lockBody st f)

/-- START_INTERFACE_REQUEST (R332): A TDISP message that moves a locked function to RUN. -/
def execStartInterfaceRequest (f : Nat) (st : State) : Host.Outcome State Fault Refusal := .next (startBody st f)

/-- STOP_INTERFACE_REQUEST (R332): A TDISP message that returns a function to CONFIG_UNLOCKED. -/
def execStopInterfaceRequest (f : Nat) (st : State) : Host.Outcome State Fault Refusal := .next (stopBody st f)

/-- TDISP_ERROR (R332): A locked-context write, end of session, function reset or life-cycle change puts a function in ERROR and kills
its kernels. -/
def execTdispError (f : Nat) (st : State) : Host.Outcome State Fault Refusal := .next (functionError st f)

/-! ### SPDM requests -/

/-- A request that the progress of the session allows, from lo to hi: it moves the progress up to next, and is answered (R333). -/
def spdmStep (s : State) (f lo hi next code : Nat) : State :=
  let p := (getHost s f).spdm
  if lo ≤ p ∧ p ≤ hi then modHost s f fun h => { h with spdm := max p next, resp := (code, 0) } else refuseSpdm s f

/-- GET_VERSION (R333): An SPDM request answered by the security processor. -/
def execGetVersion (f : Nat) (st : State) : Host.Outcome State Fault Refusal := .next (spdmStep st f 0 5 1 0x04)

/-- GET_CAPABILITIES (R333): An SPDM request answered by the security processor. -/
def execGetCapabilities (f : Nat) (st : State) : Host.Outcome State Fault Refusal := .next (spdmStep st f 1 5 2 0x61)

/-- The algorithms of R333, which are fixed. -/
def fixedAlgs : List SpdmAlg := [.ed25519, .sha512, .secp384r1, .aes256gcm]

/-- NEGOTIATE_ALGORITHMS (R333): An SPDM request that settles the fixed algorithms. -/
def execNegotiateAlgorithms (f : Nat) (st : State) : Host.Outcome State Fault Refusal :=
  .next (if 2 ≤ (getHost st f).spdm ∧ (getHost st f).spdm ≤ 5 then
      modHost (spdmStep st f 2 5 3 0x63) f fun h => { h with algs := fixedAlgs }
    else spdmStep st f 2 5 3 0x63)

/-- GET_DIGESTS (R333): An SPDM request for certificate digests. -/
def execGetDigests (f : Nat) (st : State) : Host.Outcome State Fault Refusal := .next (spdmStep st f 3 5 3 0x01)

/-- GET_CERTIFICATE (R333): An SPDM request for a certificate. -/
def execGetCertificate (f : Nat) (st : State) : Host.Outcome State Fault Refusal := .next (spdmStep st f 3 5 3 0x02)

/-- CHALLENGE (R333): An SPDM challenge request. -/
def execChallenge (f : Nat) (st : State) : Host.Outcome State Fault Refusal := .next (spdmStep st f 3 5 3 0x03)

/-- GET_MEASUREMENTS (R333): An SPDM request that computes and returns measurements, including each function's stage-2 digest. The
count of the invalidations since CONFIG_LOCKED follows the digest of a function. -/
def execGetMeasurements (f : Nat) (idx : Nat) (st : State) : Host.Outcome State Fault Refusal :=
  .next (if 3 ≤ (getHost st f).spdm ∧ measureIndex idx then
      let n := if idx < 0x10 then 0 else (getHost st (idx - 0x10)).invs.toNat
      respond st f (0x60 + n * 2 ^ 8) (measureNow st idx)
    else refuseSpdm st f)

/-- KEY_EXCHANGE (R333): An SPDM request that opens a session key exchange. -/
def execKeyExchange (f : Nat) (st : State) : Host.Outcome State Fault Refusal := .next (spdmStep st f 3 4 4 0x64)

/-- FINISH (R333): An SPDM request that finishes session establishment. -/
def execFinish (f : Nat) (st : State) : Host.Outcome State Fault Refusal := .next (spdmStep st f 4 4 5 0x65)

/-- HEARTBEAT (R333): An SPDM session heartbeat request. -/
def execHeartbeat (f : Nat) (st : State) : Host.Outcome State Fault Refusal := .next (spdmStep st f 5 5 5 0x68)

/-- KEY_UPDATE (R333): An SPDM request that updates session keys. -/
def execKeyUpdate (f : Nat) (st : State) : Host.Outcome State Fault Refusal :=
  .next (if secure st f then
      modHost st f fun h => { h with keyUpdates := h.keyUpdates + 1, resp := (0x69, 0) }
    else refuseSpdm st f)

/-- END_SESSION (R333): An SPDM request that ends the secure session, which puts the function in ERROR (R332). -/
def execEndSession (f : Nat) (st : State) : Host.Outcome State Fault Refusal :=
  .next (if secure st f then
      functionError (modHost st f fun h => { h with spdm := 0, algs := [], keyUpdates := 0, resp := (0x6C, 0) }) f
    else refuseSpdm st f)

/-- VENDOR_DEFINED_REQUEST (R333): An SPDM vendor-defined request, which carries the TDISP messages. -/
def execVendorDefinedRequest (f : Nat) (msg : Nat) (st : State) : Host.Outcome State Fault Refusal :=
  .next (match msg with
    | 0x83 => lockBody st f
    | 0x86 => startBody st f
    | 0x87 => stopBody st f
    | _ => refuseSpdm st f)

end Sys2Proof.Machine
end

