-- ==== Sys2Proof/Machine/Debug.lean ====
section
/-!
DEFINITION. The debug block (R297 to R302): HALT, STEP and RUN, which a write of DBGCTL makes, and the accesses through DBGDATA.
Issue.lean holds breakpoints, watchpoints and the stops themselves.
-/

namespace Sys2Proof.Machine

/-- Change the debug block of a cell. -/
def modDbg (s : State) (n : Nat) (f : Debug → Debug) : State := modCell s n fun x => { x with dbg := f x.dbg }

/-- A debugger stop holds the cell (R298). -/
def stopped (s : State) (n : Nat) : Bool := (getCell s n).dbg.stat.getLsbD 0

/-- A halt request (R299, R300): a stop at once, or a precise stop, which the cycles to come look for. -/
def haltBody (s : State) (n : Nat) : State :=
  if (getCell s n).dbg.prec then modDbg s n fun d => { d with precise := some 0 } else dbgStop s n 1 0 9

/-- A step (R299): the whole lockstep group of a stopped cell is released for one cycle, after which the cell stops it again. -/
def stepBody (s : State) (n : Nat) : State :=
  if stopped s n then
    let go (s : State) (m : Nat) : State := modDbg (modCell s m release) m fun d => { d with skip := true }
    modDbg ((lockstep s n).foldl go s) n fun d => { d with precise := some 512 }
  else s

/-- A run (R298, R301): HOLD is cleared as cell.rsm does, which a running scan of the cell refuses (R220), and the first cycle ignores a
breakpoint at the bundle of the stop. -/
def runBody (s : State) (n : Nat) : State :=
  if scanRuns s n then s else
  modDbg (modCell s n release) n fun d => { d with skip := d.skip || (stopped s n), precise := none }

/-- HALT (R299): DBGCTL.HALT requests a debugger stop of the cell's lockstep group. -/
def execHalt (n : Nat) (st : State) : Host.Outcome State Fault Refusal := .next (haltBody st n)

/-- STEP (R299): DBGCTL.STEP releases a stopped cell for one issue cycle. -/
def execStep (n : Nat) (st : State) : Host.Outcome State Fault Refusal := .next (stepBody st n)

/-- RUN (R298): DBGCTL.RUN clears HOLD as cell.rsm does. -/
def execRun (n : Nat) (st : State) : Host.Outcome State Fault Refusal := .next (runBody st n)

/-- The segment and the bit offset that DBGSEL names (R302). -/
def selSeg (s : State) (n : Nat) : Nat := bits (getCell s n).dbg.sel.toNat 56 8
@[inherit_doc selSeg] def selOff (s : State) (n : Nat) : Nat := bits (getCell s n).dbg.sel.toNat 0 32

/-- The access is allowed: the cell is stopped, the partition owns the segment, and the 64 bits lie in its layout (R302). -/
def dbgAllowed (s : State) (n : Nat) (part : BitVec 16) : Bool :=
  stopped s n && decide (selSeg s n < 28) && smGet 0 (getCell s n).owners (selSeg s n) == part &&
    decide (selOff s n + 64 ≤ 8 * segLen (selSeg s n))

/-- A refused access changes nothing, returns zero and sets ERR (R302). -/
def dbgRefuse (s : State) (n : Nat) : State :=
  modDbg s n fun d => { d with stat := d.stat ||| 0x100, data := 0 }

/-- Sirvy makes accesses on behalf of the partition that owns segment SEQ of the cell, and of no other (R297). -/
def dbgFor (s : State) (n part : Nat) : Bool := seqOwner (getCell s n) == BitVec.ofNat 16 part

/-- DBGDATA_READ (R302): A read of DBGDATA returns the state bits named by DBGSEL, or zero with ERR. -/
def execDbgdataRead (n : Nat) (part : Nat) (st : State) : Host.Outcome State Fault Refusal :=
  .next (if !dbgFor st n part then st
    else if dbgAllowed st n (BitVec.ofNat 16 part) then
      let v := bits (segVal st n (selSeg st n)) (selOff st n) 64
      modDbg st n fun d => { d with data := BitVec.ofNat 64 v }
    else dbgRefuse st n)

/-- The named bits take a value (R302); reserved bits stay as they read (R5). A word that is written whole loses its mark (R379). -/
def dbgPut (s : State) (n : Nat) (v : Word) : State :=
  let g := selSeg s n
  let o := selOff s n
  segPut (unmarkAt s n fun p => markPlace p == (g, o / 8) && o % 8 == 0) n g (setBits (segVal s n g) o 64 v.toNat)

/-- DBGDATA_WRITE (R302): A write of DBGDATA replaces the state bits named by DBGSEL, or sets ERR. -/
def execDbgdataWrite (n : Nat) (part : Nat) (v : Word) (st : State) : Host.Outcome State Fault Refusal :=
  .next (if !dbgFor st n part then st
    else if dbgAllowed st n (BitVec.ofNat 16 part) then dbgPut st n v else dbgRefuse st n)

end Sys2Proof.Machine
end

