-- ==== Sys2Proof/Machine/Ras.lean ====
section
/-!
DEFINITION. Errors (R376 to R384): the scrub with its counts, marks and records, the failure map, the group failure of R382, and the
restart of a stopped firmware context (R405).
-/

namespace Sys2Proof.Machine

/-! ### Counts and the failure map -/

/-- Count an uncorrectable word, or a correction, of a die; a count stops at all ones (R377). -/
def countError (s : State) (d : Nat) (ue : Bool) : State :=
  modDie s d fun x =>
    let v := x.ecccnt.toNat
    let lo := if ue then 32 else 0
    { x with ecccnt := BitVec.ofNat 64 (setBits v lo 32 (min (2 ^ 32 - 1) (bits v lo 32 + 1))) }

/-- A unit of a cell enters the failure map (R384). -/
def addFailure (s : State) (n k i : Nat) : State :=
  { s with failmap := if s.failmap.contains (n, k, i) then s.failmap else s.failmap ++ [(n, k, i)] }

/-- A correction in a unit of a cell: the sixteenth within 24 hours of TIME puts the unit in the map (R384). -/
def countCorrection (s : State) (n k i : Nat) : State :=
  let now : Int := s.time.toNat
  let l := (s.corrected.filter fun e => decide (now < e.2.2.2 + 86400000000000)) ++ [(n, k, i, now)]
  let s := { s with corrected := l }
  if 16 ≤ (l.filter fun e => e.1 == n && e.2.1 == k && e.2.2.1 == i).length then addFailure s n k i else s

/-! ### The scrub -/

/-- A word that the scrub reads: a memory address below 2^40 names the 8-byte word that holds it; above, bits [3:0], [19:4],
[35:20] and [42:36] give structure, number, word and cell of the die (R381; the numbering is the model's, log 42). -/
def scrubCell (die a : Nat) : Nat × Nat × Nat × Nat :=
  let b := a - 2 ^ 40
  (128 * die + bits b 36 7, bits b 0 4, bits b 4 16, bits b 20 16)

/-- The record of a word that the scrub found uncorrectable (R378, R381); its syndrome is free. DESIGN CHOICE (log 98): no cell traps, so
BADDR and SCYC are 0, and for a word of memory CELL and PART too. -/
def scrubRecord (s : State) (die n info0 mem : Nat) : State :=
  let j := mem + 2 + (Config.syndrome s.free).toNat * 2 ^ 8
  let part := if mem = 1 then 0 else seqOwner (getCell s n)
  fileFirmware (useFree s) die (faultRecord n 1 false false false 15 0x10 part 0 0 (BitVec.ofNat 64 info0) (BitVec.ofNat 64 j))

/-- Instruction-cache line i among those that a cell holds goes (R376). -/
def dropLine (s : State) (n i : Nat) : State :=
  modCell s n fun x =>
    let m := x.user.ilines.length
    { x with
      user := { x.user with ilines := x.user.ilines.eraseIdx i }
      fw := { x.fw with ilines := if i < m then x.fw.ilines else x.fw.ilines.eraseIdx (i - m) } }

/-- A mark joins those of a cell. -/
def addMark (p : Nat × Nat × Nat) (x : Cell) : Cell :=
  { x with poison := if x.poison.contains p then x.poison else x.poison ++ [p] }

/-- Word w of line i among those that a cell's L1 holds is poisoned: the mark stands with the line and its words (R379, R381). -/
def markL1 (i w : Nat) (x : Cell) : Cell :=
  match x.l1[i]? with
  | none => x
  | some (line, l) =>
    addMark (9, line, w) { x with l1 := smPut x.l1 line { l with
      words := l.words.map fun e => (e.1, if e.1 / 2 = w then { e.2 with poison := true } else e.2) } }

/-- A word of the memory of a die is found in error (R377, R379). file: the scrub found it, and files a record (R378). -/
def scrubMemory (s : State) (die a : Nat) (bad file : Bool) : State :=
  if homeDie a ≠ die then s
  else if bad then
    let w := a / 8
    let s := countError { s with poison := if s.poison.contains w then s.poison else s.poison ++ [w] } die true
    if file then scrubRecord s die 0 (8 * w) 1 else s
  else countError s die false

/-- A word of a cell is found in error (R376 to R379, R384). Structure 9 is a line of L1, 11 one of the instruction cache, 12 a way entry
of L2 tags and line state of the die, which no consumer of R380 reads (log 42). -/
def scrubUnit (s : State) (die a : Nat) (bad file : Bool) : State :=
  let (n, k, i, w) := scrubCell die a
  if !bad then (if k = 12 then countError s die false else countCorrection (countError s die false) n k i)
  else
    let s := countError s die true
    let line := match (getCell s n).l1[i]? with | some e => e.1 | none => i
    let s := if k = 12 then s
      else addFailure (if k = 11 then dropLine s n i else if k = 9 then modCell s n (markL1 i w) else modCell s n (addMark (k, i, w))) n k i
    if file then scrubRecord s die n (cellEccInfo (if 10 < k then 10 else k, if k = 9 then line else i, w)).toNat 0 else s

/-- SCRUB (R378): The Vesper engine reads a protected word in idle cycles, corrects it, or marks it poisoned and reports it. Bit 44 of the
address says that an access comes upon the error first: it is counted and marked, and no record is filed (R377, log 42). -/
def execScrub (die : Nat) (addr : Nat) (bad : Bool) (st : State) : Host.Outcome State Fault Refusal :=
  .next (let a := addr % 2 ^ 44
    let file := !bit addr 44
    if a < 2 ^ 40 then scrubMemory st die a bad file else scrubUnit st die a bad file)

/-! ### The failure of a group -/

/-- Every poisoned word of a segment written as zero (R382). -/
def zeroMarks (x : Cell) (seg v : Nat) : Nat :=
  x.poison.foldl (fun v p => let q := markPlace p; if q.1 = seg then setBits v (8 * q.2) 64 0 else v) v

/-- The bytes of a member's image as they are written first: a failed cell's have its poisoned words as zero (R382). -/
def failBytes (s : State) (n : Nat) : Nat :=
  let x := getCell s n
  imageHeld s n 0x0FFFFFFF (seqOwner x).toNat fun k v => if x.failed = 1 then zeroMarks x k v else v

/-- VALID of a member's image (R382). -/
def failValid (s : State) (n : Nat) : Nat := if (getCell s n).failed = 1 then 2 else 1

/-- The group-failure record of a failed member (R382), which is then reported; its syndrome is free (R381). -/
def failRecord (s : State) (m : Nat) : State :=
  let x := getCell s m
  if x.failed ≠ 1 then s else
  let p := seqOwner x
  let info0 := match x.poison with | q :: _ => cellEccInfo q | [] => 0
  let j := BitVec.ofNat 64 (4 + (Config.syndrome s.free).toNat * 2 ^ 8)
  let s := fileRegion (useFree s) p (faultRecord m 1 false false false 15 0x10 p (nextAddr x.user) x.user.scyc info0 j)
  modCell s m fun x => { x with failed := 2 }

/-- Sirvy goes on with the images of a failed cell's group: they are written, and when the writebacks are performed they get VALID (R253,
R352, R360, R382). A group whose region has no place for images has none. -/
def failSave (st : State) (ms : List Nat) (p : BitVec 16) (base : Nat) : State :=
  let places (b : Nat) : List (Nat × Nat) := ((List.range ms.length).zip ms).map fun m => (m.2, b + m.1 * saveStride)
  let begun := (places 0).findSome? fun e => (getCell st e.1).image.map fun g => g.base - e.2
  if begun.isNone ∧ !placeImages st p ms.length base then st
  else
    let st := saveAll failBytes st (places (begun.getD base))
    if saveHeld st ms ∨ ms.any (wbOut st) then st else saveWhole st (failValid st) ms

/-- The images of a failed cell's group are whole, or their save was ended (R360), or the region has no SAVE area. -/
def failSaved (st : State) (ms : List Nat) (p : BitVec 16) : Bool :=
  (saveArea st p).isNone || ms.all fun m => match (getCell st m).image with | some g => g.whole | none => false

/-- GANGFAIL (R382): Sirvy scans out a failed cell's lockstep group into the SAVE area at base, flags the failed image and files a
group-failure record; the fault policy of the region then acts. A save fault holds it back (R360). -/
def gangfailBody (st : State) (n base : Nat) : State :=
  let ms := members st n
  let p := seqOwner (getCell st n)
  if (getCell st n).failed ≠ 1 ∨ !(ms.all fun m => (getCell st m).hold && quiescent st m) ∨ saveHeld st ms then st
  else
    let st := if failSaved st ms p then st else failSave st ms p base
    if failSaved st ms p then faultPolicy (ms.foldl failRecord st) p n else st

/-- GANGFAIL (R382): Sirvy scans out a failed cell's lockstep group, flags the failed image and files a group-failure record. One call
writes the images, and a later one goes on when their writebacks are performed. -/
def execGangfail (n : Nat) (base : Nat) (st : State) : Host.Outcome State Fault Refusal := .next (gangfailBody st n base)

/-! ### The firmware context -/

/-- The cell that FWRSM names, when it lies on the die and its firmware context is stopped, or does not run (R405, log 45). -/
def fwrsmCell (s : State) (die : Nat) (v : Word) : Option Nat :=
  let n := bits v.toNat 0 10
  let x := getCell s n
  if dieOf n = die ∧ (x.fwStop.isSome ∨ !x.fwRun) then some n else none

/-- A firmware context that a trap stopped goes on (R211, R405); one that no trap stopped has no cause to resume from. -/
def fwResume (s : State) (die : Nat) (v : Word) : State :=
  match fwrsmCell s die v with
  | some n => if (getCell s n).fwStop.isSome then modCell s n fun x => { x with fwRun := true, fwStop := none } else s
  | none => s

/-- A stopped firmware context starts at FWRPC; an odd one traps ALIGN (R405). -/
def fwStart (s : State) (die : Nat) (v : Word) : State :=
  match fwrsmCell s die v with
  | some n =>
    let pc := (getDie s die).fwrpc
    let s := modCell s n fun x => { x with
      fwRun := true, fwStop := none
      fw := { x.fw with pc := pc, lit := false, target := 0, pkind := 0, bubbles := 0, lead := 0 } }
    if pc.getLsbD 0 then takeTrap s n true [(0x0E, 13, false, 0, 0)] 1 pc (getCtx s n true).scyc else s
  | none => s

/-- FWRSM_RESUME (R405): A FWRSM write with NEW 0 resumes a stopped firmware context under R211. -/
def execFwrsmResume (die : Nat) (v : Word) (st : State) : Host.Outcome State Fault Refusal := .next (fwResume st die v)

/-- FWRSM_START (R405): A FWRSM write with NEW 1 starts a stopped firmware context at FWRPC. -/
def execFwrsmStart (die : Nat) (v : Word) (st : State) : Host.Outcome State Fault Refusal := .next (fwStart st die v)

end Sys2Proof.Machine
end

