-- ==== Sys2Proof/Machine/Life.lean ====
section
/-!
DEFINITION. Collective and checkpoint commands (R264, R389 to R391), firmware activation (R392, R393), the life cycle, resets and
wipes (R384, R394, R395).
-/

namespace Sys2Proof.Machine

/-! ### Collective commands -/

/-- The fields of a collective command (R389). -/
def cDone (b : Nat) : Nat := bits b 448 64
@[inherit_doc cDone] def cStart (b : Nat) : Nat := bits b 384 64
@[inherit_doc cDone] def cStep (b : Nat) : Nat := bits b 320 64
@[inherit_doc cDone] def cJob (b : Nat) : Nat := bits b 256 64
@[inherit_doc cDone] def cLen (b : Nat) : Nat := bits b 192 64
@[inherit_doc cDone] def cDst (b : Nat) : Nat := bits b 128 64
@[inherit_doc cDone] def cSrc (b : Nat) : Nat := bits b 64 64
@[inherit_doc cDone] def cG (b : Nat) : Nat := bits b 56 8
@[inherit_doc cDone] def cD (b : Nat) : Nat := bits b 48 8
/-- Bytes of a chunk (R390). -/
def cChunk (b : Nat) : Nat := cLen b / (cG b - 1)
/-- Where slot k of the checkpoint area lies on every member (R390). -/
def cSlot (b k : Nat) : Nat := cDst b + k * (64 + cChunk b)

/-- The command is refused with BADARG (R389). A SCOPE above 4 is none under R139; that it is refused so is the model's (log 43). -/
def cBad (op b : Nat) : Bool :=
  bits b 0 8 != op || cStep b == 0 || decide (cG b < 3) || decide (16 < cG b) || decide (cG b ≤ cD b) ||
    cLen b % (4096 * (cG b - 1)) != 0 || bits b 40 8 != 0 || bits b 8 27 != 0 || decide (4 < bits b 37 3)

/-- The header of a piece (R390): MAGIC, kind (chunk j, or 0xFF for parity), owning device, CRC-32, JOB and STEP; the places are
the model's (log 43). -/
def pieceHeader (b d kind crc : Nat) : Nat :=
  0x4B43 + kind * 2 ^ 16 + d * 2 ^ 24 + crc * 2 ^ 32 + cJob b * 2 ^ 64 + cStep b * 2 ^ 128

/-- The XOR of a list of chunks. -/
def parity (cs : List Nat) : Nat := cs.foldl (· ^^^ ·) 0

/-- The member that holds chunk j of device k (R390). -/
def chunkOn (g k j : Nat) : Nat := (k + j + 1) % g

/-- A piece goes to a peer: its bytes, then its header (R390). -/
def sendPiece (s : State) (b e kind v : Nat) : State :=
  let n := cChunk b
  let a := cSlot b (cD b)
  let port := smGet 0 s.groups e
  { s with peerOut := s.peerOut ++
      [⟨e, port, a + 64, n, v⟩, ⟨e, port, a, 64, pieceHeader b (cD b) kind (crc32 (bytesOf n v))⟩] }

/-- One step of CKSAVE (R390): a 64-byte block of SRC is read, and a chunk that is whole goes to its peer; then the parity is written
block by block, and its header last. -/
def ckSaveStep (s : State) (c : Collective) : State × Collective :=
  let b := c.blk.toNat
  let m := cChunk b / 64
  let n := cLen b / 64
  let g := cG b
  let a := cSlot b (cD b)
  if c.pos < n then
    let v := c.buf + homeReadN s (cSrc b + 64 * c.pos) 64 <<< (512 * (c.pos % m))
    if (c.pos + 1) % m = 0 then
      (sendPiece s b (chunkOn g (cD b) (c.pos / m)) (c.pos / m) v, { c with pos := c.pos + 1, buf := 0, par := c.par ^^^ v })
    else (s, { c with pos := c.pos + 1, buf := v })
  else if c.pos < n + m then
    (homeWriteN s (a + 64 + 64 * (c.pos - n)) 64 (bits c.par (512 * (c.pos - n)) 512), { c with pos := c.pos + 1 })
  else
    let s := if m = 0 then (List.range (g - 1)).foldl (fun s j => sendPiece s b (chunkOn g (cD b) j) j 0) s else s
    (homeWriteN s a 64 (pieceHeader b (cD b) 0xFF (crc32 (bytesOf (cChunk b) c.par))),
      { c with done := true, step := BitVec.ofNat 64 (cStep b) })

/-- The bytes of slot k on member e: of this device, or what a peer holds, which is a free value (log 6). -/
def pieceAt (s : State) (b e k : Nat) : Nat :=
  let n := 64 + cChunk b
  let a := cSlot b k
  if e = cD b then homeReadN s a n else lanes 8 (fun i => (Config.peerByte s.free e (a + i)).toNat) n 0

/-- The step of a valid piece of device d: its CRC matches, and its device, kind and JOB are those looked for (R390, R391). -/
def pieceStep (b d kind p : Nat) : Option Nat :=
  let n := cChunk b
  if bits p 0 16 = 0x4B43 ∧ bits p 16 8 = kind ∧ bits p 24 8 = d ∧ bits p 64 64 = cJob b ∧
      bits p 32 32 = crc32 (bytesOf n (p >>> 512)) then some (bits p 128 64) else none

/-- Piece k of those that CKLOAD reads, the parity of each device last (R391). -/
def piece (s : State) (b k : Nat) : Nat :=
  let g := cG b
  let d := k / g
  let j := k % g
  pieceAt s b (if j = g - 1 then d else chunkOn g d j) d

/-- The pieces of device d among those read: bytes, and step when valid (R390, R391). -/
def piecesOf (b : Nat) (got : List Nat) (d : Nat) : List (Nat × Option Nat) :=
  let g := cG b
  (List.range g).map fun j => let p := got.getD (d * g + j) 0; (p >>> 512, pieceStep b d (if j = g - 1 then 0xFF else j) p)

/-- Pieces of a device that count at a step. -/
def counting (ps : List (Nat × Option Nat)) (step : Nat) : Nat := (ps.filter fun p => p.2 == some step).length

/-- The shard of a device at a step, its missing chunk rebuilt by XOR (R391). -/
def rebuild (b : Nat) (ps : List (Nat × Option Nat)) : Nat :=
  let n := cChunk b
  let all := ps.map fun p => if p.2 = some (cStep b) then p.1 else 0
  let lost := parity all
  let chunk (j : Nat) : Nat := match ps[j]? with
    | some p => if p.2 = some (cStep b) then p.1 else lost
    | none => 0
  packList n (cG b - 1) chunk

/-- The outcome of CKLOAD: status, MASK, STEP (R391). -/
def loadOutcome (b : Nat) (all : List (List (Nat × Option Nat))) : Nat × Nat × Nat :=
  let g := cG b
  let lacks (d : Nat) : Bool := decide (counting (all.getD d []) (cStep b) < g - 1)
  if (List.range g).all fun d => !lacks d then (0, 0, cStep b) else
  let steps := (all.flatten.filterMap (·.2)).filter (· != cStep b)
  let whole (t : Nat) : Bool := all.all fun ps => decide (g - 1 ≤ counting ps t)
  let newest := (steps.filter whole).foldl max 0
  (if steps.isEmpty then 0x22 else 0x21, maskOf lacks g 0, newest)

/-- One step of CKLOAD (R391): a piece is read; with the last one the outcome is known; and when it is DONE, this device's shard is
written block by block. -/
def ckLoadStep (s : State) (c : Collective) : State × Collective :=
  let b := c.blk.toNat
  let g := cG b
  let n := cLen b / 64
  if c.got.length < g * g then
    let got := c.got ++ [piece s b c.got.length]
    let c := { c with got := got }
    if got.length < g * g then (useFree s, c) else
    let all := (List.range g).map (piecesOf b got)
    let (status, mask, step) := loadOutcome b all
    (useFree s, { c with
      status := status, mask := mask, step := BitVec.ofNat 64 step, done := status != 0 || n == 0
      buf := if status = 0 then rebuild b (all.getD (cD b) []) else 0 })
  else
    (homeWriteN s (cSrc b + 64 * c.pos) 64 (bits c.buf (512 * c.pos) 512), { c with pos := c.pos + 1, done := c.pos + 1 == n })

/-- A command takes its next step (R390, R391). -/
def collRun (s : State) (c : Collective) : State × Collective :=
  if bits c.blk.toNat 0 8 = 1 then ckSaveStep s c else ckLoadStep s c

/-- The start condition holds: no ACQ, no start word, or a start word that is not zero (R264, R389). -/
def startMet (s : State) (b : Nat) : Bool := !bit b 35 || cStart b == 0 || homeReadN s (cStart b) 8 != 0

/-- A command is submitted: refused with BADARG, or taken up (R389). -/
def collSubmit (s : State) (op : Nat) (blk : BitVec 512) : State :=
  let c : Collective := ⟨blk, true, 0, 0, BitVec.ofNat 64 (cStep blk.toNat), 0, 0, 0, [], false⟩
  { s with coll := s.coll ++ [if cBad op blk.toNat then { c with waits := false, status := 0x23, done := true } else c] }

/-- CKSAVE (R390): A collective command writes chunks to peers and the parity locally. -/
def execCksave (blk : BitVec 512) (st : State) : Host.Outcome State Fault Refusal := .next (collSubmit st 1 blk)

/-- CKLOAD (R391): A collective command rebuilds a shard from the pieces of all members. -/
def execCkload (blk : BitVec 512) (st : State) : Host.Outcome State Fault Refusal := .next (collSubmit st 2 blk)

/-- The completion record of a command (R389); a DONE that is not aligned gets none. -/
def collRecord (s : State) (c : Collective) : State :=
  let a := cDone c.blk.toNat
  if a % 16 ≠ 0 then s
  else homeWriteN s a 16 (2 ^ 63 + c.mask % 2 ^ 16 * 2 ^ 16 + c.status + c.step.toNat * 2 ^ 64)

/-- With REL, the record of a save waits until what it sent is performed at the peers, also that of one that a wipe ended (R264, R395); when
they have performed it is a free value (log 6). No write of a command goes to the host. -/
def collHeld (s : State) (c : Collective) : Bool :=
  bit c.blk.toNat 36 && bits c.blk.toNat 0 8 == 1 && c.status != 0x23 && !(Config.freeVec s.free).getLsbD 0

/-- The first command that can go on does: it reads its start word, takes its next step, or writes its record and leaves. -/
def collNext (s : State) : List Collective → List Collective → State
  | _, [] => s
  | seen, c :: cs =>
    if c.done then
      if collHeld s c then collNext (useFree s) (seen ++ [c]) cs else collRecord { s with coll := seen ++ cs } c
    else if !c.waits then let r := collRun s c; { r.1 with coll := seen ++ r.2 :: cs }
    else if startMet s c.blk.toNat then { s with coll := seen ++ { c with waits := false } :: cs }
    else collNext s (seen ++ [c]) cs

/-- COLLECTIVE_COMPLETION (R264): A collective command writes its completion record once its writes are performed. Before that, each
call is one step of the first command that can take one: it reads its start word, or a block or a piece, or writes a block. -/
def execCollectiveCompletion (st : State) : Host.Outcome State Fault Refusal := .next (collNext st [] st.coll)

/-- PEER_PORT_ACCESS (R390): A peer device's collective engine writes checkpoint pieces into this device's memory, or reads them, over
a peer Jisum port: 64 bytes at an address. There are 12 ports (R8). -/
def execPeerPortAccess (port : Nat) (wr : Bool) (addr : Nat) (v : BitVec 512) (st : State) : Host.Outcome State Fault Refusal :=
  .next (if 12 ≤ port ∨ beyond addr 64 then st
    else if wr then homeWriteN st addr 64 v.toNat
    else { st with peerGot := BitVec.ofNat 512 (homeReadN st addr 64) })

/-! ### Firmware activation -/

/-- The image address of a FWCMD value (R392). -/
def fwAddr (v : Word) : Word := BitVec.ofNat 64 (bits v.toNat 12 36 * 4096)

/-- A signature check (R392): its verdict is a free value (log 6). -/
def sigGood (s : State) : Bool := Config.signatureGood s.free

/-- OP 1 (R392): the image is checked and staged; while an activation runs the answer is BUSY. -/
def stageBody (s : State) (v : Word) : State :=
  if s.paused then { s with fwstat := fwStatus 1 3 }
  else if sigGood s then { useFree s with fwimage := some (fwAddr v), fwstat := fwStatus 0 0 }
  else { useFree s with fwstat := fwStatus 0 1 }

/-- FWCMD_STAGE (R392): FWCMD with OP 1 stages a firmware image and checks its signature. -/
def execFwcmdStage (v : Word) (st : State) : Host.Outcome State Fault Refusal := .next (stageBody st v)

/-- The functions in CONFIG_LOCKED or RUN (R393). -/
def activeFns (s : State) : List Nat := (s.hosts.filter fun e => e.2.tdisp == 1 || e.2.tdisp == 2).map Prod.fst

/-- OP 2 (R392, R393): the staged image is checked again, the queues are paused, and PAUSE goes to the functions. BUSY reads beside the
last status. -/
def activateBody (s : State) (v : Word) : State :=
  if s.paused then { s with fwstat := fwStatus 1 3 }
  else if s.fwimage ≠ some (fwAddr v) ∨ !sigGood s then { useFree s with fwstat := fwStatus 0 1 }
  else
    let pause (h : HostFn) : HostFn := { h with
      fwack := false, fwevt := BitVec.ofNat 64 (1 + (bits h.fwevt.toNat 32 32 + 1) % 2 ^ 32 * 2 ^ 32) }
    let s := { useFree s with paused := true, sincePause := 0, fwstat := fwStatus 1 (bits s.fwstat.toNat 8 8) }
    tryActivate ((activeFns s).foldl (fun s f => modHost s f pause) s)

/-- FWCMD_ACTIVATE (R393): FWCMD with OP 2 pauses the queues and sends PAUSE to the functions. -/
def execFwcmdActivate (v : Word) (st : State) : Host.Outcome State Fault Refusal := .next (activateBody st v)

/-- Acknowledgements are missing 10 s after PAUSE (R393). -/
def ackLate (s : State) : Bool := !allAcked s && decide (10000000000 ≤ s.sincePause)

/-- FWACK (R393): A function acknowledges the pause, and once all have acknowledged Sirvy is replaced and RESUME is sent. One that comes
after the 10 s finds the activation over. -/
def execFwack (f : Nat) (st : State) : Host.Outcome State Fault Refusal :=
  .next (if st.paused then
      if ackLate st then resumeAll st 2
      else tryActivate (if (pausedFns st).contains f then modHost st f fun h => { h with fwack := true } else st)
    else st)

/-- FW_ACTIVATION_TIMEOUT (R393): With acknowledgements missing after 10 s, the old firmware stays, TIMEOUT is reported and RESUME
is sent. With every one there, an activation that waited for tasks to end goes on. -/
def execFwActivationTimeout (st : State) : Host.Outcome State Fault Refusal :=
  .next (if st.paused && ackLate st then resumeAll st 2 else tryActivate st)

/-! ### Life cycle, resets and wipes -/

/-- The repair class of a cell and whether it is in service, with one failed unit more (R353, R384). -/
def repair (r : BitVec 16 × Bool) (k i : Nat) : BitVec 16 × Bool :=
  let v := r.1.toNat
  let j := i % 0x8000
  if k = 2 ∧ 128 ≤ j % 160 then (BitVec.ofNat 16 (setBits v 0 3 (max (bits v 0 3) ((160 - j % 160 + 7) / 8))), r.2)
  else if k = 3 ∧ j = 15 then (BitVec.ofNat 16 (v ||| 2 ^ 7), r.2)
  else if k = 4 ∧ j = 7 then (BitVec.ofNat 16 (v ||| 2 ^ 6), r.2)
  else (r.1, false)

/-- A cell at a reset, with the repairs of the failure map (R384). -/
def repaired (m : List (Nat × Nat × Nat)) (n : Nat) : Cell :=
  let r := (m.filter fun e => e.1 == n).foldl (fun r e => repair r e.2.1 e.2.2) (Cell.reset.lver, true)
  { Cell.reset with lver := r.1, ok := r.2 }

/-- A cell in a wipe: its words are zero; its debug block, counters, layout version and service stand (R395). A retired cell keeps HOLD
until a reset (R383). -/
def wipeCell (x : Cell) : Cell :=
  let kept := x.hold && !x.ok
  { Cell.reset with
    lver := x.lver, ok := x.ok, failed := x.failed, hold := kept, dbg := if kept then x.dbg else unstopped x.dbg
    enj := x.enj, enjCharged := x.enjCharged }

/-- A class of a slice whose lines are gone: OCC reads 0 (R337, R341). -/
def noLines (r : CosRegs) : CosRegs := { r with cur := 0 }

/-- A die in a wipe (R395). -/
def wipeDie (x : Die) : Die :=
  { x with ecccnt := 0, l2 := [], cos := x.cos.map fun e => (e.1, noLines e.2), misses := [], fills := [], returned := [], sched := [], schedw := [], walks := [], sys := [] }

/-- A host function in a wipe: it is in ERROR, and no value older than the wipe is left for it to read (R395, R401). -/
def wipeHost (h : HostFn) : HostFn :=
  { h with tdisp := 3, latch := 0, queue := h.queue.filter fun q => match q with | .later .. => false | _ => true }

/-- A wipe starts (R395): commands end as ABORTED, functions enter ERROR, every word is zero with its mark cleared, and no region
stays admitted. -/
def wipe (s : State) : State :=
  { s with
    cells := s.cells.map fun e => (e.1, wipeCell e.2)
    dies := s.dies.map fun e => (e.1, wipeDie e.2)
    hosts := (List.range 256).map fun f => (f, wipeHost (getHost s f))
    mem := [], poison := [], chan := [], regions := [], tctx := [], queues := [], kernels := [], newKernels := [], replay := []
    coll := s.coll.map fun c => { c with waits := false, done := true, status := 0x24, mask := 0, step := BitVec.ofNat 64 (cStep c.blk.toNat) }
    lcstat := s.lcstat ||| 0x100, paused := false, fwimage := none
    fwstat := s.fwstat &&& ~~~(1 : Word) }

/-- DEVICE_RESET (R395): A reset applies repair classes and starts a wipe. What lies outside the device stays, and so do the failure
map, the life-cycle state and the running firmware image. -/
def resetBody (s : State) : State :=
  let ns := (List.range 1024).filter fun n => s.failmap.any fun e => e.1 == n
  wipe { State.reset with
    agenda := s.agenda, focus := s.focus, free := s.free, seq := s.seq
    cells := ns.map fun n => (n, repaired s.failmap n)
    hostMem := s.hostMem, hostDeny := s.hostDeny, peerOut := s.peerOut
    coll := s.coll, fwactive := s.fwactive, fwcode := s.fwcode, failmap := s.failmap
    corrected := s.corrected.map fun e => (e.1, e.2.1, e.2.2.1, e.2.2.2 - (s.time.toNat : Int))
    lcstat := BitVec.ofNat 64 (bits s.lcstat.toNat 0 3) }

@[inherit_doc resetBody]
def execDeviceReset (st : State) : Host.Outcome State Fault Refusal := .next (resetBody st)

/-- The changes that the security processor permits (R394). -/
def permitted (a b : Nat) : Bool :=
  (a == 0 && b == 1) || (a == 1 && b == 2) || (a == 2 && b == 3) || (a == 3 && b == 1) || (a != 4 && b == 4)

/-- A change of the life-cycle state (R394, R395). -/
def lifeBody (s : State) (b : Nat) : State :=
  if permitted (bits s.lcstat.toNat 0 3) b then
    wipe { s with lcstat := BitVec.ofNat 64 (setBits s.lcstat.toNat 0 3 b) }
  else s

/-- LIFECYCLE_CHANGE (R394): A life-cycle change is permitted or refused and, when permitted, starts a wipe. -/
def execLifecycleChange (nst : BitVec 3) (st : State) : Host.Outcome State Fault Refusal := .next (lifeBody st nst.toNat)

/-- WIPE_END (R395): The wipe finishes, every word is zero, and WIPING clears. -/
def execWipeEnd (st : State) : Host.Outcome State Fault Refusal :=
  .next (if wiping st then
      { st with
        mem := [], poison := [], chan := []
        cells := st.cells.map fun e => (e.1, wipeCell e.2)
        dies := st.dies.map fun e => (e.1, { e.2 with
          l2 := [], cos := e.2.cos.map fun r => (r.1, noLines r.2), misses := [], fills := [], returned := [] })
        lcstat := st.lcstat &&& ~~~(0x100 : Word) }
    else st)

end Sys2Proof.Machine
end

