-- ==== Sys2Proof/Machine/Time.lean ====
section
/-!
DEFINITION. The 1PPS edge, slews and lock of TIME (R314), telemetry (R398) and thermal limits (R399).
-/

namespace Sys2Proof.Machine

/-! ### TIME -/

/-- TSTAT with OFFS, STEP, SLEW and LOCK after an edge that measured e (R314). -/
def tstatAt (old : Word) (e : Int) (stepped slewing : Bool) : Word :=
  BitVec.ofNat 64 (wrap 32 (satS 32 e) * 2 ^ 32 + b2n (bit old.toNat 2 || stepped) * 4 + b2n slewing * 2 + 1)

/-- The TIME of each die after an edge that left IO-0's at now: within 2 ns of it, and no earlier than before; where in that range is
free (R314, log 90). -/
def dieOffsets (s : State) (now : Word) : State :=
  let one (t : State) (d : Nat) : State :=
    let want : Int := ((Config.freeVec s.free).toNat >>> (8 * d) % 5 : Nat) - 2
    modDie t d fun x => { x with toff := max want ((dieTime s d : Int) - (now.toNat : Int)) }
  useFree ((List.range 8).foldl one s)

/-- A 1PPS edge (R314): with TSET written, e = TSET − TIME is stepped over or slewed away. -/
def edge (s : State) : State :=
  let s := { s with sinceEdge := 0 }
  if !s.tsetw then { s with tstat := s.tstat ||| 1 }
  else
    let t := s.tset
    let e : Int := (t.toNat : Int) - (s.time.toNat : Int)
    let s := dieOffsets s (if 1000000 < e then t else s.time)
    if 1000000 < e then
      { s with
        time := t, slew := 0, tstat := tstatAt s.tstat e true false
        refills := t.toNat / 1000000, charges := t.toNat / 100000 }
    else { s with slew := e * 1024, tstat := tstatAt s.tstat e false (e != 0) }

/-- PPS_EDGE (R314): At a 1PPS edge after a TSET write, TIME steps or starts to slew toward TSET. dt nanoseconds pass before. -/
def execPpsEdge (dt : Nat) (st : State) : Host.Outcome State Fault Refusal := .next (edge (advanceTime st dt))

/-- SLEW_END (R314): A slew ends once TIME has gained or lost the measured offset. -/
def execSlewEnd (dt : Nat) (st : State) : Host.Outcome State Fault Refusal := .next (advanceTime st dt)

/-- LOCK_TIMEOUT (R314): TSTAT.LOCK clears when no 1PPS edge has arrived for 1.5 s. -/
def execLockTimeout (dt : Nat) (st : State) : Host.Outcome State Fault Refusal := .next (advanceTime st dt)

/-! ### Telemetry -/

/-- Sum of the ENJ counters of a die (R398). -/
def energySum (s : State) (d : Nat) : Nat :=
  (s.cells.filter fun e => dieOf e.1 == d).foldl (fun n e => n + e.2.enj.toNat) 0

/-- A telemetry record (R398). -/
def telRecord (s : State) (d : Nat) (pwr : BitVec 32) (hbmt : BitVec 16) (qt : BitVec 64) : Nat :=
  energySum s d % 2 ^ 64 + d * 2 ^ 64 + qt.toNat * 2 ^ 80 + hbmt.toNat * 2 ^ 144 + pwr.toNat * 2 ^ 160 + dieTime s d % 2 ^ 64 * 2 ^ 192

/-- Append a telemetry record, or count it as lost (R26, R398). -/
def telAppend (s : State) (d : Nat) (rcd : Nat) : State :=
  let x := getDie s d
  if ringOn x.telsize then
    let a := ringSlot x.telbase 32 (bits x.telsize.toNat 0 5) (bits x.telhead.toNat 0 32)
    modDie (ownWrite s a 32 rcd) d fun x => { x with telhead := ringNext x.telhead }
  else modDie s d fun x => { x with telhead := ringLost x.telhead }

/-- PERIOD of a die in nanoseconds: one below 100 µs acts as 100 µs (R398). -/
def telPeriod (x : Die) : Nat := 1000 * max 100 (bits x.telctl.toNat 0 16)

/-- TELEMETRY_SAMPLE (R398): Every PERIOD µs the Vesper engine appends a 32-byte telemetry record. Power and temperatures are what
the sensors give. Before the period since the last sample is over there is none; the first one has no such limit (log 100). -/
def execTelemetrySample (die : Nat) (pwr : BitVec 32) (hbmt : BitVec 16) (qt : BitVec 64) (st : State) :
    Host.Outcome State Fault Refusal :=
  .next (if st.real < (getDie st die).telnext then st
    else telAppend (modDie st die fun x => { x with telnext := st.real + telPeriod x }) die (telRecord st die pwr hbmt qt))

/-! ### Thermal limits -/

/-- Temperature of quadrant i in 1/16 °C. -/
def quadrant (qt : BitVec 64) (i : Nat) : Int := sval 16 (bits qt.toNat (16 * i) 16)

/-- Some quadrant has reached a temperature in °C. -/
def reaches (qt : BitVec 64) (c : Int) : Bool := (List.range 4).any fun i => decide (16 * c ≤ quadrant qt i)

/-- THERMAL_THRESHOLD (R399): A quadrant crossing 105, 115 or 100 °C stops or resumes dispatch, or freezes or releases the die. -/
def execThermalThreshold (die : Nat) (qt : BitVec 64) (st : State) : Host.Outcome State Fault Refusal :=
  .next (modDie st die fun x =>
    if reaches qt 100 then { x with hot := x.hot || reaches qt 105, melted := x.melted || reaches qt 115 }
    else { x with hot := false, melted := false })

end Sys2Proof.Machine
end

