-- ==== Sys2Proof/Machine/Registers.lean ====
section
/-!
DEFINITION. The register space outside the cells' own moves: REGISTER_WRITE (R4, R5), the half reads of R401, and the codec table's
CRCTL with its drain (R267). Space 0 is that of a die, 1 IO-0, 2 the doorbell page of a function (its number stands for the die), 3
the codec table, 4 words of a region control block; offsets that the manual does not give are the model's (log 44).
-/

namespace Sys2Proof.Machine

/-- A register of which a write sets only the fields of a mask (R4, R5). -/
def masked (old v : Word) (mask : Nat) : Word :=
  (old &&& ~~~(BitVec.ofNat 64 mask)) ||| (v &&& BitVec.ofNat 64 mask)

/-- A write of ring registers BASE, SIZE and HEAD (R25). -/
def ringBase (old v : Word) : Word := masked old v 0x0000FFFFFFFFFFF0
@[inherit_doc ringBase] def ringSize (old v : Word) : Word := masked old v 0x1F

/-! ### Debug blocks -/

/-- A write of DBGCTL (R298): PREC, and then the actions. -/
def dbgctlWrite (s : State) (n : Nat) (v : Word) : State :=
  let s := modDbg s n fun d => { d with prec := v.getLsbD 3 }
  let s := if v.getLsbD 1 then runBody s n else s
  let s := if v.getLsbD 2 then stepBody s n else s
  if v.getLsbD 0 then haltBody s n else s

/-- A write of a register of a debug block, but for DBGCTL and DBGDATA (R298, R301 to R303). -/
def dbgWrite (off : Nat) (v : Word) (d : Debug) : Debug :=
  if off = 0x08 then { d with stat := d.stat &&& ~~~(v &&& 0x100) }
  else if 0x10 ≤ off ∧ off < 0x30 then { d with bpa := smSet 0 d.bpa ((off - 0x10) / 8) v }
  else if off = 0x30 then { d with bpx := masked d.bpx v 0x80000000000007FF }
  else if off = 0x38 ∨ off = 0x40 then
    let i := (off - 0x38) / 8
    { d with wp := smSet 0 d.wp i (masked (smGet 0 d.wp i) v 0xFF03F0FFFFFFFFFF) }
  else if off = 0x48 then { d with sel := masked d.sel v 0xFF000000FFFFFFFF }
  else if off = 0x58 then { d with devbase := ringBase d.devbase v }
  else if off = 0x60 then { d with devsize := ringSize d.devsize v }
  else if off = 0x68 then { d with devhead := v }
  else if off = 0x70 then { d with devctl := masked d.devctl v 0xFFE }
  else d

/-- A read of a register of a debug block. -/
def dbgRead (off : Nat) (d : Debug) : Word :=
  if off = 0x00 then BitVec.ofNat 64 (b2n d.prec * 8)
  else if off = 0x08 then d.stat
  else if 0x10 ≤ off ∧ off < 0x30 then smGet 0 d.bpa ((off - 0x10) / 8)
  else if off = 0x30 then d.bpx
  else if off = 0x38 ∨ off = 0x40 then smGet 0 d.wp ((off - 0x38) / 8)
  else if off = 0x48 then d.sel
  else if off = 0x50 then d.data
  else if off = 0x58 then d.devbase
  else if off = 0x60 then d.devsize
  else if off = 0x68 then d.devhead
  else if off = 0x70 then d.devctl
  else 0

/-! ### Dies -/

/-- A write of a die register that is not in a cell's debug block (R308, R315, R345, R377, R385 to R387, R398, R405). A schedule entry is
written whole with its word 3: words 0 to 2 wait for it, and no kernel that the old entry launched writes STATUS of the new one (R315,
log 88). -/
def dieWrite (off : Nat) (v : Word) (x : Die) : Die :=
  if off = 0x40 then { x with fwfqbase := ringBase x.fwfqbase v }
  else if off = 0x48 then { x with fwfqsize := ringSize x.fwfqsize v }
  else if off = 0x50 then { x with fwfqhead := v }
  else if off = 0x60 then { x with fwrpc := v }
  else if 0x1000 ≤ off ∧ off < 0x1200 then
    { x with rst := smSet 0 x.rst ((off - 0x1000) / 8) (masked 0 v 0xE00000000000FFFF) }
  else if off = 0x3000 then { x with ecccnt := v }
  else if off = 0x3100 then { x with rpctl := masked x.rpctl v 0xC0000000FFFFFFFF }
  else if off = 0x3108 then { x with rpstat := x.rpstat &&& ~~~(v &&& 0x8000000000000000) }
  else if off = 0x3200 then { x with migctl := masked x.migctl v 1 }
  else if off = 0x3208 then { x with migbase0 := masked x.migbase0 v 0xFFFFFFE00000 }
  else if off = 0x3210 then { x with migbase1 := masked x.migbase1 v 0xFFFFFFE00000 }
  else if off = 0x4800 then { x with telctl := masked x.telctl v 0xFFFF }
  else if off = 0x4808 then { x with telbase := ringBase x.telbase v }
  else if off = 0x4810 then { x with telsize := ringSize x.telsize v }
  else if off = 0x4818 then { x with telhead := v }
  else if 0x80000 ≤ off ∧ off < 0x84000 then
    let i := (off - 0x80000) / 32
    let k := (off - 0x80000) % 32 / 8
    if k < 3 then { x with schedw := smSet 0 x.schedw (3 * i + k) v }
    else
      let w (j : Nat) : Nat := (smGet 0 x.schedw (3 * i + j)).toNat
      let e := w 0 + w 1 * 2 ^ 64 + w 2 * 2 ^ 128 + (masked 0 v 0xFFFFFFFFFFFFFF03).toNat * 2 ^ 192
      { x with
        sched := smSet 0 x.sched i (BitVec.ofNat 256 e), fired := smDel x.fired i
        schedw := x.schedw.filter fun p => p.1 / 3 != i }
  else x

/-- CELLOK register i of a die (R383). -/
def cellOk (s : State) (d i : Nat) : Word :=
  BitVec.ofNat 64 (maskOf (fun m => (getCell s (128 * d + 64 * i + m)).ok) 64 0)

/-- The registers of a class of service in a slice (R337). -/
def cosRead (r : CosRegs) (k : Nat) : Word :=
  match k with
  | 0 => r.ways.zeroExtend 64
  | 1 => BitVec.ofNat 64 (r.setbase.toNat + r.setmask.toNat * 2 ^ 16)
  | 2 => r.share.zeroExtend 64
  | _ => BitVec.ofNat 64 (r.cur.toNat + r.peak.toNat * 2 ^ 32)

/-- A read of a die register. -/
def dieRead (s : State) (d off : Nat) : Word :=
  let x := getDie s d
  if off = 0x40 then x.fwfqbase
  else if off = 0x48 then x.fwfqsize
  else if off = 0x50 then x.fwfqhead
  else if off = 0x60 then x.fwrpc
  else if 0x1000 ≤ off ∧ off < 0x1200 then smGet 0 x.rst ((off - 0x1000) / 8)
  else if 0x2000 ≤ off ∧ off < 0x2400 then (getCell s (128 * d + (off - 0x2000) / 8)).lver.zeroExtend 64
  else if off = 0x2400 then cellOk s d 0
  else if off = 0x2408 then cellOk s d 1
  else if off = 0x3000 then x.ecccnt
  else if off = 0x3100 then x.rpctl
  else if off = 0x3108 then x.rpstat
  else if off = 0x3200 then x.migctl
  else if off = 0x3208 then x.migbase0
  else if off = 0x3210 then x.migbase1
  else if 0x4000 ≤ off ∧ off < 0x4400 then (getCell s (128 * d + (off - 0x4000) / 8)).enj
  else if off = 0x4800 then x.telctl
  else if off = 0x4808 then x.telbase
  else if off = 0x4810 then x.telsize
  else if off = 0x4818 then x.telhead
  else if 0x80000 ≤ off ∧ off < 0x84000 then
    BitVec.ofNat 64 (bits (smGet 0 x.sched ((off - 0x80000) / 32)).toNat (64 * ((off - 0x80000) % 32 / 8)) 64)
  else if 0x100000 ≤ off ∧ off < 0x110000 then
    dbgRead ((off - 0x100000) % 0x200) (getCell s (128 * d + (off - 0x100000) / 0x200)).dbg
  else if 0x200000 ≤ off ∧ off < 0x210000 then
    let o := off - 0x200000
    if o % 0x1000 < 0x200 then cosRead (cosOf x (o / 0x1000) (o % 0x1000 / 0x20)) (o % 0x20 / 8) else 0
  else if 0x400000 ≤ off ∧ off < 0x402000 then
    let o := off - 0x400000
    let w (k : Nat) : Nat := if k < 28 then (smGet 0 (getCell s (128 * d + o / 0x40)).owners k).toNat else 0
    let g := o % 0x40 / 8
    BitVec.ofNat 64 (packList 2 4 fun j => w (4 * g + j))
  else 0

/-! ### IO-0, doorbells and the codec table -/

/-- A write of an IO-0 register (R314, R326, R389). TSET, TSTAT and the group table lie at offsets of the model's. -/
def ioWrite (s : State) (off : Nat) (v : Word) : State :=
  if off = 0x100 then { s with hvbase := ringBase s.hvbase v }
  else if off = 0x108 then { s with hvsize := ringSize s.hvsize v }
  else if off = 0x110 then { s with hvhead := v }
  else if off = 0x118 then hvrespWrite s v
  else if off = 0x130 then { s with tset := v, tsetw := true }
  else if off = 0x138 then { s with tstat := s.tstat &&& ~~~(v &&& 4) }
  else if 0x400 ≤ off ∧ off < 0x480 then { s with groups := smSet 0 s.groups ((off - 0x400) / 8) v.toNat }
  else s

/-- INVSTAT of a stage for the context of a function (R327). -/
def invstat (s : State) (f : Nat) (stage2 : Bool) : Word :=
  match ctxOfFunc s f with
  | some (_, t) => if stage2 then t.issued2 ++ t.done2 else t.issued1 ++ t.done1
  | none => 0

/-- A read of an IO-0 register. -/
def ioRead (s : State) (f off : Nat) : Word :=
  if off = 0x100 then s.hvbase
  else if off = 0x108 then s.hvsize
  else if off = 0x110 then s.hvhead
  else if off = 0x128 then invstat s f true
  else if off = 0x138 then s.tstat
  else if off = 0x140 then s.time
  else if off = 0x208 then s.fwstat
  else if off = 0x210 then s.lcstat
  else if 0x400 ≤ off ∧ off < 0x480 then BitVec.ofNat 64 (smGet 0 s.groups ((off - 0x400) / 8))
  else 0

/-- A read of a register of a doorbell page (R327, R393). -/
def bellRead (s : State) (f off : Nat) : Word :=
  if off = 0x08 then invstat s f false else if off = 0x10 then (getHost s f).fwevt else 0

/-- The entry of a codec region. -/
def codecAt (s : State) (r : Nat) : Codec := smGet Codec.reset s.codecs r

/-- Change the entry of a codec region. -/
def modCodec (s : State) (r : Nat) (f : Codec → Codec) : State :=
  { s with codecs := smSet Codec.reset s.codecs r (f (codecAt s r)) }

/-- EN or DRN is set (R267). -/
def codecLocked (c : Codec) : Bool := bit c.ctl.toNat 4 || bit c.ctl.toNat 6

/-- A write of a codec register but CRCTL (R266, R267, R271). -/
def codecWrite (off : Nat) (v : Word) (c : Codec) : Codec :=
  if off = 0x00 then (if codecLocked c then c else { c with view := masked c.view v 0xFFFFFFFF0000 })
  else if off = 0x08 then (if codecLocked c then c else { c with size := masked c.size v 0xFFFFFF })
  else if off = 0x10 then (if codecLocked c then c else { c with back := masked c.back v 0xFFFFFFFFF000 })
  else if off = 0x20 then { c with cerrb := v }
  else if off = 0x28 then { c with cerrx := masked c.cerrx v 0xFFFF }
  else if off = 0x30 then { c with cspec := v }
  else c

/-- A read of a codec register (R265). -/
def codecRead (off : Nat) (c : Codec) : Word :=
  match off with
  | 0x00 => c.view
  | 0x08 => c.size
  | 0x10 => c.back
  | 0x18 => c.ctl
  | 0x20 => c.cerrb
  | 0x28 => c.cerrx
  | 0x30 => c.cspec
  | _ => 0

/-! ### Writes and reads -/

/-- A 64-bit register write (R4). A register with a row of its own is not written here. -/
def regWrite (s : State) (sp die off : Nat) (v : Word) : State :=
  match sp with
  | 0 =>
    if 8 ≤ die then s
    else if 0x100000 ≤ off ∧ off < 0x110000 then
      let n := 128 * die + (off - 0x100000) / 0x200
      let o := (off - 0x100000) % 0x200
      if o = 0 then dbgctlWrite s n v else modDbg s n (dbgWrite o v)
    else modDie s die (dieWrite off v)
  | 1 => ioWrite s off v
  | 3 => if off < 0x1000 then modCodec s (off / 64) (codecWrite (off % 64) v) else s
  | _ => s

/-- A 64-bit register read (R4, R5). -/
def regRead (s : State) (sp die off : Nat) : Word :=
  match sp with
  | 0 => if die < 8 then dieRead s die off else 0
  | 1 => ioRead s die off
  | 2 => bellRead s die off
  | 3 => if off < 0x1000 then codecRead (off % 64) (codecAt s (off / 64)) else 0
  | 4 => home64 s off
  | _ => 0

/-- REGISTER_WRITE (R4): A write to a register that has no row of its own sets its fields under its access codes. -/
def execRegisterWrite (sp die off : Nat) (v : Word) (st : State) : Host.Outcome State Fault Refusal :=
  .next (if off % 8 = 0 then regWrite st sp die off v else st)

/-- HALF_READ_LOW (R401): A host read of the low half returns bits 31:0 and latches bits 63:32 for that function. -/
def execHalfReadLow (f : Nat) (sp die off : Nat) (st : State) : Host.Outcome State Fault Refusal :=
  .next (let v := regRead st sp die (off / 8 * 8)
    modHost st f fun h => { h with got := h.got ++ [BitVec.ofNat 1024 (v.toNat % 2 ^ 32)], latch := v.extractLsb' 32 32 })

/-- HALF_READ_HIGH (R401): A host read of the high half returns the function's latch. -/
def execHalfReadHigh (f : Nat) (st : State) : Host.Outcome State Fault Refusal :=
  .next (modHost st f fun h => { h with got := h.got ++ [h.latch.zeroExtend 1024] })

/-! ### CRCTL -/

/-- Two ranges share a byte. -/
def rangesMeet (a n b m : Nat) : Bool := overlap a n b m

/-- Setting EN is refused (R267). -/
def enableBad (s : State) (r : Nat) (c : Codec) : Bool :=
  let v := codecBase c
  let vn := codecPages c * 65536
  let b := codecBack c
  let bn := codecBackLen c
  codecPages c == 0 || bits c.ctl.toNat 0 3 == 7 || beyond v vn || beyond b bn || rangesMeet v vn b bn ||
    s.codecs.any fun e => e.1 != r && codecOn e.2 &&
      (rangesMeet v vn (codecBase e.2) (codecPages e.2 * 65536) || rangesMeet v vn (codecBack e.2) (codecBackLen e.2) ||
        rangesMeet b bn (codecBase e.2) (codecPages e.2 * 65536) || rangesMeet b bn (codecBack e.2) (codecBackLen e.2))

/-- A write of CRCTL (R267): BUD while EN and DRN are 0, and a change of EN, which starts a drain or is refused. -/
def crctlBody (s : State) (r : Nat) (v : Word) : State :=
  let c := codecAt s r
  let ctl := c.ctl.toNat
  if bit ctl 6 then s
  else if bit ctl 4 then
    if v.getLsbD 4 then s
    else modCodec s r fun c => { c with next := false, ctl := BitVec.ofNat 64 (setBits (setBits ctl 6 1 1) 7 1 0) }
  else
    let c := { c with ctl := BitVec.ofNat 64 (setBits ctl 0 3 (bits v.toNat 0 3)) }
    if !v.getLsbD 4 then modCodec s r fun _ => c
    else if enableBad s r c then modCodec s r fun _ => { c with ctl := BitVec.ofNat 64 (setBits c.ctl.toNat 7 1 1) }
    else modCodec s r fun _ => { c with next := true, ctl := BitVec.ofNat 64 (setBits (setBits c.ctl.toNat 6 1 1) 7 1 0) }

/-- CRCTL_WRITE (R267): A write to a codec region's CRCTL is checked and, when it changes EN, starts the L2 drain. -/
def execCrctlWrite (r : Nat) (v : Word) (st : State) : Host.Outcome State Fault Refusal :=
  .next (if r < 64 then crctlBody st r v else st)

/-- Every L2 line of an address range is written back and invalidated (R267). -/
def drainRange (s : State) (a n : Nat) : State :=
  (List.range 8).foldl (fun s d =>
    l2EvictAll s d ((getDie s d).l2.filter fun y => overlap (y.line * 128) 128 a n)) s

/-- CODEC_DRAIN_END (R267): When every slice has written back the view range, EN takes its new value and DRN clears. -/
def execCodecDrainEnd (r : Nat) (st : State) : Host.Outcome State Fault Refusal :=
  .next (let c := codecAt st r
    if bit c.ctl.toNat 6 then
      modCodec (drainRange st (codecBase c) (codecPages c * 65536)) r fun c =>
        { c with next := false, ctl := BitVec.ofNat 64 (setBits (setBits c.ctl.toNat 6 1 0) 4 1 (b2n c.next)) }
    else st)

end Sys2Proof.Machine
end

