-- ==== Sys2Proof/Machine/Dispatch.lean ====
section
/-!
DEFINITION. The dispatch: one arm per constructor of Instr, each one direct call of its meaning.
-/

namespace Sys2Proof.Machine

open Sys2Proof

/-- The meaning of an instruction or event. -/
def exec (i : Instr) (s : State) : Host.Outcome State Fault Refusal :=
  match i with
  | .br i_ g y s_ d => Sys2Proof.Machine.execBr i_ g y s_ d s
  | .brCall i_ g y s_ d => Sys2Proof.Machine.execBrCall i_ g y s_ d s
  | .brRet g y s_ d => Sys2Proof.Machine.execBrRet g y s_ d s
  | .brInd i_ g y s_ d => Sys2Proof.Machine.execBrInd i_ g y s_ d s
  | .brLoop i_ g y s_ d => Sys2Proof.Machine.execBrLoop i_ g y s_ d s
  | .brLoopx i_ g y s_ d => Sys2Proof.Machine.execBrLoopx i_ g y s_ d s
  | .brUiret g y s_ d => Sys2Proof.Machine.execBrUiret g y s_ d s
  | .brIfence g y s_ d => Sys2Proof.Machine.execBrIfence g y s_ d s
  | .brSwap g y s_ d => Sys2Proof.Machine.execBrSwap g y s_ d s
  | .brEnd g y s_ d => Sys2Proof.Machine.execBrEnd g y s_ d s
  | .brCalli i_ g y s_ d => Sys2Proof.Machine.execBrCalli i_ g y s_ d s
  | .brUnspin g y s_ d => Sys2Proof.Machine.execBrUnspin g y s_ d s
  | .move k g s_ d => Sys2Proof.Machine.execMove k g s_ d s
  | .cbRead k g h n d => Sys2Proof.Machine.execCbRead k g h n d s
  | .cbWriteV k g s_ h n => Sys2Proof.Machine.execCbWriteV k g s_ h n s
  | .cbWriteM g s_ h n => Sys2Proof.Machine.execCbWriteM g s_ h n s
  | .aluMov k g s_ u => Sys2Proof.Machine.execAluMov k g s_ u s
  | .aluAdd k g s_ u => Sys2Proof.Machine.execAluAdd k g s_ u s
  | .aluSub k g s_ u => Sys2Proof.Machine.execAluSub k g s_ u s
  | .aluAdds1 k g s_ u => Sys2Proof.Machine.execAluAdds1 k g s_ u s
  | .aluAdds2 k g s_ u => Sys2Proof.Machine.execAluAdds2 k g s_ u s
  | .aluAdds3 k g s_ u => Sys2Proof.Machine.execAluAdds3 k g s_ u s
  | .aluAnd k g s_ u => Sys2Proof.Machine.execAluAnd k g s_ u s
  | .aluOr k g s_ u => Sys2Proof.Machine.execAluOr k g s_ u s
  | .aluXor k g s_ u => Sys2Proof.Machine.execAluXor k g s_ u s
  | .aluAndn k g s_ u => Sys2Proof.Machine.execAluAndn k g s_ u s
  | .aluShl k g s_ u => Sys2Proof.Machine.execAluShl k g s_ u s
  | .aluShr k g s_ u => Sys2Proof.Machine.execAluShr k g s_ u s
  | .aluSar k g s_ u => Sys2Proof.Machine.execAluSar k g s_ u s
  | .aluRol k g s_ u => Sys2Proof.Machine.execAluRol k g s_ u s
  | .aluRor k g s_ u => Sys2Proof.Machine.execAluRor k g s_ u s
  | .aluMin k g s_ u => Sys2Proof.Machine.execAluMin k g s_ u s
  | .aluMax k g s_ u => Sys2Proof.Machine.execAluMax k g s_ u s
  | .aluMinn k g s_ u => Sys2Proof.Machine.execAluMinn k g s_ u s
  | .aluMaxn k g s_ u => Sys2Proof.Machine.execAluMaxn k g s_ u s
  | .aluSext k g s_ u => Sys2Proof.Machine.execAluSext k g s_ u s
  | .aluZext k g s_ u => Sys2Proof.Machine.execAluZext k g s_ u s
  | .aluBfx k g s_ u => Sys2Proof.Machine.execAluBfx k g s_ u s
  | .aluBfxn k g s_ u => Sys2Proof.Machine.execAluBfxn k g s_ u s
  | .aluClz k g s_ u => Sys2Proof.Machine.execAluClz k g s_ u s
  | .aluCtz k g s_ u => Sys2Proof.Machine.execAluCtz k g s_ u s
  | .aluPopc k g s_ u => Sys2Proof.Machine.execAluPopc k g s_ u s
  | .aluBswap k g s_ u => Sys2Proof.Machine.execAluBswap k g s_ u s
  | .mulMul k g s_ => Sys2Proof.Machine.execMulMul k g s_ s
  | .mulMulh k g s_ => Sys2Proof.Machine.execMulMulh k g s_ s
  | .mulMulhn k g s_ => Sys2Proof.Machine.execMulMulhn k g s_ s
  | .mulMulhsn k g s_ => Sys2Proof.Machine.execMulMulhsn k g s_ s
  | .mulDinit k g s_ => Sys2Proof.Machine.execMulDinit k g s_ s
  | .mulDinitn k g s_ => Sys2Proof.Machine.execMulDinitn k g s_ s
  | .mulDstep k g s_ => Sys2Proof.Machine.execMulDstep k g s_ s
  | .mulDfix k g s_ => Sys2Proof.Machine.execMulDfix k g s_ s
  | .cmpEq k g s_ => Sys2Proof.Machine.execCmpEq k g s_ s
  | .cmpNe k g s_ => Sys2Proof.Machine.execCmpNe k g s_ s
  | .cmpLt k g s_ => Sys2Proof.Machine.execCmpLt k g s_ s
  | .cmpLe k g s_ => Sys2Proof.Machine.execCmpLe k g s_ s
  | .cmpGt k g s_ => Sys2Proof.Machine.execCmpGt k g s_ s
  | .cmpGe k g s_ => Sys2Proof.Machine.execCmpGe k g s_ s
  | .cmpLtn k g s_ => Sys2Proof.Machine.execCmpLtn k g s_ s
  | .cmpLen k g s_ => Sys2Proof.Machine.execCmpLen k g s_ s
  | .cmpGtn k g s_ => Sys2Proof.Machine.execCmpGtn k g s_ s
  | .cmpGen k g s_ => Sys2Proof.Machine.execCmpGen k g s_ s
  | .cmpTbit k g s_ => Sys2Proof.Machine.execCmpTbit k g s_ s
  | .cmpTany k g s_ => Sys2Proof.Machine.execCmpTany k g s_ s
  | .dictLd k g s_ => Sys2Proof.Machine.execDictLd k g s_ s
  | .scanOut k g s_ => Sys2Proof.Machine.execScanOut k g s_ s
  | .scanIn k g s_ => Sys2Proof.Machine.execScanIn k g s_ s
  | .cellFrz k g s_ => Sys2Proof.Machine.execCellFrz k g s_ s
  | .cellRsm k g s_ => Sys2Proof.Machine.execCellRsm k g s_ s
  | .migSwap k g s_ => Sys2Proof.Machine.execMigSwap k g s_ s
  | .cosWr k g s_ => Sys2Proof.Machine.execCosWr k g s_ s
  | .ownWr k g s_ => Sys2Proof.Machine.execOwnWr k g s_ s
  | .vxAdd k g s_ u w => Sys2Proof.Machine.execVxAdd k g s_ u w s
  | .vxSub k g s_ u w => Sys2Proof.Machine.execVxSub k g s_ u w s
  | .vxAdds k g s_ u w => Sys2Proof.Machine.execVxAdds k g s_ u w s
  | .vxAddsn k g s_ u w => Sys2Proof.Machine.execVxAddsn k g s_ u w s
  | .vxSubs k g s_ u w => Sys2Proof.Machine.execVxSubs k g s_ u w s
  | .vxSubsn k g s_ u w => Sys2Proof.Machine.execVxSubsn k g s_ u w s
  | .vxMul k g s_ u w => Sys2Proof.Machine.execVxMul k g s_ u w s
  | .vxMin k g s_ u w => Sys2Proof.Machine.execVxMin k g s_ u w s
  | .vxMax k g s_ u w => Sys2Proof.Machine.execVxMax k g s_ u w s
  | .vxAnd k g s_ u => Sys2Proof.Machine.execVxAnd k g s_ u s
  | .vxOr k g s_ u => Sys2Proof.Machine.execVxOr k g s_ u s
  | .vxXor k g s_ u => Sys2Proof.Machine.execVxXor k g s_ u s
  | .vxAndn k g s_ u => Sys2Proof.Machine.execVxAndn k g s_ u s
  | .vxShl k g s_ u w => Sys2Proof.Machine.execVxShl k g s_ u w s
  | .vxShr k g s_ u w => Sys2Proof.Machine.execVxShr k g s_ u w s
  | .vxSar k g s_ u w => Sys2Proof.Machine.execVxSar k g s_ u w s
  | .vxCeq k g s_ u w => Sys2Proof.Machine.execVxCeq k g s_ u w s
  | .vxClt k g s_ u w => Sys2Proof.Machine.execVxClt k g s_ u w s
  | .vxCltn k g s_ u w => Sys2Proof.Machine.execVxCltn k g s_ u w s
  | .vfAdd k g s_ f => Sys2Proof.Machine.execVfAdd k g s_ f s
  | .vfSub k g s_ f => Sys2Proof.Machine.execVfSub k g s_ f s
  | .vfMul k g s_ f => Sys2Proof.Machine.execVfMul k g s_ f s
  | .vfFma k g s_ f => Sys2Proof.Machine.execVfFma k g s_ f s
  | .vfFms k g s_ f => Sys2Proof.Machine.execVfFms k g s_ f s
  | .vfMin k g s_ f => Sys2Proof.Machine.execVfMin k g s_ f s
  | .vfMax k g s_ f => Sys2Proof.Machine.execVfMax k g s_ f s
  | .vfAbs k g s_ f => Sys2Proof.Machine.execVfAbs k g s_ f s
  | .vfNeg k g s_ f => Sys2Proof.Machine.execVfNeg k g s_ f s
  | .vfCeq k g s_ f => Sys2Proof.Machine.execVfCeq k g s_ f s
  | .vfClt k g s_ f => Sys2Proof.Machine.execVfClt k g s_ f s
  | .vfCle k g s_ f => Sys2Proof.Machine.execVfCle k g s_ f s
  | .vfRcpe k g s_ f => Sys2Proof.Machine.execVfRcpe k g s_ f s
  | .vfRsqe k g s_ f => Sys2Proof.Machine.execVfRsqe k g s_ f s
  | .vfToi k g s_ f => Sys2Proof.Machine.execVfToi k g s_ f s
  | .vfFromi k g s_ f => Sys2Proof.Machine.execVfFromi k g s_ f s
  | .vrPerm k g s_ w => Sys2Proof.Machine.execVrPerm k g s_ w s
  | .vrLsh k g s_ w => Sys2Proof.Machine.execVrLsh k g s_ w s
  | .vrRot k g s_ w => Sys2Proof.Machine.execVrRot k g s_ w s
  | .vrRadd k g s_ w => Sys2Proof.Machine.execVrRadd k g s_ w s
  | .vrRmax k g s_ w => Sys2Proof.Machine.execVrRmax k g s_ w s
  | .vrRfadd k g s_ f => Sys2Proof.Machine.execVrRfadd k g s_ f s
  | .vrRfmax k g s_ f => Sys2Proof.Machine.execVrRfmax k g s_ f s
  | .vrXtr k g s_ w => Sys2Proof.Machine.execVrXtr k g s_ w s
  | .lsuSldN8 g s_ => Sys2Proof.Machine.execLsuSldN8 g s_ s
  | .lsuSldI8 g s_ => Sys2Proof.Machine.execLsuSldI8 g s_ s
  | .lsuSldN16 g s_ => Sys2Proof.Machine.execLsuSldN16 g s_ s
  | .lsuSldI16 g s_ => Sys2Proof.Machine.execLsuSldI16 g s_ s
  | .lsuSldN32 g s_ => Sys2Proof.Machine.execLsuSldN32 g s_ s
  | .lsuSldI32 g s_ => Sys2Proof.Machine.execLsuSldI32 g s_ s
  | .lsuSld64 g s_ => Sys2Proof.Machine.execLsuSld64 g s_ s
  | .lsuSst8 g s_ => Sys2Proof.Machine.execLsuSst8 g s_ s
  | .lsuSst16 g s_ => Sys2Proof.Machine.execLsuSst16 g s_ s
  | .lsuSst32 g s_ => Sys2Proof.Machine.execLsuSst32 g s_ s
  | .lsuSst64 g s_ => Sys2Proof.Machine.execLsuSst64 g s_ s
  | .lsuMldN8 g s_ => Sys2Proof.Machine.execLsuMldN8 g s_ s
  | .lsuMldI8 g s_ => Sys2Proof.Machine.execLsuMldI8 g s_ s
  | .lsuMldN16 g s_ => Sys2Proof.Machine.execLsuMldN16 g s_ s
  | .lsuMldI16 g s_ => Sys2Proof.Machine.execLsuMldI16 g s_ s
  | .lsuMldN32 g s_ => Sys2Proof.Machine.execLsuMldN32 g s_ s
  | .lsuMldI32 g s_ => Sys2Proof.Machine.execLsuMldI32 g s_ s
  | .lsuMld64 g s_ => Sys2Proof.Machine.execLsuMld64 g s_ s
  | .lsuMst8 g s_ => Sys2Proof.Machine.execLsuMst8 g s_ s
  | .lsuMst16 g s_ => Sys2Proof.Machine.execLsuMst16 g s_ s
  | .lsuMst32 g s_ => Sys2Proof.Machine.execLsuMst32 g s_ s
  | .lsuMst64 g s_ => Sys2Proof.Machine.execLsuMst64 g s_ s
  | .lsuMldAq32 g s_ => Sys2Proof.Machine.execLsuMldAq32 g s_ s
  | .lsuMldAq64 g s_ => Sys2Proof.Machine.execLsuMldAq64 g s_ s
  | .lsuMstRl32 g s_ => Sys2Proof.Machine.execLsuMstRl32 g s_ s
  | .lsuMstRl64 g s_ => Sys2Proof.Machine.execLsuMstRl64 g s_ s
  | .lsuAmo g s_ => Sys2Proof.Machine.execLsuAmo g s_ s
  | .lsuL2amo g s_ => Sys2Proof.Machine.execLsuL2amo g s_ s
  | .lsuCpy g s_ => Sys2Proof.Machine.execLsuCpy g s_ s
  | .lsuCbadv g s_ => Sys2Proof.Machine.execLsuCbadv g s_ s
  | .lsuRel g s_ => Sys2Proof.Machine.execLsuRel g s_ s
  | .lsuAcq g s_ => Sys2Proof.Machine.execLsuAcq g s_ s
  | .lsuFence g s_ => Sys2Proof.Machine.execLsuFence g s_ s
  | .lsuVlds g s_ => Sys2Proof.Machine.execLsuVlds g s_ s
  | .lsuVldm g s_ => Sys2Proof.Machine.execLsuVldm g s_ s
  | .lsuTld g s_ => Sys2Proof.Machine.execLsuTld g s_ s
  | .lsuTst g s_ => Sys2Proof.Machine.execLsuTst g s_ s
  | .lsuVsts g s_ => Sys2Proof.Machine.execLsuVsts g s_ s
  | .lsuVstm g s_ => Sys2Proof.Machine.execLsuVstm g s_ s
  | .lsuVamo g s_ => Sys2Proof.Machine.execLsuVamo g s_ s
  | .lsuVcas128 g s_ => Sys2Proof.Machine.execLsuVcas128 g s_ s
  | .xltMap g s_ => Sys2Proof.Machine.execXltMap g s_ s
  | .xltUnmap g s_ => Sys2Proof.Machine.execXltUnmap g s_ s
  | .xltProbe g s_ => Sys2Proof.Machine.execXltProbe g s_ s
  | .ceGo g s_ => Sys2Proof.Machine.execCeGo g s_ s
  | .ceSwap g s_ => Sys2Proof.Machine.execCeSwap g s_ s
  | .cePoll g s_ => Sys2Proof.Machine.execCePoll g s_ s
  | .ceAbort g s_ => Sys2Proof.Machine.execCeAbort g s_ s
  | .lnkSend g s_ p => Sys2Proof.Machine.execLnkSend g s_ p s
  | .mxPush a t b => Sys2Proof.Machine.execMxPush a t b s
  | .mxShift => Sys2Proof.Machine.execMxShift s
  | .mxAcc => Sys2Proof.Machine.execMxAcc s
  | .mxPacc a t b => Sys2Proof.Machine.execMxPacc a t b s
  | .mxDrain a r f h => Sys2Proof.Machine.execMxDrain a r f h s
  | .mxMrg a r f h c => Sys2Proof.Machine.execMxMrg a r f h c s
  | .mxClr a r w => Sys2Proof.Machine.execMxClr a r w s
  | .mxNorm a r w => Sys2Proof.Machine.execMxNorm a r w s
  | .mxRdm a r q => Sys2Proof.Machine.execMxRdm a r q s
  | .mxRdx a q => Sys2Proof.Machine.execMxRdx a q s
  | .mxWrm a r q c => Sys2Proof.Machine.execMxWrm a r q c s
  | .mxWrx a q c => Sys2Proof.Machine.execMxWrx a q c s
  | .xfCvt i_ o v p r => Sys2Proof.Machine.execXfCvt i_ o v p r s
  | .xfExp i_ o s_ d l h => Sys2Proof.Machine.execXfExp i_ o s_ d l h s
  | .xfTr s_ d w => Sys2Proof.Machine.execXfTr s_ d w s
  | .xfSplit s_ d e => Sys2Proof.Machine.execXfSplit s_ d e s
  | .xfPack v d l m q => Sys2Proof.Machine.execXfPack v d l m q s
  | .longImmediate i_ => Sys2Proof.Machine.execLongImmediate i_ s
  | .bcast e x => Sys2Proof.Machine.execBcast e x s
  | .chk c i_ => Sys2Proof.Machine.execChk c i_ s
  | .issue n => Sys2Proof.Machine.execIssue n s
  | .resultLanding n => Sys2Proof.Machine.execResultLanding n s
  | .firmwareBundle n => Sys2Proof.Machine.execFirmwareBundle n s
  | .gangStreamIssue n => Sys2Proof.Machine.execGangStreamIssue n s
  | .fetchLineArrival n fw line => Sys2Proof.Machine.execFetchLineArrival n fw line s
  | .cellFreeze n => Sys2Proof.Machine.execCellFreeze n s
  | .linkArrival n => Sys2Proof.Machine.execLinkArrival n s
  | .fillRequest n id => Sys2Proof.Machine.execFillRequest n id s
  | .bind n id => Sys2Proof.Machine.execBind n id s
  | .acquire n => Sys2Proof.Machine.execAcquire n s
  | .drain n => Sys2Proof.Machine.execDrain n s
  | .place n => Sys2Proof.Machine.execPlace n s
  | .writeBack n line => Sys2Proof.Machine.execWriteBack n line s
  | .complete n => Sys2Proof.Machine.execComplete n s
  | .so n => Sys2Proof.Machine.execSo n s
  | .engine n => Sys2Proof.Machine.execEngine n s
  | .record n => Sys2Proof.Machine.execRecord n s
  | .perform id => Sys2Proof.Machine.execPerform id s
  | .host f => Sys2Proof.Machine.execHost f s
  | .hostAtomicWrite f => Sys2Proof.Machine.execHostAtomicWrite f s
  | .fillStart die slice => Sys2Proof.Machine.execFillStart die slice s
  | .ceCompletion n => Sys2Proof.Machine.execCeCompletion n s
  | .taskCompletion n => Sys2Proof.Machine.execTaskCompletion n s
  | .translationWalk n fw => Sys2Proof.Machine.execTranslationWalk n fw s
  | .invreq f v => Sys2Proof.Machine.execInvreq f v s
  | .hinvreq v => Sys2Proof.Machine.execHinvreq v s
  | .invalidationComplete f stage2 => Sys2Proof.Machine.execInvalidationComplete f stage2 s
  | .hvrespRetry n => Sys2Proof.Machine.execHvrespRetry n s
  | .hvrespReflect n => Sys2Proof.Machine.execHvrespReflect n s
  | .hvrespKill n => Sys2Proof.Machine.execHvrespKill n s
  | .lockInterfaceRequest f => Sys2Proof.Machine.execLockInterfaceRequest f s
  | .startInterfaceRequest f => Sys2Proof.Machine.execStartInterfaceRequest f s
  | .stopInterfaceRequest f => Sys2Proof.Machine.execStopInterfaceRequest f s
  | .tdispError f => Sys2Proof.Machine.execTdispError f s
  | .getVersion f => Sys2Proof.Machine.execGetVersion f s
  | .getCapabilities f => Sys2Proof.Machine.execGetCapabilities f s
  | .negotiateAlgorithms f => Sys2Proof.Machine.execNegotiateAlgorithms f s
  | .getDigests f => Sys2Proof.Machine.execGetDigests f s
  | .getCertificate f => Sys2Proof.Machine.execGetCertificate f s
  | .challenge f => Sys2Proof.Machine.execChallenge f s
  | .getMeasurements f idx => Sys2Proof.Machine.execGetMeasurements f idx s
  | .keyExchange f => Sys2Proof.Machine.execKeyExchange f s
  | .finish f => Sys2Proof.Machine.execFinish f s
  | .heartbeat f => Sys2Proof.Machine.execHeartbeat f s
  | .keyUpdate f => Sys2Proof.Machine.execKeyUpdate f s
  | .endSession f => Sys2Proof.Machine.execEndSession f s
  | .vendorDefinedRequest f msg => Sys2Proof.Machine.execVendorDefinedRequest f msg s
  | .qnotify q v => Sys2Proof.Machine.execQnotify q v s
  | .qnotifyCancel q v => Sys2Proof.Machine.execQnotifyCancel q v s
  | .kernelAdmission kid => Sys2Proof.Machine.execKernelAdmission kid s
  | .taskDispatch kid lead => Sys2Proof.Machine.execTaskDispatch kid lead s
  | .preemption kid victim base => Sys2Proof.Machine.execPreemption kid victim base s
  | .packetRetirement kid => Sys2Proof.Machine.execPacketRetirement kid s
  | .admitRcb pa => Sys2Proof.Machine.execAdmitRcb pa s
  | .queueContextWrite q v => Sys2Proof.Machine.execQueueContextWrite q v s
  | .translationContextWrite part v => Sys2Proof.Machine.execTranslationContextWrite part v s
  | .subtreeRelease part => Sys2Proof.Machine.execSubtreeRelease part s
  | .energyRefill dt => Sys2Proof.Machine.execEnergyRefill dt s
  | .energyCharge dt => Sys2Proof.Machine.execEnergyCharge dt s
  | .energyCalibration die => Sys2Proof.Machine.execEnergyCalibration die s
  | .telemetrySample die pwr hbmt qt => Sys2Proof.Machine.execTelemetrySample die pwr hbmt qt s
  | .thermalThreshold die qt => Sys2Proof.Machine.execThermalThreshold die qt s
  | .scrub die addr bad => Sys2Proof.Machine.execScrub die addr bad s
  | .scheduleTableFiring die i_ dt => Sys2Proof.Machine.execScheduleTableFiring die i_ dt s
  | .ppsEdge dt => Sys2Proof.Machine.execPpsEdge dt s
  | .slewEnd dt => Sys2Proof.Machine.execSlewEnd dt s
  | .lockTimeout dt => Sys2Proof.Machine.execLockTimeout dt s
  | .crctlWrite r v => Sys2Proof.Machine.execCrctlWrite r v s
  | .codecDrainEnd r => Sys2Proof.Machine.execCodecDrainEnd r s
  | .scanTransfer die n => Sys2Proof.Machine.execScanTransfer die n s
  | .sysCompletion die => Sys2Proof.Machine.execSysCompletion die s
  | .fwrsmResume die v => Sys2Proof.Machine.execFwrsmResume die v s
  | .fwrsmStart die v => Sys2Proof.Machine.execFwrsmStart die v s
  | .halt n => Sys2Proof.Machine.execHalt n s
  | .step n => Sys2Proof.Machine.execStep n s
  | .run n => Sys2Proof.Machine.execRun n s
  | .dbgdataRead n part => Sys2Proof.Machine.execDbgdataRead n part s
  | .dbgdataWrite n part v => Sys2Proof.Machine.execDbgdataWrite n part v s
  | .preciseStop n => Sys2Proof.Machine.execPreciseStop n s
  | .preciseStopTimeout n => Sys2Proof.Machine.execPreciseStopTimeout n s
  | .gangfail n base => Sys2Proof.Machine.execGangfail n base s
  | .deviceReset => Sys2Proof.Machine.execDeviceReset s
  | .lifecycleChange nst => Sys2Proof.Machine.execLifecycleChange nst s
  | .wipeEnd => Sys2Proof.Machine.execWipeEnd s
  | .fwcmdStage v => Sys2Proof.Machine.execFwcmdStage v s
  | .fwcmdActivate v => Sys2Proof.Machine.execFwcmdActivate v s
  | .fwack f => Sys2Proof.Machine.execFwack f s
  | .fwActivationTimeout => Sys2Proof.Machine.execFwActivationTimeout s
  | .cksave blk => Sys2Proof.Machine.execCksave blk s
  | .ckload blk => Sys2Proof.Machine.execCkload blk s
  | .collectiveCompletion => Sys2Proof.Machine.execCollectiveCompletion s
  | .halfReadLow f sp die off => Sys2Proof.Machine.execHalfReadLow f sp die off s
  | .halfReadHigh f => Sys2Proof.Machine.execHalfReadHigh f s
  | .registerWrite sp die off v => Sys2Proof.Machine.execRegisterWrite sp die off v s
  | .fillInstall die slice => Sys2Proof.Machine.execFillInstall die slice s
  | .peerPortAccess port wr addr v => Sys2Proof.Machine.execPeerPortAccess port wr addr v s
  | .rcbTeardown part => Sys2Proof.Machine.execRcbTeardown part s

end Sys2Proof.Machine
end

