-- ==== Sys2Proof/Machine/Auto.lean ====
section
/-!
DEFINITION. What happens when the agenda is empty (log 1): a cell that runs a task issues when its group can; otherwise the first event
of a fixed list that changes the state takes place. The manual fixes no order here (R257); an agenda gives any other one. Placing an
instruction for the fetch is here too.
-/

namespace Sys2Proof.Machine

/-- The cell that issues: the one in focus, or else the first one that runs a task. -/
def autoCell (s : State) : Nat :=
  if (getCell s s.focus).task.isSome then s.focus
  else match s.cells.find? fun e => e.2.task.isSome with
    | some e => e.1
    | none => s.focus

/-- Every member of the group has something to issue. -/
def canIssue (s : State) (n : Nat) : Bool :=
  (members s n).all fun m => match nextOf (settle s m false) m false with
    | .wait _ => false
    | .none => false
    | _ => true

/-- An event with its operands, as what it does. -/
abbrev Event := State → Host.Outcome State Fault Refusal

/-- Events of the parts of one cell. -/
def cellEvents (s : State) (n : Nat) : List Event :=
  let x := getCell s n
  let want (fw : Bool) (c : Ctx) : List Event := match c.want with
    | some a => [execFetchLineArrival n fw a]
    | none => []
  let narrow : List Event := match x.storeb with
    | .store id .. :: _ => [execFillRequest n id]
    | _ => []
  want false x.user ++ want true x.fw ++ [execTranslationWalk n false, execTranslationWalk n true, execAcquire n] ++
    (x.loadq.map fun e => execBind n (loadId e)) ++ (x.loadq.map fun e => execFillRequest n (loadId e)) ++ narrow ++
    [execDrain n, execPlace n] ++ (x.fifo.take 1).map (fun e => execWriteBack n e.line) ++
    [execComplete n, execSo n, execEngine n, execCeCompletion n, execRecord n, execLinkArrival n, execCellFreeze n,
      execPreciseStop n, execPreciseStopTimeout n, execTaskCompletion n]

/-- Events of the parts that the cells share. -/
def sharedEvents (s : State) : List Event :=
  let die (e : Nat × Die) : List Event :=
    (e.2.fills.take 1).map (fun f => execFillInstall e.1 f.slice) ++ (e.2.misses.take 1).map (fun m => execFillStart e.1 m.slice) ++
      (if e.2.sys.isEmpty then [] else (listed s).map (execScanTransfer e.1) ++ [execSysCompletion e.1])
  let kernel (k : Kernel) : List Event :=
    [execKernelAdmission k.kid] ++
      (match (List.range 1024).find? fun n => placeAt s k n with
       | some n => [execTaskDispatch k.kid n]
       | none => ((preemptFor s k).toList).map fun n => execPreemption k.kid n (autoPlace s n)) ++ [execPacketRetirement k.kid]
  -- a pre-emption that has frozen its victim goes on, whatever becomes of the kernel (R364)
  let saves : List Event := (listed s).filterMap fun n => (getCell s n).saving.map fun k => execPreemption k n (autoPlace s n)
  let fails : List Event := ((listed s).filter fun n => (getCell s n).failed == 1).map fun n => execGangfail n (autoPlace s n)
  (s.chan.take 1).map (fun m => execPerform m.id) ++ (s.dies.map die).flatten ++
    (s.hosts.map fun e => if e.2.queue.isEmpty then [] else [execHost e.1, execHostAtomicWrite e.1]).flatten ++
    (s.kernels.map kernel).flatten ++ saves ++ fails ++ (if s.paused then [execFwActivationTimeout] else []) ++ (if s.queues.isEmpty then [] else [execKernelAdmission 0]) ++ [execCollectiveCompletion]

/-- The event does not leave the state as it is. -/
def changes (s : State) (f : Event) : Bool :=
  match f s with
  | .next t => decide (t ≠ s)
  | _ => true

/-- What a running firmware context waits for: its fetch line, and the parts its accesses pass through. -/
def firmEvents (s : State) (n : Nat) : List Event :=
  if (getCell s n).fwRun && !firmReady s n then execFirmwareBundle n :: (cellEvents s n ++ sharedEvents s) else []

/-- The event that takes place when the agenda is empty. -/
def autoEvent (s : State) : Event :=
  let n := autoCell s
  if canIssue s n then ((firmEvents s n).find? (changes s)).getD (execIssue n)
  else
    match (cellEvents s n ++ sharedEvents s).find? (changes s) with
    | some f => f
    | none => if (getCell s n).fwRun then execFirmwareBundle n else execIssue n

/-! ### Placing an instruction -/

/-- A literal group of one bundle with a single word, in the halfwords of R54 and R55, and an idle index after it. -/
def groupBytes (k : Nat) (w : SlotWord) : Nat :=
  0xFFFE + (0x8000 + 2 ^ k) * 2 ^ 16 + w.toNat * 2 ^ 32 + 0xFFFD * 2 ^ 64

/-- The bundle is placed at offset 0 of the active half of a cell, whose task issues it next. -/
def placeBundle (k : Nat) (w : SlotWord) (x : Cell) : Cell :=
  let b := groupBytes k w
  { x with
    task := some (x.task.getD ⟨0, 0, 0, 0, 0⟩), hold := false, frozen := none, saving := none, wasHeld := false, image := none
    isp0 := if x.ispAct then x.isp0 else writeNat x.isp0 0 10 b
    isp1 := if x.ispAct then writeNat x.isp1 0 10 b else x.isp1
    user := { x.user with pc := 0x8000000000000000, lit := false, bubbles := 0, lead := 0, pkind := 0 } }

/-- The machine with a table word placed in cell 0, whose next step issues it (log 2). -/
def placeWord (s : State) (nbits w : Nat) : State :=
  match (if nbits = 32 then tableSlot (BitVec.ofNat 32 w) else none) with
  | some (k, _) => { modCell s 0 (placeBundle k (BitVec.ofNat 32 w)) with agenda := [.issue 0] }
  | none => s

end Sys2Proof.Machine
end

