-- ==== Sys2Proof/Safety.lean ====
section
/-!
DEFINITION. What the claims speak of: the canonical form of the memories, the frames of the operations of a bundle, and the
terms in which results are stated.
-/

namespace Sys2Proof.Machine

/-! ### Safe runs -/

/-- Device and host memory are in their canonical form. -/
def MemInv (s : State) : Prop := Memory.wf s.mem = true ∧ Memory.wf s.hostMem = true

/-! ### The units of a trigger -/

/-- Operand latch, result latch and unit of alu0 or alu1 (R91). -/
def aluOperand (u : BitVec 1) : SLatch := if u = 0 then .alu0o else .alu1o
@[inherit_doc aluOperand] def aluResult (u : BitVec 1) : SLatch := if u = 0 then .alu0r else .alu1r
@[inherit_doc aluOperand] def aluUnit (u : BitVec 1) : FUnit := if u = 0 then .alu0 else .alu1

/-- Operand latch, result latch and unit of vx0 or vx1 (R115). -/
def vxOperand (u : BitVec 1) : VLatch := if u = 0 then .vx0o else .vx1o
@[inherit_doc vxOperand] def vxResult (u : BitVec 1) : VLatch := if u = 0 then .vx0r else .vx1r
@[inherit_doc vxOperand] def vxUnit (u : BitVec 1) : FUnit := if u = 0 then .vx0 else .vx1

/-! ### Division, compares and loops, as the manual writes them -/

/-- One pass of the loop of dstep (R95). -/
def dstepOnce (d : DivState) : DivState :=
  let c := d.rem.toNat * 2 + (d.quo.getLsbD 63).toNat
  if d.divd.toNat ≤ c then
    { d with rem := BitVec.ofNat 65 (c - d.divd.toNat), quo := d.quo * 2 + 1, bits := d.bits + 1 }
  else { d with rem := BitVec.ofNat 65 c, quo := d.quo * 2, bits := d.bits + 1 }

/-! ### Vector operands and floating-point values -/

/-- What a V slot (4 to 7) or the M slot (8) reads from a vector source: none where a buffer read is illegal (R160). -/
def vsource (s : State) (k : Nat) (x : BitVec 10) : Option Vec :=
  match cbSrc x with
  | some (h, n) => if cbReadOk (cur s) k h n then some (cbReadVal s h n) else none
  | none => some (readV s k x)

/-- The value of a code that is no NaN, on the extended line (R17). -/
def numeric : FVal → WithBot (WithTop ℚ)
  | .nan => 0
  | .inf true => ⊥
  | .inf false => ⊤
  | .fin n m e => (((if n then -1 else 1) * (m : ℚ) * (2 : ℚ) ^ e : ℚ) : WithTop ℚ)

end Sys2Proof.Machine
end

