-- ==== Sys2Proof/Certificates/Slice0/Obligations.lean ====
section
/-!
DEFINITION. The statements for the provers.
-/

open Sys2Proof Sys2Proof.Machine

/-! ### Scalar units -/

/-- R45: a move word whose guard is false changes nothing: no read, no write, no trigger, no trap. -/
def Sys2Proof.falseGuardDoesNothing : Prop :=
  ∀ (i : Instr) (s : State) (k : Nat) (w : SlotWord), encode i = some (k, w) → 1 ≤ k → k ≤ 8 →
    moveOn s (w.extractLsb' 20 12) = false → exec i s = .next s

/-- R91: the alu operations. o is the operand latch, t the moved value; the result is the one write put in flight, with
latency 1. -/
def Sys2Proof.aluResults : Prop :=
  ∀ (s : State) (k : BitVec 4) (g : BitVec 12) (x : BitVec 10) (u : BitVec 1),
    moveOn s g = true → doubled s (aluUnit u) = false →
    let o := operand s (aluOperand u)
    let t := readS s x
    let n := t.toNat % 64
    let res (v : Word) : Host.Outcome State Fault Refusal := .next (result s (aluResult u) 1 v)
    exec (.aluMov k g x u) s = res t ∧
    exec (.aluAdd k g x u) s = res (o + t) ∧
    exec (.aluSub k g x u) s = res (o - t) ∧
    exec (.aluAdds1 k g x u) s = res (o + t * 2) ∧
    exec (.aluAdds2 k g x u) s = res (o + t * 4) ∧
    exec (.aluAdds3 k g x u) s = res (o + t * 8) ∧
    exec (.aluAnd k g x u) s = res (o &&& t) ∧
    exec (.aluOr k g x u) s = res (o ||| t) ∧
    exec (.aluXor k g x u) s = res (o ^^^ t) ∧
    exec (.aluAndn k g x u) s = res (o &&& ~~~t) ∧
    exec (.aluShl k g x u) s = res (o * BitVec.ofNat 64 (2 ^ n)) ∧
    exec (.aluShr k g x u) s = res (BitVec.ofNat 64 (o.toNat / 2 ^ n)) ∧
    (∃ v, exec (.aluSar k g x u) s = res v ∧ ∀ i < 64, v.getLsbD i = o.getLsbD (min (i + n) 63)) ∧
    exec (.aluRol k g x u) s = res (o <<< n ||| o >>> (64 - n)) ∧
    exec (.aluRor k g x u) s = res (o >>> n ||| o <<< (64 - n)) ∧
    exec (.aluMin k g x u) s = res (if o.toInt ≤ t.toInt then o else t) ∧
    exec (.aluMax k g x u) s = res (if o.toInt ≥ t.toInt then o else t) ∧
    exec (.aluMinn k g x u) s = res (if o.toNat ≤ t.toNat then o else t) ∧
    exec (.aluMaxn k g x u) s = res (if o.toNat ≥ t.toNat then o else t) ∧
    (∃ v, exec (.aluSext k g x u) s = res v ∧ ∀ i < 64, v.getLsbD i = o.getLsbD (min i n)) ∧
    (∃ v, exec (.aluZext k g x u) s = res v ∧ ∀ i < 64, v.getLsbD i = (decide (i ≤ n) && o.getLsbD i)) ∧
    (∃ v : Word, exec (.aluClz k g x u) s = res v ∧ v.toNat ≤ 64 ∧
      (∀ i < 64, 64 - v.toNat ≤ i → t.getLsbD i = false) ∧ (v.toNat < 64 → t.getLsbD (63 - v.toNat) = true)) ∧
    (∃ v : Word, exec (.aluCtz k g x u) s = res v ∧ v.toNat ≤ 64 ∧
      (∀ i < v.toNat, t.getLsbD i = false) ∧ (v.toNat < 64 → t.getLsbD v.toNat = true)) ∧
    (∃ v : Word, exec (.aluPopc k g x u) s = res v ∧ v.toNat = ((List.range 64).filter t.getLsbD).length) ∧
    (∃ v : Word, exec (.aluBswap k g x u) s = res v ∧
      ∀ j < 8, v.extractLsb' (8 * j) 8 = t.extractLsb' (8 * (7 - j)) 8)

/-- R92: bfx and bfxn read t as lo = t[5:0] and wd = t[13:8] + 1; positions above bit 63 read as o[63] and as 0. -/
def Sys2Proof.fieldExtracts : Prop :=
  ∀ (s : State) (k : BitVec 4) (g : BitVec 12) (x : BitVec 10) (u : BitVec 1),
    moveOn s g = true → doubled s (aluUnit u) = false →
    let o := operand s (aluOperand u)
    let t := readS s x
    let lo := (t.extractLsb' 0 6).toNat
    let wd := (t.extractLsb' 8 6).toNat + 1
    (∃ v, exec (.aluBfx k g x u) s = .next (result s (aluResult u) 1 v) ∧
      ∀ i < 64, v.getLsbD i = o.getLsbD (min (lo + min i (wd - 1)) 63)) ∧
    (∃ v, exec (.aluBfxn k g x u) s = .next (result s (aluResult u) 1 v) ∧
      ∀ i < 64, v.getLsbD i = (decide (i < wd) && o.getLsbD (lo + i)))

/-- R91, R92: every operation of alu0 and alu1. -/
def Obligations.ScalarAluOperations : Prop :=
  aluResults ∧ fieldExtracts

/-- R93: the products of mul, latency 3. -/
def Sys2Proof.mulResults : Prop :=
  ∀ (s : State) (k : BitVec 4) (g : BitVec 12) (x : BitVec 10),
    moveOn s g = true → doubled s .mul = false →
    let o := operand s .mulo
    let t := readS s x
    let res (v : Word) : Host.Outcome State Fault Refusal := .next (result s .mulr 3 v)
    exec (.mulMul k g x) s = res (BitVec.ofNat 64 (o.toNat * t.toNat)) ∧
    exec (.mulMulh k g x) s = res (BitVec.ofInt 64 (o.toInt * t.toInt / 2 ^ 64)) ∧
    exec (.mulMulhn k g x) s = res (BitVec.ofNat 64 (o.toNat * t.toNat / 2 ^ 64)) ∧
    exec (.mulMulhsn k g x) s = res (BitVec.ofInt 64 (o.toInt * t.toNat / 2 ^ 64))

/-- R95: what dinit, dinitn, dstep and dfix compute. The new DV lands with mul.r; dfix leaves DV. -/
def Sys2Proof.divisionTriggers : Prop :=
  ∀ (s : State) (k : BitVec 4) (g : BitVec 12) (x : BitVec 10),
    moveOn s g = true → doubled s .mul = false →
    let o := operand s .mulo
    let t := readS s x
    let d := (cur s).dv
    let lands (e : DivState) (v : Word) : Host.Outcome State Fault Refusal :=
      .next (launch s { tgt := .divide, val := v.zeroExtend 1024, cnt := 3, slot := 15, dv := e })
    exec (.mulDinit k g x) s = lands
      { divd := BitVec.ofNat 64 t.toInt.natAbs, quo := BitVec.ofNat 64 o.toInt.natAbs, rem := 0, bits := 0
        nq := decide (o.toInt < 0) ^^ decide (t.toInt < 0), nr := decide (o.toInt < 0), dz := decide (t = 0) } 0 ∧
    exec (.mulDinitn k g x) s = lands
      { divd := t, quo := o, rem := 0, bits := 0, nq := false, nr := false, dz := decide (t = 0) } 0 ∧
    (let e := dstepOnce^[min ((t.extractLsb' 0 4).toNat + 1) (64 - d.bits.toNat)] d
     exec (.mulDstep k g x) s = lands e (BitVec.ofNat 64 e.bits.toNat)) ∧
    exec (.mulDfix k g x) s = .next (result s .mulr 3 (
      if t.getLsbD 0 = false then
        (if d.dz then 0xFFFFFFFFFFFFFFFF else if d.nq then -d.quo else d.quo)
      else (if d.nr then -(d.rem.setWidth 64) else d.rem.setWidth 64)))

/-- R93, R95: every operation of mul. -/
def Obligations.MultipliesAndDivisionSteps : Prop :=
  mulResults ∧ divisionTriggers

/-- After 64 steps dfix gives the truncated quotient and the remainder with the sign of the dividend; a zero divisor gives
all ones and the dividend (R95). -/
def Obligations.DivisionIsExact : Prop :=
  ∀ (o t : Word) (q r : Word), q.getLsbD 0 = false → r.getLsbD 0 = true →
    let sg := dstepOnce^[64] (divInit true o t)
    let un := dstepOnce^[64] (divInit false o t)
    (t ≠ 0 → divFix sg q = o.sdiv t ∧ divFix sg r = o.srem t ∧ divFix un q = o / t ∧ divFix un r = o % t) ∧
    (t = 0 → divFix sg q = BitVec.allOnes 64 ∧ divFix sg r = o ∧ divFix un q = BitVec.allOnes 64 ∧ divFix un r = o)

/-- The conditions of R96 on lanes of width w. -/
def Sys2Proof.compares (k : BitVec 4) (g : BitVec 12) (x : BitVec 10) : List (Instr × (Nat → Nat → Nat → Bool)) :=
  [(.cmpEq k g x, fun _ o t => o == t), (.cmpNe k g x, fun _ o t => o != t),
   (.cmpLt k g x, fun w o t => decide (sval w o < sval w t)), (.cmpLe k g x, fun w o t => decide (sval w o ≤ sval w t)),
   (.cmpGt k g x, fun w o t => decide (sval w o > sval w t)), (.cmpGe k g x, fun w o t => decide (sval w o ≥ sval w t)),
   (.cmpLtn k g x, fun _ o t => decide (o < t)), (.cmpLen k g x, fun _ o t => decide (o ≤ t)),
   (.cmpGtn k g x, fun _ o t => decide (o > t)), (.cmpGen k g x, fun _ o t => decide (o ≥ t))]

/-- tbit and tany (R96). -/
def Sys2Proof.bitTests (k : BitVec 4) (g : BitVec 12) (x : BitVec 10) : List (Instr × (Word → Word → Bool)) :=
  [(.cmpTbit k g x, fun o t => o.getLsbD (t.toNat % 64)), (.cmpTany k g x, fun o t => decide (o &&& t ≠ 0))]

/-- R98: in guard mode G a compare writes only cmp.r. The element compares fill each lane of the width W of cmp.c with its
condition; tbit and tany fill all 64 bits with one. -/
def Sys2Proof.comparesInModeG : Prop :=
  ∀ (s : State) (k : BitVec 4) (g : BitVec 12) (x : BitVec 10),
    moveOn s g = true → doubled s .cmp = false → modeP (cur s) = false →
    let o := operand s .cmpo
    let t := readS s x
    let w := 8 * 2 ^ ((operand s .cmpc).extractLsb' 20 2).toNat
    (∀ c ∈ compares k g x, ∃ v, exec c.1 s = .next (result s .cmpr 1 v) ∧
      ∀ i < 64, v.getLsbD i = c.2 w (lane w o.toNat (i / w)) (lane w t.toNat (i / w))) ∧
    (∀ c ∈ bitTests k g x, ∃ v, exec c.1 s = .next (result s .cmpr 1 v) ∧ ∀ i < 64, v.getLsbD i = c.2 o t)

/-- What a compare in mode P does to the predicate it names as a target: nothing, or one write of the sense (R99). p0 takes
no write (R44). -/
def Sys2Proof.targetWrites (s : State) (k : BitVec 4) (wm : Nat) (q sense : Bool) (p : Nat) : List Flight :=
  let w (cond v : Bool) : List Flight :=
    if p = 0 then [] else
    [{ tgt := .pred (physP (cur s) p) cond, val := if v then 1 else 0, cnt := 1, slot := k.toNat }]
  match wm with
  | 0 => if q then w false sense else []
  | 1 => if q then w false sense else w false false
  | 2 => if q && !sense then w true false else []
  | _ => if q && sense then w true true else []

/-- R99: in guard mode P a compare makes one 64-bit comparison; cmp.r takes 1 or 0, and p1 and p2 are written by write mode,
qualifier and sense. -/
def Sys2Proof.comparesInModeP : Prop :=
  ∀ (s : State) (k : BitVec 4) (g : BitVec 12) (x : BitVec 10),
    moveOn s g = true → doubled s .cmp = false → modeP (cur s) = true →
    let o := operand s .cmpo
    let t := readS s x
    let c := operand s .cmpc
    let f (n l : Nat) : Nat := (c.extractLsb' n l).toNat
    let act (b : Bool) : Host.Outcome State Fault Refusal :=
      let q := readP (cur s) (f 24 6) ^^ c.getLsbD 31
      let s1 := b ^^ c.getLsbD 19
      let s2 := if c.getLsbD 18 then s1 else !s1
      .next (modCur s fun y => { y with flights := y.flights ++
        { tgt := .slat .cmpr, val := if b then 1 else 0, cnt := 1, slot := 15 } ::
          (targetWrites s k (f 16 2) q s1 (f 0 6) ++ targetWrites s k (f 16 2) q s2 (f 8 6)) })
    (∀ i ∈ compares k g x, exec i.1 s = act (i.2 64 o.toNat t.toNat)) ∧
    (∀ i ∈ bitTests k g x, exec i.1 s = act (i.2 o t))

/-- R96 to R100: the compares in guard modes G and P. -/
def Obligations.Compares : Prop :=
  comparesInModeG ∧ comparesInModeP
/-! ### Moves, buffers and the words of w11 -/

/-- R48, R53, R69: where a scalar move puts its value. A read-only control register traps ILLMOVE and a privileged one, or
sys.o and sys.m, traps PRIV in a user context; the register is not written. -/
def Sys2Proof.scalarMoves : Prop :=
  ∀ (s : State) (k : BitVec 4) (g : BitVec 12) (x d : BitVec 10),
    isS k = true → moveOn s g = true → shadowed s k.toNat d = false →
    let v := readS s x
    let n := d.toNat
    let lands (t : Target) (a : Word) : Host.Outcome State Fault Refusal :=
      .next (launch s { tgt := t, val := v.zeroExtend 1024, cnt := 1, slot := k.toNat, aux := a })
    let traps (cause : Nat) (i j : Word) : Host.Outcome State Fault Refusal :=
      .next { s with cyc := { s.cyc with traps := s.cyc.traps ++ [(cause, k.toNat, false, i, j)] } }
    (n < 0x40 → exec (.move k g x d) s = lands (tgtX (cur s) n) (BitVec.ofNat 64 n)) ∧
    (0x40 ≤ n → n < 0x46 → exec (.move k g x d) s = lands (.slat (dstLatch n)) 0) ∧
    (0x46 ≤ n → n < 0x48 → exec (.move k g x d) s = if s.cyc.fw then lands (.slat (dstLatch n)) 0 else traps 0x0D (BitVec.ofNat 64 n) 0) ∧
    (n = 0x103 ∨ n = 0x104 ∨ n = 0x109 ∨ (0x150 ≤ n ∧ n < 0x160) →
      exec (.move k g x d) s = traps 8 (BitVec.ofNat 64 (cycWord s k.toNat)) (BitVec.ofNat 64 k.toNat)) ∧
    (0x10A ≤ n ∧ n < 0x10E → exec (.move k g x d) s = if s.cyc.fw then lands (.creg n) 0 else traps 0x0D (BitVec.ofNat 64 n) 0) ∧
    (0x100 ≤ n ∧ n < 0x103 ∨ 0x105 ≤ n ∧ n < 0x109 ∨ 0x110 ≤ n ∧ n < 0x150 → exec (.move k g x d) s = lands (.creg n) 0)

/-- R47, R53, R83: what each scalar source reads. Inside a handler codes 0 to 7 name xs0 to xs7; the wheel (R83) turns x32 to x47 in
both. ISPACT, the exception ring and FWSHARE are the cell's; every other control register is the context's own. -/
def Obligations.ScalarSources : Prop :=
  ∀ (s : State) (x : BitVec 10),
    let n := x.toNat
    let c := cur s
    let wheel := if n < 32 ∨ 48 ≤ n then n else 32 + (n - 32 + 16 - spinX c) % 16
    (n < 0x40 → handling c = false ∨ 8 ≤ n → readS s x = smGet 0 c.x wheel) ∧
    (n < 8 → handling c = true → readS s x = smGet 0 c.xs n) ∧
    (∀ p ∈ [(0x40, SLatch.alu0r), (0x41, .alu1r), (0x42, .mulr), (0x43, .cmpr), (0x44, .lsur), (0x45, .xltr), (0x46, .cer),
      (0x47, .vrx), (0x48, .brr), (0x49, .sysr)], n = p.1 → readS s x = sGet c p.2) ∧
    (n = 0x60 → readS s x = BitVec.ofNat 64 s.cyc.cell) ∧
    (n = 0x61 → readS s x = c.rankx) ∧ (n = 0x62 → readS s x = c.ranky) ∧
    (n = 0x63 → readS s x = c.scyc) ∧
    (0x80 ≤ n → n < 0x100 → readS s x = (x.extractLsb' 0 7).signExtend 64) ∧
    (n = 0x109 → readS s x = if (curCell s).ispAct then 1 else 0) ∧
    (n = 0x10A → readS s x = (curCell s).exlbase) ∧ (n = 0x10B → readS s x = (curCell s).exlsize) ∧
    (n = 0x10C → readS s x = (curCell s).exlhead) ∧ (n = 0x10D → readS s x = (curCell s).fwshare) ∧
    (0x100 ≤ n → n < 0x109 ∨ 0x10E ≤ n → n < 0x160 → readS s x = creg c n) ∧
    (n = 0x300 → ∀ i : BitVec 30, BitVec.extractLsb' 0 32 (Bundle.word s.cyc.bundle 11) = 1#2 ++ i → readS s x = i.signExtend 64)

/-- R67, R49, R52: a vector move lands in its own file in the issue cycle, in a foreign file two cycles later, and in an
operand latch in the issue cycle; the M slot writes lsu.vc and the scalar operand latches of the memory units. -/
def Sys2Proof.vectorMoves : Prop :=
  ∀ (s : State) (k : BitVec 4) (g : BitVec 12) (x d : BitVec 10), moveOn s g = true →
    let n := d.toNat
    let lands (t : Target) (lat slot : Nat) (v : Vec) : Host.Outcome State Fault Refusal :=
      .next (launch s { tgt := t, val := v, cnt := lat, slot := slot })
    (isV k = true → shadowed s k.toNat d = false →
      (n < 0x280 → exec (.move k g x d) s =
        lands (.vreg (physV (cur s) (n / 160) (n % 160))) (if n / 160 = k.toNat - 4 then 1 else 3) k.toNat
          (readV s k.toNat x)) ∧
      (0x280 ≤ n → exec (.move k g x d) s = lands (.vlat (dstVLatch n)) 1 k.toNat (readV s k.toNat x))) ∧
    (n < 0x200 → exec (.move 8 g x d) s = lands (.slat (dstMLatch n)) 1 8 ((readS s x).zeroExtend 1024)) ∧
    (exec (.move 8 g x 0x200) s = lands (.vlat .lsuvc) 1 8 (readV s 8 x))

/-- R48, R49, R52, R53, R67, R69: where the moves of every slot put their value. -/
def Obligations.ScalarAndVectorMoves : Prop :=
  scalarMoves ∧ vectorMoves

/-- R42: with DUPEN 0 and D 1, a move into x48 to x63 or into vc0 to vc31 is idle. -/
def Sys2Proof.shadowMovesIdle : Prop :=
  ∀ (s : State) (k : BitVec 4) (g : BitVec 12) (x d : BitVec 10) (h : BitVec 3) (n : BitVec 4),
    dupOn (cur s) = false → (BitVec.extractLsb' 1 1 (Bundle.word s.cyc.bundle 0)) = 1#1 →
    (isS k = true → 0x30 ≤ d.toNat → d.toNat < 0x40 → exec (.move k g x d) s = .next s) ∧
    (isV k = true → 0x140 ≤ d.toNat → d.toNat < 0x160 →
      exec (.move k g x d) s = .next s ∧ exec (.cbRead k g h n d) s = .next s)

/-- R160: a buffer read of a V slot delivers slot (RD + n − 1) mod SIZE of its buffer, and RD and FILL stay; a count above
SIZE, an invalid buffer, or a KIND 0 buffer of another file traps CBOVR. -/
def Sys2Proof.bufferReads : Prop :=
  ∀ (s : State) (k : BitVec 4) (g : BitVec 12) (h : BitVec 3) (m : BitVec 4) (d : BitVec 10),
    isV k = true → moveOn s g = true → shadowed s k.toNat d = false → d.toNat < 0x280 →
    let c := cur s
    let H := h.toNat
    let n := m.toNat + 1
    let j := (cbRd c H + n - 1) % cbSize c H
    let f := d.toNat / 160
    let lands (v : Vec) : Host.Outcome State Fault Refusal :=
      .next (launch s { tgt := .vreg (physV c f (d.toNat % 160)), val := v, cnt := if f = k.toNat - 4 then 1 else 3, slot := k.toNat })
    (cbValid c H = true → n ≤ cbSize c H → cbKind c H = false → cbFile c H = k.toNat - 4 →
      exec (.cbRead k g h m d) s = lands (smGet 0 c.v (160 * cbFile c H + cbBase c H + j))) ∧
    (cbValid c H = true → n ≤ cbSize c H → cbKind c H = true → s.cyc.supp = false →
      exec (.cbRead k g h m d) s = lands (BitVec.ofNat 1024 (readNat (curCell s).spad ((cbBase c H + j) * 128) 128))) ∧
    (cbValid c H = false ∨ cbSize c H < n ∨ (cbKind c H = false ∧ cbFile c H ≠ k.toNat - 4) →
      exec (.cbRead k g h m d) s = .next (raise s 0x0B k.toNat false (BitVec.ofNat 64 H) 0))

/-- R161: a buffer write goes to slot (WR + n − 1) mod SIZE: for KIND 0 as a register write, for KIND 1 as a store that
reaches its banks in cycle c + 3; WR and FILL stay. An invalid buffer traps CBOVR. What a write into a buffer that a producer
feeds leaves in its slots is unpredictable (log 12); nothing else changes. -/
def Sys2Proof.bufferWrites : Prop :=
  ∀ (s : State) (k : BitVec 4) (g : BitVec 12) (x : BitVec 10) (h m : BitVec 3),
    isV k = true → moveOn s g = true → cbSrc x = none →
    let c := cur s
    let H := h.toNat
    let fed : Bool := decide (0 < cbRsv c H ∨ (1 ≤ cbLink c H ∧ cbLink c H ≤ 4))
    let j := (cbWr c H + m.toNat) % cbSize c H
    let reg (slot own : Nat) (v : Vec) : Host.Outcome State Fault Refusal :=
      .next (launch s { tgt := .vreg (160 * cbFile c H + cbBase c H + j), val := v, cnt := if cbFile c H = own then 1 else 3, slot := slot })
    let bank (v : Vec) : Host.Outcome State Fault Refusal :=
      .next (modCur s fun c => { c with bankOps := c.bankOps ++ [{
        cnt := 4, code := 1, act := .store, off := (cbBase c H + j) * 128, len := 128, val := v,
        ext := BitVec.ofNat 256 (0x240 + 8 * H + m.toNat) }] })
    (cbValid c H = true → fed = false → cbKind c H = false →
      exec (.cbWriteV k g x h m) s = reg k.toNat (k.toNat - 4) (readV s k.toNat x) ∧
      exec (.cbWriteM g x h m) s = reg 8 3 (readV s 8 x)) ∧
    (cbValid c H = true → fed = false → cbKind c H = true →
      exec (.cbWriteV k g x h m) s = bank (readV s k.toNat x) ∧
      exec (.cbWriteM g x h m) s = bank (readV s 8 x)) ∧
    (cbValid c H = false →
      exec (.cbWriteV k g x h m) s = .next (raise s 0x0B k.toNat false (BitVec.ofNat 64 H) 0) ∧
      exec (.cbWriteM g x h m) s = .next (raise s 0x0B 8 false (BitVec.ofNat 64 H) 0)) ∧
    (cbValid c H = true → fed = true → ∀ i ∈ [Instr.cbWriteV k g x h m, .cbWriteM g x h m], ∃ t, exec i s = .next t ∧
      t.cyc = s.cyc ∧ t.mem = s.mem ∧ (∀ r, creg (cur t) r = creg c r) ∧ (∀ l, sGet (cur t) l = sGet c l) ∧
      (∀ r, smGet 0 (cur t).x r = smGet 0 c.x r) ∧
      (cbKind c H = true → (cur t).v = c.v ∧ ∀ a, a < 128 * cbBase c H ∨ 128 * (cbBase c H + cbSize c H) ≤ a →
        readByte (curCell t).spad a = readByte (curCell s).spad a) ∧
      (cbKind c H = false → (curCell t).spad = (curCell s).spad ∧
        ∀ r, r < 160 * cbFile c H + cbBase c H ∨ 160 * cbFile c H + cbBase c H + cbSize c H ≤ r → smGet 0 (cur t).v r = smGet 0 c.v r))

/-- R160, R161: reading and writing a circular buffer with a move. -/
def Obligations.BufferMoves : Prop :=
  bufferReads ∧ bufferWrites

/-- R207: the long immediate is IMM sign-extended; every scalar source 0x300 of the bundle reads it, and nothing else of the
bundle or the machine changes. -/
def Sys2Proof.longImmediateIsSupplied : Prop :=
  ∀ (s : State) (i : BitVec 30), ∃ b : Bundle,
    exec (.longImmediate i) s = .next { s with cyc := { s.cyc with bundle := b } } ∧
    (∀ k < 11, b.word k = Bundle.word s.cyc.bundle k) ∧ b.word 11 = 1#2 ++ i ∧
    readS { s with cyc := { s.cyc with bundle := b } } 0x300 = i.signExtend 64

/-- R208: bc carries the broadcast register, truncated to EW bits, in every lane, in every V slot of the bundle. -/
def Sys2Proof.broadcastIsSupplied : Prop :=
  ∀ (s : State) (e : BitVec 2) (x : BitVec 6), ∃ b : Bundle,
    exec (.bcast e x) s = .next { s with cyc := { s.cyc with bundle := b } } ∧
    (∀ k < 11, b.word k = Bundle.word s.cyc.bundle k) ∧ b.word 11 = 2#2 ++ e ++ 0#22 ++ x ∧
    ∀ k, 4 ≤ k → k < 8 → ∀ i < 1024,
      (readV { s with cyc := { s.cyc with bundle := b } } k 0xE0).getLsbD i =
        (readX (cur s) x.toNat).getLsbD (i % (8 * 2 ^ e.toNat))

/-- R207, R208: what imm and bcast of w11 supply to the bundle. -/
def Obligations.ExtensionWordsAreSupplied : Prop :=
  longImmediateIsSupplied ∧ broadcastIsSupplied

/-- R209: chk compares a primary with its shadow bit for bit; a difference traps DUPMIS after the cycle. It is idle when w0
disables it under S, and under D with DUPEN 0. -/
def Obligations.CheckComparesShadow : Prop :=
  ∀ (s : State) (i : BitVec 5),
    let off := stageOn s = false ∨ (dupOn (cur s) = false ∧ dupBit s = true)
    let dupmis (cls : Nat) : State :=
      { s with cyc := { s.cyc with traps := s.cyc.traps ++ [(9, 11, false, BitVec.ofNat 64 (i.toNat + 32 * cls), 0)] } }
    (off → exec (.chk 0 i) s = .next s ∧ exec (.chk 1 i) s = .next s) ∧
    (¬ off →
      exec (.chk 0 i) s = .next (
        if smGet 0 (cur s).x i.toNat = smGet 0 (cur s).x (48 + i.toNat) then s else dupmis 0) ∧
      exec (.chk 1 i) s = .next (
        if smGet 0 (cur s).v i.toNat = smGet 0 (cur s).v (320 + i.toNat) then s else dupmis 1))

/-! ### The br operations -/

/-- R101: a br operation whose guard is false leaves the state: sequential issue goes on. -/
def Sys2Proof.falseBranchGuardFallsThrough : Prop :=
  ∀ (s : State) (i : BitVec 12) (g : BitVec 12) (y a d : BitVec 1), brOn s g = false →
    ∀ b ∈ [Instr.br i g y a d, .brCall i g y a d, .brRet g y a d, .brInd i g y a d, .brLoop i g y a d, .brLoopx i g y a d,
      .brUiret g y a d, .brIfence g y a d, .brSwap g y a d, .brEnd g y a d, .brCalli i g y a d, .brUnspin g y a d],
      exec b s = .next s

/-- R60, R102, R104: the relative branches decide for A + 2 × IMM with one bubble; br.call also writes the return address to
br.r in the issue cycle. A target whose bit 63 differs from that of A traps ALIGN when it is due (R103); that the model keeps it odd
until then is its own choice (log 48). -/
def Sys2Proof.relativeBranches : Prop :=
  ∀ (s : State) (i : BitVec 12) (g : BitVec 12) (y a d : BitVec 1), brOn s g = true →
    let target : Word := s.cyc.addr + 2 * i.signExtend 64
    let due : Word := if target.getLsbD 63 = s.cyc.addr.getLsbD 63 then target else target ||| 1
    let decided (kind : Nat) : State := { s with cyc := { s.cyc with taken := true, bub := 1, kind := kind, target := due } }
    exec (.br i g y a d) s = .next (decided 0) ∧
    exec (.brCall i g y a d) s = .next (result (decided 6) .brr 1 (s.cyc.addr + BitVec.ofNat 64 s.cyc.len))

/-- R60, R102 to R104, R111: the indirect branches go to br.o + 2 × IMM, read after the moves of the bundle. An odd target
traps ALIGN and the operation has no other effect. -/
def Sys2Proof.indirectBranches : Prop :=
  ∀ (s : State) (i : BitVec 12) (g : BitVec 12) (y a d : BitVec 1), brOn s g = true →
    let o := operand s .bro
    let target : Word := o + 2 * i.signExtend 64
    let goes (t : Word) (bub kind : Nat) : State :=
      { s with cyc := { s.cyc with taken := true, bub := bub, kind := kind, target := t } }
    let align : Host.Outcome State Fault Refusal :=
      .next { s with cyc := { s.cyc with traps := s.cyc.traps ++ [(0x0E, 0, false, 0, 0)] } }
    (o.getLsbD 0 = false →
      exec (.brRet g y a d) s = .next (goes o 2 0) ∧
      exec (.brInd i g y a d) s = .next (goes target 2 0) ∧
      exec (.brCalli i g y a d) s = .next (result (goes target 2 6) .brr 1 (s.cyc.addr + BitVec.ofNat 64 s.cyc.len)) ∧
      (∃ t, exec (.brSwap g y a d) s = .next t ∧ t.cyc = (goes o 3 0).cyc ∧
        (curCell t).ispAct = !(curCell s).ispAct ∧ (curCell t).isp0 = (curCell s).isp0 ∧ (curCell t).isp1 = (curCell s).isp1 ∧
        ∀ l, l ∈ (cur t).ilines ↔ l ∈ (cur s).ilines ∧ ¬ (l.va.getLsbD 63 = true ∧ l.va.getLsbD 16 = (curCell s).ispAct))) ∧
    (o.getLsbD 0 = true →
      exec (.brRet g y a d) s = align ∧ exec (.brInd i g y a d) s = align ∧ exec (.brCalli i g y a d) s = align ∧
      exec (.brSwap g y a d) s = align)

/-- R60, R102 to R104, R111: where the relative and the indirect branches go. -/
def Obligations.RelativeAndIndirectBranches : Prop :=
  relativeBranches ∧ indirectBranches

/-- The writes of a loop operation: a counter, SPIN turned by one, and p16 under the numbering after the turn (R105). -/
def Sys2Proof.turnWrites (s : State) (reg : Nat) (v : Word) (p16 : Bool) (fs : List Flight) : Prop :=
  let c := cur s
  let sp : Word := BitVec.ofNat 64 ((spinX c + 1) % 16 + (spinV c + 1) % 32 * 2 ^ 8 + (spinP c + 1) % 48 * 2 ^ 16)
  fs = [{ tgt := .creg reg, val := v.zeroExtend 1024, cnt := 1, slot := 0 },
    { tgt := .creg 0x102, val := sp.zeroExtend 1024, cnt := 1, slot := 0 },
    { tgt := .pred (16 + (48 - (spinP c + 1) % 48) % 48) false, val := if p16 then 1 else 0, cnt := 1, slot := 0 }]

/-- R106, R107: br.loop and br.loopx, for a target in the half of A. While LC is nonzero it falls by one, the wheels turn,
p16 := 1 and the branch is taken without a bubble; br.loop falls through at LC = 0; br.loopx then runs the epilogue on TAIL,
and falls through with the last pass. -/
def Sys2Proof.loopBranches : Prop :=
  ∀ (s : State) (i : BitVec 12) (g : BitVec 12) (y a d : BitVec 1), brOn s g = true →
    let target : Word := s.cyc.addr + 2 * i.signExtend 64
    target.getLsbD 63 = s.cyc.addr.getLsbD 63 →
    let lc := creg (cur s) 0x100
    let tail := creg (cur s) 0x101
    let after (fs : List Flight) (taken : Bool) (kind : Nat) (t : Word) : Host.Outcome State Fault Refusal :=
      .next { (modCur s fun c => { c with flights := c.flights ++ fs }) with
        cyc := { s.cyc with taken := taken, bub := 0, kind := kind, target := t } }
    (lc ≠ 0 → ∃ fs, turnWrites s 0x100 (lc - 1) true fs ∧
      exec (.brLoop i g y a d) s = after fs true 1 target ∧ exec (.brLoopx i g y a d) s = after fs true 2 target) ∧
    (lc = 0 → exec (.brLoop i g y a d) s = .next s) ∧
    (lc = 0 → 1 < tail.toNat → ∃ fs, turnWrites s 0x101 (tail - 1) false fs ∧
      exec (.brLoopx i g y a d) s = after fs true 3 target) ∧
    (lc = 0 → tail = 1 → ∃ fs, turnWrites s 0x101 0 false fs ∧ exec (.brLoopx i g y a d) s = after fs false 4 0) ∧
    (lc = 0 → tail = 0 → exec (.brLoopx i g y a d) s = .next s)

/-- R108: br.unspin writes SPIN := 0, p16 := 1 and p17 to p63 := 0 in physical numbers, and goes on with the next bundle. -/
def Sys2Proof.unspinResetsWheels : Prop :=
  ∀ (s : State) (g : BitVec 12) (y a d : BitVec 1), brOn s g = true →
    let w (t : Target) (v : Vec) : Flight := { tgt := t, val := v, cnt := 1, slot := 0 }
    let fs := w (.creg 0x102) 0 :: (List.range 48).map fun j => w (.pred (16 + j) false) (if j = 0 then 1 else 0)
    exec (.brUnspin g y a d) s = .next { (modCur s fun c => { c with flights := c.flights ++ fs }) with
      cyc := { s.cyc with taken := true, bub := 0, kind := 5, target := 0 } }

/-- R109, R110, R112: br.uiret restores the resume address and ends handler mode with two bubbles, and traps ILLMOVE outside a
handler; br.ifence drops every fetch line that either context of the cell holds and goes on after three bubbles; br.end ends the
task. -/
def Sys2Proof.handlerFenceAndEnd : Prop :=
  ∀ (s : State) (g : BitVec 12) (y a d : BitVec 1), brOn s g = true →
    (handling (cur s) = true → ∃ t, exec (.brUiret g y a d) s = .next t ∧
      t.cyc = { s.cyc with taken := true, bub := 2, kind := 7, target := (cur s).uira } ∧
      cur t = cregPut { cur s with pc := (cur s).uira, lit := (cur s).ulit } 0x108 (creg (cur s) 0x108 &&& ~~~0x20000) ∧
      handling (cur t) = false) ∧
    (handling (cur s) = false → exec (.brUiret g y a d) s = .next
      { s with cyc := { s.cyc with traps := s.cyc.traps ++ [(8, 0, false, BitVec.ofNat 64 (cycWord s 0), 0)] } }) ∧
    (∃ t, exec (.brIfence g y a d) s = .next t ∧ t.cyc = { s.cyc with taken := true, bub := 3, kind := 8, target := 0 } ∧
      cur t = { cur s with ilines := [] } ∧ (curCell t).user.ilines = [] ∧ (curCell t).fw.ilines = []) ∧
    exec (.brEnd g y a d) s = .next { s with cyc := { s.cyc with taken := true, ends := true } }

/-- R106 to R110, R112: br.loop and br.loopx; br.unspin, br.uiret, br.ifence and br.end. -/
def Obligations.LoopAndModeBranches : Prop :=
  loopBranches ∧ unspinResetsWheels ∧ handlerFenceAndEnd

/-! ### The sys triggers -/

/-- The eight sys triggers by number (R217). -/
def Sys2Proof.sysTriggers (k : BitVec 4) (g : BitVec 12) (x : BitVec 10) : List Instr :=
  [.dictLd k g x, .scanOut k g x, .scanIn k g x, .cellFrz k g x, .cellRsm k g x, .migSwap k g x, .cosWr k g x, .ownWr k g x]

/-- R214: in the firmware context a sys trigger is accepted, and sys.r reads 0, unless a command of the same trigger from this
cell still runs; then nothing is accepted and BUSY is 1. In a user context it traps PRIV. -/
def Obligations.SysTriggersAccept : Prop :=
  ∀ (s : State) (k : BitVec 4) (g : BitVec 12) (x : BitVec 10) (j : Fin 8), moveOn s g = true →
    let i := (sysTriggers k g x).get (j.cast rfl)
    let n := s.cyc.cell
    let running := (getDie s (dieOf n)).sys.any fun c => c.cell == n && c.trig == j.val
    let cmd : SysCmd := ⟨n, j.val, operand s .syso, operand s .sysm, readS s x, 0, 0, false, none, false, 0, none, none⟩
    (s.cyc.fw = false → exec i s = .next { s with cyc := { s.cyc with
      traps := s.cyc.traps ++ [(0x0D, k.toNat, false, BitVec.ofNat 64 (0x300 + j), 0)] } }) ∧
    (s.cyc.fw = true → doubled s .sys = false → running = false →
      exec i s = .next (result (modDie s (dieOf n) fun d => { d with sys := d.sys ++ [cmd] }) .sysr 2 0)) ∧
    (s.cyc.fw = true → doubled s .sys = false → running = true → exec i s = .next (result s .sysr 2 1))
/-! ### Vector units -/

/-- The lane operations of vx (R117): what lane v of the result is to lanes o and t of width w. -/
def Sys2Proof.vxRelations (k : BitVec 4) (g : BitVec 12) (x : BitVec 10) (u : BitVec 1) (W : BitVec 2) :
    List (Instr × (Nat → Nat → Nat → Nat → Prop)) :=
  [(.vxAdd k g x u W, fun w o t v => v = (o + t) % 2 ^ w),
   (.vxSub k g x u W, fun w o t v => (v : Int) = ((o : Int) - t) % 2 ^ w),
   (.vxAdds k g x u W, fun w o t v => sval w v = max (-2 ^ (w - 1)) (min (2 ^ (w - 1) - 1) (sval w o + sval w t))),
   (.vxAddsn k g x u W, fun w o t v => v = min (2 ^ w - 1) (o + t)),
   (.vxSubs k g x u W, fun w o t v => sval w v = max (-2 ^ (w - 1)) (min (2 ^ (w - 1) - 1) (sval w o - sval w t))),
   (.vxSubsn k g x u W, fun _ o t v => (v : Int) = max 0 ((o : Int) - t)),
   (.vxMul k g x u W, fun w o t v => v = o * t % 2 ^ w),
   (.vxMin k g x u W, fun w o t v => v = if sval w o ≤ sval w t then o else t),
   (.vxMax k g x u W, fun w o t v => v = if sval w o ≥ sval w t then o else t),
   (.vxCeq k g x u W, fun w o t v => v = if o = t then 2 ^ w - 1 else 0),
   (.vxClt k g x u W, fun w o t v => v = if sval w o < sval w t then 2 ^ w - 1 else 0),
   (.vxCltn k g x u W, fun w o t v => v = if o < t then 2 ^ w - 1 else 0)]

/-- The shifts of R118: the count is the whole lane of t. -/
def Sys2Proof.vxShifts (k : BitVec 4) (g : BitVec 12) (x : BitVec 10) (u : BitVec 1) (W : BitVec 2) :
    List (Instr × (Nat → Nat → Nat → Nat → Prop)) :=
  [(.vxShl k g x u W, fun w o t v => v = if t < w then o * 2 ^ t % 2 ^ w else 0),
   (.vxShr k g x u W, fun w o t v => v = if t < w then o / 2 ^ t else 0),
   (.vxSar k g x u W, fun w o t v => sval w v = if t < w then sval w o / 2 ^ t else if sval w o < 0 then -1 else 0)]

/-- R117: vx0 and vx1 act lane by lane with latency 2 on the operand latch and the moved value, in every width; the logic
operations act on all 1024 bits. -/
def Sys2Proof.vectorIntegerLanes : Prop :=
  ∀ (s : State) (k : BitVec 4) (g : BitVec 12) (x : BitVec 10) (u : BitVec 1) (W : BitVec 2) (t : Vec),
    moveOn s g = true → doubled s (vxUnit u) = false → vsource s k.toNat x = some t →
    let o := voperand s (vxOperand u)
    let w := 8 * 2 ^ W.toNat
    (∀ c ∈ vxRelations k g x u W, ∃ v : Vec, exec c.1 s = .next (vresult s (vxResult u) 2 v) ∧
      ∀ i < 1024 / w, c.2 w (lane w o.toNat i) (lane w t.toNat i) (lane w v.toNat i)) ∧
    exec (.vxAnd k g x u) s = .next (vresult s (vxResult u) 2 (o &&& t)) ∧
    exec (.vxOr k g x u) s = .next (vresult s (vxResult u) 2 (o ||| t)) ∧
    exec (.vxXor k g x u) s = .next (vresult s (vxResult u) 2 (o ^^^ t)) ∧
    exec (.vxAndn k g x u) s = .next (vresult s (vxResult u) 2 (o &&& ~~~t))

/-- R118: a vector shift takes its count from each lane of t, unsigned and not reduced. -/
def Sys2Proof.vectorShiftCounts : Prop :=
  ∀ (s : State) (k : BitVec 4) (g : BitVec 12) (x : BitVec 10) (u : BitVec 1) (W : BitVec 2) (t : Vec),
    moveOn s g = true → doubled s (vxUnit u) = false → vsource s k.toNat x = some t →
    let o := voperand s (vxOperand u)
    let w := 8 * 2 ^ W.toNat
    ∀ c ∈ vxShifts k g x u W, ∃ v : Vec, exec c.1 s = .next (vresult s (vxResult u) 2 v) ∧
      ∀ i < 1024 / w, c.2 w (lane w o.toNat i) (lane w t.toNat i) (lane w v.toNat i)

/-- R117, R118: the lane operations of vx0 and vx1. -/
def Obligations.VectorIntegers : Prop :=
  vectorIntegerLanes ∧ vectorShiftCounts

/-- The lane operations of vf in a format (R120), but for toi and fromi. -/
def Sys2Proof.vfLanes (k : BitVec 4) (g : BitVec 12) (x : BitVec 10) (f : BitVec 2) (F : Fmt) : List (Instr × (Nat → Nat → Nat → Nat)) :=
  let w := FmtOps.width F
  let mask (b : Bool) : Nat := if b then 2 ^ w - 1 else 0
  [(.vfAdd k g x f, fun o _ t => fadd F o t), (.vfSub k g x f, fun o _ t => fsub F o t), (.vfMul k g x f, fun o _ t => fmul F o t),
   (.vfFma k g x f, fun o m t => ffma F o m t), (.vfFms k g x f, fun o m t => ffms F o m t),
   (.vfMin k g x f, fun o _ t => fminmax F false o t), (.vfMax k g x f, fun o _ t => fminmax F true o t),
   (.vfAbs k g x f, fun _ _ t => t % 2 ^ (w - 1)), (.vfNeg k g x f, fun _ _ t => t ^^^ 2 ^ (w - 1)),
   (.vfCeq k g x f, fun o _ t => mask (feq F o t)), (.vfClt k g x f, fun o _ t => mask (flt F o t)),
   (.vfCle k g x f, fun o _ t => mask (fle F o t)),
   (.vfRcpe k g x f, fun _ _ t => frcpe F t), (.vfRsqe k g x f, fun _ _ t => frsqe F t)]

/-- R116, R120: vf acts lane by lane with latency 4 on vf.o, vf.m and the moved value, in each of the four formats; fromi rounds
signed integer lanes in the direction of vf.m, and toi also puts its counts and records in flight when a lane is special. -/
def Obligations.VectorFloatLanes : Prop :=
  ∀ (s : State) (k : BitVec 4) (g : BitVec 12) (x : BitVec 10) (f : BitVec 2) (t : Vec),
    moveOn s g = true → doubled s .vf = false → vsource s k.toNat x = some t →
    let F := [fp16, bf16, fp32, fp64].getD f.toNat fp64
    let w := FmtOps.width F
    let o := (voperand s .vfo).toNat
    let m := voperand s .vfm
    let rm := (m.extractLsb' 0 2).toNat
    (∀ c ∈ vfLanes k g x f F, ∃ v : Vec, exec c.1 s = .next (vresult s .vfr 4 v) ∧
      ∀ i < 1024 / w, lane w v.toNat i = c.2 (lane w o i) (lane w m.toNat i) (lane w t.toNat i) % 2 ^ w) ∧
    (∃ v : Vec, exec (.vfFromi k g x f) s = .next (vresult s .vfr 4 v) ∧
      ∀ i < 1024 / w, lane w v.toNat i = fpackInt F rm false (sval w (lane w t.toNat i)) 0 % 2 ^ w) ∧
    (∃ v : Vec, ∃ r, exec (.vfToi k g x f) s = .next r ∧
      (∀ i < 1024 / w, lane w v.toNat i = (toIntVal w true rm (funpack F (lane w t.toNat i))).1) ∧
      ((∀ i < 1024 / w, (toIntVal w true rm (funpack F (lane w t.toNat i))).2 = .none) → r = vresult s .vfr 4 v) ∧
      (¬ (∀ i < 1024 / w, (toIntVal w true rm (funpack F (lane w t.toNat i))).2 = .none) →
        ∃ e : Vec, r = launch (vresult s .vfr 4 v) { tgt := .counts, val := e, cnt := 4, slot := 15 } ∧
        ∀ i < 1024 / w,
          (e.getLsbD i = true ↔ (toIntVal w true rm (funpack F (lane w t.toNat i))).2 = .nan) ∧
          (e.getLsbD (128 + i) = true ↔ (toIntVal w true rm (funpack F (lane w t.toNat i))).2 = .inf)))

/-- R122: NaN results. The first NaN in the order o, m, t comes back quieted; an invalid operation gives the canonical NaN. -/
def Obligations.NaNResults : Prop :=
  ∀ (F : Fmt), F ∈ [fp16, bf16, fp32, fp64] → ∀ (o m t : Nat), o < 2 ^ FmtOps.width F → m < 2 ^ FmtOps.width F →
    t < 2 ^ FmtOps.width F →
    let nan (v : Nat) : Prop := funpack F v = .nan
    let q (v : Nat) : Nat := v ||| 2 ^ (F.fw - 1)
    let canonical : Nat := (2 ^ F.ew - 1) * 2 ^ F.fw + 2 ^ (F.fw - 1)
    let infinite (v : Nat) : Prop := funpack F v = .inf true ∨ funpack F v = .inf false
    let zero (v : Nat) : Prop := v % 2 ^ (FmtOps.width F - 1) = 0
    let sgn (v : Nat) : Bool := v.testBit (FmtOps.width F - 1)
    (nan o → fadd F o t = q o ∧ fsub F o t = q o ∧ fmul F o t = q o ∧ ffma F o m t = q o ∧ ffms F o m t = q o) ∧
    (¬ nan o → nan m → ffma F o m t = q m ∧ ffms F o m t = q m) ∧
    (¬ nan o → nan t → fadd F o t = q t ∧ fsub F o t = q t ∧ fmul F o t = q t ∧
      (¬ nan m → ffma F o m t = q t ∧ ffms F o m t = q t)) ∧
    (infinite o → infinite t → (sgn o ≠ sgn t → fadd F o t = canonical) ∧ (sgn o = sgn t → fsub F o t = canonical)) ∧
    (infinite o → zero t → fmul F o t = canonical ∧ fmul F t o = canonical) ∧
    (infinite o → zero m → ¬ nan t → ffma F o m t = canonical ∧ ffma F m o t = canonical ∧
      ffms F o m t = canonical ∧ ffms F m o t = canonical) ∧
    (¬ nan o → ¬ nan m → infinite t → infinite o ∨ infinite m → ¬ zero o → ¬ zero m →
      ((sgn o ^^ sgn m) ≠ sgn t → ffma F o m t = canonical) ∧ ((sgn o ^^ sgn m) = sgn t → ffms F o m t = canonical))

/-- The value of a code that is no NaN (R17). The code of an infinity stands for the power of two above the largest finite value: IEEE
754 rounds to nearest as if that value were the next one. -/
def Sys2Proof.lineVal (F : Fmt) (v : Nat) : ℚ :=
  let x := v / 2 ^ F.fw % 2 ^ F.ew
  let f := v % 2 ^ F.fw
  (if v.testBit (F.ew + F.fw) then -1 else 1) * ((if x = 0 then (f : ℚ) else 2 ^ F.fw + f) *
    2 ^ ((max x 1 : ℤ) - (2 ^ (F.ew - 1) - 1) - F.fw))

/-- R121, R125: v is x rounded to F in a direction, and has the sign of x: 0 to the nearest code, a tie to the even one; 1 toward zero,
2 down, 3 up. A direction that rounds away from zero may give an infinity, one that rounds toward it never does. -/
def Sys2Proof.rounds (F : Fmt) (rm : Nat) (x : ℚ) (v : Nat) : Prop :=
  let w := 1 + F.ew + F.fw
  let num (u : Nat) : Prop := u < 2 ^ w ∧ funpack F u ≠ .nan
  let val (u : Nat) : WithBot (WithTop ℚ) := numeric (funpack F u)
  let at_ : WithBot (WithTop ℚ) := ((x : WithTop ℚ) : WithBot (WithTop ℚ))
  num v ∧ (x ≠ 0 → v.testBit (w - 1) = decide (x < 0)) ∧
  (rm = 0 → ∀ u, num u → |lineVal F v - x| ≤ |lineVal F u - x| ∧
    (|lineVal F v - x| = |lineVal F u - x| → lineVal F u ≠ lineVal F v → v % 2 = 0)) ∧
  (rm = 2 ∨ (rm = 1 ∧ 0 ≤ x) → val v ≤ at_ ∧ ∀ u, num u → val u ≤ at_ → val u ≤ val v) ∧
  (rm = 3 ∨ (rm = 1 ∧ x < 0) → at_ ≤ val v ∧ ∀ u, num u → at_ ≤ val u → val v ≤ val u)

/-- The value of a DM8 code (R20): z leading zeros of its seven bits choose the row of the table. -/
def Sys2Proof.dm8Value (c : Nat) : ℚ :=
  let m := c % 128
  let at_ (w : Nat) (e : List ℤ) : ℚ := 2 ^ (e.getD (m / 2 ^ w % 4) 0) * (1 + (m % 2 ^ w : Nat) / 2 ^ w)
  (if c.testBit 7 then -1 else 1) *
    (if 0x40 ≤ m then at_ 4 [-2, -1, 0, 1] else if 0x20 ≤ m then at_ 3 [-4, -3, 2, 3] else if 0x10 ≤ m then at_ 2 [-6, -5, 4, 5]
     else if 0x08 ≤ m then at_ 1 [-8, -7, 6, 7] else if 0x04 ≤ m then at_ 0 [-10, -9, 8, 9]
     else if m = 3 then 2 ^ (10 : ℤ) else if m = 2 then 2 ^ (-11 : ℤ) else if m = 1 then 2 ^ (-12 : ℤ) else 0)

/-- R22: v is x converted into DM8. -/
def Sys2Proof.roundsDm8 (x : ℚ) (v : Nat) : Prop :=
  let s : Nat := if x < 0 then 128 else 0
  let a := |x|
  let far (c : Nat) : ℚ := |dm8Value c - a|
  (a < 2 ^ (-13 : ℤ) → v = 0) ∧ (2 ^ (-13 : ℤ) ≤ a → a < 2 ^ (-12 : ℤ) → v = s + 1) ∧ (1024 ≤ a → v = s + 3) ∧
  (2 ^ (-12 : ℤ) ≤ a → a < 1024 → ∃ c, 1 ≤ c ∧ c < 128 ∧ v = s + c ∧ ∀ d, 1 ≤ d → d < 128 → d ≠ c →
    far c < far d ∨ (far c = far d ∧ ((c % 2 = 0 ∧ d % 2 = 1) ∨ (c % 2 = d % 2 ∧ dm8Value c < dm8Value d))))

/-- R125: i is x rounded to an integer in a direction. -/
def Sys2Proof.roundsInt (rm : Nat) (x : ℚ) (i : ℤ) : Prop :=
  (rm = 0 → 2 * |x - i| ≤ 1 ∧ (2 * |x - i| = 1 → i % 2 = 0)) ∧
  (rm = 2 ∨ (rm = 1 ∧ 0 ≤ x) → (i : ℚ) ≤ x ∧ x < i + 1) ∧ (rm = 3 ∨ (rm = 1 ∧ x < 0) → x ≤ i ∧ (i : ℚ) - 1 < x)

/-- R124, step 1: y is x rounded to q significant bits, to nearest with ties to even, with no bound on the exponent. -/
def Sys2Proof.significant (q : Nat) (x : ℝ) (y : ℚ) : Prop :=
  ∃ (n k : ℤ), 2 ^ (q - 1) * (2 : ℝ) ^ k ≤ |x| ∧ |x| < 2 ^ q * (2 : ℝ) ^ k ∧ y = n * (2 : ℚ) ^ k ∧
    2 * |x / (2 : ℝ) ^ k - n| ≤ 1 ∧ (2 * |x / (2 : ℝ) ^ k - n| = 1 → n % 2 = 0)

/-- R121: add, sub, mul, fma and fms give the exact value rounded once, an exact zero with the sign that the rule names, and an
infinity where an operand or the product is one and the operation is valid. R124: rcpe and rsqe are rounded to min(p, 12) bits and
then to the format, with their special cases. -/
def Obligations.FloatArithmetic : Prop :=
  ∀ (F : Fmt), F ∈ [fp16, bf16, fp32, fp64] → ∀ (o m t : Nat), o < 2 ^ FmtOps.width F → m < 2 ^ FmtOps.width F →
    t < 2 ^ FmtOps.width F →
    let top : Nat := 2 ^ (FmtOps.width F - 1)
    let L := lineVal F
    let neg (v : Nat) : Bool := v.testBit (FmtOps.width F - 1)
    let fin (v : Nat) : Prop := v / 2 ^ F.fw % 2 ^ F.ew ≠ 2 ^ F.ew - 1
    let inf (v : Nat) : Prop := v % top = (2 ^ F.ew - 1) * 2 ^ F.fw
    let signed_ (s : Bool) (v : Nat) : Nat := if s then top + v else v
    let infinity (s : Bool) : Nat := signed_ s ((2 ^ F.ew - 1) * 2 ^ F.fw)
    let canonical : Nat := (2 ^ F.ew - 1) * 2 ^ F.fw + 2 ^ (F.fw - 1)
    let is (x : ℚ) (s : Bool) (v : Nat) : Prop := rounds F 0 x v ∧ (x = 0 → v = signed_ s 0)
    let s := neg o ^^ neg m
    (fin o → fin t → is (L o + L t) (neg o && neg t) (fadd F o t) ∧ is (L o - L t) (neg o && !neg t) (fsub F o t) ∧
      is (L o * L t) (neg o ^^ neg t) (fmul F o t)) ∧
    (fin o → fin m → fin t → is (L o * L m + L t) (s && neg t) (ffma F o m t) ∧
      is (L o * L m - L t) (s && !neg t) (ffms F o m t)) ∧
    (inf o → (fin t ∨ (inf t ∧ neg o = neg t) → fadd F o t = o) ∧ (fin t ∨ (inf t ∧ neg o ≠ neg t) → fsub F o t = o)) ∧
    (fin o → inf t → fadd F o t = t ∧ fsub F o t = infinity (!neg t)) ∧
    (inf o → inf m ∨ (fin m ∧ m % top ≠ 0) → fmul F o m = infinity s ∧ fmul F m o = infinity s ∧
      (fin t ∨ (inf t ∧ neg t = s) → ffma F o m t = infinity s ∧ ffma F m o t = infinity s) ∧
      (fin t ∨ (inf t ∧ neg t ≠ s) → ffms F o m t = infinity s ∧ ffms F m o t = infinity s)) ∧
    (fin o → fin m → inf t → ffma F o m t = t ∧ ffms F o m t = infinity (!neg t)) ∧
    (let q := min (F.fw + 1) 12
     (fin t → L t ≠ 0 → ∃ y, significant q (1 / (L t : ℝ)) y ∧ rounds F 0 y (frcpe F t)) ∧
     (fin t → 0 < L t → ∃ y, significant q (1 / Real.sqrt (L t : ℝ)) y ∧ rounds F 0 y (frsqe F t)) ∧
     (fin t → L t < 0 → frsqe F t = canonical) ∧
     (t % top = 0 → frcpe F t = infinity (neg t) ∧ frsqe F t = infinity (neg t)) ∧
     (inf t → frcpe F t = signed_ (neg t) 0 ∧ frsqe F t = if neg t then canonical else 0) ∧
     (funpack F t = .nan → frcpe F t = t ||| 2 ^ (F.fw - 1) ∧ frsqe F t = t ||| 2 ^ (F.fw - 1)))

/-- R123: min, max and the compares order numbers by value, prefer a number to a NaN, and put −0 below +0 for min and max
only. -/
def Obligations.FloatOrder : Prop :=
  ∀ (F : Fmt), F ∈ [fp16, bf16, fp32, fp64] → ∀ (o t : Nat), o < 2 ^ FmtOps.width F → t < 2 ^ FmtOps.width F →
    let nan (v : Nat) : Prop := funpack F v = .nan
    let val (v : Nat) := numeric (funpack F v)
    (nan o ∨ nan t → feq F o t = false ∧ flt F o t = false ∧ fle F o t = false) ∧
    (¬ nan o → nan t → fminmax F false o t = o ∧ fminmax F true o t = o) ∧
    (nan o → ¬ nan t → fminmax F false o t = t ∧ fminmax F true o t = t) ∧
    (nan o → nan t → fminmax F false o t = o ||| 2 ^ (F.fw - 1) ∧ fminmax F true o t = o ||| 2 ^ (F.fw - 1)) ∧
    (¬ nan o → ¬ nan t →
      (flt F o t = true ↔ val o < val t) ∧ (feq F o t = true ↔ val o = val t) ∧ (fle F o t = true ↔ val o ≤ val t) ∧
      (val o < val t → fminmax F false o t = o ∧ fminmax F true o t = t) ∧
      (val t < val o → fminmax F false o t = t ∧ fminmax F true o t = o) ∧
      (val o = val t → o = t → fminmax F false o t = o ∧ fminmax F true o t = o)) ∧
    (let z : Nat := 2 ^ (FmtOps.width F - 1)
     fminmax F false 0 z = z ∧ fminmax F false z 0 = z ∧ fminmax F true 0 z = 0 ∧ fminmax F true z 0 = 0)

/-- R121, R125: rounding. m / 2^sh goes to a neighbouring integer: to the nearest with ties to even (0), toward zero (1), down
(2) or up (3) for a value of the sign. -/
def Obligations.RoundingDirections : Prop :=
  ∀ (neg : Bool) (m sh : Nat),
    let q := roundShift 0 neg m sh
    let lo := m / 2 ^ sh
    let hi := (m + 2 ^ sh - 1) / 2 ^ sh
    (∀ r : Nat, ((q * 2 ^ sh : Int) - m).natAbs ≤ ((r * 2 ^ sh : Int) - m).natAbs) ∧
    (∀ r : Nat, r ≠ q → ((q * 2 ^ sh : Int) - m).natAbs = ((r * 2 ^ sh : Int) - m).natAbs → q % 2 = 0) ∧
    roundShift 1 neg m sh = lo ∧
    roundShift 2 neg m sh = (if neg then hi else lo) ∧ roundShift 3 neg m sh = if neg then lo else hi

/-- R127, R128: vr.perm, vr.lsh and vr.rot move whole lanes with latency 3; D is o followed by m, and lanes beyond it are 0. -/
def Sys2Proof.laneMoves : Prop :=
  ∀ (s : State) (k : BitVec 4) (g : BitVec 12) (x : BitVec 10) (W : BitVec 2) (t : Vec),
    moveOn s g = true → doubled s .vr = false → vsource s k.toNat x = some t →
    let w := 8 * 2 ^ W.toNat
    let n := 1024 / w
    let o := (voperand s .vro).toNat
    let m := (voperand s .vrm).toNat
    let D (i : Nat) : Nat := if i < n then lane w o i else if i < 2 * n then lane w m (i - n) else 0
    let c0 := lane w t.toNat 0
    (∃ v : Vec, exec (.vrPerm k g x W) s = .next (vresult s .vrr 3 v) ∧ ∀ i < n, lane w v.toNat i = D (lane w t.toNat i)) ∧
    (∃ v : Vec, exec (.vrLsh k g x W) s = .next (vresult s .vrr 3 v) ∧ ∀ i < n, lane w v.toNat i = D (i + c0)) ∧
    (∃ v : Vec, exec (.vrRot k g x W) s = .next (vresult s .vrr 3 v) ∧ ∀ i < n, lane w v.toNat i = lane w o ((i + c0 % n) % n))

/-- R129, R130: the reductions, with latency 8: radd the signed sum and rmax the largest lane with its lowest index, rfadd and
rfmax the tree of vf.add and vf.max over adjacent pairs. -/
def Obligations.Reductions : Prop :=
  ∀ (s : State) (k : BitVec 4) (g : BitVec 12) (x : BitVec 10) (W : BitVec 2) (t : Vec),
    moveOn s g = true → doubled s .vr = false → vsource s k.toNat x = some t →
    let w := 8 * 2 ^ W.toNat
    let n := 1024 / w
    let l (i : Nat) : Int := sval w (lane w t.toNat i)
    let F := [fp16, bf16, fp32, fp64].getD W.toNat fp64
    let codes := (List.range (1024 / FmtOps.width F)).map (lane (FmtOps.width F) t.toNat)
    (exec (.vrRadd k g x W) s = .next (vresult s .vrr 8
      (BitVec.setWidth 1024 (BitVec.ofInt 64 (((List.range n).map l).sum)))) ) ∧
    (∃ j < n, (∀ i < n, l i ≤ l j) ∧ (∀ i < j, l i < l j) ∧
      exec (.vrRmax k g x W) s = .next (vresult s .vrr 8 (BitVec.ofNat 1024 ((BitVec.ofInt 64 (l j)).toNat + j * 2 ^ 64)))) ∧
    (∃ v, treeReduce (fadd F) 6 codes = [v] ∧ exec (.vrRfadd k g x W) s = .next (vresult s .vrr 8 (BitVec.ofNat 1024 v))) ∧
    (∃ v, treeReduce (fminmax F true) 6 codes = [v] ∧ exec (.vrRfmax k g x W) s = .next (vresult s .vrr 8 (BitVec.ofNat 1024 v)))

/-- R131: vr.xtr reads lane j = t[0] mod n of vr.o and puts it, sign-extended, on vr.x with latency 3; nothing else is written. -/
def Sys2Proof.laneExtract : Prop :=
  ∀ (s : State) (k : BitVec 4) (g : BitVec 12) (x : BitVec 10) (W : BitVec 2) (t : Vec),
    moveOn s g = true → doubled s .vr = false → vsource s k.toNat x = some t →
    let w := 8 * 2 ^ W.toNat
    let j := lane w t.toNat 0 % (1024 / w)
    exec (.vrXtr k g x W) s =
      .next (result s .vrx 3 (BitVec.ofInt 64 (sval w (lane w (voperand s .vro).toNat j))))

/-- R128, R131: the lane operations of vr. -/
def Obligations.LaneCommands : Prop :=
  laneMoves ∧ laneExtract

/-- R75, R160: every trigger of an S or V slot: two triggers of one unit start nothing, and each writes the port; an illegal
buffer read traps CBOVR and nothing else happens. -/
def Obligations.DoubledTriggersCollide : Prop :=
  ∀ (p : Bool) (i : Instr) (s : State) (k : Nat) (w : SlotWord) (u : FUnit), encode i = some (k, w) → WellFormed p i = true →
    moveOn s (wGuard w) = true → unitOf k (wDst w).toNat = some u →
    let port (v : Vec) : Host.Outcome State Fault Refusal :=
      .next (launch s { tgt := .port u, val := v, cnt := 1, slot := k, aux := BitVec.ofNat 64 (wDst w).toNat })
    (doubled s u = true → k < 4 → (u = .sys → s.cyc.fw = true) → exec i s = port ((readS s (wSrc w)).zeroExtend 1024)) ∧
    (doubled s u = true → 4 ≤ k → ∀ t, vsource s k (wSrc w) = some t → exec i s = port t) ∧
    (∀ h n, 4 ≤ k → cbSrc (wSrc w) = some (h, n) → cbReadOk (cur s) k h n = false →
      exec i s = .next (raise s 0x0B k false (BitVec.ofNat 64 h) 0))
/-! ### The X and T words -/

/-- R42, R199: when w0 has S = 1 and its guard is false, the X word, the T word and chk do nothing. -/
def Sys2Proof.stagedWordsIdle : Prop :=
  ∀ (i : Instr) (s : State) (k : Nat) (w : SlotWord), encode i = some (k, w) → k = 9 ∨ k = 10 ∨ (k = 11 ∧ w.toNat / 2 ^ 30 = 3) →
    stageOn s = false → exec i s = .next s

/-- R42, R45, R101, R199: a word whose guard is false, and a word that S or D idles, changes nothing. -/
def Obligations.WordsOfFalseGuardsAreIdle : Prop :=
  falseGuardDoesNothing ∧ stagedWordsIdle ∧ falseBranchGuardFallsThrough ∧ shadowMovesIdle

/-- R181: mx.push and mx.pacc perform nothing and trap ILLMOVE of the X slot where a TSHAPE or the pair of formats is bad. -/
def Sys2Proof.badTilesTrap : Prop :=
  ∀ (s : State) (a : BitVec 3) (ta tb : BitVec 4), stageOn s = true →
    let c := cur s
    let f (t : BitVec 4) (n l : Nat) : Nat := ((creg c (0x140 + t.toNat)).extractLsb' n l).toNat
    let bad (t : BitVec 4) : Prop := 4 ≤ f t 0 3 ∨ f t 16 7 = 0 ∨ 64 < f t 16 7 ∨ f t 24 8 = 0 ∨
      (if f t 0 3 < 2 then 128 else 64) < f t 24 8
    bad ta ∨ bad tb ∨ f ta 0 3 ≠ f tb 0 3 →
    let ill := raise s 8 9 false (BitVec.ofNat 64 (cycWord s 9)) 9
    exec (.mxPush a ta tb) s = .next ill ∧ exec (.mxPacc a ta tb) s = .next ill

/-- R182, R183, R186: the four advancing commands. Every slice ages and those past 127 leave; a push adds its slice with the cursors of
R182 moved, but for a tile whose TSHAPE a move of the bundle writes; mx.acc and mx.pacc add the beat's products to every row, unless a
row's exponent would overflow: then nothing happens but ACCEXP, naming the lowest failing row. -/
def Sys2Proof.arrayAdvances : Prop :=
  ∀ (s : State) (a : BitVec 3) (ta tb : BitVec 4), stageOn s = true →
    let c := cur s
    let x := curCell s
    let aged (l : List Slice) : List Slice := (l.map fun u => { u with age := u.age + 1 }).filter fun u => u.age ≤ 127
    let p := pushSlice c ta.toNat tb.toNat a.toNat
    let q := keepMoved c p.1 [ta.toNat, tb.toNat]
    let moves (d : Ctx) (l : List Slice) : State := modCurCell (modCur s fun _ => d) fun y => { y with slices := l }
    let beats (d : Ctx) (l : List Slice) : Host.Outcome State Fault Refusal :=
      .next (match beatFails x l with
        | some (t, i) => raise s 0x0A 9 false (BitVec.ofNat 64 (t + i * 2 ^ 8)) 0
        | none => modCurCell (modCur s fun _ => d) fun y => beatRows ((creg c 0x105).getLsbD 0) l { y with slices := l })
    exec .mxShift s = .next (moves c (aged x.slices)) ∧
    exec .mxAcc s = beats c (aged x.slices) ∧
    (tileOk c ta.toNat = true → tileOk c tb.toNat = true → tFmt c ta.toNat = tFmt c tb.toNat →
      exec (.mxPush a ta tb) s = .next (moves q (aged (x.slices ++ [p.2]))) ∧
      exec (.mxPacc a ta tb) s = beats q (aged (x.slices ++ [p.2])))

/-- R181 to R183, R186: mx.push, mx.shift, mx.acc and mx.pacc, and the tiles they refuse. -/
def Obligations.ArrayCommands : Prop :=
  badTilesTrap ∧ arrayAdvances

/-- R182: half h of a push, which finds context c and leaves d: column CUR of A, and of B the row CUR, or the row before where the
map of A marks the column. The cursors move and nothing else of the context changes. Where A is at its end the half takes nothing and
moves nothing. That operands without a valid tag (B's beyond the lines of the tile, and those of a half that takes nothing) are 0 is
the model's choice (log 84). -/
def Sys2Proof.takesHalf (w : Nat) (c d : Ctx) (ta tb h : Nat) (u : Slice) : Prop :=
  let ca := tCur c ta
  let cb := if tb = ta then ca + 1 else tCur c tb
  let again : Bool := decide (1 ≤ ca ∧ ca ≤ 63 ∧ 1 ≤ cb) && (creg c (0x150 + ta)).getLsbD ca
  let rb := if again then cb - 1 else cb
  let put (v : Word) (k : Nat) : Word := v &&& ~~~0xFF00000000 ||| BitVec.ofNat 64 (k * 2 ^ 32)
  { d with cr := c.cr } = c ∧
  (tKlen c ta ≤ ca → d = c ∧ ∀ i < 64, bits u.a.toNat (512 * h + w * i) w = 0 ∧ bits u.b.toNat (512 * h + w * i) w = 0 ∧
    u.av.getLsbD (64 * h + i) = false ∧ u.bv.getLsbD (64 * h + i) = false) ∧
  (ca < tKlen c ta →
    (∀ n, creg d n =
      if n = 0x140 + tb ∧ again = false ∧ rb < tKlen c tb then put (creg c n) (rb + 1)
      else if n = 0x140 + ta then put (creg c n) (ca + 1) else creg c n) ∧
    ∀ i < 64,
      bits u.a.toNat (512 * h + w * i) w = bits (tileOf c ta).toNat (1024 * i + w * ca) w ∧
      bits u.b.toNat (512 * h + w * i) w =
        (if w = 16 then bits (tileOf c tb).toNat (1024 * rb + 16 * i) 16
         else bits (tileOf c tb).toNat (1024 * (rb / 2) + 8 * (2 * i + rb % 2)) 8) ∧
      u.av.getLsbD (64 * h + i) = decide (i < tExt c ta) ∧ u.bv.getLsbD (64 * h + i) = decide (i < tExt c tb ∧ rb < tKlen c tb))

/-- R182, R193: a push takes one k of a 16-bit pair of tiles, or two of an 8-bit pair, whose B rows lie interleaved in the lines of the
tile; and how the cursors of the two tiles move. -/
def Obligations.PushTakesOperands : Prop :=
  ∀ (c : Ctx) (ta tb acc : Nat), ta < 16 → tb < 16 → tFmt c ta < 4 → smWf 0 0 c.cr = true →
    let p := pushSlice c ta tb acc
    p.2.age = 0 ∧ p.2.tile.toNat = acc % 8 ∧ p.2.fmt.toNat = tFmt c ta ∧
    (2 ≤ tFmt c ta → takesHalf 16 c p.1 ta tb 0 p.2 ∧
      ∀ i < 64, p.2.av.getLsbD (64 + i) = false ∧ p.2.bv.getLsbD (64 + i) = false) ∧
    (tFmt c ta < 2 → ∃ d, takesHalf 8 c d ta tb 0 p.2 ∧ takesHalf 8 d p.1 ta tb 1 p.2)

/-- q is i / d, rounded to the nearest integer with ties to even. -/
def Sys2Proof.nearestEven (i d q : Int) : Prop := 2 * |q * d - i| ≤ d ∧ (2 * |q * d - i| = d → q % 2 = 0)

/-- R31, R32: what a beat makes of one row: an empty row takes an exponent; a row that could grow past 46 bits is first shifted right by
k, in the direction of ACCCTL, unless its exponent would pass 32767; each product is aligned by truncation toward zero and added; HR
follows the longest mantissa. -/
def Sys2Proof.rowTakesBeat : Prop :=
  ∀ (rz : Bool) (r : AccRow) (v : List Term) (pmax : Int) (len : Nat),
    r.hr.toNat ≤ 46 → (∀ j < 64, (mant r j).natAbs < 2 ^ (46 - r.hr.toNat)) →
    (∀ t ∈ v, t.col < 64 ∧ t.p ≠ 0 ∧ t.p.natAbs < 2 ^ 32 ∧ t.ep.natAbs ≤ 30000) →
    (∀ j, (v.filter fun t => t.col = j).length ≤ 2) →
    (v = [] → rowUpdate rz r v = (r, false, false) ∧ expOverflow r v = false) ∧
    ((∃ t ∈ v, t.ep = pmax) → (∀ t ∈ v, t.ep ≤ pmax) → (∃ t ∈ v, 2 ^ len ≤ 2 * t.p.natAbs) → (∀ t ∈ v, t.p.natAbs < 2 ^ len) →
      let e0 := if r.z then pmax + len - 34 else r.e.toInt
      let m : Int := max (46 - r.hr.toNat) (len + pmax - e0)
      let k : Nat := if 46 < m + 2 then (m - 32).toNat else 0
      let e := e0 + k
      let added (t : Term) : Int := if e ≤ t.ep then t.p * 2 ^ (t.ep - e).toNat else Int.tdiv t.p (2 ^ (e - t.ep).toNat)
      let q := rowUpdate rz r v
      (expOverflow r v = true ↔ 46 < m + 2 ∧ 32767 < e) ∧
      (expOverflow r v = false →
        q.1.e.toInt = e ∧ q.1.z = false ∧ q.1.pf = r.pf ∧ (q.2.1 = true ↔ 46 < m + 2) ∧
        (q.2.2 = true ↔ ∃ t ∈ v, t.ep < e ∧ ¬ (2 ^ (e - t.ep).toNat ∣ t.p)) ∧
        (∀ j < 64, ∃ old : Int, (rz = true → old = Int.tdiv (mant r j) (2 ^ k)) ∧
          (rz = false → nearestEven (mant r j) (2 ^ k) old) ∧
          mant q.1 j = old + ((v.filter fun t => t.col = j).map added).sum) ∧
        q.1.hr.toNat ≤ 46 ∧ (∀ j < 64, (mant q.1 j).natAbs < 2 ^ (46 - q.1.hr.toNat)) ∧
        ((∃ j < 64, mant q.1 j ≠ 0) → ∃ j < 64, 2 ^ (46 - q.1.hr.toNat) ≤ 2 * (mant q.1 j).natAbs)))

/-- R30: the product of a pair of operands: P and its scale, nothing where one is zero, poison where one is a NaN or infinite. -/
def Sys2Proof.productsAreExact : Prop :=
  ∀ (a b : Nat), a < 2 ^ 16 → b < 2 ^ 16 →
    (∀ c ∈ [(2, bf16), (3, fp16)],
      let F : Fmt := c.2
      let x (v : Nat) : Nat := v / 2 ^ F.fw % 2 ^ F.ew
      let special (v : Nat) : Prop := x v = 2 ^ F.ew - 1
      let p (v : Nat) : Int := (if v.testBit 15 then -1 else 1) * (if x v = 0 then v % 2 ^ F.fw else 2 ^ F.fw + v % 2 ^ F.fw : Nat)
      let ep (v : Nat) : Int := (max (x v) 1 : Nat) - (2 ^ (F.ew - 1) - 1) - F.fw
      (special a ∨ special b → product c.1 a b = .poison) ∧
      (¬ special a → ¬ special b → p a = 0 ∨ p b = 0 → product c.1 a b = .zero) ∧
      (¬ special a → ¬ special b → p a ≠ 0 → p b ≠ 0 → product c.1 a b = .val (p a * p b) (ep a + ep b))) ∧
    (a < 256 → b < 256 →
      (sval 8 a * sval 8 b = 0 → product 1 a b = .zero) ∧
      (sval 8 a * sval 8 b ≠ 0 → product 1 a b = .val (sval 8 a * sval 8 b) 0) ∧
      (a % 128 = 0 ∨ b % 128 = 0 → product 0 a b = .zero) ∧
      (a % 128 ≠ 0 → b % 128 ≠ 0 → ∃ pa ea pb eb : Int, 16 ≤ pa.natAbs ∧ pa.natAbs < 32 ∧ 16 ≤ pb.natAbs ∧ pb.natAbs < 32 ∧
        dm8Value a = pa * (2 : ℚ) ^ ea ∧ dm8Value b = pb * (2 : ℚ) ^ eb ∧ product 0 a b = .val (pa * pb) (ea + eb)))

/-- R183: the products that reach row i of tile t: of every slice of the tile and of both halves, the pair on the diagonal of its age,
where both valid tags are set. -/
def Sys2Proof.slicesMeetRows : Prop :=
  ∀ (l : List Slice) (t i : Nat), i < 64 →
    (∀ u h, h < 2 →
      (∀ j < 64, u.age = i + j + 1 → u.av.getLsbD (64 * h + i) = true → u.bv.getLsbD (64 * h + j) = true →
        let w := if u.fmt.toNat < 2 then 8 else 16
        sliceTerm u h i =
          some (product u.fmt.toNat (bits u.a.toNat (512 * h + w * i) w) (bits u.b.toNat (512 * h + w * j) w), j)) ∧
      ((∀ j < 64, u.age = i + j + 1 → u.av.getLsbD (64 * h + i) = false ∨ u.bv.getLsbD (64 * h + j) = false) → sliceTerm u h i = none)) ∧
    rowTerms l t i = (l.filter fun u => u.tile.toNat == t).flatMap fun u => (sliceTerm u 0 i).toList ++ (sliceTerm u 1 i).toList

/-- R31, R183, R185 to R187: a beat updates every row of every tile from the products that reach it, poison first; RCNT and TCNT of a
tile grow by the rows that renormalised and that lost bits, and stop at all ones. The row that fails the check is the lowest of the
lowest tile. -/
def Sys2Proof.beatsUpdateRows : Prop :=
  ∀ (rz : Bool) (c : Cell) (l : List Slice) (t i : Nat), t < 8 → i < 64 →
    smWf AccRow.clear 0 c.acc = true → smWf 0 0 c.rcnt = true → smWf 0 0 c.tcnt = true →
    let d := beatRows rz l c
    let vals (t i : Nat) : List Term := (rowTerms l t i).filterMap fun x => match x.1 with
      | .val p e => some ⟨p, e, x.2⟩
      | _ => none
    let row (t i : Nat) : AccRow × Bool × Bool :=
      rowUpdate rz { accRow c t i with pf := (accRow c t i).pf || (rowTerms l t i).any fun x => x.1 == .poison } (vals t i)
    let grown (old : BitVec 32) (f : AccRow × Bool × Bool → Bool) : Nat :=
      min (2 ^ 32 - 1) (old.toNat + ((List.range 64).filter fun i => f (row t i)).length)
    accRow d t i = (row t i).1 ∧
    (smGet 0 d.rcnt t).toNat = grown (smGet 0 c.rcnt t) (·.2.1) ∧ (smGet 0 d.tcnt t).toNat = grown (smGet 0 c.tcnt t) (·.2.2) ∧
    { d with acc := c.acc, rcnt := c.rcnt, tcnt := c.tcnt } = c ∧
    (beatFails c l = some (t, i) ↔ expOverflow (accRow c t i) (vals t i) = true ∧
      ∀ t' < 8, ∀ i' < 64, 64 * t' + i' < 64 * t + i → expOverflow (accRow c t' i') (vals t' i') = false) ∧
    (beatFails c l = none ↔ ∀ t' < 8, ∀ i' < 64, expOverflow (accRow c t' i') (vals t' i') = false)

/-- R30 to R32, R183, R185 to R187: the products of a beat and what they make of the rows of the accumulator. -/
def Obligations.BeatsAccumulate : Prop :=
  rowTakesBeat ∧ productsAreExact ∧ slicesMeetRows ∧ beatsUpdateRows

/-- R191: mx.rdm and mx.rdx read accumulator state into mx.r, with latency 4, and change nothing. -/
def Obligations.AccumulatorReads : Prop :=
  ∀ (s : State) (a : BitVec 3) (r : BitVec 6) (q : BitVec 2), stageOn s = true →
    let x := curCell s
    let rcd (i : Nat) : Nat :=
      let w := accRow x a.toNat i
      (if w.z then 1 else 0) + (if w.pf then 2 else 0) + 4 * w.hr.toNat + 256 * w.e.toNat
    (∃ v : Vec, exec (.mxRdm a r q) s = .next (vresult s .mxr 4 v) ∧
      ∀ k < 16, (v.extractLsb' (64 * k) 64).toInt = mant (accRow x a.toNat r.toNat) (16 * q.toNat + k)) ∧
    (q.toNat < 2 → ∃ v : Vec, exec (.mxRdx a q) s = .next (vresult s .mxr 4 v) ∧
      ∀ k < 32, (v.extractLsb' (32 * k) 32).toNat = rcd (32 * q.toNat + k)) ∧
    (q = 2 → ∃ v : Vec, exec (.mxRdx a q) s = .next (vresult s .mxr 4 v) ∧
      v.extractLsb' 0 32 = smGet 0 x.rcnt a.toNat ∧ v.extractLsb' 32 32 = smGet 0 x.tcnt a.toNat ∧ v.extractLsb' 64 960 = 0)

/-- R35, R188: mx.drain, latency 4. h = 1 with a narrow format traps ILLMOVE. A poisoned row drains as canonical NaNs, or as 0
with one exception record in DM8 and the integers; an empty row as +0; else every element is M × 2^E in the format. -/
def Obligations.DrainConverts : Prop :=
  ∀ (s : State) (a : BitVec 3) (r : BitVec 6) (f : BitVec 3) (h : BitVec 1), stageOn s = true → f.toNat < 6 →
    let row := accRow (curCell s) a.toNat r.toNat
    let w := [32, 16, 16, 8, 8, 32].getD f.toNat 0
    let n := if w = 32 then 32 else 64
    let out (e : Nat → Nat) : Vec := BitVec.ofNat 1024 (lanes w e n 0)
    let rcd : Nat := (0x04 * 2 ^ 24 + r.toNat * 2 ^ 16 + a.toNat) * 2 ^ 64 + 0xFF * 2 ^ 40 + 0x03 * 2 ^ 32 + 9 * 2 ^ 28 + s.cyc.cell
    (h = 1 → w ≠ 32 → exec (.mxDrain a r f h) s = .next (raise s 8 9 false (BitVec.ofNat 64 (cycWord s 9)) 9)) ∧
    (¬ (h = 1 ∧ w ≠ 32) →
      (row.pf = true → f.toNat < 3 → exec (.mxDrain a r f h) s =
        .next (vresult s .mxr 4 (out fun _ => [0x7FC00000, 0x7FC0, 0x7E00].getD f.toNat 0))) ∧
      (row.pf = true → 3 ≤ f.toNat → exec (.mxDrain a r f h) s =
        .next (launch (vresult s .mxr 4 0) { tgt := .counts, val := BitVec.ofNat 1024 (rcd * 2 ^ 256), cnt := 4, slot := 15, aux := 1 })) ∧
      (row.pf = false → row.z = true → exec (.mxDrain a r f h) s = .next (vresult s .mxr 4 0)) ∧
      (row.pf = false → row.z = false → exec (.mxDrain a r f h) s =
        .next (vresult s .mxr 4 (out fun k => drainElem f.toNat (mant row (32 * h.toNat + k)) row.e.toInt))))

/-- R34, R189, R190, R192: the commands that write accumulator rows act in their cycle: mx.clr and mx.norm on one row or on all
64, mx.wrm on a quarter of a row, mx.wrx on records or counters, mx.mrg as a beat of one row. A write that covers a whole word of the
tile clears its mark (R379); which words these are follows the model's numbering of the words of R381 (log 22). -/
def Obligations.AccumulatorWrites : Prop :=
  ∀ (s : State) (a : BitVec 3) (r : BitVec 6) (q : BitVec 2) (f : BitVec 3) (h : BitVec 1) (c : BitVec 3), stageOn s = true →
    let A := a.toNat
    let R := r.toNat
    let v := (vGet (cur s) (xSrcLatch c.toNat)).toNat
    let row := accRow (curCell s) A R
    let unmarked (p : Nat → Bool) : State := unmarkAt s s.cyc.cell fun y => y.1 == 4 && y.2.1 == A && p y.2.2
    let ts := (List.range (drainCols f.toNat)).map fun k => (mergeVal f.toNat (lane (drainWidth f.toNat) v k), 32 * h.toNat + k)
    exec (.mxClr a r 0) s = .next (modCurCell (unmarked fun k => k / 48 == R) fun x => accPut x A R AccRow.clear) ∧
    exec (.mxClr a r 1) s = .next (modCurCell (unmarked fun _ => true) fun x =>
      let y := (List.range 64).foldl (fun x i => accPut x A i AccRow.clear) x
      { y with rcnt := smSet 0 y.rcnt A 0, tcnt := smSet 0 y.tcnt A 0 }) ∧
    exec (.mxNorm a r 0) s = .next (modCurCell s fun x => accPut x A R (normRow (accRow x A R))) ∧
    exec (.mxNorm a r 1) s =
      .next (modCurCell s fun x => (List.range 64).foldl (fun x i => accPut x A i (normRow (accRow x A i))) x) ∧
    exec (.mxWrm a r q c) s = .next (modCurCell (unmarked fun k => k / 12 == 4 * R + q.toNat) fun x =>
      accPut x A R (withMants (accRow x A R) ((List.range 64).map fun j =>
        if j / 16 = q.toNat then sval 48 (lane 64 v (j % 16)) else mant (accRow x A R) j))) ∧
    (q.toNat < 2 → exec (.mxWrx a q c) s = .next (modCurCell (unmarked fun _ => false) fun x =>
      (List.range 32).foldl (fun x k =>
        let i := 32 * q.toNat + k
        let e := lane 32 v k
        accPut x A i (withMants { accRow x A i with
          e := BitVec.ofNat 16 (e / 256), pf := bit e 1, z := (accRow x A i).z && bit e 0 } (mants (accRow x A i)))) x)) ∧
    (q = 2 → exec (.mxWrx a q c) s = .next (modCurCell (unmarked fun k => k == 3104) fun x =>
      { x with rcnt := smSet 0 x.rcnt A (BitVec.ofNat 32 (lane 32 v 0))
               tcnt := smSet 0 x.tcnt A (BitVec.ofNat 32 (lane 32 v 1)) })) ∧
    (h = 1 → drainWidth f.toNat ≠ 32 →
      exec (.mxMrg a r f h c) s = .next (raise s 8 9 false (BitVec.ofNat 64 (cycWord s 9)) 9)) ∧
    (¬ (h = 1 ∧ drainWidth f.toNat ≠ 32) →
      exec (.mxMrg a r f h c) s = .next (
        if expOverflow row (termsV ts) then raise s 0x0A 9 false (BitVec.ofNat 64 (A + R * 2 ^ 8)) 0
        else modCurCell s fun x => beatRow ((creg (cur s) 0x105).getLsbD 0) x A R (hasPoison ts) (termsV ts)))

/-- R34: mx.norm keeps the value of every mantissa of a row it shifts: M × 2^E before is M × 2^E after, and HR is 12 or less, or
E is at its lowest. -/
def Obligations.NormKeepsValues : Prop :=
  ∀ (r : AccRow), r.z = false → r.hr.toNat ≤ 46 → (∀ j < 64, (mant r j).natAbs < 2 ^ (46 - r.hr.toNat)) →
    (∃ j < 64, mant r j ≠ 0) →
    let t := normRow r
    t.z = false ∧ t.pf = r.pf ∧ t.e.toInt ≤ r.e.toInt ∧
    (∀ j < 64, mant t j = mant r j * 2 ^ (r.e.toInt - t.e.toInt).toNat) ∧
    (r.e.toInt - t.e.toInt = max 0 ((r.hr.toNat : Int) - 12) ∨ t.e.toInt = -32768) ∧
    ((∃ j < 64, 2 ^ (46 - r.hr.toNat) ≤ 2 * (mant r j).natAbs) →
      (t.hr.toNat : Int) = r.hr.toNat - (r.e.toInt - t.e.toInt) ∧ (t.hr.toNat ≤ 12 ∨ t.e.toInt = -32768))

/-- R200: xf.cvt converts n elements of a latch, part P of them where the widths differ, into xf.r with latency 4; every other bit
of xf.r is 0. Special values also put their counts and records in flight (R201). -/
def Obligations.ConvertElements : Prop :=
  ∀ (s : State) (fi fo v : BitVec 4) (p : BitVec 3) (rm : BitVec 2), stageOn s = true →
    let a := xfElem fi.toNat
    let b := xfElem fo.toNat
    let wi := elemWidth a
    let wo := elemWidth b
    p.toNat < max wi wo / min wi wo →
    let n := 1024 / max wi wo
    let src := (vGet (cur s) (srcVLatch (0xA0 + v.toNat))).toNat
    let from_ (k : Nat) : Nat := if wi < wo then p.toNat * n + k else k
    let to_ (k : Nat) : Nat := if wo < wi then p.toNat * n + k else k
    let r (k : Nat) : Nat × Special := convert a b rm.toNat (lane wi src (from_ k))
    ∃ x : Vec, (∀ k < n, lane wo x.toNat (to_ k) = (r k).1 % 2 ^ wo) ∧
      (∀ j < 1024 / wo, (∀ k < n, j ≠ to_ k) → lane wo x.toNat j = 0) ∧
      ((∀ k < n, (r k).2 = .none) → exec (.xfCvt fi fo v p rm) s = .next (vresult s .xfr 4 x)) ∧
      (¬ (∀ k < n, (r k).2 = .none) → ∃ e, exec (.xfCvt fi fo v p rm) s =
        .next (launch (vresult s .xfr 4 x) { tgt := .counts, val := e, cnt := 4, slot := 15 }))

/-- R19, R197: the format codes of the T word. -/
def Sys2Proof.formatCodes : Prop :=
  (List.range 13).map xfElem =
    [.int 8 true, .int 8 false, .int 16 true, .int 16 false, .int 32 true, .int 32 false, .int 64 true, .int 64 false, .dm8,
      .fp fp16, .fp bf16, .fp fp32, .fp fp64]

/-- R20 to R23, R201: what a conversion makes of one element, row by row of the table of R201, for the thirteen formats. A conversion
into an integer or into DM8 also says which special value it replaced. -/
def Sys2Proof.elementsConvert : Prop :=
  ∀ (rm v : Nat), rm < 4 → v < 2 ^ 64 → ∀ F ∈ [fp16, bf16, fp32, fp64], ∀ G ∈ [fp16, bf16, fp32, fp64],
    ∀ w ∈ [8, 16, 32, 64], ∀ w' ∈ [8, 16, 32, 64], ∀ sg sg' : Bool,
    let W := 1 + F.ew + F.fw
    let ofInt : ℤ := if sg then sval w v else (v % 2 ^ w : Nat)
    let clamp (i : ℤ) : ℤ := if sg' then max (-2 ^ (w' - 1)) (min (2 ^ (w' - 1) - 1) i) else max 0 (min (2 ^ w' - 1) i)
    let isInt (i : ℤ) (r : Nat) : Prop := r < 2 ^ w' ∧ (if sg' then sval w' r else (r : ℤ)) = clamp i
    let nan : Prop := funpack F v = .nan
    let inf : Prop := v % 2 ^ (W - 1) = (2 ^ F.ew - 1) * 2 ^ F.fw
    let neg : Bool := v.testBit (W - 1)
    let from_ (e : Elem) (b : Elem) : Nat × Special := convert e b rm v
    (∀ e ∈ [Elem.int w sg, .dm8, .fp F], v < 2 ^ elemWidth e → from_ e e = (v, .none)) ∧
    (v < 2 ^ w →
      (Elem.int w sg ≠ .int w' sg' → ∃ r, from_ (.int w sg) (.int w' sg') = (r, .none) ∧ isInt ofInt r) ∧
      (∃ r, from_ (.int w sg) (.fp F) = (r, .none) ∧ rounds F rm ofInt r ∧ (ofInt = 0 → r = 0)) ∧
      (∃ r, from_ (.int w sg) .dm8 = (r, .none) ∧ roundsDm8 ofInt r)) ∧
    (v < 256 →
      (∃ r i, from_ .dm8 (.int w' sg') = (r, .none) ∧ roundsInt rm (dm8Value v) i ∧ isInt i r) ∧
      (∃ r, from_ .dm8 (.fp F) = (r, .none) ∧ rounds F rm (dm8Value v) r ∧ (dm8Value v = 0 → r = 0))) ∧
    (v < 2 ^ W →
      (nan → from_ (.fp F) .dm8 = (0, .nan) ∧ from_ (.fp F) (.int w' sg') = (0, .nan)) ∧
      (inf → from_ (.fp F) .dm8 = (if neg then 0x83 else 0x03, .inf) ∧ ∃ r, from_ (.fp F) (.int w' sg') = (r, .inf) ∧
        isInt (if neg then -2 ^ 64 else 2 ^ 64) r) ∧
      (¬ nan → ¬ inf →
        (∃ r, from_ (.fp F) .dm8 = (r, .none) ∧ roundsDm8 (lineVal F v) r) ∧
        (∃ r i, from_ (.fp F) (.int w' sg') = (r, .none) ∧ roundsInt rm (lineVal F v) i ∧ isInt i r)) ∧
      (F ≠ G → ∃ r, from_ (.fp F) (.fp G) = (r, .none) ∧ r < 2 ^ (1 + G.ew + G.fw) ∧ r.testBit (G.ew + G.fw) = neg ∧
        (¬ nan → ¬ inf → rounds G rm (lineVal F v) r) ∧
        (inf → r % 2 ^ (G.ew + G.fw) = (2 ^ G.ew - 1) * 2 ^ G.fw) ∧
        (nan → r % 2 ^ (G.ew + G.fw) = (2 ^ G.ew - 1) * 2 ^ G.fw +
          ((if F.fw ≤ G.fw then v % 2 ^ F.fw * 2 ^ (G.fw - F.fw) else v % 2 ^ F.fw / 2 ^ (F.fw - G.fw)) ||| 2 ^ (G.fw - 1)))))

/-- R35: what an element M × 2^E drains as: an FP format saturates at its largest finite value, INT8 and INT32 at their ends. -/
def Sys2Proof.elementsDrain : Prop :=
  ∀ (m e : Int), m.natAbs < 2 ^ 47 → e.natAbs ≤ 2 ^ 15 →
    let x : ℚ := m * (2 : ℚ) ^ e
    (∀ c ∈ [(0, fp32), (1, bf16), (2, fp16)],
      let F : Fmt := c.2
      (m = 0 → drainElem c.1 m e = 0) ∧
      (m ≠ 0 → ∃ u, rounds F 0 x u ∧ drainElem c.1 m e = if u % 2 ^ (F.ew + F.fw) = (2 ^ F.ew - 1) * 2 ^ F.fw then u - 1 else u)) ∧
    roundsDm8 x (drainElem 3 m e) ∧
    (∀ c ∈ [(4, 8), (5, 32)], ∃ i, roundsInt 0 x i ∧ drainElem c.1 m e < 2 ^ c.2 ∧
      sval c.2 (drainElem c.1 m e) = max (-2 ^ (c.2 - 1)) (min (2 ^ (c.2 - 1) - 1) i))

/-- R36: the halves of an element: h1 is a / 2 toward zero and h2 the nearest value to a − h1; a NaN or an infinity is both its halves.
That a half of an FP element that becomes 0 has sign + is the model's choice (log 79): the clause fixes its value only. -/
def Sys2Proof.elementsSplit : Prop :=
  ∀ (v : Nat), v < 2 ^ 16 →
    (∀ c ∈ [(2, bf16), (3, fp16)],
      let F : Fmt := c.2
      let h := splitElem c.1 v
      (v / 2 ^ F.fw % 2 ^ F.ew = 2 ^ F.ew - 1 → h = (v, v)) ∧
      (v / 2 ^ F.fw % 2 ^ F.ew ≠ 2 ^ F.ew - 1 →
        (∃ u, rounds F 1 (lineVal F v / 2) u ∧ lineVal F h.1 = lineVal F u) ∧ h.1 < 2 ^ 16 ∧
        rounds F 0 (lineVal F v - lineVal F h.1) h.2)) ∧
    (v < 256 →
      sval 8 (splitElem 1 v).1 = Int.tdiv (sval 8 v) 2 ∧ sval 8 (splitElem 1 v).1 + sval 8 (splitElem 1 v).2 = sval 8 v ∧
      (let h := splitElem 0 v
       h.1 < 256 ∧ 0 ≤ dm8Value h.1 * dm8Value v ∧ 2 * |dm8Value h.1| ≤ |dm8Value v| ∧
       (∀ u < 256, 2 * |dm8Value u| ≤ |dm8Value v| → |dm8Value u| ≤ |dm8Value h.1|) ∧
       roundsDm8 (dm8Value v - dm8Value h.1) h.2))

/-- R205: which columns of a tile qualify, and where the columns and the halves go. -/
def Sys2Proof.columnsSplit : Prop :=
  ∀ (fmt ext n v : Nat) (the : Int), fmt < 4 → ext ≤ 64 → n ≤ 128 → -128 ≤ the → the ≤ 127 →
    let w := if fmt < 2 then 8 else 16
    let el (i c : Nat) : Nat := bits v (1024 * i + w * c) w
    let big (u : Nat) : Prop :=
      match fmt with
      | 0 => (2 : ℚ) ^ the < |dm8Value u|
      | 1 => (2 : ℚ) ^ the < |(sval 8 u : ℚ)|
      | k => let F := if k = 2 then bf16 else fp16
        u % 2 ^ 15 = (2 ^ F.ew - 1) * 2 ^ F.fw ∨
          (u / 2 ^ F.fw % 2 ^ F.ew ≠ 2 ^ F.ew - 1 ∧ (2 : ℚ) ^ the < |lineVal F u|)
    let col (c : Nat) : List Nat := (List.range 64).map fun i => el i c
    let r := splitCols fmt ext the v n 0 0
    ∃ at_ : Nat → Nat, at_ 0 = 0 ∧ r.1.length = at_ n ∧
      (∀ c < n, (∃ i < ext, big (el i c)) → at_ (c + 1) = at_ c + 2 ∧ r.2.testBit (at_ c) = false ∧ r.2.testBit (at_ c + 1) = true ∧
        r.1[at_ c]? = some ((col c).map fun x => (splitElem fmt x).1) ∧ r.1[at_ c + 1]? = some ((col c).map fun x => (splitElem fmt x).2)) ∧
      (∀ c < n, ¬ (∃ i < ext, big (el i c)) → at_ (c + 1) = at_ c + 1 ∧ r.2.testBit (at_ c) = false ∧ r.1[at_ c]? = some (col c)) ∧
      ∀ k, at_ n ≤ k → r.2.testBit k = false

/-- R20 to R23, R35, R36, R201, R205: the values of the conversions. -/
def Obligations.ConversionsRound : Prop :=
  formatCodes ∧ elementsConvert ∧ elementsDrain ∧ elementsSplit ∧ columnsSplit

/-- R202 to R204: xf.exp, xf.tr and xf.pack put one tile landing in flight, with latencies 6, 8 and 2. -/
def Sys2Proof.tileTransforms : Prop :=
  ∀ (s : State) (fi fo v ts td : BitVec 4) (lay h w m q : BitVec 1) (l : BitVec 6), stageOn s = true →
    let S := (smGet 0 (cur s).tiles ts.toNat).toNat
    let src := (vGet (cur s) (srcVLatch (0xA0 + v.toNat))).toNat
    let byte (L e : Nat) : Nat := bits S (1024 * L + 8 * e) 8
    let lands (t : TLand) : State := modCur s fun c => { c with tland := c.tland ++ [t] }
    let whole (t : TLand) (cnt : Nat) : Prop := t.cnt = cnt ∧ t.tile = td.toNat ∧ t.split = false ∧ t.pack = false
    (∃ t, exec (.xfExp fi fo ts td lay h) s = .next (lands t) ∧ whole t 6 ∧ ∀ i < 64, ∀ j < 64,
      bits t.val.toNat (1024 * i + 16 * j) 16 = (convert (xfElem fi.toNat) (xfElem fo.toNat) 0
        (if lay = 0 then byte i (64 * h.toNat + j) else byte ((64 * h.toNat + i) / 2) (2 * j + i % 2))).1 % 2 ^ 16) ∧
    (∃ t, exec (.xfTr ts td w) s = .next (lands t) ∧ whole t 8 ∧
      (w = 1 → ∀ i < 64, ∀ j < 64, bits t.val.toNat (1024 * i + 16 * j) 16 = bits S (1024 * j + 16 * i) 16) ∧
      (w = 0 → ∀ j < 64, ∀ k < 128, bits t.val.toNat (1024 * (k / 2) + 8 * (2 * j + k % 2)) 8 = byte j k)) ∧
    (∃ t, exec (.xfPack v td l m q) s = .next (lands t) ∧
      t.cnt = 2 ∧ t.tile = td.toNat ∧ t.split = false ∧ t.pack = true ∧ t.line = l.toNat ∧
      (m = 0 → (∀ b < 128, t.mask.getLsbD b = true) ∧ t.val.toNat = src) ∧
      (m = 1 → (∀ b < 128, t.mask.getLsbD b = decide (b % 2 = q.toNat)) ∧
        ∀ j < 64, bits t.val.toNat (8 * (2 * j + q.toNat)) 8 = bits src (8 * j) 8))

/-- R205: xf.split. A bad TSHAPE traps ILLMOVE of the T slot and nothing else happens; else xf.r takes the width and the verdict,
and the tile with its TDMAP and TSHAPE lands only if the result fits. -/
def Sys2Proof.splitWritesTile : Prop :=
  ∀ (s : State) (ts td : BitVec 4) (e : BitVec 8), stageOn s = true →
    let c := cur s
    let T := ts.toNat
    let r := splitCols (tFmt c T) (tExt c T) e.toInt (tileOf c T).toNat (tKlen c T) 0 0
    let n := r.1.length
    let lanes3 (fail map : Nat) : Vec := BitVec.ofNat 1024 (n + fail * 2 ^ 64 + map * 2 ^ 128)
    (tileOk c T = false → exec (.xfSplit ts td e) s = .next (raise s 8 10 false (BitVec.ofNat 64 (cycWord s 10)) 10)) ∧
    (tileOk c T = true →
      (kLimit (tFmt c T) < n → exec (.xfSplit ts td e) s = .next (vresult s .xfr 6 (lanes3 1 0))) ∧
      (n ≤ kLimit (tFmt c T) → r.2 / 2 ^ 64 ≠ 0 → exec (.xfSplit ts td e) s = .next (vresult s .xfr 6 (lanes3 2 0))) ∧
      (n ≤ kLimit (tFmt c T) → r.2 / 2 ^ 64 = 0 → ∃ t,
        exec (.xfSplit ts td e) s =
          .next (modCur (vresult s .xfr 6 (lanes3 0 r.2)) fun c => { c with tland := c.tland ++ [t] }) ∧
        t.cnt = 6 ∧ t.tile = td.toNat ∧ t.split = true ∧ t.tdmap = BitVec.ofNat 64 r.2 ∧
        t.tshape = BitVec.ofNat 64 (n * 2 ^ 24 + tExt c T * 2 ^ 16 + tFmt c T) ∧
        ∀ i < 64, ∀ k < n, bits t.val.toNat (1024 * i + tWidth (tFmt c T) * k) (tWidth (tFmt c T)) =
          ((r.1.getD k []).getD i 0) % 2 ^ tWidth (tFmt c T)))

/-- R202 to R205: the tile landings of the T word. -/
def Obligations.TileCommands : Prop :=
  tileTransforms ∧ splitWritesTile
/-! ### The lsu operations -/

/-- The scratchpad loads: size, sign, result latch (R144). -/
def Sys2Proof.spLoads (g : BitVec 12) (x : BitVec 10) : List (Instr × Nat × Bool × Target) :=
  [(.lsuSldN8 g x, 1, false, .slat .lsur), (.lsuSldI8 g x, 1, true, .slat .lsur), (.lsuSldN16 g x, 2, false, .slat .lsur),
    (.lsuSldI16 g x, 2, true, .slat .lsur), (.lsuSldN32 g x, 4, false, .slat .lsur), (.lsuSldI32 g x, 4, true, .slat .lsur),
    (.lsuSld64 g x, 8, false, .slat .lsur), (.lsuVlds g x, 128, false, .vlat .lsuvr)]

/-- The memory loads: size, sign, result latch (R144). -/
def Sys2Proof.memLoads (g : BitVec 12) (x : BitVec 10) : List (Instr × Nat × Bool × Target) :=
  [(.lsuMldN8 g x, 1, false, .slat .lsur), (.lsuMldI8 g x, 1, true, .slat .lsur), (.lsuMldN16 g x, 2, false, .slat .lsur),
    (.lsuMldI16 g x, 2, true, .slat .lsur), (.lsuMldN32 g x, 4, false, .slat .lsur), (.lsuMldI32 g x, 4, true, .slat .lsur),
    (.lsuMld64 g x, 8, false, .slat .lsur), (.lsuVldm g x, 128, false, .vlat .lsuvr)]

/-- The scratchpad stores: size and value; t is a scalar, v the value of a vector source (R144). -/
def Sys2Proof.spStores (g : BitVec 12) (x : BitVec 10) (t : Word) (v : Option Vec) : List (Instr × Nat × Option Vec) :=
  [(.lsuSst8 g x, 1, some (t.zeroExtend 1024)), (.lsuSst16 g x, 2, some (t.zeroExtend 1024)),
    (.lsuSst32 g x, 4, some (t.zeroExtend 1024)), (.lsuSst64 g x, 8, some (t.zeroExtend 1024)), (.lsuVsts g x, 128, v)]

/-- The memory stores: size, value, code of the trigger in the replay stream (R144, R385). -/
def Sys2Proof.memStores (g : BitVec 12) (x : BitVec 10) (t : Word) (v : Option Vec) : List (Instr × Nat × Option Vec × Nat) :=
  [(.lsuMst8 g x, 1, some (t.zeroExtend 1024), 0x58), (.lsuMst16 g x, 2, some (t.zeroExtend 1024), 0x59),
    (.lsuMst32 g x, 4, some (t.zeroExtend 1024), 0x5A), (.lsuMst64 g x, 8, some (t.zeroExtend 1024), 0x5B),
    (.lsuVstm g x, 128, v, 0x211)]

/-- lsu.o after a streamed form: INC of lsu.h is added, sign-extended (R140). -/
def Sys2Proof.streamedOn (s : State) (c : Ctx) : Ctx := sPut c .lsuo (sGet c .lsuo + ((operand s .lsuh).extractLsb' 32 32).signExtend 64)

/-- R140, R141, R143 to R145: a scratchpad load reads in the next cycle and lands with latency 6; a streamed store takes the offset
lsu.o, which then grows by INC, and writes its bytes in c + 3. An access past its range traps HBND, one out of alignment ALIGN,
with nothing started and lsu.o unchanged. -/
def Obligations.ScratchpadAccesses : Prop :=
  ∀ (s : State) (g : BitVec 12) (x : BitVec 10), moveOn s g = true →
    let t := readS s x
    let a := (operand s .lsuo + t).toNat
    let b := (operand s .lsuo).toNat
    let inside (a n : Nat) : Prop := a + n ≤ 0x100000 ∨ (0x100000 ≤ a ∧ a + n ≤ 0x110000)
    let traps (cause a : Nat) (info1 : Word) : Host.Outcome State Fault Refusal :=
      .next { s with cyc := { s.cyc with traps := s.cyc.traps ++ [(cause, 8, false, BitVec.ofNat 64 a, info1)] } }
    (∀ p ∈ spLoads g x,
      let n := p.2.1
      (inside a n → a % n = 0 → exec p.1 s = .next { (modCur (watch s true 0 a n true false) fun c => { c with
        flights := c.flights ++ [{ tgt := p.2.2.2, val := 0, cnt := 6, slot := 15, id := s.seq + 1 }]
        bankOps := c.bankOps ++ [{ cnt := 2, code := 0, act := .load (s.seq + 1) p.2.2.1, off := a, len := n }] }) with
          seq := s.seq + 1 }) ∧
      (¬ inside a n → exec p.1 s = traps 4 a 0x10100) ∧
      (inside a n → a % n ≠ 0 → exec p.1 s = traps 0x0E a 0x10100)) ∧
    (∀ p ∈ spStores g x t (vsource s 8 x), ∀ v, p.2.2 = some v →
      let n := p.2.1
      (inside b n → b % n = 0 → exec p.1 s = .next (modCur (watch s true 0 b n false true) fun c => { streamedOn s c with
        bankOps := c.bankOps ++ [{ cnt := 4, code := 1, act := .store, off := b, len := n, val := v }] })) ∧
      (¬ inside b n → exec p.1 s = traps 4 b 0x20100) ∧
      (inside b n → b % n ≠ 0 → exec p.1 s = traps 0x0E b 0x20100))

/-- R142, R143: the checks of a memory access on its handle, in their order: the cause of the trap, or none. -/
def Sys2Proof.accessCause (h : Handle) (a n align : Nat) (rd wr : Bool) : Option Nat :=
  if h.v = false then some 3
  else if [0x10000, 0x200000, 0x40000000].getD h.sz.toNat 0x40000000 < a + n then some 4
  else if a % align ≠ 0 then some 0x0E
  else if (rd = true ∧ h.pr = false) ∨ (wr = true ∧ h.pw = false) then some 5
  else none

/-- The trap of a memory access of slot M (R213). -/
def Sys2Proof.accessTrap (s : State) (cause a : Nat) (rd wr : Bool) : State :=
  let j := ((operand s .lsuh).extractLsb' 0 4).toNat + (if rd then 0x10000 else 0) + (if wr then 0x20000 else 0)
  { s with cyc := { s.cyc with traps := s.cyc.traps ++ [(cause, 8, false, BitVec.ofNat 64 a, BitVec.ofNat 64 j)] } }

/-- R142 to R144, R147, R258: a memory load under handle ph[H] is due with latency 12, and joins the load queue, or for an SO page
the SO queue. A failed check traps and nothing starts. -/
def Sys2Proof.memoryLoads : Prop :=
  ∀ (s : State) (g : BitVec 12) (x : BitVec 10), moveOn s g = true → ∀ p ∈ memLoads g x,
    let a := (operand s .lsuo + readS s x).toNat
    let H := ((operand s .lsuh).extractLsb' 0 4).toNat
    let h := smGet Handle.invalid (cur s).ph H
    let n := p.2.1
    let id := s.seq + 1
    let pa := h.ppage.toNat + a
    let sl := if h.slaen then h.sla.toNat + 1 else 0
    let flies := { (modCur (watch s false H a n true false) fun c => { c with
      flights := c.flights ++ [{ tgt := p.2.2.2, val := 0, cnt := 12, slot := 15, wait := .load id, id := id }] }) with seq := id }
    (∀ cause, accessCause h a n n true false = some cause → exec p.1 s = .next (accessTrap s cause a true false)) ∧
    (accessCause h a n n true false = none → h.kind ≠ 0 → exec p.1 s = .next (modCurCell flies fun c => { c with
      loadq := c.loadq ++ [.load id (keyOf h.host pa) n p.2.2.1 h.kind sl h.host (origin s h)] })) ∧
    (accessCause h a n n true false = none → h.kind = 0 → exec p.1 s = .next (modCurCell flies fun c => { c with
      soq := some ⟨id, pa, n, false, p.2.2.1, 0, sl, h.host, origin s h, false⟩ }))

/-- R140, R142 to R144, R147, R258: a streamed memory store joins the store buffer, or for an SO page the SO queue, and lsu.o grows
by INC; no other latch or register of the context changes. The store also joins the replay stream of its task (R385). A failed
check traps and nothing starts. -/
def Sys2Proof.memoryStores : Prop :=
  ∀ (s : State) (g : BitVec 12) (x : BitVec 10), moveOn s g = true →
    ∀ p ∈ memStores g x (readS s x) (vsource s 8 x), ∀ v, p.2.2.1 = some v →
    let a := (operand s .lsuo).toNat
    let H := ((operand s .lsuh).extractLsb' 0 4).toNat
    let h := smGet Handle.invalid (cur s).ph H
    let n := p.2.1
    let id := s.seq + 1
    let pa := h.ppage.toNat + a
    let sl := if h.slaen then h.sla.toNat + 1 else 0
    let elt : StoreElt := ⟨p.2.2.2, BitVec.ofNat 64 (h.vpage.toNat + a), n, BitVec.ofNat 1024 (v.toNat % 2 ^ (8 * n))⟩
    let goes (f : Cell → Cell) : Host.Outcome State Fault Refusal :=
      .next (modCurCell (replayPush { (modCur (watch s false H a n false true) (streamedOn s)) with seq := id } elt) f)
    (∀ cause, accessCause h a n n false true = some cause → exec p.1 s = .next (accessTrap s cause a false true)) ∧
    (accessCause h a n n false true = none →
      (h.kind ≠ 0 → exec p.1 s = goes fun c => { c with
        storeb := c.storeb ++ [.store id (keyOf h.host pa) n v h.kind sl h.host false (origin s h)] }) ∧
      (h.kind = 0 → exec p.1 s = goes fun c => { c with soq := some ⟨id, pa, n, true, false, v, sl, h.host, origin s h, false⟩ }))

/-- R140, R142 to R144, R147, R258: the memory loads and stores. -/
def Obligations.MemoryAccesses : Prop :=
  memoryLoads ∧ memoryStores

/-- R139, R150, R151, R252, R258: release, acquire and fence take their scope from t[2:0], the acquiring load and the releasing
store from lsu.h; a scope above 4 traps ILLMOVE of slot M and starts nothing. A release puts a marker in the store buffer, an
acquire joins the load queue, a fence does both and its acquire names its marker; scope cell marks nothing. That the scope is tested
before the handle is the model's order (log 95). -/
def Sys2Proof.releaseAndAcquire : Prop :=
  ∀ (s : State) (g : BitVec 12) (x : BitVec 10), moveOn s g = true →
    let t := readS s x
    let sc := (t.extractLsb' 0 3).toNat
    let hs := ((operand s .lsuh).extractLsb' 4 3).toNat
    let ill : Host.Outcome State Fault Refusal := .next (raise s 8 8 false (BitVec.ofNat 64 (cycWord s 8)) 8)
    let q := s.seq + 1
    let marks (fence : Bool) (c : Cell) : Cell := { c with
      storeb := c.storeb ++ [.mark q], markers := c.markers ++ [⟨q, sc, fence, none, q, s.cyc.fw⟩] }
    let acquires (id mark : Nat) (c : Cell) : Cell := { c with loadq := c.loadq ++ [.acq id sc mark s.cyc.fw] }
    (4 < sc → exec (.lsuRel g x) s = ill ∧ exec (.lsuAcq g x) s = ill ∧ exec (.lsuFence g x) s = ill) ∧
    (4 < hs → ∀ i ∈ [Instr.lsuMldAq32 g x, .lsuMldAq64 g x, .lsuMstRl32 g x, .lsuMstRl64 g x], exec i s = ill) ∧
    (sc ≤ 4 → exec (.lsuAcq g x) s = .next { (modCurCell s (acquires q 0)) with seq := q }) ∧
    (sc = 0 → exec (.lsuRel g x) s = .next s ∧ exec (.lsuFence g x) s = .next { (modCurCell s (acquires q 0)) with seq := q }) ∧
    (0 < sc → sc ≤ 4 →
      exec (.lsuRel g x) s = .next { (modCurCell s (marks false)) with seq := q } ∧
      exec (.lsuFence g x) s =
        .next { (modCurCell s fun c => acquires (q + 1) (q + 1) (marks true c)) with seq := q + 1 })

/-- R151: the acquiring loads act as their plain loads and then join an acquire of lsu.h.SCOPE to the load queue; the releasing
stores put a marker of that scope in the store buffer (none for scope cell) and then act as their store, which is held until the
marker is complete. -/
def Sys2Proof.acquiringAndReleasing : Prop :=
  ∀ (s : State) (g : BitVec 12) (x : BitVec 10), moveOn s g = true →
    let t := readS s x
    let sc := ((operand s .lsuh).extractLsb' 4 3).toNat
    let H := ((operand s .lsuh).extractLsb' 0 4).toNat
    let h := smGet Handle.invalid (cur s).ph H
    let a := (operand s .lsuo + t).toNat
    let b := (operand s .lsuo).toNat
    let sl := if h.slaen then h.sla.toNat + 1 else 0
    let q := s.seq + 1
    sc ≤ 4 →
    (∀ p ∈ [(Instr.lsuMldAq32 g x, Instr.lsuMldN32 g x, 4), (.lsuMldAq64 g x, .lsuMld64 g x, 8)],
      (∀ cause, accessCause h a p.2.2 p.2.2 true false = some cause → exec p.1 s = exec p.2.1 s) ∧
      (accessCause h a p.2.2 p.2.2 true false = none → ∃ t, exec p.2.1 s = .next t ∧ exec p.1 s =
        .next { (modCurCell t fun c => { c with loadq := c.loadq ++ [.acq (t.seq + 1) sc 0 s.cyc.fw] }) with seq := t.seq + 1 })) ∧
    (∀ p ∈ [(Instr.lsuMstRl32 g x, 4, 0x5E), (.lsuMstRl64 g x, 8, 0x5F)],
      let n := p.2.1
      (∀ cause, accessCause h b n n false true = some cause → exec p.1 s = .next (accessTrap s cause b false true)) ∧
      (accessCause h b n n false true = none →
        let v : Vec := t.zeroExtend 1024
        let id := if sc = 0 then q else q + 1
        let w := watch s false H b n false true
        let marked := if sc = 0 then w else modCurCell w fun c => { c with
          storeb := c.storeb ++ [.mark q], markers := c.markers ++ [⟨q, sc, false, none, q, s.cyc.fw⟩] }
        let elt : StoreElt := ⟨p.2.2, BitVec.ofNat 64 (h.vpage.toNat + b), n, BitVec.ofNat 1024 (v.toNat % 2 ^ (8 * n))⟩
        let r := replayPush { (modCur marked (streamedOn s)) with seq := id } elt
        (h.kind ≠ 0 → exec p.1 s = .next (modCurCell r fun c => { c with
          storeb := c.storeb ++ [.store id (keyOf h.host (h.ppage.toNat + b)) n v h.kind sl h.host true (origin s h)] })) ∧
        (h.kind = 0 → exec p.1 s = .next (modCurCell r fun c => { c with
          soq := some ⟨id, h.ppage.toNat + b, n, true, false, v, sl, h.host, origin s h, false⟩ }))))

/-- R139, R150, R151, R252, R258: release, acquire, fence, and the accesses that carry one. -/
def Obligations.OrderingTriggers : Prop :=
  releaseAndAcquire ∧ acquiringAndReleasing

/-- R147, R152 to R158, R258: atomics. A type and operation that R154 does not allow together traps ILLMOVE of slot M. A scratchpad
atomic holds its bank in c + 1, c + 2 and c + 3 and lands with latency 6. An L2 atomic joins the engine queue; with RET it
reserves a slot of buffer RH, which must be valid, and takes its place in the order of the returns; on an SO page it also stands as
the SO access of its cell (R147). That the type and the operation are tested before the access, and the buffer after it, is the
model's order (log 95). -/
def Obligations.Atomics : Prop :=
  ∀ (s : State) (g : BitVec 12) (x : BitVec 10), moveOn s g = true →
    let aop := operand s .lsuaop
    let ty := (aop.extractLsb' 0 4).toNat
    let op := (aop.extractLsb' 4 4).toNat
    let legal : Prop := ty < 8 ∧ op < 8 ∧ (op = 2 ∨ op = 3 ∨ op = 4 ∨ op = 7 → ty < 4)
    let size := if ty = 1 ∨ ty = 3 ∨ ty = 7 then 8 else 4
    let a := (operand s .lsuo + readS s x).toNat
    let b := (operand s .lsuo).toNat
    let q := s.seq + 1
    let ill : Host.Outcome State Fault Refusal := .next (raise s 8 8 false (BitVec.ofNat 64 (cycWord s 8)) 8)
    let holds (vec : Bool) (a n : Nat) (d k : BitVec 256) (c : Ctx) : Ctx := { c with
      flights := c.flights ++ [{ tgt := if vec then .vlat .lsuvr else .slat .lsur, val := 0, cnt := 6, slot := 15, id := q }]
      bankOps := c.bankOps ++ [
        { cnt := 2, code := 2, act := .amoRead q vec aop d k, off := a, len := n, grp := q },
        { cnt := 3, code := 2, act := .amoHold, off := a, len := n, grp := q },
        { cnt := 4, code := 2, act := .amoWrite, off := a, len := n, grp := q }] }
    let H := ((operand s .lsuh).extractLsb' 0 4).toNat
    let h := smGet Handle.invalid (cur s).ph H
    let sl := if h.slaen then h.sla.toNat + 1 else 0
    let ret := aop.getLsbD 15
    let rh := (aop.extractLsb' 12 3).toNat
    let joins (st : State) (code a n : Nat) (cas : Bool) (d k : BitVec 128) : Host.Outcome State Fault Refusal :=
      let elt : StoreElt := ⟨code, BitVec.ofNat 64 (h.vpage.toNat + a), n,
        BitVec.ofNat 1024 (d.toNat + k.toNat * 2 ^ 128 + aop.toNat * 2 ^ 256)⟩
      let r := replayPush { st with seq := q } elt
      let pa := h.ppage.toNat + a
      .next (modCurCell (if ret then modCur r fun c => cbReserve c rh else r) fun c => { c with
        engq := c.engq ++ [.atomic q pa a aop cas d k sl h.sysat h.host (if ret then rh + 1 else 0) (origin s h)]
        rets := if ret then c.rets ++ [⟨q, s.cyc.fw, rh, none⟩] else c.rets
        soq := if h.kind = 0 then some ⟨q, pa, n, true, false, 0, sl, h.host, origin s h, true⟩ else c.soq })
    let v := vsource s 8 x
    (¬ legal → exec (.lsuAmo g x) s = ill ∧ exec (.lsuL2amo g x) s = ill ∧ (v.isSome = true → exec (.lsuVamo g x) s = ill)) ∧
    (legal → a + size ≤ 0x100000 → a % size = 0 → exec (.lsuAmo g x) s =
      .next { (modCur (watch s true 0 a size true true)
        (holds false a size ((operand s .lsud).zeroExtend 256) ((operand s .lsuc).zeroExtend 256))) with seq := q }) ∧
    (legal → b + 32 ≤ 0x100000 → b % 32 = 0 → ∀ w, v = some w → exec (.lsuVamo g x) s =
      .next { (modCur (watch s true 0 b 32 true true) fun c =>
        holds true b 32 (w.extractLsb' 0 256) ((voperand s .lsuvc).extractLsb' 0 256) (streamedOn s c)) with seq := q }) ∧
    (legal → accessCause h a size size true true = none →
      (ret = true → cbValid (cur s) rh = false → exec (.lsuL2amo g x) s =
        .next (raise s 0x0B 8 false (BitVec.ofNat 64 rh) 0)) ∧
      (ret = false ∨ cbValid (cur s) rh = true → exec (.lsuL2amo g x) s =
        joins (watch s false H a size true true) 0x61 a size false ((operand s .lsud).zeroExtend 128)
          ((operand s .lsuc).zeroExtend 128))) ∧
    (accessCause h b 16 16 true true = none → ∀ w, v = some w →
      (ret = true → cbValid (cur s) rh = false → exec (.lsuVcas128 g x) s =
        .next (raise s 0x0B 8 false (BitVec.ofNat 64 rh) 0)) ∧
      (ret = false ∨ cbValid (cur s) rh = true → exec (.lsuVcas128 g x) s =
        joins (modCur (watch s false H b 16 true true) (streamedOn s)) 0x213 b 16 true (w.extractLsb' 128 128)
          (w.extractLsb' 0 128)))

/-- R149, R145: lsu.cpy in the formats of its two banks reads N elements in c + 1 and writes them in c + 3, at lsu.d + t · bd / bs;
a side past the banks traps HBND and one out of alignment ALIGN, the source before the destination. -/
def Sys2Proof.convertingCopies : Prop :=
  ∀ (s : State) (g : BitVec 12) (x : BitVec 10), moveOn s g = true →
    let t := readS s x
    let src := (operand s .lsuo + t).toNat
    let d := (operand s .lsud).toNat
    let fmt (a : Nat) : Nat := ((creg (cur s) (0x120 + a / 64 % 32)).extractLsb' 0 3).toNat
    let sf := fmt src
    let df := fmt d
    let size (f : Nat) : Nat := [1, 1, 1, 2, 2, 2, 4, 8].getD f 1
    let raw : Prop := sf = 0 ∨ df = 0 ∨ sf = df
    let bs := if raw then 1 else size sf
    let bd := if raw then 1 else size df
    let n := if raw then 64 else 64 / max bs bd
    let dst := d + t.toNat * bd / bs
    let q := s.seq + 1
    let fails (cause a : Nat) (info1 : Word) : Host.Outcome State Fault Refusal :=
      .next (raise s cause 8 false (BitVec.ofNat 64 a) info1)
    let w := watch s true 0 src (n * bs) true false
    (0x100000 < src + n * bs → exec (.lsuCpy g x) s = fails 4 src 0x10100) ∧
    (src + n * bs ≤ 0x100000 → src % (n * bs) ≠ 0 → exec (.lsuCpy g x) s = fails 0x0E src 0x10100) ∧
    (src + n * bs ≤ 0x100000 → src % (n * bs) = 0 →
      (0x100000 < dst + n * bd → exec (.lsuCpy g x) s = fails 4 dst 0x20100) ∧
      (dst + n * bd ≤ 0x100000 → dst % (n * bd) ≠ 0 → exec (.lsuCpy g x) s = fails 0x0E dst 0x20100) ∧
      (dst + n * bd ≤ 0x100000 → dst % (n * bd) = 0 → exec (.lsuCpy g x) s = .next
        { (modCur (watch w true 0 dst (n * bd) false true) fun c => { c with bankOps := c.bankOps ++ [
            { cnt := 2, code := 0, act := .cpyRead sf df dst n, off := src, len := n * bs, grp := q },
            { cnt := 4, code := 1, act := .cpyWrite bs, off := dst, len := n * bd, grp := q }] }) with seq := q }))

/-- R144 to R146: a tile transfer takes the tile port, on which it moves 256 bytes in each of the next 32 cycles; a store takes the
tile as it stands. One that meets another on the port is refused with BANKC; past the banks it traps HBND, off a multiple of
256 ALIGN. That the port is looked at before these checks is log 58. -/
def Sys2Proof.tileTransfers : Prop :=
  ∀ (s : State) (g : BitVec 12) (x : BitVec 10), moveOn s g = true →
    let b := (operand s .lsuo).toNat
    let k := ((readS s x).extractLsb' 0 4).toNat
    let taken : Prop := ∃ p ∈ (cur s).tport, p.moved < 32
    ∀ p ∈ [(Instr.lsuTld g x, false), (.lsuTst g x, true)],
      let info1 : Word := if p.2 then 0x20100 else 0x10100
      (taken → exec p.1 s = .next (raise s 2 8 false (BitVec.ofNat 64 (0x4400 + 4 * (b / 256 % 8))) 0)) ∧
      (¬ taken → 0x100000 < b + 8192 → exec p.1 s = .next (raise s 4 8 false (BitVec.ofNat 64 b) info1)) ∧
      (¬ taken → b + 8192 ≤ 0x100000 → b % 256 ≠ 0 → exec p.1 s = .next (raise s 0x0E 8 false (BitVec.ofNat 64 b) info1)) ∧
      (¬ taken → b + 8192 ≤ 0x100000 → b % 256 = 0 → exec p.1 s = .next
        (modCur (watch s true 0 b 8192 (!p.2) p.2) fun c => { streamedOn s c with
          tport := c.tport ++ [⟨p.2, k, b, 0, if p.2 then smGet 0 c.tiles k else 0⟩] }))

/-- R144 to R146, R149: lsu.cpy, lsu.tld and lsu.tst. -/
def Obligations.CopiesAndTileTransfers : Prop :=
  convertingCopies ∧ tileTransfers

/-- R162: lsu.cbadv advances the reading or the writing pointer of a valid buffer by n, and FILL with it, in the issue cycle; it
traps CBOVR when FILL, or what is free, is less than n. -/
def Obligations.BufferAdvances : Prop :=
  ∀ (s : State) (g : BitVec 12) (x : BitVec 10), moveOn s g = true →
    let t := readS s x
    let c := cur s
    let h := (t.extractLsb' 0 3).toNat
    let n := (t.extractLsb' 8 8).toNat + 1
    let z := cbSize c h
    let lands (v : Word) (wr : Nat) : Host.Outcome State Fault Refusal := .next (launch s
      { tgt := .creg (0x118 + h), val := v.zeroExtend 1024, cnt := 1, slot := 8, aux := BitVec.ofNat 64 (2 * n + wr + z * 2 ^ 16) })
    let room : Prop := if t.getLsbD 4 then n + cbFilled c h + cbRsv c h ≤ z else n ≤ cbFilled c h
    (cbValid c h = true → room → t.getLsbD 4 = false → ∃ v : Word, exec (.lsuCbadv g x) s = lands v 0 ∧
      (v.extractLsb' 0 16).toNat = (cbRd c h + n) % z ∧ (v.extractLsb' 16 16).toNat = cbWr c h ∧
      (v.extractLsb' 32 16).toNat = cbFilled c h - n ∧ (v.extractLsb' 48 16).toNat = cbRsv c h) ∧
    (cbValid c h = true → room → t.getLsbD 4 = true → ∃ v : Word, exec (.lsuCbadv g x) s = lands v 1 ∧
      (v.extractLsb' 0 16).toNat = cbRd c h ∧ (v.extractLsb' 16 16).toNat = (cbWr c h + n) % z ∧
      (v.extractLsb' 32 16).toNat = cbFilled c h + n ∧ (v.extractLsb' 48 16).toNat = cbRsv c h) ∧
    (cbValid c h = false ∨ ¬ room → exec (.lsuCbadv g x) s = .next (raise s 0x0B 8 false (BitVec.ofNat 64 h) 0))

/-! ### The xlt, ce and lnk operations -/

/-- R164, R166: xlt.map puts a handle and xlt.r in flight, both waiting for the walk, with latency 16; xlt.unmap clears V of the
handles of its mask at once and of a map that lands on one in this cycle; xlt.probe reads a summary with POFF 0. -/
def Sys2Proof.handleTriggers : Prop :=
  ∀ (s : State) (g : BitVec 12) (x : BitVec 10), moveOn s g = true →
    let t := readS s x
    let f (l : Target) : Flight := { tgt := l, val := 0, cnt := 16, slot := 15, wait := .walk, id := s.seq + 1, aux := t }
    let h := ((operand s .xlto).extractLsb' 0 4).toNat
    exec (.xltMap g x) s = .next { (modCur s fun c => { c with
      flights := c.flights ++ [f (.handle h), f (.slat .xltr)] }) with seq := s.seq + 1 } ∧
    exec (.xltProbe g x) s =
      .next (result s .xltr 2 (summary (smGet Handle.invalid (cur s).ph (t.extractLsb' 0 4).toNat) 0)) ∧
    (∃ c : Ctx, exec (.xltUnmap g x) s = .next (modCur s fun _ => c) ∧
      { c with ph := (cur s).ph, flights := (cur s).flights } = cur s ∧
      (smWf Handle.invalid 0 (cur s).ph = true → ∀ j < 16, smGet Handle.invalid c.ph j =
        if t.getLsbD j then { smGet Handle.invalid (cur s).ph j with v := false } else smGet Handle.invalid (cur s).ph j) ∧
      c.flights = (cur s).flights.map fun f =>
        if f.cnt = 1 ∧ ∃ j < 16, f.tgt = .handle j ∧ t.getLsbD j = true then { f with ext := 1 } else f)

/-- The commands that a context has queued or running on the copy engine and that have not ended (R168, R171). That a running command
takes an entry (log 82) and that each context has its own 16 entries (log 18) is the model's choice. -/
def Sys2Proof.engineLoad (c : Cell) (fw : Bool) : Nat :=
  (c.engq.filter fun e => match e with
    | .ce _ k => k.org.fw == fw && !k.ab
    | _ => false).length + (if c.ce.any (fun r => r.cmd.org.fw == fw && r.status == 0 && !r.early) then 1 else 0)

/-- R168, R169: ce.go checks the source side, the destination side, the two offsets, LEN, the scope, the completion buffer and the
destination length of a conversion, in this order; the first that fails traps. With 16 commands it is refused with ce.r 0; else
ce.r is 1, a slot of the completion buffer is reserved and the command joins the engine queue. That a full queue is met after every
check (log 95), and that INFO1 of a bad length is 0 and a bad destination length of a conversion traps ALIGN with LEN (log 83), is
the model's choice. -/
def Obligations.CopyCommands : Prop :=
  ∀ (s : State) (g : BitVec 12) (x : BitVec 10), moveOn s g = true →
    let ctl := operand s .cectl
    let f (i n : Nat) : Nat := (ctl.extractLsb' i n).toNat
    let src := (operand s .cesrc).toNat
    let dst := (operand s .cedst).toNat
    let len := ((operand s .celen).extractLsb' 0 40).toNat
    let ssp := ctl.getLsbD 16
    let dsp := ctl.getLsbD 17
    let sh := smGet Handle.invalid (cur s).ph (f 20 4)
    let dh := smGet Handle.invalid (cur s).ph (f 24 4)
    let fmt (a : Nat) : Nat :=
      if 0x100000 ≤ a ∧ a < 0x110000 then 0 else ((creg (cur s) (0x120 + a / 64 % 32)).extractLsb' 0 3).toNat
    let sf := if ssp && dsp then fmt src else 0
    let df := if ssp && dsp then fmt dst else 0
    let size (f : Nat) : Nat := [1, 1, 1, 2, 2, 2, 4, 8].getD f 1
    let dlen := if sf = 0 ∨ df = 0 ∨ sf = df then len else len * size df / size sf
    let side (sp : Bool) (h : Handle) (a n : Nat) (rd wr : Bool) : Option Nat :=
      if sp then (if a + n ≤ 0x100000 ∨ (0x100000 ≤ a ∧ a + n ≤ 0x110000) then none else some 4) else accessCause h a n 1 rd wr
    let traps (cause a : Nat) (info1 : Nat) : Host.Outcome State Fault Refusal :=
      .next (raise s cause 8 false (BitVec.ofNat 64 a) (BitVec.ofNat 64 info1))
    let si := 0x10000 + if ssp then 0x100 else f 20 4
    let di := 0x20000 + if dsp then 0x100 else f 24 4
    let ch := f 37 3
    let cmpl := ctl.getLsbD 40
    (∀ c, side ssp sh src len true false = some c → exec (.ceGo g x) s = traps c src si) ∧
    (side ssp sh src len true false = none →
    (∀ c, side dsp dh dst dlen false true = some c → exec (.ceGo g x) s = traps c dst di) ∧
    (side dsp dh dst dlen false true = none →
      (src % 64 ≠ 0 → exec (.ceGo g x) s = traps 0x0E src si) ∧
      (src % 64 = 0 → dst % 64 ≠ 0 → exec (.ceGo g x) s = traps 0x0E dst di) ∧
      (src % 64 = 0 → dst % 64 = 0 → len = 0 ∨ len % 64 ≠ 0 → exec (.ceGo g x) s = traps 0x0E len 0) ∧
      (src % 64 = 0 → dst % 64 = 0 → 0 < len → len % 64 = 0 →
        (4 < f 43 3 → exec (.ceGo g x) s = traps 8 (cycWord s 8) 8) ∧
        (f 43 3 ≤ 4 → cmpl = true → cbValid (cur s) ch = false → exec (.ceGo g x) s = traps 0x0B ch 0) ∧
        (f 43 3 ≤ 4 → cmpl = false ∨ cbValid (cur s) ch = true →
          (dlen % 64 ≠ 0 → exec (.ceGo g x) s = traps 0x0E len 0) ∧
          (dlen % 64 = 0 → 16 ≤ engineLoad (curCell s) s.cyc.fw → exec (.ceGo g x) s = .next (result s .cer 1 0)) ∧
          (dlen % 64 = 0 → engineLoad (curCell s) s.cyc.fw < 16 →
            let tag : BitVec 16 := (readS s x).extractLsb' 0 16
            let k : CeCmd := ⟨tag, src, dst, len, ctl, sh, dh, sf, df, .bare s.cyc.fw s.cyc.addr, false⟩
            let a := result s .cer 1 1
            let b := if cmpl then modCur a fun c => cbReserve c ch else a
            let c := modCurCell { b with seq := s.seq + 1 } fun c => { c with engq := c.engq ++ [.ce (s.seq + 1) k] }
            let d := if ssp then c else markLeaves c sh false
            let e := if dsp then d else markLeaves d dh true
            let elt : StoreElt := ⟨0x88, (if dsp then 0 else dh.vpage) + BitVec.ofNat 64 dst, len,
              BitVec.ofNat 1024 (src + dst * 2 ^ 64 + (operand s .celen).toNat * 2 ^ 128 + ctl.toNat * 2 ^ 192)⟩
            exec (.ceGo g x) s = .next (replayPush e elt))))))

/-- R168, R172: ce.swap exchanges the two sets in the issue cycle with ce.r 0; ce.poll reads how many commands are queued or
running and how many have ended; ce.abort ends every queued and running one and reads their number. Each context counts and aborts its
own commands (log 18). -/
def Sys2Proof.engineTriggers : Prop :=
  ∀ (s : State) (g : BitVec 12) (x : BitVec 10), moveOn s g = true →
    let c := cur s
    let y := curCell s
    let load := engineLoad y s.cyc.fw
    (∃ d : Ctx, exec (.ceSwap g x) s = .next (result (modCur s fun _ => d) .cer 1 0) ∧
      { d with sl := c.sl } = c ∧
      (smWf (0 : Word) 0 c.sl = true → ∀ j < 32, smGet 0 d.sl j =
        smGet 0 c.sl (if 12 ≤ j ∧ j < 16 then j + 4 else if 16 ≤ j ∧ j < 20 then j - 4 else j))) ∧
    (∃ v : Word, exec (.cePoll g x) s = .next (result s .cer 1 v) ∧ (v.extractLsb' 0 5).toNat = load % 32 ∧
      v.extractLsb' 5 27 = 0 ∧ v.extractLsb' 32 32 = c.ceEnded) ∧
    (∃ z : Cell, exec (.ceAbort g x) s = .next (result (modCur (modCurCell s fun _ => z) fun c =>
        { c with ceEnded := c.ceEnded + BitVec.ofNat 32 load }) .cer 1 (BitVec.ofNat 64 load)) ∧
      engineLoad z s.cyc.fw = 0 ∧ engineLoad z (!s.cyc.fw) = engineLoad y (!s.cyc.fw) ∧ z.engq.length = y.engq.length ∧
      { z with engq := y.engq, ce := y.ce } = y)

/-- R164, R166, R168, R172: the xlt triggers, and ce.swap, ce.poll and ce.abort. -/
def Obligations.HandleAndEngineTriggers : Prop :=
  handleTriggers ∧ engineTriggers

/-- R9, R81, R173: lnk.send delivers to the opposite port of the neighbour, in the context that sends, in c + 3. On an edge port, or across
a fenced boundary, it sends nothing and traps LNKFENCE. -/
def Obligations.LinkSends : Prop :=
  ∀ (s : State) (g : BitVec 12) (x : BitVec 10) (p : BitVec 2) (v : Vec), moveOn s g = true → vsource s 8 x = some v →
    let n := s.cyc.cell
    let fence : Host.Outcome State Fault Refusal := .next (raise s 0x0C 8 false (BitVec.ofNat 64 p.toNat) 0)
    (neighbour n p.toNat = none → exec (.lnkSend g x p) s = fence) ∧
    (∀ m, neighbour n p.toNat = some m → fenced s n m = true → exec (.lnkSend g x p) s = fence) ∧
    (∀ m, neighbour n p.toNat = some m → fenced s n m = false → exec (.lnkSend g x p) s = .next (modCell s m fun c => { c with
      arrivals := c.arrivals ++ [⟨(p.toNat + 2) % 4, v, 4, !s.cyc.fw && (lockstep s n).contains m, s.cyc.fw⟩] }))

/-! ### Words, bundles and steps -/

/-- R39 to R43, R90, R95, R100, R114, R144, R163, R173, R176, R201, R205, R207 to R209, R228, R373: words that the manual writes out, and
what they decode to in the slot that it names. -/
def Obligations.WordsOfTheManualDecode : Prop :=
  ∀ c ∈ ([(0, 0x1FEB8010, .br 0xFEB 0x801 0 0 0), (0, 0x50000000, .brLoop 0 0 0 0 0), (0, 0x30000000, .brRet 0 0 0 0),
      (1, 0x00002940, .move 1 0 0xA 0x140), (2, 0x00002E25, .aluAdds3 2 0 11 1), (1, 0x00023E46, .mulDstep 1 0 0x8F),
      (3, 0x00001E62, .cmpLt 3 0 7), (2, 0x00020260, .cmpEq 2 0 0x80), (1, 0x00018407, .move 1 0 0x61 7),
      (2, 0x000C0303, .cellFrz 2 0 0x300), (4, 0x000004A7, .move 4 0 1 0xA7), (4, 0x00000B01, .vxAdd 4 0 2 0 1),
      (5, 0x0000178F, .vfFma 5 0 5 3), (4, 0x00048C09, .cbRead 4 0 2 3 9), (8, 0x00002800, .move 8 0 10 0),
      (8, 0x00002C56, .lsuMld64 0 11), (8, 0x00000E10, .lsuVsts 0 3), (8, 0x00000E21, .lnkSend 0 3 1),
      (9, 0x42000025, .mxPacc 1 2 5), (9, 0x54284000, .mxDrain 2 5 0 1), (10, 0x18B90004, .xfCvt 8 11 9 1 0),
      (10, 0x40004508, .xfSplit 4 5 8), (11, 0x40000605, .longImmediate 0x605), (11, 0xA0000001, .bcast 2 1),
      (11, 0xC0000005, .chk 0 5), (11, 0xE0000003, .chk 1 3)] : List (Nat × SlotWord × Instr)),
    decodeSlot false c.1 c.2.1 = .ok c.2.2

/-- R39, R43, R46, R176, R197, R206: decoding and encoding agree. A word decodes to an instruction exactly when it is the word of
that instruction, in its slot, and the instruction is well-formed in the guard mode. -/
def Obligations.DecodeMatchesEncode : Prop :=
  ∀ (p : Bool) (k : Nat) (w : SlotWord) (i : Instr),
    decodeSlot p k w = .ok i ↔ encode i = some (k, w) ∧ WellFormed p i = true

/-- R54 to R57: a literal group of one bundle with one word, at an address of the instruction scratchpad, is fetched as that
bundle. -/
def Sys2Proof.literalIsFetched : Prop :=
  ∀ (x : Cell) (c : Ctx) (k : Nat) (w : SlotWord), k < 12 → c.lit = false → c.pc.toNat / 2 ^ 16 = 2 ^ 47 → c.pc.toNat % 2 ^ 16 + 8 ≤ 2 ^ 16 →
    readNat (if x.ispAct then x.isp1 else x.isp0) (c.pc.toNat % 2 ^ 16) 8 = 0xFFFE + (2 ^ 15 + 2 ^ k) * 2 ^ 16 + w.toNat * 2 ^ 32 →
    ∃ b : Bundle, fetchBundle x c = .ok b 8 false none ∧ ∀ j < 12, b.word j = if j = k then w else 0

/-- R38, R69, R72: ISSUE of a cell alone in its lockstep group, with nothing due and nothing in the way, runs the instruction that the
one word of its bundle decodes to, on the state in which the issue cycle has begun; then the cycle ends, and what the debugger asks
for follows. KIND 1 reads that meet a bank conflict deliver zero (R248). -/
def Sys2Proof.issueRunsTheWord : Prop :=
  ∀ (s : State) (n k : Nat) (b : Bundle) (addr : Word) (len : Nat) (o : Bool) (idx : Option Nat) (i : Instr),
    members s n = [n] → settle s n false = s → firmDue s n = false → rankOf (getCell s n) = 0 →
    (getCell s n).task.isSome = true → nextOf s n false = .bundle b addr len o idx → k < 12 → (∀ j < 12, j ≠ k → b.word j = 0) →
    let s0 := startCyc (closeFreeze s n) n false addr len b o
    let rd (a : Nat) : BankOp := { cnt := 1, code := 0, act := .cbRead, off := a, len := 128 }
    let offs := kind1Reads s0
    let s1 := if offs = [] then s0 else modCur s0 fun c => { c with bankOps := c.bankOps ++ offs.map rd }
    decodeSlot (modeP (cur s1)) k (b.word k) = .ok i →
    ∃ t u, exec i s1 = .next t ∧ exec i { s1 with cyc := { s1.cyc with supp := true } } = .next u ∧
      let v := if offs ≠ [] ∧ readsClash t n false = true then u else t
      exec (.issue n) s =
        .next { (stopAfter (finishCycle (pushStream v n) n false (.bundle b addr len o idx) v.cyc) n v.cyc) with cyc := Cyc.idle }

/-- R38, R54 to R57, R69: a step runs the decoded instruction. A step is exec of the head of the agenda; the event ISSUE runs the
instruction that the bundle of the cell decodes to; a literal group in the instruction scratchpad is fetched as its bundle. The
agenda is the model's own (log 1). -/
def Obligations.StepRunsTheDecodedInstruction : Prop :=
  (∀ (s : State) (i : Instr) (rest : List Instr), s.agenda = i :: rest → step s = exec i { s with agenda := rest }) ∧
    literalIsFetched ∧ issueRunsTheWord

/-- R83 to R85: a turn of the wheels moves every logical register of a wheel up by one, round the wheel; registers off the wheels
do not move; distinct logical registers stay distinct. -/
def Obligations.WheelsTurn : Prop :=
  ∀ (c d : Ctx), creg d 0x102 = spinTurn c →
    (∀ j < 16, physX d (32 + (j + 1) % 16) = physX c (32 + j)) ∧
    (∀ f, ∀ j < 32, physV d f (128 + (j + 1) % 32) = physV c f (128 + j)) ∧
    (∀ j < 48, physP d (16 + (j + 1) % 48) = physP c (16 + j)) ∧
    (∀ j < 32, physX c j = j) ∧ (∀ j, 48 ≤ j → physX c j = j) ∧ (∀ f, ∀ j < 128, physV c f j = 160 * f + j) ∧
    (∀ j < 16, physP c j = j) ∧
    (∀ i < 64, ∀ j < 64, physX c i = physX c j → i = j) ∧ (∀ i < 64, ∀ j < 64, physP c i = physP c j → i = j) ∧
    (∀ f < 4, ∀ g < 4, ∀ i < 160, ∀ j < 160, physV c f i = physV c g j → f = g ∧ i = j)

/-! ### Landings, traps and interrupts -/

/-- R69, R79, R353: RESULT_LANDING with one write due: it reaches its target, and everything else of the machine stays, but for the
poison marks of what it covers. -/
def Sys2Proof.oneResultLands : Prop :=
  ∀ (s : State) (n : Nat) (f : Flight),
    let x := getCell s n
    let c := x.user
    c.flights = [f] → f.cnt = 0 → f.wait = .none → c.tland = [] → x.arrivals = [] → x.inbox = [] → x.poison = [] → x.fw.flights = [] →
    let w : Word := f.val.truncate 64
    let lands (d : Ctx) : Prop := exec (.resultLanding n) s = .next (setCtx s n false { d with flights := [] })
    (∀ i, f.tgt = .xreg i → lands { c with x := smSet 0 c.x i w }) ∧
    (∀ i, f.tgt = .xsreg i → lands { c with xs := smSet 0 c.xs i w }) ∧
    (∀ i, f.tgt = .vreg i → mappedOut x i = false → lands { c with v := smSet 0 c.v i f.val }) ∧
    (∀ i, f.tgt = .vreg i → mappedOut x i = true → lands c) ∧
    (∀ l, f.tgt = .slat l → lands { c with sl := smSet 0 c.sl (sIdx l) w }) ∧
    (∀ l, f.tgt = .vlat l → lands { c with vl := smSet 0 c.vl (vIdx l) f.val }) ∧
    (∀ k, f.tgt = .creg k → f.slot ≠ 8 → k < 0x10A ∨ 0x10D < k →
      lands { c with cr := smSet 0 c.cr k (BitVec.ofNat 64 (cregWrite k (creg c k).toNat w.toNat)) }) ∧
    (∀ i b, f.tgt = .pred i b → i < 64 → ∃ p : Word, lands { c with p := p } ∧
      ∀ j < 64, p.getLsbD j = if j = i then f.val.getLsbD 0 else c.p.getLsbD j) ∧
    (∀ u, f.tgt = .port u → lands c) ∧
    (f.tgt = .divide → lands { c with sl := smSet 0 c.sl (sIdx .mulr) w, dv := f.dv }) ∧
    (∀ h, f.tgt = .handle h → lands { c with ph := smSet Handle.invalid c.ph h { f.h with v := f.h.v && f.ext == 0 } })

/-- R75 to R77, R403: two writes of one target in one cycle keep its old value and trap WCOLL, with both writes in COLA and COLB. That the
record of a landing without a cycle of its own has SLOT 15 (log 14), and BADDR and SCYC of the bundle last issued (log 51), is the
model's reading. -/
def Sys2Proof.twoResultsCollide : Prop :=
  ∀ (s : State) (n : Nat) (f g : Flight),
    let x := getCell s n
    let c := x.user
    c.flights = [f, g] → f.cnt = 0 → f.wait = .none → g.cnt = 0 → g.wait = .none → c.tland = [] → x.arrivals = [] →
    x.inbox = [] → x.fw.flights = [] → f.tgt = g.tgt → (∃ i, f.tgt = .xreg i ∨ f.tgt = .vreg i) → f.slot ≤ g.slot → g.slot < 16 →
    let reg (f : Flight) : BitVec 1056 := colReg ⟨0, (tgtCode f).1, (tgtCode f).2, f.slot, f.val, false⟩
    let bits17 (f : Flight) : Nat := (tgtCode f).2 % 1024 + (tgtCode f).1 * 2 ^ 10 + f.slot * 2 ^ 13
    let u := setCtx s n false { c with flights := [], cola := reg f, colb := reg g }
    exec (.resultLanding n) s =
      .next (takeTrap u n false [(1, 15, false, BitVec.ofNat 64 (bits17 f + bits17 g * 2 ^ 32), 0)] 1 c.last (c.scyc - 1))

/-- R69, R75 to R77, R79: what is due lands, and two writes of one target collide. -/
def Obligations.ResultsLandOrCollide : Prop := oneResultLands ∧ twoResultsCollide

/-- R78, R210, R212: a trap of a user context holds every cell of its lockstep group, and no other, and leaves every context as it
is; one of the firmware context stops only that context. The record names the trap of the lowest slot. -/
def Sys2Proof.trapsHold : Prop :=
  ∀ (s : State) (n : Nat) (cause slot : Nat) (dec : Bool) (i j : Word) (count : Nat) (baddr scyc : Word),
    (∃ t, fileTrap s n false [(cause, slot, dec, i, j)] count baddr scyc = t ∧
      ∀ m, (getCell t m).hold = ((lockstep s n).contains m || (getCell s m).hold) ∧ (getCell t m).user = (getCell s m).user ∧
        (getCell t m).fw = (getCell s m).fw ∧ (getCell t m).fwStop = (getCell s m).fwStop) ∧
    (∃ t, takeTrap s n true [(cause, slot, dec, i, j)] count baddr scyc = t ∧
      getCell t n = { getCell s n with fwStop := some cause } ∧ ∀ m, m ≠ n → getCell t m = getCell s m) ∧
    (∀ ts : List (Nat × Nat × Bool × Word × Word), ts ≠ [] → ∃ u ∈ ts, mainTrap ts = some u ∧ ∀ v ∈ ts, u.2.1 ≤ v.2.1)

/-- R212: where the fields of a fault record stand. -/
def Sys2Proof.recordLayout : Prop :=
  ∀ (cell count slot cause : Nat) (multi dec fw : Bool) (part : BitVec 16) (baddr scyc i j : Word),
    cell < 1024 → slot < 16 → cause < 256 →
    let r : BitVec 512 := BitVec.ofNat 512 (faultRecord cell count multi dec fw slot cause part baddr scyc i j)
    (r.extractLsb' 0 10).toNat = cell ∧ r.extractLsb' 10 15 = 0 ∧ (r.extractLsb' 25 8).toNat = min count 255 ∧ r.getLsbD 33 = multi ∧
      r.getLsbD 34 = dec ∧ r.getLsbD 35 = fw ∧ (r.extractLsb' 36 4).toNat = slot ∧ (r.extractLsb' 40 8).toNat = cause ∧
      r.extractLsb' 48 16 = part ∧ r.extractLsb' 64 64 = baddr ∧ r.extractLsb' 128 64 = scyc ∧ r.extractLsb' 192 64 = i ∧
      r.extractLsb' 256 64 = j ∧ r.extractLsb' 320 192 = 0

/-- R242: taking an interrupt saves the resume address and ULIT, sets ACT and goes to UIVEC, with two idle cycles after the branch's
bubbles. With an odd UIVEC the trap ALIGN follows these idle cycles, at the resume address; ACT is 0 again and the program goes on
there: how the pending target tells the two apart is the model's own (log 23). -/
def Sys2Proof.interruptsEnter : Prop :=
  ∀ (s : State) (n : Nat),
    let c := getCtx s n false
    let v := creg c 0x107
    (followersOf s n = [] → interrupt s n = setCtx s n false { (cregPut c 0x108 (creg c 0x108 ||| 0x20000)) with
      uira := c.pc
      ulit := c.lit
      pc := v
      lit := false
      bubbles := c.bubbles + 2
      pkind := 1
      target := if v.getLsbD 0 then c.pc else v }) ∧
    (c.pkind = 1 → c.pc.getLsbD 0 = true → c.target.getLsbD 0 = false → c.lead = 0 →
      (c.bubbles ≠ 0 → advanceIdle c = { c with bubbles := c.bubbles - 1 }) ∧
      (c.bubbles = 0 → (getCell s n).task.isSome = true → (getCell s n).hold = false → (getDie s (dieOf n)).melted = false →
        stopDue (getCell s n).dbg = false → (getCell s n).soq = none → landBlocked c = false → walkDue c = false →
        storeBlocked (getCell s n) = false → replayFull s n = false →
        beforeBundle s n false = some (.trap 0x0E 13 false 0 0) ∧
        beforeIssue s n false (.trap 0x0E 13 false 0 0) = takeTrap (setCtx s n false { (cregPut c 0x108 (creg c 0x108 &&& ~~~0x20000)) with
          pc := c.uira, lit := c.ulit, pkind := 0, target := 0 }) n false [(0x0E, 13, false, 0, 0)] 1 c.uira c.scyc))

/-- R241: an interrupt is taken exactly at a bundle with Y that raises no trap and is no br.end, with EN set, no handler running, an
enabled bit pending and nothing in flight. The cycle of such a bundle, alone in its gang and with nothing else on its way, enters the
handler; that of any other bundle goes on. -/
def Sys2Proof.interruptsAreTaken : Prop :=
  ∀ (y : Cyc) (c : Ctx),
    let wanted : Prop := (Bundle.word y.bundle 0).getLsbD 3 = true ∧ y.ends = false ∧ (creg c 0x108).getLsbD 16 = true ∧
      handling c = false ∧ (creg c 0x108).extractLsb' 0 8 ≠ 0
    (∀ traps : Bool, takesInterrupt y c traps = true ↔ wanted ∧ traps = false ∧ (∀ f ∈ c.flights, f.cnt = 0) ∧
      c.bankOps = [] ∧ c.tland = [] ∧ c.tport = []) ∧
    (∀ (s : State) (n : Nat) (b : Bundle) (addr : Word) (len : Nat) (o : Bool) (idx : Option Nat), getCtx s n false = c →
      y.traps = [] → c.flights = [] → c.bankOps = [] → c.tland = [] → c.tport = [] → (getCell s n).arrivals = [] →
      (getCell s n).inbox = [] → rankOf (getCell s n) = 0 → followersOf s n = [] →
      let e := advancePc y c
      let d := getCtx (finishCycle s n false (.bundle b addr len o idx) y) n false
      (wanted → handling d = true ∧ d.pc = creg c 0x107 ∧ d.uira = e.pc ∧ d.ulit = e.lit ∧ d.bubbles = e.bubbles + 2) ∧
      (¬ wanted → d.cr = c.cr ∧ d.pc = e.pc ∧ d.lit = e.lit ∧ d.bubbles = e.bubbles))

/-- R78, R210, R212, R241, R242: taking a trap and taking an interrupt. -/
def Obligations.TrapsAndInterruptsAreTaken : Prop := trapsHold ∧ recordLayout ∧ interruptsEnter ∧ interruptsAreTaken

/-! ### The whole machine -/

/-- R28, R224, R337, R345, R354, R394, R395: the values that the manual gives for reset. Nothing is queued, every byte of memory reads 0
(log 4), the accumulators are clear, FWSHARE.N is 64, RST60 to RST63 hold V and VES, and every class may use all ways. That TIME is 0 is the
choice of the model (log 3). -/
def Obligations.ResetLeavesTheStatedValues : Prop :=
  let s := State.reset
  (∀ a, readByte s.mem a = 0) ∧ s.chan = [] ∧ s.regions = [] ∧ s.kernels = [] ∧ s.time = 0 ∧
  (∀ n, let c := getCell s n
    c.task = none ∧ c.user.flights = [] ∧ c.l1 = [] ∧ c.storeb = [] ∧ c.fwshare = 64 ∧
    (∀ i, smGet 0 c.user.x i = 0) ∧ (∀ i, smGet 0 c.user.v i = 0) ∧
    (∀ i, (accRow c (i / 64) (i % 64)).z = true ∧ (accRow c (i / 64) (i % 64)).hr = 46)) ∧
  (∀ d, let x := getDie s d
    (∀ i, smGet 0 x.rst i = if 60 ≤ i ∧ i < 64 then 0xA000000000000000 else 0) ∧ x.l2 = [] ∧
    (∀ l c, (cosOf x l c).ways = 0xFFFF ∧ (cosOf x l c).setmask = 0x7FFF ∧ (cosOf x l c).setbase = 0 ∧ (cosOf x l c).share = 16))

/-- No step is refused, and the one fault is that of an access above the memory of the device (R11, log 13). -/
def Obligations.StepsAreNeverRefused : Prop :=
  ∀ s : State, (∃ t, step s = .next t) ∨ ∃ pa, step s = .fault (.noMemory pa)

/-- The memories of the machine are in their canonical form at reset. -/
def Obligations.MemoryIsCanonicalAtReset : Prop := MemInv State.reset

/-- Every step keeps the memories in their canonical form, from every state in which they are. -/
def Obligations.StepsKeepMemoryCanonical : Prop := ∀ s t : State, MemInv s → step s = .next t → MemInv t

/-! ### The memory machine -/

/-- The state after a message has entered its channel, with the class, the host function and the marking of the context that it is
made for (R254, R330, R336). -/
def Sys2Proof.sends (s : State) (n : Nat) (o : Origin) (snd : Sender) (h : Home) (op : MsgOp) : State :=
  let f := tctxFunc (tctxOf s (seqOwner (getCell s n)) o.fw)
  { s with seq := s.seq + 1, chan := s.chan ++ [⟨s.seq + 1, n, snd, h, op, if o.fw then 0 else cellCos s n, f,
      (smGet HostFn.reset s.hosts f).tdisp == 2, o⟩] }

/-- R250, R254, R257: FILL_REQUEST, BIND and ACQUIRE at the head of the load queue. -/
def Sys2Proof.loadQueueMoves : Prop :=
  ∀ (s : State) (n : Nat) (rest : List LoadEnt),
    let c := getCell s n
    (∀ id pa len sg kind sl host o, c.loadq = .load id pa len sg kind sl host o :: rest →
      ((∃ k < len, lacksByte c id (pa + k) = true) → fillPending s n (pa / 128) = false → exec (.fillRequest n id) s = .next
        (sends s n o (.cell n) (homeOf host sl (pa / 128 * 128)) (.fill (physLine (pa / 128)) kind))) ∧
      (∀ b : Nat → Nat, (∀ k < len, boundByte c id (pa + k) = some (b k)) → len ≤ 8 ∨ (sg = false ∧ len ≤ 128) →
        ∃ (w : Vec) (d : Cell), (∀ k < len, bits w.toNat (8 * k) 8 = b k) ∧ (sg = false → w.toNat < 2 ^ (8 * len)) ∧
          d = { c with loadq := rest, l1 := d.l1 } ∧ (∀ l, (l1Get d l).words = (l1Get c l).words) ∧
          exec (.bind n id) s = .next (modCtx (setCell { s with seq := s.seq + 1 } n d) n o.fw fun c => { c with
            flights := c.flights.map fun f => if f.wait = .load id then { f with val := w, wait := .none } else f }))) ∧
    (∀ id scope mark fw, c.loadq = .acq id scope mark fw :: rest → loadsDone c id = true →
      mark = 0 ∨ markersDone c (mark - 1) = true → ∃ d : Cell, exec (.acquire n) s = .next (setCell s n d) ∧
        d = { c with loadq := rest, l1 := d.l1 } ∧ (scope = 0 → d.l1 = c.l1) ∧
        (0 < scope → ∀ e ∈ d.l1, e.2.kind = 1 ∨ (mark ≠ 0 ∧ e.2.kind = 2) → ∀ w ∈ e.2.words, w.2.dirty = true) ∧
        (∀ e ∈ c.l1, ∀ w ∈ e.2.words, w.2.dirty = true → ∃ e' ∈ d.l1, e'.1 = e.1 ∧ w ∈ e'.2.words))

/-- R249, R250: a line that comes to a set of L1 that holds 8 others displaces the least recently used one, which is written back
whole; where it is held already, or the set has room, nothing is displaced. -/
def Sys2Proof.makesRoom (s r : State) (n line : Nat) : Prop :=
  let c := getCell s n
  (l1Has c line = true ∨ (l1Set c line).length < 8 → r = s) ∧
    (l1Has c line = false → 8 ≤ (l1Set c line).length → ∃ v ∈ l1Set c line,
      (∀ e ∈ l1Set c line, v.2.age ≤ e.2.age) ∧ r = evictLine s n v.1)

/-- R249 to R252, R257, R379: DRAIN, PLACE, WRITE_BACK and COMPLETE. A drained store stands in L1 as D words, in a way of its set, and clears
the marks of the 64-bit words that it writes whole (numbered by the model, log 22); a placed
marker has its position; the FIFO head goes to its home as one message and its words become clean; the oldest marker completes when
nothing it waits for is left. -/
def Sys2Proof.storesMove : Prop :=
  ∀ (s : State) (n : Nat),
    let c := getCell s n
    (∀ id pa len v kind sl host strict o rest, c.storeb = .store id pa len v kind sl host strict o :: rest →
      drainable c = true → 0 < len → pa % 128 + len ≤ 128 → ∃ (r : State) (d : Cell), makesRoom s r n (pa / 128) ∧
        exec (.drain n) s = .next (setCell { r with seq := r.seq + 1 } n d) ∧
        d = { getCell r n with storeb := rest, l1 := d.l1, fifo := d.fifo, poison := d.poison } ∧
        (d.poison = (getCell r n).poison.filter fun p => !(p.1 == 9 && p.2.1 == pa / 128 && decide (pa % 128 ≤ 8 * p.2.2) &&
          decide (8 * p.2.2 + 8 ≤ pa % 128 + len))) ∧
        (∀ k < len, ∃ w, l1Word (l1Get d (pa / 128)) ((pa + k) % 128 / 4) = some w ∧ w.dirty = true ∧
          bits w.val.toNat (8 * ((pa + k) % 4)) 8 = bits v.toNat (8 * k) 8) ∧
        (∀ line, line ≠ pa / 128 → l1Get d line = l1Get (getCell r n) line) ∧
        (l1Dirty (l1Get c (pa / 128)) = true → d.fifo = c.fifo) ∧
        (l1Dirty (l1Get c (pa / 128)) = false → d.fifo = c.fifo ++ [⟨r.seq + 1, pa / 128⟩])) ∧
    (∀ id rest, c.storeb = .mark id :: rest → (c.markers.filter fun m => m.pos.isSome).length < 16 → exec (.place n) s =
      .next (setCell s n { c with
        storeb := rest
        markers := c.markers.map fun m => if m.id = id then { m with pos := some s.seq } else m })) ∧
    (∀ e rest, c.fifo = e :: rest → l1Dirty (l1Get c e.line) = true → ∃ d : Cell,
      let l := l1Get c e.line
      exec (.writeBack n e.line) s = .next (setCell (sends s n l.org (.cell n) (homeOf l.host l.slice (e.line * 128))
        (.wb (physLine e.line) e.pos (l.words.filter fun w => w.2.dirty))) n d) ∧
      d = { c with fifo := rest, l1 := d.l1 } ∧
      l1Get d e.line = { l with words := l.words.map fun w => (w.1, { w.2 with dirty := false, whole := false, orgs := [] }) }) ∧
    (∀ m ms p, c.markers = m :: ms → m.pos = some p → (∀ e ∈ c.fifo, p < e.pos) →
      (∀ k ∈ s.chan, markerWaits n p m k = false) → loadsDone c m.last = true → m.scope < 3 ∨ (∀ r ∈ c.records, m.last ≤ r.id) →
      exec (.complete n) s = .next (setCell s n { c with markers := ms }))

/-- R26, R147, R156, R163, R171, R257, R263: SO, ENGINE, RECORD and CE_COMPLETION. -/
def Sys2Proof.queuesMove : Prop :=
  ∀ (s : State) (n : Nat),
    let c := getCell s n
    (∀ q, c.soq = some q → q.sent = false → loadsDone c q.id = true → markersDone c q.id = true → exec (.so n) s =
      .next (sends (setCell s n { c with soq := some { q with sent := true } }) n q.org (.cell n) (homeOf q.host q.slice q.pa)
        (if q.store then .soWrite q.id q.pa q.len q.val else .soRead q.id q.pa q.len))) ∧
    (∀ id pa off aop cas a k sl sysat host ret o rest, c.ce = none →
      c.engq = .atomic id pa off aop cas a k sl sysat host ret o :: rest → markersDone c id = true →
      (∀ q, c.soq = some q → q.id = id → loadsDone c id = true) →
      let line := keyLine host (pa / 128)
      l1Dirty (l1Get c line) = false → exec (.engine n) s =
        .next (sends (setCell s n { l1Drop c line with engq := rest }) n o (.cell n) (homeOf host sl pa)
          (.atomic pa off aop cas a k sysat ret id))) ∧
    (∀ id k rest, c.ce = none → c.engq = .ce id k :: rest → k.ab = false → markersDone c id = true → enginePending s n = false →
      k.ctl.getLsbD 41 = false → exec (.engine n) s =
        .next (setCell s n { c with engq := rest, ce := some ⟨k, 0, 0, [], none, 0, false⟩ })) ∧
    (∀ r rest, c.records = r :: rest → r.dev = false →
      let h := (c.exlhead.extractLsb' 0 32).toNat
      let a := (c.exlbase.extractLsb' 4 44).toNat * 16 % 2 ^ 48 + 16 * (h % 2 ^ (c.exlsize.extractLsb' 0 5).toNat)
      ∃ e : Word, e.extractLsb' 32 32 = c.exlhead.extractLsb' 32 32 ∧ e.extractLsb' 0 32 = c.exlhead.extractLsb' 0 32 + 1 ∧
        exec (.record n) s = .next (sends (setCell s n { c with records := rest, exlhead := e }) n (.bare false c.user.last) (.cell n)
          (.slice (homeDie a) (homeSlice a)) (.record a 16 r.val r.id))) ∧
    (∀ d rest, c.ceDone = d :: rest → reportable s n d = true →
      let h := (d.cmd.ctl.extractLsb' 37 3).toNat
      let fw := d.cmd.org.fw
      let popped := setCell s n { c with ceDone := rest }
      let slot : Vec := BitVec.ofNat 1024 (d.cmd.tag.toNat + d.status * 2 ^ 16 + d.done % 2 ^ 40 * 2 ^ 24)
      (d.cmd.ctl.getLsbD 40 = false → exec (.ceCompletion n) s = .next popped) ∧
      (d.cmd.ctl.getLsbD 40 = true → running c fw = true → exec (.ceCompletion n) s =
        .next (modCell popped n fun c => { c with inbox := c.inbox ++ [⟨fw, h, slot⟩] })) ∧
      (d.cmd.ctl.getLsbD 40 = true → running c fw = false → c.inbox = [] → cbValid (getCtx popped n fw) h = true →
        exec (.ceCompletion n) s = .next (deposit popped n fw h true slot)))

/-- R26, R147, R156, R163, R171, R249 to R252, R254, R257, R263: the steps that a cell takes in the memory machine. A deposit comes to
a running context with the end of its cycle (log 89). -/
def Obligations.CellStepsOfTheMemoryMachine : Prop := loadQueueMoves ∧ storesMove ∧ queuesMove

/-- No slice but one holds a copy of a line (R335). -/
def Sys2Proof.oneCopy (s : State) (sl line : Nat) : Prop :=
  ∀ x ∈ (getDie s (homeDie (line * 128))).l2, x.line = line → x.slice = sl

/-- R11, R147, R154, R156, R157, R250, R255, R257, R260, R274, R339: PERFORM of the oldest message of its channel. While a line of it has no
data in L2, it joins the fill. A write, a writeback or an atomic changes, at its home, the bytes that it writes and no others, where no
codec region, no dirty tracking and no second copy is set; a load and an atomic return what the home holds; a fill gives the words that
L1 lacks or holds clean their home values, but those that a younger writeback of the cell carries, and keeps D words. An access above
the memory of the device is the model's own fault (log 13). -/
def Sys2Proof.messagesPerform : Prop :=
  ∀ (s : State) (m : Msg) (d sl : Nat), s.chan.find? (fun k => k.id == m.id) = some m → oldestIn s m = true → m.home = .slice d sl →
    let popped : State := { s with chan := delFirst (fun k => k.id == m.id) s.chan }
    let reads (t : State) (a : Nat) : Nat := homeRead t (sl + 1) a 1
    let plain (pa len : Nat) : Prop := pa % 128 + len ≤ 128 ∧ s.codecs = [] ∧ oneCopy s sl (pa / 128) ∧
      (getDie s (homeDie pa)).migctl.getLsbD 0 = false ∧ Memory.wf s.mem = true
    let written (t : State) (pa len v : Nat) : Prop :=
      ∀ a, reads t a = if pa ≤ a ∧ a < pa + len then bits v (8 * (a - pa)) 8 else reads s a
    (2 ^ 40 < (opRange m.op).1 + (opRange m.op).2 → exec (.perform m.id) s = .fault (.noMemory (opRange m.op).1)) ∧
    ((opRange m.op).1 + (opRange m.op).2 ≤ 2 ^ 40 →
      (∀ l, msgMissing s m = some l → ∃ t, exec (.perform m.id) s = .next t ∧ t.chan = s.chan ∧ t.mem = s.mem ∧ t.cells = s.cells ∧
        let x := getDie t (homeDie (l * 128))
        (∃ f ∈ x.fills, f.slice = sl ∧ f.line = l ∧ 2 * m.id ∈ f.who) ∨
          ∃ f ∈ x.misses, f.slice = sl ∧ f.line = l ∧ 2 * m.id ∈ f.who) ∧
      (msgMissing s m = none →
        (∀ id pa len v, m.op = .soWrite id pa len v ∨ m.op = .engWrite pa len v → plain pa len → ∃ t,
          exec (.perform m.id) s = .next t ∧ t.chan = popped.chan ∧ written t pa len v.toNat) ∧
        (∀ pa len v rid, m.op = .record pa len v rid → plain pa len → ∃ t,
          exec (.perform m.id) s = .next t ∧ t.cells = s.cells ∧ written t pa len v.toNat) ∧
        (∀ line pos ws, m.op = .wb line pos ws → plain (line * 128) 128 → (ws.map Prod.fst).Nodup → (∀ e ∈ ws, e.1 < 32) → ∃ t,
          exec (.perform m.id) s = .next t ∧ t.cells = s.cells ∧ t.chan = popped.chan ∧
          (∀ e ∈ ws, e.2.dirty = true → ∀ k < 4, reads t (line * 128 + 4 * e.1 + k) = bits e.2.val.toNat (8 * k) 8) ∧
          ∀ a, (a / 128 = line → ∀ e ∈ ws, e.1 = a % 128 / 4 → e.2.dirty = false) → reads t a = reads s a) ∧
        (∀ id pa len q, m.op = .soRead id pa len → (getCell s m.cell).soq = some q → q.id = id → q.len = len → plain pa len →
          s.poison = [] → len ≤ 8 ∨ (q.signed = false ∧ len ≤ 128) → ∃ (t : State) (w : Vec), exec (.perform m.id) s = .next t ∧
          (getCell t m.cell).soq = none ∧ t.mem = s.mem ∧ (∀ k < len, bits w.toNat (8 * k) 8 = reads s (pa + k)) ∧
          (q.signed = false → w.toNat < 2 ^ (8 * len)) ∧
          (getCtx t m.cell q.org.fw).flights = (getCtx s m.cell q.org.fw).flights.map fun f =>
            if f.wait = .load id then { f with val := w, wait := .none } else f) ∧
        (∀ pa off aop cas a k sysat ret trig, m.op = .atomic pa off aop cas a k sysat ret trig → s.poison = [] →
          let ty := (aop.extractLsb' 0 4).toNat
          let len := if cas then 16 else if ty = 1 ∨ ty = 3 ∨ ty = 7 then 8 else 4
          plain pa len → ∃ (t : State) (old : Nat), old < 2 ^ (8 * len) ∧ (∀ j < len, bits old (8 * j) 8 = reads s (pa + j)) ∧
            let r := if cas then (if old = k.toNat then (a.toNat, true) else (old, false))
              else aopElem (aop.extractLsb' 4 4).toNat ty old a.toNat k.toNat
            exec (.perform m.id) s = .next (if ret = 0 then t else setRet t m.cell trig
              (some (BitVec.ofNat 1024 (old + (if r.2 then 2 ^ 128 else 0) + off * 2 ^ 192)))) ∧
            (r.2 = true → written t pa len r.1) ∧ (r.2 = false → ∀ b, reads t b = reads s b)) ∧
        (∀ line kind, m.op = .fill line kind → oneCopy s sl line → ∃ t, exec (.perform m.id) s = .next t ∧ t.mem = s.mem ∧
          ∀ w < 32, let old := l1Word (l1Get (getCell s m.cell) line) w
            let new := l1Word (l1Get (getCell t m.cell) line) w
            let own := wbWord popped m line w
            ((∀ k ∈ s.chan, k.cell = m.cell → k.home = m.home → m.id < k.id →
                ∀ p ws, k.op = .wb line p ws → ∀ u, (w, u) ∈ ws → u.dirty = false) →
              own = none) ∧
            (∀ u, old = some u → u.dirty = true → new = some u) ∧
            ((∀ u, old = some u → u.dirty = false) → ∃ u, new = some u ∧ u.dirty = false ∧
              (own = none → u.val.toNat = homeRead s (sl + 1) (line * 128 + 4 * w) 4) ∧ ∀ x, own = some x → u.val = x.val))))

/-- R152 to R155: the value that an atomic leaves in one element and whether it wrote, for every type and operation that R154 allows; and
how a scratchpad atomic makes it: it reads in c + 1, with the old value for its result, and writes in c + 3. -/
def Sys2Proof.atomicsCompute : Prop :=
  (∀ (op ty x a k : Nat), op < 8 → ty < 8 → (op = 2 ∨ op = 3 ∨ op = 4 ∨ op = 7 → ty < 4) →
    let w := if ty = 1 ∨ ty = 3 ∨ ty = 7 then 64 else 32
    x < 2 ^ w → a < 2 ^ w → k < 2 ^ w →
    let r := aopElem op ty x a k
    let v (n : Nat) : Int := if ty < 2 then sval w n else n
    let float (F : Fmt) (x a : Nat) : Nat := if op = 1 then fadd F x a else fminmax F (op == 6) x a
    (op = 0 → r = (a, true)) ∧ (op = 7 → r = if x = k then (a, true) else (x, false)) ∧ (op ≠ 7 → r.2 = true) ∧
    (ty < 4 → (op = 1 → r.1 = (x + a) % 2 ^ w) ∧ (op = 2 → r.1 = x &&& a) ∧ (op = 3 → r.1 = x ||| a) ∧ (op = 4 → r.1 = x ^^^ a) ∧
      (op = 5 → (r.1 = x ∨ r.1 = a) ∧ v r.1 = min (v x) (v a)) ∧ (op = 6 → (r.1 = x ∨ r.1 = a) ∧ v r.1 = max (v x) (v a))) ∧
    (op = 1 ∨ op = 5 ∨ op = 6 →
      (∀ c ∈ [(4, fp16), (5, bf16)], ty = c.1 → ∀ i < 2, lane 16 r.1 i = float c.2 (lane 16 x i) (lane 16 a i) % 2 ^ 16) ∧
      (∀ c ∈ [(6, fp32), (7, fp64)], ty = c.1 → r.1 = float c.2 x a))) ∧
  (∀ (s : State) (n : Nat) (fw : Bool) (o : BankOp) (banks : List Nat) (port : Nat),
    let x := spRead (getCell s n) o.off o.len
    (∀ id vec aop d k, o.act = .amoRead id vec aop d k → o.ext = 0 → o.dead = false → o.len ≤ 128 →
      let ty := (aop.extractLsb' 0 4).toNat
      let e := if ty = 1 ∨ ty = 3 ∨ ty = 7 then 64 else 32
      ∃ old new : Vec, bankAct s n fw (⟨o, banks, port⟩, false) = modCtx s n fw (fun c => { c with
          flights := c.flights.map fun f => if f.id = id ∧ f.wait = .none ∧ id ≠ 0 ∧ f.aux = 0 then { f with val := old } else f
          bankOps := c.bankOps.map fun p => if p.grp = o.grp ∧ o.grp ≠ 0 then { p with val := new } else p }) ∧
        (∀ i < 8 * o.len / e, lane e new.toNat i =
          (aopElem (aop.extractLsb' 4 4).toNat ty (lane e x i) (lane e d.toNat i) (lane e k.toNat i)).1 % 2 ^ e) ∧
        (vec = true → old = BitVec.ofNat 1024 x) ∧
        (vec = false → old = BitVec.setWidth 1024 (if ty = 0 then BitVec.signExtend 64 (BitVec.ofNat 32 x) else BitVec.ofNat 64 (x % 2 ^ e)))) ∧
    (o.act = .amoWrite → o.dead = false →
      bankAct s n fw (⟨o, banks, port⟩, false) = modCell s n fun c => spWrite c o.off o.len o.val.toNat))

/-- R154, R261, R262, R339, R395: HOST and HOST_ATOMIC_WRITE. The oldest entry of a function's queue is performed in order, once the data
of its lines is there: a read returns the home bytes, a write changes its bytes and no others, an atomic returns the old value and, on
a page with SYSAT, leaves the new one, and on another keeps it for its later write; during a wipe a read returns 0 and a write is
dropped. -/
def Sys2Proof.hostQueuesMove : Prop :=
  ∀ (s : State) (f : Nat) (rest : List HostReq),
    let h := getHost s f
    let pops (t : State) (g : HostFn → HostFn) : Prop := getHost t f = g { h with queue := rest }
    let ready (pa len : Nat) : Prop := lineMissing s (2 * f + 1) 0 pa len = none
    let plain (pa len : Nat) : Prop := pa % 128 + len ≤ 128 ∧ pa + len ≤ 2 ^ 40 ∧ s.codecs = [] ∧
      oneCopy s (homeSlice pa) (pa / 128) ∧ (getDie s (homeDie pa)).migctl.getLsbD 0 = false ∧ Memory.wf s.mem = true
    let written (t : State) (pa len v : Nat) : Prop := ∀ a, homeRead t 0 a 1 =
      if pa ≤ a ∧ a < pa + len then bits v (8 * (a - pa)) 8 else homeRead s 0 a 1
    (∀ pa len, h.queue = .read pa len :: rest → pa + len ≤ 2 ^ 40 → len ≤ 128 → wiping s = true ∨ ready pa len →
      (∀ k < len, oneCopy s (homeSlice (pa + k)) ((pa + k) / 128)) →
      ∃ t, exec (.host f) s = .next t ∧ ∃ v : Vec, pops t (fun h => { h with got := h.got ++ [v] }) ∧ t.mem = s.mem ∧
        ∀ k < len, bits v.toNat (8 * k) 8 = if wiping s then 0 else homeRead s 0 (pa + k) 1) ∧
    (∀ pa len v, h.queue = .write pa len v :: rest → plain pa len → wiping s = true ∨ ready pa len →
      ∃ t, exec (.host f) s = .next t ∧ pops t id ∧
      (wiping s = false → written t pa len v.toNat) ∧ (wiping s = true → t.mem = s.mem)) ∧
    (∀ pa len v, h.queue = .later pa len v :: rest → plain pa len → wiping s = true ∨ ready pa len →
      ∃ t, exec (.hostAtomicWrite f) s = .next t ∧ pops t id ∧
      (wiping s = false → written t pa len v.toNat) ∧ (wiping s = true → t.mem = s.mem)) ∧
    (∀ pa aop a k sysat, h.queue = .atomic pa aop a k sysat :: rest →
      let ty := (aop.extractLsb' 0 4).toNat
      let len := if ty = 1 ∨ ty = 3 ∨ ty = 7 then 8 else 4
      plain pa len →
      (wiping s = true → ∃ t, exec (.host f) s = .next t ∧ pops t (fun h => { h with got := h.got ++ [0] }) ∧ t.mem = s.mem) ∧
      (wiping s = false → ready pa len → hostAtomicOpen s f pa len = false → ∃ (t : State) (old : Vec),
        exec (.host f) s = .next t ∧ old.toNat < 2 ^ (8 * len) ∧
        (∀ j < len, bits old.toNat (8 * j) 8 = homeRead s 0 (pa + j) 1) ∧
        let r := aopElem (aop.extractLsb' 4 4).toNat ty old.toNat a.toNat k.toNat
        let got (h : HostFn) : HostFn := { h with got := h.got ++ [old] }
        (r.2 = true → sysat = true → pops t got ∧ written t pa len r.1) ∧
        (r.2 = true → sysat = false → pops t (fun h => { got h with queue := .later pa len (BitVec.ofNat 1024 r.1) :: rest }) ∧ t.mem = s.mem) ∧
        (r.2 = false → pops t got ∧ t.mem = s.mem))) ∧
    (∀ q, h.queue = q :: rest → wiping s = false → (hostRange q).1 + (hostRange q).2 ≤ 2 ^ 40 →
      ¬ ready (hostRange q).1 (hostRange q).2 → ∃ t, exec (.host f) s = .next t ∧ t.hosts = s.hosts ∧ t.mem = s.mem) ∧
    (∀ q, h.queue = q :: rest → 2 ^ 40 < (hostRange q).1 + (hostRange q).2 → exec (.host f) s = .fault (.noMemory (hostRange q).1))

/-- R273, R338 to R340: FILL_START takes the waiting miss of the one class that waits, and a way that its class allows and nothing
holds; FILL_INSTALL puts the line, as memory then stands, into that set and way, and its data is there for the accesses that wait. -/
def Sys2Proof.fillsMove : Prop :=
  ∀ (s : State) (d : Nat),
    let x := getDie s d
    (∀ m w, x.misses = [m] → m.cos < 16 → codecBacking s (m.line * 128) = false →
      let r := cosOf x m.slice m.cos
      let st := cosSet r (m.line * 128)
      l2Victim x m.slice st r.ways.toNat = some (w, none) →
      ∃ t, exec (.fillStart d m.slice) s = .next t ∧ t.mem = s.mem ∧ (getDie t d).misses = [] ∧
        (getDie t d).fills = x.fills ++ [⟨m.slice, m.line, m.cos, st, w, s.seq + 1, m.who⟩] ∧
        (cosOf (getDie t d) m.slice m.cos).cur = r.cur + 1) ∧
    (∀ f rest, x.fills = f :: rest → s.codecs = [] → ∃ t, exec (.fillInstall d f.slice) s = .next t ∧ t.mem = s.mem ∧
      getDie t d = { x with
        fills := rest
        returned := x.returned ++ f.who.map fun w => (w, f.line)
        l2 := if f.way = 16 then x.l2 else
          x.l2 ++ [⟨f.slice, f.set, f.way, f.line, f.cos, BitVec.ofNat 1024 (memLine s f.line), 0, s.seq + 1⟩] })

/-- R152 to R157, R254 to R257, R261, R262, R338 to R340, R395: the steps that homes, host queues and slices take in the memory machine, and
the values of atomics. -/
def Obligations.HomeStepsOfTheMemoryMachine : Prop := messagesPerform ∧ atomicsCompute ∧ hostQueuesMove ∧ fillsMove

/-! ### Fetch, cells and the debugger -/

/-- Memory as written is read back: no codec region, no dirty tracking, and every L2 line in the natural slice of its address (R335). -/
def Sys2Proof.plainMemory (s : State) : Prop :=
  s.codecs = [] ∧ (∀ d, (getDie s d).migctl.getLsbD 0 = false) ∧
    (∀ d, ∀ y ∈ (getDie s d).l2, y.slice = sliceOf 0 (y.line * 128)) ∧ Memory.wf s.mem = true

/-- R57 to R59, R65, R318, R325: a fetch line arrives. Of the memory, at a context that translates under no translation context, whose
cell has no write of its own on the way, where no other slice holds a second copy (R335): the context comes to hold its 64 bytes as they
stand at their home. A line at an address that is no physical address traps IFETCH when it is asked for, and else is dropped. Of the
instruction scratchpad: it holds what stands there, in the half that bit 16 names (log 21). Other lines may leave. -/
def Sys2Proof.linesArrive : Prop :=
  ∀ (s : State) (n : Nat) (fw : Bool) (line : Word),
    let va := lineOf line
    let c := getCtx s n fw
    let x := getCell s n
    let holds (t : State) (w : Option Word) (v : Nat) : Prop :=
      let d := getCtx t n fw
      (⟨va, BitVec.ofNat 512 v⟩ ∈ d.ilines ∧ d = { c with ilines := d.ilines, want := w }) ∧
        ∀ l ∈ d.ilines, l.va ≠ va → l ∈ c.ilines
    (ispPc va = false → (fw = true ∨ tctxKey s (seqOwner x) = none) →
      (va.toNat < 2 ^ 48 → line.getLsbD 0 = false → x.storeb = [] → x.l1 = [] → (∀ m ∈ s.chan, m.cell ≠ n) →
        (∀ y ∈ (getDie s (homeDie va.toNat)).l2, y.line = va.toNat / 128 → y.slice = homeSlice va.toNat) →
        ∃ t, exec (.fetchLineArrival n fw line) s = .next t ∧ t.mem = s.mem ∧
          holds t (if c.want = some va then none else c.want) (homeRead s 0 va.toNat 64)) ∧
      (2 ^ 48 ≤ va.toNat → c.want = some va → exec (.fetchLineArrival n fw line) s = .next
        (takeTrap (setCtx s n fw { c with want := none }) n fw [(6, 14, false, va, 0x10)] 1 (nextAddr c) c.scyc)) ∧
      (2 ^ 48 ≤ va.toNat → c.want ≠ some va → exec (.fetchLineArrival n fw line) s = .next s)) ∧
    (ispPc va = true → va.toNat / 2 ^ 17 = 2 ^ 46 → line.getLsbD 0 = false → ∃ t, exec (.fetchLineArrival n fw line) s = .next t ∧
      t.mem = s.mem ∧ holds t c.want (readNat (if va.getLsbD 16 then x.isp1 else x.isp0) (va.toNat % 2 ^ 16) 64))

/-- R78, R303, R347: a freeze request becomes HOLD in its cell, and opens a frozen interval in the lockstep group. Nothing in flight is
lost. -/
def Sys2Proof.freezesTakeEffect : Prop :=
  ∀ (s : State) (n : Nat), (getCell s n).frzReq = true → ∃ t, exec (.cellFreeze n) s = .next t ∧ t.chan = s.chan ∧
    (getCell t n).frzReq = false ∧ (∀ m ∈ members s n, (getCell t m).frozen.isSome = true) ∧
    ∀ m, (getCell t m).hold = (m == n || (getCell s m).hold) ∧ (getCell t m).user = (getCell s m).user ∧
      (getCell t m).fw = (getCell s m).fw

/-- R81, R163, R173, R174: a link send from outside the lockstep group, for the context that it was sent from. A context that takes
cycles takes it with the end of the one under way. Of any other it lands in the staging register of its port, and the lowest buffer
that names the port takes it; a buffer that is invalid or full traps CBOVR. That the lowest one takes it is log 74. -/
def Sys2Proof.linksArrive : Prop :=
  ∀ (s : State) (n : Nat) (a : Arrival) (rest : List Arrival),
    let x := getCell s n
    let c := getCtx s n a.fw
    let d : Ctx := { c with vl := smSet 0 c.vl (vIdx (stagingOf a.port)) a.val }
    let staged : State := setCtx (setCell s n { x with arrivals := rest }) n a.fw d
    x.arrivals = a :: rest → (a.sync = false ∧ 1 < a.cnt) ∨ (a.fw = false ∧ x.task = none) → a.port < 4 →
    (running x a.fw = true → exec (.linkArrival n) s = .next (setCell s n { x with arrivals := { a with cnt := 1 } :: rest })) ∧
    (running x a.fw = false →
      ((∀ h < 8, cbLink d h ≠ a.port + 1) → exec (.linkArrival n) s = .next staged) ∧
      (∀ h < 8, cbLink d h = a.port + 1 → (∀ g < h, cbLink d g ≠ a.port + 1) →
        (cbValid d h = true → cbFree d h ≠ 0 → exec (.linkArrival n) s = .next (deposit staged n a.fw h false a.val)) ∧
        (cbValid d h = false ∨ cbFree d h = 0 → exec (.linkArrival n) s =
          .next (takeTrap staged n a.fw [(0x0B, 15, false, BitVec.ofNat 64 h, 0)] 1 d.last (d.scyc - 1)))))

/-- R80, R234, R235, R409: in a lockstep group that nothing freezes, a follower issues the head of its gang stream. -/
def Sys2Proof.followersIssue : Prop :=
  ∀ (s : State) (n : Nat) (e : GangEntry) (es : List GangEntry),
    let x := getCell s n
    rankOf x ≠ 0 → x.user.gang = e :: es → firmDue s n = false → n ∈ members s n →
    (∀ m ∈ members s n, settle s m false = s ∧ (∃ b a l o i, nextOf s m false = .bundle b a l o i) ∧
      ∀ r, regionOf s (seqOwner (getCell s m)) = some r → regionField s r 6 90 2 ≠ 2) →
    ∃ t, exec (.gangStreamIssue n) s = .next t ∧ (∃ new, (getCell t n).user.gang = es ++ new) ∧
      (getCell t n).user.last = e.addr ∧ (getCell t n).user.scyc = x.user.scyc + 1

/-- R81, R224: a firmware bundle of a cell whose user context is stopped runs as the word that it holds says; in a running lockstep
group a firmware cycle freezes every member. -/
def Sys2Proof.firmwareIssues : Prop :=
  (∀ (s : State) (n k : Nat) (b : Bundle) (addr : Word) (len : Nat) (o : Bool) (idx : Option Nat) (i : Instr),
    userStopped s n = true → settle s n true = s → nextOf s n true = .bundle b addr len o idx → k < 12 →
    (∀ j < 12, j ≠ k → b.word j = 0) →
    let s0 := startCyc s n true addr len b o
    let rd (a : Nat) : BankOp := { cnt := 1, code := 0, act := .cbRead, off := a, len := 128 }
    let offs := kind1Reads s0
    let s1 := if offs = [] then s0 else modCur s0 fun c => { c with bankOps := c.bankOps ++ offs.map rd }
    decodeSlot (modeP (cur s1)) k (b.word k) = .ok i →
    ∃ t u, exec i s1 = .next t ∧ exec i { s1 with cyc := { s1.cyc with supp := true } } = .next u ∧
      let v := if offs ≠ [] ∧ readsClash t n true = true then u else t
      exec (.firmwareBundle n) s =
        .next { (finishCycle v n true (.bundle b addr len o idx) v.cyc) with cyc := Cyc.idle }) ∧
  (∀ (s : State) (n : Nat), userStopped s n = false → firmDue s n = true → ∃ t, exec (.firmwareBundle n) s = .next t ∧
    ∀ m ∈ members s n, (getCell t m).fwcount = 0 ∧ (getCell t m).frozen.isSome = true)

/-- R405: FWRSM goes on with a firmware context that a trap stopped, or starts one at FWRPC, also one that never ran (log 45). -/
def Sys2Proof.firmwareStarts : Prop :=
  ∀ (s : State) (d : Nat) (v : Word),
    let n := (v.extractLsb' 0 10).toNat
    let x := getCell s n
    let pc := (getDie s d).fwrpc
    n / 128 = d →
    (x.fwStop.isSome = true → exec (.fwrsmResume d v) s = .next (setCell s n { x with fwRun := true, fwStop := none })) ∧
    (x.fwStop.isSome = true ∨ x.fwRun = false → pc.getLsbD 0 = false → exec (.fwrsmStart d v) s = .next (setCell s n { x with
      fwRun := true
      fwStop := none
      fw := { x.fw with pc := pc, lit := false, target := 0, pkind := 0, bubbles := 0, lead := 0 } }))

/-- A debugger stop of a lockstep group (R299): HOLD in every member, and DBGSTAT with STOP, REASON and WHICH; ERR, the contexts and
every other cell stay. -/
def Sys2Proof.stops (s t : State) (n reason which : Nat) : Prop :=
  ∀ m, (getCell t m).user = (getCell s m).user ∧ (getCell t m).fw = (getCell s m).fw ∧
    (m ∈ lockstep s n → (getCell t m).hold = true ∧ (getCell t m).dbg.stat = ((getCell s m).dbg.stat &&& 0x100) |||
      BitVec.ofNat 64 (which % 4 * 2 ^ 4 + reason % 8 * 2 + 1)) ∧
    (m ∉ lockstep s n → getCell t m = getCell s m)

/-- R298 to R301: HALT stops the group at once, or asks for a precise stop; a precise stop that is reached, or that 256 cycles did not
reach, stops it; STEP releases the group of a stopped cell for one cycle; RUN clears HOLD of a cell that is in service, unless a scan of it
runs (R220). That RUN releases the named cell alone is log 67. -/
def Sys2Proof.debuggerStops : Prop :=
  ∀ (s : State) (n : Nat),
    let x := getCell s n
    (x.dbg.prec = false → ∃ t, exec (.halt n) s = .next t ∧ stops s t n 1 0) ∧
    (x.dbg.prec = true → exec (.halt n) s = .next (setCell s n { x with dbg := { x.dbg with precise := some 0 } })) ∧
    (x.dbg.precise = some 300 → ∃ t, exec (.preciseStop n) s = .next t ∧ stops s t n 1 0) ∧
    (x.dbg.precise = some 301 → ∃ t, exec (.preciseStopTimeout n) s = .next t ∧ stops s t n 6 0) ∧
    (x.dbg.stat.getLsbD 0 = true → ∃ t, exec (.step n) s = .next t ∧ (getCell t n).dbg.precise = some 512 ∧
      ∀ m, (m ∈ lockstep s n → (getCell t m).hold = ((getCell s m).hold && !(getCell s m).ok) ∧ (getCell t m).dbg.skip = true) ∧
        (m ∉ lockstep s n → m ≠ n → getCell t m = getCell s m)) ∧
    (scanRuns s n = true → exec (.run n) s = .next s) ∧
    (scanRuns s n = false → ∃ t, exec (.run n) s = .next t ∧ (getCell t n).hold = (x.hold && !x.ok) ∧ (getCell t n).dbg.precise = none ∧
      (getCell t n).user.pc = x.user.pc ∧ ∀ m, m ≠ n → getCell t m = getCell s m)

/-- R297, R302, R379: Sirvy makes an access through DBGDATA for the partition that owns segment SEQ of the cell, and for no other. Of a
stopped cell, where it owns the segment too, within the segment, an access reads or replaces 64 bits, and a word that is written whole is
marked no more; any other changes nothing but ERR, and returns zero. The scalar registers stand for the segments here. That an access past
the end of a segment is refused is log 67. -/
def Sys2Proof.debuggerReads : Prop :=
  ∀ (s : State) (n : Nat) (part : BitVec 16) (v : Word),
    let x := getCell s n
    let g := (x.dbg.sel.extractLsb' 56 8).toNat
    let o := (x.dbg.sel.extractLsb' 0 32).toNat
    let may := x.dbg.stat.getLsbD 0 = true ∧ g < 28 ∧ smGet 0 x.owners g = part ∧ o + 64 ≤ 8 * segLen g
    let refused : State := setCell s n { x with dbg := { x.dbg with stat := x.dbg.stat ||| 0x100, data := 0 } }
    (smGet 0 x.owners 0 ≠ part → exec (.dbgdataRead n part.toNat) s = .next s ∧ exec (.dbgdataWrite n part.toNat v) s = .next s) ∧
    (smGet 0 x.owners 0 = part →
      (may → exec (.dbgdataRead n part.toNat) s = .next (setCell s n { x with
        dbg := { x.dbg with data := BitVec.ofNat 64 (bits (segVal s n g) o 64) } })) ∧
      (may → g = 1 → ∀ i < 64, o = 64 * i → ∃ t, exec (.dbgdataWrite n part.toNat v) s = .next t ∧
        (∀ m, m ≠ n → getCell t m = getCell s m) ∧ (∀ w, (1, i, w) ∉ (getCell t n).poison) ∧
        ∀ j < 64, smGet 0 (getCell t n).user.x j = if j = i then v else smGet 0 x.user.x j) ∧
      (¬ may → exec (.dbgdataRead n part.toNat) s = .next refused ∧ exec (.dbgdataWrite n part.toNat v) s = .next refused))

/-- R57, R58, R78, R81, R173, R174, R224, R234, R235, R297 to R303, R347, R405, R409: fetch lines, freezes, links, gang streams, firmware
bundles and the debugger. The numbers 300, 301 and 512 are the model's own marks of a precise stop and of a step (log 1). That a freeze
request sets HOLD in the named cell alone is log 54, and that what comes to a cell which takes no cycle lands at once is log 74. -/
def Obligations.CellEventsTakeEffect : Prop :=
  linesArrive ∧ freezesTakeEffect ∧ linksArrive ∧ followersIssue ∧ firmwareIssues ∧ firmwareStarts ∧ debuggerStops ∧ debuggerReads

/-! ### Translation, invalidation and the answers of the hypervisor -/

/-- R321, R322: how two leaves combine; DSC is a leaf descriptor, and a level gives its leaf size. What a fetch asks of either leaf is its
X, which a walk that is no fetch leaves out. -/
def Sys2Proof.leavesCombine : Prop :=
  ∀ (t : TCtx) (fetch : Bool) (va gpa : Nat) (l m : Leaf) (d e : Word), l.desc = d.toNat → m.desc = e.toNat → 2 ≤ l.lvl → l.lvl ≤ 4 →
    2 ≤ m.lvl → m.lvl ≤ 4 → va < 2 ^ 64 → gpa < 2 ^ 48 → m.out < 2 ^ 48 →
    let h := combine t fetch va gpa l m
    let size := min (leafSize l.lvl) (leafSize m.lvl)
    h.v = true ∧ h.pr = (d.getLsbD 4 && e.getLsbD 4) ∧ h.pw = (d.getLsbD 5 && e.getLsbD 5) ∧
      h.kind.toNat = min (d.extractLsb' 7 2).toNat (e.extractLsb' 7 2).toNat ∧ h.sysat = (d.getLsbD 9 && e.getLsbD 9) ∧
      h.slaen = (d.getLsbD 10 || e.getLsbD 10) ∧ h.sla = (if e.getLsbD 10 then e.extractLsb' 11 4 else d.extractLsb' 11 4) ∧
      h.cdc = e.getLsbD 54 ∧ h.x1 = (fetch && d.getLsbD 6) ∧ h.x2 = (fetch && e.getLsbD 6) ∧
      h.creg = e.extractLsb' 48 6 ∧ pageSize h = size ∧ h.ppage.toNat = m.out / size * size ∧ h.vpage.toNat = va / size * size ∧
      h.gpage.toNat = gpa / size * size

/-- R318, R321, R322: with both stages off an address stands for itself, in a page of 1 GiB that allows everything; with stage 2 on, four
levels of descriptors lead to a leaf of 64 KiB, in which the walk sets A, and D when the page can be written. A fetch walks in the same
way, and sets the same marks. -/
def Sys2Proof.walksTranslate : Prop :=
  (∀ (s : State) (t : TCtx) (va : Nat),
    ((translate s t true va).map fun r => (r.1, { r.2 with x1 := false, x2 := false })) = translate s t false va) ∧
  ∀ (s : State) (t : TCtx) (va : Nat), va < 2 ^ 48 → s1en t = false →
    (s2en t = false → ∃ h, translate s t false va = .ok (s, h) ∧ h.v = true ∧ h.pr = true ∧ h.pw = true ∧ h.kind = 2 ∧ h.sz = 2 ∧
      h.sysat = true ∧ h.slaen = false ∧ h.host = false ∧ h.ppage.toNat + va % 2 ^ 30 = va) ∧
    (s2en t = true →
      let at1 := s2root t + 8 * (va / 2 ^ 39 % 512)
      let e1 := homeReadN s at1 8
      let at2 := e1 / 2 ^ 8 % 2 ^ 40 * 256 + 8 * (va / 2 ^ 30 % 512)
      let e2 := homeReadN s at2 8
      let at3 := e2 / 2 ^ 8 % 2 ^ 40 * 256 + 8 * (va / 2 ^ 21 % 512)
      let e3 := homeReadN s at3 8
      let at4 := e3 / 2 ^ 8 % 2 ^ 40 * 256 + 8 * (va / 2 ^ 16 % 32)
      let e4 := homeReadN s at4 8
      let table (lvl e : Nat) : Prop := bit e 0 = true ∧ bit e 1 = true ∧ badDesc true lvl e = false
      (∀ lvl a e, (lvl, a, e) ∈ [(1, at1, e1), (2, at2, e2), (3, at3, e3), (4, at4, e4)] → bit e 0 = false →
        (∀ l < lvl, (l = 1 → table 1 e1) ∧ (l = 2 → table 2 e2) ∧ (l = 3 → table 3 e3)) →
        translate s t false va = .error ⟨true, false, 0, lvl, va, none⟩) ∧
      (table 1 e1 → table 2 e2 → table 3 e3 → bit e4 0 = true → bit e4 1 = false → badDesc true 4 e4 = false →
        ∃ u h, translate s t false va = .ok (u, h) ∧ h.ppage.toNat = e4 / 2 ^ 16 % 2 ^ 32 * 2 ^ 16 ∧ h.sz = 0 ∧ h.pw = bit e4 5 ∧
          u = (let m := e4 ||| 4 ||| (if h.pw then 8 else 0); if m = e4 then s else homeWriteN s at4 8 m)))

/-- R261, R326: the record of a walk that waits for the hypervisor takes the next slot of its ring, if that is on, and joins the queue to the
host; without the ring nothing is sent. -/
def Sys2Proof.asksHyper (r t : State) (n cause slot : Nat) (info0 info1 : Word) : Prop :=
  let x := (getCell r n).user
  (ringOn r.hvsize = true → t.hvhead.extractLsb' 0 32 = r.hvhead.extractLsb' 0 32 + 1 ∧ ∃ m, t.chan = r.chan ++ [m] ∧ m.home = .host ∧
    m.op = .hyper (ringSlot r.hvbase 64 (bits r.hvsize.toNat 0 5) (bits r.hvhead.toNat 0 32)) (BitVec.ofNat 512
      (faultRecord n 1 false false false slot cause (smGet 0 (getCell r n).owners 0) (nextAddr x) x.scyc info0 info1))) ∧
  (ringOn r.hvsize = false → t.chan = r.chan ∧ t.hvhead.extractLsb' 0 32 = r.hvhead.extractLsb' 0 32)

/-- R78, R164, R165, R325, R326, R331: the walk of the oldest xlt.map gives its handle and summary, which land at their cycle; a fault
of stage 1 traps PFAULT in the cycle in which xlt.r is due; one of stage 2 holds the walk and goes to the hypervisor. A table entry
that the host refuses is reported as well, with the address that the entry has. A walk that reads tables in host memory waits behind the
device-to-host queue (R261). Which entries of the die's walk cache serve is free (log 25). -/
def Sys2Proof.walksEnd : Prop :=
  ∀ (s : State) (n : Nat) (fw : Bool) (f : Flight),
    let c := getCtx s n fw
    let p := seqOwner (getCell s n)
    let u := tctxOf s p fw
    let walk := translateVia s (dieOf n) (if fw then none else tctxKey s p) u false f.aux.toNat
    openWalk c = some f → c.walk = none →
    (walkHeld s u f.aux.toNat = true → exec (.translationWalk n fw) s = .next s) ∧
    (walkHeld s u f.aux.toNat = false → (∀ t h, walk = .ok (t, h) → exec (.translationWalk n fw) s = .next (setCtx t n fw { c with
      flights := c.flights.map fun g => if g.id = f.id ∧ g.wait = .walk then
        (match g.tgt with
         | .handle _ => { g with wait := .none, h := h }
         | _ =>
           let v : Vec := (summary h (f.aux.toNat % pageSize h)).zeroExtend 1024
           { g with wait := .none, val := if g.ext = 0 then v else v &&& BitVec.ofNat 1024 (2 ^ 63 - 1) }) else g })) ∧
    (∀ e, walk = .error e → f.cnt = 1 →
      let r : State := match e.refused with
        | some gpa => fileRefusal s n false (.bare fw (nextAddr c)) f.aux ⟨true, true, 4, e.lvl, gpa, none⟩
        | none => s
      (e.stage2 = false → exec (.translationWalk n fw) s =
        .next (takeTrap r n fw [(5, 15, false, f.aux, e.info1)] 1 (nextAddr c) c.scyc)) ∧
      (e.stage2 = true → ∃ t, exec (.translationWalk n fw) s = .next t ∧
        (getCtx t n fw).walk = some ⟨false, f.aux, f.aux, e.info1, u.iseq1, u.iseq2⟩ ∧ (getCtx t n fw).flights = c.flights ∧
        asksHyper r t n 5 15 f.aux e.info1)))

/-- R58, R213, R322, R325, R326, R331: the walk of a fetch line that a context waits for. A fault of stage 1, and a page whose stage 1 does
not let it execute, traps IFETCH; one of stage 2, and a page whose stage 2 does not, holds the walk and goes to the hypervisor. The fields
of INFO1 are those that R325 gives (log 55). -/
def Sys2Proof.fetchesWalk : Prop :=
  ∀ (s : State) (n : Nat) (fw : Bool) (line : Word),
    let va := lineOf line
    let c := getCtx s n fw
    let p := seqOwner (getCell s n)
    let u := tctxOf s p fw
    let walk := translateVia s (dieOf n) (if fw then none else tctxKey s p) u true va.toNat
    let traps (r : State) (info1 : Word) : Prop := exec (.fetchLineArrival n fw line) s =
      .next (takeTrap (setCtx r n fw { c with want := none }) n fw [(6, 14, false, va, info1)] 1 (nextAddr c) c.scyc)
    let holds (r : State) (info1 : Word) : Prop := ∃ t, exec (.fetchLineArrival n fw line) s = .next t ∧
      (getCtx t n fw).want = none ∧ (getCtx t n fw).walk = some ⟨true, va, va, info1, u.iseq1, u.iseq2⟩ ∧ asksHyper r t n 6 14 va info1
    ispPc va = false → c.want = some va →
    (walkHeld s u va.toNat = true → exec (.fetchLineArrival n fw line) s = .next s) ∧
    (walkHeld s u va.toNat = false →
      (∀ e, walk = .error e →
        let r : State := match e.refused with
          | some gpa => fileRefusal s n true (.bare fw (nextAddr c)) va ⟨true, true, 4, e.lvl, gpa, none⟩
          | none => s
        (e.stage2 = false → traps r e.info1) ∧ (e.stage2 = true → holds r e.info1)) ∧
      (∀ t h, walk = .ok (t, h) →
        (h.x1 = false → traps t (BitVec.ofNat 64 (h.lvl1.toNat + 3 * 2 ^ 3))) ∧
        (h.x1 = true → h.x2 = false → holds t (BitVec.ofNat 64 (h.lvl2.toNat + 3 * 2 ^ 3 + 2 ^ 8 +
          (h.gpage.toNat + va.toNat % pageSize h) % 2 ^ 48 * 2 ^ 16)))))

/-- R327: a request of a tenant or of the hypervisor takes the next number of its stage, and ISEQ grows, once the earlier writes of its
function have been performed. The hypervisor's function is function 0 (log 56). -/
def Sys2Proof.requestsAreAccepted : Prop :=
  ∀ (s : State) (f k : Nat) (u : TCtx) (v : Word), ctxOfFunc s f = some (k, u) →
    let t := smGet TCtx.reset s.tctx k
    let one : State := { s with tctx := smPut s.tctx k { t with
      iseq1 := t.iseq1 + 1, issued1 := t.issued1 + 1, reqs1 := t.reqs1 ++ [v] } }
    let two : State := { s with tctx := smPut s.tctx k { t with
      iseq2 := t.iseq2 + 1, issued2 := t.issued2 + 1, reqs2 := t.reqs2 ++ [v] } }
    ((getHost s f).queue = [] → exec (.invreq f v) s = .next one) ∧
    ((v.extractLsb' 8 8).toNat = f → (getHost s 0).queue = [] → (getHost s f).tdisp = 0 → exec (.hinvreq v) s = .next two) ∧
    ((v.extractLsb' 8 8).toNat = f → (getHost s 0).queue = [] → (getHost s f).tdisp ≠ 0 →
      exec (.hinvreq v) s = .next (modHost two f fun h => { h with invs := h.invs + 1 }))

/-- R166, R328: the oldest request of a stage clears the handles whose page meets its range, in every cell under the context; once no
access to such a page is left to perform, and no walk that is held began before it was accepted, DONE takes its number. -/
def Sys2Proof.requestsComplete : Prop :=
  (∀ (stage2 : Bool) (v : Word) (h : Handle),
    let n := 2 ^ (v.extractLsb' 0 6).toNat * 65536
    let a := (v.extractLsb' 16 48).toNat * 65536 / n * n
    let p := if stage2 then h.gpage.toNat else h.vpage.toNat
    covered stage2 v h = true ↔ v.getLsbD 7 = true ∨ (a < p + pageSize h ∧ p < a + n)) ∧
  (∀ (s : State) (f k : Nat) (u : TCtx) (stage2 : Bool) (v : Word) (rest : List Word), ctxOfFunc s f = some (k, u) →
    let t := smGet TCtx.reset s.tctx k
    (if stage2 then t.reqs2 else t.reqs1) = v :: rest → ∃ r, exec (.invalidationComplete f stage2) s = .next r ∧
      (∀ n ∈ cellsUnder s k, ∀ e ∈ (getCell r n).user.ph, covered stage2 v e.2 = true → e.2.v = false) ∧
      ((∃ n ∈ cellsUnder s k, accessPending s n stage2 v = true ∨ walkOpen t stage2 (getCell s n) = true) → r.tctx = s.tctx) ∧
      ((∀ n ∈ cellsUnder s k, accessPending s n stage2 v = false ∧ walkOpen t stage2 (getCell s n) = false) →
        smGet TCtx.reset r.tctx k = if stage2 then { t with reqs2 := rest, done2 := t.done2 + 1 }
          else { t with reqs1 := rest, done1 := t.done1 + 1 }))

/-- R317, R326, R360: the hypervisor answers a held walk, or a scan held back at a cell: retry, reflect or kill. How it answers a save of
Sirvy's own (trig 8) is log 61: that has no command and no record. A retry lets it go on with what it holds; reflected, a victim of the
scheduler goes on in its cells, and the images of a failed group count as given up. -/
def Sys2Proof.answersAct : Prop :=
  ∀ (s : State) (n : Nat),
    let c := (getCell s n).user
    let free : State := setCtx s n false { c with walk := none }
    let rest (i : Nat) : List SysCmd := (getDie s (dieOf n)).sys.eraseIdx i
    let killed (r : State) (t : TaskRef) : Prop :=
      (∀ m ∈ listed s, (∃ u, (getCell s m).task = some u ∧ u.kid = t.kid) → (getCell r m).task = none) ∧
      (∀ k, kernelOf s t.kid = some k → k.state < 2 → ∃ q, kernelOf r t.kid = some q ∧ q.state = 2 ∧ q.status = 9)
    (∀ w, c.walk = some w → w.fetch = false → exec (.hvrespRetry n) s = exec (.translationWalk n false) free) ∧
    (∀ w, c.walk = some w → w.fetch = true → exec (.hvrespRetry n) s =
      exec (.fetchLineArrival n false w.va) (setCtx s n false { c with walk := none, want := some w.va })) ∧
    (∀ w, c.walk = some w → exec (.hvrespReflect n) s = .next (takeTrap free n false
      [(if w.fetch then 6 else 5, if w.fetch then 14 else 15, false, w.info0, w.info1)] 1 (nextAddr c) c.scyc)) ∧
    (∀ t, c.walk.isSome = true ∨ (heldScan s n).isSome = true → (getCell s n).task = some t →
      ∃ r, exec (.hvrespKill n) s = .next r ∧ killed r t) ∧
    (∀ i k, c.walk = none → heldScan s n = some (i, k) →
      (k.trig ≠ 8 → exec (.hvrespRetry n) s = .next (scanMove s (dieOf n) i { k with held := false }) ∧
        exec (.hvrespReflect n) s = .next (setSys s (dieOf n) i { k with held := false, status := some 0x16 })) ∧
      (k.trig = 8 → exec (.hvrespRetry n) s = .next (modDie s (dieOf n) fun x => { x with sys := rest i }) ∧
        ∃ r, exec (.hvrespReflect n) s = .next r ∧ (getDie r (dieOf n)).sys = rest i ∧
          (∀ t, (listed s).Nodup → (getCell s n).saving.isSome = true → (getCell s n).task = some t →
            ∀ m ∈ taskCells s t, (getCell r m).image = none ∧
            (getCell r m).task = (getCell s m).task ∧
            (getCell r m).hold = ((getCell s m).hold && ((getCell s m).wasHeld || !(getCell s m).ok))) ∧
          ((getCell s n).saving = none → ∀ m ∈ members s n, (getCell r m).image = some ⟨0, 0, 0, true⟩ ∧
            (getCell r m).hold = (getCell s m).hold)))

/-- R58, R164 to R166, R261, R317, R318, R321, R322, R325 to R328, R331, R360: walks, invalidations and the answers of the hypervisor. A walk
is one step of the model (log 25). -/
def Obligations.TranslationsAndInvalidations : Prop :=
  leavesCombine ∧ walksTranslate ∧ walksEnd ∧ fetchesWalk ∧ requestsAreAccepted ∧ requestsComplete ∧ answersAct

/-! ### Sessions and interfaces -/

/-- R333, log 10: the requests of a session, with the progress that each needs and gives and the code of its answer. A request out of
its place is refused, and the progress stays. The algorithms are the four that are fixed. -/
def Sys2Proof.requestsAnswer : Prop :=
  ∀ (s : State) (f : Nat),
    let h := getHost s f
    let answer (g : HostFn) : Host.Outcome State Fault Refusal := .next { s with hosts := smPut s.hosts f g }
    (∀ r ∈ ([(.getVersion f, 0, 5, 1, 0x04), (.getCapabilities f, 1, 5, 2, 0x61),
        (.getDigests f, 3, 5, 3, 0x01), (.getCertificate f, 3, 5, 3, 0x02), (.challenge f, 3, 5, 3, 0x03),
        (.keyExchange f, 3, 4, 4, 0x64), (.finish f, 4, 4, 5, 0x65), (.heartbeat f, 5, 5, 5, 0x68)] :
        List (Instr × Nat × Nat × Nat × Nat)),
      (r.2.1 ≤ h.spdm → h.spdm ≤ r.2.2.1 → exec r.1 s =
        answer { h with spdm := max h.spdm r.2.2.2.1, resp := (r.2.2.2.2, 0) }) ∧
      (h.spdm < r.2.1 ∨ r.2.2.1 < h.spdm → exec r.1 s = answer { h with resp := (0x7F, 0) })) ∧
    (2 ≤ h.spdm → h.spdm ≤ 5 → exec (.negotiateAlgorithms f) s = answer { h with
      spdm := max h.spdm 3, algs := [.ed25519, .sha512, .secp384r1, .aes256gcm], resp := (0x63, 0) }) ∧
    (h.spdm < 2 ∨ 5 < h.spdm → exec (.negotiateAlgorithms f) s = answer { h with resp := (0x7F, 0) }) ∧
    (h.spdm = 5 → exec (.keyUpdate f) s = answer { h with keyUpdates := h.keyUpdates + 1, resp := (0x69, 0) }) ∧
    (h.spdm ≠ 5 → exec (.keyUpdate f) s = answer { h with resp := (0x7F, 0) }) ∧
    (∀ v, exec (.vendorDefinedRequest f v) s = if v = 0x83 then exec (.lockInterfaceRequest f) s
      else if v = 0x86 then exec (.startInterfaceRequest f) s
      else if v = 0x87 then exec (.stopInterfaceRequest f) s else answer { h with resp := (0x7F, 0) })

/-- R333: a measurement is of what its index names: of the running image, of the life-cycle state, of the second stage of a function. Two
states that agree in that give one digest, and the count of stage-2 invalidations since CONFIG_LOCKED follows it. -/
def Sys2Proof.measurementsAnswer : Prop :=
  ∀ (s : State) (f idx : Nat), 3 ≤ (getHost s f).spdm → idx ∈ [1, 2, 3] ∨ (0x10 ≤ idx ∧ idx < 0x110) →
    ∃ (t : State) (v : BitVec 512), exec (.getMeasurements f idx) s = .next t ∧ t = modHost s f (fun h => { h with
      resp := (0x60 + (if idx < 0x10 then 0 else (getHost s (idx - 0x10)).invs.toNat) * 2 ^ 8, v) }) ∧
      ∀ u : State, 3 ≤ (getHost u f).spdm →
        (idx = 1 → u.fwcode = s.fwcode) → (idx = 3 → u.lcstat.extractLsb' 0 3 = s.lcstat.extractLsb' 0 3) →
        (0x10 ≤ idx → u.tctx = s.tctx ∧ u.regions = s.regions ∧ u.mem = s.mem ∧ u.dies = s.dies ∧ u.codecs = s.codecs ∧
          u.free = s.free) →
        ∃ r, exec (.getMeasurements f idx) u = .next r ∧ (getHost r f).resp.2 = v

/-- R332: the interface of a function. A lock takes the measurement; a start goes to RUN from CONFIG_LOCKED only; a stop unlocks; a
message out of its place changes nothing but the answer. Messages come in the secure session (log 10). -/
def Sys2Proof.interfacesMove : Prop :=
  ∀ (s : State) (f : Nat),
    let h := getHost s f
    let answer (g : HostFn) : Host.Outcome State Fault Refusal := .next { s with hosts := smPut s.hosts f g }
    let refused := answer { h with resp := (0x7F, 0) }
    (h.spdm = 5 → h.tdisp = 0 → f < 256 → ∃ m : BitVec 512,
      let g : HostFn := { h with tdisp := 1, measure := m, invs := 0, resp := (0x03, 0) }
      exec (.lockInterfaceRequest f) s = answer g ∧ exec (.getMeasurements f (0x10 + f)) { s with hosts := smPut s.hosts f g } =
        answer { g with resp := (0x60, m) }) ∧
    (h.spdm = 5 → h.tdisp = 1 → exec (.startInterfaceRequest f) s = answer { h with tdisp := 2, resp := (0x06, 0) }) ∧
    (h.spdm = 5 → exec (.stopInterfaceRequest f) s = answer { h with tdisp := 0, resp := (0x07, 0) }) ∧
    (h.spdm ≠ 5 ∨ h.tdisp ≠ 0 → exec (.lockInterfaceRequest f) s = refused) ∧
    (h.spdm ≠ 5 ∨ h.tdisp ≠ 1 → exec (.startInterfaceRequest f) s = refused) ∧
    (h.spdm ≠ 5 → exec (.stopInterfaceRequest f) s = refused)

/-- R332: an error, and the end of a session, put the function in ERROR and kill the kernels of its partitions as KILLED; no other
function changes. -/
def Sys2Proof.errorsKill : Prop :=
  ∀ (s : State) (f : Nat),
    let killed (t : State) : Prop := (getHost t f).tdisp = 3 ∧ (∀ g, g ≠ f → getHost t g = getHost s g) ∧
      ∀ k r, kernelOf s k.kid = some k → k.state < 2 → r ∈ s.regions → r.part = k.part → (tctxKey s k.part).isSome = true →
        tctxFunc (tctxOf s k.part false) = f → ∃ q, kernelOf t k.kid = some q ∧ q.state = 2 ∧ q.status = 3
    (∃ t, exec (.tdispError f) s = .next t ∧ killed t) ∧
    ((getHost s f).spdm = 5 → ∃ t, exec (.endSession f) s = .next t ∧ killed t ∧ (getHost t f).spdm = 0) ∧
    ((getHost s f).spdm ≠ 5 → exec (.endSession f) s = .next (modHost s f fun h => { h with resp := (0x7F, 0) }))

/-- R332, R333: sessions, measurements and interfaces. The progress of a session and the codes of the answers are presumed (log 10). -/
def Obligations.SessionsAndInterfaces : Prop := requestsAnswer ∧ measurementsAnswer ∧ interfacesMove ∧ errorsKill

/-! ### Regions, queues and kernels -/

/-- R25, R307, R359: the pages of n bytes at a that the stage 2 of a region maps are pinned, each to its leaf. -/
def Sys2Proof.pinned (t : State) (p : BitVec 16) (a n : Nat) : Prop :=
  ∀ r, regionOf t p = some r → 0 < n → ∀ l ∈ stage2Leaves t (tctxOf t p false), ∀ g, g * 65536 < a + n → a < (g + 1) * 65536 →
    oaCovers l.2.2.2 l.2.2.1 (g * 65536) 65536 = true → ∃ q ∈ r.pins, q.1 = g * 65536

/-- R25, R307, R359: what a region keeps pinned: its SAVE area, and the exception rings of the kernels that it holds. -/
def Sys2Proof.areasPinned (t : State) (p : BitVec 16) : Prop :=
  (∀ r, regionOf t p = some r → pinned t p (rcbField r 800 64) (4096 * rcbField r 864 32)) ∧
  ∀ k ∈ t.kernels, k.part = p → k.state < 2 → 4 ≤ (k.desc.extractLsb' 336 5).toNat → (k.desc.extractLsb' 336 5).toNat ≤ 20 →
    pinned t p ((k.desc.extractLsb' 260 44).toNat * 16) (16 * 2 ^ (k.desc.extractLsb' 336 5).toNat)

/-- R307: what an admission leaves; u is the state after the read of the RCB, which is an access of L2 (R336). A refusal changes only the
answer. An admitted region has an identifier that is new and names
neither Sirvy nor the reserved value; its cells are its parent's, and none is held by a sibling of its own; a root meets no other
root. EREM starts at EBUD, its parent's where that is inherited (R305), ECONS at 0; its save area is pinned, and so are the exception rings of
kernels that wait over a new admission (R25, R359, log 40). A root that meets no bar is admitted, and a child of a parent of level 7 is DEPTH. -/
def Sys2Proof.admissionsCheck : Prop :=
  ∀ (s : State) (pa : Nat),
    let u := ownRead s pa 256
    let v : BitVec 2048 := BitVec.ofNat 2048 (homeReadN u pa 256)
    let part := v.extractLsb' 64 16
    let ebud := (v.extractLsb' 416 64).toNat
    let budget (p : Option (BitVec 16)) : Nat := match p.bind (regionOf s) with
      | some q => if v.getLsbD 129 then regionField s q 1 416 64 else ebud
      | none => ebud
    let bare (q : Region) : Region := { q with pins := [] }
    (∃ t, exec (.admitRcb pa) s = .next t ∧ (t.answer ≠ 0 → t = { u with answer := t.answer }) ∧
      (t.answer = 0 → areasPinned t part ∧ pa % 256 = 0 ∧ part ≠ 0 ∧ part ≠ 0xFFFF ∧ regionOf s part = none ∧ ∃ r : Region,
        t.regions.map bare = s.regions.map bare ++ [r] ∧
        r.part = part ∧ r.pa = pa ∧ r.rcb = v ∧ r.erem = (budget r.parent : Int) ∧ r.econs = 0 ∧ r.frozen = none ∧
        (r.parent = none → ∀ q ∈ s.regions, q.parent = none → ∀ n ∈ r.cells, n ∉ q.cells) ∧
        (∀ p, r.parent = some p → ∃ q ∈ s.regions, q.part = p ∧ (∀ n ∈ r.cells, n ∈ q.cells) ∧
          (v.getLsbD 128 = false → ∀ u ∈ s.regions, u.parent = some p → u.rcb.getLsbD 128 = false →
            ∀ n ∈ r.cells, n ∉ u.cells)))) ∧
    (∀ ns, pa % 256 = 0 → rcbReserved v.toNat = false → v.extractLsb' 90 2 ≠ 3 → part ≠ 0 → part ≠ 0xFFFF → regionOf s part = none →
      v.extractLsb' 0 64 = 0 → v.extractLsb' 128 32 = 0 → v.getLsbD 387 = true → rcbRect v.toNat = some ns →
      4 ≤ (v.extractLsb' 736 5).toNat → (v.extractLsb' 736 5).toNat ≤ 16 → s.regions = [] →
      ∃ t r, exec (.admitRcb pa) s = .next t ∧ t.answer = 0 ∧ t.regions = [r] ∧ r.cells = ns ∧ r.parent = none) ∧
    (∀ q, pa % 256 = 0 → rcbReserved v.toNat = false → v.extractLsb' 90 2 ≠ 3 → part ≠ 0 → part ≠ 0xFFFF → regionOf s part = none →
      v.extractLsb' 0 64 ≠ 0 → s.regions.find? (fun r => r.pa == (v.extractLsb' 0 64).toNat) = some q →
      q.rcb.extractLsb' 83 3 = 7 → exec (.admitRcb pa) s = .next { u with answer := 2 })

/-- R220, R304, R309, R310, R318, R332, R359: a region with no child and no kernel at work is torn down, and its translation context
goes (log 40); a release clears HOLD of the cells that a fault froze, as cell.rsm would; Sirvy writes contexts of queues and of
translation, of which reserved bits read 0, and pins what the region keeps pinned; a write to a locked context puts its function in ERROR,
and in ERROR none is written (log 59). -/
def Sys2Proof.contextsAreWritten : Prop :=
  ∀ (s : State) (part : BitVec 16) (q : Nat) (v : BitVec 256),
    let t := smGet TCtx.reset s.tctx part.toNat
    let held := ∃ e ∈ s.tctx, e.1 = part.toNat
    let tdisp := (getHost s (tctxFunc t)).tdisp
    let bare (q : Region) : Region := { q with pins := [] }
    let idle (k : Kernel) : Prop := k.state = 1 ∧ k.running = []
    ((∀ r ∈ s.regions, r.parent ≠ some part) → (∀ k ∈ s.kernels, k.part = part → idle k) → exec (.rcbTeardown part.toNat) s =
      .next { s with
        regions := s.regions.filter fun r => r.part != part
        tctx := s.tctx.filter fun e => e.1 != part.toNat
        dies := s.dies.map fun d => (d.1, { d.2 with walks := d.2.walks.filter fun e => e.key != part.toNat })
        answer := 0 }) ∧
    ((∃ r ∈ s.regions, r.parent = some part) ∨ (∃ k ∈ s.kernels, k.part = part ∧ ¬ idle k) →
      exec (.rcbTeardown part.toNat) s = .next s) ∧
    (∀ r ns, regionOf s part = some r → r.frozen = some ns →
      let owned := ns.filter fun n => ((subtree s part).map (·.part)).contains (seqOwner (getCell s n))
      ((∃ n ∈ owned, scanRuns s n = true) → exec (.subtreeRelease part.toNat) s = .next s) ∧
      ((∀ n ∈ owned, scanRuns s n = false) → ∃ u, exec (.subtreeRelease part.toNat) s = .next u ∧
        (∃ r', regionOf u part = some r' ∧ r' = { r with frozen := none }) ∧
        ∀ n, (getCell u n).hold = ((getCell s n).hold && !(owned.contains n && (getCell s n).ok)) ∧
          (getCell u n).user.pc = (getCell s n).user.pc)) ∧
    (q < 512 → ∃ c : BitVec 256, exec (.queueContextWrite q v) s =
        .next { s with queues := smPut s.queues q ⟨c, v.extractLsb' 32 32, true, []⟩, answer := 0 } ∧
      c.extractLsb' 0 5 = v.extractLsb' 0 5 ∧ c.extractLsb' 5 27 = 0 ∧ c.extractLsb' 32 32 = v.extractLsb' 32 32 ∧
      c.extractLsb' 64 64 = 0 ∧ c.extractLsb' 128 128 = v.extractLsb' 128 128) ∧
    (512 ≤ q → exec (.queueContextWrite q v) s = .next { s with answer := 1 }) ∧
    (regionOf s part = none → exec (.translationContextWrite part.toNat v) s = .next { s with answer := 1 }) ∧
    ((regionOf s part).isSome = true → ¬ (held ∧ tdisp ≠ 0) → ∃ (c : BitVec 256) (u : State),
      exec (.translationContextWrite part.toNat v) s = .next u ∧
      ((s.regions.map (·.part)).Nodup → areasPinned u part) ∧
      u.tctx = smPut s.tctx part.toNat { t with reg := c } ∧ u.answer = 0 ∧ u.cells = s.cells ∧ u.mem = s.mem ∧
      u.regions.map bare = s.regions.map bare ∧
      (∀ d, (getDie u d).walks = (getDie s d).walks.filter fun e => e.key != part.toNat) ∧
      c.extractLsb' 0 2 = v.extractLsb' 0 2 ∧ c.extractLsb' 2 30 = 0 ∧ c.extractLsb' 32 24 = v.extractLsb' 32 24 ∧
      c.extractLsb' 56 84 = 0 ∧ c.extractLsb' 140 52 = v.extractLsb' 140 52 ∧ c.extractLsb' 192 12 = 0 ∧
      c.extractLsb' 204 52 = v.extractLsb' 204 52) ∧
    ((regionOf s part).isSome = true → held → tdisp = 1 ∨ tdisp = 2 →
      exec (.translationContextWrite part.toNat v) s = exec (.tdispError (tctxFunc t)) s) ∧
    ((regionOf s part).isSome = true → held → tdisp = 3 → exec (.translationContextWrite part.toNat v) s = .next { s with answer := 1 })

/-- R311 to R313, R317, R366: QNOTIFY has the CP read the packet at RD: it stalls on V = 0; a NOP is DONE, an unknown type BADPKT, and a
LAUNCH waits for admission, or is BADDESC. A packet that was cancelled before it was read is CANCELLED. A doorbell waits behind the writes
of its function that are not performed (R261, R368), and a read of host memory behind the device-to-host queue (R261, log 93). -/
def Sys2Proof.packetsAreTaken : Prop :=
  ∀ (s : State) (q : Nat) (v : Word) (r : Region),
    let u := queueOf s q
    let j := qRd u
    let s0 := modQueue s q fun u => { u with widx := v.truncate 32, stalled := false }
    let t := tctxOf s r.part false
    let behind := (tctxKey s r.part).isSome = true ∧ (getHost s (tctxFunc t)).queue ≠ []
    q < 512 → qRegion s u = some r →
    (behind → exec (.qnotify q v) s = .next s ∧ exec (.qnotifyCancel q v) s = .next s) ∧
    (¬ behind → s.paused = false → 4 ≤ qLog u → qLog u ≤ 16 →
    (∀ k ∈ s.kernels, ¬ (k.q = some q ∧ k.pidx = j)) →
    (j = v.truncate 32 → exec (.qnotify q v) s = .next s0) ∧
    (cpHeld s0 t (slotOf u j) s0.seq = true → exec (.qnotify q v) s = .next s0) ∧
    (j ≠ v.truncate 32 → cpHeld s0 t (slotOf u j) s0.seq = false → ∀ s1 w, cpRead64 s0 t (slotOf u j) = some (s1, w) →
      (bit w 0 = false → exec (.qnotify q v) s = .next (modQueue s0 q fun u => { u with stalled := true })) ∧
      (bit w 0 = true → ∀ s2 p, cpRead s1 t (slotOf u j) 64 = some (s2, p) →
        (bits p 1 3 = 1 → loadHeld s2 t (bits p 128 64) = false) → ∃ m k, exec (.qnotify q v) s = .next m ∧
        m.kernels = s.kernels ++ [k] ∧ k.q = some q ∧ k.pidx = j ∧ k.part = r.part ∧ k.packet = BitVec.ofNat 512 p ∧
        qRd (queueOf m q) = j ∧
        (bits p 1 3 = 0 → k.state = 2 ∧ k.status = if j ∈ u.cancels then 2 else 1) ∧ (1 < bits p 1 3 → k.state = 2 ∧ k.status = 5) ∧
        (bits p 1 3 = 1 → bits p 128 64 % 64 ≠ 0 → k.state = 2 ∧ k.status = 6) ∧
        (bits p 1 3 = 1 → bits p 128 64 % 64 = 0 → ∀ s3 d, cpRead (fresh s2) t (bits p 128 64) 64 = some (s3, d) →
          (descBad (bits p 128 64) d = true → k.state = 2 ∧ k.status = 6) ∧
          (descBad (bits p 128 64) d = false → coresBad r k = false → bits d 64 64 = 0 → k.desc = BitVec.ofNat 512 d ∧
            (j ∉ u.cancels → k.state = 0) ∧ (j ∈ u.cancels → k.state = 2 ∧ k.status = 2))))))

/-- R317: a cancel. A kernel that no task has started is CANCELLED; one whose tasks have issued is killed as KILLED; in the race of its
first dispatch it is killed as DISPKILL or as KILLED (log 41); one that has ended is left alone. Of a packet that the CP has not read, a
cancel is noted where the packet is written: V is 1 in its slot, which no earlier packet holds any more. -/
def Sys2Proof.cancelsAct : Prop :=
  ∀ (s : State) (q : Nat) (v : Word), bellHeld s q = false →
    (∀ k, s.kernels.find? (fun k => k.q == some q && k.pidx == v.truncate 32) = some k → kernelOf s k.kid = some k →
      (2 ≤ k.state → exec (.qnotifyCancel q v) s = .next s) ∧
      (k.state < 2 → ∃ t u, exec (.qnotifyCancel q v) s = .next t ∧ kernelOf t k.kid = some u ∧ u.state = 2 ∧
        (k.started = false → u.status = 2 ∧ t.cells = s.cells) ∧
        (k.started = true → (u.status = 3 ∨ (u.status = 4 ∧ k.kid ∈ s.newKernels)) ∧ u.running = [] ∧ u.saved = [] ∧
          ∀ n ∈ listed s, (∃ w, (getCell s n).task = some w ∧ w.kid = k.kid) → (getCell t n).task = none))) ∧
    (∀ r, qRegion s (queueOf s q) = some r → (∀ k ∈ s.kernels, ¬ (k.q = some q ∧ k.pidx = v.truncate 32)) →
      let u := queueOf s q
      let j : BitVec 32 := v.truncate 32
      let t := tctxOf s r.part false
      let open_ := (j - qRd u).toNat < 2 ^ qLog u ∧ ∀ k ∈ s.kernels, k.q = some q → k.state < 3 → slotOf u k.pidx ≠ slotOf u j
      cpHeld s t (slotOf u j) s.seq = false → ∀ m w, cpRead64 s t (slotOf u j) = some (m, w) →
        (open_ → bit w 0 = true → exec (.qnotifyCancel q v) s = .next (modQueue s q fun u => { u with cancels := u.cancels ++ [j] })) ∧
        (¬ open_ ∨ bit w 0 = false → exec (.qnotifyCancel q v) s = .next s))

/-- R311, R313, R316, R366: admission. The packet waits for its signal once; what its WSIG holds later is no matter. A kernel whose EEST
exceeds a budget above it ends with NOENERGY; one that all of them can bear is admitted, each EREM falls by EEST, and RD moves past its
packet; otherwise it waits. -/
def Sys2Proof.kernelsAreAdmitted : Prop :=
  ∀ (s : State) (kid : Nat) (k : Kernel) (r : Region), kernelOf s kid = some k → regionOf s k.part = some r → k.state = 0 →
    (k.met = false → signalMet s k = false → exec (.kernelAdmission kid) s = .next s) ∧
    (k.met = true ∨ signalMet s k = true →
      let exceeds := ∃ p ∈ budgetOf s k.part, ∃ r, regionOf s p = some r ∧ rcbField r 416 64 < kEest k
      let bears := ∀ p ∈ budgetOf s k.part, ∀ r, regionOf s p = some r → (kEest k : Int) ≤ r.erem ∧ 0 < r.erem
      (exceeds → ∃ t u, exec (.kernelAdmission kid) s = .next t ∧ kernelOf t kid = some u ∧ u.state = 2 ∧ u.status = 8) ∧
      (¬ exceeds → (¬ bears ∨ tooHot s r = true) →
        exec (.kernelAdmission kid) s = .next (modKernel s kid fun k => { k with met := true })) ∧
      (¬ exceeds → bears → tooHot s r = false → ∃ t, exec (.kernelAdmission kid) s = .next t ∧
        kernelOf t kid = some { k with state := 1, reserve := kEest k, met := true } ∧
        (∀ p ∈ budgetOf s k.part, ∀ r, regionOf s p = some r → ∃ u, regionOf t p = some u ∧ u.erem = r.erem - (kEest k : Int)) ∧
        (∀ q, k.q = some q → qRd (queueOf s q) = k.pidx → qRd (queueOf t q) = k.pidx + 1)))

/-- R229, R231, R232, R306, R316: the next task of a kernel that its die serves takes the cells of its gang, from the leader eastward,
with the state of R231 and the kernel's partition as the owner of every segment; the turn count of the region grows. -/
def Sys2Proof.tasksAreDispatched : Prop :=
  ∀ (s : State) (kid lead : Nat) (k : Kernel) (r : Region), kernelOf s kid = some k → regionOf s k.part = some r →
    ready s k = true → placeAt s k lead = true → served s k (dieOf lead) = true → kCores k = false → k.saved = [] →
    ∃ t, exec (.taskDispatch kid lead) s = .next t ∧
      (∀ g < kG k, ∃ num, let x := getCell t (lead + g)
        let tx := k.next % kTw k
        let ty := k.next / kTw k
        x.task = some ⟨k.kid, tx, ty, g, num⟩ ∧ x.user.pc = k.desc.extractLsb' 0 64 ∧ x.user.scyc = 0 ∧ x.user.flights = [] ∧
          (∀ i < 64, smGet 0 x.user.x i = if i = 1 then k.desc.extractLsb' 128 64
            else if i = 2 then (k.desc.extractLsb' 480 32).zeroExtend 64 else 0) ∧ x.user.p = 1 ∧
          (∀ i, smGet 0 x.user.v i = 0) ∧ x.user.tiles = [] ∧ x.user.ph = [] ∧ x.acc = [] ∧
          (∀ e ∈ x.l1, ∀ w ∈ e.2.words, w.2.dirty = true) ∧
          creg x.user 0x103 = (k.desc.extractLsb' 342 1).zeroExtend 64 ∧ x.user.lead.toNat = g * kSkew k % 256 ∧
          x.user.rankx = BitVec.ofNat 64 (tx + kTw k * 2 ^ 16 + g * 2 ^ 32 + (kG k - 1) * 2 ^ 36) ∧
          x.user.ranky = BitVec.ofNat 64 (ty + kTh k * 2 ^ 16) ∧
          (k.part ≠ 0 → ∀ i < 28, smGet 0 x.owners i = k.part) ∧ x.fw = (getCell s (lead + g)).fw) ∧
      (∀ n, n < lead ∨ lead + kG k ≤ n → getCell t n = getCell s n) ∧
      kernelOf t kid = some { k with next := k.next + 1, running := k.running ++ [k.next], started := true } ∧
      ∃ u, regionOf t k.part = some u ∧
        u.turn = r.turn + 2 ^ 32 / (max 1 ((groupRegion s r 1 8).erem / 1000)).toNat

/-- R238, R316, R348, R349, R360, R364, R382, R408: a pre-emption. Its steps are log 61. The first freezes the task of the chosen victim,
whatever froze it before. Once its cells are quiescent their images are written; where no D word is left to write back, or once that is
performed, the task is saved and leaves its cells. Where the kernel waits no more, or no place is left, before the images are begun, the
victim goes on; where one of its cells has failed, nothing of the save is left, and the cells stay as they are. -/
def Sys2Proof.tasksArePreempted : Prop :=
  ∀ (s : State) (kid victim base : Nat) (t : TaskRef),
    let ns := taskCells s t
    let p := seqOwner (getCell s victim)
    let same (u : State) : Prop := ∀ n, (getCell u n).task = (getCell s n).task ∧ (getCell u n).user.pc = (getCell s n).user.pc
    let waits (w : Nat) : Prop := ∃ k r, kernelOf s w = some k ∧ regionOf s k.part = some r ∧ ready s k = true ∧
      r.cells.any (placeAt s k) = false
    (getCell s victim).task = some t → saveHeld s ns = false → (listed s).Nodup →
    (∀ k r, (getCell s victim).saving = none → kernelOf s kid = some k → regionOf s k.part = some r → ready s k = true →
      r.cells.any (placeAt s k) = false → chosenVictim s r k = some victim → placeImages s p ns.length base = true →
      ∃ u, exec (.preemption kid victim base) s = .next u ∧ same u ∧ ∀ n, (getCell u n).hold = (ns.contains n || (getCell s n).hold) ∧
        (getCell u n).saving = (if n ∈ ns then some kid else (getCell s n).saving) ∧
        (getCell u n).wasHeld = (if n ∈ ns then (getCell s n).hold else (getCell s n).wasHeld)) ∧
    (∀ w, (getCell s victim).saving = some w →
      ((∃ n ∈ ns, (getCell s n).failed ≠ 0) → ∃ u, exec (.preemption kid victim base) s = .next u ∧ same u ∧
        ∀ n, (getCell u n).hold = (getCell s n).hold ∧ (n ∈ ns → (getCell u n).saving = none ∧ (getCell u n).image = none)) ∧
      ((∀ n ∈ ns, (getCell s n).failed = 0 ∧ (getCell s n).image = none) →
        (¬ waits w ∨ firstPlace s p ns.length = none → ∃ u, exec (.preemption kid victim base) s = .next u ∧ same u ∧
          ∀ n ∈ ns, (getCell u n).hold = ((getCell s n).hold && ((getCell s n).wasHeld || !(getCell s n).ok))) ∧
        (waits w → (firstPlace s p ns.length).isSome = true → (∃ n ∈ ns, quiescent s n = false) →
          exec (.preemption kid victim base) s = .next s) ∧
        (waits w → (firstPlace s p ns.length).isSome = true → (∀ n ∈ ns, quiescent s n = true) → placeImages s p ns.length base = true →
          (∀ r ∈ s.regions, r.pins = []) →
          ((∀ n ∈ ns, ∀ e ∈ (getCell s n).l1, ∀ x ∈ e.2.words, x.2.dirty = false) → ∀ v, kernelOf s t.kid = some v → t.kid ≠ w →
            ∃ u x i, exec (.preemption kid victim base) s = .next u ∧ kernelOf u t.kid = some x ∧
              x.saved = (t.ty * kTw v + t.tx, base, i) :: v.saved ∧ ∀ n ∈ ns, ∀ y, (getCell u n).task = some y → y.kid = w) ∧
          ((∃ n ∈ ns, ∃ e ∈ (getCell s n).l1, ∃ x ∈ e.2.words, x.2.dirty = true) →
            ∃ u, exec (.preemption kid victim base) s = .next u ∧ same u ∧ ∀ n ∈ ns, (getCell u n).hold = (getCell s n).hold ∧
              ∃ g, (getCell u n).image = some g ∧ g.done = imageBytes 0x0FFFFFFF ∧ g.whole = false))))

/-- R112, R227, R399: after br.end, once everything has landed and the commands are done, on a die that its heat does not freeze, every
member of the task places a release marker of device scope; once these are performed the task ends and its cells are free, and the last
task of a kernel ends it as DONE. That this takes two calls is log 53. -/
def Sys2Proof.tasksComplete : Prop :=
  ∀ (s : State) (n : Nat) (t : TaskRef) (k : Kernel),
    let ns := taskCells s t
    (getCell s n).task = some t → kernelOf s t.kid = some k → (∀ m ∈ ns, endReady (getCell s m) = true ∧ (getDie s (m / 128)).melted = false) →
    ((∀ m ∈ ns, (getCell s m).user.target = 0) → ∃ u, exec (.taskCompletion n) s = .next u ∧
      ∀ m ∈ ns, ∃ id, StoreEnt.mark id ∈ (getCell u m).storeb ∧ (⟨id, 3, false, none, id, false⟩ : Marker) ∈ (getCell u m).markers) ∧
    ((∀ m ∈ ns, endReleased s m = true) → ∃ u w, exec (.taskCompletion n) s = .next u ∧ kernelOf u t.kid = some w ∧
      w.ended = k.ended + 1 ∧ (w.ended = kTw k * kTh k → w.state = 2 ∧ w.status = 1) ∧
      (w.ended ≠ kTw k * kTh k → w.state = k.state) ∧ ∀ m ∈ ns, (getCell u m).task = none)

/-- R26, R261, R313, R315, R366, R367: retirement, where no translation context is held. It waits for the older messages to the host;
word 0 keeps TYPE, loses V and takes STATUS; RD moves past a packet that was never admitted; a schedule entry takes the status of its last
firing alone; where the signal is to be decremented that is a step of its own, which waits for the exception records of the kernel, and
with which what is left of the reserve returns; the kernel then leaves. -/
def Sys2Proof.packetsRetire : Prop :=
  ∀ (s : State) (kid : Nat) (k : Kernel), kernelOf s kid = some k → s.tctx = [] →
    let plain (a : Nat) : Prop := a % 8 = 0 ∧ a < 2 ^ 40 ∧ plainMemory s
    let word : Word := (k.packet.extractLsb' 0 64 &&& 0xFFFFFFFF0000FFFE) ||| BitVec.ofNat 64 (k.status % 2 ^ 16 * 2 ^ 16)
    let sig := kSignal k
    (k.state = 2 → hostBehind s k.rel = true → exec (.packetRetirement kid) s = .next s) ∧
    (k.state = 2 → hostBehind s k.rel = false → ∀ q, k.q = some q → plain (slotOf (queueOf s q) k.pidx) →
      ∃ t, exec (.packetRetirement kid) s = .next t ∧
      home64 t (slotOf (queueOf s q) k.pidx) = word ∧
      (qRd (queueOf s q) = k.pidx → qRd (queueOf t q) = k.pidx + 1) ∧
      (decrements k = true → ∃ m, kernelOf t kid = some { k with state := 3, rel := m }) ∧
      (decrements k = false → ∀ x ∈ t.kernels, x.kid = kid → x.pidx ≠ k.pidx)) ∧
    (k.state = 2 → hostBehind s k.rel = false → k.q = none → ∀ d i, k.entry = some (d, i) → smWf 0 0 (getDie s d).sched = true →
      ∃ t, exec (.packetRetirement kid) s = .next t ∧
        (smGet 0 (getDie s d).fired i = kid → (smGet 0 (getDie t d).sched i).extractLsb' 216 8 = BitVec.ofNat 8 k.status) ∧
        (smGet 0 (getDie s d).fired i ≠ kid → (getDie t d).sched = (getDie s d).sched)) ∧
    (k.state = 3 → recordsOut s k = false → exec (.packetRetirement kid) s = .next s) ∧
    (k.state = 3 → recordsOut s k = true → sig = 0 ∨ plain sig → ∃ t, exec (.packetRetirement kid) s = .next t ∧
      t.kernels = s.kernels.filter (fun x => x.kid != kid) ∧
      ((∀ r ∈ s.regions, sig + 8 ≤ r.pa ∨ r.pa + 256 ≤ sig) → sig ≠ 0 → home64 t sig = home64 s sig - 1) ∧
      ∀ p ∈ budgetOf s k.part, ∀ r, regionOf s p = some r → ∃ u, regionOf t p = some u ∧ u.erem = r.erem + (k.reserve : Int)) ∧
    (decrements k = true ↔ (k.entry.isSome = true ∨ k.packet.extractLsb' 1 3 = 1) ∧ k.status ∈ [1, 2, 3, 4, 9])

/-- R25, R26, R112, R220, R227, R229 to R233, R238, R261, R304 to R318, R332, R348, R349, R359, R360, R364, R366 to R368, R382, R399, R408:
regions, their contexts, queues and kernels. The model's own choices that clauses rest on are logs 40, 41, 53, 59, 61 and 93, as said at
each. -/
def Obligations.RegionsQueuesAndKernels : Prop :=
  admissionsCheck ∧ contextsAreWritten ∧ packetsAreTaken ∧ cancelsAct ∧ kernelsAreAdmitted ∧ tasksAreDispatched ∧ tasksArePreempted ∧
    tasksComplete ∧ packetsRetire

/-! ### Time, energy, heat and errors -/

/-- R314: TIME. It advances by 1 ns per ns; a slew has gained or lost its offset when it ends; LOCK goes 1.5 s after the last edge; at an
edge with TSET written, an offset above 1 ms is stepped over, and any other starts a slew; the TIME of every die is then within 2 ns of
IO-0's, or stands where it stood, and none goes back (log 90). That time moves by the durations of events alone, and that TSET stays armed
from edge to edge, is log 63. -/
def Sys2Proof.timeMoves : Prop :=
  ∀ (s : State) (dt : Nat),
    let lock : Word := if 1500000000 ≤ s.sinceEdge + dt then s.tstat &&& ~~~(1 : Word) else s.tstat
    (s.slew = 0 → exec (.slewEnd dt) s = .next { s with
      time := s.time + BitVec.ofNat 64 dt
      real := s.real + dt
      sinceEdge := s.sinceEdge + dt
      sincePause := s.sincePause + dt
      newKernels := if dt = 0 then s.newKernels else []
      tstat := lock }) ∧
    (∀ e : Int, e ≠ 0 → s.slew = e * 1024 → 1024 * e.natAbs ≤ dt → ∃ t, exec (.slewEnd dt) s = .next t ∧
      t.time = s.time + BitVec.ofInt 64 ((dt : Int) + e) ∧ t.slew = 0 ∧ t.tstat = lock &&& ~~~(2 : Word)) ∧
    (dt < s.slew.natAbs → ∃ t, exec (.slewEnd dt) s = .next t ∧ t.slew.natAbs = s.slew.natAbs - dt ∧
      (0 ≤ t.slew ↔ 0 ≤ s.slew) ∧ t.tstat = lock ∧ ∃ d : Nat, t.time = s.time + BitVec.ofNat 64 d ∧
      1024 * d ≤ 1025 * dt + 1024 ∧ 1023 * dt ≤ 1024 * d + 1024) ∧
    (∃ t, exec (.lockTimeout dt) s = .next t ∧
      t.tstat.getLsbD 0 = (s.tstat.getLsbD 0 && decide (s.sinceEdge + dt < 1500000000))) ∧
    (∃ u t, exec (.slewEnd dt) s = .next u ∧ exec (.ppsEdge dt) s = .next t ∧ t.sinceEdge = 0 ∧ t.tstat.getLsbD 0 = true ∧
      (u.tsetw = false → t = { u with sinceEdge := 0, tstat := u.tstat ||| 1 }) ∧
      (u.tsetw = true → let e : Int := (u.tset.toNat : Int) - (u.time.toNat : Int)
        (t.tstat.extractLsb' 32 32).toInt = max (-(2 ^ 31)) (min (2 ^ 31 - 1) e) ∧
        (1000000 < e → t.time = u.tset ∧ t.slew = 0 ∧ t.tstat.getLsbD 1 = false ∧ t.tstat.getLsbD 2 = true) ∧
        (e ≤ 1000000 → t.time = u.time ∧ t.slew = e * 1024 ∧ t.tstat.getLsbD 1 = (e != 0) ∧
          t.tstat.getLsbD 2 = u.tstat.getLsbD 2) ∧
        ∀ d < 8, dieTime u d ≤ dieTime t d ∧ t.time.toNat ≤ dieTime t d + 2 ∧
          (dieTime t d ≤ t.time.toNat + 2 ∨ dieTime t d = dieTime u d)))

/-- R316, R396, R397: when a millisecond of TIME is complete, EREM of a region with a budget of its own gains EREF, up to EBUD; when 100 µs
are, the ENJ growth of every cell is charged: to ECONS, to the reserve of the kernel, and what is left to EREM. -/
def Sys2Proof.energyMoves : Prop :=
  ∀ (s : State) (dt : Nat), ∃ u, exec (.slewEnd dt) s = .next u ∧
    (u.time.toNat / 1000000 ≤ s.refills → exec (.energyRefill dt) s = .next u) ∧
    (s.refills < u.time.toNat / 1000000 → ∃ t, exec (.energyRefill dt) s = .next t ∧ t.refills = s.refills + 1 ∧
      ∀ r p, (s.regions.filter fun q => q.part == p) = [r] → r.rcb.getLsbD 129 = false → ∃ q, regionOf t p = some q ∧
        q.erem = min ((r.rcb.extractLsb' 416 64).toNat : Int) (r.erem + ((r.rcb.extractLsb' 480 32).toNat : Int))) ∧
    (u.time.toNat / 100000 ≤ s.charges → exec (.energyCharge dt) s = .next u) ∧
    (s.charges < u.time.toNat / 100000 → ∃ t, exec (.energyCharge dt) s = .next t ∧ t.charges = s.charges + 1 ∧
      (∀ n ∈ listed s, (getCell t n).enjCharged = (getCell s n).enj) ∧
      ∀ n x w k r, s.cells = [(n, x)] → x.task = some w → kernelOf s w.kid = some k → regionOf s (seqOwner x) = some r →
        r.parent = none → let e := (x.enj - x.enjCharged).toNat
        ∃ q v, regionOf t (seqOwner x) = some q ∧ kernelOf t w.kid = some v ∧ q.econs = r.econs + (x.enj - x.enjCharged) ∧
          v.reserve = k.reserve - e ∧ q.erem = r.erem - ((e - k.reserve : Nat) : Int)) ∧
    (∀ d, exec (.energyCalibration d) s = .next { s with free := s.free + 1 })

/-- R398, R399: a telemetry sample is a record of the ring, or counts as lost; the next one comes PERIOD µs later, or 100 where PERIOD is less.
The temperatures of the quadrants stop and resume
dispatch, and freeze and release a die. That temperatures are signed is log 71, and that the first sample has no limit log 100. -/
def Sys2Proof.dieIsMeasured : Prop :=
  ∀ (s : State) (d : Nat) (pwr : BitVec 32) (hbmt : BitVec 16) (qt : BitVec 64),
    let x := getDie s d
    let n := (x.telsize.extractLsb' 0 5).toNat
    let head := (x.telhead.extractLsb' 0 32).toNat
    let a := (x.telbase.extractLsb' 4 44).toNat * 32 % 2 ^ 48 + 32 * (head % 2 ^ n)
    let q (i : Nat) : Int := (qt.extractLsb' (16 * i) 16).toInt
    let next : Nat := s.real + 1000 * max 100 (x.telctl.extractLsb' 0 16).toNat
    (s.real < x.telnext → exec (.telemetrySample d pwr hbmt qt) s = .next s) ∧
    (x.telnext ≤ s.real → 4 ≤ n → n ≤ 20 → d < 8 → a + 32 ≤ 2 ^ 40 → plainMemory s →
      ∃ t, exec (.telemetrySample d pwr hbmt qt) s = .next t ∧ t.cells = s.cells ∧ (getDie t d).telnext = next ∧
        (getDie t d).telhead.extractLsb' 0 32 = x.telhead.extractLsb' 0 32 + 1 ∧
        (getDie t d).telhead.extractLsb' 32 32 = x.telhead.extractLsb' 32 32 ∧
        let w : BitVec 256 := BitVec.ofNat 256 (homeReadN t a 32)
        w.extractLsb' 0 64 = BitVec.ofNat 64 (energySum s d) ∧ (w.extractLsb' 64 16).toNat = d ∧ w.extractLsb' 80 64 = qt ∧
          w.extractLsb' 144 16 = hbmt ∧ w.extractLsb' 160 32 = pwr ∧ w.extractLsb' 192 64 = BitVec.ofNat 64 (dieTime s d)) ∧
    (x.telnext ≤ s.real → n < 4 ∨ 20 < n → ∃ (t : State) (h : Word), exec (.telemetrySample d pwr hbmt qt) s = .next t ∧
      t.cells = s.cells ∧ t.mem = s.mem ∧ (∀ e, e ≠ d → getDie t e = getDie s e) ∧
      getDie t d = { x with telhead := h, telnext := next } ∧
      h.extractLsb' 0 32 = x.telhead.extractLsb' 0 32 ∧
      (h.extractLsb' 32 32).toNat = min (2 ^ 32 - 1) ((x.telhead.extractLsb' 32 32).toNat + 1)) ∧
    ((∀ i < 4, q i < 16 * 100) → exec (.thermalThreshold d qt) s = .next (setDie s d { x with hot := false, melted := false })) ∧
    (∀ i < 4, 16 * 100 ≤ q i → ∃ h m : Bool, exec (.thermalThreshold d qt) s = .next (setDie s d { x with hot := h, melted := m }) ∧
      (h = true ↔ x.hot = true ∨ ∃ j < 4, 16 * 105 ≤ q j) ∧ (m = true ↔ x.melted = true ∨ ∃ j < 4, 16 * 115 ≤ q j))

/-- R376 to R379, R381, R384: the scrub corrects a word and counts it, or marks it, counts it, reports it to the die's firmware queue
and puts a unit of a cell in the failure map; it changes no value. What an access comes upon first is counted and marked, and not
reported. How the scrub names a word is the model's (log 42). -/
def Sys2Proof.scrubsFind : Prop :=
  ∀ (s : State) (d addr : Nat),
    let a := addr % 2 ^ 44
    let found := addr.testBit 44
    let x := getDie s d
    let n := (x.ecccnt.extractLsb' 32 32).toNat
    let lo := (x.ecccnt.extractLsb' 0 32).toNat
    let counts (t : State) (ue ce : Nat) : Prop :=
      ((getDie t d).ecccnt.extractLsb' 32 32).toNat = ue ∧ ((getDie t d).ecccnt.extractLsb' 0 32).toNat = ce
    let reports (t : State) : Prop := (found = true → (getDie t d).fwfqhead = x.fwfqhead) ∧
      (found = false → ringOn x.fwfqsize = true → (getDie t d).fwfqhead.extractLsb' 0 32 = x.fwfqhead.extractLsb' 0 32 + 1)
    let u := scrubCell d a
    let slot := ringSlot x.fwfqbase 64 (bits x.fwfqsize.toNat 0 5) (bits x.fwfqhead.toNat 0 32)
    let unit := (u.1, u.2.1, u.2.2.1)
    (a < 2 ^ 40 → homeDie a = d →
      (∃ t, exec (.scrub d addr false) s = .next t ∧ counts t n (min (2 ^ 32 - 1) (lo + 1)) ∧ t.mem = s.mem ∧ t.cells = s.cells ∧
        t.poison = s.poison) ∧
      (∃ t, exec (.scrub d addr true) s = .next t ∧ counts t (min (2 ^ 32 - 1) (n + 1)) lo ∧ t.cells = s.cells ∧ reports t ∧
        (found = true ∨ (s.codecs = [] ∧ overlap (a / 8 * 8) 8 slot 64 = false) → a / 8 ∈ t.poison) ∧ (found = true → t.mem = s.mem))) ∧
    (2 ^ 40 ≤ a →
      (∃ t, exec (.scrub d addr false) s = .next t ∧ counts t n (min (2 ^ 32 - 1) (lo + 1)) ∧ t.cells = s.cells ∧
        (u.2.1 ≠ 12 → 15 ≤ (s.corrected.filter fun e => decide ((s.time.toNat : Int) < e.2.2.2 + 86400000000000) &&
          (e.1 == u.1 && e.2.1 == u.2.1 && e.2.2.1 == u.2.2.1)).length → unit ∈ t.failmap)) ∧
      (∃ t, exec (.scrub d addr true) s = .next t ∧ counts t (min (2 ^ 32 - 1) (n + 1)) lo ∧ reports t ∧
        let y := getCell s u.1
        let z := getCell t u.1
        (u.2.1 ≠ 12 → unit ∈ t.failmap) ∧ (u.2.1 = 12 → t.failmap = s.failmap ∧ t.cells = s.cells) ∧
        (u.2.1 ≠ 9 → u.2.1 ≠ 11 → u.2.1 ≠ 12 → u.2 ∈ z.poison ∧ z.user = y.user ∧ z.fw = y.fw ∧ z.l1 = y.l1) ∧
        (u.2.1 = 9 → z.user = y.user ∧ ∀ line l, y.l1[u.2.2.1]? = some (line, l) → (9, line, u.2.2.2) ∈ z.poison) ∧
        (u.2.1 = 11 → z.poison = y.poison ∧ z.user.ilines = y.user.ilines.eraseIdx u.2.2.1 ∧
          z.fw.ilines = if u.2.2.1 < y.user.ilines.length then y.fw.ilines
            else y.fw.ilines.eraseIdx (u.2.2.1 - y.user.ilines.length))))

/-- R315: a schedule-table firing completes, and its kernel is the last one that the entry fired. A valid entry whose TICK has come by the
TIME of its die, the lowest that is due, launches its kernel and moves on; the conditions are on the state alone, dt nanoseconds later. With
none due only time passes. -/
def Sys2Proof.scheduleFires : Prop :=
  ∀ (s : State) (d i dt : Nat),
    let u := advanceTime s dt
    let entry (j : Nat) : BitVec 256 := smGet 0 (getDie s d).sched j
    let due (j : Nat) : Prop := (entry j).getLsbD 192 = true ∧ ((entry j).extractLsb' 0 64).toNat ≤ dieTime u d
    let e := entry i
    let tick := (e.extractLsb' 0 64).toNat
    let period := (e.extractLsb' 224 32).toNat
    (due i → (∀ j < i, ¬ due j) → smWf 0 0 (getDie s d).sched = true →
      ∃ t, exec (.scheduleTableFiring d i dt) s = .next t ∧
        let f := smGet 0 (getDie t d).sched i
        (period = 0 → f.getLsbD 192 = false ∧ f.extractLsb' 0 192 = e.extractLsb' 0 192 ∧ f.extractLsb' 193 63 = e.extractLsb' 193 63) ∧
        (period ≠ 0 → f.extractLsb' 64 136 = e.extractLsb' 64 136 ∧ f.extractLsb' 216 40 = e.extractLsb' 216 40 ∧
          ∃ m : Nat, f.extractLsb' 0 64 = BitVec.ofNat 64 (tick + (m + 1) * period) ∧
            (e.getLsbD 193 = false → m = 0 ∧ f.extractLsb' 200 16 = e.extractLsb' 200 16) ∧
            (e.getLsbD 193 = true → dieTime u d < tick + (m + 1) * period ∧ (m = 0 ∨ tick + m * period ≤ dieTime u d) ∧
              (f.extractLsb' 200 16).toNat = min 0xFFFF ((e.extractLsb' 200 16).toNat + m))) ∧
        (∀ r, s.regions.find? (fun r => r.pa == (e.extractLsb' 64 64).toNat) = some r → ∃ k, t.kernels = s.kernels ++ [k] ∧
          k.q = none ∧ k.part = r.part ∧ k.kdesc = e.extractLsb' 128 64 ∧ k.entry = some (d, i) ∧
          smGet 0 (getDie t d).fired i = k.kid) ∧
        (s.regions.find? (fun r => r.pa == (e.extractLsb' 64 64).toNat) = none → t.kernels = s.kernels)) ∧
    (¬ due i ∨ (∃ j < i, due j) → exec (.scheduleTableFiring d i dt) s = .next u)

/-- R253, R382: the group of a failed cell, once it is frozen and quiescent, is scanned out into the SAVE area; where no D word is left to
write back, or once that is performed, its images are whole and the failure of every failed member is reported once. The image of a
failed member ends with VALID = 2, and its poisoned words are written as zero. The places of the images, and one record for each failed
member, are log 69; so is a group that has no SAVE area. -/
def Sys2Proof.groupsFail : Prop :=
  (∀ (s : State) (n base : Nat),
    let ms := members s n
    let p := seqOwner (getCell s n)
    let clean := ∀ m ∈ ms, ∀ e ∈ (getCell s m).l1, ∀ w ∈ e.2.words, w.2.dirty = false
    (getCell s n).failed = 1 → (∀ m ∈ ms, (getCell s m).hold = true ∧ quiescent s m = true ∧ (getCell s m).image = none) →
    saveHeld s ms = false → (saveArea s p).isSome = true → (∀ r ∈ s.regions, r.pins = []) → placeImages s p ms.length base = true →
    (clean → ∃ t, exec (.gangfail n base) s = .next t ∧
      ∀ m ∈ ms, (getCell t m).failed = if (getCell s m).failed = 1 then 2 else (getCell s m).failed) ∧
    (¬ clean → ms.Nodup → ∃ t, exec (.gangfail n base) s = .next t ∧ ∀ e ∈ (List.range ms.length).zip ms,
      (getCell t e.2).failed = (getCell s e.2).failed ∧ ∃ g, (getCell t e.2).image = some g ∧ g.base = base + e.1 * saveStride ∧
        g.done = imageBytes 0x0FFFFFFF ∧ g.whole = false)) ∧
  (∀ (s : State) (n base : Nat), let ms := members s n
    (getCell s n).failed = 1 → (∀ m ∈ ms, (getCell s m).hold = true ∧ quiescent s m = true) → saveHeld s ms = false →
    saveArea s (seqOwner (getCell s n)) = none → ∃ t, exec (.gangfail n base) s = .next t ∧
      ∀ m ∈ ms, (getCell t m).failed = if (getCell s m).failed = 1 then 2 else (getCell s m).failed) ∧
  (∀ (s : State) (m : Nat) (g : SaveImg), (getCell s m).image = some g → g.base % 128 = 0 → g.base + 256 ≤ 2 ^ 40 → plainMemory s →
    home64 (saveWhole s (failValid s) [m]) (g.base + 248) = if (getCell s m).failed = 1 then 2 else 1) ∧
  ∀ (x : Cell) (seg v : Nat), ∀ p ∈ x.poison, (markPlace p).1 = seg → bits (zeroMarks x seg v) (8 * (markPlace p).2) 64 = 0

/-- R314 to R316, R376 to R379, R381, R382, R384, R396 to R399: time, energy, heat and errors. The model's own choices that clauses rest on
are logs 42, 63, 69, 71, 90 and 100, as said at each. -/
def Obligations.TimeEnergyAndErrors : Prop :=
  timeMoves ∧ energyMoves ∧ dieIsMeasured ∧ scrubsFind ∧ scheduleFires ∧ groupsFail

/-! ### Life cycle, firmware activation and collectives -/

/-- A wipe has started (R395): WIPING reads 1; memory, L2, scratchpads, registers and marks are zero, the commands have ended as
ABORTED, every function is in ERROR, and no region stays admitted. OCC is zero, and no half of a register that was read before is left
(R401). The failure map, and what is outside the device, stand. -/
def Sys2Proof.wiped (s t : State) : Prop :=
  t.lcstat.getLsbD 8 = true ∧ (∀ a, readByte t.mem a = 0) ∧ t.poison = [] ∧ t.chan = [] ∧ t.regions = [] ∧ t.kernels = [] ∧
    (∀ f < 256, (getHost t f).tdisp = 3 ∧ (getHost t f).latch = 0) ∧
    (∀ c ∈ t.coll, c.status = 0x24 ∧ c.waits = false ∧ c.step = c.blk.extractLsb' 320 64) ∧ t.coll.length = s.coll.length ∧
    (∀ n, let x := getCell t n
      x.user = Ctx.zero ∧ x.spad = [] ∧ x.isp0 = [] ∧ x.isp1 = [] ∧ x.dict = [] ∧ x.acc = [] ∧ x.l1 = [] ∧ x.poison = [] ∧
        x.task = none) ∧
    (∀ d, (getDie t d).l2 = [] ∧ (getDie t d).ecccnt = 0 ∧ ∀ sl k, (cosOf (getDie t d) sl k).cur = 0) ∧
    t.failmap = s.failmap ∧ t.hostMem = s.hostMem

/-- R353, R383, R384, R394, R395: the changes of the life cycle, a reset, and the end of a wipe, after which every word is zero again. A
refused change wipes nothing, and a retired cell keeps HOLD until a reset; a reset takes
the repair classes from the failure map. That TIME is 0 after it, and what else the reset cell holds, is the choice of the model
(log 3, log 8). -/
def Sys2Proof.lifeCycleMoves : Prop :=
  (∀ (s : State) (to_ : BitVec 3),
    let was := s.lcstat.extractLsb' 0 3
    let may := (was, to_) ∈ [((0, 1) : BitVec 3 × BitVec 3), (1, 2), (2, 3), (3, 1)] ∨ (was ≠ 4 ∧ to_ = 4)
    (may → ∃ t, exec (.lifecycleChange to_) s = .next t ∧ wiped s t ∧ t.lcstat.extractLsb' 0 3 = to_ ∧
      ∀ n, (getCell t n).hold = ((getCell s n).hold && !(getCell s n).ok)) ∧
    (¬ may → exec (.lifecycleChange to_) s = .next s)) ∧
  (∀ s : State, ∃ t, exec .deviceReset s = .next t ∧ wiped s t ∧ t.lcstat.extractLsb' 0 3 = s.lcstat.extractLsb' 0 3 ∧ t.time = 0 ∧
    (∀ n, (∀ e ∈ s.failmap, e.1 ≠ n) → getCell t n = Cell.reset) ∧
    ∀ n k i, s.failmap = [(n, k, i)] → n < 1024 → i < 0x8000 → let x := getCell t n
      (k = 2 → 128 ≤ i % 160 → x.ok = true ∧ x.lver = 0x0100 + BitVec.ofNat 16 ((160 - i % 160 + 7) / 8)) ∧
      (k = 3 → i = 15 → x.ok = true ∧ x.lver = 0x0180) ∧ (k = 4 → i = 7 → x.ok = true ∧ x.lver = 0x0140) ∧
      (¬ (k = 2 ∧ 128 ≤ i % 160) → ¬ (k = 3 ∧ i = 15) → ¬ (k = 4 ∧ i = 7) → x.ok = false ∧ x.lver = 0x0100)) ∧
  (∀ s : State, (s.lcstat.getLsbD 8 = true → ∃ t, exec .wipeEnd s = .next t ∧ t.lcstat = s.lcstat &&& ~~~(0x100 : Word) ∧
      (∀ a, readByte t.mem a = 0) ∧ t.poison = [] ∧ t.hosts = s.hosts ∧
      (∀ n, let x := getCell t n
        x.user = Ctx.zero ∧ x.spad = [] ∧ x.acc = [] ∧ x.l1 = [] ∧ x.poison = [] ∧
          x.hold = ((getCell s n).hold && !(getCell s n).ok)) ∧
      ∀ d, (getDie t d).l2 = [] ∧ ∀ sl k, (cosOf (getDie t d) sl k).cur = 0) ∧
    (s.lcstat.getLsbD 8 = false → exec .wipeEnd s = .next s))

/-- R392, R393: staging, activation, acknowledgement and time-out. The verdict of a signature check is free (log 6). BADSIG for an ACTIVATE
of another address, and the same events as what goes on with an activation that waited for tasks, are log 70. -/
def Sys2Proof.firmwareIsReplaced : Prop :=
  ∀ (s : State) (v : Word) (a : Word), a = v &&& 0x0000FFFFFFFFF000 → s.hosts.Pairwise (fun x y => x.1 < y.1) →
    let good := Config.signatureGood s.free = true
    let next : State := { s with free := s.free + 1 }
    let resumed (t : State) : Prop := t.paused = false ∧ t.fwimage = none ∧ ∀ f ∈ pausedFns s, (getHost t f).fwevt.extractLsb' 0 2 = 2
    let timedOut (t : State) : Prop := resumed t ∧ t.fwactive = s.fwactive ∧ t.fwstat = 0x200
    let replaced (t : State) : Prop := resumed t ∧ s.fwimage = some t.fwactive ∧ t.fwstat = 0
    let idle := ∀ c ∈ s.cells, c.2.task = none
    let late := 10000000000 ≤ s.sincePause
    let missing := ∃ f ∈ pausedFns s, (getHost s f).fwack = false
    (s.paused = true → exec (.fwcmdStage v) s = .next { s with fwstat := 0x301 } ∧
      exec (.fwcmdActivate v) s = .next { s with fwstat := 0x301 }) ∧
    (s.paused = false → good → exec (.fwcmdStage v) s = .next { next with fwimage := some a, fwstat := 0 }) ∧
    (s.paused = false → ¬ good → exec (.fwcmdStage v) s = .next { next with fwstat := 0x100 }) ∧
    (s.paused = false → s.fwimage ≠ some a ∨ ¬ good → exec (.fwcmdActivate v) s = .next { next with fwstat := 0x100 }) ∧
    (s.paused = false → s.fwimage = some a → good → ∃ t, exec (.fwcmdActivate v) s = .next t ∧
      (activeFns s ≠ [] → t.paused = true ∧ t.fwstat = (s.fwstat &&& 0xFF00) ||| 1 ∧ t.fwactive = s.fwactive ∧ ∀ f ∈ activeFns s,
        (getHost t f).fwack = false ∧ (getHost t f).fwevt.extractLsb' 0 2 = 1 ∧
        (getHost t f).fwevt.extractLsb' 32 32 = (getHost s f).fwevt.extractLsb' 32 32 + 1) ∧
      (activeFns s = [] → pausedFns s = [] → ¬ idle → t.paused = true ∧ t.fwactive = s.fwactive) ∧
      (activeFns s = [] → pausedFns s = [] → idle → t.paused = false ∧ t.fwactive = a ∧ t.fwstat = 0 ∧
        t.fwcode = homeReadN next a.toNat Config.imageBytes)) ∧
    (∀ f, s.paused = true → f ∈ pausedFns s → ∃ t, exec (.fwack f) s = .next t ∧
      (missing → late → timedOut t) ∧
      (¬ missing ∨ ¬ late →
        (s.fwimage.isSome = true → (∀ g ∈ pausedFns s, g ≠ f → (getHost s g).fwack = true) → idle → replaced t) ∧
        ((∃ g ∈ pausedFns s, g ≠ f ∧ (getHost s g).fwack = false) ∨ ¬ idle →
          t.paused = true ∧ (getHost t f).fwack = true ∧ t.fwactive = s.fwactive))) ∧
    (s.paused = true → missing → late → ∃ t, exec .fwActivationTimeout s = .next t ∧ timedOut t) ∧
    (s.paused = true → ¬ missing → idle → s.fwimage.isSome = true → ∃ t, exec .fwActivationTimeout s = .next t ∧ replaced t) ∧
    (s.paused = false ∨ (missing ∧ ¬ late) ∨ (¬ missing ∧ ¬ idle) → exec .fwActivationTimeout s = .next s)

/-- R389: a collective command is taken up, or is BADARG; STEP stands for its record. That a SCOPE above 4 is BADARG is log 43. -/
def Sys2Proof.commandsAreTaken : Prop :=
  ∀ (s : State) (blk : BitVec 512),
    let b := blk.toNat
    let bad := blk.extractLsb' 320 64 = 0 ∨ cG b < 3 ∨ 16 < cG b ∨ cG b ≤ cD b ∨ cLen b % (4096 * (cG b - 1)) ≠ 0 ∨
      blk.extractLsb' 40 8 ≠ 0 ∨ blk.extractLsb' 8 27 ≠ 0 ∨ 4 < (blk.extractLsb' 37 3).toNat
    let step : Word := blk.extractLsb' 320 64
    let op := blk.extractLsb' 0 8
    let add (c : Collective) : Host.Outcome State Fault Refusal := .next { s with coll := s.coll ++ [c] }
    (bad ∨ op ≠ 1 → exec (.cksave blk) s = add ⟨blk, false, 0x23, 0, step, 0, 0, 0, [], true⟩) ∧
    (bad ∨ op ≠ 2 → exec (.ckload blk) s = add ⟨blk, false, 0x23, 0, step, 0, 0, 0, [], true⟩) ∧
    (¬ bad → op = 1 → exec (.cksave blk) s = add ⟨blk, true, 0, 0, step, 0, 0, 0, [], false⟩) ∧
    (¬ bad → op = 2 → exec (.ckload blk) s = add ⟨blk, true, 0, 0, step, 0, 0, 0, [], false⟩)

/-- R390: the steps of CKSAVE, of a command first in the queue. It reads its shard by 64-byte blocks, raw; a chunk j that is whole goes to
member (D + j + 1) mod G, its header after it; then the parity is written here by blocks, and its header last. The bit places of the
fields of a header are the model's (log 43). -/
def Sys2Proof.savesSpread : Prop :=
  ∀ (s : State) (c : Collective) (rest : List Collective),
    let b := c.blk.toNat
    let m := cChunk b / 64
    let n := cLen b / 64
    let slot := cSlot b (cD b)
    let plain := plainMemory s ∧ slot + 64 + cChunk b ≤ 2 ^ 40
    let header (h kind v : Nat) : Prop := bits h 0 16 = 0x4B43 ∧ bits h 16 8 = kind ∧ bits h 24 8 = cD b ∧
      bits h 64 64 = cJob b ∧ bits h 128 64 = cStep b ∧ bits h 32 32 = crc32 (bytesOf (cChunk b) v)
    let buf := c.buf + homeReadN s (cSrc b + 64 * c.pos) 64 * 2 ^ (512 * (c.pos % m))
    s.coll = c :: rest → c.done = false → c.waits = false → c.blk.extractLsb' 0 8 = 1 → cBad 1 b = false →
    (c.pos < n → (c.pos + 1) % m ≠ 0 → exec .collectiveCompletion s =
      .next { s with coll := { c with pos := c.pos + 1, buf := buf } :: rest }) ∧
    (c.pos < n → (c.pos + 1) % m = 0 → ∃ p h, exec .collectiveCompletion s = .next { s with
        coll := { c with pos := c.pos + 1, buf := 0, par := c.par ^^^ buf } :: rest
        peerOut := s.peerOut ++ [p, h] } ∧
      p.member = (cD b + c.pos / m + 1) % cG b ∧ p.addr = slot + 64 ∧ p.len = cChunk b ∧ p.val = buf ∧
      h.member = p.member ∧ h.addr = slot ∧ h.len = 64 ∧ header h.val (c.pos / m) buf) ∧
    (n ≤ c.pos → c.pos < n + m → ∃ t, exec .collectiveCompletion s = .next t ∧ t.coll = { c with pos := c.pos + 1 } :: rest ∧
      t.peerOut = s.peerOut ∧
      (plain → homeReadN t (slot + 64 + 64 * (c.pos - n)) 64 = bits c.par (512 * (c.pos - n)) 512)) ∧
    (n + m ≤ c.pos → ∃ t d, exec .collectiveCompletion s = .next t ∧ t.coll = d :: rest ∧ d.done = true ∧ d.status = c.status ∧
      d.blk = c.blk ∧ d.step = c.blk.extractLsb' 320 64 ∧ (plain → header (homeReadN t slot 64) 0xFF c.par))

/-- R391: CKLOAD. One missing piece is rebuilt by XOR; the table gives the outcome; the pieces are read one by one, and nothing is written
unless the status is DONE. What the peers hold is free (log 6). -/
def Sys2Proof.loadsRebuild : Prop :=
  (∀ (b junk lost : Nat) (x : Nat → Nat), 3 ≤ cG b → (∀ j, x j < 2 ^ (8 * cChunk b)) →
    let piece (j v : Nat) : Nat × Option Nat := if j = lost then (junk, none) else (v, some (cStep b))
    let chunks := (List.range (cG b - 1)).map x
    rebuild b ((List.range (cG b - 1)).map (fun j => piece j (x j)) ++ [piece (cG b - 1) (parity chunks)]) =
      packList (cChunk b) (cG b - 1) x) ∧
  (∀ (b : Nat) (all : List (List (Nat × Option Nat))),
    let lacks (d : Nat) : Prop := counting (all.getD d []) (cStep b) < cG b - 1
    let other : Prop := ∃ ps ∈ all, ∃ p ∈ ps, ∃ m, p.2 = some m ∧ m ≠ cStep b
    let r := loadOutcome b all
    ((∀ d < cG b, ¬ lacks d) → r = (0, 0, cStep b)) ∧
    ((∃ d < cG b, lacks d) → (other → r.1 = 0x21) ∧ (¬ other → r.1 = 0x22) ∧ (∀ d < cG b, r.2.1.testBit d = true ↔ lacks d) ∧
      (r.2.2 = 0 ∨ (∀ ps ∈ all, cG b - 1 ≤ counting ps r.2.2)) ∧
      ∀ ps ∈ all, ∀ p ∈ ps, ∀ m, p.2 = some m → m ≠ cStep b → (∀ qs ∈ all, cG b - 1 ≤ counting qs m) → m ≤ r.2.2)) ∧
  (∀ (s : State) (c : Collective) (rest : List Collective),
    let b := c.blk.toNat
    let g := cG b
    let k := c.got.length
    let holder := if k % g = g - 1 then k / g else (k / g + k % g + 1) % g
    let n := cLen b / 64
    let plain := plainMemory s ∧ cSrc b + 64 * (c.pos + 1) ≤ 2 ^ 40
    s.coll = c :: rest → c.done = false → c.waits = false → c.blk.extractLsb' 0 8 = 2 → cBad 2 b = false →
    (k < g * g → ∃ x d, exec .collectiveCompletion s = .next { s with free := s.free + 1, coll := d :: rest } ∧ d.blk = c.blk ∧
      d.got = c.got ++ [x] ∧ d.pos = c.pos ∧ d.waits = false ∧
      (holder = cD b → x = homeReadN s (cSlot b (k / g)) (64 + cChunk b)) ∧
      (k + 1 < g * g → d.status = c.status ∧ d.done = false) ∧
      (k + 1 = g * g → (d.status = 0 ∨ d.status = 0x21 ∨ d.status = 0x22) ∧
        (d.status = 0 → d.mask = 0 ∧ d.step = c.blk.extractLsb' 320 64 ∧ d.buf = rebuild b (piecesOf b d.got (cD b)) ∧
          (d.done = true ↔ n = 0)) ∧
        (d.status ≠ 0 → d.done = true))) ∧
    (g * g ≤ k → ∃ t, exec .collectiveCompletion s = .next t ∧ t.coll = { c with pos := c.pos + 1, done := c.pos + 1 == n } :: rest ∧
      (plain → homeReadN t (cSrc b + 64 * c.pos) 64 = bits c.buf (512 * c.pos) 512)))

/-- R8, R264, R389, R390: a command that has done its work writes its record and leaves, with REL once what it sent is performed at the
peers, which is free (log 6) and is asked of an ABORTED save as of any other; under ACQ one waits for its start word; a peer reads and
writes 64 bytes over one of the 12 ports. -/
def Sys2Proof.collectivesEnd : Prop :=
  ∀ (s : State) (c : Collective) (rest : List Collective),
    let a := cDone c.blk.toNat
    let waits := c.blk.getLsbD 35 = true ∧ cStart c.blk.toNat ≠ 0 ∧ homeReadN s (cStart c.blk.toNat) 8 = 0
    let plain := plainMemory s
    (s.coll = c :: rest → c.done = true → collHeld s c = false → a % 16 = 0 → a < 2 ^ 40 → c.status < 2 ^ 16 → plain →
      ∃ t, exec .collectiveCompletion s = .next t ∧ t.coll = rest ∧
      (home64 t a).getLsbD 63 = true ∧ ((home64 t a).extractLsb' 16 16).toNat = c.mask % 2 ^ 16 ∧
      ((home64 t a).extractLsb' 0 16).toNat = c.status ∧ home64 t (a + 8) = c.step) ∧
    (s.coll = [c] → c.done = true → collHeld s c = true → exec .collectiveCompletion s = .next { s with free := s.free + 1 }) ∧
    (c.blk.getLsbD 36 = false → collHeld s c = false) ∧
    (c.blk.getLsbD 36 = true → c.blk.extractLsb' 0 8 = 1 → c.status = 0x24 → collHeld s c = collHeld s { c with status := 0 }) ∧
    (s.coll = c :: rest → c.done = false → c.waits = true → ¬ waits →
      exec .collectiveCompletion s = .next { s with coll := { c with waits := false } :: rest }) ∧
    (s.coll = [c] → c.done = false → c.waits = true → waits → exec .collectiveCompletion s = .next s) ∧
    (∀ port pa v, port < 12 → pa + 64 ≤ 2 ^ 40 →
      exec (.peerPortAccess port false pa v) s = .next { s with peerGot := BitVec.ofNat 512 (homeReadN s pa 64) } ∧
      (plain → ∃ t, exec (.peerPortAccess port true pa v) s = .next t ∧ homeReadN t pa 64 = v.toNat ∧ t.cells = s.cells)) ∧
    (∀ port wr pa v, 12 ≤ port → exec (.peerPortAccess port wr pa v) s = .next s)

/-- R8, R264, R353, R383, R384, R389 to R395: the life cycle, wipes, firmware activation and collective commands. The model's own choices that
clauses rest on are logs 3, 6, 8, 43 and 70, as said at each. -/
def Obligations.LifeCycleAndCollectives : Prop :=
  lifeCycleMoves ∧ firmwareIsReplaced ∧ commandsAreTaken ∧ savesSpread ∧ loadsRebuild ∧ collectivesEnd

/-! ### Registers, codec regions and sys commands -/

/-- R4, R5, R315, R326: a register write sets the fields that can be written and leaves the others; a register that cannot be written stays;
an entry of the schedule table is written whole (log 88), and its STATUS is then that of no earlier firing (R315); HVRESP answers. The pairs
give offsets in the register space of a die, those of a debug block, and masks (log 44). -/
def Sys2Proof.registersAreWritten : Prop :=
  (∀ (s : State) (d off : Nat) (mask v : Word), d < 8 → (off, mask) ∈ ([(0x40, 0xFFFFFFFFFFF0), (0x48, 0x1F), (0x50, ~~~0), (0x60, ~~~0),
      (0x3000, ~~~0), (0x3100, 0xC0000000FFFFFFFF), (0x3200, 1), (0x3208, 0xFFFFFFE00000), (0x3210, 0xFFFFFFE00000), (0x4800, 0xFFFF),
      (0x4808, 0xFFFFFFFFFFF0), (0x4810, 0x1F), (0x4818, ~~~0)] : List (Nat × Word)) → ∃ t,
    exec (.registerWrite 0 d off v) s = .next t ∧ t.cells = s.cells ∧ t.mem = s.mem ∧ (∀ e, e ≠ d → getDie t e = getDie s e) ∧
      regRead t 0 d off = (regRead s 0 d off &&& ~~~mask) ||| (v &&& mask)) ∧
  (∀ (s : State) (d c off : Nat) (mask v : Word), d < 8 → c < 128 → (off, mask) ∈ ([(0x30, 0x80000000000007FF),
      (0x48, 0xFF000000FFFFFFFF), (0x58, 0xFFFFFFFFFFF0), (0x60, 0x1F), (0x68, ~~~0), (0x70, 0xFFE)] : List (Nat × Word)) →
    let o := 0x100000 + 0x200 * c + off
    ∃ t, exec (.registerWrite 0 d o v) s = .next t ∧ (∀ n, n ≠ 128 * d + c → getCell t n = getCell s n) ∧
      (getCell t (128 * d + c)).user = (getCell s (128 * d + c)).user ∧
      regRead t 0 d o = (regRead s 0 d o &&& ~~~mask) ||| (v &&& mask)) ∧
  (∀ (s : State) (d off : Nat) (v : Word), d < 8 → off % 8 = 0 → (0x2000 ≤ off ∧ off ≤ 0x2408) ∨ (0x4000 ≤ off ∧ off < 0x4400) →
    ∃ t, exec (.registerWrite 0 d off v) s = .next t ∧ t.cells = s.cells ∧ ∀ e, getDie t e = getDie s e) ∧
  (∀ (s : State) (v : Word), exec (.registerWrite 1 0 0x130 v) s = .next { s with tset := v, tsetw := true } ∧
    exec (.registerWrite 1 0 0x118 v) s = exec (match v.extractLsb' 16 2 with
      | 1 => .hvrespReflect (v.extractLsb' 0 10).toNat
      | 2 => .hvrespKill (v.extractLsb' 0 10).toNat
      | _ => .hvrespRetry (v.extractLsb' 0 10).toNat) s ∧
    exec (.registerWrite 1 0 0x138 v) s = .next { s with tstat := s.tstat &&& ~~~(v &&& 4) } ∧
    exec (.registerWrite 1 0 0x140 v) s = .next s ∧ exec (.registerWrite 1 0 0x210 v) s = .next s) ∧
  (∀ (s : State) (d i : Nat) (v : Word), d < 8 → i < 512 → smWf 0 0 (getDie s d).sched = true →
    let x := getDie s d
    let part (j : Nat) : Nat := (smGet 0 x.schedw (3 * i + j)).toNat
    (∀ k < 3, ∃ y, exec (.registerWrite 0 d (0x80000 + 32 * i + 8 * k) v) s = .next (setDie s d y) ∧ y.sched = x.sched) ∧
    ∃ t, exec (.registerWrite 0 d (0x80000 + 32 * i + 24) v) s = .next t ∧ smGet 0 (getDie t d).sched i = BitVec.ofNat 256
        (part 0 + part 1 * 2 ^ 64 + part 2 * 2 ^ 128 + (v &&& 0xFFFFFFFFFFFFFF03).toNat * 2 ^ 192) ∧
      (smWf 0 0 x.fired = true → smGet 0 (getDie t d).fired i = 0) ∧
      ∀ j ≠ i, smGet 0 (getDie t d).sched j = smGet 0 x.sched j)

/-- R401: a read of the low half gives bits 31 to 0 and copies the others to the latch of the function, which a read of the high half
gives; what another function reads in between changes nothing of that. -/
def Sys2Proof.halvesAreRead : Prop :=
  ∀ (s : State) (f sp d off : Nat),
    let v := regRead s sp d (off / 8 * 8)
    ∃ t, exec (.halfReadLow f sp d off) s = .next t ∧
      t = modHost s f (fun h => { h with
        got := h.got ++ [(v.extractLsb' 0 32).zeroExtend 1024]
        latch := v.extractLsb' 32 32 }) ∧
      exec (.halfReadHigh f) t = .next (modHost s f fun h => { h with
        got := h.got ++ [(v.extractLsb' 0 32).zeroExtend 1024] ++ [(v.extractLsb' 32 32).zeroExtend 1024]
        latch := v.extractLsb' 32 32 }) ∧
      (∀ g sp' d' off', g ≠ f → ∃ u, exec (.halfReadLow g sp' d' off') t = .next u ∧ getHost u f = getHost t f) ∧
      exec (.halfReadHigh f) s = .next (modHost s f fun h => { h with got := h.got ++ [h.latch.zeroExtend 1024] })

/-- R266, R267: CRCTL. BUD is taken while EN and DRN are 0; setting EN is refused with ERR, or starts a drain, as clearing it does; at its
end EN takes its new value, and no line of the view is left in L2. That a write while DRN is 1 is ignored is log 66. -/
def Sys2Proof.codecsDrain : Prop :=
  ∀ (s : State) (r : Nat) (v : Word), r < 64 → smWf Codec.reset 0 s.codecs = true →
    let c := codecAt s r
    let ctl := c.ctl
    let sets (c' : Codec) (e : Instr) : Prop := ∃ t, exec e s = .next t ∧ t.cells = s.cells ∧ codecAt t r = c'
    let budgeted : Codec := { c with ctl := (ctl &&& ~~~7) ||| (v &&& 7) }
    (ctl.getLsbD 6 = true ∨ (ctl.getLsbD 4 = true ∧ v.getLsbD 4 = true) → exec (.crctlWrite r v) s = .next s) ∧
    (ctl.getLsbD 6 = false → ctl.getLsbD 4 = true → v.getLsbD 4 = false →
      sets { c with next := false, ctl := (ctl ||| 0x40) &&& ~~~0x80 } (.crctlWrite r v)) ∧
    (ctl.getLsbD 6 = false → ctl.getLsbD 4 = false → v.getLsbD 4 = false → sets budgeted (.crctlWrite r v)) ∧
    (ctl.getLsbD 6 = false → ctl.getLsbD 4 = false → v.getLsbD 4 = true → enableBad s r budgeted = true →
      sets { budgeted with ctl := budgeted.ctl ||| 0x80 } (.crctlWrite r v)) ∧
    (ctl.getLsbD 6 = false → ctl.getLsbD 4 = false → v.getLsbD 4 = true → enableBad s r budgeted = false →
      sets { budgeted with next := true, ctl := (budgeted.ctl ||| 0x40) &&& ~~~0x80 } (.crctlWrite r v)) ∧
    (ctl.getLsbD 6 = true → ∃ t, exec (.codecDrainEnd r) s = .next t ∧ t.cells = s.cells ∧ (codecAt t r).ctl.getLsbD 6 = false ∧
      (codecAt t r).ctl.getLsbD 4 = c.next ∧ (codecAt t r).view = c.view ∧
      ∀ d < 8, ∀ y ∈ (getDie t d).l2, overlap (y.line * 128) 128 (codecBase c) (codecPages c * 65536) = false) ∧
    (codecPages c = 0 ∨ ctl.extractLsb' 0 3 = 7 → enableBad s r c = true) ∧
    (codecPages c ≠ 0 → ctl.extractLsb' 0 3 ≠ 7 → codecBase c + codecPages c * 65536 ≤ 2 ^ 40 → codecBack c + codecBackLen c ≤ 2 ^ 40 →
      overlap (codecBase c) (codecPages c * 65536) (codecBack c) (codecBackLen c) = false →
      (∀ e ∈ s.codecs, e.1 = r ∨ codecOn e.2 = false) → enableBad s r c = false)

/-- R214, R218, R219, R336, R359, R375: the checks of a scan, in their order, when it is the only command of its die; u is the state after
the read of the scan block, which is an access of L2. That the SAVE area is looked at after the owners is log 33. -/
def Sys2Proof.scansCheck : Prop :=
  ∀ (s : State) (d n : Nat) (c : SysCmd),
    let x := getDie s d
    let u := ownRead s c.t.toNat 64
    let b := homeBig u c.t.toNat 64
    let ns := (cellSet d (blkSet b)).getD []
    let ends (st : Nat) : Prop := ∃ t, exec (.scanTransfer d n) s = .next t ∧ t.cells = s.cells ∧ ∃ e, (getDie t d).sys = [e] ∧
      e.status = some st
    let sound := blockOk d b = true
    let inSave := ∀ k < ns.length, (saveRegion s (BitVec.ofNat 16 (blkPart b)) (blkImage b k) (imageBytes (blkSegs b))).isSome = true
    let owned := ∀ m ∈ ns, ∀ k ∈ namedSegs (blkSegs b), smGet 0 (getCell s m).owners k = BitVec.ofNat 16 (blkPart b)
    x.sys = [c] → c.trig = 1 ∨ c.trig = 2 → c.status = none → c.held = false → c.started = false →
    (c.t.toNat % 64 ≠ 0 → ends 0x14) ∧
    (c.t.toNat % 64 = 0 → ¬ sound → ends 0x14) ∧
    (c.t.toNat % 64 = 0 → sound → ¬ owned → ends 0x11) ∧
    (c.t.toNat % 64 = 0 → sound → owned → c.trig = 1 → ¬ inSave → ends 0x14) ∧
    (c.t.toNat % 64 = 0 → sound → owned → (c.trig = 1 → inSave) → (∃ m ∈ ns, (getCell s m).hold = false) → ends 0x15) ∧
    (c.t.toNat % 64 = 0 → sound → owned → (∀ m ∈ ns, (getCell s m).hold = true) → c.trig = 1 → inSave → bit (blkSegs b) 27 = true →
      exec (.scanTransfer d n) s =
        .next (modDie u d fun x => { x with sys := [{ c with blk := BitVec.ofNat 512 b, started := true }] }))

/-- R253, R348 to R352, R360, R361: the transfers of a scan. A save fault holds it back. A quiescent cell's image is written; where no D word
of the cell is left to write back, or once that is performed, its VALID is written and the scan moves on. An image that holds the scalar
registers alone gives them to a cell. The cell stays frozen. -/
def Sys2Proof.scansMove : Prop :=
  ∀ (s : State) (d n : Nat) (c : SysCmd),
    let x := getDie s d
    let b := c.blk.toNat
    let ns := scanCells d c
    let a := blkImage b c.next
    let len := imageBytes (blkSegs b)
    let plain := plainMemory s ∧ a + len ≤ 2 ^ 40
    let moved : SysCmd := { c with
      next := c.next + 1
      cells := c.cells + 1
      stage := none
      status := if c.next + 1 = ns.length then some 0 else c.status }
    let clean := bit (blkSegs b) 19 = true → ∀ e ∈ (getCell s n).l1, ∀ w ∈ e.2.words, w.2.dirty = false
    let same (t : State) : Prop := (getCell t n).hold = (getCell s n).hold ∧
      ∀ i, smGet 0 (getCell t n).user.x i = smGet 0 (getCell s n).user.x i
    x.sys = [c] → c.status = none → c.held = false → c.started = true → ns[c.next]? = some n → a % 128 = 0 →
    (c.trig = 1 → c.stage = none → quiescent s n = false → exec (.scanTransfer d n) s = .next s) ∧
    (c.trig = 1 → c.stage = none → quiescent s n = true → pinFails s (BitVec.ofNat 16 (blkPart b)) a len = none →
      ∃ t, exec (.scanTransfer d n) s = .next t ∧ same t ∧
        (clean → (getDie t d).sys = [moved] ∧ (plain → home64 t (a + 248) = 1 ∧ (home64 t a).extractLsb' 0 16 = 0x4F43)) ∧
        (¬ clean → ∃ v, (getDie t d).sys = [{ c with stage := some (v, len) }] ∧
          (plain → home64 t (a + 248) = 0 ∧ (home64 t a).extractLsb' 0 16 = 0x4F43))) ∧
    (∀ v, c.trig = 1 → c.stage = some (v, len) → ∃ t, exec (.scanTransfer d n) s = .next t ∧ t.cells = s.cells ∧
      (wbOut s n = true → (getDie t d).sys = [c] ∧ t.mem = s.mem) ∧
      (wbOut s n = false → (getDie t d).sys = [moved] ∧ (plain → home64 t (a + 248) = 1))) ∧
    (c.trig = 1 → c.stage = none → quiescent s n = true → (pinFails s (BitVec.ofNat 16 (blkPart b)) a len).isSome = true →
      ∃ t e, exec (.scanTransfer d n) s = .next t ∧ (getDie t d).sys = [e] ∧ e.held = true ∧ e.status = none ∧ e.next = c.next ∧
        e.stage.isSome = true ∧ t.cells = s.cells) ∧
    (c.trig = 2 → ∃ t, exec (.scanTransfer d n) s = .next t ∧ (getDie t d).sys = [moved] ∧ (getCell t n).hold = (getCell s n).hold ∧
      (blkSegs b = 2 → bits (homeBig s a 256) 32 32 = 2 → ∀ i < 64, smGet 0 (getCell t n).user.x i = home64 s (a + 256 + 8 * i)))

/-- R62, R214, R215, R217, R220 to R223, R357: the end of a command that is the only one of its die. It has its effect; without a
record it leaves, and where sys.m names an address it first makes the release that its record waits for (R258). The order of the checks of
dict.ld is log 35. -/
def Sys2Proof.commandsEnd : Prop :=
  ∀ (s : State) (d : Nat) (c : SysCmd),
    let x := getDie s d
    let a := c.m.toNat
    let o := c.o.toNat
    let part : BitVec 16 := c.o.extractLsb' 0 16
    let bare (y : Cell) : Cell := { y with storeb := [], markers := [] }
    let same (t : State) : Prop := ∀ n, bare (getCell t n) = bare (getCell s n)
    let ends (p : State → Prop) (cells st : Nat) : Prop := ∃ t, exec (.sysCompletion d) s = .next t ∧ p t ∧
      (a % 8 ≠ 0 ∨ a = 0 → (getDie t d).sys = []) ∧
      (a % 8 = 0 → a ≠ 0 → ∃ m, (getDie t d).sys = [{ c with ans := some (0, cells, st, m) }] ∧
        ∃ k ∈ (getCell t c.cell).markers, k.id = m ∧ k.scope = 3)
    let refused (st : Nat) : Prop := ends (fun t => same t ∧ t.regions = s.regions ∧ (getDie t d).cos = x.cos) 0 st
    x.sys = [c] → c.status = none → c.ans = none → isScan c = false →
    (c.trig = 5 → ends (fun t => (getDie t d).migctl = x.migctl ^^^ 2 ∧ same t) 0 0) ∧
    (c.trig = 0 → c.t.toNat % 16 = 0 → userStopped s c.cell = true → ∀ es, imageAt s c.t.toNat = some es → ends (fun t =>
      (getCell t c.cell).dict = loadEntries (getCell s c.cell).dict es ∧ (getCell t c.cell).user = (getCell s c.cell).user) 1 0) ∧
    (c.trig = 0 → c.t.toNat % 16 ≠ 0 → refused 0x14) ∧
    (c.trig = 0 → c.t.toNat % 16 = 0 → userStopped s c.cell = false → refused 0x15) ∧
    (c.trig = 0 → c.t.toNat % 16 = 0 → userStopped s c.cell = true → imageAt s c.t.toNat = none → refused 0x13) ∧
    (∀ ns, cellSet d c.t.toNat = some ns → let mine := ns.filter fun n => seqOwner (getCell s n) == part
      (c.trig = 3 → c.started = false → ∃ t e, exec (.sysCompletion d) s = .next t ∧ (getDie t d).sys = [e] ∧ e.started = true ∧
        e.cells = mine.length ∧ ∀ n, (getCell t n).frzReq = ((getCell s n).frzReq || (mine.contains n && !(getCell s n).hold))) ∧
      (c.trig = 3 → c.started = true → (∀ n ∈ ns, (getCell s n).frzReq = false) → ends same c.cells 0) ∧
      (c.trig = 3 → c.started = true → (∃ n ∈ ns, (getCell s n).frzReq = true) → exec (.sysCompletion d) s = .next s) ∧
      (c.trig = 4 → ends (fun t => ∀ n, (getCell t n).hold = ((getCell s n).hold &&
        !(mine.contains n && (getCell s n).ok)) ∧ (getCell t n).user.flights = (getCell s n).user.flights) mine.length 0)) ∧
    (c.trig = 3 ∨ c.trig = 4 → c.started = false → cellSet d c.t.toNat = none → refused 0x14) ∧
    (c.trig = 6 → o / 2 ^ 20 = 0 → bits o 2 6 = 0 → bits o 16 4 = d → ∀ k < 16, bits o 12 4 = k ∨ bits o 12 4 = 15 →
      let r := cosOf x k (bits o 8 4)
      (bits o 0 2 = 0 → ends (fun t => cosOf (getDie t d) k (bits o 8 4) = { r with ways := c.t.extractLsb' 0 16 }) 0 0) ∧
      (bits o 0 2 = 2 → ends (fun t => cosOf (getDie t d) k (bits o 8 4) = { r with share := c.t.extractLsb' 0 8 }) 0 0) ∧
      (bits o 0 2 = 3 → ends (fun t => cosOf (getDie t d) k (bits o 8 4) = { r with peak := c.t.extractLsb' 32 20 }) 0 0) ∧
      (bits o 0 2 = 1 → c.t.extractLsb' 0 15 &&& c.t.extractLsb' 16 15 = 0 → ends (fun t =>
        (cosOf (getDie t d) k (bits o 8 4)).setbase = c.t.extractLsb' 0 15 ∧
        (cosOf (getDie t d) k (bits o 8 4)).setmask = c.t.extractLsb' 16 15) 0 0)) ∧
    (c.trig = 6 → o / 2 ^ 20 ≠ 0 ∨ bits o 2 6 ≠ 0 ∨ bits o 16 4 ≠ d → refused 0x14) ∧
    (c.trig = 7 → let n := bits o 0 10
      let mask := bits o 32 32
      (n / 128 ≠ d ∨ segsOk mask = false → refused 0x14) ∧
      (n / 128 = d → segsOk mask = true → userStopped s n = false → refused 0x15) ∧
      (n / 128 = d → segsOk mask = true → userStopped s n = true →
        smWf 0 0 (getCell s n).owners = true → ends (fun t => (∀ m, m ≠ n → bare (getCell t m) = bare (getCell s m)) ∧
          (∀ k < 28, smGet 0 (getCell t n).owners k = if bit mask k then c.t.extractLsb' 0 16 else smGet 0 (getCell s n).owners k) ∧
          (bit mask 1 = true → smGet 0 (getCell s n).owners 1 ≠ c.t.extractLsb' 0 16 →
            (∀ i, smGet 0 (getCell t n).user.x i = 0) ∧ (getCell t n).user.p = 1)) 1 0))

/-- R214, R215, R219, R220, R223, R258: what a running scan refuses, how a scan ends, and the record of an ended command, which is written
once the release of the firmware context is complete. A scan runs until its record is written, what it wrote back included; to a command
of the same cell that was accepted after it, once it has made its checks. -/
def Sys2Proof.commandsAnswer : Prop :=
  ∀ (s : State) (d : Nat) (c : SysCmd),
    let x := getDie s d
    let bare (y : Cell) : Cell := { y with storeb := [], markers := [] }
    let plain := plainMemory s
    let ends (before : List SysCmd) (images cells st : Nat) : Prop := ∃ t, exec (.sysCompletion d) s = .next t ∧
      (∀ n, bare (getCell t n) = bare (getCell s n)) ∧ (doneAddr c = 0 → (getDie t d).sys = before) ∧
      (doneAddr c ≠ 0 → ∃ m, (getDie t d).sys = before ++ [{ c with ans := some (images, cells, st, m) }])
    let goesOn (e : SysCmd) : Prop := (e.ans = none ∧
        (e.status = none ∨ (e.trig = 1 ∧ e.started = true ∧ (scanCells d e).any (wbOut s) = true))) ∨
      ∃ r, e.ans = some r ∧ markersDone (getCell s e.cell) r.2.2.2 = false
    let busy (ns : List Nat) : Prop := ∀ e, x.sys = [e, c] → isScan e = true → e.status = none ∨ e.status = some 0 → goesOn e →
      e.cell ≠ c.cell ∨ e.started = true → c.ans = none → (∃ n ∈ ns, scanNames s d n e = true) → ends [e] 0 0 0x17
    (∀ ns, c.trig = 4 → cellSet d c.t.toNat = some ns → busy ns) ∧
    (∀ n, n = bits c.o.toNat 0 10 → c.trig = 7 → dieOf n = d → segsOk (bits c.o.toNat 32 32) = true → userStopped s n = true → busy [n]) ∧
    (∀ st, x.sys = [c] → c.trig = 1 ∨ c.trig = 2 → c.status = some st → c.ans = none → s.chan = [] →
      ends [] (c.cells * (imageBytes (blkSegs c.blk.toNat) / 64)) c.cells st) ∧
    (∀ images cells st m, x.sys = [c] → c.ans = some (images, cells, st, m) →
      (markersDone (getCell s c.cell) m = false → exec (.sysCompletion d) s = .next s) ∧
      (markersDone (getCell s c.cell) m = true → doneAddr c ≠ 0 → ∃ t, exec (.sysCompletion d) s = .next t ∧ (getDie t d).sys = [] ∧
        t.cells = s.cells ∧ (plain → doneAddr c < 2 ^ 40 → st < 2 ^ 16 → home64 t (doneAddr c) =
          BitVec.ofNat 64 (2 ^ 63 + images % 2 ^ 31 * 2 ^ 32 + cells % 2 ^ 16 * 2 ^ 16 + st))))

/-- R4, R5, R62, R214 to R223, R253, R266, R267, R315, R348 to R352, R357, R360, R361, R401: register accesses, codec regions, scans and sys
commands. The model's own choices that clauses rest on are logs 33, 35, 44, 66 and 88, as said at each. -/
def Obligations.RegistersAndCommands : Prop :=
  registersAreWritten ∧ halvesAreRead ∧ codecsDrain ∧ scansCheck ∧ scansMove ∧ commandsEnd ∧ commandsAnswer
end

