-- ==== Sys2Proof/Laws/Home.lean ====
section
/-!
SUPPORT. Laws of reads at a home: a read of several bytes within one line, and over two lines.
-/

namespace Sys2Proof.Machine

/-- The lowest byte of a field, and the rest. -/
theorem bits_succ_byte (v lo n : Nat) : bits v lo (8 * (n + 1)) = bits v lo 8 + 256 * bits v (lo + 8) (8 * n) := by
  unfold bits
  rw [Nat.shiftRight_add]
  generalize v >>> lo = w
  rw [Nat.shiftRight_eq_div_pow, show 8 * (n + 1) = 8 + 8 * n by omega, Nat.pow_add, Nat.mod_mul]

/-- Bytes of one line, read one by one, are the field of the line that they make. -/
theorem homeReadN_line (s : State) (n : Nat) : ∀ pa, pa % 128 + n ≤ 128 → homeReadN s pa n = homeRead s 0 pa n := by
  induction n with
  | zero => intro pa _; simp [homeReadN, homeRead, bits, Nat.mod_one]
  | succ n ih =>
    intro pa h
    cases n with
    | zero => simp [homeReadN]
    | succ m =>
      have hm : (pa + 1) % 128 = pa % 128 + 1 := by omega
      have hd : (pa + 1) / 128 = pa / 128 := by omega
      rw [homeReadN, ih (pa + 1) (by omega)]
      simp only [homeRead, hm, hd]
      rw [bits_succ_byte _ _ (m + 1), Nat.mul_add]

/-- A read over a place: the lower bytes, and those from there on. -/
theorem homeReadN_add (s : State) (m n : Nat) : ∀ pa, homeReadN s pa (m + n) = homeReadN s pa m + 256 ^ m * homeReadN s (pa + m) n := by
  induction m with
  | zero => intro pa; simp [homeReadN]
  | succ m ih =>
    intro pa
    rw [show m + 1 + n = (m + n) + 1 by omega, homeReadN, homeReadN, ih, Nat.pow_succ, show pa + 1 + m = pa + (m + 1) by omega]
    ring

end Sys2Proof.Machine
end

