-- ==== Sys2Proof/Laws/PerInstr.lean ====
section
/-!
SUPPORT. Statements made per instruction. RoundTrip: a well-formed instruction decodes from the word that encode gives
it, in its place of the bundle (R39 to R52, R176, R197, R206).
-/

namespace Sys2Proof.Laws

open Sys2Proof

/-- Decoding undoes encoding: in both guard modes, the word of a well-formed instruction decodes to it. -/
def RoundTrip.Statement (i : Instr) : Prop :=
  ∀ p k w, encode i = some (k, w) → WellFormed p i = true → decodeSlot p k w = .ok i

/-! ### Fields of words -/

theorem append_hi {w v l : Nat} (x : BitVec w) (y : BitVec v) (s : Nat) (h : v ≤ s) :
    (x ++ y).extractLsb' s l = x.extractLsb' (s - v) l := by
  apply BitVec.eq_of_getLsbD_eq
  intro i hi
  have h1 : ¬ s + i < v := by omega
  have h2 : s + i - v = s - v + i := by omega
  simp only [BitVec.getLsbD_extractLsb', BitVec.getLsbD_append, h1, if_false, h2]

theorem append_lo {w v l : Nat} (x : BitVec w) (y : BitVec v) (s : Nat) (h : s + l ≤ v) :
    (x ++ y).extractLsb' s l = y.extractLsb' s l := by
  apply BitVec.eq_of_getLsbD_eq
  intro i hi
  have h1 : s + i < v := by omega
  simp only [BitVec.getLsbD_extractLsb', BitVec.getLsbD_append, h1, if_true]

theorem append_all {w : Nat} (x : BitVec w) : x.extractLsb' 0 w = x := by
  apply BitVec.eq_of_getLsbD_eq
  intro i hi
  simp [hi]

theorem and_app {w v : Nat} (x a : BitVec w) (y b : BitVec v) : (x ++ y) &&& (a ++ b) = (x &&& a) ++ (y &&& b) :=
  BitVec.and_append

/-- Two words that differ in their top l bits, where the mask keeps these, differ under the mask. -/
theorem and_ne {n l : Nat} {w m c : BitVec n} (s : Nat) (hm : m.extractLsb' s l = BitVec.allOnes l)
    (h : w.extractLsb' s l ≠ c.extractLsb' s l) : w &&& m ≠ c := by
  intro e
  apply h
  rw [← e]
  apply BitVec.eq_of_getLsbD_eq
  intro i hi
  have h1 := congrArg (fun b => b.getLsbD i) hm
  simp only [BitVec.getLsbD_extractLsb', hi, BitVec.getLsbD_allOnes, decide_true, Bool.true_and] at h1
  simp [hi, h1]

theorem ne_zero_of {n l : Nat} {w : BitVec n} (s : Nat) (h : w.extractLsb' s l ≠ 0) : w ≠ 0 := by
  intro e
  apply h
  rw [e]
  apply BitVec.eq_of_getLsbD_eq
  intro i hi
  simp

theorem wDst_mvWord (g : BitVec 12) (s d : BitVec 10) : wDst (mvWord g s d) = d :=
  (append_lo _ _ 0 (by decide)).trans (append_all d)

theorem wSrc_mvWord (g : BitVec 12) (s d : BitVec 10) : wSrc (mvWord g s d) = s :=
  (append_hi _ _ 10 (by decide)).trans ((append_lo _ _ 0 (by decide)).trans (append_all s))

theorem wGuard_mvWord (g : BitVec 12) (s d : BitVec 10) : wGuard (mvWord g s d) = g :=
  (append_hi _ _ 20 (by decide)).trans ((append_hi _ _ 10 (by decide)).trans (append_all g))

theorem dst_field (g : BitVec 12) (s d : BitVec 10) (a l : Nat) (h : a + l ≤ 10) :
    (mvWord g s d).extractLsb' a l = d.extractLsb' a l := append_lo _ _ a h

theorem src_field (g : BitVec 12) (s d : BitVec 10) (a l : Nat) (h1 : 10 ≤ a) (h2 : a - 10 + l ≤ 10) :
    (mvWord g s d).extractLsb' a l = s.extractLsb' (a - 10) l := (append_hi _ _ a h1).trans (append_lo _ _ _ h2)

/-- The word 0 is the word of three zero fields. -/
theorem mvWord_ne {g : BitVec 12} {s d : BitVec 10} (h : g ≠ 0 ∨ s ≠ 0 ∨ d ≠ 0) : mvWord g s d ≠ 0 := by
  intro e
  have h1 := wGuard_mvWord g s d
  have h2 := wSrc_mvWord g s d
  have h3 := wDst_mvWord g s d
  rw [e] at h1 h2 h3
  rcases h with h | h | h
  · exact h (by rw [← h1]; decide)
  · exact h (by rw [← h2]; decide)
  · exact h (by rw [← h3]; decide)

theorem isS_cases {k : BitVec 4} (h : isS k = true) : k = 1 ∨ k = 2 ∨ k = 3 := by revert k; decide

theorem isV_cases {k : BitVec 4} (h : isV k = true) : k = 4 ∨ k = 5 ∨ k = 6 ∨ k = 7 := by revert k; decide

theorem cases1 (u : BitVec 1) : u = 0 ∨ u = 1 := by revert u; decide

theorem cases3 (u : BitVec 3) : u = 0 ∨ u = 1 ∨ u = 2 ∨ u = 3 ∨ u = 4 ∨ u = 5 ∨ u = 6 ∨ u = 7 := by revert u; decide

theorem cases2 (u : BitVec 2) : u = 0 ∨ u = 1 ∨ u = 2 ∨ u = 3 := by revert u; decide

/-! ### The slots -/

theorem enc_inv {a k : Nat} {b w : SlotWord} (h : some (a, b) = some (k, w)) : a = k ∧ b = w := by
  injection h with h
  injection h with h1 h2
  exact ⟨h1, h2⟩

theorem wf_slot {a b c : Bool} (h : (a && b && c) = true) : b = true := by revert h; cases a <;> cases b <;> simp

theorem check_ok {p : Bool} {i : Instr} {r : Option Instr} (h : r = some i) (hw : WellFormed p i = true) :
    SlotRes.check p r = .ok i := by simp [h, SlotRes.check, hw]

theorem slotS {p : Bool} {k : BitVec 4} {w : SlotWord} {i : Instr} (hk : isS k = true) (hn : w ≠ 0)
    (h : rawS k w = some i) (hw : WellFormed p i = true) : decodeSlot p k.toNat w = .ok i := by
  rcases isS_cases hk with rfl | rfl | rfl <;> exact (if_neg hn).trans (check_ok h hw)

theorem slotV {p : Bool} {k : BitVec 4} {w : SlotWord} {i : Instr} (hk : isV k = true) (hn : w ≠ 0)
    (h : rawV k w = some i) (hw : WellFormed p i = true) : decodeSlot p k.toNat w = .ok i := by
  rcases isV_cases hk with rfl | rfl | rfl | rfl <;> exact (if_neg hn).trans (check_ok h hw)

theorem slotM {p : Bool} {w : SlotWord} {i : Instr} (hn : w ≠ 0)
    (h : rawM w = some i) (hw : WellFormed p i = true) : decodeSlot p 8 w = .ok i :=
  (if_neg hn).trans (check_ok h hw)

/-- A trigger of an S slot. -/
theorem trigSlotS {p : Bool} {k : BitVec 4} {g : BitVec 12} {s d : BitVec 10} {i : Instr} (hk : isS k = true)
    (hd : d ≠ 0) (h : decodeSTrig d.toNat k g s = some i) (hw : WellFormed p i = true) :
    decodeSlot p k.toNat (mvWord g s d) = .ok i :=
  slotS hk (mvWord_ne (.inr (.inr hd))) (by simp [rawS, wGuard_mvWord, wSrc_mvWord, wDst_mvWord, h]) hw

/-- A trigger of a V slot. -/
theorem trigSlotV {p : Bool} {k : BitVec 4} {g : BitVec 12} {s d : BitVec 10} {i : Instr} (hk : isV k = true)
    (hd : d ≠ 0) (h : decodeVTrig d.toNat k g s = some i) (hw : WellFormed p i = true) :
    decodeSlot p k.toNat (mvWord g s d) = .ok i :=
  slotV hk (mvWord_ne (.inr (.inr hd))) (by simp [rawV, wGuard_mvWord, wSrc_mvWord, wDst_mvWord, h]) hw

/-- A trigger of the M slot. -/
theorem trigSlotM {p : Bool} {g : BitVec 12} {s d : BitVec 10} {i : Instr} (hd : d ≠ 0)
    (h : decodeMTrig d.toNat g s = some i) (hw : WellFormed p i = true) :
    decodeSlot p 8 (mvWord g s d) = .ok i :=
  slotM (mvWord_ne (.inr (.inr hd))) (by simp [rawM, wGuard_mvWord, wSrc_mvWord, wDst_mvWord, h]) hw

/-! ### w0 -/

theorem w0_op (op : BitVec 4) (i g : BitVec 12) (y s d : BitVec 1) : (w0Word op i g y s d).extractLsb' 28 4 = op :=
  (append_hi _ _ 28 (by decide)).trans <| (append_hi _ _ 27 (by decide)).trans <| (append_hi _ _ 26 (by decide)).trans <|
    (append_hi _ _ 25 (by decide)).trans <| (append_hi _ _ 24 (by decide)).trans <| (append_hi _ _ 12 (by decide)).trans <|
    append_all op

theorem w0_imm (op : BitVec 4) (i g : BitVec 12) (y s d : BitVec 1) : w0Imm (w0Word op i g y s d) = i :=
  (append_hi _ _ 16 (by decide)).trans <| (append_hi _ _ 15 (by decide)).trans <| (append_hi _ _ 14 (by decide)).trans <|
    (append_hi _ _ 13 (by decide)).trans <| (append_hi _ _ 12 (by decide)).trans <| (append_lo _ _ 0 (by decide)).trans <|
    append_all i

theorem w0_guard (op : BitVec 4) (i g : BitVec 12) (y s d : BitVec 1) : w0Guard (w0Word op i g y s d) = g :=
  (append_hi _ _ 4 (by decide)).trans <| (append_hi _ _ 3 (by decide)).trans <| (append_hi _ _ 2 (by decide)).trans <|
    (append_hi _ _ 1 (by decide)).trans <| (append_lo _ _ 0 (by decide)).trans <| append_all g

theorem w0_y (op : BitVec 4) (i g : BitVec 12) (y s d : BitVec 1) : (w0Word op i g y s d).extractLsb' 3 1 = y :=
  (append_hi _ _ 3 (by decide)).trans <| (append_hi _ _ 2 (by decide)).trans <| (append_hi _ _ 1 (by decide)).trans <|
    (append_lo _ _ 0 (by decide)).trans <| append_all y

theorem w0_s (op : BitVec 4) (i g : BitVec 12) (y s d : BitVec 1) : (w0Word op i g y s d).extractLsb' 2 1 = s :=
  (append_hi _ _ 2 (by decide)).trans <| (append_hi _ _ 1 (by decide)).trans <| (append_lo _ _ 0 (by decide)).trans <|
    append_all s

theorem w0_d (op : BitVec 4) (i g : BitVec 12) (y s d : BitVec 1) : (w0Word op i g y s d).extractLsb' 1 1 = d :=
  (append_hi _ _ 1 (by decide)).trans <| (append_lo _ _ 0 (by decide)).trans <| append_all d

theorem w0_0 (op : BitVec 4) (i g : BitVec 12) (y s d : BitVec 1) : (w0Word op i g y s d).extractLsb' 0 1 = 0#1 :=
  (append_lo _ _ 0 (by decide)).trans <| append_all _

/-- A br operation decodes from its word. -/
theorem slotW0 {p : Bool} {op : BitVec 4} {i g : BitVec 12} {y s d : BitVec 1} {j : Instr} (ho : op ≠ 0)
    (h : rawC (w0Word op i g y s d) = some j) (hw : WellFormed p j = true) :
    decodeSlot p 0 (w0Word op i g y s d) = .ok j := by
  have hn : w0Word op i g y s d ≠ 0 := ne_zero_of 28 (by rw [w0_op]; exact ho)
  exact (if_neg hn).trans ((if_neg (by rw [w0_op]; exact ho)).trans (check_ok h hw))

/-! ### X, T and B words -/

theorem slotX {p : Bool} {w : SlotWord} {i : Instr} (hn : w ≠ 0) (h : rawX w = some i) (hw : WellFormed p i = true) :
    decodeSlot p 9 w = .ok i :=
  (if_neg hn).trans (check_ok h hw)

theorem slotT {p : Bool} {w : SlotWord} {i : Instr} (hn : w ≠ 0) (h : rawT w = some i) (hw : WellFormed p i = true) :
    decodeSlot p 10 w = .ok i :=
  (if_neg hn).trans (check_ok h hw)

theorem slotB {p : Bool} {w : SlotWord} {i : Instr} (hn : w ≠ 0) (h : rawB w = some i) (hw : WellFormed p i = true) :
    decodeSlot p 11 w = .ok i :=
  (if_neg hn).trans (check_ok h hw)

theorem RoundTrip.br (i : BitVec 12) (g : BitVec 12) (y : BitVec 1) (s : BitVec 1) (d : BitVec 1) : RoundTrip.Statement (.br i g y s d) := by
  intro pm kk ww he hw
  obtain ⟨rfl, rfl⟩ := enc_inv he
  exact slotW0 (by decide) (by simp [rawC, w0_op, w0_imm, w0_guard, w0_y, w0_s, w0_d, w0_0]) hw

theorem RoundTrip.brCall (i : BitVec 12) (g : BitVec 12) (y : BitVec 1) (s : BitVec 1) (d : BitVec 1) : RoundTrip.Statement (.brCall i g y s d) := by
  intro pm kk ww he hw
  obtain ⟨rfl, rfl⟩ := enc_inv he
  exact slotW0 (by decide) (by simp [rawC, w0_op, w0_imm, w0_guard, w0_y, w0_s, w0_d, w0_0]) hw

theorem RoundTrip.brRet (g : BitVec 12) (y : BitVec 1) (s : BitVec 1) (d : BitVec 1) : RoundTrip.Statement (.brRet g y s d) := by
  intro pm kk ww he hw
  obtain ⟨rfl, rfl⟩ := enc_inv he
  exact slotW0 (by decide) (by simp [rawC, w0_op, w0_imm, w0_guard, w0_y, w0_s, w0_d, w0_0]) hw

theorem RoundTrip.brInd (i : BitVec 12) (g : BitVec 12) (y : BitVec 1) (s : BitVec 1) (d : BitVec 1) : RoundTrip.Statement (.brInd i g y s d) := by
  intro pm kk ww he hw
  obtain ⟨rfl, rfl⟩ := enc_inv he
  exact slotW0 (by decide) (by simp [rawC, w0_op, w0_imm, w0_guard, w0_y, w0_s, w0_d, w0_0]) hw

theorem RoundTrip.brLoop (i : BitVec 12) (g : BitVec 12) (y : BitVec 1) (s : BitVec 1) (d : BitVec 1) : RoundTrip.Statement (.brLoop i g y s d) := by
  intro pm kk ww he hw
  obtain ⟨rfl, rfl⟩ := enc_inv he
  exact slotW0 (by decide) (by simp [rawC, w0_op, w0_imm, w0_guard, w0_y, w0_s, w0_d, w0_0]) hw

theorem RoundTrip.brLoopx (i : BitVec 12) (g : BitVec 12) (y : BitVec 1) (s : BitVec 1) (d : BitVec 1) : RoundTrip.Statement (.brLoopx i g y s d) := by
  intro pm kk ww he hw
  obtain ⟨rfl, rfl⟩ := enc_inv he
  exact slotW0 (by decide) (by simp [rawC, w0_op, w0_imm, w0_guard, w0_y, w0_s, w0_d, w0_0]) hw

theorem RoundTrip.brUiret (g : BitVec 12) (y : BitVec 1) (s : BitVec 1) (d : BitVec 1) : RoundTrip.Statement (.brUiret g y s d) := by
  intro pm kk ww he hw
  obtain ⟨rfl, rfl⟩ := enc_inv he
  exact slotW0 (by decide) (by simp [rawC, w0_op, w0_imm, w0_guard, w0_y, w0_s, w0_d, w0_0]) hw

theorem RoundTrip.brIfence (g : BitVec 12) (y : BitVec 1) (s : BitVec 1) (d : BitVec 1) : RoundTrip.Statement (.brIfence g y s d) := by
  intro pm kk ww he hw
  obtain ⟨rfl, rfl⟩ := enc_inv he
  exact slotW0 (by decide) (by simp [rawC, w0_op, w0_imm, w0_guard, w0_y, w0_s, w0_d, w0_0]) hw

theorem RoundTrip.brSwap (g : BitVec 12) (y : BitVec 1) (s : BitVec 1) (d : BitVec 1) : RoundTrip.Statement (.brSwap g y s d) := by
  intro pm kk ww he hw
  obtain ⟨rfl, rfl⟩ := enc_inv he
  exact slotW0 (by decide) (by simp [rawC, w0_op, w0_imm, w0_guard, w0_y, w0_s, w0_d, w0_0]) hw

theorem RoundTrip.brEnd (g : BitVec 12) (y : BitVec 1) (s : BitVec 1) (d : BitVec 1) : RoundTrip.Statement (.brEnd g y s d) := by
  intro pm kk ww he hw
  obtain ⟨rfl, rfl⟩ := enc_inv he
  exact slotW0 (by decide) (by simp [rawC, w0_op, w0_imm, w0_guard, w0_y, w0_s, w0_d, w0_0]) hw

theorem RoundTrip.brCalli (i : BitVec 12) (g : BitVec 12) (y : BitVec 1) (s : BitVec 1) (d : BitVec 1) : RoundTrip.Statement (.brCalli i g y s d) := by
  intro pm kk ww he hw
  obtain ⟨rfl, rfl⟩ := enc_inv he
  exact slotW0 (by decide) (by simp [rawC, w0_op, w0_imm, w0_guard, w0_y, w0_s, w0_d, w0_0]) hw

theorem RoundTrip.brUnspin (g : BitVec 12) (y : BitVec 1) (s : BitVec 1) (d : BitVec 1) : RoundTrip.Statement (.brUnspin g y s d) := by
  intro pm kk ww he hw
  obtain ⟨rfl, rfl⟩ := enc_inv he
  exact slotW0 (by decide) (by simp [rawC, w0_op, w0_imm, w0_guard, w0_y, w0_s, w0_d, w0_0]) hw

theorem decodeSTrig_none {d : Nat} {k : BitVec 4} {g : BitVec 12} {s : BitVec 10} (h : d < 0x200) :
    decodeSTrig d k g s = none := if_pos h

theorem decodeVTrig_none {d : Nat} {k : BitVec 4} {g : BitVec 12} {s : BitVec 10} (h : d < 0x300) :
    decodeVTrig d k g s = none := if_pos h

theorem dstS_small : ∀ d : BitVec 10, dstSOk d = true → d.toNat < 0x200 := by decide

theorem dstV_small : ∀ d : BitVec 10, dstVOk d = true → d.toNat < 0x300 ∧ d.extractLsb' 6 4 ≠ 11#4 := by decide

theorem cbV_small (h n : BitVec 3) : (11#4 ++ h ++ n).toNat < 0x300 ∧ (11#4 ++ h ++ n).extractLsb' 6 4 = 11#4 := by
  revert h n; decide

theorem dstM_cases : ∀ d : BitVec 10, dstMOk d = true →
    d.toNat < 0x20 ∧ (d = 0 ∨ d = 1 ∨ d = 2 ∨ d = 3 ∨ d = 4 ∨ d = 8 ∨ d = 16 ∨ d = 17 ∨ d = 18 ∨ d = 19) := by decide

theorem decodeMTrig_low {d : BitVec 10} {g : BitVec 12} {s : BitVec 10} (h : dstMOk d = true) :
    decodeMTrig d.toNat g s = none := by
  rcases (dstM_cases d h).2 with rfl | rfl | rfl | rfl | rfl | rfl | rfl | rfl | rfl | rfl <;> rfl

theorem dstM_fields : ∀ d : BitVec 10, dstMOk d = true → d.extractLsb' 6 4 ≠ 9#4 ∧ ¬ 0x200 ≤ d.toNat := by decide

theorem moveNe {g : BitVec 12} {s d : BitVec 10} (h : (g != 0 || s != 0 || d != 0) = true) : mvWord g s d ≠ 0 := by
  apply mvWord_ne
  simpa [or_assoc] using h

theorem buf_src {g : BitVec 12} {s d : BitVec 10} : (mvWord g s d).extractLsb' 17 3 = s.extractLsb' 7 3 :=
  src_field g s d 17 3 (by decide) (by decide)

theorem dst_top {g : BitVec 12} {s d : BitVec 10} : (mvWord g s d).extractLsb' 6 4 = d.extractLsb' 6 4 :=
  dst_field g s d 6 4 (by decide)

theorem RoundTrip.move (k : BitVec 4) (g : BitVec 12) (s : BitVec 10) (d : BitVec 10) :
    RoundTrip.Statement (.move k g s d) := by
  intro pm kk ww h hw
  obtain ⟨rfl, rfl⟩ := enc_inv h
  have hw' : (guardOk pm g && moveOk k g s d) = true := hw
  simp only [moveOk, Bool.and_eq_true] at hw'
  have hn := moveNe hw'.2.1
  have hm := hw'.2.2
  by_cases hs : isS k = true
  · rw [if_pos hs, Bool.and_eq_true] at hm
    exact slotS hs hn (by simp [rawS, wGuard_mvWord, wSrc_mvWord, wDst_mvWord, decodeSTrig_none (dstS_small d hm.2)]) hw
  · rw [if_neg hs] at hm
    by_cases hv : isV k = true
    · rw [if_pos hv] at hm
      simp only [Bool.and_eq_true, bne_iff_ne] at hm
      have hd := dstV_small d hm.2
      exact slotV hv hn (by
        simp [rawV, wGuard_mvWord, wSrc_mvWord, wDst_mvWord, decodeVTrig_none hd.1, dst_top, buf_src, hd.2, hm.1.2]) hw
    · rw [if_neg hv] at hm
      simp only [Bool.and_eq_true, Bool.or_eq_true, beq_iff_eq, bne_iff_ne] at hm
      obtain ⟨rfl, hm⟩ := hm
      rcases hm with hm | hm
      · have hf := dstM_fields d hm.2
        exact slotM hn (by
          simp [rawM, wGuard_mvWord, wSrc_mvWord, wDst_mvWord, decodeMTrig_low hm.2, dst_top, hf.1, hf.2]) hw
      · obtain ⟨⟨-, hb⟩, rfl⟩ := hm
        exact slotM hn (by
          have ht : decodeMTrig 512 g s = none := rfl
          simp [rawM, wGuard_mvWord, wSrc_mvWord, wDst_mvWord, ht, dst_top, buf_src, hb]) hw

theorem cb_src (h : BitVec 3) (n : BitVec 4) : (2#3 ++ h ++ n).extractLsb' 7 3 = 2#3 ∧
    (2#3 ++ h ++ n).extractLsb' 4 3 = h ∧ (2#3 ++ h ++ n).extractLsb' 0 4 = n ∧ (2#3 ++ h ++ n) ≠ 0#10 := by
  revert h n; decide

theorem cb_dst (c : BitVec 4) (h n : BitVec 3) : (c ++ h ++ n).extractLsb' 6 4 = c ∧
    (c ++ h ++ n).extractLsb' 3 3 = h ∧ (c ++ h ++ n).extractLsb' 0 3 = n := by
  revert c h n; decide

theorem cbRead_n {g : BitVec 12} {s d : BitVec 10} : (mvWord g s d).extractLsb' 14 3 = s.extractLsb' 4 3 ∧
    (mvWord g s d).extractLsb' 10 4 = s.extractLsb' 0 4 :=
  ⟨src_field g s d 14 3 (by decide) (by decide), src_field g s d 10 4 (by decide) (by decide)⟩

theorem RoundTrip.cbRead (k : BitVec 4) (g : BitVec 12) (h : BitVec 3) (n : BitVec 4) (d : BitVec 10) :
    RoundTrip.Statement (.cbRead k g h n d) := by
  intro pm kk ww he hw
  obtain ⟨rfl, rfl⟩ := enc_inv he
  have hw' : (guardOk pm g && (if isV k then dstVOk d else k == 8 && d == 0x200)) = true := hw
  simp only [Bool.and_eq_true] at hw'
  obtain ⟨c1, c2, c3, c4⟩ := cb_src h n
  have hn : mvWord g (2#3 ++ h ++ n) d ≠ 0 := mvWord_ne (.inr (.inl c4))
  have hm := hw'.2
  by_cases hv : isV k = true
  · rw [if_pos hv] at hm
    have hd := dstV_small d hm
    exact slotV hv hn (by
      simp [rawV, wGuard_mvWord, wSrc_mvWord, wDst_mvWord, decodeVTrig_none hd.1, dst_top, buf_src, hd.2, cbRead_n.1,
        cbRead_n.2, c1, c2, c3]) hw
  · rw [if_neg hv] at hm
    simp only [Bool.and_eq_true, beq_iff_eq] at hm
    obtain ⟨rfl, rfl⟩ := hm
    exact slotM hn (by
      have ht (s : BitVec 10) : decodeMTrig 512 g s = none := rfl
      simp [rawM, wGuard_mvWord, wSrc_mvWord, wDst_mvWord, ht, dst_top, buf_src, cbRead_n.1, cbRead_n.2, c1, c2, c3]) hw

theorem cbWriteM_none (g : BitVec 12) (s : BitVec 10) : ∀ h n : BitVec 3, decodeMTrig (9#4 ++ h ++ n).toNat g s = none := by
  intro h n
  rcases cases3 h with rfl | rfl | rfl | rfl | rfl | rfl | rfl | rfl <;>
    rcases cases3 n with rfl | rfl | rfl | rfl | rfl | rfl | rfl | rfl <;> rfl

theorem RoundTrip.cbWriteV (k : BitVec 4) (g : BitVec 12) (s : BitVec 10) (h : BitVec 3) (n : BitVec 3) :
    RoundTrip.Statement (.cbWriteV k g s h n) := by
  intro pm kk ww he hw
  obtain ⟨rfl, rfl⟩ := enc_inv he
  have hk : isV k = true := wf_slot hw
  obtain ⟨c1, c2, c3⟩ := cb_dst 11#4 h n
  have hn : mvWord g s (11#4 ++ h ++ n) ≠ 0 := ne_zero_of 6 (l := 4) (by rw [dst_top, c1]; decide)
  exact slotV hk hn (by
    have e1 := dst_field g s (11#4 ++ h ++ n) 3 3 (by decide)
    have e2 := dst_field g s (11#4 ++ h ++ n) 0 3 (by decide)
    simp [rawV, wGuard_mvWord, wSrc_mvWord, wDst_mvWord, decodeVTrig_none (cbV_small h n).1, dst_top, c1, e1, e2, c2, c3]) hw

theorem RoundTrip.cbWriteM (g : BitVec 12) (s : BitVec 10) (h : BitVec 3) (n : BitVec 3) :
    RoundTrip.Statement (.cbWriteM g s h n) := by
  intro pm kk ww he hw
  obtain ⟨rfl, rfl⟩ := enc_inv he
  obtain ⟨c1, c2, c3⟩ := cb_dst 9#4 h n
  have hn : mvWord g s (9#4 ++ h ++ n) ≠ 0 := ne_zero_of 6 (l := 4) (by rw [dst_top, c1]; decide)
  exact slotM hn (by
    have e1 := dst_field g s (9#4 ++ h ++ n) 3 3 (by decide)
    have e2 := dst_field g s (9#4 ++ h ++ n) 0 3 (by decide)
    simp [rawM, wGuard_mvWord, wSrc_mvWord, wDst_mvWord, cbWriteM_none, dst_top, c1, e1, e2, c2, c3]) hw

theorem RoundTrip.aluMov (k : BitVec 4) (g : BitVec 12) (s : BitVec 10) (u : BitVec 1) : RoundTrip.Statement (.aluMov k g s u) := by
  intro pm kk ww he hw
  obtain ⟨rfl, rfl⟩ := enc_inv he
  have hk : isS k = true := wf_slot hw
  rcases cases1 u with rfl | rfl <;> exact trigSlotS hk (by decide) rfl hw

theorem RoundTrip.aluAdd (k : BitVec 4) (g : BitVec 12) (s : BitVec 10) (u : BitVec 1) : RoundTrip.Statement (.aluAdd k g s u) := by
  intro pm kk ww he hw
  obtain ⟨rfl, rfl⟩ := enc_inv he
  have hk : isS k = true := wf_slot hw
  rcases cases1 u with rfl | rfl <;> exact trigSlotS hk (by decide) rfl hw

theorem RoundTrip.aluSub (k : BitVec 4) (g : BitVec 12) (s : BitVec 10) (u : BitVec 1) : RoundTrip.Statement (.aluSub k g s u) := by
  intro pm kk ww he hw
  obtain ⟨rfl, rfl⟩ := enc_inv he
  have hk : isS k = true := wf_slot hw
  rcases cases1 u with rfl | rfl <;> exact trigSlotS hk (by decide) rfl hw

theorem RoundTrip.aluAdds1 (k : BitVec 4) (g : BitVec 12) (s : BitVec 10) (u : BitVec 1) : RoundTrip.Statement (.aluAdds1 k g s u) := by
  intro pm kk ww he hw
  obtain ⟨rfl, rfl⟩ := enc_inv he
  have hk : isS k = true := wf_slot hw
  rcases cases1 u with rfl | rfl <;> exact trigSlotS hk (by decide) rfl hw

theorem RoundTrip.aluAdds2 (k : BitVec 4) (g : BitVec 12) (s : BitVec 10) (u : BitVec 1) : RoundTrip.Statement (.aluAdds2 k g s u) := by
  intro pm kk ww he hw
  obtain ⟨rfl, rfl⟩ := enc_inv he
  have hk : isS k = true := wf_slot hw
  rcases cases1 u with rfl | rfl <;> exact trigSlotS hk (by decide) rfl hw

theorem RoundTrip.aluAdds3 (k : BitVec 4) (g : BitVec 12) (s : BitVec 10) (u : BitVec 1) : RoundTrip.Statement (.aluAdds3 k g s u) := by
  intro pm kk ww he hw
  obtain ⟨rfl, rfl⟩ := enc_inv he
  have hk : isS k = true := wf_slot hw
  rcases cases1 u with rfl | rfl <;> exact trigSlotS hk (by decide) rfl hw

theorem RoundTrip.aluAnd (k : BitVec 4) (g : BitVec 12) (s : BitVec 10) (u : BitVec 1) : RoundTrip.Statement (.aluAnd k g s u) := by
  intro pm kk ww he hw
  obtain ⟨rfl, rfl⟩ := enc_inv he
  have hk : isS k = true := wf_slot hw
  rcases cases1 u with rfl | rfl <;> exact trigSlotS hk (by decide) rfl hw

theorem RoundTrip.aluOr (k : BitVec 4) (g : BitVec 12) (s : BitVec 10) (u : BitVec 1) : RoundTrip.Statement (.aluOr k g s u) := by
  intro pm kk ww he hw
  obtain ⟨rfl, rfl⟩ := enc_inv he
  have hk : isS k = true := wf_slot hw
  rcases cases1 u with rfl | rfl <;> exact trigSlotS hk (by decide) rfl hw

theorem RoundTrip.aluXor (k : BitVec 4) (g : BitVec 12) (s : BitVec 10) (u : BitVec 1) : RoundTrip.Statement (.aluXor k g s u) := by
  intro pm kk ww he hw
  obtain ⟨rfl, rfl⟩ := enc_inv he
  have hk : isS k = true := wf_slot hw
  rcases cases1 u with rfl | rfl <;> exact trigSlotS hk (by decide) rfl hw

theorem RoundTrip.aluAndn (k : BitVec 4) (g : BitVec 12) (s : BitVec 10) (u : BitVec 1) : RoundTrip.Statement (.aluAndn k g s u) := by
  intro pm kk ww he hw
  obtain ⟨rfl, rfl⟩ := enc_inv he
  have hk : isS k = true := wf_slot hw
  rcases cases1 u with rfl | rfl <;> exact trigSlotS hk (by decide) rfl hw

theorem RoundTrip.aluShl (k : BitVec 4) (g : BitVec 12) (s : BitVec 10) (u : BitVec 1) : RoundTrip.Statement (.aluShl k g s u) := by
  intro pm kk ww he hw
  obtain ⟨rfl, rfl⟩ := enc_inv he
  have hk : isS k = true := wf_slot hw
  rcases cases1 u with rfl | rfl <;> exact trigSlotS hk (by decide) rfl hw

theorem RoundTrip.aluShr (k : BitVec 4) (g : BitVec 12) (s : BitVec 10) (u : BitVec 1) : RoundTrip.Statement (.aluShr k g s u) := by
  intro pm kk ww he hw
  obtain ⟨rfl, rfl⟩ := enc_inv he
  have hk : isS k = true := wf_slot hw
  rcases cases1 u with rfl | rfl <;> exact trigSlotS hk (by decide) rfl hw

theorem RoundTrip.aluSar (k : BitVec 4) (g : BitVec 12) (s : BitVec 10) (u : BitVec 1) : RoundTrip.Statement (.aluSar k g s u) := by
  intro pm kk ww he hw
  obtain ⟨rfl, rfl⟩ := enc_inv he
  have hk : isS k = true := wf_slot hw
  rcases cases1 u with rfl | rfl <;> exact trigSlotS hk (by decide) rfl hw

theorem RoundTrip.aluRol (k : BitVec 4) (g : BitVec 12) (s : BitVec 10) (u : BitVec 1) : RoundTrip.Statement (.aluRol k g s u) := by
  intro pm kk ww he hw
  obtain ⟨rfl, rfl⟩ := enc_inv he
  have hk : isS k = true := wf_slot hw
  rcases cases1 u with rfl | rfl <;> exact trigSlotS hk (by decide) rfl hw

theorem RoundTrip.aluRor (k : BitVec 4) (g : BitVec 12) (s : BitVec 10) (u : BitVec 1) : RoundTrip.Statement (.aluRor k g s u) := by
  intro pm kk ww he hw
  obtain ⟨rfl, rfl⟩ := enc_inv he
  have hk : isS k = true := wf_slot hw
  rcases cases1 u with rfl | rfl <;> exact trigSlotS hk (by decide) rfl hw

theorem RoundTrip.aluMin (k : BitVec 4) (g : BitVec 12) (s : BitVec 10) (u : BitVec 1) : RoundTrip.Statement (.aluMin k g s u) := by
  intro pm kk ww he hw
  obtain ⟨rfl, rfl⟩ := enc_inv he
  have hk : isS k = true := wf_slot hw
  rcases cases1 u with rfl | rfl <;> exact trigSlotS hk (by decide) rfl hw

theorem RoundTrip.aluMax (k : BitVec 4) (g : BitVec 12) (s : BitVec 10) (u : BitVec 1) : RoundTrip.Statement (.aluMax k g s u) := by
  intro pm kk ww he hw
  obtain ⟨rfl, rfl⟩ := enc_inv he
  have hk : isS k = true := wf_slot hw
  rcases cases1 u with rfl | rfl <;> exact trigSlotS hk (by decide) rfl hw

theorem RoundTrip.aluMinn (k : BitVec 4) (g : BitVec 12) (s : BitVec 10) (u : BitVec 1) : RoundTrip.Statement (.aluMinn k g s u) := by
  intro pm kk ww he hw
  obtain ⟨rfl, rfl⟩ := enc_inv he
  have hk : isS k = true := wf_slot hw
  rcases cases1 u with rfl | rfl <;> exact trigSlotS hk (by decide) rfl hw

theorem RoundTrip.aluMaxn (k : BitVec 4) (g : BitVec 12) (s : BitVec 10) (u : BitVec 1) : RoundTrip.Statement (.aluMaxn k g s u) := by
  intro pm kk ww he hw
  obtain ⟨rfl, rfl⟩ := enc_inv he
  have hk : isS k = true := wf_slot hw
  rcases cases1 u with rfl | rfl <;> exact trigSlotS hk (by decide) rfl hw

theorem RoundTrip.aluSext (k : BitVec 4) (g : BitVec 12) (s : BitVec 10) (u : BitVec 1) : RoundTrip.Statement (.aluSext k g s u) := by
  intro pm kk ww he hw
  obtain ⟨rfl, rfl⟩ := enc_inv he
  have hk : isS k = true := wf_slot hw
  rcases cases1 u with rfl | rfl <;> exact trigSlotS hk (by decide) rfl hw

theorem RoundTrip.aluZext (k : BitVec 4) (g : BitVec 12) (s : BitVec 10) (u : BitVec 1) : RoundTrip.Statement (.aluZext k g s u) := by
  intro pm kk ww he hw
  obtain ⟨rfl, rfl⟩ := enc_inv he
  have hk : isS k = true := wf_slot hw
  rcases cases1 u with rfl | rfl <;> exact trigSlotS hk (by decide) rfl hw

theorem RoundTrip.aluBfx (k : BitVec 4) (g : BitVec 12) (s : BitVec 10) (u : BitVec 1) : RoundTrip.Statement (.aluBfx k g s u) := by
  intro pm kk ww he hw
  obtain ⟨rfl, rfl⟩ := enc_inv he
  have hk : isS k = true := wf_slot hw
  rcases cases1 u with rfl | rfl <;> exact trigSlotS hk (by decide) rfl hw

theorem RoundTrip.aluBfxn (k : BitVec 4) (g : BitVec 12) (s : BitVec 10) (u : BitVec 1) : RoundTrip.Statement (.aluBfxn k g s u) := by
  intro pm kk ww he hw
  obtain ⟨rfl, rfl⟩ := enc_inv he
  have hk : isS k = true := wf_slot hw
  rcases cases1 u with rfl | rfl <;> exact trigSlotS hk (by decide) rfl hw

theorem RoundTrip.aluClz (k : BitVec 4) (g : BitVec 12) (s : BitVec 10) (u : BitVec 1) : RoundTrip.Statement (.aluClz k g s u) := by
  intro pm kk ww he hw
  obtain ⟨rfl, rfl⟩ := enc_inv he
  have hk : isS k = true := wf_slot hw
  rcases cases1 u with rfl | rfl <;> exact trigSlotS hk (by decide) rfl hw

theorem RoundTrip.aluCtz (k : BitVec 4) (g : BitVec 12) (s : BitVec 10) (u : BitVec 1) : RoundTrip.Statement (.aluCtz k g s u) := by
  intro pm kk ww he hw
  obtain ⟨rfl, rfl⟩ := enc_inv he
  have hk : isS k = true := wf_slot hw
  rcases cases1 u with rfl | rfl <;> exact trigSlotS hk (by decide) rfl hw

theorem RoundTrip.aluPopc (k : BitVec 4) (g : BitVec 12) (s : BitVec 10) (u : BitVec 1) : RoundTrip.Statement (.aluPopc k g s u) := by
  intro pm kk ww he hw
  obtain ⟨rfl, rfl⟩ := enc_inv he
  have hk : isS k = true := wf_slot hw
  rcases cases1 u with rfl | rfl <;> exact trigSlotS hk (by decide) rfl hw

theorem RoundTrip.aluBswap (k : BitVec 4) (g : BitVec 12) (s : BitVec 10) (u : BitVec 1) : RoundTrip.Statement (.aluBswap k g s u) := by
  intro pm kk ww he hw
  obtain ⟨rfl, rfl⟩ := enc_inv he
  have hk : isS k = true := wf_slot hw
  rcases cases1 u with rfl | rfl <;> exact trigSlotS hk (by decide) rfl hw

theorem RoundTrip.mulMul (k : BitVec 4) (g : BitVec 12) (s : BitVec 10) : RoundTrip.Statement (.mulMul k g s) := by
  intro pm kk ww he hw
  obtain ⟨rfl, rfl⟩ := enc_inv he
  have hk : isS k = true := wf_slot hw
  exact trigSlotS hk (by decide) (by simp [decodeSTrig, decodeMul]) hw

theorem RoundTrip.mulMulh (k : BitVec 4) (g : BitVec 12) (s : BitVec 10) : RoundTrip.Statement (.mulMulh k g s) := by
  intro pm kk ww he hw
  obtain ⟨rfl, rfl⟩ := enc_inv he
  have hk : isS k = true := wf_slot hw
  exact trigSlotS hk (by decide) (by simp [decodeSTrig, decodeMul]) hw

theorem RoundTrip.mulMulhn (k : BitVec 4) (g : BitVec 12) (s : BitVec 10) : RoundTrip.Statement (.mulMulhn k g s) := by
  intro pm kk ww he hw
  obtain ⟨rfl, rfl⟩ := enc_inv he
  have hk : isS k = true := wf_slot hw
  exact trigSlotS hk (by decide) (by simp [decodeSTrig, decodeMul]) hw

theorem RoundTrip.mulMulhsn (k : BitVec 4) (g : BitVec 12) (s : BitVec 10) : RoundTrip.Statement (.mulMulhsn k g s) := by
  intro pm kk ww he hw
  obtain ⟨rfl, rfl⟩ := enc_inv he
  have hk : isS k = true := wf_slot hw
  exact trigSlotS hk (by decide) (by simp [decodeSTrig, decodeMul]) hw

theorem RoundTrip.mulDinit (k : BitVec 4) (g : BitVec 12) (s : BitVec 10) : RoundTrip.Statement (.mulDinit k g s) := by
  intro pm kk ww he hw
  obtain ⟨rfl, rfl⟩ := enc_inv he
  have hk : isS k = true := wf_slot hw
  exact trigSlotS hk (by decide) (by simp [decodeSTrig, decodeMul]) hw

theorem RoundTrip.mulDinitn (k : BitVec 4) (g : BitVec 12) (s : BitVec 10) : RoundTrip.Statement (.mulDinitn k g s) := by
  intro pm kk ww he hw
  obtain ⟨rfl, rfl⟩ := enc_inv he
  have hk : isS k = true := wf_slot hw
  exact trigSlotS hk (by decide) (by simp [decodeSTrig, decodeMul]) hw

theorem RoundTrip.mulDstep (k : BitVec 4) (g : BitVec 12) (s : BitVec 10) : RoundTrip.Statement (.mulDstep k g s) := by
  intro pm kk ww he hw
  obtain ⟨rfl, rfl⟩ := enc_inv he
  have hk : isS k = true := wf_slot hw
  exact trigSlotS hk (by decide) (by simp [decodeSTrig, decodeMul]) hw

theorem RoundTrip.mulDfix (k : BitVec 4) (g : BitVec 12) (s : BitVec 10) : RoundTrip.Statement (.mulDfix k g s) := by
  intro pm kk ww he hw
  obtain ⟨rfl, rfl⟩ := enc_inv he
  have hk : isS k = true := wf_slot hw
  exact trigSlotS hk (by decide) (by simp [decodeSTrig, decodeMul]) hw

theorem RoundTrip.cmpEq (k : BitVec 4) (g : BitVec 12) (s : BitVec 10) : RoundTrip.Statement (.cmpEq k g s) := by
  intro pm kk ww he hw
  obtain ⟨rfl, rfl⟩ := enc_inv he
  have hk : isS k = true := wf_slot hw
  exact trigSlotS hk (by decide) (by simp [decodeSTrig, decodeCmp]) hw

theorem RoundTrip.cmpNe (k : BitVec 4) (g : BitVec 12) (s : BitVec 10) : RoundTrip.Statement (.cmpNe k g s) := by
  intro pm kk ww he hw
  obtain ⟨rfl, rfl⟩ := enc_inv he
  have hk : isS k = true := wf_slot hw
  exact trigSlotS hk (by decide) (by simp [decodeSTrig, decodeCmp]) hw

theorem RoundTrip.cmpLt (k : BitVec 4) (g : BitVec 12) (s : BitVec 10) : RoundTrip.Statement (.cmpLt k g s) := by
  intro pm kk ww he hw
  obtain ⟨rfl, rfl⟩ := enc_inv he
  have hk : isS k = true := wf_slot hw
  exact trigSlotS hk (by decide) (by simp [decodeSTrig, decodeCmp]) hw

theorem RoundTrip.cmpLe (k : BitVec 4) (g : BitVec 12) (s : BitVec 10) : RoundTrip.Statement (.cmpLe k g s) := by
  intro pm kk ww he hw
  obtain ⟨rfl, rfl⟩ := enc_inv he
  have hk : isS k = true := wf_slot hw
  exact trigSlotS hk (by decide) (by simp [decodeSTrig, decodeCmp]) hw

theorem RoundTrip.cmpGt (k : BitVec 4) (g : BitVec 12) (s : BitVec 10) : RoundTrip.Statement (.cmpGt k g s) := by
  intro pm kk ww he hw
  obtain ⟨rfl, rfl⟩ := enc_inv he
  have hk : isS k = true := wf_slot hw
  exact trigSlotS hk (by decide) (by simp [decodeSTrig, decodeCmp]) hw

theorem RoundTrip.cmpGe (k : BitVec 4) (g : BitVec 12) (s : BitVec 10) : RoundTrip.Statement (.cmpGe k g s) := by
  intro pm kk ww he hw
  obtain ⟨rfl, rfl⟩ := enc_inv he
  have hk : isS k = true := wf_slot hw
  exact trigSlotS hk (by decide) (by simp [decodeSTrig, decodeCmp]) hw

theorem RoundTrip.cmpLtn (k : BitVec 4) (g : BitVec 12) (s : BitVec 10) : RoundTrip.Statement (.cmpLtn k g s) := by
  intro pm kk ww he hw
  obtain ⟨rfl, rfl⟩ := enc_inv he
  have hk : isS k = true := wf_slot hw
  exact trigSlotS hk (by decide) (by simp [decodeSTrig, decodeCmp]) hw

theorem RoundTrip.cmpLen (k : BitVec 4) (g : BitVec 12) (s : BitVec 10) : RoundTrip.Statement (.cmpLen k g s) := by
  intro pm kk ww he hw
  obtain ⟨rfl, rfl⟩ := enc_inv he
  have hk : isS k = true := wf_slot hw
  exact trigSlotS hk (by decide) (by simp [decodeSTrig, decodeCmp]) hw

theorem RoundTrip.cmpGtn (k : BitVec 4) (g : BitVec 12) (s : BitVec 10) : RoundTrip.Statement (.cmpGtn k g s) := by
  intro pm kk ww he hw
  obtain ⟨rfl, rfl⟩ := enc_inv he
  have hk : isS k = true := wf_slot hw
  exact trigSlotS hk (by decide) (by simp [decodeSTrig, decodeCmp]) hw

theorem RoundTrip.cmpGen (k : BitVec 4) (g : BitVec 12) (s : BitVec 10) : RoundTrip.Statement (.cmpGen k g s) := by
  intro pm kk ww he hw
  obtain ⟨rfl, rfl⟩ := enc_inv he
  have hk : isS k = true := wf_slot hw
  exact trigSlotS hk (by decide) (by simp [decodeSTrig, decodeCmp]) hw

theorem RoundTrip.cmpTbit (k : BitVec 4) (g : BitVec 12) (s : BitVec 10) : RoundTrip.Statement (.cmpTbit k g s) := by
  intro pm kk ww he hw
  obtain ⟨rfl, rfl⟩ := enc_inv he
  have hk : isS k = true := wf_slot hw
  exact trigSlotS hk (by decide) (by simp [decodeSTrig, decodeCmp]) hw

theorem RoundTrip.cmpTany (k : BitVec 4) (g : BitVec 12) (s : BitVec 10) : RoundTrip.Statement (.cmpTany k g s) := by
  intro pm kk ww he hw
  obtain ⟨rfl, rfl⟩ := enc_inv he
  have hk : isS k = true := wf_slot hw
  exact trigSlotS hk (by decide) (by simp [decodeSTrig, decodeCmp]) hw

theorem RoundTrip.dictLd (k : BitVec 4) (g : BitVec 12) (s : BitVec 10) : RoundTrip.Statement (.dictLd k g s) := by
  intro pm kk ww he hw
  obtain ⟨rfl, rfl⟩ := enc_inv he
  have hk : isS k = true := wf_slot hw
  exact trigSlotS hk (by decide) (by simp [decodeSTrig, decodeSys]) hw

theorem RoundTrip.scanOut (k : BitVec 4) (g : BitVec 12) (s : BitVec 10) : RoundTrip.Statement (.scanOut k g s) := by
  intro pm kk ww he hw
  obtain ⟨rfl, rfl⟩ := enc_inv he
  have hk : isS k = true := wf_slot hw
  exact trigSlotS hk (by decide) (by simp [decodeSTrig, decodeSys]) hw

theorem RoundTrip.scanIn (k : BitVec 4) (g : BitVec 12) (s : BitVec 10) : RoundTrip.Statement (.scanIn k g s) := by
  intro pm kk ww he hw
  obtain ⟨rfl, rfl⟩ := enc_inv he
  have hk : isS k = true := wf_slot hw
  exact trigSlotS hk (by decide) (by simp [decodeSTrig, decodeSys]) hw

theorem RoundTrip.cellFrz (k : BitVec 4) (g : BitVec 12) (s : BitVec 10) : RoundTrip.Statement (.cellFrz k g s) := by
  intro pm kk ww he hw
  obtain ⟨rfl, rfl⟩ := enc_inv he
  have hk : isS k = true := wf_slot hw
  exact trigSlotS hk (by decide) (by simp [decodeSTrig, decodeSys]) hw

theorem RoundTrip.cellRsm (k : BitVec 4) (g : BitVec 12) (s : BitVec 10) : RoundTrip.Statement (.cellRsm k g s) := by
  intro pm kk ww he hw
  obtain ⟨rfl, rfl⟩ := enc_inv he
  have hk : isS k = true := wf_slot hw
  exact trigSlotS hk (by decide) (by simp [decodeSTrig, decodeSys]) hw

theorem RoundTrip.migSwap (k : BitVec 4) (g : BitVec 12) (s : BitVec 10) : RoundTrip.Statement (.migSwap k g s) := by
  intro pm kk ww he hw
  obtain ⟨rfl, rfl⟩ := enc_inv he
  have hk : isS k = true := wf_slot hw
  exact trigSlotS hk (by decide) (by simp [decodeSTrig, decodeSys]) hw

theorem RoundTrip.cosWr (k : BitVec 4) (g : BitVec 12) (s : BitVec 10) : RoundTrip.Statement (.cosWr k g s) := by
  intro pm kk ww he hw
  obtain ⟨rfl, rfl⟩ := enc_inv he
  have hk : isS k = true := wf_slot hw
  exact trigSlotS hk (by decide) (by simp [decodeSTrig, decodeSys]) hw

theorem RoundTrip.ownWr (k : BitVec 4) (g : BitVec 12) (s : BitVec 10) : RoundTrip.Statement (.ownWr k g s) := by
  intro pm kk ww he hw
  obtain ⟨rfl, rfl⟩ := enc_inv he
  have hk : isS k = true := wf_slot hw
  exact trigSlotS hk (by decide) (by simp [decodeSTrig, decodeSys]) hw

theorem RoundTrip.vxAdd (k : BitVec 4) (g : BitVec 12) (s : BitVec 10) (u : BitVec 1) (w : BitVec 2) : RoundTrip.Statement (.vxAdd k g s u w) := by
  intro pm kk ww he hw
  obtain ⟨rfl, rfl⟩ := enc_inv he
  have hk : isV k = true := wf_slot hw
  rcases cases1 u with rfl | rfl <;> rcases cases2 w with rfl | rfl | rfl | rfl <;> exact trigSlotV hk (by decide) rfl hw

theorem RoundTrip.vxSub (k : BitVec 4) (g : BitVec 12) (s : BitVec 10) (u : BitVec 1) (w : BitVec 2) : RoundTrip.Statement (.vxSub k g s u w) := by
  intro pm kk ww he hw
  obtain ⟨rfl, rfl⟩ := enc_inv he
  have hk : isV k = true := wf_slot hw
  rcases cases1 u with rfl | rfl <;> rcases cases2 w with rfl | rfl | rfl | rfl <;> exact trigSlotV hk (by decide) rfl hw

theorem RoundTrip.vxAdds (k : BitVec 4) (g : BitVec 12) (s : BitVec 10) (u : BitVec 1) (w : BitVec 2) : RoundTrip.Statement (.vxAdds k g s u w) := by
  intro pm kk ww he hw
  obtain ⟨rfl, rfl⟩ := enc_inv he
  have hk : isV k = true := wf_slot hw
  rcases cases1 u with rfl | rfl <;> rcases cases2 w with rfl | rfl | rfl | rfl <;> exact trigSlotV hk (by decide) rfl hw

theorem RoundTrip.vxAddsn (k : BitVec 4) (g : BitVec 12) (s : BitVec 10) (u : BitVec 1) (w : BitVec 2) : RoundTrip.Statement (.vxAddsn k g s u w) := by
  intro pm kk ww he hw
  obtain ⟨rfl, rfl⟩ := enc_inv he
  have hk : isV k = true := wf_slot hw
  rcases cases1 u with rfl | rfl <;> rcases cases2 w with rfl | rfl | rfl | rfl <;> exact trigSlotV hk (by decide) rfl hw

theorem RoundTrip.vxSubs (k : BitVec 4) (g : BitVec 12) (s : BitVec 10) (u : BitVec 1) (w : BitVec 2) : RoundTrip.Statement (.vxSubs k g s u w) := by
  intro pm kk ww he hw
  obtain ⟨rfl, rfl⟩ := enc_inv he
  have hk : isV k = true := wf_slot hw
  rcases cases1 u with rfl | rfl <;> rcases cases2 w with rfl | rfl | rfl | rfl <;> exact trigSlotV hk (by decide) rfl hw

theorem RoundTrip.vxSubsn (k : BitVec 4) (g : BitVec 12) (s : BitVec 10) (u : BitVec 1) (w : BitVec 2) : RoundTrip.Statement (.vxSubsn k g s u w) := by
  intro pm kk ww he hw
  obtain ⟨rfl, rfl⟩ := enc_inv he
  have hk : isV k = true := wf_slot hw
  rcases cases1 u with rfl | rfl <;> rcases cases2 w with rfl | rfl | rfl | rfl <;> exact trigSlotV hk (by decide) rfl hw

theorem RoundTrip.vxMul (k : BitVec 4) (g : BitVec 12) (s : BitVec 10) (u : BitVec 1) (w : BitVec 2) : RoundTrip.Statement (.vxMul k g s u w) := by
  intro pm kk ww he hw
  obtain ⟨rfl, rfl⟩ := enc_inv he
  have hk : isV k = true := wf_slot hw
  rcases cases1 u with rfl | rfl <;> rcases cases2 w with rfl | rfl | rfl | rfl <;> exact trigSlotV hk (by decide) rfl hw

theorem RoundTrip.vxMin (k : BitVec 4) (g : BitVec 12) (s : BitVec 10) (u : BitVec 1) (w : BitVec 2) : RoundTrip.Statement (.vxMin k g s u w) := by
  intro pm kk ww he hw
  obtain ⟨rfl, rfl⟩ := enc_inv he
  have hk : isV k = true := wf_slot hw
  rcases cases1 u with rfl | rfl <;> rcases cases2 w with rfl | rfl | rfl | rfl <;> exact trigSlotV hk (by decide) rfl hw

theorem RoundTrip.vxMax (k : BitVec 4) (g : BitVec 12) (s : BitVec 10) (u : BitVec 1) (w : BitVec 2) : RoundTrip.Statement (.vxMax k g s u w) := by
  intro pm kk ww he hw
  obtain ⟨rfl, rfl⟩ := enc_inv he
  have hk : isV k = true := wf_slot hw
  rcases cases1 u with rfl | rfl <;> rcases cases2 w with rfl | rfl | rfl | rfl <;> exact trigSlotV hk (by decide) rfl hw

theorem RoundTrip.vxAnd (k : BitVec 4) (g : BitVec 12) (s : BitVec 10) (u : BitVec 1) : RoundTrip.Statement (.vxAnd k g s u) := by
  intro pm kk ww he hw
  obtain ⟨rfl, rfl⟩ := enc_inv he
  have hk : isV k = true := wf_slot hw
  rcases cases1 u with rfl | rfl <;> exact trigSlotV hk (by decide) rfl hw

theorem RoundTrip.vxOr (k : BitVec 4) (g : BitVec 12) (s : BitVec 10) (u : BitVec 1) : RoundTrip.Statement (.vxOr k g s u) := by
  intro pm kk ww he hw
  obtain ⟨rfl, rfl⟩ := enc_inv he
  have hk : isV k = true := wf_slot hw
  rcases cases1 u with rfl | rfl <;> exact trigSlotV hk (by decide) rfl hw

theorem RoundTrip.vxXor (k : BitVec 4) (g : BitVec 12) (s : BitVec 10) (u : BitVec 1) : RoundTrip.Statement (.vxXor k g s u) := by
  intro pm kk ww he hw
  obtain ⟨rfl, rfl⟩ := enc_inv he
  have hk : isV k = true := wf_slot hw
  rcases cases1 u with rfl | rfl <;> exact trigSlotV hk (by decide) rfl hw

theorem RoundTrip.vxAndn (k : BitVec 4) (g : BitVec 12) (s : BitVec 10) (u : BitVec 1) : RoundTrip.Statement (.vxAndn k g s u) := by
  intro pm kk ww he hw
  obtain ⟨rfl, rfl⟩ := enc_inv he
  have hk : isV k = true := wf_slot hw
  rcases cases1 u with rfl | rfl <;> exact trigSlotV hk (by decide) rfl hw

theorem RoundTrip.vxShl (k : BitVec 4) (g : BitVec 12) (s : BitVec 10) (u : BitVec 1) (w : BitVec 2) : RoundTrip.Statement (.vxShl k g s u w) := by
  intro pm kk ww he hw
  obtain ⟨rfl, rfl⟩ := enc_inv he
  have hk : isV k = true := wf_slot hw
  rcases cases1 u with rfl | rfl <;> rcases cases2 w with rfl | rfl | rfl | rfl <;> exact trigSlotV hk (by decide) rfl hw

theorem RoundTrip.vxShr (k : BitVec 4) (g : BitVec 12) (s : BitVec 10) (u : BitVec 1) (w : BitVec 2) : RoundTrip.Statement (.vxShr k g s u w) := by
  intro pm kk ww he hw
  obtain ⟨rfl, rfl⟩ := enc_inv he
  have hk : isV k = true := wf_slot hw
  rcases cases1 u with rfl | rfl <;> rcases cases2 w with rfl | rfl | rfl | rfl <;> exact trigSlotV hk (by decide) rfl hw

theorem RoundTrip.vxSar (k : BitVec 4) (g : BitVec 12) (s : BitVec 10) (u : BitVec 1) (w : BitVec 2) : RoundTrip.Statement (.vxSar k g s u w) := by
  intro pm kk ww he hw
  obtain ⟨rfl, rfl⟩ := enc_inv he
  have hk : isV k = true := wf_slot hw
  rcases cases1 u with rfl | rfl <;> rcases cases2 w with rfl | rfl | rfl | rfl <;> exact trigSlotV hk (by decide) rfl hw

theorem RoundTrip.vxCeq (k : BitVec 4) (g : BitVec 12) (s : BitVec 10) (u : BitVec 1) (w : BitVec 2) : RoundTrip.Statement (.vxCeq k g s u w) := by
  intro pm kk ww he hw
  obtain ⟨rfl, rfl⟩ := enc_inv he
  have hk : isV k = true := wf_slot hw
  rcases cases1 u with rfl | rfl <;> rcases cases2 w with rfl | rfl | rfl | rfl <;> exact trigSlotV hk (by decide) rfl hw

theorem RoundTrip.vxClt (k : BitVec 4) (g : BitVec 12) (s : BitVec 10) (u : BitVec 1) (w : BitVec 2) : RoundTrip.Statement (.vxClt k g s u w) := by
  intro pm kk ww he hw
  obtain ⟨rfl, rfl⟩ := enc_inv he
  have hk : isV k = true := wf_slot hw
  rcases cases1 u with rfl | rfl <;> rcases cases2 w with rfl | rfl | rfl | rfl <;> exact trigSlotV hk (by decide) rfl hw

theorem RoundTrip.vxCltn (k : BitVec 4) (g : BitVec 12) (s : BitVec 10) (u : BitVec 1) (w : BitVec 2) : RoundTrip.Statement (.vxCltn k g s u w) := by
  intro pm kk ww he hw
  obtain ⟨rfl, rfl⟩ := enc_inv he
  have hk : isV k = true := wf_slot hw
  rcases cases1 u with rfl | rfl <;> rcases cases2 w with rfl | rfl | rfl | rfl <;> exact trigSlotV hk (by decide) rfl hw

theorem RoundTrip.vfAdd (k : BitVec 4) (g : BitVec 12) (s : BitVec 10) (f : BitVec 2) : RoundTrip.Statement (.vfAdd k g s f) := by
  intro pm kk ww he hw
  obtain ⟨rfl, rfl⟩ := enc_inv he
  have hk : isV k = true := wf_slot hw
  rcases cases2 f with rfl | rfl | rfl | rfl <;> exact trigSlotV hk (by decide) rfl hw

theorem RoundTrip.vfSub (k : BitVec 4) (g : BitVec 12) (s : BitVec 10) (f : BitVec 2) : RoundTrip.Statement (.vfSub k g s f) := by
  intro pm kk ww he hw
  obtain ⟨rfl, rfl⟩ := enc_inv he
  have hk : isV k = true := wf_slot hw
  rcases cases2 f with rfl | rfl | rfl | rfl <;> exact trigSlotV hk (by decide) rfl hw

theorem RoundTrip.vfMul (k : BitVec 4) (g : BitVec 12) (s : BitVec 10) (f : BitVec 2) : RoundTrip.Statement (.vfMul k g s f) := by
  intro pm kk ww he hw
  obtain ⟨rfl, rfl⟩ := enc_inv he
  have hk : isV k = true := wf_slot hw
  rcases cases2 f with rfl | rfl | rfl | rfl <;> exact trigSlotV hk (by decide) rfl hw

theorem RoundTrip.vfFma (k : BitVec 4) (g : BitVec 12) (s : BitVec 10) (f : BitVec 2) : RoundTrip.Statement (.vfFma k g s f) := by
  intro pm kk ww he hw
  obtain ⟨rfl, rfl⟩ := enc_inv he
  have hk : isV k = true := wf_slot hw
  rcases cases2 f with rfl | rfl | rfl | rfl <;> exact trigSlotV hk (by decide) rfl hw

theorem RoundTrip.vfFms (k : BitVec 4) (g : BitVec 12) (s : BitVec 10) (f : BitVec 2) : RoundTrip.Statement (.vfFms k g s f) := by
  intro pm kk ww he hw
  obtain ⟨rfl, rfl⟩ := enc_inv he
  have hk : isV k = true := wf_slot hw
  rcases cases2 f with rfl | rfl | rfl | rfl <;> exact trigSlotV hk (by decide) rfl hw

theorem RoundTrip.vfMin (k : BitVec 4) (g : BitVec 12) (s : BitVec 10) (f : BitVec 2) : RoundTrip.Statement (.vfMin k g s f) := by
  intro pm kk ww he hw
  obtain ⟨rfl, rfl⟩ := enc_inv he
  have hk : isV k = true := wf_slot hw
  rcases cases2 f with rfl | rfl | rfl | rfl <;> exact trigSlotV hk (by decide) rfl hw

theorem RoundTrip.vfMax (k : BitVec 4) (g : BitVec 12) (s : BitVec 10) (f : BitVec 2) : RoundTrip.Statement (.vfMax k g s f) := by
  intro pm kk ww he hw
  obtain ⟨rfl, rfl⟩ := enc_inv he
  have hk : isV k = true := wf_slot hw
  rcases cases2 f with rfl | rfl | rfl | rfl <;> exact trigSlotV hk (by decide) rfl hw

theorem RoundTrip.vfAbs (k : BitVec 4) (g : BitVec 12) (s : BitVec 10) (f : BitVec 2) : RoundTrip.Statement (.vfAbs k g s f) := by
  intro pm kk ww he hw
  obtain ⟨rfl, rfl⟩ := enc_inv he
  have hk : isV k = true := wf_slot hw
  rcases cases2 f with rfl | rfl | rfl | rfl <;> exact trigSlotV hk (by decide) rfl hw

theorem RoundTrip.vfNeg (k : BitVec 4) (g : BitVec 12) (s : BitVec 10) (f : BitVec 2) : RoundTrip.Statement (.vfNeg k g s f) := by
  intro pm kk ww he hw
  obtain ⟨rfl, rfl⟩ := enc_inv he
  have hk : isV k = true := wf_slot hw
  rcases cases2 f with rfl | rfl | rfl | rfl <;> exact trigSlotV hk (by decide) rfl hw

theorem RoundTrip.vfCeq (k : BitVec 4) (g : BitVec 12) (s : BitVec 10) (f : BitVec 2) : RoundTrip.Statement (.vfCeq k g s f) := by
  intro pm kk ww he hw
  obtain ⟨rfl, rfl⟩ := enc_inv he
  have hk : isV k = true := wf_slot hw
  rcases cases2 f with rfl | rfl | rfl | rfl <;> exact trigSlotV hk (by decide) rfl hw

theorem RoundTrip.vfClt (k : BitVec 4) (g : BitVec 12) (s : BitVec 10) (f : BitVec 2) : RoundTrip.Statement (.vfClt k g s f) := by
  intro pm kk ww he hw
  obtain ⟨rfl, rfl⟩ := enc_inv he
  have hk : isV k = true := wf_slot hw
  rcases cases2 f with rfl | rfl | rfl | rfl <;> exact trigSlotV hk (by decide) rfl hw

theorem RoundTrip.vfCle (k : BitVec 4) (g : BitVec 12) (s : BitVec 10) (f : BitVec 2) : RoundTrip.Statement (.vfCle k g s f) := by
  intro pm kk ww he hw
  obtain ⟨rfl, rfl⟩ := enc_inv he
  have hk : isV k = true := wf_slot hw
  rcases cases2 f with rfl | rfl | rfl | rfl <;> exact trigSlotV hk (by decide) rfl hw

theorem RoundTrip.vfRcpe (k : BitVec 4) (g : BitVec 12) (s : BitVec 10) (f : BitVec 2) : RoundTrip.Statement (.vfRcpe k g s f) := by
  intro pm kk ww he hw
  obtain ⟨rfl, rfl⟩ := enc_inv he
  have hk : isV k = true := wf_slot hw
  rcases cases2 f with rfl | rfl | rfl | rfl <;> exact trigSlotV hk (by decide) rfl hw

theorem RoundTrip.vfRsqe (k : BitVec 4) (g : BitVec 12) (s : BitVec 10) (f : BitVec 2) : RoundTrip.Statement (.vfRsqe k g s f) := by
  intro pm kk ww he hw
  obtain ⟨rfl, rfl⟩ := enc_inv he
  have hk : isV k = true := wf_slot hw
  rcases cases2 f with rfl | rfl | rfl | rfl <;> exact trigSlotV hk (by decide) rfl hw

theorem RoundTrip.vfToi (k : BitVec 4) (g : BitVec 12) (s : BitVec 10) (f : BitVec 2) : RoundTrip.Statement (.vfToi k g s f) := by
  intro pm kk ww he hw
  obtain ⟨rfl, rfl⟩ := enc_inv he
  have hk : isV k = true := wf_slot hw
  rcases cases2 f with rfl | rfl | rfl | rfl <;> exact trigSlotV hk (by decide) rfl hw

theorem RoundTrip.vfFromi (k : BitVec 4) (g : BitVec 12) (s : BitVec 10) (f : BitVec 2) : RoundTrip.Statement (.vfFromi k g s f) := by
  intro pm kk ww he hw
  obtain ⟨rfl, rfl⟩ := enc_inv he
  have hk : isV k = true := wf_slot hw
  rcases cases2 f with rfl | rfl | rfl | rfl <;> exact trigSlotV hk (by decide) rfl hw

theorem RoundTrip.vrPerm (k : BitVec 4) (g : BitVec 12) (s : BitVec 10) (w : BitVec 2) : RoundTrip.Statement (.vrPerm k g s w) := by
  intro pm kk ww he hw
  obtain ⟨rfl, rfl⟩ := enc_inv he
  have hk : isV k = true := wf_slot hw
  rcases cases2 w with rfl | rfl | rfl | rfl <;> exact trigSlotV hk (by decide) rfl hw

theorem RoundTrip.vrLsh (k : BitVec 4) (g : BitVec 12) (s : BitVec 10) (w : BitVec 2) : RoundTrip.Statement (.vrLsh k g s w) := by
  intro pm kk ww he hw
  obtain ⟨rfl, rfl⟩ := enc_inv he
  have hk : isV k = true := wf_slot hw
  rcases cases2 w with rfl | rfl | rfl | rfl <;> exact trigSlotV hk (by decide) rfl hw

theorem RoundTrip.vrRot (k : BitVec 4) (g : BitVec 12) (s : BitVec 10) (w : BitVec 2) : RoundTrip.Statement (.vrRot k g s w) := by
  intro pm kk ww he hw
  obtain ⟨rfl, rfl⟩ := enc_inv he
  have hk : isV k = true := wf_slot hw
  rcases cases2 w with rfl | rfl | rfl | rfl <;> exact trigSlotV hk (by decide) rfl hw

theorem RoundTrip.vrRadd (k : BitVec 4) (g : BitVec 12) (s : BitVec 10) (w : BitVec 2) : RoundTrip.Statement (.vrRadd k g s w) := by
  intro pm kk ww he hw
  obtain ⟨rfl, rfl⟩ := enc_inv he
  have hk : isV k = true := wf_slot hw
  rcases cases2 w with rfl | rfl | rfl | rfl <;> exact trigSlotV hk (by decide) rfl hw

theorem RoundTrip.vrRmax (k : BitVec 4) (g : BitVec 12) (s : BitVec 10) (w : BitVec 2) : RoundTrip.Statement (.vrRmax k g s w) := by
  intro pm kk ww he hw
  obtain ⟨rfl, rfl⟩ := enc_inv he
  have hk : isV k = true := wf_slot hw
  rcases cases2 w with rfl | rfl | rfl | rfl <;> exact trigSlotV hk (by decide) rfl hw

theorem RoundTrip.vrRfadd (k : BitVec 4) (g : BitVec 12) (s : BitVec 10) (f : BitVec 2) : RoundTrip.Statement (.vrRfadd k g s f) := by
  intro pm kk ww he hw
  obtain ⟨rfl, rfl⟩ := enc_inv he
  have hk : isV k = true := wf_slot hw
  rcases cases2 f with rfl | rfl | rfl | rfl <;> exact trigSlotV hk (by decide) rfl hw

theorem RoundTrip.vrRfmax (k : BitVec 4) (g : BitVec 12) (s : BitVec 10) (f : BitVec 2) : RoundTrip.Statement (.vrRfmax k g s f) := by
  intro pm kk ww he hw
  obtain ⟨rfl, rfl⟩ := enc_inv he
  have hk : isV k = true := wf_slot hw
  rcases cases2 f with rfl | rfl | rfl | rfl <;> exact trigSlotV hk (by decide) rfl hw

theorem RoundTrip.vrXtr (k : BitVec 4) (g : BitVec 12) (s : BitVec 10) (w : BitVec 2) : RoundTrip.Statement (.vrXtr k g s w) := by
  intro pm kk ww he hw
  obtain ⟨rfl, rfl⟩ := enc_inv he
  have hk : isV k = true := wf_slot hw
  rcases cases2 w with rfl | rfl | rfl | rfl <;> exact trigSlotV hk (by decide) rfl hw

theorem RoundTrip.lsuSldN8 (g : BitVec 12) (s : BitVec 10) : RoundTrip.Statement (.lsuSldN8 g s) := by
  intro pm kk ww he hw
  obtain ⟨rfl, rfl⟩ := enc_inv he
  exact trigSlotM (by decide) rfl hw

theorem RoundTrip.lsuSldI8 (g : BitVec 12) (s : BitVec 10) : RoundTrip.Statement (.lsuSldI8 g s) := by
  intro pm kk ww he hw
  obtain ⟨rfl, rfl⟩ := enc_inv he
  exact trigSlotM (by decide) rfl hw

theorem RoundTrip.lsuSldN16 (g : BitVec 12) (s : BitVec 10) : RoundTrip.Statement (.lsuSldN16 g s) := by
  intro pm kk ww he hw
  obtain ⟨rfl, rfl⟩ := enc_inv he
  exact trigSlotM (by decide) rfl hw

theorem RoundTrip.lsuSldI16 (g : BitVec 12) (s : BitVec 10) : RoundTrip.Statement (.lsuSldI16 g s) := by
  intro pm kk ww he hw
  obtain ⟨rfl, rfl⟩ := enc_inv he
  exact trigSlotM (by decide) rfl hw

theorem RoundTrip.lsuSldN32 (g : BitVec 12) (s : BitVec 10) : RoundTrip.Statement (.lsuSldN32 g s) := by
  intro pm kk ww he hw
  obtain ⟨rfl, rfl⟩ := enc_inv he
  exact trigSlotM (by decide) rfl hw

theorem RoundTrip.lsuSldI32 (g : BitVec 12) (s : BitVec 10) : RoundTrip.Statement (.lsuSldI32 g s) := by
  intro pm kk ww he hw
  obtain ⟨rfl, rfl⟩ := enc_inv he
  exact trigSlotM (by decide) rfl hw

theorem RoundTrip.lsuSld64 (g : BitVec 12) (s : BitVec 10) : RoundTrip.Statement (.lsuSld64 g s) := by
  intro pm kk ww he hw
  obtain ⟨rfl, rfl⟩ := enc_inv he
  exact trigSlotM (by decide) rfl hw

theorem RoundTrip.lsuSst8 (g : BitVec 12) (s : BitVec 10) : RoundTrip.Statement (.lsuSst8 g s) := by
  intro pm kk ww he hw
  obtain ⟨rfl, rfl⟩ := enc_inv he
  exact trigSlotM (by decide) rfl hw

theorem RoundTrip.lsuSst16 (g : BitVec 12) (s : BitVec 10) : RoundTrip.Statement (.lsuSst16 g s) := by
  intro pm kk ww he hw
  obtain ⟨rfl, rfl⟩ := enc_inv he
  exact trigSlotM (by decide) rfl hw

theorem RoundTrip.lsuSst32 (g : BitVec 12) (s : BitVec 10) : RoundTrip.Statement (.lsuSst32 g s) := by
  intro pm kk ww he hw
  obtain ⟨rfl, rfl⟩ := enc_inv he
  exact trigSlotM (by decide) rfl hw

theorem RoundTrip.lsuSst64 (g : BitVec 12) (s : BitVec 10) : RoundTrip.Statement (.lsuSst64 g s) := by
  intro pm kk ww he hw
  obtain ⟨rfl, rfl⟩ := enc_inv he
  exact trigSlotM (by decide) rfl hw

theorem RoundTrip.lsuMldN8 (g : BitVec 12) (s : BitVec 10) : RoundTrip.Statement (.lsuMldN8 g s) := by
  intro pm kk ww he hw
  obtain ⟨rfl, rfl⟩ := enc_inv he
  exact trigSlotM (by decide) rfl hw

theorem RoundTrip.lsuMldI8 (g : BitVec 12) (s : BitVec 10) : RoundTrip.Statement (.lsuMldI8 g s) := by
  intro pm kk ww he hw
  obtain ⟨rfl, rfl⟩ := enc_inv he
  exact trigSlotM (by decide) rfl hw

theorem RoundTrip.lsuMldN16 (g : BitVec 12) (s : BitVec 10) : RoundTrip.Statement (.lsuMldN16 g s) := by
  intro pm kk ww he hw
  obtain ⟨rfl, rfl⟩ := enc_inv he
  exact trigSlotM (by decide) rfl hw

theorem RoundTrip.lsuMldI16 (g : BitVec 12) (s : BitVec 10) : RoundTrip.Statement (.lsuMldI16 g s) := by
  intro pm kk ww he hw
  obtain ⟨rfl, rfl⟩ := enc_inv he
  exact trigSlotM (by decide) rfl hw

theorem RoundTrip.lsuMldN32 (g : BitVec 12) (s : BitVec 10) : RoundTrip.Statement (.lsuMldN32 g s) := by
  intro pm kk ww he hw
  obtain ⟨rfl, rfl⟩ := enc_inv he
  exact trigSlotM (by decide) rfl hw

theorem RoundTrip.lsuMldI32 (g : BitVec 12) (s : BitVec 10) : RoundTrip.Statement (.lsuMldI32 g s) := by
  intro pm kk ww he hw
  obtain ⟨rfl, rfl⟩ := enc_inv he
  exact trigSlotM (by decide) rfl hw

theorem RoundTrip.lsuMld64 (g : BitVec 12) (s : BitVec 10) : RoundTrip.Statement (.lsuMld64 g s) := by
  intro pm kk ww he hw
  obtain ⟨rfl, rfl⟩ := enc_inv he
  exact trigSlotM (by decide) rfl hw

theorem RoundTrip.lsuMst8 (g : BitVec 12) (s : BitVec 10) : RoundTrip.Statement (.lsuMst8 g s) := by
  intro pm kk ww he hw
  obtain ⟨rfl, rfl⟩ := enc_inv he
  exact trigSlotM (by decide) rfl hw

theorem RoundTrip.lsuMst16 (g : BitVec 12) (s : BitVec 10) : RoundTrip.Statement (.lsuMst16 g s) := by
  intro pm kk ww he hw
  obtain ⟨rfl, rfl⟩ := enc_inv he
  exact trigSlotM (by decide) rfl hw

theorem RoundTrip.lsuMst32 (g : BitVec 12) (s : BitVec 10) : RoundTrip.Statement (.lsuMst32 g s) := by
  intro pm kk ww he hw
  obtain ⟨rfl, rfl⟩ := enc_inv he
  exact trigSlotM (by decide) rfl hw

theorem RoundTrip.lsuMst64 (g : BitVec 12) (s : BitVec 10) : RoundTrip.Statement (.lsuMst64 g s) := by
  intro pm kk ww he hw
  obtain ⟨rfl, rfl⟩ := enc_inv he
  exact trigSlotM (by decide) rfl hw

theorem RoundTrip.lsuMldAq32 (g : BitVec 12) (s : BitVec 10) : RoundTrip.Statement (.lsuMldAq32 g s) := by
  intro pm kk ww he hw
  obtain ⟨rfl, rfl⟩ := enc_inv he
  exact trigSlotM (by decide) rfl hw

theorem RoundTrip.lsuMldAq64 (g : BitVec 12) (s : BitVec 10) : RoundTrip.Statement (.lsuMldAq64 g s) := by
  intro pm kk ww he hw
  obtain ⟨rfl, rfl⟩ := enc_inv he
  exact trigSlotM (by decide) rfl hw

theorem RoundTrip.lsuMstRl32 (g : BitVec 12) (s : BitVec 10) : RoundTrip.Statement (.lsuMstRl32 g s) := by
  intro pm kk ww he hw
  obtain ⟨rfl, rfl⟩ := enc_inv he
  exact trigSlotM (by decide) rfl hw

theorem RoundTrip.lsuMstRl64 (g : BitVec 12) (s : BitVec 10) : RoundTrip.Statement (.lsuMstRl64 g s) := by
  intro pm kk ww he hw
  obtain ⟨rfl, rfl⟩ := enc_inv he
  exact trigSlotM (by decide) rfl hw

theorem RoundTrip.lsuAmo (g : BitVec 12) (s : BitVec 10) : RoundTrip.Statement (.lsuAmo g s) := by
  intro pm kk ww he hw
  obtain ⟨rfl, rfl⟩ := enc_inv he
  exact trigSlotM (by decide) rfl hw

theorem RoundTrip.lsuL2amo (g : BitVec 12) (s : BitVec 10) : RoundTrip.Statement (.lsuL2amo g s) := by
  intro pm kk ww he hw
  obtain ⟨rfl, rfl⟩ := enc_inv he
  exact trigSlotM (by decide) rfl hw

theorem RoundTrip.lsuCpy (g : BitVec 12) (s : BitVec 10) : RoundTrip.Statement (.lsuCpy g s) := by
  intro pm kk ww he hw
  obtain ⟨rfl, rfl⟩ := enc_inv he
  exact trigSlotM (by decide) rfl hw

theorem RoundTrip.lsuCbadv (g : BitVec 12) (s : BitVec 10) : RoundTrip.Statement (.lsuCbadv g s) := by
  intro pm kk ww he hw
  obtain ⟨rfl, rfl⟩ := enc_inv he
  exact trigSlotM (by decide) rfl hw

theorem RoundTrip.lsuRel (g : BitVec 12) (s : BitVec 10) : RoundTrip.Statement (.lsuRel g s) := by
  intro pm kk ww he hw
  obtain ⟨rfl, rfl⟩ := enc_inv he
  exact trigSlotM (by decide) rfl hw

theorem RoundTrip.lsuAcq (g : BitVec 12) (s : BitVec 10) : RoundTrip.Statement (.lsuAcq g s) := by
  intro pm kk ww he hw
  obtain ⟨rfl, rfl⟩ := enc_inv he
  exact trigSlotM (by decide) rfl hw

theorem RoundTrip.lsuFence (g : BitVec 12) (s : BitVec 10) : RoundTrip.Statement (.lsuFence g s) := by
  intro pm kk ww he hw
  obtain ⟨rfl, rfl⟩ := enc_inv he
  exact trigSlotM (by decide) rfl hw

theorem RoundTrip.lsuVlds (g : BitVec 12) (s : BitVec 10) : RoundTrip.Statement (.lsuVlds g s) := by
  intro pm kk ww he hw
  obtain ⟨rfl, rfl⟩ := enc_inv he
  exact trigSlotM (by decide) rfl hw

theorem RoundTrip.lsuVldm (g : BitVec 12) (s : BitVec 10) : RoundTrip.Statement (.lsuVldm g s) := by
  intro pm kk ww he hw
  obtain ⟨rfl, rfl⟩ := enc_inv he
  exact trigSlotM (by decide) rfl hw

theorem RoundTrip.lsuTld (g : BitVec 12) (s : BitVec 10) : RoundTrip.Statement (.lsuTld g s) := by
  intro pm kk ww he hw
  obtain ⟨rfl, rfl⟩ := enc_inv he
  exact trigSlotM (by decide) rfl hw

theorem RoundTrip.lsuTst (g : BitVec 12) (s : BitVec 10) : RoundTrip.Statement (.lsuTst g s) := by
  intro pm kk ww he hw
  obtain ⟨rfl, rfl⟩ := enc_inv he
  exact trigSlotM (by decide) rfl hw

theorem RoundTrip.lsuVsts (g : BitVec 12) (s : BitVec 10) : RoundTrip.Statement (.lsuVsts g s) := by
  intro pm kk ww he hw
  obtain ⟨rfl, rfl⟩ := enc_inv he
  exact trigSlotM (by decide) rfl hw

theorem RoundTrip.lsuVstm (g : BitVec 12) (s : BitVec 10) : RoundTrip.Statement (.lsuVstm g s) := by
  intro pm kk ww he hw
  obtain ⟨rfl, rfl⟩ := enc_inv he
  exact trigSlotM (by decide) rfl hw

theorem RoundTrip.lsuVamo (g : BitVec 12) (s : BitVec 10) : RoundTrip.Statement (.lsuVamo g s) := by
  intro pm kk ww he hw
  obtain ⟨rfl, rfl⟩ := enc_inv he
  exact trigSlotM (by decide) rfl hw

theorem RoundTrip.lsuVcas128 (g : BitVec 12) (s : BitVec 10) : RoundTrip.Statement (.lsuVcas128 g s) := by
  intro pm kk ww he hw
  obtain ⟨rfl, rfl⟩ := enc_inv he
  exact trigSlotM (by decide) rfl hw

theorem RoundTrip.xltMap (g : BitVec 12) (s : BitVec 10) : RoundTrip.Statement (.xltMap g s) := by
  intro pm kk ww he hw
  obtain ⟨rfl, rfl⟩ := enc_inv he
  exact trigSlotM (by decide) rfl hw

theorem RoundTrip.xltUnmap (g : BitVec 12) (s : BitVec 10) : RoundTrip.Statement (.xltUnmap g s) := by
  intro pm kk ww he hw
  obtain ⟨rfl, rfl⟩ := enc_inv he
  exact trigSlotM (by decide) rfl hw

theorem RoundTrip.xltProbe (g : BitVec 12) (s : BitVec 10) : RoundTrip.Statement (.xltProbe g s) := by
  intro pm kk ww he hw
  obtain ⟨rfl, rfl⟩ := enc_inv he
  exact trigSlotM (by decide) rfl hw

theorem RoundTrip.ceGo (g : BitVec 12) (s : BitVec 10) : RoundTrip.Statement (.ceGo g s) := by
  intro pm kk ww he hw
  obtain ⟨rfl, rfl⟩ := enc_inv he
  exact trigSlotM (by decide) rfl hw

theorem RoundTrip.ceSwap (g : BitVec 12) (s : BitVec 10) : RoundTrip.Statement (.ceSwap g s) := by
  intro pm kk ww he hw
  obtain ⟨rfl, rfl⟩ := enc_inv he
  exact trigSlotM (by decide) rfl hw

theorem RoundTrip.cePoll (g : BitVec 12) (s : BitVec 10) : RoundTrip.Statement (.cePoll g s) := by
  intro pm kk ww he hw
  obtain ⟨rfl, rfl⟩ := enc_inv he
  exact trigSlotM (by decide) rfl hw

theorem RoundTrip.ceAbort (g : BitVec 12) (s : BitVec 10) : RoundTrip.Statement (.ceAbort g s) := by
  intro pm kk ww he hw
  obtain ⟨rfl, rfl⟩ := enc_inv he
  exact trigSlotM (by decide) rfl hw

theorem RoundTrip.lnkSend (g : BitVec 12) (s : BitVec 10) (p : BitVec 2) : RoundTrip.Statement (.lnkSend g s p) := by
  intro pm kk ww he hw
  obtain ⟨rfl, rfl⟩ := enc_inv he
  rcases cases2 p with rfl | rfl | rfl | rfl <;> exact trigSlotM (by decide) rfl hw

theorem RoundTrip.mxPush (a : BitVec 3) (t : BitVec 4) (b : BitVec 4) : RoundTrip.Statement (.mxPush a t b) := by
  intro pm kk ww he hw
  obtain ⟨rfl, rfl⟩ := enc_inv he
  have ht : (show SlotWord from 1#4 ++ a ++ 0#17 ++ t ++ b).extractLsb' 28 4 = 1#4 := by
    exact (append_hi _ _ 28 (by decide)).trans <| (append_hi _ _ 24 (by decide)).trans <| (append_hi _ _ 20 (by decide)).trans <| (append_hi _ _ 3 (by decide)).trans <| append_all _
  have hm : (show SlotWord from 1#4 ++ a ++ 0#17 ++ t ++ b) &&& 0xF1FFFF00#32 = 0x10000000#32 := by
    have e : 0xF1FFFF00#32 = 15#4 ++ 0#3 ++ 131071#17 ++ 0#4 ++ 0#4 := by decide
    rw [e, and_app, and_app, and_app, and_app]
    simp
  have h0 : (show SlotWord from 1#4 ++ a ++ 0#17 ++ t ++ b).extractLsb' 25 3 = a := (append_hi _ _ 25 (by decide)).trans <| (append_hi _ _ 21 (by decide)).trans <| (append_hi _ _ 17 (by decide)).trans <| (append_lo _ _ 0 (by decide)).trans <| append_all _
  have h1 : (show SlotWord from 1#4 ++ a ++ 0#17 ++ t ++ b).extractLsb' 4 4 = t := (append_hi _ _ 4 (by decide)).trans <| (append_lo _ _ 0 (by decide)).trans <| append_all _
  have h2 : (show SlotWord from 1#4 ++ a ++ 0#17 ++ t ++ b).extractLsb' 0 4 = b := (append_lo _ _ 0 (by decide)).trans <| append_all _
  refine slotX (ne_zero_of (l := 4) 28 (by rw [ht]; decide)) ?_ hw
  rw [rawX, if_pos hm, h0, h1, h2]

theorem RoundTrip.mxShift : RoundTrip.Statement (.mxShift) := by
  intro pm kk ww he hw
  obtain ⟨rfl, rfl⟩ := enc_inv he
  exact slotX (by decide) rfl hw

theorem RoundTrip.mxAcc : RoundTrip.Statement (.mxAcc) := by
  intro pm kk ww he hw
  obtain ⟨rfl, rfl⟩ := enc_inv he
  exact slotX (by decide) rfl hw

theorem RoundTrip.mxPacc (a : BitVec 3) (t : BitVec 4) (b : BitVec 4) : RoundTrip.Statement (.mxPacc a t b) := by
  intro pm kk ww he hw
  obtain ⟨rfl, rfl⟩ := enc_inv he
  have ht : (show SlotWord from 4#4 ++ a ++ 0#17 ++ t ++ b).extractLsb' 28 4 = 4#4 := by
    exact (append_hi _ _ 28 (by decide)).trans <| (append_hi _ _ 24 (by decide)).trans <| (append_hi _ _ 20 (by decide)).trans <| (append_hi _ _ 3 (by decide)).trans <| append_all _
  have hm : (show SlotWord from 4#4 ++ a ++ 0#17 ++ t ++ b) &&& 0xF1FFFF00#32 = 0x40000000#32 := by
    have e : 0xF1FFFF00#32 = 15#4 ++ 0#3 ++ 131071#17 ++ 0#4 ++ 0#4 := by decide
    rw [e, and_app, and_app, and_app, and_app]
    simp
  have h0 : (show SlotWord from 4#4 ++ a ++ 0#17 ++ t ++ b).extractLsb' 25 3 = a := (append_hi _ _ 25 (by decide)).trans <| (append_hi _ _ 21 (by decide)).trans <| (append_hi _ _ 17 (by decide)).trans <| (append_lo _ _ 0 (by decide)).trans <| append_all _
  have h1 : (show SlotWord from 4#4 ++ a ++ 0#17 ++ t ++ b).extractLsb' 4 4 = t := (append_hi _ _ 4 (by decide)).trans <| (append_lo _ _ 0 (by decide)).trans <| append_all _
  have h2 : (show SlotWord from 4#4 ++ a ++ 0#17 ++ t ++ b).extractLsb' 0 4 = b := (append_lo _ _ 0 (by decide)).trans <| append_all _
  refine slotX (ne_zero_of (l := 4) 28 (by rw [ht]; decide)) ?_ hw
  rw [rawX, if_neg (and_ne (l := 4) 28 (by decide) (by rw [ht]; decide)), if_neg (and_ne (l := 4) 28 (by decide) (by rw [ht]; decide)), if_neg (and_ne (l := 4) 28 (by decide) (by rw [ht]; decide)), if_pos hm, h0, h1, h2]

theorem RoundTrip.mxDrain (a : BitVec 3) (r : BitVec 6) (f : BitVec 3) (h : BitVec 1) : RoundTrip.Statement (.mxDrain a r f h) := by
  intro pm kk ww he hw
  obtain ⟨rfl, rfl⟩ := enc_inv he
  have ht : (show SlotWord from 5#4 ++ a ++ r ++ f ++ 0#1 ++ h ++ 0#14).extractLsb' 28 4 = 5#4 := by
    exact (append_hi _ _ 28 (by decide)).trans <| (append_hi _ _ 14 (by decide)).trans <| (append_hi _ _ 13 (by decide)).trans <| (append_hi _ _ 12 (by decide)).trans <| (append_hi _ _ 9 (by decide)).trans <| (append_hi _ _ 3 (by decide)).trans <| append_all _
  have hm : (show SlotWord from 5#4 ++ a ++ r ++ f ++ 0#1 ++ h ++ 0#14) &&& 0xF000BFFF#32 = 0x50000000#32 := by
    have e : 0xF000BFFF#32 = 15#4 ++ 0#3 ++ 0#6 ++ 0#3 ++ 1#1 ++ 0#1 ++ 16383#14 := by decide
    rw [e, and_app, and_app, and_app, and_app, and_app, and_app]
    simp
  have h0 : (show SlotWord from 5#4 ++ a ++ r ++ f ++ 0#1 ++ h ++ 0#14).extractLsb' 25 3 = a := (append_hi _ _ 25 (by decide)).trans <| (append_hi _ _ 11 (by decide)).trans <| (append_hi _ _ 10 (by decide)).trans <| (append_hi _ _ 9 (by decide)).trans <| (append_hi _ _ 6 (by decide)).trans <| (append_lo _ _ 0 (by decide)).trans <| append_all _
  have h1 : (show SlotWord from 5#4 ++ a ++ r ++ f ++ 0#1 ++ h ++ 0#14).extractLsb' 19 6 = r := (append_hi _ _ 19 (by decide)).trans <| (append_hi _ _ 5 (by decide)).trans <| (append_hi _ _ 4 (by decide)).trans <| (append_hi _ _ 3 (by decide)).trans <| (append_lo _ _ 0 (by decide)).trans <| append_all _
  have h2 : (show SlotWord from 5#4 ++ a ++ r ++ f ++ 0#1 ++ h ++ 0#14).extractLsb' 16 3 = f := (append_hi _ _ 16 (by decide)).trans <| (append_hi _ _ 2 (by decide)).trans <| (append_hi _ _ 1 (by decide)).trans <| (append_lo _ _ 0 (by decide)).trans <| append_all _
  have h3 : (show SlotWord from 5#4 ++ a ++ r ++ f ++ 0#1 ++ h ++ 0#14).extractLsb' 14 1 = h := (append_hi _ _ 14 (by decide)).trans <| (append_lo _ _ 0 (by decide)).trans <| append_all _
  refine slotX (ne_zero_of (l := 4) 28 (by rw [ht]; decide)) ?_ hw
  rw [rawX, if_neg (and_ne (l := 4) 28 (by decide) (by rw [ht]; decide)), if_neg (and_ne (l := 4) 28 (by decide) (by rw [ht]; decide)), if_neg (and_ne (l := 4) 28 (by decide) (by rw [ht]; decide)), if_neg (and_ne (l := 4) 28 (by decide) (by rw [ht]; decide)), if_pos hm, h0, h1, h2, h3]

theorem RoundTrip.mxMrg (a : BitVec 3) (r : BitVec 6) (f : BitVec 3) (h : BitVec 1) (c : BitVec 3) : RoundTrip.Statement (.mxMrg a r f h c) := by
  intro pm kk ww he hw
  obtain ⟨rfl, rfl⟩ := enc_inv he
  have ht : (show SlotWord from 6#4 ++ a ++ r ++ f ++ 0#1 ++ h ++ c ++ 0#11).extractLsb' 28 4 = 6#4 := by
    exact (append_hi _ _ 28 (by decide)).trans <| (append_hi _ _ 17 (by decide)).trans <| (append_hi _ _ 14 (by decide)).trans <| (append_hi _ _ 13 (by decide)).trans <| (append_hi _ _ 12 (by decide)).trans <| (append_hi _ _ 9 (by decide)).trans <| (append_hi _ _ 3 (by decide)).trans <| append_all _
  have hm : (show SlotWord from 6#4 ++ a ++ r ++ f ++ 0#1 ++ h ++ c ++ 0#11) &&& 0xF00087FF#32 = 0x60000000#32 := by
    have e : 0xF00087FF#32 = 15#4 ++ 0#3 ++ 0#6 ++ 0#3 ++ 1#1 ++ 0#1 ++ 0#3 ++ 2047#11 := by decide
    rw [e, and_app, and_app, and_app, and_app, and_app, and_app, and_app]
    simp
  have h0 : (show SlotWord from 6#4 ++ a ++ r ++ f ++ 0#1 ++ h ++ c ++ 0#11).extractLsb' 25 3 = a := (append_hi _ _ 25 (by decide)).trans <| (append_hi _ _ 14 (by decide)).trans <| (append_hi _ _ 11 (by decide)).trans <| (append_hi _ _ 10 (by decide)).trans <| (append_hi _ _ 9 (by decide)).trans <| (append_hi _ _ 6 (by decide)).trans <| (append_lo _ _ 0 (by decide)).trans <| append_all _
  have h1 : (show SlotWord from 6#4 ++ a ++ r ++ f ++ 0#1 ++ h ++ c ++ 0#11).extractLsb' 19 6 = r := (append_hi _ _ 19 (by decide)).trans <| (append_hi _ _ 8 (by decide)).trans <| (append_hi _ _ 5 (by decide)).trans <| (append_hi _ _ 4 (by decide)).trans <| (append_hi _ _ 3 (by decide)).trans <| (append_lo _ _ 0 (by decide)).trans <| append_all _
  have h2 : (show SlotWord from 6#4 ++ a ++ r ++ f ++ 0#1 ++ h ++ c ++ 0#11).extractLsb' 16 3 = f := (append_hi _ _ 16 (by decide)).trans <| (append_hi _ _ 5 (by decide)).trans <| (append_hi _ _ 2 (by decide)).trans <| (append_hi _ _ 1 (by decide)).trans <| (append_lo _ _ 0 (by decide)).trans <| append_all _
  have h3 : (show SlotWord from 6#4 ++ a ++ r ++ f ++ 0#1 ++ h ++ c ++ 0#11).extractLsb' 14 1 = h := (append_hi _ _ 14 (by decide)).trans <| (append_hi _ _ 3 (by decide)).trans <| (append_lo _ _ 0 (by decide)).trans <| append_all _
  have h4 : (show SlotWord from 6#4 ++ a ++ r ++ f ++ 0#1 ++ h ++ c ++ 0#11).extractLsb' 11 3 = c := (append_hi _ _ 11 (by decide)).trans <| (append_lo _ _ 0 (by decide)).trans <| append_all _
  refine slotX (ne_zero_of (l := 4) 28 (by rw [ht]; decide)) ?_ hw
  rw [rawX, if_neg (and_ne (l := 4) 28 (by decide) (by rw [ht]; decide)), if_neg (and_ne (l := 4) 28 (by decide) (by rw [ht]; decide)), if_neg (and_ne (l := 4) 28 (by decide) (by rw [ht]; decide)), if_neg (and_ne (l := 4) 28 (by decide) (by rw [ht]; decide)), if_neg (and_ne (l := 4) 28 (by decide) (by rw [ht]; decide)), if_pos hm, h0, h1, h2, h3, h4]

theorem RoundTrip.mxClr (a : BitVec 3) (r : BitVec 6) (w : BitVec 1) : RoundTrip.Statement (.mxClr a r w) := by
  intro pm kk ww he hw
  obtain ⟨rfl, rfl⟩ := enc_inv he
  have ht : (show SlotWord from 7#4 ++ a ++ r ++ 0#4 ++ w ++ 0#14).extractLsb' 28 4 = 7#4 := by
    exact (append_hi _ _ 28 (by decide)).trans <| (append_hi _ _ 14 (by decide)).trans <| (append_hi _ _ 13 (by decide)).trans <| (append_hi _ _ 9 (by decide)).trans <| (append_hi _ _ 3 (by decide)).trans <| append_all _
  have hm : (show SlotWord from 7#4 ++ a ++ r ++ 0#4 ++ w ++ 0#14) &&& 0xF007BFFF#32 = 0x70000000#32 := by
    have e : 0xF007BFFF#32 = 15#4 ++ 0#3 ++ 0#6 ++ 15#4 ++ 0#1 ++ 16383#14 := by decide
    rw [e, and_app, and_app, and_app, and_app, and_app]
    simp
  have h0 : (show SlotWord from 7#4 ++ a ++ r ++ 0#4 ++ w ++ 0#14).extractLsb' 25 3 = a := (append_hi _ _ 25 (by decide)).trans <| (append_hi _ _ 11 (by decide)).trans <| (append_hi _ _ 10 (by decide)).trans <| (append_hi _ _ 6 (by decide)).trans <| (append_lo _ _ 0 (by decide)).trans <| append_all _
  have h1 : (show SlotWord from 7#4 ++ a ++ r ++ 0#4 ++ w ++ 0#14).extractLsb' 19 6 = r := (append_hi _ _ 19 (by decide)).trans <| (append_hi _ _ 5 (by decide)).trans <| (append_hi _ _ 4 (by decide)).trans <| (append_lo _ _ 0 (by decide)).trans <| append_all _
  have h2 : (show SlotWord from 7#4 ++ a ++ r ++ 0#4 ++ w ++ 0#14).extractLsb' 14 1 = w := (append_hi _ _ 14 (by decide)).trans <| (append_lo _ _ 0 (by decide)).trans <| append_all _
  refine slotX (ne_zero_of (l := 4) 28 (by rw [ht]; decide)) ?_ hw
  rw [rawX, if_neg (and_ne (l := 4) 28 (by decide) (by rw [ht]; decide)), if_neg (and_ne (l := 4) 28 (by decide) (by rw [ht]; decide)), if_neg (and_ne (l := 4) 28 (by decide) (by rw [ht]; decide)), if_neg (and_ne (l := 4) 28 (by decide) (by rw [ht]; decide)), if_neg (and_ne (l := 4) 28 (by decide) (by rw [ht]; decide)), if_neg (and_ne (l := 4) 28 (by decide) (by rw [ht]; decide)), if_pos hm, h0, h1, h2]

theorem RoundTrip.mxNorm (a : BitVec 3) (r : BitVec 6) (w : BitVec 1) : RoundTrip.Statement (.mxNorm a r w) := by
  intro pm kk ww he hw
  obtain ⟨rfl, rfl⟩ := enc_inv he
  have ht : (show SlotWord from 8#4 ++ a ++ r ++ 0#4 ++ w ++ 0#14).extractLsb' 28 4 = 8#4 := by
    exact (append_hi _ _ 28 (by decide)).trans <| (append_hi _ _ 14 (by decide)).trans <| (append_hi _ _ 13 (by decide)).trans <| (append_hi _ _ 9 (by decide)).trans <| (append_hi _ _ 3 (by decide)).trans <| append_all _
  have hm : (show SlotWord from 8#4 ++ a ++ r ++ 0#4 ++ w ++ 0#14) &&& 0xF007BFFF#32 = 0x80000000#32 := by
    have e : 0xF007BFFF#32 = 15#4 ++ 0#3 ++ 0#6 ++ 15#4 ++ 0#1 ++ 16383#14 := by decide
    rw [e, and_app, and_app, and_app, and_app, and_app]
    simp
  have h0 : (show SlotWord from 8#4 ++ a ++ r ++ 0#4 ++ w ++ 0#14).extractLsb' 25 3 = a := (append_hi _ _ 25 (by decide)).trans <| (append_hi _ _ 11 (by decide)).trans <| (append_hi _ _ 10 (by decide)).trans <| (append_hi _ _ 6 (by decide)).trans <| (append_lo _ _ 0 (by decide)).trans <| append_all _
  have h1 : (show SlotWord from 8#4 ++ a ++ r ++ 0#4 ++ w ++ 0#14).extractLsb' 19 6 = r := (append_hi _ _ 19 (by decide)).trans <| (append_hi _ _ 5 (by decide)).trans <| (append_hi _ _ 4 (by decide)).trans <| (append_lo _ _ 0 (by decide)).trans <| append_all _
  have h2 : (show SlotWord from 8#4 ++ a ++ r ++ 0#4 ++ w ++ 0#14).extractLsb' 14 1 = w := (append_hi _ _ 14 (by decide)).trans <| (append_lo _ _ 0 (by decide)).trans <| append_all _
  refine slotX (ne_zero_of (l := 4) 28 (by rw [ht]; decide)) ?_ hw
  rw [rawX, if_neg (and_ne (l := 4) 28 (by decide) (by rw [ht]; decide)), if_neg (and_ne (l := 4) 28 (by decide) (by rw [ht]; decide)), if_neg (and_ne (l := 4) 28 (by decide) (by rw [ht]; decide)), if_neg (and_ne (l := 4) 28 (by decide) (by rw [ht]; decide)), if_neg (and_ne (l := 4) 28 (by decide) (by rw [ht]; decide)), if_neg (and_ne (l := 4) 28 (by decide) (by rw [ht]; decide)), if_neg (and_ne (l := 4) 28 (by decide) (by rw [ht]; decide)), if_pos hm, h0, h1, h2]

theorem RoundTrip.mxRdm (a : BitVec 3) (r : BitVec 6) (q : BitVec 2) : RoundTrip.Statement (.mxRdm a r q) := by
  intro pm kk ww he hw
  obtain ⟨rfl, rfl⟩ := enc_inv he
  have ht : (show SlotWord from 9#4 ++ a ++ r ++ 0#3 ++ q ++ 0#14).extractLsb' 28 4 = 9#4 := by
    exact (append_hi _ _ 28 (by decide)).trans <| (append_hi _ _ 14 (by decide)).trans <| (append_hi _ _ 12 (by decide)).trans <| (append_hi _ _ 9 (by decide)).trans <| (append_hi _ _ 3 (by decide)).trans <| append_all _
  have hm : (show SlotWord from 9#4 ++ a ++ r ++ 0#3 ++ q ++ 0#14) &&& 0xF0073FFF#32 = 0x90000000#32 := by
    have e : 0xF0073FFF#32 = 15#4 ++ 0#3 ++ 0#6 ++ 7#3 ++ 0#2 ++ 16383#14 := by decide
    rw [e, and_app, and_app, and_app, and_app, and_app]
    simp
  have h0 : (show SlotWord from 9#4 ++ a ++ r ++ 0#3 ++ q ++ 0#14).extractLsb' 25 3 = a := (append_hi _ _ 25 (by decide)).trans <| (append_hi _ _ 11 (by decide)).trans <| (append_hi _ _ 9 (by decide)).trans <| (append_hi _ _ 6 (by decide)).trans <| (append_lo _ _ 0 (by decide)).trans <| append_all _
  have h1 : (show SlotWord from 9#4 ++ a ++ r ++ 0#3 ++ q ++ 0#14).extractLsb' 19 6 = r := (append_hi _ _ 19 (by decide)).trans <| (append_hi _ _ 5 (by decide)).trans <| (append_hi _ _ 3 (by decide)).trans <| (append_lo _ _ 0 (by decide)).trans <| append_all _
  have h2 : (show SlotWord from 9#4 ++ a ++ r ++ 0#3 ++ q ++ 0#14).extractLsb' 14 2 = q := (append_hi _ _ 14 (by decide)).trans <| (append_lo _ _ 0 (by decide)).trans <| append_all _
  refine slotX (ne_zero_of (l := 4) 28 (by rw [ht]; decide)) ?_ hw
  rw [rawX, if_neg (and_ne (l := 4) 28 (by decide) (by rw [ht]; decide)), if_neg (and_ne (l := 4) 28 (by decide) (by rw [ht]; decide)), if_neg (and_ne (l := 4) 28 (by decide) (by rw [ht]; decide)), if_neg (and_ne (l := 4) 28 (by decide) (by rw [ht]; decide)), if_neg (and_ne (l := 4) 28 (by decide) (by rw [ht]; decide)), if_neg (and_ne (l := 4) 28 (by decide) (by rw [ht]; decide)), if_neg (and_ne (l := 4) 28 (by decide) (by rw [ht]; decide)), if_neg (and_ne (l := 4) 28 (by decide) (by rw [ht]; decide)), if_pos hm, h0, h1, h2]

theorem RoundTrip.mxRdx (a : BitVec 3) (q : BitVec 2) : RoundTrip.Statement (.mxRdx a q) := by
  intro pm kk ww he hw
  obtain ⟨rfl, rfl⟩ := enc_inv he
  have ht : (show SlotWord from 10#4 ++ a ++ 0#9 ++ q ++ 0#14).extractLsb' 28 4 = 10#4 := by
    exact (append_hi _ _ 28 (by decide)).trans <| (append_hi _ _ 14 (by decide)).trans <| (append_hi _ _ 12 (by decide)).trans <| (append_hi _ _ 3 (by decide)).trans <| append_all _
  have hm : (show SlotWord from 10#4 ++ a ++ 0#9 ++ q ++ 0#14) &&& 0xF1FF3FFF#32 = 0xA0000000#32 := by
    have e : 0xF1FF3FFF#32 = 15#4 ++ 0#3 ++ 511#9 ++ 0#2 ++ 16383#14 := by decide
    rw [e, and_app, and_app, and_app, and_app]
    simp
  have h0 : (show SlotWord from 10#4 ++ a ++ 0#9 ++ q ++ 0#14).extractLsb' 25 3 = a := (append_hi _ _ 25 (by decide)).trans <| (append_hi _ _ 11 (by decide)).trans <| (append_hi _ _ 9 (by decide)).trans <| (append_lo _ _ 0 (by decide)).trans <| append_all _
  have h1 : (show SlotWord from 10#4 ++ a ++ 0#9 ++ q ++ 0#14).extractLsb' 14 2 = q := (append_hi _ _ 14 (by decide)).trans <| (append_lo _ _ 0 (by decide)).trans <| append_all _
  refine slotX (ne_zero_of (l := 4) 28 (by rw [ht]; decide)) ?_ hw
  rw [rawX, if_neg (and_ne (l := 4) 28 (by decide) (by rw [ht]; decide)), if_neg (and_ne (l := 4) 28 (by decide) (by rw [ht]; decide)), if_neg (and_ne (l := 4) 28 (by decide) (by rw [ht]; decide)), if_neg (and_ne (l := 4) 28 (by decide) (by rw [ht]; decide)), if_neg (and_ne (l := 4) 28 (by decide) (by rw [ht]; decide)), if_neg (and_ne (l := 4) 28 (by decide) (by rw [ht]; decide)), if_neg (and_ne (l := 4) 28 (by decide) (by rw [ht]; decide)), if_neg (and_ne (l := 4) 28 (by decide) (by rw [ht]; decide)), if_neg (and_ne (l := 4) 28 (by decide) (by rw [ht]; decide)), if_pos hm, h0, h1]

theorem RoundTrip.mxWrm (a : BitVec 3) (r : BitVec 6) (q : BitVec 2) (c : BitVec 3) : RoundTrip.Statement (.mxWrm a r q c) := by
  intro pm kk ww he hw
  obtain ⟨rfl, rfl⟩ := enc_inv he
  have ht : (show SlotWord from 11#4 ++ a ++ r ++ 0#3 ++ q ++ c ++ 0#11).extractLsb' 28 4 = 11#4 := by
    exact (append_hi _ _ 28 (by decide)).trans <| (append_hi _ _ 17 (by decide)).trans <| (append_hi _ _ 14 (by decide)).trans <| (append_hi _ _ 12 (by decide)).trans <| (append_hi _ _ 9 (by decide)).trans <| (append_hi _ _ 3 (by decide)).trans <| append_all _
  have hm : (show SlotWord from 11#4 ++ a ++ r ++ 0#3 ++ q ++ c ++ 0#11) &&& 0xF00707FF#32 = 0xB0000000#32 := by
    have e : 0xF00707FF#32 = 15#4 ++ 0#3 ++ 0#6 ++ 7#3 ++ 0#2 ++ 0#3 ++ 2047#11 := by decide
    rw [e, and_app, and_app, and_app, and_app, and_app, and_app]
    simp
  have h0 : (show SlotWord from 11#4 ++ a ++ r ++ 0#3 ++ q ++ c ++ 0#11).extractLsb' 25 3 = a := (append_hi _ _ 25 (by decide)).trans <| (append_hi _ _ 14 (by decide)).trans <| (append_hi _ _ 11 (by decide)).trans <| (append_hi _ _ 9 (by decide)).trans <| (append_hi _ _ 6 (by decide)).trans <| (append_lo _ _ 0 (by decide)).trans <| append_all _
  have h1 : (show SlotWord from 11#4 ++ a ++ r ++ 0#3 ++ q ++ c ++ 0#11).extractLsb' 19 6 = r := (append_hi _ _ 19 (by decide)).trans <| (append_hi _ _ 8 (by decide)).trans <| (append_hi _ _ 5 (by decide)).trans <| (append_hi _ _ 3 (by decide)).trans <| (append_lo _ _ 0 (by decide)).trans <| append_all _
  have h2 : (show SlotWord from 11#4 ++ a ++ r ++ 0#3 ++ q ++ c ++ 0#11).extractLsb' 14 2 = q := (append_hi _ _ 14 (by decide)).trans <| (append_hi _ _ 3 (by decide)).trans <| (append_lo _ _ 0 (by decide)).trans <| append_all _
  have h3 : (show SlotWord from 11#4 ++ a ++ r ++ 0#3 ++ q ++ c ++ 0#11).extractLsb' 11 3 = c := (append_hi _ _ 11 (by decide)).trans <| (append_lo _ _ 0 (by decide)).trans <| append_all _
  refine slotX (ne_zero_of (l := 4) 28 (by rw [ht]; decide)) ?_ hw
  rw [rawX, if_neg (and_ne (l := 4) 28 (by decide) (by rw [ht]; decide)), if_neg (and_ne (l := 4) 28 (by decide) (by rw [ht]; decide)), if_neg (and_ne (l := 4) 28 (by decide) (by rw [ht]; decide)), if_neg (and_ne (l := 4) 28 (by decide) (by rw [ht]; decide)), if_neg (and_ne (l := 4) 28 (by decide) (by rw [ht]; decide)), if_neg (and_ne (l := 4) 28 (by decide) (by rw [ht]; decide)), if_neg (and_ne (l := 4) 28 (by decide) (by rw [ht]; decide)), if_neg (and_ne (l := 4) 28 (by decide) (by rw [ht]; decide)), if_neg (and_ne (l := 4) 28 (by decide) (by rw [ht]; decide)), if_neg (and_ne (l := 4) 28 (by decide) (by rw [ht]; decide)), if_pos hm, h0, h1, h2, h3]

theorem RoundTrip.mxWrx (a : BitVec 3) (q : BitVec 2) (c : BitVec 3) : RoundTrip.Statement (.mxWrx a q c) := by
  intro pm kk ww he hw
  obtain ⟨rfl, rfl⟩ := enc_inv he
  have ht : (show SlotWord from 12#4 ++ a ++ 0#9 ++ q ++ c ++ 0#11).extractLsb' 28 4 = 12#4 := by
    exact (append_hi _ _ 28 (by decide)).trans <| (append_hi _ _ 17 (by decide)).trans <| (append_hi _ _ 14 (by decide)).trans <| (append_hi _ _ 12 (by decide)).trans <| (append_hi _ _ 3 (by decide)).trans <| append_all _
  have hm : (show SlotWord from 12#4 ++ a ++ 0#9 ++ q ++ c ++ 0#11) &&& 0xF1FF07FF#32 = 0xC0000000#32 := by
    have e : 0xF1FF07FF#32 = 15#4 ++ 0#3 ++ 511#9 ++ 0#2 ++ 0#3 ++ 2047#11 := by decide
    rw [e, and_app, and_app, and_app, and_app, and_app]
    simp
  have h0 : (show SlotWord from 12#4 ++ a ++ 0#9 ++ q ++ c ++ 0#11).extractLsb' 25 3 = a := (append_hi _ _ 25 (by decide)).trans <| (append_hi _ _ 14 (by decide)).trans <| (append_hi _ _ 11 (by decide)).trans <| (append_hi _ _ 9 (by decide)).trans <| (append_lo _ _ 0 (by decide)).trans <| append_all _
  have h1 : (show SlotWord from 12#4 ++ a ++ 0#9 ++ q ++ c ++ 0#11).extractLsb' 14 2 = q := (append_hi _ _ 14 (by decide)).trans <| (append_hi _ _ 3 (by decide)).trans <| (append_lo _ _ 0 (by decide)).trans <| append_all _
  have h2 : (show SlotWord from 12#4 ++ a ++ 0#9 ++ q ++ c ++ 0#11).extractLsb' 11 3 = c := (append_hi _ _ 11 (by decide)).trans <| (append_lo _ _ 0 (by decide)).trans <| append_all _
  refine slotX (ne_zero_of (l := 4) 28 (by rw [ht]; decide)) ?_ hw
  rw [rawX, if_neg (and_ne (l := 4) 28 (by decide) (by rw [ht]; decide)), if_neg (and_ne (l := 4) 28 (by decide) (by rw [ht]; decide)), if_neg (and_ne (l := 4) 28 (by decide) (by rw [ht]; decide)), if_neg (and_ne (l := 4) 28 (by decide) (by rw [ht]; decide)), if_neg (and_ne (l := 4) 28 (by decide) (by rw [ht]; decide)), if_neg (and_ne (l := 4) 28 (by decide) (by rw [ht]; decide)), if_neg (and_ne (l := 4) 28 (by decide) (by rw [ht]; decide)), if_neg (and_ne (l := 4) 28 (by decide) (by rw [ht]; decide)), if_neg (and_ne (l := 4) 28 (by decide) (by rw [ht]; decide)), if_neg (and_ne (l := 4) 28 (by decide) (by rw [ht]; decide)), if_neg (and_ne (l := 4) 28 (by decide) (by rw [ht]; decide)), if_pos hm, h0, h1, h2]

theorem RoundTrip.xfCvt (i : BitVec 4) (o : BitVec 4) (v : BitVec 4) (p : BitVec 3) (r : BitVec 2) : RoundTrip.Statement (.xfCvt i o v p r) := by
  intro pm kk ww he hw
  obtain ⟨rfl, rfl⟩ := enc_inv he
  have ht : (show SlotWord from 1#4 ++ i ++ o ++ v ++ 0#11 ++ p ++ r).extractLsb' 28 4 = 1#4 := by
    exact (append_hi _ _ 28 (by decide)).trans <| (append_hi _ _ 26 (by decide)).trans <| (append_hi _ _ 23 (by decide)).trans <| (append_hi _ _ 12 (by decide)).trans <| (append_hi _ _ 8 (by decide)).trans <| (append_hi _ _ 4 (by decide)).trans <| append_all _
  have hm : (show SlotWord from 1#4 ++ i ++ o ++ v ++ 0#11 ++ p ++ r) &&& 0xF000FFE0#32 = 0x10000000#32 := by
    have e : 0xF000FFE0#32 = 15#4 ++ 0#4 ++ 0#4 ++ 0#4 ++ 2047#11 ++ 0#3 ++ 0#2 := by decide
    rw [e, and_app, and_app, and_app, and_app, and_app, and_app]
    simp
  have h0 : (show SlotWord from 1#4 ++ i ++ o ++ v ++ 0#11 ++ p ++ r).extractLsb' 24 4 = i := (append_hi _ _ 24 (by decide)).trans <| (append_hi _ _ 22 (by decide)).trans <| (append_hi _ _ 19 (by decide)).trans <| (append_hi _ _ 8 (by decide)).trans <| (append_hi _ _ 4 (by decide)).trans <| (append_lo _ _ 0 (by decide)).trans <| append_all _
  have h1 : (show SlotWord from 1#4 ++ i ++ o ++ v ++ 0#11 ++ p ++ r).extractLsb' 20 4 = o := (append_hi _ _ 20 (by decide)).trans <| (append_hi _ _ 18 (by decide)).trans <| (append_hi _ _ 15 (by decide)).trans <| (append_hi _ _ 4 (by decide)).trans <| (append_lo _ _ 0 (by decide)).trans <| append_all _
  have h2 : (show SlotWord from 1#4 ++ i ++ o ++ v ++ 0#11 ++ p ++ r).extractLsb' 16 4 = v := (append_hi _ _ 16 (by decide)).trans <| (append_hi _ _ 14 (by decide)).trans <| (append_hi _ _ 11 (by decide)).trans <| (append_lo _ _ 0 (by decide)).trans <| append_all _
  have h3 : (show SlotWord from 1#4 ++ i ++ o ++ v ++ 0#11 ++ p ++ r).extractLsb' 2 3 = p := (append_hi _ _ 2 (by decide)).trans <| (append_lo _ _ 0 (by decide)).trans <| append_all _
  have h4 : (show SlotWord from 1#4 ++ i ++ o ++ v ++ 0#11 ++ p ++ r).extractLsb' 0 2 = r := (append_lo _ _ 0 (by decide)).trans <| append_all _
  refine slotT (ne_zero_of (l := 4) 28 (by rw [ht]; decide)) ?_ hw
  rw [rawT, if_pos hm, h0, h1, h2, h3, h4]

theorem RoundTrip.xfExp (i : BitVec 4) (o : BitVec 4) (s : BitVec 4) (d : BitVec 4) (l : BitVec 1) (h : BitVec 1) : RoundTrip.Statement (.xfExp i o s d l h) := by
  intro pm kk ww he hw
  obtain ⟨rfl, rfl⟩ := enc_inv he
  have ht : (show SlotWord from 2#4 ++ i ++ o ++ 0#4 ++ s ++ d ++ 0#6 ++ l ++ h).extractLsb' 28 4 = 2#4 := by
    exact (append_hi _ _ 28 (by decide)).trans <| (append_hi _ _ 27 (by decide)).trans <| (append_hi _ _ 26 (by decide)).trans <| (append_hi _ _ 20 (by decide)).trans <| (append_hi _ _ 16 (by decide)).trans <| (append_hi _ _ 12 (by decide)).trans <| (append_hi _ _ 8 (by decide)).trans <| (append_hi _ _ 4 (by decide)).trans <| append_all _
  have hm : (show SlotWord from 2#4 ++ i ++ o ++ 0#4 ++ s ++ d ++ 0#6 ++ l ++ h) &&& 0xF00F00FC#32 = 0x20000000#32 := by
    have e : 0xF00F00FC#32 = 15#4 ++ 0#4 ++ 0#4 ++ 15#4 ++ 0#4 ++ 0#4 ++ 63#6 ++ 0#1 ++ 0#1 := by decide
    rw [e, and_app, and_app, and_app, and_app, and_app, and_app, and_app, and_app]
    simp
  have h0 : (show SlotWord from 2#4 ++ i ++ o ++ 0#4 ++ s ++ d ++ 0#6 ++ l ++ h).extractLsb' 24 4 = i := (append_hi _ _ 24 (by decide)).trans <| (append_hi _ _ 23 (by decide)).trans <| (append_hi _ _ 22 (by decide)).trans <| (append_hi _ _ 16 (by decide)).trans <| (append_hi _ _ 12 (by decide)).trans <| (append_hi _ _ 8 (by decide)).trans <| (append_hi _ _ 4 (by decide)).trans <| (append_lo _ _ 0 (by decide)).trans <| append_all _
  have h1 : (show SlotWord from 2#4 ++ i ++ o ++ 0#4 ++ s ++ d ++ 0#6 ++ l ++ h).extractLsb' 20 4 = o := (append_hi _ _ 20 (by decide)).trans <| (append_hi _ _ 19 (by decide)).trans <| (append_hi _ _ 18 (by decide)).trans <| (append_hi _ _ 12 (by decide)).trans <| (append_hi _ _ 8 (by decide)).trans <| (append_hi _ _ 4 (by decide)).trans <| (append_lo _ _ 0 (by decide)).trans <| append_all _
  have h2 : (show SlotWord from 2#4 ++ i ++ o ++ 0#4 ++ s ++ d ++ 0#6 ++ l ++ h).extractLsb' 12 4 = s := (append_hi _ _ 12 (by decide)).trans <| (append_hi _ _ 11 (by decide)).trans <| (append_hi _ _ 10 (by decide)).trans <| (append_hi _ _ 4 (by decide)).trans <| (append_lo _ _ 0 (by decide)).trans <| append_all _
  have h3 : (show SlotWord from 2#4 ++ i ++ o ++ 0#4 ++ s ++ d ++ 0#6 ++ l ++ h).extractLsb' 8 4 = d := (append_hi _ _ 8 (by decide)).trans <| (append_hi _ _ 7 (by decide)).trans <| (append_hi _ _ 6 (by decide)).trans <| (append_lo _ _ 0 (by decide)).trans <| append_all _
  have h4 : (show SlotWord from 2#4 ++ i ++ o ++ 0#4 ++ s ++ d ++ 0#6 ++ l ++ h).extractLsb' 1 1 = l := (append_hi _ _ 1 (by decide)).trans <| (append_lo _ _ 0 (by decide)).trans <| append_all _
  have h5 : (show SlotWord from 2#4 ++ i ++ o ++ 0#4 ++ s ++ d ++ 0#6 ++ l ++ h).extractLsb' 0 1 = h := (append_lo _ _ 0 (by decide)).trans <| append_all _
  refine slotT (ne_zero_of (l := 4) 28 (by rw [ht]; decide)) ?_ hw
  rw [rawT, if_neg (and_ne (l := 4) 28 (by decide) (by rw [ht]; decide)), if_pos hm, h0, h1, h2, h3, h4, h5]

theorem RoundTrip.xfTr (s : BitVec 4) (d : BitVec 4) (w : BitVec 1) : RoundTrip.Statement (.xfTr s d w) := by
  intro pm kk ww he hw
  obtain ⟨rfl, rfl⟩ := enc_inv he
  have ht : (show SlotWord from 12288#16 ++ s ++ d ++ 0#7 ++ w).extractLsb' 28 4 = 3#4 := by
    exact (append_hi _ _ 28 (by decide)).trans <| (append_hi _ _ 27 (by decide)).trans <| (append_hi _ _ 20 (by decide)).trans <| (append_hi _ _ 16 (by decide)).trans <| (by decide)
  have hm : (show SlotWord from 12288#16 ++ s ++ d ++ 0#7 ++ w) &&& 0xFFFF00FE#32 = 0x30000000#32 := by
    have e : 0xFFFF00FE#32 = 65535#16 ++ 0#4 ++ 0#4 ++ 127#7 ++ 0#1 := by decide
    rw [e, and_app, and_app, and_app, and_app]
    simp
  have h0 : (show SlotWord from 12288#16 ++ s ++ d ++ 0#7 ++ w).extractLsb' 12 4 = s := (append_hi _ _ 12 (by decide)).trans <| (append_hi _ _ 11 (by decide)).trans <| (append_hi _ _ 4 (by decide)).trans <| (append_lo _ _ 0 (by decide)).trans <| append_all _
  have h1 : (show SlotWord from 12288#16 ++ s ++ d ++ 0#7 ++ w).extractLsb' 8 4 = d := (append_hi _ _ 8 (by decide)).trans <| (append_hi _ _ 7 (by decide)).trans <| (append_lo _ _ 0 (by decide)).trans <| append_all _
  have h2 : (show SlotWord from 12288#16 ++ s ++ d ++ 0#7 ++ w).extractLsb' 0 1 = w := (append_lo _ _ 0 (by decide)).trans <| append_all _
  refine slotT (ne_zero_of (l := 4) 28 (by rw [ht]; decide)) ?_ hw
  rw [rawT, if_neg (and_ne (l := 4) 28 (by decide) (by rw [ht]; decide)), if_neg (and_ne (l := 4) 28 (by decide) (by rw [ht]; decide)), if_pos hm, h0, h1, h2]

theorem RoundTrip.xfSplit (s : BitVec 4) (d : BitVec 4) (e : BitVec 8) : RoundTrip.Statement (.xfSplit s d e) := by
  intro pm kk ww he hw
  obtain ⟨rfl, rfl⟩ := enc_inv he
  have ht : (show SlotWord from 16384#16 ++ s ++ d ++ e).extractLsb' 28 4 = 4#4 := by
    exact (append_hi _ _ 28 (by decide)).trans <| (append_hi _ _ 20 (by decide)).trans <| (append_hi _ _ 16 (by decide)).trans <| (by decide)
  have hm : (show SlotWord from 16384#16 ++ s ++ d ++ e) &&& 0xFFFF0000#32 = 0x40000000#32 := by
    have e : 0xFFFF0000#32 = 65535#16 ++ 0#4 ++ 0#4 ++ 0#8 := by decide
    rw [e, and_app, and_app, and_app]
    simp
  have h0 : (show SlotWord from 16384#16 ++ s ++ d ++ e).extractLsb' 12 4 = s := (append_hi _ _ 12 (by decide)).trans <| (append_hi _ _ 4 (by decide)).trans <| (append_lo _ _ 0 (by decide)).trans <| append_all _
  have h1 : (show SlotWord from 16384#16 ++ s ++ d ++ e).extractLsb' 8 4 = d := (append_hi _ _ 8 (by decide)).trans <| (append_lo _ _ 0 (by decide)).trans <| append_all _
  have h2 : (show SlotWord from 16384#16 ++ s ++ d ++ e).extractLsb' 0 8 = e := (append_lo _ _ 0 (by decide)).trans <| append_all _
  refine slotT (ne_zero_of (l := 4) 28 (by rw [ht]; decide)) ?_ hw
  rw [rawT, if_neg (and_ne (l := 4) 28 (by decide) (by rw [ht]; decide)), if_neg (and_ne (l := 4) 28 (by decide) (by rw [ht]; decide)), if_neg (and_ne (l := 4) 28 (by decide) (by rw [ht]; decide)), if_pos hm, h0, h1, h2]

theorem RoundTrip.xfPack (v : BitVec 4) (d : BitVec 4) (l : BitVec 6) (m : BitVec 1) (q : BitVec 1) : RoundTrip.Statement (.xfPack v d l m q) := by
  intro pm kk ww he hw
  obtain ⟨rfl, rfl⟩ := enc_inv he
  have ht : (show SlotWord from 1280#12 ++ v ++ 0#4 ++ d ++ l ++ m ++ q).extractLsb' 28 4 = 5#4 := by
    exact (append_hi _ _ 28 (by decide)).trans <| (append_hi _ _ 27 (by decide)).trans <| (append_hi _ _ 26 (by decide)).trans <| (append_hi _ _ 20 (by decide)).trans <| (append_hi _ _ 16 (by decide)).trans <| (append_hi _ _ 12 (by decide)).trans <| (by decide)
  have hm : (show SlotWord from 1280#12 ++ v ++ 0#4 ++ d ++ l ++ m ++ q) &&& 0xFFF0F000#32 = 0x50000000#32 := by
    have e : 0xFFF0F000#32 = 4095#12 ++ 0#4 ++ 15#4 ++ 0#4 ++ 0#6 ++ 0#1 ++ 0#1 := by decide
    rw [e, and_app, and_app, and_app, and_app, and_app, and_app]
    simp
  have h0 : (show SlotWord from 1280#12 ++ v ++ 0#4 ++ d ++ l ++ m ++ q).extractLsb' 16 4 = v := (append_hi _ _ 16 (by decide)).trans <| (append_hi _ _ 15 (by decide)).trans <| (append_hi _ _ 14 (by decide)).trans <| (append_hi _ _ 8 (by decide)).trans <| (append_hi _ _ 4 (by decide)).trans <| (append_lo _ _ 0 (by decide)).trans <| append_all _
  have h1 : (show SlotWord from 1280#12 ++ v ++ 0#4 ++ d ++ l ++ m ++ q).extractLsb' 8 4 = d := (append_hi _ _ 8 (by decide)).trans <| (append_hi _ _ 7 (by decide)).trans <| (append_hi _ _ 6 (by decide)).trans <| (append_lo _ _ 0 (by decide)).trans <| append_all _
  have h2 : (show SlotWord from 1280#12 ++ v ++ 0#4 ++ d ++ l ++ m ++ q).extractLsb' 2 6 = l := (append_hi _ _ 2 (by decide)).trans <| (append_hi _ _ 1 (by decide)).trans <| (append_lo _ _ 0 (by decide)).trans <| append_all _
  have h3 : (show SlotWord from 1280#12 ++ v ++ 0#4 ++ d ++ l ++ m ++ q).extractLsb' 1 1 = m := (append_hi _ _ 1 (by decide)).trans <| (append_lo _ _ 0 (by decide)).trans <| append_all _
  have h4 : (show SlotWord from 1280#12 ++ v ++ 0#4 ++ d ++ l ++ m ++ q).extractLsb' 0 1 = q := (append_lo _ _ 0 (by decide)).trans <| append_all _
  refine slotT (ne_zero_of (l := 4) 28 (by rw [ht]; decide)) ?_ hw
  rw [rawT, if_neg (and_ne (l := 4) 28 (by decide) (by rw [ht]; decide)), if_neg (and_ne (l := 4) 28 (by decide) (by rw [ht]; decide)), if_neg (and_ne (l := 4) 28 (by decide) (by rw [ht]; decide)), if_neg (and_ne (l := 4) 28 (by decide) (by rw [ht]; decide)), if_pos hm, h0, h1, h2, h3, h4]

theorem RoundTrip.longImmediate (i : BitVec 30) : RoundTrip.Statement (.longImmediate i) := by
  intro pm kk ww he hw
  obtain ⟨rfl, rfl⟩ := enc_inv he
  have ht : (show SlotWord from 1#2 ++ i).extractLsb' 30 2 = 1#2 := by
    exact (append_hi _ _ 30 (by decide)).trans <| append_all _
  have hm : (show SlotWord from 1#2 ++ i) &&& 0xC0000000#32 = 0x40000000#32 := by
    have e : 0xC0000000#32 = 3#2 ++ 0#30 := by decide
    rw [e, and_app]
    simp
  have h0 : (show SlotWord from 1#2 ++ i).extractLsb' 0 30 = i := (append_lo _ _ 0 (by decide)).trans <| append_all _
  refine slotB (ne_zero_of (l := 2) 30 (by rw [ht]; decide)) ?_ hw
  rw [rawB, if_pos hm, h0]

theorem RoundTrip.bcast (e : BitVec 2) (x : BitVec 6) : RoundTrip.Statement (.bcast e x) := by
  intro pm kk ww he hw
  obtain ⟨rfl, rfl⟩ := enc_inv he
  have ht : (show SlotWord from 2#2 ++ e ++ 0#22 ++ x).extractLsb' 30 2 = 2#2 := by
    exact (append_hi _ _ 30 (by decide)).trans <| (append_hi _ _ 24 (by decide)).trans <| (append_hi _ _ 2 (by decide)).trans <| append_all _
  have hm : (show SlotWord from 2#2 ++ e ++ 0#22 ++ x) &&& 0xCFFFFFC0#32 = 0x80000000#32 := by
    have e : 0xCFFFFFC0#32 = 3#2 ++ 0#2 ++ 4194303#22 ++ 0#6 := by decide
    rw [e, and_app, and_app, and_app]
    simp
  have h0 : (show SlotWord from 2#2 ++ e ++ 0#22 ++ x).extractLsb' 28 2 = e := (append_hi _ _ 28 (by decide)).trans <| (append_hi _ _ 22 (by decide)).trans <| (append_lo _ _ 0 (by decide)).trans <| append_all _
  have h1 : (show SlotWord from 2#2 ++ e ++ 0#22 ++ x).extractLsb' 0 6 = x := (append_lo _ _ 0 (by decide)).trans <| append_all _
  refine slotB (ne_zero_of (l := 2) 30 (by rw [ht]; decide)) ?_ hw
  rw [rawB, if_neg (and_ne (l := 2) 30 (by decide) (by rw [ht]; decide)), if_pos hm, h0, h1]

theorem RoundTrip.chk (c : BitVec 1) (i : BitVec 5) : RoundTrip.Statement (.chk c i) := by
  intro pm kk ww he hw
  obtain ⟨rfl, rfl⟩ := enc_inv he
  have ht : (show SlotWord from 3#2 ++ c ++ 0#24 ++ i).extractLsb' 30 2 = 3#2 := by
    exact (append_hi _ _ 30 (by decide)).trans <| (append_hi _ _ 25 (by decide)).trans <| (append_hi _ _ 1 (by decide)).trans <| append_all _
  have hm : (show SlotWord from 3#2 ++ c ++ 0#24 ++ i) &&& 0xDFFFFFE0#32 = 0xC0000000#32 := by
    have e : 0xDFFFFFE0#32 = 3#2 ++ 0#1 ++ 16777215#24 ++ 0#5 := by decide
    rw [e, and_app, and_app, and_app]
    simp
  have h0 : (show SlotWord from 3#2 ++ c ++ 0#24 ++ i).extractLsb' 29 1 = c := (append_hi _ _ 29 (by decide)).trans <| (append_hi _ _ 24 (by decide)).trans <| (append_lo _ _ 0 (by decide)).trans <| append_all _
  have h1 : (show SlotWord from 3#2 ++ c ++ 0#24 ++ i).extractLsb' 0 5 = i := (append_lo _ _ 0 (by decide)).trans <| append_all _
  refine slotB (ne_zero_of (l := 2) 30 (by rw [ht]; decide)) ?_ hw
  rw [rawB, if_neg (and_ne (l := 2) 30 (by decide) (by rw [ht]; decide)), if_neg (and_ne (l := 2) 30 (by decide) (by rw [ht]; decide)), if_pos hm, h0, h1]

theorem RoundTrip.issue (n : Nat) : RoundTrip.Statement (.issue n) := fun _ _ _ h => nomatch h

theorem RoundTrip.resultLanding (n : Nat) : RoundTrip.Statement (.resultLanding n) := fun _ _ _ h => nomatch h

theorem RoundTrip.firmwareBundle (n : Nat) : RoundTrip.Statement (.firmwareBundle n) := fun _ _ _ h => nomatch h

theorem RoundTrip.gangStreamIssue (n : Nat) : RoundTrip.Statement (.gangStreamIssue n) := fun _ _ _ h => nomatch h

theorem RoundTrip.fetchLineArrival (n : Nat) (fw : Bool) (line : Word) : RoundTrip.Statement (.fetchLineArrival n fw line) := fun _ _ _ h => nomatch h

theorem RoundTrip.cellFreeze (n : Nat) : RoundTrip.Statement (.cellFreeze n) := fun _ _ _ h => nomatch h

theorem RoundTrip.linkArrival (n : Nat) : RoundTrip.Statement (.linkArrival n) := fun _ _ _ h => nomatch h

theorem RoundTrip.fillRequest (n : Nat) (id : Nat) : RoundTrip.Statement (.fillRequest n id) := fun _ _ _ h => nomatch h

theorem RoundTrip.bind (n : Nat) (id : Nat) : RoundTrip.Statement (.bind n id) := fun _ _ _ h => nomatch h

theorem RoundTrip.acquire (n : Nat) : RoundTrip.Statement (.acquire n) := fun _ _ _ h => nomatch h

theorem RoundTrip.drain (n : Nat) : RoundTrip.Statement (.drain n) := fun _ _ _ h => nomatch h

theorem RoundTrip.place (n : Nat) : RoundTrip.Statement (.place n) := fun _ _ _ h => nomatch h

theorem RoundTrip.writeBack (n : Nat) (line : Nat) : RoundTrip.Statement (.writeBack n line) := fun _ _ _ h => nomatch h

theorem RoundTrip.complete (n : Nat) : RoundTrip.Statement (.complete n) := fun _ _ _ h => nomatch h

theorem RoundTrip.so (n : Nat) : RoundTrip.Statement (.so n) := fun _ _ _ h => nomatch h

theorem RoundTrip.engine (n : Nat) : RoundTrip.Statement (.engine n) := fun _ _ _ h => nomatch h

theorem RoundTrip.record (n : Nat) : RoundTrip.Statement (.record n) := fun _ _ _ h => nomatch h

theorem RoundTrip.perform (id : Nat) : RoundTrip.Statement (.perform id) := fun _ _ _ h => nomatch h

theorem RoundTrip.host (f : Nat) : RoundTrip.Statement (.host f) := fun _ _ _ h => nomatch h

theorem RoundTrip.hostAtomicWrite (f : Nat) : RoundTrip.Statement (.hostAtomicWrite f) := fun _ _ _ h => nomatch h

theorem RoundTrip.fillStart (die : Nat) (slice : Nat) : RoundTrip.Statement (.fillStart die slice) := fun _ _ _ h => nomatch h

theorem RoundTrip.ceCompletion (n : Nat) : RoundTrip.Statement (.ceCompletion n) := fun _ _ _ h => nomatch h

theorem RoundTrip.taskCompletion (n : Nat) : RoundTrip.Statement (.taskCompletion n) := fun _ _ _ h => nomatch h

theorem RoundTrip.translationWalk (n : Nat) (fw : Bool) : RoundTrip.Statement (.translationWalk n fw) := fun _ _ _ h => nomatch h

theorem RoundTrip.invreq (f : Nat) (v : Word) : RoundTrip.Statement (.invreq f v) := fun _ _ _ h => nomatch h

theorem RoundTrip.hinvreq (v : Word) : RoundTrip.Statement (.hinvreq v) := fun _ _ _ h => nomatch h

theorem RoundTrip.invalidationComplete (f : Nat) (stage2 : Bool) : RoundTrip.Statement (.invalidationComplete f stage2) := fun _ _ _ h => nomatch h

theorem RoundTrip.hvrespRetry (n : Nat) : RoundTrip.Statement (.hvrespRetry n) := fun _ _ _ h => nomatch h

theorem RoundTrip.hvrespReflect (n : Nat) : RoundTrip.Statement (.hvrespReflect n) := fun _ _ _ h => nomatch h

theorem RoundTrip.hvrespKill (n : Nat) : RoundTrip.Statement (.hvrespKill n) := fun _ _ _ h => nomatch h

theorem RoundTrip.lockInterfaceRequest (f : Nat) : RoundTrip.Statement (.lockInterfaceRequest f) := fun _ _ _ h => nomatch h

theorem RoundTrip.startInterfaceRequest (f : Nat) : RoundTrip.Statement (.startInterfaceRequest f) := fun _ _ _ h => nomatch h

theorem RoundTrip.stopInterfaceRequest (f : Nat) : RoundTrip.Statement (.stopInterfaceRequest f) := fun _ _ _ h => nomatch h

theorem RoundTrip.tdispError (f : Nat) : RoundTrip.Statement (.tdispError f) := fun _ _ _ h => nomatch h

theorem RoundTrip.getVersion (f : Nat) : RoundTrip.Statement (.getVersion f) := fun _ _ _ h => nomatch h

theorem RoundTrip.getCapabilities (f : Nat) : RoundTrip.Statement (.getCapabilities f) := fun _ _ _ h => nomatch h

theorem RoundTrip.negotiateAlgorithms (f : Nat) : RoundTrip.Statement (.negotiateAlgorithms f) := fun _ _ _ h => nomatch h

theorem RoundTrip.getDigests (f : Nat) : RoundTrip.Statement (.getDigests f) := fun _ _ _ h => nomatch h

theorem RoundTrip.getCertificate (f : Nat) : RoundTrip.Statement (.getCertificate f) := fun _ _ _ h => nomatch h

theorem RoundTrip.challenge (f : Nat) : RoundTrip.Statement (.challenge f) := fun _ _ _ h => nomatch h

theorem RoundTrip.getMeasurements (f : Nat) (idx : Nat) : RoundTrip.Statement (.getMeasurements f idx) := fun _ _ _ h => nomatch h

theorem RoundTrip.keyExchange (f : Nat) : RoundTrip.Statement (.keyExchange f) := fun _ _ _ h => nomatch h

theorem RoundTrip.finish (f : Nat) : RoundTrip.Statement (.finish f) := fun _ _ _ h => nomatch h

theorem RoundTrip.heartbeat (f : Nat) : RoundTrip.Statement (.heartbeat f) := fun _ _ _ h => nomatch h

theorem RoundTrip.keyUpdate (f : Nat) : RoundTrip.Statement (.keyUpdate f) := fun _ _ _ h => nomatch h

theorem RoundTrip.endSession (f : Nat) : RoundTrip.Statement (.endSession f) := fun _ _ _ h => nomatch h

theorem RoundTrip.vendorDefinedRequest (f : Nat) (msg : Nat) : RoundTrip.Statement (.vendorDefinedRequest f msg) := fun _ _ _ h => nomatch h

theorem RoundTrip.qnotify (q : Nat) (v : Word) : RoundTrip.Statement (.qnotify q v) := fun _ _ _ h => nomatch h

theorem RoundTrip.qnotifyCancel (q : Nat) (v : Word) : RoundTrip.Statement (.qnotifyCancel q v) := fun _ _ _ h => nomatch h

theorem RoundTrip.kernelAdmission (kid : Nat) : RoundTrip.Statement (.kernelAdmission kid) := fun _ _ _ h => nomatch h

theorem RoundTrip.taskDispatch (kid : Nat) (lead : Nat) : RoundTrip.Statement (.taskDispatch kid lead) := fun _ _ _ h => nomatch h

theorem RoundTrip.preemption (kid : Nat) (victim : Nat) (base : Nat) : RoundTrip.Statement (.preemption kid victim base) := fun _ _ _ h => nomatch h

theorem RoundTrip.packetRetirement (kid : Nat) : RoundTrip.Statement (.packetRetirement kid) := fun _ _ _ h => nomatch h

theorem RoundTrip.admitRcb (pa : Nat) : RoundTrip.Statement (.admitRcb pa) := fun _ _ _ h => nomatch h

theorem RoundTrip.queueContextWrite (q : Nat) (v : BitVec 256) : RoundTrip.Statement (.queueContextWrite q v) := fun _ _ _ h => nomatch h

theorem RoundTrip.translationContextWrite (part : Nat) (v : BitVec 256) : RoundTrip.Statement (.translationContextWrite part v) := fun _ _ _ h => nomatch h

theorem RoundTrip.subtreeRelease (part : Nat) : RoundTrip.Statement (.subtreeRelease part) := fun _ _ _ h => nomatch h

theorem RoundTrip.energyRefill (dt : Nat) : RoundTrip.Statement (.energyRefill dt) := fun _ _ _ h => nomatch h

theorem RoundTrip.energyCharge (dt : Nat) : RoundTrip.Statement (.energyCharge dt) := fun _ _ _ h => nomatch h

theorem RoundTrip.energyCalibration (die : Nat) : RoundTrip.Statement (.energyCalibration die) := fun _ _ _ h => nomatch h

theorem RoundTrip.telemetrySample (die : Nat) (pwr : BitVec 32) (hbmt : BitVec 16) (qt : BitVec 64) : RoundTrip.Statement (.telemetrySample die pwr hbmt qt) := fun _ _ _ h => nomatch h

theorem RoundTrip.thermalThreshold (die : Nat) (qt : BitVec 64) : RoundTrip.Statement (.thermalThreshold die qt) := fun _ _ _ h => nomatch h

theorem RoundTrip.scrub (die : Nat) (addr : Nat) (bad : Bool) : RoundTrip.Statement (.scrub die addr bad) := fun _ _ _ h => nomatch h

theorem RoundTrip.scheduleTableFiring (die : Nat) (i : Nat) (dt : Nat) : RoundTrip.Statement (.scheduleTableFiring die i dt) := fun _ _ _ h => nomatch h

theorem RoundTrip.ppsEdge (dt : Nat) : RoundTrip.Statement (.ppsEdge dt) := fun _ _ _ h => nomatch h

theorem RoundTrip.slewEnd (dt : Nat) : RoundTrip.Statement (.slewEnd dt) := fun _ _ _ h => nomatch h

theorem RoundTrip.lockTimeout (dt : Nat) : RoundTrip.Statement (.lockTimeout dt) := fun _ _ _ h => nomatch h

theorem RoundTrip.crctlWrite (r : Nat) (v : Word) : RoundTrip.Statement (.crctlWrite r v) := fun _ _ _ h => nomatch h

theorem RoundTrip.codecDrainEnd (r : Nat) : RoundTrip.Statement (.codecDrainEnd r) := fun _ _ _ h => nomatch h

theorem RoundTrip.scanTransfer (die : Nat) (n : Nat) : RoundTrip.Statement (.scanTransfer die n) := fun _ _ _ h => nomatch h

theorem RoundTrip.sysCompletion (die : Nat) : RoundTrip.Statement (.sysCompletion die) := fun _ _ _ h => nomatch h

theorem RoundTrip.fwrsmResume (die : Nat) (v : Word) : RoundTrip.Statement (.fwrsmResume die v) := fun _ _ _ h => nomatch h

theorem RoundTrip.fwrsmStart (die : Nat) (v : Word) : RoundTrip.Statement (.fwrsmStart die v) := fun _ _ _ h => nomatch h

theorem RoundTrip.halt (n : Nat) : RoundTrip.Statement (.halt n) := fun _ _ _ h => nomatch h

theorem RoundTrip.step (n : Nat) : RoundTrip.Statement (.step n) := fun _ _ _ h => nomatch h

theorem RoundTrip.run (n : Nat) : RoundTrip.Statement (.run n) := fun _ _ _ h => nomatch h

theorem RoundTrip.dbgdataRead (n : Nat) (part : Nat) : RoundTrip.Statement (.dbgdataRead n part) := fun _ _ _ h => nomatch h

theorem RoundTrip.dbgdataWrite (n : Nat) (part : Nat) (v : Word) : RoundTrip.Statement (.dbgdataWrite n part v) := fun _ _ _ h => nomatch h

theorem RoundTrip.preciseStop (n : Nat) : RoundTrip.Statement (.preciseStop n) := fun _ _ _ h => nomatch h

theorem RoundTrip.preciseStopTimeout (n : Nat) : RoundTrip.Statement (.preciseStopTimeout n) := fun _ _ _ h => nomatch h

theorem RoundTrip.gangfail (n : Nat) (base : Nat) : RoundTrip.Statement (.gangfail n base) := fun _ _ _ h => nomatch h

theorem RoundTrip.deviceReset : RoundTrip.Statement (.deviceReset) := fun _ _ _ h => nomatch h

theorem RoundTrip.lifecycleChange (nst : BitVec 3) : RoundTrip.Statement (.lifecycleChange nst) := fun _ _ _ h => nomatch h

theorem RoundTrip.wipeEnd : RoundTrip.Statement (.wipeEnd) := fun _ _ _ h => nomatch h

theorem RoundTrip.fwcmdStage (v : Word) : RoundTrip.Statement (.fwcmdStage v) := fun _ _ _ h => nomatch h

theorem RoundTrip.fwcmdActivate (v : Word) : RoundTrip.Statement (.fwcmdActivate v) := fun _ _ _ h => nomatch h

theorem RoundTrip.fwack (f : Nat) : RoundTrip.Statement (.fwack f) := fun _ _ _ h => nomatch h

theorem RoundTrip.fwActivationTimeout : RoundTrip.Statement (.fwActivationTimeout) := fun _ _ _ h => nomatch h

theorem RoundTrip.cksave (blk : BitVec 512) : RoundTrip.Statement (.cksave blk) := fun _ _ _ h => nomatch h

theorem RoundTrip.ckload (blk : BitVec 512) : RoundTrip.Statement (.ckload blk) := fun _ _ _ h => nomatch h

theorem RoundTrip.collectiveCompletion : RoundTrip.Statement (.collectiveCompletion) := fun _ _ _ h => nomatch h

theorem RoundTrip.halfReadLow (f : Nat) (sp : Nat) (die : Nat) (off : Nat) : RoundTrip.Statement (.halfReadLow f sp die off) := fun _ _ _ h => nomatch h

theorem RoundTrip.halfReadHigh (f : Nat) : RoundTrip.Statement (.halfReadHigh f) := fun _ _ _ h => nomatch h

theorem RoundTrip.registerWrite (sp : Nat) (die : Nat) (off : Nat) (v : Word) : RoundTrip.Statement (.registerWrite sp die off v) := fun _ _ _ h => nomatch h

theorem RoundTrip.fillInstall (die : Nat) (slice : Nat) : RoundTrip.Statement (.fillInstall die slice) := fun _ _ _ h => nomatch h

theorem RoundTrip.peerPortAccess (port : Nat) (wr : Bool) (addr : Nat) (v : BitVec 512) : RoundTrip.Statement (.peerPortAccess port wr addr v) := fun _ _ _ h => nomatch h

theorem RoundTrip.rcbTeardown (part : Nat) : RoundTrip.Statement (.rcbTeardown part) := fun _ _ _ h => nomatch h

end Sys2Proof.Laws
end

