-- ==== Sys2Proof/Laws/Sparse.lean ====
section
/-!
SUPPORT. The laws of sparse maps and of memory: a read after a write, and that every memory operation keeps the
canonical form.
-/

namespace Sys2Proof.Machine

variable {α : Type}

/-! ### Sparse maps -/

@[simp] theorem smGet_nil (d : α) (k : Nat) : smGet d [] k = d := rfl

@[simp] theorem smGet_smPut_same (d : α) (m : SMap α) (k : Nat) (v : α) : smGet d (smPut m k v) k = v := by
  induction m with
  | nil => simp [smPut, smGet]
  | cons e m ih =>
    obtain ⟨j, u⟩ := e
    simp only [smPut]
    split
    · simp [smGet]
    · split
      · simp [smGet]
      · rename_i h1 h2
        simp [smGet, h1, h2, ih]

theorem smGet_smPut_other (d : α) (m : SMap α) {k j : Nat} (v : α) (h : j ≠ k) :
    smGet d (smPut m k v) j = smGet d m j := by
  induction m with
  | nil => simp [smPut, smGet, h]
  | cons e m ih =>
    obtain ⟨i, u⟩ := e
    simp only [smPut]
    split
    · rename_i hk
      subst hk
      simp [smGet, h]
    · split
      · rename_i h1 h2
        simp only [smGet, h, if_false]
        split
        · rename_i h3
          have : j ≠ i := by omega
          have : j < i := by omega
          simp [*]
        · rfl
      · simp only [smGet, ih]

/-- Numbers of a well-formed map are at least its bound. -/
theorem smGet_below [DecidableEq α] (d : α) (m : SMap α) {lo k : Nat} (h : smWf d lo m = true) (hk : k < lo) :
    smGet d m k = d := by
  cases m with
  | nil => rfl
  | cons e m =>
    obtain ⟨j, u⟩ := e
    simp only [smWf, Bool.and_eq_true, decide_eq_true_eq] at h
    have : k ≠ j := by omega
    have : k < j := by omega
    simp [smGet, *]

theorem smWf_mono [DecidableEq α] (d : α) (m : SMap α) {lo lo' : Nat} (h : smWf d lo m = true) (hl : lo' ≤ lo) :
    smWf d lo' m = true := by
  cases m with
  | nil => rfl
  | cons e m =>
    obtain ⟨j, u⟩ := e
    simp only [smWf, Bool.and_eq_true, decide_eq_true_eq] at h ⊢
    exact ⟨⟨by omega, h.1.2⟩, h.2⟩

theorem smWf_smDel [DecidableEq α] (d : α) (m : SMap α) {lo : Nat} (k : Nat) (h : smWf d lo m = true) :
    smWf d lo (smDel m k) = true := by
  induction m generalizing lo with
  | nil => rfl
  | cons e m ih =>
    obtain ⟨j, u⟩ := e
    have h' := h
    simp only [smWf, Bool.and_eq_true, decide_eq_true_eq] at h
    simp only [smDel]
    split
    · exact smWf_mono d m h.2 (by omega)
    · split
      · exact h'
      · simp only [smWf, Bool.and_eq_true, decide_eq_true_eq]
        exact ⟨h.1, ih h.2⟩

theorem smWf_smPut [DecidableEq α] (d : α) (m : SMap α) {lo : Nat} (k : Nat) (v : α) (hk : lo ≤ k) (hv : v ≠ d)
    (h : smWf d lo m = true) : smWf d lo (smPut m k v) = true := by
  induction m generalizing lo with
  | nil => simp [smPut, smWf, hk, hv]
  | cons e m ih =>
    obtain ⟨j, u⟩ := e
    simp only [smWf, Bool.and_eq_true, decide_eq_true_eq] at h
    simp only [smPut]
    split
    · rename_i hj
      subst hj
      simp [smWf, hk, hv, h.2]
    · split
      · rename_i h1 h2
        simp only [smWf, Bool.and_eq_true, decide_eq_true_eq]
        exact ⟨⟨hk, hv⟩, ⟨by omega, h.1.2⟩, h.2⟩
      · simp only [smWf, Bool.and_eq_true, decide_eq_true_eq]
        exact ⟨h.1, ih (by omega) h.2⟩

theorem smGet_smDel_same [DecidableEq α] (d : α) (m : SMap α) {lo : Nat} (k : Nat) (h : smWf d lo m = true) :
    smGet d (smDel m k) k = d := by
  induction m generalizing lo with
  | nil => rfl
  | cons e m ih =>
    obtain ⟨j, u⟩ := e
    simp only [smWf, Bool.and_eq_true, decide_eq_true_eq] at h
    simp only [smDel]
    split
    · exact smGet_below d m h.2 (by omega)
    · rename_i hj
      split
      · rename_i h2
        simp [smGet, hj, h2]
      · rename_i h2
        simp [smGet, hj, h2, ih h.2]

theorem smGet_smDel_other [DecidableEq α] (d : α) (m : SMap α) {lo k j : Nat} (h : smWf d lo m = true) (hj : j ≠ k) :
    smGet d (smDel m k) j = smGet d m j := by
  induction m generalizing lo with
  | nil => rfl
  | cons e m ih =>
    obtain ⟨i, u⟩ := e
    simp only [smWf, Bool.and_eq_true, decide_eq_true_eq] at h
    simp only [smDel]
    split
    · rename_i hk
      subst hk
      simp only [smGet, hj, if_false]
      split
      · rename_i hlt
        exact smGet_below d m h.2 (by omega)
      · rfl
    · split
      · rfl
      · simp only [smGet, ih h.2]

theorem smWf_smSet [DecidableEq α] (d : α) (m : SMap α) {lo : Nat} (k : Nat) (v : α) (hk : lo ≤ k)
    (h : smWf d lo m = true) : smWf d lo (smSet d m k v) = true := by
  unfold smSet
  split
  · exact smWf_smDel d m k h
  · exact smWf_smPut d m k v hk ‹_› h

theorem smGet_smSet_same [DecidableEq α] (d : α) (m : SMap α) {lo : Nat} (k : Nat) (v : α) (h : smWf d lo m = true) :
    smGet d (smSet d m k v) k = v := by
  unfold smSet
  split
  · rename_i hv
    rw [hv]
    exact smGet_smDel_same d m k h
  · exact smGet_smPut_same d m k v

theorem smGet_smSet_other [DecidableEq α] (d : α) (m : SMap α) {lo k j : Nat} (v : α) (h : smWf d lo m = true)
    (hj : j ≠ k) : smGet d (smSet d m k v) j = smGet d m j := by
  unfold smSet
  split
  · exact smGet_smDel_other d m h hj
  · exact smGet_smPut_other d m v hj

/-! ### Memory -/

theorem Memory.wf_nil : Memory.wf [] = true := rfl

theorem wf_writeByte (m : Bytes) (a : Nat) (v : Byte) (h : Memory.wf m = true) : Memory.wf (writeByte m a v) = true :=
  smWf_smSet 0 m a v (Nat.zero_le a) h

theorem wf_writeNat (m : Bytes) (a n v : Nat) (h : Memory.wf m = true) : Memory.wf (writeNat m a n v) = true := by
  induction n generalizing m a v with
  | zero => exact h
  | succ n ih => exact ih _ _ _ (wf_writeByte m a _ h)

theorem wf_writeMasked (m : Bytes) (a n mask v : Nat) (h : Memory.wf m = true) :
    Memory.wf (writeMasked m a n mask v) = true := by
  induction n generalizing m a mask v with
  | zero => exact h
  | succ n ih =>
    simp only [writeMasked]
    apply ih
    split
    · exact wf_writeByte m a _ h
    · exact h

theorem readByte_writeByte_same (m : Bytes) (a : Nat) (v : Byte) (h : Memory.wf m = true) :
    readByte (writeByte m a v) a = v := smGet_smSet_same 0 m a v h

theorem readByte_writeByte_other (m : Bytes) {a b : Nat} (v : Byte) (h : Memory.wf m = true) (hb : b ≠ a) :
    readByte (writeByte m a v) b = readByte m b := smGet_smSet_other 0 m v h hb

/-- A write of n bytes leaves every byte outside them. -/
theorem readByte_writeNat_outside (m : Bytes) (a n v b : Nat) (h : Memory.wf m = true) (hb : b < a ∨ a + n ≤ b) :
    readByte (writeNat m a n v) b = readByte m b := by
  induction n generalizing m a v with
  | zero => rfl
  | succ n ih =>
    simp only [writeNat]
    rw [ih _ _ _ (wf_writeByte m a _ h) (by omega), readByte_writeByte_other m _ h (by omega)]

/-- A write of n bytes is read back byte by byte, lowest first. -/
theorem readByte_writeNat_inside (m : Bytes) (a n v i : Nat) (h : Memory.wf m = true) (hi : i < n) :
    readByte (writeNat m a n v) (a + i) = BitVec.ofNat 8 (v / 256 ^ i) := by
  induction n generalizing m a v i with
  | zero => omega
  | succ n ih =>
    simp only [writeNat]
    cases i with
    | zero =>
      rw [readByte_writeNat_outside _ _ _ _ _ (wf_writeByte m a _ h) (by omega)]
      simpa using readByte_writeByte_same m a _ h
    | succ i =>
      have : a + (i + 1) = a + 1 + i := by omega
      rw [this, ih _ _ _ _ (wf_writeByte m a _ h) (by omega), Nat.div_div_eq_div_mul, Nat.pow_succ, Nat.mul_comm]

/-- A masked write leaves every byte outside its range. -/
theorem readByte_writeMasked_outside (m : Bytes) (a n mask v b : Nat) (h : Memory.wf m = true)
    (hb : b < a ∨ a + n ≤ b) : readByte (writeMasked m a n mask v) b = readByte m b := by
  induction n generalizing m a mask v with
  | zero => rfl
  | succ n ih =>
    simp only [writeMasked]
    split
    · rw [ih _ _ _ _ (wf_writeByte m a _ h) (by omega), readByte_writeByte_other m _ h (by omega)]
    · exact ih _ _ _ _ h (by omega)

/-- A masked write changes exactly the bytes that its mask selects. -/
theorem readByte_writeMasked_inside (m : Bytes) (a n mask v i : Nat) (h : Memory.wf m = true) (hi : i < n) :
    readByte (writeMasked m a n mask v) (a + i) =
      if mask / 2 ^ i % 2 = 1 then BitVec.ofNat 8 (v / 256 ^ i) else readByte m (a + i) := by
  induction n generalizing m a mask v i with
  | zero => omega
  | succ n ih =>
    simp only [writeMasked]
    have hw : Memory.wf (if mask % 2 = 1 then writeByte m a (BitVec.ofNat 8 v) else m) = true := by
      split
      · exact wf_writeByte m a _ h
      · exact h
    cases i with
    | zero =>
      rw [readByte_writeMasked_outside _ _ _ _ _ _ hw (by omega)]
      simp only [Nat.pow_zero, Nat.div_one, Nat.add_zero]
      split
      · exact readByte_writeByte_same m a _ h
      · rfl
    | succ i =>
      have e : a + (i + 1) = a + 1 + i := by omega
      have e2 : mask / 2 ^ (i + 1) = mask / 2 / 2 ^ i := by rw [Nat.div_div_eq_div_mul, Nat.pow_succ, Nat.mul_comm]
      have e3 : v / 256 ^ (i + 1) = v / 256 / 256 ^ i := by rw [Nat.div_div_eq_div_mul, Nat.pow_succ, Nat.mul_comm]
      rw [e, ih _ _ _ _ _ hw (by omega), e2, e3]
      congr 1
      split
      · exact readByte_writeByte_other m _ h (by omega)
      · rfl

end Sys2Proof.Machine
end

