-- ==== Sys2Proof/Laws/State.lean ====
section
/-!
SUPPORT. What every update of the state leaves: one lemma per field and update, and how cells, contexts and writes in
flight compose.
-/

namespace Sys2Proof.Machine

/-! ### Fields -/

section Fields

variable (s : State)

@[simp] theorem setCell_agenda (n : Nat) (c : Cell) : (setCell s n c).agenda = s.agenda := rfl
@[simp] theorem setCell_focus (n : Nat) (c : Cell) : (setCell s n c).focus = s.focus := rfl
@[simp] theorem setCell_cyc (n : Nat) (c : Cell) : (setCell s n c).cyc = s.cyc := rfl
@[simp] theorem setCell_free (n : Nat) (c : Cell) : (setCell s n c).free = s.free := rfl
@[simp] theorem setCell_seq (n : Nat) (c : Cell) : (setCell s n c).seq = s.seq := rfl
@[simp] theorem setCell_dies (n : Nat) (c : Cell) : (setCell s n c).dies = s.dies := rfl
@[simp] theorem setCell_mem (n : Nat) (c : Cell) : (setCell s n c).mem = s.mem := rfl
@[simp] theorem setCell_hostMem (n : Nat) (c : Cell) : (setCell s n c).hostMem = s.hostMem := rfl
@[simp] theorem setCell_hostDeny (n : Nat) (c : Cell) : (setCell s n c).hostDeny = s.hostDeny := rfl
@[simp] theorem setCell_poison (n : Nat) (c : Cell) : (setCell s n c).poison = s.poison := rfl
@[simp] theorem setCell_chan (n : Nat) (c : Cell) : (setCell s n c).chan = s.chan := rfl
@[simp] theorem setCell_hosts (n : Nat) (c : Cell) : (setCell s n c).hosts = s.hosts := rfl
@[simp] theorem setCell_codecs (n : Nat) (c : Cell) : (setCell s n c).codecs = s.codecs := rfl
@[simp] theorem setCell_regions (n : Nat) (c : Cell) : (setCell s n c).regions = s.regions := rfl
@[simp] theorem setCell_tctx (n : Nat) (c : Cell) : (setCell s n c).tctx = s.tctx := rfl
@[simp] theorem setCell_queues (n : Nat) (c : Cell) : (setCell s n c).queues = s.queues := rfl
@[simp] theorem setCell_kernels (n : Nat) (c : Cell) : (setCell s n c).kernels = s.kernels := rfl
@[simp] theorem setCell_newKernels (n : Nat) (c : Cell) : (setCell s n c).newKernels = s.newKernels := rfl
@[simp] theorem setCell_time (n : Nat) (c : Cell) : (setCell s n c).time = s.time := rfl
@[simp] theorem setCell_tset (n : Nat) (c : Cell) : (setCell s n c).tset = s.tset := rfl
@[simp] theorem setCell_tsetw (n : Nat) (c : Cell) : (setCell s n c).tsetw = s.tsetw := rfl
@[simp] theorem setCell_tstat (n : Nat) (c : Cell) : (setCell s n c).tstat = s.tstat := rfl
@[simp] theorem setCell_slew (n : Nat) (c : Cell) : (setCell s n c).slew = s.slew := rfl
@[simp] theorem setCell_hvbase (n : Nat) (c : Cell) : (setCell s n c).hvbase = s.hvbase := rfl
@[simp] theorem setCell_hvsize (n : Nat) (c : Cell) : (setCell s n c).hvsize = s.hvsize := rfl
@[simp] theorem setCell_hvhead (n : Nat) (c : Cell) : (setCell s n c).hvhead = s.hvhead := rfl
@[simp] theorem setCell_hvirqs (n : Nat) (c : Cell) : (setCell s n c).hvirqs = s.hvirqs := rfl
@[simp] theorem setCell_fwstat (n : Nat) (c : Cell) : (setCell s n c).fwstat = s.fwstat := rfl
@[simp] theorem setCell_fwimage (n : Nat) (c : Cell) : (setCell s n c).fwimage = s.fwimage := rfl
@[simp] theorem setCell_fwactive (n : Nat) (c : Cell) : (setCell s n c).fwactive = s.fwactive := rfl
@[simp] theorem setCell_fwcode (n : Nat) (c : Cell) : (setCell s n c).fwcode = s.fwcode := rfl
@[simp] theorem setCell_paused (n : Nat) (c : Cell) : (setCell s n c).paused = s.paused := rfl
@[simp] theorem setCell_lcstat (n : Nat) (c : Cell) : (setCell s n c).lcstat = s.lcstat := rfl
@[simp] theorem setCell_failmap (n : Nat) (c : Cell) : (setCell s n c).failmap = s.failmap := rfl
@[simp] theorem setCell_corrected (n : Nat) (c : Cell) : (setCell s n c).corrected = s.corrected := rfl
@[simp] theorem setCell_answer (n : Nat) (c : Cell) : (setCell s n c).answer = s.answer := rfl
@[simp] theorem setCell_coll (n : Nat) (c : Cell) : (setCell s n c).coll = s.coll := rfl
@[simp] theorem setCell_groups (n : Nat) (c : Cell) : (setCell s n c).groups = s.groups := rfl
@[simp] theorem setCell_peerOut (n : Nat) (c : Cell) : (setCell s n c).peerOut = s.peerOut := rfl
@[simp] theorem setCell_peerGot (n : Nat) (c : Cell) : (setCell s n c).peerGot = s.peerGot := rfl
@[simp] theorem setCell_replay (n : Nat) (c : Cell) : (setCell s n c).replay = s.replay := rfl
@[simp] theorem setCell_refills (n : Nat) (c : Cell) : (setCell s n c).refills = s.refills := rfl
@[simp] theorem setCell_charges (n : Nat) (c : Cell) : (setCell s n c).charges = s.charges := rfl
@[simp] theorem setCell_real (n : Nat) (c : Cell) : (setCell s n c).real = s.real := rfl
@[simp] theorem setCell_sinceEdge (n : Nat) (c : Cell) : (setCell s n c).sinceEdge = s.sinceEdge := rfl
@[simp] theorem setCell_sincePause (n : Nat) (c : Cell) : (setCell s n c).sincePause = s.sincePause := rfl

@[simp] theorem modCell_agenda (n : Nat) (f : Cell → Cell) : (modCell s n f).agenda = s.agenda := rfl
@[simp] theorem modCell_focus (n : Nat) (f : Cell → Cell) : (modCell s n f).focus = s.focus := rfl
@[simp] theorem modCell_cyc (n : Nat) (f : Cell → Cell) : (modCell s n f).cyc = s.cyc := rfl
@[simp] theorem modCell_free (n : Nat) (f : Cell → Cell) : (modCell s n f).free = s.free := rfl
@[simp] theorem modCell_seq (n : Nat) (f : Cell → Cell) : (modCell s n f).seq = s.seq := rfl
@[simp] theorem modCell_dies (n : Nat) (f : Cell → Cell) : (modCell s n f).dies = s.dies := rfl
@[simp] theorem modCell_mem (n : Nat) (f : Cell → Cell) : (modCell s n f).mem = s.mem := rfl
@[simp] theorem modCell_hostMem (n : Nat) (f : Cell → Cell) : (modCell s n f).hostMem = s.hostMem := rfl
@[simp] theorem modCell_hostDeny (n : Nat) (f : Cell → Cell) : (modCell s n f).hostDeny = s.hostDeny := rfl
@[simp] theorem modCell_poison (n : Nat) (f : Cell → Cell) : (modCell s n f).poison = s.poison := rfl
@[simp] theorem modCell_chan (n : Nat) (f : Cell → Cell) : (modCell s n f).chan = s.chan := rfl
@[simp] theorem modCell_hosts (n : Nat) (f : Cell → Cell) : (modCell s n f).hosts = s.hosts := rfl
@[simp] theorem modCell_codecs (n : Nat) (f : Cell → Cell) : (modCell s n f).codecs = s.codecs := rfl
@[simp] theorem modCell_regions (n : Nat) (f : Cell → Cell) : (modCell s n f).regions = s.regions := rfl
@[simp] theorem modCell_tctx (n : Nat) (f : Cell → Cell) : (modCell s n f).tctx = s.tctx := rfl
@[simp] theorem modCell_queues (n : Nat) (f : Cell → Cell) : (modCell s n f).queues = s.queues := rfl
@[simp] theorem modCell_kernels (n : Nat) (f : Cell → Cell) : (modCell s n f).kernels = s.kernels := rfl
@[simp] theorem modCell_newKernels (n : Nat) (f : Cell → Cell) : (modCell s n f).newKernels = s.newKernels := rfl
@[simp] theorem modCell_time (n : Nat) (f : Cell → Cell) : (modCell s n f).time = s.time := rfl
@[simp] theorem modCell_tset (n : Nat) (f : Cell → Cell) : (modCell s n f).tset = s.tset := rfl
@[simp] theorem modCell_tsetw (n : Nat) (f : Cell → Cell) : (modCell s n f).tsetw = s.tsetw := rfl
@[simp] theorem modCell_tstat (n : Nat) (f : Cell → Cell) : (modCell s n f).tstat = s.tstat := rfl
@[simp] theorem modCell_slew (n : Nat) (f : Cell → Cell) : (modCell s n f).slew = s.slew := rfl
@[simp] theorem modCell_hvbase (n : Nat) (f : Cell → Cell) : (modCell s n f).hvbase = s.hvbase := rfl
@[simp] theorem modCell_hvsize (n : Nat) (f : Cell → Cell) : (modCell s n f).hvsize = s.hvsize := rfl
@[simp] theorem modCell_hvhead (n : Nat) (f : Cell → Cell) : (modCell s n f).hvhead = s.hvhead := rfl
@[simp] theorem modCell_hvirqs (n : Nat) (f : Cell → Cell) : (modCell s n f).hvirqs = s.hvirqs := rfl
@[simp] theorem modCell_fwstat (n : Nat) (f : Cell → Cell) : (modCell s n f).fwstat = s.fwstat := rfl
@[simp] theorem modCell_fwimage (n : Nat) (f : Cell → Cell) : (modCell s n f).fwimage = s.fwimage := rfl
@[simp] theorem modCell_fwactive (n : Nat) (f : Cell → Cell) : (modCell s n f).fwactive = s.fwactive := rfl
@[simp] theorem modCell_fwcode (n : Nat) (f : Cell → Cell) : (modCell s n f).fwcode = s.fwcode := rfl
@[simp] theorem modCell_paused (n : Nat) (f : Cell → Cell) : (modCell s n f).paused = s.paused := rfl
@[simp] theorem modCell_lcstat (n : Nat) (f : Cell → Cell) : (modCell s n f).lcstat = s.lcstat := rfl
@[simp] theorem modCell_failmap (n : Nat) (f : Cell → Cell) : (modCell s n f).failmap = s.failmap := rfl
@[simp] theorem modCell_corrected (n : Nat) (f : Cell → Cell) : (modCell s n f).corrected = s.corrected := rfl
@[simp] theorem modCell_answer (n : Nat) (f : Cell → Cell) : (modCell s n f).answer = s.answer := rfl
@[simp] theorem modCell_coll (n : Nat) (f : Cell → Cell) : (modCell s n f).coll = s.coll := rfl
@[simp] theorem modCell_groups (n : Nat) (f : Cell → Cell) : (modCell s n f).groups = s.groups := rfl
@[simp] theorem modCell_peerOut (n : Nat) (f : Cell → Cell) : (modCell s n f).peerOut = s.peerOut := rfl
@[simp] theorem modCell_peerGot (n : Nat) (f : Cell → Cell) : (modCell s n f).peerGot = s.peerGot := rfl
@[simp] theorem modCell_replay (n : Nat) (f : Cell → Cell) : (modCell s n f).replay = s.replay := rfl
@[simp] theorem modCell_refills (n : Nat) (f : Cell → Cell) : (modCell s n f).refills = s.refills := rfl
@[simp] theorem modCell_charges (n : Nat) (f : Cell → Cell) : (modCell s n f).charges = s.charges := rfl
@[simp] theorem modCell_real (n : Nat) (f : Cell → Cell) : (modCell s n f).real = s.real := rfl
@[simp] theorem modCell_sinceEdge (n : Nat) (f : Cell → Cell) : (modCell s n f).sinceEdge = s.sinceEdge := rfl
@[simp] theorem modCell_sincePause (n : Nat) (f : Cell → Cell) : (modCell s n f).sincePause = s.sincePause := rfl

@[simp] theorem setDie_agenda (d : Nat) (x : Die) : (setDie s d x).agenda = s.agenda := rfl
@[simp] theorem setDie_focus (d : Nat) (x : Die) : (setDie s d x).focus = s.focus := rfl
@[simp] theorem setDie_cyc (d : Nat) (x : Die) : (setDie s d x).cyc = s.cyc := rfl
@[simp] theorem setDie_free (d : Nat) (x : Die) : (setDie s d x).free = s.free := rfl
@[simp] theorem setDie_seq (d : Nat) (x : Die) : (setDie s d x).seq = s.seq := rfl
@[simp] theorem setDie_cells (d : Nat) (x : Die) : (setDie s d x).cells = s.cells := rfl
@[simp] theorem setDie_mem (d : Nat) (x : Die) : (setDie s d x).mem = s.mem := rfl
@[simp] theorem setDie_hostMem (d : Nat) (x : Die) : (setDie s d x).hostMem = s.hostMem := rfl
@[simp] theorem setDie_hostDeny (d : Nat) (x : Die) : (setDie s d x).hostDeny = s.hostDeny := rfl
@[simp] theorem setDie_poison (d : Nat) (x : Die) : (setDie s d x).poison = s.poison := rfl
@[simp] theorem setDie_chan (d : Nat) (x : Die) : (setDie s d x).chan = s.chan := rfl
@[simp] theorem setDie_hosts (d : Nat) (x : Die) : (setDie s d x).hosts = s.hosts := rfl
@[simp] theorem setDie_codecs (d : Nat) (x : Die) : (setDie s d x).codecs = s.codecs := rfl
@[simp] theorem setDie_regions (d : Nat) (x : Die) : (setDie s d x).regions = s.regions := rfl
@[simp] theorem setDie_tctx (d : Nat) (x : Die) : (setDie s d x).tctx = s.tctx := rfl
@[simp] theorem setDie_queues (d : Nat) (x : Die) : (setDie s d x).queues = s.queues := rfl
@[simp] theorem setDie_kernels (d : Nat) (x : Die) : (setDie s d x).kernels = s.kernels := rfl
@[simp] theorem setDie_newKernels (d : Nat) (x : Die) : (setDie s d x).newKernels = s.newKernels := rfl
@[simp] theorem setDie_time (d : Nat) (x : Die) : (setDie s d x).time = s.time := rfl
@[simp] theorem setDie_tset (d : Nat) (x : Die) : (setDie s d x).tset = s.tset := rfl
@[simp] theorem setDie_tsetw (d : Nat) (x : Die) : (setDie s d x).tsetw = s.tsetw := rfl
@[simp] theorem setDie_tstat (d : Nat) (x : Die) : (setDie s d x).tstat = s.tstat := rfl
@[simp] theorem setDie_slew (d : Nat) (x : Die) : (setDie s d x).slew = s.slew := rfl
@[simp] theorem setDie_hvbase (d : Nat) (x : Die) : (setDie s d x).hvbase = s.hvbase := rfl
@[simp] theorem setDie_hvsize (d : Nat) (x : Die) : (setDie s d x).hvsize = s.hvsize := rfl
@[simp] theorem setDie_hvhead (d : Nat) (x : Die) : (setDie s d x).hvhead = s.hvhead := rfl
@[simp] theorem setDie_hvirqs (d : Nat) (x : Die) : (setDie s d x).hvirqs = s.hvirqs := rfl
@[simp] theorem setDie_fwstat (d : Nat) (x : Die) : (setDie s d x).fwstat = s.fwstat := rfl
@[simp] theorem setDie_fwimage (d : Nat) (x : Die) : (setDie s d x).fwimage = s.fwimage := rfl
@[simp] theorem setDie_fwactive (d : Nat) (x : Die) : (setDie s d x).fwactive = s.fwactive := rfl
@[simp] theorem setDie_fwcode (d : Nat) (x : Die) : (setDie s d x).fwcode = s.fwcode := rfl
@[simp] theorem setDie_paused (d : Nat) (x : Die) : (setDie s d x).paused = s.paused := rfl
@[simp] theorem setDie_lcstat (d : Nat) (x : Die) : (setDie s d x).lcstat = s.lcstat := rfl
@[simp] theorem setDie_failmap (d : Nat) (x : Die) : (setDie s d x).failmap = s.failmap := rfl
@[simp] theorem setDie_corrected (d : Nat) (x : Die) : (setDie s d x).corrected = s.corrected := rfl
@[simp] theorem setDie_answer (d : Nat) (x : Die) : (setDie s d x).answer = s.answer := rfl
@[simp] theorem setDie_coll (d : Nat) (x : Die) : (setDie s d x).coll = s.coll := rfl
@[simp] theorem setDie_groups (d : Nat) (x : Die) : (setDie s d x).groups = s.groups := rfl
@[simp] theorem setDie_peerOut (d : Nat) (x : Die) : (setDie s d x).peerOut = s.peerOut := rfl
@[simp] theorem setDie_peerGot (d : Nat) (x : Die) : (setDie s d x).peerGot = s.peerGot := rfl
@[simp] theorem setDie_replay (d : Nat) (x : Die) : (setDie s d x).replay = s.replay := rfl
@[simp] theorem setDie_refills (d : Nat) (x : Die) : (setDie s d x).refills = s.refills := rfl
@[simp] theorem setDie_charges (d : Nat) (x : Die) : (setDie s d x).charges = s.charges := rfl
@[simp] theorem setDie_real (d : Nat) (x : Die) : (setDie s d x).real = s.real := rfl
@[simp] theorem setDie_sinceEdge (d : Nat) (x : Die) : (setDie s d x).sinceEdge = s.sinceEdge := rfl
@[simp] theorem setDie_sincePause (d : Nat) (x : Die) : (setDie s d x).sincePause = s.sincePause := rfl

@[simp] theorem modDie_agenda (d : Nat) (f : Die → Die) : (modDie s d f).agenda = s.agenda := rfl
@[simp] theorem modDie_focus (d : Nat) (f : Die → Die) : (modDie s d f).focus = s.focus := rfl
@[simp] theorem modDie_cyc (d : Nat) (f : Die → Die) : (modDie s d f).cyc = s.cyc := rfl
@[simp] theorem modDie_free (d : Nat) (f : Die → Die) : (modDie s d f).free = s.free := rfl
@[simp] theorem modDie_seq (d : Nat) (f : Die → Die) : (modDie s d f).seq = s.seq := rfl
@[simp] theorem modDie_cells (d : Nat) (f : Die → Die) : (modDie s d f).cells = s.cells := rfl
@[simp] theorem modDie_mem (d : Nat) (f : Die → Die) : (modDie s d f).mem = s.mem := rfl
@[simp] theorem modDie_hostMem (d : Nat) (f : Die → Die) : (modDie s d f).hostMem = s.hostMem := rfl
@[simp] theorem modDie_hostDeny (d : Nat) (f : Die → Die) : (modDie s d f).hostDeny = s.hostDeny := rfl
@[simp] theorem modDie_poison (d : Nat) (f : Die → Die) : (modDie s d f).poison = s.poison := rfl
@[simp] theorem modDie_chan (d : Nat) (f : Die → Die) : (modDie s d f).chan = s.chan := rfl
@[simp] theorem modDie_hosts (d : Nat) (f : Die → Die) : (modDie s d f).hosts = s.hosts := rfl
@[simp] theorem modDie_codecs (d : Nat) (f : Die → Die) : (modDie s d f).codecs = s.codecs := rfl
@[simp] theorem modDie_regions (d : Nat) (f : Die → Die) : (modDie s d f).regions = s.regions := rfl
@[simp] theorem modDie_tctx (d : Nat) (f : Die → Die) : (modDie s d f).tctx = s.tctx := rfl
@[simp] theorem modDie_queues (d : Nat) (f : Die → Die) : (modDie s d f).queues = s.queues := rfl
@[simp] theorem modDie_kernels (d : Nat) (f : Die → Die) : (modDie s d f).kernels = s.kernels := rfl
@[simp] theorem modDie_newKernels (d : Nat) (f : Die → Die) : (modDie s d f).newKernels = s.newKernels := rfl
@[simp] theorem modDie_time (d : Nat) (f : Die → Die) : (modDie s d f).time = s.time := rfl
@[simp] theorem modDie_tset (d : Nat) (f : Die → Die) : (modDie s d f).tset = s.tset := rfl
@[simp] theorem modDie_tsetw (d : Nat) (f : Die → Die) : (modDie s d f).tsetw = s.tsetw := rfl
@[simp] theorem modDie_tstat (d : Nat) (f : Die → Die) : (modDie s d f).tstat = s.tstat := rfl
@[simp] theorem modDie_slew (d : Nat) (f : Die → Die) : (modDie s d f).slew = s.slew := rfl
@[simp] theorem modDie_hvbase (d : Nat) (f : Die → Die) : (modDie s d f).hvbase = s.hvbase := rfl
@[simp] theorem modDie_hvsize (d : Nat) (f : Die → Die) : (modDie s d f).hvsize = s.hvsize := rfl
@[simp] theorem modDie_hvhead (d : Nat) (f : Die → Die) : (modDie s d f).hvhead = s.hvhead := rfl
@[simp] theorem modDie_hvirqs (d : Nat) (f : Die → Die) : (modDie s d f).hvirqs = s.hvirqs := rfl
@[simp] theorem modDie_fwstat (d : Nat) (f : Die → Die) : (modDie s d f).fwstat = s.fwstat := rfl
@[simp] theorem modDie_fwimage (d : Nat) (f : Die → Die) : (modDie s d f).fwimage = s.fwimage := rfl
@[simp] theorem modDie_fwactive (d : Nat) (f : Die → Die) : (modDie s d f).fwactive = s.fwactive := rfl
@[simp] theorem modDie_fwcode (d : Nat) (f : Die → Die) : (modDie s d f).fwcode = s.fwcode := rfl
@[simp] theorem modDie_paused (d : Nat) (f : Die → Die) : (modDie s d f).paused = s.paused := rfl
@[simp] theorem modDie_lcstat (d : Nat) (f : Die → Die) : (modDie s d f).lcstat = s.lcstat := rfl
@[simp] theorem modDie_failmap (d : Nat) (f : Die → Die) : (modDie s d f).failmap = s.failmap := rfl
@[simp] theorem modDie_corrected (d : Nat) (f : Die → Die) : (modDie s d f).corrected = s.corrected := rfl
@[simp] theorem modDie_answer (d : Nat) (f : Die → Die) : (modDie s d f).answer = s.answer := rfl
@[simp] theorem modDie_coll (d : Nat) (f : Die → Die) : (modDie s d f).coll = s.coll := rfl
@[simp] theorem modDie_groups (d : Nat) (f : Die → Die) : (modDie s d f).groups = s.groups := rfl
@[simp] theorem modDie_peerOut (d : Nat) (f : Die → Die) : (modDie s d f).peerOut = s.peerOut := rfl
@[simp] theorem modDie_peerGot (d : Nat) (f : Die → Die) : (modDie s d f).peerGot = s.peerGot := rfl
@[simp] theorem modDie_replay (d : Nat) (f : Die → Die) : (modDie s d f).replay = s.replay := rfl
@[simp] theorem modDie_refills (d : Nat) (f : Die → Die) : (modDie s d f).refills = s.refills := rfl
@[simp] theorem modDie_charges (d : Nat) (f : Die → Die) : (modDie s d f).charges = s.charges := rfl
@[simp] theorem modDie_real (d : Nat) (f : Die → Die) : (modDie s d f).real = s.real := rfl
@[simp] theorem modDie_sinceEdge (d : Nat) (f : Die → Die) : (modDie s d f).sinceEdge = s.sinceEdge := rfl
@[simp] theorem modDie_sincePause (d : Nat) (f : Die → Die) : (modDie s d f).sincePause = s.sincePause := rfl

@[simp] theorem fresh_agenda : (fresh s).agenda = s.agenda := rfl
@[simp] theorem fresh_focus : (fresh s).focus = s.focus := rfl
@[simp] theorem fresh_cyc : (fresh s).cyc = s.cyc := rfl
@[simp] theorem fresh_free : (fresh s).free = s.free := rfl
@[simp] theorem fresh_cells : (fresh s).cells = s.cells := rfl
@[simp] theorem fresh_dies : (fresh s).dies = s.dies := rfl
@[simp] theorem fresh_mem : (fresh s).mem = s.mem := rfl
@[simp] theorem fresh_hostMem : (fresh s).hostMem = s.hostMem := rfl
@[simp] theorem fresh_hostDeny : (fresh s).hostDeny = s.hostDeny := rfl
@[simp] theorem fresh_poison : (fresh s).poison = s.poison := rfl
@[simp] theorem fresh_chan : (fresh s).chan = s.chan := rfl
@[simp] theorem fresh_hosts : (fresh s).hosts = s.hosts := rfl
@[simp] theorem fresh_codecs : (fresh s).codecs = s.codecs := rfl
@[simp] theorem fresh_regions : (fresh s).regions = s.regions := rfl
@[simp] theorem fresh_tctx : (fresh s).tctx = s.tctx := rfl
@[simp] theorem fresh_queues : (fresh s).queues = s.queues := rfl
@[simp] theorem fresh_kernels : (fresh s).kernels = s.kernels := rfl
@[simp] theorem fresh_newKernels : (fresh s).newKernels = s.newKernels := rfl
@[simp] theorem fresh_time : (fresh s).time = s.time := rfl
@[simp] theorem fresh_tset : (fresh s).tset = s.tset := rfl
@[simp] theorem fresh_tsetw : (fresh s).tsetw = s.tsetw := rfl
@[simp] theorem fresh_tstat : (fresh s).tstat = s.tstat := rfl
@[simp] theorem fresh_slew : (fresh s).slew = s.slew := rfl
@[simp] theorem fresh_hvbase : (fresh s).hvbase = s.hvbase := rfl
@[simp] theorem fresh_hvsize : (fresh s).hvsize = s.hvsize := rfl
@[simp] theorem fresh_hvhead : (fresh s).hvhead = s.hvhead := rfl
@[simp] theorem fresh_hvirqs : (fresh s).hvirqs = s.hvirqs := rfl
@[simp] theorem fresh_fwstat : (fresh s).fwstat = s.fwstat := rfl
@[simp] theorem fresh_fwimage : (fresh s).fwimage = s.fwimage := rfl
@[simp] theorem fresh_fwactive : (fresh s).fwactive = s.fwactive := rfl
@[simp] theorem fresh_fwcode : (fresh s).fwcode = s.fwcode := rfl
@[simp] theorem fresh_paused : (fresh s).paused = s.paused := rfl
@[simp] theorem fresh_lcstat : (fresh s).lcstat = s.lcstat := rfl
@[simp] theorem fresh_failmap : (fresh s).failmap = s.failmap := rfl
@[simp] theorem fresh_corrected : (fresh s).corrected = s.corrected := rfl
@[simp] theorem fresh_answer : (fresh s).answer = s.answer := rfl
@[simp] theorem fresh_coll : (fresh s).coll = s.coll := rfl
@[simp] theorem fresh_groups : (fresh s).groups = s.groups := rfl
@[simp] theorem fresh_peerOut : (fresh s).peerOut = s.peerOut := rfl
@[simp] theorem fresh_peerGot : (fresh s).peerGot = s.peerGot := rfl
@[simp] theorem fresh_replay : (fresh s).replay = s.replay := rfl
@[simp] theorem fresh_refills : (fresh s).refills = s.refills := rfl
@[simp] theorem fresh_charges : (fresh s).charges = s.charges := rfl
@[simp] theorem fresh_real : (fresh s).real = s.real := rfl
@[simp] theorem fresh_sinceEdge : (fresh s).sinceEdge = s.sinceEdge := rfl
@[simp] theorem fresh_sincePause : (fresh s).sincePause = s.sincePause := rfl

@[simp] theorem setCtx_agenda (n : Nat) (w : Bool) (c : Ctx) : (setCtx s n w c).agenda = s.agenda := rfl
@[simp] theorem setCtx_focus (n : Nat) (w : Bool) (c : Ctx) : (setCtx s n w c).focus = s.focus := rfl
@[simp] theorem setCtx_cyc (n : Nat) (w : Bool) (c : Ctx) : (setCtx s n w c).cyc = s.cyc := rfl
@[simp] theorem setCtx_free (n : Nat) (w : Bool) (c : Ctx) : (setCtx s n w c).free = s.free := rfl
@[simp] theorem setCtx_seq (n : Nat) (w : Bool) (c : Ctx) : (setCtx s n w c).seq = s.seq := rfl
@[simp] theorem setCtx_dies (n : Nat) (w : Bool) (c : Ctx) : (setCtx s n w c).dies = s.dies := rfl
@[simp] theorem setCtx_mem (n : Nat) (w : Bool) (c : Ctx) : (setCtx s n w c).mem = s.mem := rfl
@[simp] theorem setCtx_hostMem (n : Nat) (w : Bool) (c : Ctx) : (setCtx s n w c).hostMem = s.hostMem := rfl
@[simp] theorem setCtx_hostDeny (n : Nat) (w : Bool) (c : Ctx) : (setCtx s n w c).hostDeny = s.hostDeny := rfl
@[simp] theorem setCtx_poison (n : Nat) (w : Bool) (c : Ctx) : (setCtx s n w c).poison = s.poison := rfl
@[simp] theorem setCtx_chan (n : Nat) (w : Bool) (c : Ctx) : (setCtx s n w c).chan = s.chan := rfl
@[simp] theorem setCtx_hosts (n : Nat) (w : Bool) (c : Ctx) : (setCtx s n w c).hosts = s.hosts := rfl
@[simp] theorem setCtx_codecs (n : Nat) (w : Bool) (c : Ctx) : (setCtx s n w c).codecs = s.codecs := rfl
@[simp] theorem setCtx_regions (n : Nat) (w : Bool) (c : Ctx) : (setCtx s n w c).regions = s.regions := rfl
@[simp] theorem setCtx_tctx (n : Nat) (w : Bool) (c : Ctx) : (setCtx s n w c).tctx = s.tctx := rfl
@[simp] theorem setCtx_queues (n : Nat) (w : Bool) (c : Ctx) : (setCtx s n w c).queues = s.queues := rfl
@[simp] theorem setCtx_kernels (n : Nat) (w : Bool) (c : Ctx) : (setCtx s n w c).kernels = s.kernels := rfl
@[simp] theorem setCtx_newKernels (n : Nat) (w : Bool) (c : Ctx) : (setCtx s n w c).newKernels = s.newKernels := rfl
@[simp] theorem setCtx_time (n : Nat) (w : Bool) (c : Ctx) : (setCtx s n w c).time = s.time := rfl
@[simp] theorem setCtx_tset (n : Nat) (w : Bool) (c : Ctx) : (setCtx s n w c).tset = s.tset := rfl
@[simp] theorem setCtx_tsetw (n : Nat) (w : Bool) (c : Ctx) : (setCtx s n w c).tsetw = s.tsetw := rfl
@[simp] theorem setCtx_tstat (n : Nat) (w : Bool) (c : Ctx) : (setCtx s n w c).tstat = s.tstat := rfl
@[simp] theorem setCtx_slew (n : Nat) (w : Bool) (c : Ctx) : (setCtx s n w c).slew = s.slew := rfl
@[simp] theorem setCtx_hvbase (n : Nat) (w : Bool) (c : Ctx) : (setCtx s n w c).hvbase = s.hvbase := rfl
@[simp] theorem setCtx_hvsize (n : Nat) (w : Bool) (c : Ctx) : (setCtx s n w c).hvsize = s.hvsize := rfl
@[simp] theorem setCtx_hvhead (n : Nat) (w : Bool) (c : Ctx) : (setCtx s n w c).hvhead = s.hvhead := rfl
@[simp] theorem setCtx_hvirqs (n : Nat) (w : Bool) (c : Ctx) : (setCtx s n w c).hvirqs = s.hvirqs := rfl
@[simp] theorem setCtx_fwstat (n : Nat) (w : Bool) (c : Ctx) : (setCtx s n w c).fwstat = s.fwstat := rfl
@[simp] theorem setCtx_fwimage (n : Nat) (w : Bool) (c : Ctx) : (setCtx s n w c).fwimage = s.fwimage := rfl
@[simp] theorem setCtx_fwactive (n : Nat) (w : Bool) (c : Ctx) : (setCtx s n w c).fwactive = s.fwactive := rfl
@[simp] theorem setCtx_fwcode (n : Nat) (w : Bool) (c : Ctx) : (setCtx s n w c).fwcode = s.fwcode := rfl
@[simp] theorem setCtx_paused (n : Nat) (w : Bool) (c : Ctx) : (setCtx s n w c).paused = s.paused := rfl
@[simp] theorem setCtx_lcstat (n : Nat) (w : Bool) (c : Ctx) : (setCtx s n w c).lcstat = s.lcstat := rfl
@[simp] theorem setCtx_failmap (n : Nat) (w : Bool) (c : Ctx) : (setCtx s n w c).failmap = s.failmap := rfl
@[simp] theorem setCtx_corrected (n : Nat) (w : Bool) (c : Ctx) : (setCtx s n w c).corrected = s.corrected := rfl
@[simp] theorem setCtx_answer (n : Nat) (w : Bool) (c : Ctx) : (setCtx s n w c).answer = s.answer := rfl
@[simp] theorem setCtx_coll (n : Nat) (w : Bool) (c : Ctx) : (setCtx s n w c).coll = s.coll := rfl
@[simp] theorem setCtx_groups (n : Nat) (w : Bool) (c : Ctx) : (setCtx s n w c).groups = s.groups := rfl
@[simp] theorem setCtx_peerOut (n : Nat) (w : Bool) (c : Ctx) : (setCtx s n w c).peerOut = s.peerOut := rfl
@[simp] theorem setCtx_peerGot (n : Nat) (w : Bool) (c : Ctx) : (setCtx s n w c).peerGot = s.peerGot := rfl
@[simp] theorem setCtx_replay (n : Nat) (w : Bool) (c : Ctx) : (setCtx s n w c).replay = s.replay := rfl
@[simp] theorem setCtx_refills (n : Nat) (w : Bool) (c : Ctx) : (setCtx s n w c).refills = s.refills := rfl
@[simp] theorem setCtx_charges (n : Nat) (w : Bool) (c : Ctx) : (setCtx s n w c).charges = s.charges := rfl
@[simp] theorem setCtx_real (n : Nat) (w : Bool) (c : Ctx) : (setCtx s n w c).real = s.real := rfl
@[simp] theorem setCtx_sinceEdge (n : Nat) (w : Bool) (c : Ctx) : (setCtx s n w c).sinceEdge = s.sinceEdge := rfl
@[simp] theorem setCtx_sincePause (n : Nat) (w : Bool) (c : Ctx) : (setCtx s n w c).sincePause = s.sincePause := rfl

@[simp] theorem modCtx_agenda (n : Nat) (w : Bool) (f : Ctx → Ctx) : (modCtx s n w f).agenda = s.agenda := rfl
@[simp] theorem modCtx_focus (n : Nat) (w : Bool) (f : Ctx → Ctx) : (modCtx s n w f).focus = s.focus := rfl
@[simp] theorem modCtx_cyc (n : Nat) (w : Bool) (f : Ctx → Ctx) : (modCtx s n w f).cyc = s.cyc := rfl
@[simp] theorem modCtx_free (n : Nat) (w : Bool) (f : Ctx → Ctx) : (modCtx s n w f).free = s.free := rfl
@[simp] theorem modCtx_seq (n : Nat) (w : Bool) (f : Ctx → Ctx) : (modCtx s n w f).seq = s.seq := rfl
@[simp] theorem modCtx_dies (n : Nat) (w : Bool) (f : Ctx → Ctx) : (modCtx s n w f).dies = s.dies := rfl
@[simp] theorem modCtx_mem (n : Nat) (w : Bool) (f : Ctx → Ctx) : (modCtx s n w f).mem = s.mem := rfl
@[simp] theorem modCtx_hostMem (n : Nat) (w : Bool) (f : Ctx → Ctx) : (modCtx s n w f).hostMem = s.hostMem := rfl
@[simp] theorem modCtx_hostDeny (n : Nat) (w : Bool) (f : Ctx → Ctx) : (modCtx s n w f).hostDeny = s.hostDeny := rfl
@[simp] theorem modCtx_poison (n : Nat) (w : Bool) (f : Ctx → Ctx) : (modCtx s n w f).poison = s.poison := rfl
@[simp] theorem modCtx_chan (n : Nat) (w : Bool) (f : Ctx → Ctx) : (modCtx s n w f).chan = s.chan := rfl
@[simp] theorem modCtx_hosts (n : Nat) (w : Bool) (f : Ctx → Ctx) : (modCtx s n w f).hosts = s.hosts := rfl
@[simp] theorem modCtx_codecs (n : Nat) (w : Bool) (f : Ctx → Ctx) : (modCtx s n w f).codecs = s.codecs := rfl
@[simp] theorem modCtx_regions (n : Nat) (w : Bool) (f : Ctx → Ctx) : (modCtx s n w f).regions = s.regions := rfl
@[simp] theorem modCtx_tctx (n : Nat) (w : Bool) (f : Ctx → Ctx) : (modCtx s n w f).tctx = s.tctx := rfl
@[simp] theorem modCtx_queues (n : Nat) (w : Bool) (f : Ctx → Ctx) : (modCtx s n w f).queues = s.queues := rfl
@[simp] theorem modCtx_kernels (n : Nat) (w : Bool) (f : Ctx → Ctx) : (modCtx s n w f).kernels = s.kernels := rfl
@[simp] theorem modCtx_newKernels (n : Nat) (w : Bool) (f : Ctx → Ctx) : (modCtx s n w f).newKernels = s.newKernels := rfl
@[simp] theorem modCtx_time (n : Nat) (w : Bool) (f : Ctx → Ctx) : (modCtx s n w f).time = s.time := rfl
@[simp] theorem modCtx_tset (n : Nat) (w : Bool) (f : Ctx → Ctx) : (modCtx s n w f).tset = s.tset := rfl
@[simp] theorem modCtx_tsetw (n : Nat) (w : Bool) (f : Ctx → Ctx) : (modCtx s n w f).tsetw = s.tsetw := rfl
@[simp] theorem modCtx_tstat (n : Nat) (w : Bool) (f : Ctx → Ctx) : (modCtx s n w f).tstat = s.tstat := rfl
@[simp] theorem modCtx_slew (n : Nat) (w : Bool) (f : Ctx → Ctx) : (modCtx s n w f).slew = s.slew := rfl
@[simp] theorem modCtx_hvbase (n : Nat) (w : Bool) (f : Ctx → Ctx) : (modCtx s n w f).hvbase = s.hvbase := rfl
@[simp] theorem modCtx_hvsize (n : Nat) (w : Bool) (f : Ctx → Ctx) : (modCtx s n w f).hvsize = s.hvsize := rfl
@[simp] theorem modCtx_hvhead (n : Nat) (w : Bool) (f : Ctx → Ctx) : (modCtx s n w f).hvhead = s.hvhead := rfl
@[simp] theorem modCtx_hvirqs (n : Nat) (w : Bool) (f : Ctx → Ctx) : (modCtx s n w f).hvirqs = s.hvirqs := rfl
@[simp] theorem modCtx_fwstat (n : Nat) (w : Bool) (f : Ctx → Ctx) : (modCtx s n w f).fwstat = s.fwstat := rfl
@[simp] theorem modCtx_fwimage (n : Nat) (w : Bool) (f : Ctx → Ctx) : (modCtx s n w f).fwimage = s.fwimage := rfl
@[simp] theorem modCtx_fwactive (n : Nat) (w : Bool) (f : Ctx → Ctx) : (modCtx s n w f).fwactive = s.fwactive := rfl
@[simp] theorem modCtx_fwcode (n : Nat) (w : Bool) (f : Ctx → Ctx) : (modCtx s n w f).fwcode = s.fwcode := rfl
@[simp] theorem modCtx_paused (n : Nat) (w : Bool) (f : Ctx → Ctx) : (modCtx s n w f).paused = s.paused := rfl
@[simp] theorem modCtx_lcstat (n : Nat) (w : Bool) (f : Ctx → Ctx) : (modCtx s n w f).lcstat = s.lcstat := rfl
@[simp] theorem modCtx_failmap (n : Nat) (w : Bool) (f : Ctx → Ctx) : (modCtx s n w f).failmap = s.failmap := rfl
@[simp] theorem modCtx_corrected (n : Nat) (w : Bool) (f : Ctx → Ctx) : (modCtx s n w f).corrected = s.corrected := rfl
@[simp] theorem modCtx_answer (n : Nat) (w : Bool) (f : Ctx → Ctx) : (modCtx s n w f).answer = s.answer := rfl
@[simp] theorem modCtx_coll (n : Nat) (w : Bool) (f : Ctx → Ctx) : (modCtx s n w f).coll = s.coll := rfl
@[simp] theorem modCtx_groups (n : Nat) (w : Bool) (f : Ctx → Ctx) : (modCtx s n w f).groups = s.groups := rfl
@[simp] theorem modCtx_peerOut (n : Nat) (w : Bool) (f : Ctx → Ctx) : (modCtx s n w f).peerOut = s.peerOut := rfl
@[simp] theorem modCtx_peerGot (n : Nat) (w : Bool) (f : Ctx → Ctx) : (modCtx s n w f).peerGot = s.peerGot := rfl
@[simp] theorem modCtx_replay (n : Nat) (w : Bool) (f : Ctx → Ctx) : (modCtx s n w f).replay = s.replay := rfl
@[simp] theorem modCtx_refills (n : Nat) (w : Bool) (f : Ctx → Ctx) : (modCtx s n w f).refills = s.refills := rfl
@[simp] theorem modCtx_charges (n : Nat) (w : Bool) (f : Ctx → Ctx) : (modCtx s n w f).charges = s.charges := rfl
@[simp] theorem modCtx_real (n : Nat) (w : Bool) (f : Ctx → Ctx) : (modCtx s n w f).real = s.real := rfl
@[simp] theorem modCtx_sinceEdge (n : Nat) (w : Bool) (f : Ctx → Ctx) : (modCtx s n w f).sinceEdge = s.sinceEdge := rfl
@[simp] theorem modCtx_sincePause (n : Nat) (w : Bool) (f : Ctx → Ctx) : (modCtx s n w f).sincePause = s.sincePause := rfl

@[simp] theorem modCur_agenda (f : Ctx → Ctx) : (modCur s f).agenda = s.agenda := rfl
@[simp] theorem modCur_focus (f : Ctx → Ctx) : (modCur s f).focus = s.focus := rfl
@[simp] theorem modCur_cyc (f : Ctx → Ctx) : (modCur s f).cyc = s.cyc := rfl
@[simp] theorem modCur_free (f : Ctx → Ctx) : (modCur s f).free = s.free := rfl
@[simp] theorem modCur_seq (f : Ctx → Ctx) : (modCur s f).seq = s.seq := rfl
@[simp] theorem modCur_dies (f : Ctx → Ctx) : (modCur s f).dies = s.dies := rfl
@[simp] theorem modCur_mem (f : Ctx → Ctx) : (modCur s f).mem = s.mem := rfl
@[simp] theorem modCur_hostMem (f : Ctx → Ctx) : (modCur s f).hostMem = s.hostMem := rfl
@[simp] theorem modCur_hostDeny (f : Ctx → Ctx) : (modCur s f).hostDeny = s.hostDeny := rfl
@[simp] theorem modCur_poison (f : Ctx → Ctx) : (modCur s f).poison = s.poison := rfl
@[simp] theorem modCur_chan (f : Ctx → Ctx) : (modCur s f).chan = s.chan := rfl
@[simp] theorem modCur_hosts (f : Ctx → Ctx) : (modCur s f).hosts = s.hosts := rfl
@[simp] theorem modCur_codecs (f : Ctx → Ctx) : (modCur s f).codecs = s.codecs := rfl
@[simp] theorem modCur_regions (f : Ctx → Ctx) : (modCur s f).regions = s.regions := rfl
@[simp] theorem modCur_tctx (f : Ctx → Ctx) : (modCur s f).tctx = s.tctx := rfl
@[simp] theorem modCur_queues (f : Ctx → Ctx) : (modCur s f).queues = s.queues := rfl
@[simp] theorem modCur_kernels (f : Ctx → Ctx) : (modCur s f).kernels = s.kernels := rfl
@[simp] theorem modCur_newKernels (f : Ctx → Ctx) : (modCur s f).newKernels = s.newKernels := rfl
@[simp] theorem modCur_time (f : Ctx → Ctx) : (modCur s f).time = s.time := rfl
@[simp] theorem modCur_tset (f : Ctx → Ctx) : (modCur s f).tset = s.tset := rfl
@[simp] theorem modCur_tsetw (f : Ctx → Ctx) : (modCur s f).tsetw = s.tsetw := rfl
@[simp] theorem modCur_tstat (f : Ctx → Ctx) : (modCur s f).tstat = s.tstat := rfl
@[simp] theorem modCur_slew (f : Ctx → Ctx) : (modCur s f).slew = s.slew := rfl
@[simp] theorem modCur_hvbase (f : Ctx → Ctx) : (modCur s f).hvbase = s.hvbase := rfl
@[simp] theorem modCur_hvsize (f : Ctx → Ctx) : (modCur s f).hvsize = s.hvsize := rfl
@[simp] theorem modCur_hvhead (f : Ctx → Ctx) : (modCur s f).hvhead = s.hvhead := rfl
@[simp] theorem modCur_hvirqs (f : Ctx → Ctx) : (modCur s f).hvirqs = s.hvirqs := rfl
@[simp] theorem modCur_fwstat (f : Ctx → Ctx) : (modCur s f).fwstat = s.fwstat := rfl
@[simp] theorem modCur_fwimage (f : Ctx → Ctx) : (modCur s f).fwimage = s.fwimage := rfl
@[simp] theorem modCur_fwactive (f : Ctx → Ctx) : (modCur s f).fwactive = s.fwactive := rfl
@[simp] theorem modCur_fwcode (f : Ctx → Ctx) : (modCur s f).fwcode = s.fwcode := rfl
@[simp] theorem modCur_paused (f : Ctx → Ctx) : (modCur s f).paused = s.paused := rfl
@[simp] theorem modCur_lcstat (f : Ctx → Ctx) : (modCur s f).lcstat = s.lcstat := rfl
@[simp] theorem modCur_failmap (f : Ctx → Ctx) : (modCur s f).failmap = s.failmap := rfl
@[simp] theorem modCur_corrected (f : Ctx → Ctx) : (modCur s f).corrected = s.corrected := rfl
@[simp] theorem modCur_answer (f : Ctx → Ctx) : (modCur s f).answer = s.answer := rfl
@[simp] theorem modCur_coll (f : Ctx → Ctx) : (modCur s f).coll = s.coll := rfl
@[simp] theorem modCur_groups (f : Ctx → Ctx) : (modCur s f).groups = s.groups := rfl
@[simp] theorem modCur_peerOut (f : Ctx → Ctx) : (modCur s f).peerOut = s.peerOut := rfl
@[simp] theorem modCur_peerGot (f : Ctx → Ctx) : (modCur s f).peerGot = s.peerGot := rfl
@[simp] theorem modCur_replay (f : Ctx → Ctx) : (modCur s f).replay = s.replay := rfl
@[simp] theorem modCur_refills (f : Ctx → Ctx) : (modCur s f).refills = s.refills := rfl
@[simp] theorem modCur_charges (f : Ctx → Ctx) : (modCur s f).charges = s.charges := rfl
@[simp] theorem modCur_real (f : Ctx → Ctx) : (modCur s f).real = s.real := rfl
@[simp] theorem modCur_sinceEdge (f : Ctx → Ctx) : (modCur s f).sinceEdge = s.sinceEdge := rfl
@[simp] theorem modCur_sincePause (f : Ctx → Ctx) : (modCur s f).sincePause = s.sincePause := rfl

@[simp] theorem launch_agenda (f : Flight) : (launch s f).agenda = s.agenda := rfl
@[simp] theorem launch_focus (f : Flight) : (launch s f).focus = s.focus := rfl
@[simp] theorem launch_cyc (f : Flight) : (launch s f).cyc = s.cyc := rfl
@[simp] theorem launch_free (f : Flight) : (launch s f).free = s.free := rfl
@[simp] theorem launch_seq (f : Flight) : (launch s f).seq = s.seq := rfl
@[simp] theorem launch_dies (f : Flight) : (launch s f).dies = s.dies := rfl
@[simp] theorem launch_mem (f : Flight) : (launch s f).mem = s.mem := rfl
@[simp] theorem launch_hostMem (f : Flight) : (launch s f).hostMem = s.hostMem := rfl
@[simp] theorem launch_hostDeny (f : Flight) : (launch s f).hostDeny = s.hostDeny := rfl
@[simp] theorem launch_poison (f : Flight) : (launch s f).poison = s.poison := rfl
@[simp] theorem launch_chan (f : Flight) : (launch s f).chan = s.chan := rfl
@[simp] theorem launch_hosts (f : Flight) : (launch s f).hosts = s.hosts := rfl
@[simp] theorem launch_codecs (f : Flight) : (launch s f).codecs = s.codecs := rfl
@[simp] theorem launch_regions (f : Flight) : (launch s f).regions = s.regions := rfl
@[simp] theorem launch_tctx (f : Flight) : (launch s f).tctx = s.tctx := rfl
@[simp] theorem launch_queues (f : Flight) : (launch s f).queues = s.queues := rfl
@[simp] theorem launch_kernels (f : Flight) : (launch s f).kernels = s.kernels := rfl
@[simp] theorem launch_newKernels (f : Flight) : (launch s f).newKernels = s.newKernels := rfl
@[simp] theorem launch_time (f : Flight) : (launch s f).time = s.time := rfl
@[simp] theorem launch_tset (f : Flight) : (launch s f).tset = s.tset := rfl
@[simp] theorem launch_tsetw (f : Flight) : (launch s f).tsetw = s.tsetw := rfl
@[simp] theorem launch_tstat (f : Flight) : (launch s f).tstat = s.tstat := rfl
@[simp] theorem launch_slew (f : Flight) : (launch s f).slew = s.slew := rfl
@[simp] theorem launch_hvbase (f : Flight) : (launch s f).hvbase = s.hvbase := rfl
@[simp] theorem launch_hvsize (f : Flight) : (launch s f).hvsize = s.hvsize := rfl
@[simp] theorem launch_hvhead (f : Flight) : (launch s f).hvhead = s.hvhead := rfl
@[simp] theorem launch_hvirqs (f : Flight) : (launch s f).hvirqs = s.hvirqs := rfl
@[simp] theorem launch_fwstat (f : Flight) : (launch s f).fwstat = s.fwstat := rfl
@[simp] theorem launch_fwimage (f : Flight) : (launch s f).fwimage = s.fwimage := rfl
@[simp] theorem launch_fwactive (f : Flight) : (launch s f).fwactive = s.fwactive := rfl
@[simp] theorem launch_fwcode (f : Flight) : (launch s f).fwcode = s.fwcode := rfl
@[simp] theorem launch_paused (f : Flight) : (launch s f).paused = s.paused := rfl
@[simp] theorem launch_lcstat (f : Flight) : (launch s f).lcstat = s.lcstat := rfl
@[simp] theorem launch_failmap (f : Flight) : (launch s f).failmap = s.failmap := rfl
@[simp] theorem launch_corrected (f : Flight) : (launch s f).corrected = s.corrected := rfl
@[simp] theorem launch_answer (f : Flight) : (launch s f).answer = s.answer := rfl
@[simp] theorem launch_coll (f : Flight) : (launch s f).coll = s.coll := rfl
@[simp] theorem launch_groups (f : Flight) : (launch s f).groups = s.groups := rfl
@[simp] theorem launch_peerOut (f : Flight) : (launch s f).peerOut = s.peerOut := rfl
@[simp] theorem launch_peerGot (f : Flight) : (launch s f).peerGot = s.peerGot := rfl
@[simp] theorem launch_replay (f : Flight) : (launch s f).replay = s.replay := rfl
@[simp] theorem launch_refills (f : Flight) : (launch s f).refills = s.refills := rfl
@[simp] theorem launch_charges (f : Flight) : (launch s f).charges = s.charges := rfl
@[simp] theorem launch_real (f : Flight) : (launch s f).real = s.real := rfl
@[simp] theorem launch_sinceEdge (f : Flight) : (launch s f).sinceEdge = s.sinceEdge := rfl
@[simp] theorem launch_sincePause (f : Flight) : (launch s f).sincePause = s.sincePause := rfl

@[simp] theorem raise_agenda (a b : Nat) (d : Bool) (i j : Word) : (raise s a b d i j).agenda = s.agenda := rfl
@[simp] theorem raise_focus (a b : Nat) (d : Bool) (i j : Word) : (raise s a b d i j).focus = s.focus := rfl
@[simp] theorem raise_free (a b : Nat) (d : Bool) (i j : Word) : (raise s a b d i j).free = s.free := rfl
@[simp] theorem raise_seq (a b : Nat) (d : Bool) (i j : Word) : (raise s a b d i j).seq = s.seq := rfl
@[simp] theorem raise_cells (a b : Nat) (d : Bool) (i j : Word) : (raise s a b d i j).cells = s.cells := rfl
@[simp] theorem raise_dies (a b : Nat) (d : Bool) (i j : Word) : (raise s a b d i j).dies = s.dies := rfl
@[simp] theorem raise_mem (a b : Nat) (d : Bool) (i j : Word) : (raise s a b d i j).mem = s.mem := rfl
@[simp] theorem raise_hostMem (a b : Nat) (d : Bool) (i j : Word) : (raise s a b d i j).hostMem = s.hostMem := rfl
@[simp] theorem raise_hostDeny (a b : Nat) (d : Bool) (i j : Word) : (raise s a b d i j).hostDeny = s.hostDeny := rfl
@[simp] theorem raise_poison (a b : Nat) (d : Bool) (i j : Word) : (raise s a b d i j).poison = s.poison := rfl
@[simp] theorem raise_chan (a b : Nat) (d : Bool) (i j : Word) : (raise s a b d i j).chan = s.chan := rfl
@[simp] theorem raise_hosts (a b : Nat) (d : Bool) (i j : Word) : (raise s a b d i j).hosts = s.hosts := rfl
@[simp] theorem raise_codecs (a b : Nat) (d : Bool) (i j : Word) : (raise s a b d i j).codecs = s.codecs := rfl
@[simp] theorem raise_regions (a b : Nat) (d : Bool) (i j : Word) : (raise s a b d i j).regions = s.regions := rfl
@[simp] theorem raise_tctx (a b : Nat) (d : Bool) (i j : Word) : (raise s a b d i j).tctx = s.tctx := rfl
@[simp] theorem raise_queues (a b : Nat) (d : Bool) (i j : Word) : (raise s a b d i j).queues = s.queues := rfl
@[simp] theorem raise_kernels (a b : Nat) (d : Bool) (i j : Word) : (raise s a b d i j).kernels = s.kernels := rfl
@[simp] theorem raise_newKernels (a b : Nat) (d : Bool) (i j : Word) : (raise s a b d i j).newKernels = s.newKernels := rfl
@[simp] theorem raise_time (a b : Nat) (d : Bool) (i j : Word) : (raise s a b d i j).time = s.time := rfl
@[simp] theorem raise_tset (a b : Nat) (d : Bool) (i j : Word) : (raise s a b d i j).tset = s.tset := rfl
@[simp] theorem raise_tsetw (a b : Nat) (d : Bool) (i j : Word) : (raise s a b d i j).tsetw = s.tsetw := rfl
@[simp] theorem raise_tstat (a b : Nat) (d : Bool) (i j : Word) : (raise s a b d i j).tstat = s.tstat := rfl
@[simp] theorem raise_slew (a b : Nat) (d : Bool) (i j : Word) : (raise s a b d i j).slew = s.slew := rfl
@[simp] theorem raise_hvbase (a b : Nat) (d : Bool) (i j : Word) : (raise s a b d i j).hvbase = s.hvbase := rfl
@[simp] theorem raise_hvsize (a b : Nat) (d : Bool) (i j : Word) : (raise s a b d i j).hvsize = s.hvsize := rfl
@[simp] theorem raise_hvhead (a b : Nat) (d : Bool) (i j : Word) : (raise s a b d i j).hvhead = s.hvhead := rfl
@[simp] theorem raise_hvirqs (a b : Nat) (d : Bool) (i j : Word) : (raise s a b d i j).hvirqs = s.hvirqs := rfl
@[simp] theorem raise_fwstat (a b : Nat) (d : Bool) (i j : Word) : (raise s a b d i j).fwstat = s.fwstat := rfl
@[simp] theorem raise_fwimage (a b : Nat) (d : Bool) (i j : Word) : (raise s a b d i j).fwimage = s.fwimage := rfl
@[simp] theorem raise_fwactive (a b : Nat) (d : Bool) (i j : Word) : (raise s a b d i j).fwactive = s.fwactive := rfl
@[simp] theorem raise_fwcode (a b : Nat) (d : Bool) (i j : Word) : (raise s a b d i j).fwcode = s.fwcode := rfl
@[simp] theorem raise_paused (a b : Nat) (d : Bool) (i j : Word) : (raise s a b d i j).paused = s.paused := rfl
@[simp] theorem raise_lcstat (a b : Nat) (d : Bool) (i j : Word) : (raise s a b d i j).lcstat = s.lcstat := rfl
@[simp] theorem raise_failmap (a b : Nat) (d : Bool) (i j : Word) : (raise s a b d i j).failmap = s.failmap := rfl
@[simp] theorem raise_corrected (a b : Nat) (d : Bool) (i j : Word) : (raise s a b d i j).corrected = s.corrected := rfl
@[simp] theorem raise_answer (a b : Nat) (d : Bool) (i j : Word) : (raise s a b d i j).answer = s.answer := rfl
@[simp] theorem raise_coll (a b : Nat) (d : Bool) (i j : Word) : (raise s a b d i j).coll = s.coll := rfl
@[simp] theorem raise_groups (a b : Nat) (d : Bool) (i j : Word) : (raise s a b d i j).groups = s.groups := rfl
@[simp] theorem raise_peerOut (a b : Nat) (d : Bool) (i j : Word) : (raise s a b d i j).peerOut = s.peerOut := rfl
@[simp] theorem raise_peerGot (a b : Nat) (d : Bool) (i j : Word) : (raise s a b d i j).peerGot = s.peerGot := rfl
@[simp] theorem raise_replay (a b : Nat) (d : Bool) (i j : Word) : (raise s a b d i j).replay = s.replay := rfl
@[simp] theorem raise_refills (a b : Nat) (d : Bool) (i j : Word) : (raise s a b d i j).refills = s.refills := rfl
@[simp] theorem raise_charges (a b : Nat) (d : Bool) (i j : Word) : (raise s a b d i j).charges = s.charges := rfl
@[simp] theorem raise_real (a b : Nat) (d : Bool) (i j : Word) : (raise s a b d i j).real = s.real := rfl
@[simp] theorem raise_sinceEdge (a b : Nat) (d : Bool) (i j : Word) : (raise s a b d i j).sinceEdge = s.sinceEdge := rfl
@[simp] theorem raise_sincePause (a b : Nat) (d : Bool) (i j : Word) : (raise s a b d i j).sincePause = s.sincePause := rfl

end Fields

/-! ### Cells and contexts -/

theorem smPut_smPut {α : Type} (m : SMap α) (k : Nat) (u v : α) : smPut (smPut m k u) k v = smPut m k v := by
  induction m with
  | nil => simp [smPut]
  | cons e m ih =>
    obtain ⟨j, x⟩ := e
    simp only [smPut]
    split
    · simp [smPut]
    · split
      · simp [smPut]
      · rename_i h1 h2
        simp [smPut, h1, h2, ih]

@[simp] theorem getCell_setCell_same (s : State) (n : Nat) (c : Cell) : getCell (setCell s n c) n = c :=
  smGet_smPut_same _ _ _ _

theorem getCell_setCell_other (s : State) {n m : Nat} (c : Cell) (h : m ≠ n) : getCell (setCell s n c) m = getCell s m :=
  smGet_smPut_other _ _ _ h

@[simp] theorem setCell_setCell (s : State) (n : Nat) (c d : Cell) : setCell (setCell s n c) n d = setCell s n d := by
  simp [setCell, smPut_smPut]

@[simp] theorem getCell_modCell_same (s : State) (n : Nat) (f : Cell → Cell) : getCell (modCell s n f) n = f (getCell s n) :=
  getCell_setCell_same _ _ _

theorem getCell_modCell_other (s : State) {n m : Nat} (f : Cell → Cell) (h : m ≠ n) :
    getCell (modCell s n f) m = getCell s m := getCell_setCell_other _ _ h

theorem modCell_modCell (s : State) (n : Nat) (f g : Cell → Cell) : modCell (modCell s n f) n g = modCell s n fun c => g (f c) := by
  simp [modCell]

@[simp] theorem getDie_modDie_same (s : State) (d : Nat) (f : Die → Die) : getDie (modDie s d f) d = f (getDie s d) :=
  smGet_smPut_same _ _ _ _

theorem getDie_modDie_other (s : State) {d e : Nat} (f : Die → Die) (h : e ≠ d) : getDie (modDie s d f) e = getDie s e :=
  smGet_smPut_other _ _ _ h

@[simp] theorem getDie_modCell (s : State) (n d : Nat) (f : Cell → Cell) : getDie (modCell s n f) d = getDie s d := rfl

@[simp] theorem getCell_modDie (s : State) (n d : Nat) (f : Die → Die) : getCell (modDie s d f) n = getCell s n := rfl

@[simp] theorem getCtx_setCtx_same (s : State) (n : Nat) (w : Bool) (c : Ctx) : getCtx (setCtx s n w c) n w = c := by
  cases w <;> simp [getCtx, setCtx]

@[simp] theorem getCtx_modCtx_same (s : State) (n : Nat) (w : Bool) (f : Ctx → Ctx) :
    getCtx (modCtx s n w f) n w = f (getCtx s n w) := getCtx_setCtx_same _ _ _ _

/-- The two contexts of a cell are apart. -/
theorem getCtx_modCtx_apart (s : State) (n : Nat) (w : Bool) (f : Ctx → Ctx) :
    getCtx (modCtx s n w f) n (!w) = getCtx s n (!w) := by
  cases w <;> simp [getCtx, modCtx, setCtx]

theorem getCtx_modCtx_other (s : State) {n m : Nat} (w v : Bool) (f : Ctx → Ctx) (h : m ≠ n) :
    getCtx (modCtx s n w f) m v = getCtx s m v := by
  simp [getCtx, modCtx, setCtx, getCell_modCell_other s _ h]

theorem modCtx_modCtx (s : State) (n : Nat) (w : Bool) (f g : Ctx → Ctx) :
    modCtx (modCtx s n w f) n w g = modCtx s n w fun c => g (f c) := by
  cases w <;> simp [modCtx, setCtx, modCell_modCell, getCtx]

theorem modCur_modCur (s : State) (f g : Ctx → Ctx) : modCur (modCur s f) g = modCur s fun c => g (f c) :=
  modCtx_modCtx s s.cyc.cell s.cyc.fw f g

@[simp] theorem cur_modCur (s : State) (f : Ctx → Ctx) : cur (modCur s f) = f (cur s) := getCtx_modCtx_same _ _ _ _

@[simp] theorem cur_raise (s : State) (a b : Nat) (d : Bool) (i j : Word) : cur (raise s a b d i j) = cur s := rfl

/-! ### Writes in flight -/

/-- Put in flight: one more write, and nothing else of the context. -/
@[simp] theorem cur_launch (s : State) (f : Flight) : cur (launch s f) = { cur s with flights := (cur s).flights ++ [f] } :=
  cur_modCur _ _

theorem launch_eq (s : State) (f : Flight) : launch s f = modCur s fun c => { c with flights := c.flights ++ [f] } := rfl

/-- Writes put in flight one after the other. -/
theorem modCur_flights_append (s : State) (fs gs : List Flight) :
    modCur (modCur s fun c => { c with flights := c.flights ++ fs }) (fun c => { c with flights := c.flights ++ gs }) =
      modCur s fun c => { c with flights := c.flights ++ (fs ++ gs) } := by
  rw [modCur_modCur]
  simp [List.append_assoc]

/-- A launch leaves every cell but the one of the cycle. -/
theorem getCell_launch_other (s : State) (f : Flight) {m : Nat} (h : m ≠ s.cyc.cell) :
    getCell (launch s f) m = getCell s m := by
  simp [launch, modCur, modCtx, setCtx, getCell_modCell_other s _ h]

/-! ### The frame of a move word -/

/-- A guarded word acts or leaves the state. -/
theorem guarded_on {s : State} {g : BitVec 12} (h : moveOn s g = true) (f : State → State) : guarded s g f = f s := by
  simp [guarded, h]

theorem guarded_off {s : State} {g : BitVec 12} (h : moveOn s g = false) (f : State → State) : guarded s g f = s := by
  simp [guarded, h]

/-- A scalar trigger that acts alone on its unit starts its operation. -/
theorem trigS_starts {s : State} {u : FUnit} {code : Nat} {k : BitVec 4} {g : BitVec 12} {x : BitVec 10}
    {f : State → Word → State} (hg : moveOn s g = true) (hd : doubled s u = false) :
    trigS s u code k g x f = f s (readS s x) := by simp [trigS, guarded, hg, hd]

/-- Two triggers of one unit start nothing: each writes the port (R75). -/
theorem trigS_collides {s : State} {u : FUnit} {code : Nat} {k : BitVec 4} {g : BitVec 12} {x : BitVec 10}
    {f : State → Word → State} (hg : moveOn s g = true) (hd : doubled s u = true) :
    trigS s u code k g x f = portWrite s u k.toNat code ((readS s x).zeroExtend 1024) := by simp [trigS, guarded, hg, hd]

/-- A vector source that is no buffer read is read at once. -/
theorem withV_plain {s : State} {k : Nat} {x : BitVec 10} {f : State → Vec → State} (h : cbSrc x = none) :
    withV s k x f = f s (readV s k x) := by simp [withV, h]

/-- A legal buffer read gives its slot. -/
theorem withV_buffer {s : State} {k h n : Nat} {x : BitVec 10} {f : State → Vec → State} (hx : cbSrc x = some (h, n))
    (ho : cbReadOk (cur s) k h n = true) : withV s k x f = f s (cbReadVal s h n) := by simp [withV, hx, ho]

/-- An illegal buffer read traps CBOVR, and nothing else happens (R160). -/
theorem withV_illegal {s : State} {k h n : Nat} {x : BitVec 10} {f : State → Vec → State} (hx : cbSrc x = some (h, n))
    (ho : cbReadOk (cur s) k h n = false) : withV s k x f = raiseCb s k h := by simp [withV, hx, ho]

end Sys2Proof.Machine
end

