-- ==== Sys2Proof/Tests/Slice0.lean ====
section
/-!
SUPPORT. Tests: the decoding checks on ill-formed terms, words of the manual, worked examples of the manual, and for every
statement with hypotheses a state and operands that meet them.
-/

namespace Sys2Proof.Tests

set_option Elab.async false
open Sys2Proof Sys2Proof.Machine

/-! ### Small states -/

/-- Cell 0 with a user context. -/
def onCtx (c : Ctx) : State := { State.reset with cells := [(0, { Cell.reset with user := c })] }
/-- Cell 0. -/
def onCell (x : Cell) : State := { State.reset with cells := [(0, x)] }
/-- Cell 0 in the firmware context. -/
def onFw : State := { State.reset with cyc := { Cyc.idle with fw := true } }
/-- Die 0. -/
def onDie (x : Die) : State := { State.reset with dies := [(0, x)] }
/-- The scalar latches by number, x registers and control registers of cell 0. -/
def regs (sl x cr : SMap Word) : State := onCtx { Ctx.zero with sl := sl, x := x, cr := cr }
/-- What an outcome of a step leaves, if it is a next state. -/
def after (o : Host.Outcome State Fault Refusal) : State :=
  match o with
  | .next t => t
  | _ => State.reset
/-- The value of the newest write in flight of cell 0. -/
def newest (o : Host.Outcome State Fault Refusal) : Option (Target × Nat × Nat) :=
  (getCell (after o) 0).user.flights.getLast?.map fun f => (f.tgt, f.val.toNat, f.cnt)
/-- The trap causes that a step raises. -/
def causes (o : Host.Outcome State Fault Refusal) : List Nat := (after o).cyc.traps.map fun t => t.1

/-! ### The decoding checks (R43, R46, R176, R198, R206, R209) -/

theorem test_illformed_guard_g : WellFormed false (.aluAdd 1 0x7FF 1 0) = false := by decide
theorem test_illformed_guard_p : WellFormed true (.br 0 0x840 0 0 0) = false := by decide
theorem test_illformed_move_idle : WellFormed false (.move 1 0 0 0) = false := by decide
theorem test_illformed_move_slot : WellFormed false (.move 9 0 1 1) = false := by decide
theorem test_illformed_move_s_source : WellFormed false (.move 1 0 0x4A 1) = false := by decide
theorem test_illformed_move_s_destination : WellFormed false (.move 1 0 1 0x10E) = false := by decide
theorem test_illformed_move_v_source : WellFormed false (.move 4 0 0xAB 1) = false := by decide
theorem test_illformed_move_v_destination : WellFormed false (.move 4 0 1 0x286) = false := by decide
theorem test_illformed_move_m : WellFormed false (.move 8 0 1 5) = false := by decide
theorem test_illformed_cb_read : WellFormed false (.cbRead 1 0 0 0 0) = false := by decide
theorem test_illformed_cb_read_m : WellFormed false (.cbRead 8 0 0 0 0x201) = false := by decide
theorem test_illformed_cb_write_slot : WellFormed false (.cbWriteV 8 0 1 0 0) = false := by decide
theorem test_illformed_cb_write_source : WellFormed false (.cbWriteM 0 0x180 0 0) = false := by decide
theorem test_illformed_alu_slot : WellFormed false (.aluAdd 4 0 1 0) = false := by decide
theorem test_illformed_alu_source : WellFormed false (.aluAdd 1 0 0x64 0) = false := by decide
theorem test_illformed_vx_slot : WellFormed false (.vxAdd 3 0 1 0 0) = false := by decide
theorem test_illformed_vf_source : WellFormed false (.vfAdd 4 0 0xE1 0) = false := by decide
theorem test_illformed_lsu_source : WellFormed false (.lsuSld64 0 0x301) = false := by decide
theorem test_illformed_vsts_source : WellFormed false (.lsuVsts 0 0xC0) = false := by decide
theorem test_illformed_push_one_tile : WellFormed false (.mxPush 0 3 3) = false := by decide
theorem test_illformed_drain_format : WellFormed false (.mxDrain 0 0 6 0) = false := by decide
theorem test_illformed_merge_source : WellFormed false (.mxMrg 0 0 0 0 7) = false := by decide
theorem test_illformed_wrm_source : WellFormed false (.mxWrm 0 0 0 7) = false := by decide
theorem test_illformed_rdx_part : WellFormed false (.mxRdx 0 3) = false := by decide
theorem test_illformed_cvt_format : WellFormed false (.xfCvt 13 0 0 0 0) = false := by decide
theorem test_illformed_cvt_part : WellFormed false (.xfCvt 8 9 0 2 0) = false := by decide
theorem test_illformed_cvt_source : WellFormed false (.xfCvt 8 9 11 0 0) = false := by decide
theorem test_illformed_exp_format : WellFormed false (.xfExp 9 9 0 0 0 0) = false := by decide
theorem test_illformed_pack_quarter : WellFormed false (.xfPack 0 0 0 0 1) = false := by decide
theorem test_illformed_chk_index : WellFormed false (.chk 0 16) = false := by decide

/-! ### Words, each written out from the encoding tables (R39 to R43, R176, R197, R206), and words that the manual gives -/

/-- OP 5, IMM 0, GUARD 0, Y S D 0 (R40, R102). -/
theorem test_decode_br : decodeSlot false 0 (5#4 ++ 0#12 ++ 0#12 ++ 0#1 ++ 0#1 ++ 0#1 ++ 0#1) = .ok (.brLoop 0 0 0 0 0) := by decide
/-- br with IMM −21 on p1 (R101). -/
theorem test_decode_br_guarded : decodeSlot false 0 0x1FEB8010 = .ok (.br 0xFEB 0x801 0 0 0) := by decide
/-- GUARD 0, SOURCE x10, DESTINATION 0x140 (R43, R53). -/
theorem test_decode_move : decodeSlot false 1 (0#12 ++ 10#10 ++ 0x140#10) = .ok (.move 1 0 0xA 0x140) := by decide
/-- SOURCE x11, alu1.adds3 is index 5 of alu1 (R91). -/
theorem test_decode_alu : decodeSlot false 2 (0#12 ++ 11#10 ++ 0x225#10) = .ok (.aluAdds3 2 0 11 1) := by decide
/-- The word that R95 gives for 15 -> mul.dstep. -/
theorem test_decode_mul : decodeSlot false 1 0x00023E46 = .ok (.mulDstep 1 0 0x8F) := by decide
/-- x7 -> cmp.lt (R100). -/
theorem test_decode_cmp : decodeSlot false 3 0x00001E62 = .ok (.cmpLt 3 0 7) := by decide
/-- sys.frz from the long immediate (R217). -/
theorem test_decode_sys : decodeSlot false 2 0x000C0303 = .ok (.cellFrz 2 0 0x300) := by decide
/-- va2 -> vx0.add.16: base 0x300, width 1 (R117). -/
theorem test_decode_vx : decodeSlot false 4 (0#12 ++ 2#10 ++ 0x301#10) = .ok (.vxAdd 4 0 2 0 1) := by decide
/-- vf.fma.d: base 0x38C, format 3 (R120). -/
theorem test_decode_vf : decodeSlot false 5 (0#12 ++ 5#10 ++ 0x38F#10) = .ok (.vfFma 5 0 5 3) := by decide
/-- vr.xtr.32: base 0x3DC, width 2 (R127). -/
theorem test_decode_vr : decodeSlot false 6 (0#12 ++ 1#10 ++ 0x3DE#10) = .ok (.vrXtr 6 0 1 2) := by decide
/-- h2#4 -> va9 (R163). -/
theorem test_decode_cb_read : decodeSlot false 4 0x00048C09 = .ok (.cbRead 4 0 2 3 9) := by decide
/-- va1 -> h3#2: destinations 0x2C0 + 8 H + N − 1 (R49). -/
theorem test_decode_cb_write : decodeSlot false 4 (0#12 ++ 1#10 ++ 0x2D9#10) = .ok (.cbWriteV 4 0 1 3 1) := by decide
/-- x11 -> lsu.mld64 (R144). -/
theorem test_decode_lsu : decodeSlot false 8 0x00002C56 = .ok (.lsuMld64 0 11) := by decide
/-- vd3 -> lnk.se (R173). -/
theorem test_decode_lnk : decodeSlot false 8 0x00000E21 = .ok (.lnkSend 0 3 1) := by decide
/-- x1 -> xlt.map (0x080), ce.go (0x088) (R52). -/
theorem test_decode_xlt : decodeSlot false 8 (0#12 ++ 1#10 ++ 0x80#10) = .ok (.xltMap 0 1) := by decide
theorem test_decode_ce : decodeSlot false 8 (0#12 ++ 1#10 ++ 0x88#10) = .ok (.ceGo 0 1) := by decide
/-- mx.pacc a1, t2, t5 (R176). -/
theorem test_decode_mx : decodeSlot false 9 0x42000025 = .ok (.mxPacc 1 2 5) := by decide
/-- xf.cvt (R201) and xf.split (R205). -/
theorem test_decode_xf : decodeSlot false 10 0x18B90004 = .ok (.xfCvt 8 11 9 1 0) := by decide
theorem test_decode_split : decodeSlot false 10 0x40004508 = .ok (.xfSplit 4 5 8) := by decide
/-- The B word of R207, R208 and R209. -/
theorem test_decode_long : decodeSlot false 11 (1#2 ++ 0x605#30) = .ok (.longImmediate 0x605) := by decide
theorem test_decode_bcast : decodeSlot false 11 0xA0000001 = .ok (.bcast 2 1) := by decide
theorem test_decode_chk : decodeSlot false 11 0xE0000003 = .ok (.chk 1 3) := by decide
/-- Reserved encodings name nothing (R40, R48). -/
theorem test_reserved_br : decodeSlot false 0 0xF0000000 ≠ .ok (.brLoop 0 0 0 0 0) := by decide
theorem test_reserved_source : (match decodeSlot false 1 (0#12 ++ 0x70#10 ++ 1#10) with | .ok _ => true | _ => false) = false := by decide

/-! ### Worked examples of the manual -/

/-- R334, R335, R339: PA 0x0000_0001_2345_6780 has home die 4, slice 11 and natural set 0xD14; its set under SETMASK 0x003F and
SETBASE 0x1000 is 0x1014. -/
theorem test_home_of_address : (homeDie 0x123456780, homeSlice 0x123456780, natSet 0x123456780) = (4, 11, 0xD14) ∧
    cosSet { CosRegs.reset with setmask := 0x003F, setbase := 0x1000 } 0x123456780 = 0x1014 := by decide
/-- R320: the leaf descriptor 0x0000_0012_3460_2CB1 stands at level 3 of stage 1. -/
theorem test_leaf_descriptor : badDesc false 3 0x123460_2CB1 = false ∧ badDesc false 1 0x123460_2CB1 = true := by decide
/-- R83: with SPIN.X = 3 logical x32 is x45 and logical x35 is x32. -/
theorem test_spin : let c := { Ctx.zero with cr := [(0x102, 3)] }
    physX c 32 = 45 ∧ physX c 35 = 32 := by decide
/-- R92: x10 = 0x40000 and x11 = 37 give 0x40128 on alu0.r. -/
theorem test_adds3 : newest (exec (.aluAdds3 2 0 11 0) (regs [(0, 0x40000)] [(11, 37)] [])) =
    some (.slat .alu0r, 0x40128, 1) := by decide +kernel
/-- R92: the extracts of o = 0xFEDC_BA98_7654_3210 with t = 0x071C and t = 0x3F00. -/
theorem test_bfx : newest (exec (.aluBfx 1 0 1 0) (regs [(0, 0xFEDCBA9876543210)] [(1, 0x071C)] [])) =
    some (.slat .alu0r, 0xFFFFFFFFFFFFFF87, 1) := by decide +kernel
theorem test_bfxn : newest (exec (.aluBfxn 1 0 1 0) (regs [(0, 0xFEDCBA9876543210)] [(1, 0x071C)] [])) =
    some (.slat .alu0r, 0x87, 1) := by decide +kernel
theorem test_bfx_whole : newest (exec (.aluBfx 1 0 1 0) (regs [(0, 0xFEDCBA9876543210)] [(1, 0x3F00)] [])) =
    some (.slat .alu0r, 0xFEDCBA9876543210, 1) := by decide +kernel
/-- R43, R45: ?p3 x7 -> alu1.mov with p3 = 0 triggers nothing. -/
theorem test_conditional_copy : newest (exec (.aluMov 1 0x803 7 1) (regs [] [(7, 5)] [(0x103, 1)])) = none := by decide +kernel
/-- R95: dinit of 100 by −7, 64 steps and both forms of dfix. -/
theorem test_division : let d := dstepOnce^[64] (divInit true 100 (-7))
    divFix d 0 = 0xFFFFFFFFFFFFFFF2 ∧ divFix d 1 = 2 := by decide +kernel
/-- R95: −2^63 by −1, and a zero divisor. -/
theorem test_division_corners : (let d := dstepOnce^[64] (divInit true 0x8000000000000000 (-1))
    divFix d 0 = 0x8000000000000000 ∧ divFix d 1 = 0) ∧
    let d := dstepOnce^[64] (divInit true 9 0)
    divFix d 0 = 0xFFFFFFFFFFFFFFFF ∧ divFix d 1 = 9 := by decide +kernel
/-- R91: a shift count is taken modulo 64; a signed high product (R93). -/
theorem test_shl_count : newest (exec (.aluShl 1 0 1 0) (regs [(0, 3)] [(1, 65)] [])) = some (.slat .alu0r, 6, 1) := by decide +kernel
theorem test_mulh : newest (exec (.mulMulh 1 0 1) (regs [(2, 0xFFFFFFFFFFFFFFFF)] [(1, 2)] [])) =
    some (.slat .mulr, 0xFFFFFFFFFFFFFFFF, 3) := by decide +kernel
/-- R100: guard mode P, x6 = −3 in cmp.o, cmp.c = 0x605: cmp.lt of 4 writes p5 := 1 and p6 := 0. -/
theorem test_compare : ((getCell (after (exec (.cmpLt 3 0 7)
      (regs [(3, 0xFFFFFFFFFFFFFFFD), (4, 0x605)] [(7, 4)] [(0x103, 1)]))) 0).user.flights.map fun f => (f.tgt, f.val.toNat)) =
    [(.slat .cmpr, 1), (.pred 5 false, 1), (.pred 6 false, 0)] := by decide +kernel
/-- R108: the fourth pass of the traced loop: br.loopx with LC = 0 and TAIL = 1 falls through with TAIL := 0. -/
theorem test_loopx_last : let t := after (exec (.brLoopx 0 0 0 0 0) (regs [] [] [(0x101, 1)]))
    (t.cyc.taken, (getCell t 0).user.flights.map fun f => (f.tgt, f.val.toNat)) =
      (false, [(.creg 0x101, 0), (.creg 0x102, 0x10101), (.pred 63 false, 0)]) := by decide +kernel
/-- R104: br.call with IMM −1 goes to A − 2, and br.r is the address of the next bundle. -/
theorem test_call : let t := after (exec (.brCall 0xFFF 0 0 0 0) { State.reset with cyc := { Cyc.idle with addr := 0x1000, len := 6 } })
    t.cyc.target = 0xFFE ∧ newest (.next t) = some (.slat .brr, 0x1006, 1) := by decide +kernel
/-- R109: br.uiret outside a handler traps ILLMOVE. -/
theorem test_uiret_outside : causes (exec (.brUiret 0 0 0 0) State.reset) = [8] := by decide +kernel
/-- R214: a sys trigger in a user context traps PRIV. -/
theorem test_sys_in_user : causes (exec (.cellFrz 1 0 1) State.reset) = [0xD] := by decide +kernel
/-- R118: a 16-bit lane shifted by 16 gives 0 for shl, and 0xFFFF for sar of a negative lane. -/
theorem test_vector_shift : newest (exec (.vxShl 4 0 1 0 1) (onCtx { Ctx.zero with vl := [(0, 0x8001)], v := [(1, 16)] })) =
    some (.vlat .vx0r, 0, 2) := by decide +kernel
theorem test_vector_sar : newest (exec (.vxSar 4 0 1 0 1) (onCtx { Ctx.zero with vl := [(0, 0x8001)], v := [(1, 16)] })) =
    some (.vlat .vx0r, 0xFFFF, 2) := by decide +kernel
/-- R124: vf.rcpe.s of 3.0 is 0x3EAA_B000. -/
theorem test_reciprocal : frcpe fp32 0x40400000 = 0x3EAAB000 := by decide +kernel
/-- R125: vf.toi.s of 2.5, −2.5, 3 × 10^9, NaN and +∞, rounding to nearest, and of the first two rounding down. -/
theorem test_toi : [0x40200000, 0xC0200000, 0x4F32D05E, 0x7FC00000, 0x7F800000].map
      (fun v => (toIntVal 32 true 0 (funpack fp32 v)).1) = [2, 0xFFFFFFFE, 0x7FFFFFFF, 0, 0x7FFFFFFF] ∧
    [0x40200000, 0xC0200000].map (fun v => (toIntVal 32 true 2 (funpack fp32 v)).1) = [2, 0xFFFFFFFD] := by decide +kernel
/-- R122: 0 × ∞ with a NaN t returns that NaN quieted; without one it is invalid. -/
theorem test_nan : ffma fp16 0 0x7C00 0x7D01 = 0x7F01 ∧ ffma fp16 0 0x7C00 0x3C00 = 0x7E00 := by decide +kernel
/-- R123: vf.min of +0 and −0 is −0 in either order. -/
theorem test_min_zero : fminmax fp32 false 0 0x80000000 = 0x80000000 ∧ fminmax fp32 false 0x80000000 0 = 0x80000000 := by
  decide +kernel
/-- R128: vr.lsh.16 by 61 over lanes k and 100 + k: lanes 0, 1 and 3 are 61, 62 and 100. -/
theorem test_lsh : let l (b : Nat) : Vec := BitVec.ofNat 1024 (lanes 16 (fun k => b + k) 64 0)
    let t := after (exec (.vrLsh 4 0 1 1) (onCtx { Ctx.zero with vl := [(4, l 0), (5, l 100)], v := [(1, 61)] }))
    ((getCell t 0).user.flights.map fun f => (lane 16 f.val.toNat 0, lane 16 f.val.toNat 1, lane 16 f.val.toNat 3, f.cnt)) =
      [(61, 62, 100, 3)] := by decide +kernel
/-- R130: vr.rfadd.s of 2^24, 1, 1 and zeros is 2^24. -/
theorem test_tree : treeReduce (fadd fp32) 6 ((List.range 32).map fun i => if i = 0 then 0x4B800000 else if i < 3 then 0x3F800000 else 0) =
    [0x4B800000] := by decide +kernel
/-- R29 to R32: the three beats of the row that the manual follows. -/
theorem test_beats : let p (a b : Nat) : List Term := termsV [(mergeVal 3 a, b)]
    let r := rowUpdate false AccRow.clear [⟨384, -6, 0⟩]
    (r.1.e.toInt, mant r.1 0, r.1.hr) = (-31, 3 * 2 ^ 32, 12) ∧ p 0 0 = [] := by decide +kernel
theorem test_renormalise : let r := rowUpdate false (withMants { AccRow.clear with e := -31, z := false } ((List.range 64).map fun j =>
      if j = 0 then 3 * 2 ^ 32 else 0)) [⟨256, 11, 1⟩]
    (r.1.e.toInt, mant r.1 0, mant r.1 1, r.1.hr, r.2) = (-12, 24576, 2 ^ 31, 14, true, false) := by decide +kernel
/-- R35: the drain of that row, to FP32 and to DM8. -/
theorem test_drain : drainElem 0 24576 (-12) = 0x40C00000 ∧ drainElem 0 (2 ^ 31) (-12) = 0x49000000 ∧
    drainElem 3 24576 (-12) = 0x34 ∧ drainElem 3 (2 ^ 31) (-12) = 0x03 := by decide +kernel
/-- R201: DM8 codes to FP32. -/
theorem test_convert : [0x43, 0xB3, 0x60, 0x03].map (fun v => (convert (xfElem 8) (xfElem 11) 0 v).1) =
    [0x3E980000, 0xC0B00000, 0x3F800000, 0x44800000] := by decide +kernel
/-- R246: byte 0x33 (5.5) is copied as 6, and 0xB3 as −6, to INT8. -/
theorem test_copy_convert : (convert (xfElem 8) (xfElem 0) 0 0x33).1 = 6 ∧ (convert (xfElem 8) (xfElem 0) 0 0xB3).1 = 0xFA := by
  decide +kernel
/-- R205: xf.split t5, t4, 8 of the tile that the manual gives: four columns, TDMAP 2. -/
theorem test_split : let tile := 0x07 + 0x60 * 2 ^ 8 + 0x50 * 2 ^ 16 + (0x8D + 0x70 * 2 ^ 8 + 0x40 * 2 ^ 16) * 2 ^ 1024
    let r := splitCols 0 2 8 tile 3 0 0
    (r.1.map fun c => (c.getD 0 0, c.getD 1 0), r.2) = ([(0x06, 0x9E), (0x06, 0x9E), (0x60, 0x70), (0x50, 0x40)], 2) := by
  decide +kernel
/-- R401: ENJ holds 0x1_FFFF_FFF0; the low half reads 0xFFFF_FFF0, and the high half is latched as 1. -/
theorem test_half_read : let s := onCell { Cell.reset with enj := 0x1FFFFFFF0 }
    let h := getHost (after (exec (.halfReadLow 3 0 0 0x4000) s)) 3
    h.got = [0xFFFFFFF0] ∧ h.latch = 1 := by decide +kernel
/-- R144: lsu.sld64 of lsu.o + 8 reads offset 8 in the next cycle and is due with latency 6. -/
theorem test_sld : let t := after (exec (.lsuSld64 0 1) (regs [] [(1, 8)] []))
    newest (.next t) = some (.slat .lsur, 0, 6) ∧
      ((getCell t 0).user.bankOps.map fun b => (b.off, b.len, b.cnt)) = [(8, 8, 2)] := by decide +kernel
/-- R141: past the scratchpad traps HBND, out of alignment ALIGN. -/
theorem test_sld_traps : causes (exec (.lsuSld64 0 1) (regs [] [(1, 0x110000)] [])) = [4] ∧
    causes (exec (.lsuSld64 0 1) (regs [] [(1, 9)] [])) = [0xE] := by decide +kernel
/-- R142: a memory load under an invalid handle traps HINV. -/
theorem test_mld_invalid : causes (exec (.lsuMld64 0 1) State.reset) = [3] := by decide +kernel
/-- R9, R173: a send from 0:(1, 0) north reaches the south port of 0:(0, 0); one from 0:(0, 0) north traps LNKFENCE. -/
theorem test_send : let t := after (exec (.lnkSend 0 0 0) { State.reset with cyc := { Cyc.idle with cell := 16 } })
    ((getCell t 0).arrivals.map fun a => a.port) = [2] ∧ causes (exec (.lnkSend 0 0 0) State.reset) = [0xC] := by decide +kernel
/-- R166: xlt.unmap of mask 2 clears V of ph1. -/
theorem test_unmap : let t := after (exec (.xltUnmap 0 1) (onCtx { Ctx.zero with x := [(1, 2)], ph := [(1, { Handle.invalid with v := true })] }))
    (smGet Handle.invalid (getCell t 0).user.ph 1).v = false := by decide +kernel
/-- R242: UIVEC 0x500: the handler starts there, and ACT is set. -/
theorem test_interrupt : let s := onCtx { Ctx.zero with pc := 0x500126, cr := [(0x107, 0x600), (0x108, 0x10004)] }
    let c := (getCell (interrupt s 0) 0).user
    c.pc = 0x600 ∧ c.uira = 0x500126 ∧ handling c = true := by decide +kernel
/-- R78, R220: a trap of a user context holds its cell, and the record names the lowest slot. -/
theorem test_trap : (getCell (takeTrap State.reset 0 false [(4, 8, false, 0, 0), (8, 2, false, 0, 0)] 1 0 0) 0).hold = true ∧
    mainTrap [(4, 8, false, 0, 0), (8, 2, false, 0, 0)] = some (8, 2, false, 0, 0) := by decide +kernel
/-- R345: RST60 after reset. -/
theorem test_reset_rst : smGet 0 (getDie State.reset 3).rst 60 = 0xA000000000000000 := by decide +kernel
/-- R394: MANUFACTURE goes to PROVISIONED, and not to DEPLOYED. -/
theorem test_life_cycle : (after (exec (.lifecycleChange 1) State.reset)).lcstat = 0x101 ∧
    (after (exec (.lifecycleChange 2) State.reset)).lcstat = 0 := by decide +kernel
/-- R327: a second-stage request of the hypervisor is numbered. -/
theorem test_hinvreq : let s := { State.reset with regions := [⟨0x100, 1, 0, none, [], 0, 0, 0, 0, none, []⟩], tctx := [(1, TCtx.reset)] }
    (smGet TCtx.reset (after (exec (.hinvreq 0x80) s)).tctx 1).issued2 = 1 := by decide +kernel

/-! ### Hypotheses that are met: scalar units, moves and branches -/

/-- What moves and scalar triggers assume. -/
theorem test_meets_ScalarAluOperations : moveOn State.reset 0 = true ∧ doubled State.reset (aluUnit 1) = false := by decide +kernel
theorem test_meets_MultipliesAndDivisionSteps_mul : moveOn State.reset 0 = true ∧ doubled State.reset .mul = false := by decide +kernel
theorem test_meets_MultipliesAndDivisionSteps_div : moveOn (regs [(2, -1)] [(1, 0)] []) 0 = true ∧ doubled (regs [(2, -1)] [(1, 0)] []) .mul = false := by
  decide +kernel
theorem test_meets_DivisionIsExact : (0 : Word).getLsbD 0 = false ∧ (1 : Word).getLsbD 0 = true ∧ (7 : Word) ≠ 0 := by decide
theorem test_meets_Compares_g : let s := regs [(3, 5), (4, 3 * 2 ^ 20)] [(1, 5)] []
    moveOn s 0 = true ∧ doubled s .cmp = false ∧ modeP (cur s) = false := by decide +kernel
theorem test_meets_Compares_p : let s := regs [(3, 5), (4, 0x605)] [(1, 5)] [(0x103, 1)]
    moveOn s 0 = true ∧ doubled s .cmp = false ∧ modeP (cur s) = true := by decide +kernel
/-- The scalar destinations at the ends of their ranges (R48, R53). -/
theorem test_meets_ScalarAndVectorMoves_s : isS 1 = true ∧ moveOn State.reset 0 = true ∧
    ∀ d ∈ ([0, 0x3F, 0x40, 0x45, 0x46, 0x47, 0x100, 0x102, 0x103, 0x104, 0x105, 0x108, 0x109, 0x10A, 0x10D, 0x110, 0x14F, 0x150, 0x15F] :
      List (BitVec 10)), shadowed State.reset 1 d = false := by decide +kernel
theorem test_meets_ScalarSources : handling (cur State.reset) = false ∧
    handling (cur (regs [] [] [(0x108, 0x20000)])) = true := by decide +kernel
theorem test_meets_ScalarAndVectorMoves_v : moveOn State.reset 0 = true ∧ isV 7 = true ∧ shadowed State.reset 7 0x27F = false ∧
    shadowed State.reset 7 0x285 = false := by decide +kernel
/-- A ring of four registers of va at va8, and a ring of two scratchpad slots at 0x100; the second feeds from port 1 or not. -/
def rings : SMap Word := [(0x110, 0x8000300000000008), (0x111, 0xC000100000000002), (0x112, 0xC100100000000002), (0x118, 0x0000000100020001)]
theorem test_meets_BufferMoves_read : let s := regs [] [] rings
    let c := cur s
    isV 4 = true ∧ moveOn s 0 = true ∧ shadowed s 4 0x27F = false ∧ cbValid c 0 = true ∧ cbSize c 0 = 4 ∧ cbKind c 0 = false ∧
      cbFile c 0 = 0 ∧ cbValid c 1 = true ∧ cbSize c 1 = 2 ∧ cbKind c 1 = true ∧ s.cyc.supp = false ∧ cbValid c 3 = false := by decide +kernel
theorem test_meets_BufferMoves_write : let s := regs [] [] rings
    let c := cur s
    isV 7 = true ∧ moveOn s 0 = true ∧ cbSrc 1 = none ∧ (0 < cbRsv c 0 ∨ (1 ≤ cbLink c 0 ∧ cbLink c 0 ≤ 4)) = False ∧ cbLink c 1 = 0 ∧
      cbRsv c 1 = 0 ∧ cbValid c 2 = true ∧ cbLink c 2 = 1 := by decide +kernel
theorem test_meets_WordsOfFalseGuardsAreIdle : let s := regs [] [] [(0x103, 1)]
    encode (.aluMov 1 0x803 7 1) = some (1, 0x80301E20) ∧ moveOn s ((0x80301E20#32).extractLsb' 20 12) = false ∧ brOn s 0x803 = false ∧
    (let t : State := { s with cyc := { Cyc.idle with bundle := 0x4, wg := false } }
     encode .mxShift = some (9, 0x20000000) ∧ (encode (.xfTr 1 2 0)).map (fun e => e.1) = some 10 ∧
      encode (.chk 0 5) = some (11, 0xC0000005) ∧ stageOn t = false) ∧
    let u : State := { State.reset with cyc := { Cyc.idle with bundle := 0x2 } }
    dupOn (cur u) = false ∧ BitVec.extractLsb' 1 1 (Bundle.word u.cyc.bundle 0) = 1#1 ∧ isS 3 = true ∧ isV 4 = true := by decide +kernel
theorem test_meets_CheckComparesShadow : stageOn State.reset = true ∧ dupBit State.reset = false ∧
    let u : State := { State.reset with cyc := { Cyc.idle with bundle := 0x2 } }
    dupOn (cur u) = false ∧ dupBit u = true := by decide +kernel
theorem test_meets_RelativeAndIndirectBranches : brOn State.reset 0 = true ∧ (operand (regs [(5, 0x41)] [] []) .bro).getLsbD 0 = true ∧
    (operand (regs [(5, 0x40)] [] []) .bro).getLsbD 0 = false := by decide +kernel
theorem test_meets_LoopAndModeBranches_loop : brOn State.reset 0 = true ∧
    ((0 : Word) + 2 * (0x7FF#12).signExtend 64).getLsbD 63 = (0 : Word).getLsbD 63 ∧
    creg (cur (regs [] [] [(0x100, 1)])) 0x100 ≠ 0 ∧ creg (cur (regs [] [] [(0x101, 2)])) 0x100 = 0 ∧
    1 < (creg (cur (regs [] [] [(0x101, 2)])) 0x101).toNat ∧ creg (cur (regs [] [] [(0x101, 1)])) 0x101 = 1 := by decide +kernel
theorem test_meets_LoopAndModeBranches_mode : brOn State.reset 0 = true ∧ handling (cur State.reset) = false ∧
    handling (cur (regs [] [] [(0x108, 0x30000)])) = true := by decide +kernel
theorem test_meets_SysTriggersAccept : moveOn State.reset 0 = true ∧ moveOn onFw 0 = true ∧ onFw.cyc.fw = true ∧
    doubled onFw .sys = false ∧ ((getDie onFw 0).sys.any fun c => c.cell == 0 && c.trig == 7) = false ∧
    let s := { onFw with dies := [(0, { Die.reset with sys := [⟨0, 7, 0, 0, 0, 0, 0, false, none, false, 0, none, none⟩] })] }
    ((getDie s 0).sys.any fun c => c.cell == 0 && c.trig == 7) = true := by decide +kernel

/-! ### Vector units, the array and the transformer -/

theorem test_meets_VectorIntegers : moveOn State.reset 0 = true ∧ doubled State.reset (vxUnit 0) = false ∧
    vsource State.reset 4 1 = some 0 := by decide +kernel
theorem test_meets_VectorFloatLanes : moveOn State.reset 0 = true ∧ doubled State.reset .vf = false ∧
    vsource (onCtx { Ctx.zero with v := [(1, 0x7E00)] }) 4 1 = some 0x7E00 ∧ (toIntVal 16 true 0 (funpack fp16 0x7E00)).2 ≠ .none ∧
    (toIntVal 16 true 0 (funpack fp16 0)).2 = .none := by decide +kernel
theorem test_meets_NaNResults : funpack fp16 0x7C01 = .nan ∧ funpack fp16 0x3C00 ≠ .nan ∧ funpack fp16 0x7C00 = .inf false ∧
    funpack fp16 0xFC00 = .inf true ∧ (0x8000 : Nat) % 2 ^ (FmtOps.width fp16 - 1) = 0 ∧ (0x7C00).testBit 15 = false ∧
    (0xFC00).testBit 15 = true := by decide +kernel
theorem test_meets_FloatOrder : fp32 ∈ [fp16, bf16, fp32, fp64] ∧ 0x7F800001 < 2 ^ FmtOps.width fp32 ∧ funpack fp32 0x7F800001 = .nan ∧
    funpack fp32 0xFF800000 ≠ .nan ∧ flt fp32 0xFF800000 0 = true ∧ flt fp32 0 0xFF800000 = false ∧ feq fp32 0x80000000 0 = true := by decide +kernel
theorem test_meets_LaneCommands : moveOn State.reset 0 = true ∧ doubled State.reset .vr = false ∧ vsource State.reset 7 0xE0 = some 0 := by
  decide +kernel
theorem test_meets_Reductions : moveOn State.reset 0 = true ∧ doubled State.reset .vr = false ∧ vsource State.reset 5 9 = some 0 := by
  decide +kernel
theorem test_meets_DoubledTriggersCollide : let s : State := { onFw with cyc := { onFw.cyc with dup := [.alu1, .vf, .sys] } }
    encode (.aluMov 1 0 7 1) = some (1, 0x1E20) ∧ WellFormed false (.aluMov 1 0 7 1) = true ∧ moveOn s (wGuard 0x1E20) = true ∧
    unitOf 1 (wDst 0x1E20).toNat = some .alu1 ∧ doubled s .alu1 = true ∧
    encode (.vfAdd 4 0 1 0) = some (4, 0x780) ∧ unitOf 4 (wDst 0x780).toNat = some .vf ∧ doubled s .vf = true ∧
    vsource s 4 (wSrc 0x780) = some 0 ∧
    encode (.cosWr 2 0 1) = some (2, 0x706) ∧ unitOf 2 (wDst 0x706).toNat = some .sys ∧ doubled s .sys = true ∧ s.cyc.fw = true ∧
    encode (.vfAdd 4 0 0x113 0) = some (4, 0x44F80) ∧ cbSrc (wSrc 0x44F80) = some (1, 4) ∧ cbReadOk (cur s) 4 1 4 = false := by decide +kernel
/-- TSHAPE of t1 and t2: an 8-bit format, KLEN 128, EXT 64, and one past each limit. -/
theorem test_meets_ArrayCommands : let s := regs [] [] [(0x141, 0x80400000), (0x142, 0x80400000), (0x143, 0x81400000), (0x144, 0x40410002), (0x145, 0x40400002)]
    let c := cur s
    let f (t : BitVec 4) (n l : Nat) : Nat := ((creg c (0x140 + t.toNat)).extractLsb' n l).toNat
    stageOn s = true ∧ tileOk c 1 = true ∧ tileOk c 2 = true ∧ tFmt c 1 = tFmt c 2 ∧ f 3 24 8 = 129 ∧ f 4 16 7 = 65 ∧ f 0 16 7 = 0 ∧
      f 5 0 3 ≠ f 1 0 3 := by decide +kernel
theorem test_meets_PushTakesOperands : let c := { Ctx.zero with cr := [(0x141, 0x40400002 + 63 * 2 ^ 32), (0x142, 0x40400002 + 2 ^ 32), (0x151, 2 ^ 63)] }
    tFmt c 1 = 2 ∧ tCur c 1 < tKlen c 1 ∧ tCur c 1 = 63 ∧ 1 ≤ tCur c 2 ∧ (creg c 0x151).getLsbD 63 = true := by decide +kernel
theorem test_meets_AccumulatorReads : stageOn State.reset = true ∧ (1#2).toNat < 2 := by decide +kernel
theorem test_meets_DrainConverts : let row (p z : Bool) : AccRow := { AccRow.clear with pf := p, z := z }
    let s := onCell { Cell.reset with acc := [(0, row true true), (1, row false true), (2, row false false)] }
    stageOn s = true ∧ (accRow (curCell s) 0 0).pf = true ∧ (accRow (curCell s) 0 1).z = true ∧ (accRow (curCell s) 0 2).z = false ∧
      (accRow (curCell s) 0 2).pf = false ∧ (5#3).toNat < 6 ∧ [32, 16, 16, 8, 8, 32].getD 4 0 ≠ 32 := by decide +kernel
theorem test_meets_AccumulatorWrites : stageOn State.reset = true ∧ drainWidth 1 ≠ 32 ∧ drainWidth 5 = 32 := by decide +kernel
theorem test_meets_NormKeepsValues : let r := withMants { AccRow.clear with z := false } ((List.range 64).map fun j => if j = 63 then 5 else 0)
    r.z = false ∧ r.hr.toNat ≤ 46 ∧ (∀ j < 64, (mant r j).natAbs < 2 ^ (46 - r.hr.toNat)) ∧ mant r 63 ≠ 0 := by decide +kernel
theorem test_meets_ConvertElements : stageOn State.reset = true ∧ 3 < max (elemWidth (xfElem 8)) (elemWidth (xfElem 11)) /
    min (elemWidth (xfElem 8)) (elemWidth (xfElem 11)) ∧ (convert (xfElem 11) (xfElem 0) 0 0x7F800000).2 ≠ .none ∧
    (convert (xfElem 11) (xfElem 0) 0 0).2 = .none := by decide +kernel
theorem test_meets_TileCommands : let s := onCtx { Ctx.zero with tiles := [(4, 0x07)], cr := [(0x144, 0x03020000), (0x145, 0x80400000)] }
    let c := cur s
    let n (t : Nat) (the : Int) := (splitCols (tFmt c t) (tExt c t) the (tileOf c t).toNat (tKlen c t) 0 0)
    stageOn s = true ∧ tileOk c 4 = true ∧ tileOk c 1 = false ∧ (n 4 8).1.length ≤ kLimit (tFmt c 4) ∧ (n 4 8).2 / 2 ^ 64 = 0 := by
  decide +kernel
/-- A tile of 128 columns whose first splits is too wide; one of 127 columns whose last splits cannot be marked. -/
theorem test_meets_TileCommands_fail : let s := onCtx { Ctx.zero with
      tiles := [(4, 0x07), (6, BitVec.ofNat 65536 (0x07 * 2 ^ (8 * 126)))], cr := [(0x144, 0x80020000), (0x146, 0x7F020000)] }
    let c := cur s
    let r (t : Nat) := splitCols (tFmt c t) (tExt c t) 8 (tileOf c t).toNat (tKlen c t) 0 0
    kLimit (tFmt c 4) < (r 4).1.length ∧ (r 6).1.length ≤ kLimit (tFmt c 6) ∧ (r 6).2 / 2 ^ 64 ≠ 0 := by decide +kernel

/-! ### Memory units -/

theorem test_meets_ScratchpadAccesses : moveOn State.reset 0 = true ∧ vsource State.reset 8 3 = some 0 ∧
    0x10FFF8 + 8 ≤ 0x110000 ∧ 0x10FFF8 % 8 = 0 ∧ 0x100001 % 8 ≠ 0 ∧
    (operand (regs [(6, 0x10FFF8)] [] []) .lsuo).toNat = 0x10FFF8 := by decide +kernel
/-- Handles: a 64 KiB RC page that may be read and written, an SO page, and one that may not be written. -/
def pages : SMap Handle :=
  let h : Handle := { Handle.invalid with v := true, pr := true, pw := true, ppage := 0x20000, vpage := 0x30000 }
  [(1, { h with kind := 1 }), (2, h), (3, { h with kind := 1, pw := false })]
/-- lsu.o at an offset, lsu.h naming a handle. -/
def access (o h : Word) : State := onCtx { Ctx.zero with sl := [(6, o), (7, h)], ph := pages }
theorem test_meets_MemoryAccesses :
    let a (s : State) (n : Nat) (rd wr : Bool) : Option Nat :=
      accessCause (smGet Handle.invalid (cur s).ph ((operand s .lsuh).extractLsb' 0 4).toNat) (operand s .lsuo).toNat n n rd wr
    moveOn (access 0 1) 0 = true ∧ a (access 0xFFF8 1) 8 true false = none ∧ a (access 0xFFF8 2) 8 false true = none ∧
      a (access 0 0) 8 true false = some 3 ∧ a (access 0xFFF9 1) 8 true false = some 4 ∧ a (access 1 1) 8 true false = some 0xE ∧
      a (access 0 3) 8 false true = some 5 ∧ (smGet Handle.invalid pages 1).kind ≠ 0 ∧ (smGet Handle.invalid pages 2).kind = 0 := by decide +kernel
theorem test_meets_OrderingTriggers : moveOn (access 0 0x41) 0 = true ∧ ((operand (access 0 0x41) .lsuh).extractLsb' 4 3).toNat = 4 ∧
    ((operand (access 0 0x51) .lsuh).extractLsb' 4 3).toNat = 5 ∧
    ((readS (regs [] [(1, 5)] []) 1).extractLsb' 0 3).toNat = 5 ∧ ((readS (regs [] [(1, 4)] []) 1).extractLsb' 0 3).toNat = 4 := by decide +kernel
theorem test_meets_Atomics :
    let s (op : Word) : State := { (access 0xFFF0 1) with cells := [(0, { Cell.reset with user := { Ctx.zero with
        sl := [(6, 0xFFF0), (7, 1), (10, op)], ph := pages, cr := rings } })] }
    let aop (x : Word) := operand (s x) .lsuaop
    moveOn (s 0) 0 = true ∧ vsource (s 0) 8 3 = some 0 ∧ ((aop 0x73).extractLsb' 0 4).toNat = 3 ∧ ((aop 0x73).extractLsb' 4 4).toNat = 7 ∧
      ((aop 0x74).extractLsb' 0 4).toNat = 4 ∧ accessCause (smGet Handle.invalid pages 1) 0xFFF0 16 16 true true = none ∧
      (aop 0x8001).getLsbD 15 = true ∧ cbValid (cur (s 0)) 0 = true ∧ (aop 0xB001).getLsbD 15 = true ∧ cbValid (cur (s 0)) 3 = false := by decide +kernel
theorem test_meets_CopiesAndTileTransfers : let s := onCtx { Ctx.zero with sl := [(6, 0xFE000)], tport := [⟨false, 0, 0, 31, 0⟩] }
    moveOn s 0 = true ∧ (∃ p ∈ (cur s).tport, p.moved < 32) ∧ (cur (access 0xFE000 0)).tport = [] ∧ 0xFE000 + 8192 ≤ 0x100000 ∧
      0xFE000 % 256 = 0 ∧ ((creg (cur (regs [] [] [(0x120, 3)])) (0x120 + 0x1000 / 64 % 32)).extractLsb' 0 3).toNat = 3 := by decide +kernel
theorem test_meets_BufferAdvances : let s := regs [] [(1, 0), (2, 0x210), (3, 0x310)] rings
    let c := cur s
    moveOn s 0 = true ∧ cbValid c 0 = true ∧ 1 ≤ cbFilled c 0 ∧ 3 + cbFilled c 0 + cbRsv c 0 = cbSize c 0 ∧
      ((readS s 2).extractLsb' 8 8).toNat + 1 = 3 ∧ (readS s 2).getLsbD 4 = true ∧ ((readS s 3).extractLsb' 8 8).toNat + 1 = 4 ∧
      cbValid c 7 = false := by decide +kernel
theorem test_meets_HandleAndEngineTriggers : moveOn State.reset 0 = true ∧ smWf Handle.invalid 0 pages = true ∧
    smWf (0 : Word) 0 (cur (access 1 1)).sl = true := by decide +kernel
/-- Commands of ce.go: from the scratchpad to a page; each check in its order fails in one of the others. -/
theorem test_meets_CopyCommands :
    let s (src dst len ctl : Word) : State := onCtx { Ctx.zero with
        sl := [(12, src), (13, dst), (14, len), (15, ctl)], ph := pages, cr := rings }
    moveOn (s 0 0 64 0x1010000) 0 = true ∧ ((operand (s 0 0 64 0x1010000) .cectl).getLsbD 16 = true) ∧
      accessCause (smGet Handle.invalid pages 1) 0xFFC0 64 1 false true = none ∧ accessCause (smGet Handle.invalid pages 1) 0xFFC1 64 1 false true = some 4 ∧
      ((operand (s 0 0 64 (5 * 2 ^ 43)) .cectl).extractLsb' 43 3).toNat = 5 ∧ cbValid (cur (s 0 0 64 0)) 0 = true ∧
      cbValid (cur (s 0 0 64 0)) 5 = false ∧ engineLoad (curCell (s 0 0 64 0)) false < 16 := by decide +kernel
theorem test_meets_CopyCommands_full : let k : CeCmd := ⟨0, 0, 0, 64, 0, Handle.invalid, Handle.invalid, 0, 0, .bare false 0, false⟩
    engineLoad { Cell.reset with engq := List.replicate 15 (.ce 1 k), ce := some ⟨k, 0, 0, [], none, 0, false⟩ } false = 16 := by decide +kernel
theorem test_meets_LinkSends :
    let s := onCell { Cell.reset with owners := [(0, 1)] }
    moveOn s 0 = true ∧ vsource s 8 3 = some 0 ∧ neighbour 0 0 = none ∧ neighbour 0 1 = some 1 ∧ fenced s 0 1 = true ∧
      fenced State.reset 0 1 = false := by decide +kernel

/-! ### Hypotheses that are met: bundles, landings, traps -/

/-- A bundle with the one word of `15 -> mul.dstep` in slot S0, in the instruction scratchpad of cell 0. -/
def placed : State := State.reset.withFetchWord 32 0x00023E46
/-- The bundle of a fetch, with its address and length. -/
def bundleOf (x : Next) : Option (Bundle × Word × Nat) :=
  match x with
  | .bundle b a l _ _ => some (b, a, l)
  | _ => none
theorem test_meets_literal_fetch : let x := getCell placed 0
    let c := x.user
    c.lit = false ∧ c.pc.toNat / 2 ^ 16 = 2 ^ 47 ∧ c.pc.toNat % 2 ^ 16 + 8 ≤ 2 ^ 16 ∧
      readNat (if x.ispAct then x.isp1 else x.isp0) (c.pc.toNat % 2 ^ 16) 8 = 0xFFFE + (2 ^ 15 + 2 ^ 1) * 2 ^ 16 + 0x00023E46 * 2 ^ 32 := by
  decide +kernel
theorem test_meets_StepRunsTheDecodedInstruction : let s : State := { placed with agenda := [] }
    placed.agenda = [.issue 0] ∧ members s 0 = [0] ∧ (getCell s 0).task.isSome = true ∧ settle s 0 false = s ∧ firmDue s 0 = false ∧ rankOf (getCell s 0) = 0 ∧
      bundleOf (nextOf s 0 false) = some (BitVec.ofNat 384 (0x00023E46 * 2 ^ 32), 0x8000000000000000, 8) ∧
      decodeSlot false 1 0x00023E46 = .ok (.mulDstep 1 0 0x8F) := by decide +kernel
/-- What the placed instruction leaves when the machine steps: DV lands with mul.r after two more cycles. -/
theorem test_step_issues : newest (step placed) = some (.divide, 16, 2) := by decide +kernel
theorem test_meets_WheelsTurn : creg { Ctx.zero with cr := [(0x102, spinTurn { Ctx.zero with cr := [(0x102, 0x2F1F0F)] })] } 0x102 =
    spinTurn { Ctx.zero with cr := [(0x102, 0x2F1F0F)] } := by decide +kernel
/-- A write due in cell 0, and two writes of one register. -/
def due (f : Flight) : State := onCtx { Ctx.zero with flights := [f] }
theorem test_meets_ResultsLandOrCollide : let f : Flight := { tgt := .creg 0x10E, val := 1, cnt := 0, slot := 15 }
    let x := getCell (due f) 0
    x.user.flights = [f] ∧ f.cnt = 0 ∧ f.wait = .none ∧ x.user.tland = [] ∧ x.arrivals = [] ∧ x.inbox = [] ∧ x.poison = [] ∧ x.fw.flights = [] ∧
      mappedOut x 639 = false ∧ mappedOut { x with lver := 0x0180 } 639 = false ∧ mappedOut { x with lver := 0x0101 } 159 = true := by decide +kernel
theorem test_meets_collision : let f : Flight := { tgt := .xreg 3, val := 1, cnt := 0, slot := 1 }
    let g : Flight := { tgt := .xreg 3, val := 2, cnt := 0, slot := 15 }
    let x := getCell (onCtx { Ctx.zero with flights := [f, g] }) 0
    x.user.flights = [f, g] ∧ x.inbox = [] ∧ f.slot ≤ g.slot ∧ g.slot < 16 ∧ f.tgt = g.tgt ∧ x.fw.flights = [] := by decide +kernel
theorem test_meets_TrapsAndInterruptsAreTaken : let c := { Ctx.zero with cr := [(0x107, 0x600), (0x108, 0x10004)] }
    let y : Cyc := { Cyc.idle with bundle := 8 }
    (creg c 0x107).getLsbD 0 = false ∧ followersOf (onCtx c) 0 = [] ∧ takesInterrupt y c false = true ∧ 1023 < 1024 ∧ 255 < 256 := by
  decide +kernel
theorem test_meets_StepsKeepMemoryCanonical : MemInv State.reset ∧ MemInv placed ∧ newest (step placed) ≠ none := by
  exact ⟨⟨by decide, by decide⟩, ⟨by decide, by decide⟩, by decide +kernel⟩

/-! ### Hypotheses that are met: the memory machine -/

theorem test_meets_load_queue : let x : Cell := { Cell.reset with loadq := [.load 5 0x1000 8 false 1 0 false (.bare false 0)] }
    let y : Cell := { x with l1 := [(32, ⟨1, 0, false, [(0, ⟨7, false, false, false, []⟩), (1, ⟨9, false, false, false, []⟩)], 0, .bare false 0⟩)] }
    let z : Cell := { y with loadq := [.acq 6 1 3 false], markers := [⟨9, 1, false, none, 9, false⟩] }
    lacksByte x 5 0x1007 = true ∧ fillPending (onCell x) 0 32 = false ∧ (∀ k < 8, (boundByte y 5 (0x1000 + k)).isSome = true) ∧
      loadsDone z 6 = true ∧ markersDone z 2 = true := by decide +kernel
theorem test_meets_stores : let x : Cell := { Cell.reset with storeb := [.store 5 0x107C 4 7 1 0 false false (.bare false 0)] }
    let m : Cell := { x with storeb := [.mark 5], markers := [⟨5, 3, false, none, 5, false⟩] }
    let w : Cell := { x with l1 := [(32, ⟨1, 0, false, [(31, ⟨7, true, false, false, []⟩)], 0, .bare false 0⟩)], fifo := [⟨3, 32⟩] }
    let d : Cell := { m with markers := [⟨5, 3, false, some 3, 5, false⟩] }
    drainable x = true ∧ 0x107C % 128 + 4 ≤ 128 ∧ (m.markers.filter fun k => k.pos.isSome).length < 16 ∧
      l1Dirty (l1Get w 32) = true ∧ l1Dirty (l1Get x 32) = false ∧ loadsDone d 5 = true ∧ d.fifo = [] ∧ d.records = [] := by decide +kernel
/-- Eight lines stand in the set of line 32. -/
theorem test_meets_full_set : let y : Cell := { Cell.reset with l1 := (List.range 8).map fun k => (544 + 512 * k, ⟨1, 0, false, [], k, .bare false 0⟩) }
    l1Has y 32 = false ∧ 8 ≤ (l1Set y 32).length ∧ l1Has y 544 = true ∧ (l1Set Cell.reset 32).length < 8 := by decide +kernel
theorem test_meets_queues : let q : SoReq := ⟨5, 0x1000, 8, false, false, 0, 0, false, .bare false 0, false⟩
    let k : CeCmd := ⟨7, 0, 0x1000, 64, 2 ^ 40, Handle.invalid, Handle.invalid, 0, 0, .bare false 0, false⟩
    let x : Cell := { Cell.reset with
      soq := some q
      engq := [.ce 6 k]
      records := [⟨1, false, 9⟩]
      ceDone := [⟨k, 64, 0, 0⟩]
      user := { Ctx.zero with cr := rings } }
    q.sent = false ∧ loadsDone x 5 = true ∧ markersDone x 5 = true ∧ markersDone x 6 = true ∧ enginePending (onCell x) 0 = false ∧
      k.ctl.getLsbD 41 = false ∧ l1Dirty (l1Get x 32) = false ∧ reportable (onCell x) 0 ⟨k, 64, 0, 0⟩ = true ∧ k.ctl.getLsbD 40 = true ∧
      cbValid x.user (k.ctl.extractLsb' 37 3).toNat = true ∧ running x false = false ∧ x.inbox = [] ∧ x.ce = none ∧ k.ab = false ∧
      running { x with task := some ⟨1, 0, 0, 0, 1⟩ } false = true := by decide +kernel
theorem test_meets_messages : let m (op : MsgOp) : Msg := ⟨4, 0, .cell 0, .slice (homeDie 0x107C) (homeSlice 0x107C), op, 0, 0, false, .bare false 0⟩
    let s (op : MsgOp) : State := { State.reset with chan := [m op] }
    let w := MsgOp.soWrite 5 0x107C 4 7
    let f := MsgOp.fill 32 1
    let b := MsgOp.record (2 ^ 40 - 8) 16 7 1
    (s w).chan.find? (fun k => k.id == 4) = some (m w) ∧ oldestIn (s w) (m w) = true ∧ (opRange w).1 + (opRange w).2 ≤ 2 ^ 40 ∧
      (s w).codecs = [] ∧ (getDie (s w) (homeDie 0x107C)).migctl.getLsbD 0 = false ∧ Memory.wf (s w).mem = true ∧
      oldestIn (s f) (m f) = true ∧ (opRange f).1 + (opRange f).2 ≤ 2 ^ 40 ∧ 2 ^ 40 < (opRange b).1 + (opRange b).2 ∧
      msgMissing (s w) (m w) = some 32 ∧
      (let r (op : MsgOp) : State := { (s op) with dies := [(homeDie 0x107C, { Die.reset with returned := [(8, 32)] })] }
       msgMissing (r w) (m w) = none ∧ (getDie (r w) (homeDie 0x107C)).l2 = [] ∧ wbWord (r f) (m f) 32 0 = none) := by decide +kernel
theorem test_meets_host_queues : let h (q : HostReq) : HostFn := { HostFn.reset with queue := [q] }
    let s (q : HostReq) : State := { State.reset with hosts := [(3, h q)] }
    (getHost (s (.read 0x1000 8)) 3).queue = [.read 0x1000 8] ∧ 0xFF8 % 128 + 8 ≤ 128 ∧ (getHost (s (.write 0xFF8 8 7)) 3).queue = [.write 0xFF8 8 7] ∧
      (getHost (s (.later 0xFF8 8 7)) 3).queue = [.later 0xFF8 8 7] ∧ wiping State.reset = false ∧
      wiping { State.reset with lcstat := 0x100 } = true ∧ 2 ^ 40 < (hostRange (.read (2 ^ 40 - 4) 8)).1 + (hostRange (.read (2 ^ 40 - 4) 8)).2 ∧
      lineMissing (s (.read 0xFF8 8)) 7 0 0xFF8 8 ≠ none ∧
      lineMissing { (s (.read 0xFF8 8)) with dies := [(homeDie 0xFF8, { Die.reset with returned := [(7, 31)] })] } 7 0 0xFF8 8 = none := by
  decide +kernel
theorem test_meets_fills : let x : Die := { Die.reset with misses := [⟨3, 32, 15, []⟩] }
    x.misses = [⟨3, 32, 15, []⟩] ∧ codecBacking State.reset (32 * 128) = false ∧
      ({ x with fills := [⟨3, 32, 15, 0, 0, 1, []⟩] } : Die).fills = [⟨3, 32, 15, 0, 0, 1, []⟩] ∧
      (l2Victim x 3 (cosSet (cosOf x 3 15) (32 * 128)) (cosOf x 3 15).ways.toNat).map (fun v => v.2) = some none := by decide +kernel

/-! ### Hypotheses that are met: cells and the debugger -/

/-- A cell that runs a task of kernel 1, and a kernel of queue 3 in region 9. -/
def taskOf (kid rank : Nat) : Option TaskRef := some ⟨kid, 0, 0, rank, 1⟩
def kern : Kernel := ⟨1, some 3, 2, 9, 0, 0, 0x2000, 1, 100, 1, 0, [], [0], 0, true, [], none, 0, false⟩
theorem test_meets_lines : let s := onCtx { Ctx.zero with want := some 0x1000000000000 }
    ispPc (lineOf 0x1000) = false ∧ ispPc (lineOf 0x8000000000010000) = true ∧ (lineOf 0x8000000000010000).toNat / 2 ^ 17 = 2 ^ 46 ∧ tctxKey State.reset (seqOwner (getCell State.reset 0)) = none ∧ (lineOf 0x1000).toNat < 2 ^ 48 ∧
      2 ^ 48 ≤ (lineOf 0x1000000000000).toNat ∧ (getCtx s 0 false).want = some (lineOf 0x1000000000000) := by decide +kernel
theorem test_meets_freezes : (getCell (onCell { Cell.reset with frzReq := true }) 0).frzReq = true ∧
    members (onCell { Cell.reset with frzReq := true }) 0 = [0] := by decide +kernel
theorem test_meets_links : let a : Arrival := ⟨0, 7, 0, false, false⟩
    let x : Cell := { Cell.reset with arrivals := [a], user := { Ctx.zero with cr := rings } }
    x.arrivals = [a] ∧ taker x.user 0 = some 2 ∧ cbValid x.user 2 = true ∧ cbFree x.user 2 ≠ 0 ∧ taker Ctx.zero 3 = none ∧ running x false = false ∧
      running { x with task := some ⟨1, 0, 0, 0, 1⟩ } false = true ∧ x.task = none := by decide +kernel
/-- A gang of two: the leader has a bundle to issue, and the follower the head of its stream. -/
def gang : State :=
  let lead := placeBundle 1 0x00023E46 { Cell.reset with owners := [(0, 9)] }
  { State.reset with
    kernels := [{ kern with desc := BitVec.ofNat 512 (2 ^ 344) }]
    cells := [(0, { lead with task := taskOf 1 0 }),
      (1, { Cell.reset with
        task := taskOf 1 1
        owners := [(0, 9)]
        user := { Ctx.zero with gang := [⟨0, 0x8000, BitVec.ofNat 128 (8 * 2 ^ 30)⟩] } })] }
theorem test_meets_followers : rankOf (getCell gang 1) ≠ 0 ∧ (getCell gang 1).user.gang.length = 1 ∧ firmDue gang 1 = false ∧
    members gang 1 = [0, 1] ∧ settle gang 0 false = gang ∧ settle gang 1 false = gang ∧ (bundleOf (nextOf gang 0 false)).isSome = true ∧
    (bundleOf (nextOf gang 1 false)).isSome = true ∧ regionOf gang 9 = none := by decide +kernel
theorem test_meets_firmware : let p := placeBundle 1 0x00023E46 Cell.reset
    let s := onCell { p with task := none, fwRun := true, fw := { Cell.reset.fw with pc := 0x8000000000000000 } }
    let r := onCell { p with fwRun := true, fwshare := 0, fwcount := 65, fw := { Cell.reset.fw with pc := 0x8000000000000000 } }
    userStopped s 0 = true ∧ settle s 0 true = s ∧ (bundleOf (nextOf s 0 true)).isSome = true ∧
      userStopped r 0 = false ∧ firmDue r 0 = true := by decide +kernel
theorem test_meets_firmware_start : (3#64).toNat / 128 = 0 ∧ ({ Cell.reset with fwStop := some 8 } : Cell).fwStop.isSome = true ∧
    Cell.reset.fwRun = false ∧ (Die.reset.fwrpc).getLsbD 0 = false := by decide +kernel
theorem test_meets_debugger : let g (x : Debug) : Debug := (getCell (onCell { Cell.reset with dbg := x }) 0).dbg
    (g Debug.reset).prec = false ∧ (g { Debug.reset with prec := true }).prec = true ∧ (g { Debug.reset with precise := some 300 }).precise = some 300 ∧
      (g { Debug.reset with precise := some 301 }).precise = some 301 ∧ (g { Debug.reset with stat := 1 }).stat.getLsbD 0 = true := by decide +kernel
/-- DBGSEL at the last scalar register of segment 1, at one past the segment, and of another owner. -/
theorem test_meets_debugger_data : let sel (o : Nat) : Word := BitVec.ofNat 64 (2 ^ 56 + o)
    let x : Cell := { Cell.reset with owners := [(1, 9)], dbg := { Debug.reset with stat := 1, sel := sel 4032 } }
    x.dbg.stat.getLsbD 0 = true ∧ (x.dbg.sel.extractLsb' 56 8).toNat = 1 ∧ smGet 0 x.owners 1 = 9 ∧
      (x.dbg.sel.extractLsb' 0 32).toNat + 64 ≤ 8 * segLen 1 ∧ (x.dbg.sel.extractLsb' 0 32).toNat = 64 * 63 ∧
      8 * segLen 1 < ((sel (8 * segLen 1)).extractLsb' 0 32).toNat + 64 := by decide +kernel

/-! ### Hypotheses that are met: translation -/

/-- Four levels of second-stage descriptors for the address 3:5:7:9, the last one e. -/
def tables (e : Nat) : State := { State.reset with
  mem := writeNat (writeNat (writeNat (writeNat [] (0x1000 + 8 * 3) 8 (3 + 0x20 * 2 ^ 8)) (0x2000 + 8 * 5) 8 (3 + 0x40 * 2 ^ 8))
    (0x4000 + 8 * 7) 8 (3 + 0x61 * 2 ^ 8)) (0x6100 + 8 * 9) 8 e }
def tableVa : Nat := 3 * 2 ^ 39 + 5 * 2 ^ 30 + 7 * 2 ^ 21 + 9 * 2 ^ 16 + 0x1234
def stage2Only : TCtx := { TCtx.reset with reg := BitVec.ofNat 256 (1 + 3 * 2 ^ 48 + 0x1000 * 2 ^ 128) }
theorem test_meets_walks : let s := tables (1 + 16 + 32 + 256 + 12345 * 2 ^ 16)
    tableVa < 2 ^ 48 ∧ s1en stage2Only = false ∧ s2en stage2Only = true ∧ s2en TCtx.reset = false ∧ s2root stage2Only = 0x1000 ∧
      homeReadN s 0x1018 8 = 0x2003 ∧ homeReadN s 0x2028 8 = 0x4003 ∧ homeReadN s 0x4038 8 = 0x6103 ∧
      badDesc true 1 0x2003 = false ∧ badDesc true 2 0x4003 = false ∧ badDesc true 3 0x6103 = false ∧
      bit (homeReadN s 0x6148 8) 0 = true ∧ bit (homeReadN s 0x6148 8) 1 = false ∧ badDesc true 4 (homeReadN s 0x6148 8) = false ∧
      bit (homeReadN (tables 0) 0x6148 8) 0 = false := by decide +kernel
theorem test_meets_leaves : let l : Leaf := ⟨1, 0, false, 2, 0, true⟩
    l.desc = (1#64).toNat ∧ 2 ≤ l.lvl ∧ l.lvl ≤ 4 ∧ l.out < 2 ^ 48 := by decide +kernel
/-- A cell of region 9 whose xlt.map is due, with tables that translate it and tables that do not. -/
def walking (e : Nat) : State := { (tables e) with
  regions := [⟨0x8000, 9, 0, none, [0], 0, 0, 0, 0, none, []⟩]
  tctx := [(9, stage2Only)]
  cells := [(0, { Cell.reset with
    owners := [(0, 9)]
    task := taskOf 1 0
    user := { Ctx.zero with
      flights := [{ tgt := .handle 2, val := 0, cnt := 1, slot := 15, wait := .walk, id := 7, aux := BitVec.ofNat 64 tableVa }]
      ph := [(1, { Handle.invalid with v := true, gpage := 0x30000 })] } })] }
/-- A walk with nothing in the walk cache of its die. -/
def coldWalk (s : State) (t : TCtx) : Walked (Leaf × Leaf × Handle) :=
  translateBy t false tableVa (stage1By s t (stage2Walk s t true) tableVa) (stage2Walk s t false)
theorem cold_walk_fails (s : State) (t : TCtx) (f : WalkFault) (h : (getDie s 0).walks = []) (e : coldWalk s t = .error f) :
    translateVia s 0 (some 9) t false tableVa = .error f := by
  unfold coldWalk at e
  simp [translateVia, walkHit, h, e]
theorem cold_walk_ends (s : State) (t : TCtx) (l m : Leaf) (p : Handle) (h : (getDie s 0).walks = []) (e : coldWalk s t = .ok (l, m, p))
    (hl : leafStands s l = true) (hm : leafStands s m = true) : ∃ r, translateVia s 0 (some 9) t false tableVa = .ok r := by
  unfold coldWalk at e
  simp [translateVia, walkHit, h, e, hl, hm]
/-- The outcome of a walk: 0 where it ends with leaves that stand, else 1 plus the stage of its fault. -/
def outcome (s : State) (t : TCtx) : Nat :=
  match coldWalk s t with
  | .ok (l, m, _) => if leafStands s l && leafStands s m then 0 else 3
  | .error e => if e.stage2 then 2 else 1
theorem test_meets_walk_ends : let s := walking (1 + 16 + 32 + 256 + 12345 * 2 ^ 16)
    let u := walking 0
    (openWalk (getCtx s 0 false)).isSome = true ∧ (getCtx s 0 false).walk = none ∧ tctxKey s (seqOwner (getCell s 0)) = some 9 ∧
      (getDie s 0).walks = [] ∧ (getDie u 0).walks = [] ∧ outcome s stage2Only = 0 ∧ outcome u stage2Only = 2 ∧
      outcome u { stage2Only with reg := 2 } = 1 := by decide +kernel
theorem test_meets_requests : let s := walking 0
    let t : State := { s with tctx := [(9, { stage2Only with reqs1 := [0x80], reqs2 := [0x30000] })] }
    (ctxOfFunc s 3).map (fun e => e.1) = some 9 ∧ (getHost s 3).queue = [] ∧ ((0x380#64).extractLsb' 8 8).toNat = 3 ∧ (getHost s 3).tdisp = 0 ∧
      (getHost { s with hosts := [(3, { HostFn.reset with tdisp := 2 })] } 3).tdisp ≠ 0 ∧
      (smGet TCtx.reset t.tctx 9).reqs1 = [0x80] ∧ (smGet TCtx.reset t.tctx 9).reqs2 = [0x30000] ∧ cellsUnder t 9 = [0] ∧
      covered true 0x30000 { Handle.invalid with v := true, gpage := 0x30000 } = true ∧
      accessPending t 0 true 0x30000 = false := by decide +kernel
theorem test_meets_answers : let s (f : Bool) : State := onCell { Cell.reset with
      task := taskOf 1 0
      user := { Ctx.zero with walk := some ⟨f, 0x1000, 0, 0, 0, 0⟩ } }
    let h : SysCmd := ⟨0, 1, 0, 0, 0, 0, 0, true, none, true, BitVec.ofNat 512 (2 * 2 ^ 64), none, none⟩
    ((getCell (s true) 0).user.walk.map fun w => w.fetch) = some true ∧ ((getCell (s false) 0).user.walk.map fun w => w.fetch) = some false ∧
      (getCell (s true) 0).task.isSome = true ∧ (getCell State.reset 0).user.walk = none ∧ h.held = true := by decide +kernel

/-! ### Hypotheses that are met: sessions, regions, queues and kernels -/

theorem test_meets_SessionsAndInterfaces : let s (p : Nat) (t : BitVec 2) : State := { State.reset with hosts := [(3, { HostFn.reset with spdm := p, tdisp := t })] }
    (getHost (s 5 1) 3).spdm = 5 ∧ (getHost (s 5 1) 3).tdisp = 1 ∧ (getHost (s 5 0) 3).tdisp = 0 ∧ (getHost (s 3 0) 3).spdm ≠ 5 ∧
      3 ≤ (getHost (s 3 0) 3).spdm ∧ 0x10F < 0x110 ∧ 3 < 256 := by decide +kernel
/-- A region control block: its fields at the places of R304. -/
def rcbWord (parent part inh lvl rect y0 y1 x0 x1 count ebud : Nat) : Nat :=
  parent + part * 2 ^ 64 + lvl * 2 ^ 83 + inh * 2 ^ 128 + rect * 2 ^ 387 + y0 * 2 ^ 388 + y1 * 2 ^ 392 + x0 * 2 ^ 396 + x1 * 2 ^ 400 +
    count * 2 ^ 404 + ebud * 2 ^ 416 + 10 * 2 ^ 480 + 0xFFFF * 2 ^ 522 + 4 * 2 ^ 736 + 0x40000 * 2 ^ 672
def root : Region := ⟨0x8000, 9, BitVec.ofNat 2048 (rcbWord 0 9 0 0 1 0 1 0 3 0 5000), none, [0, 1, 2, 3, 16, 17, 18, 19], 0, 4000, 0, 0, none, []⟩
def leaf7 : Region := { root with
  pa := 0x9000
  part := 7
  parent := some 9
  rcb := BitVec.ofNat 2048 (rcbWord 0x8000 7 0 7 0 0 0 0 0 2 400)
  cells := [0, 1] }
def rootWord : Nat := rcbWord 0 3 0 0 1 2 3 2 3 0 77
def childWord : Nat := rcbWord 0x9000 3 0 3 0 0 0 0 0 1 77
theorem test_meets_admission : rcbReserved rootWord = false ∧ (rcbRect rootWord).isSome = true ∧ bits rootWord 736 5 = 4 ∧
    regionOf State.reset 3 = none ∧ bits rootWord 90 2 ≠ 3 ∧ rcbReserved childWord = false ∧ leaf7.rcb.extractLsb' 83 3 = 7 := by decide +kernel
def blockStored : State := { State.reset with
  mem := [1, 6, 7, 8, 10, 11].foldl (fun m k => writeNat m (0xA000 + 8 * k) 8 (bits rootWord (64 * k) 64)) [] }
theorem test_meets_admission_memory : homeReadN blockStored 0xA000 256 = rootWord := by
  rw [show 256 = 128 + 128 from rfl, homeReadN_add, homeReadN_line _ _ _ (by decide), homeReadN_line _ _ _ (by decide)]
  decide +kernel
theorem test_meets_contexts : let t : TCtx := { TCtx.reset with reg := BitVec.ofNat 256 (3 * 2 ^ 48) }
    let s : State := { State.reset with
      regions := [root, { leaf7 with frozen := some [0] }]
      tctx := [(7, t)]
      hosts := [(3, { HostFn.reset with tdisp := 1 })] }
    (∀ r ∈ s.regions, r.parent ≠ some 7) ∧ s.kernels = [] ∧ (∃ r ∈ s.regions, r.parent = some 9) ∧ (regionOf s 7).isSome = true ∧
      regionOf s 8 = none ∧ tctxFunc t = 3 ∧ (getHost s 3).tdisp = 1 ∧ 511 < 512 ∧ (∃ e ∈ s.tctx, e.1 = 7) ∧
      (getHost { s with hosts := [(3, { HostFn.reset with tdisp := 3 })] } 3).tdisp = 3 := by decide +kernel
theorem test_meets_release : let s : State := { State.reset with
      regions := [root, { leaf7 with frozen := some [0] }]
      kernels := [{ kern with part := 7, running := [] }, { kern with running := [0] }]
      cells := [(0, { Cell.reset with owners := [(0, 7)], hold := true })] }
    (regionOf s 7).map (fun r => r.frozen) = some (some [0]) ∧ seqOwner (getCell s 0) = 7 ∧
      ((subtree s 7).map fun r => r.part).contains (seqOwner (getCell s 0)) = true ∧ scanRuns s 0 = false ∧
      (∀ k ∈ s.kernels, k.part = 7 → k.state = 1 ∧ k.running = []) ∧ ∃ k ∈ s.kernels, k.part = 9 ∧ ¬ (k.state = 1 ∧ k.running = []) := by
  decide +kernel
/-- Queue 3 of region 9 with 16 slots at 0x10000, its packet at RD = 2, and a kernel descriptor at 0x2000. -/
def queued (pkt desc : Nat) : State := { State.reset with
  mem := writeNat (writeNat [] 0x10080 64 pkt) 0x2000 64 desc
  regions := [root]
  queues := [(3, ⟨BitVec.ofNat 256 (4 + 2 * 2 ^ 32 + 0x10000 * 2 ^ 128 + 0x8000 * 2 ^ 192), 0, true, []⟩)] }
theorem test_meets_packets : let d := 0x4000 + 2 ^ 352 + 2 ^ 368
    let s := queued (1 + 2 + 0x2000 * 2 ^ 128 + 7 * 2 ^ 320) d
    let u := queueOf s 3
    let t := tctxOf s 9 false
    (qRegion s u).isSome = true ∧ s.paused = false ∧ qLog u = 4 ∧ qRd u = 2 ∧ s.kernels = [] ∧ (cpRead64 s t (slotOf u 2)).map (fun x => bit x.2 0) = some true ∧
      (cpRead s t (slotOf u 2) 64).isSome = true ∧ ((cpRead s t 0x2000 64).map fun x => x.2) = some d ∧ descBad 0x2000 d = false ∧
      descBad 0x2001 d = true ∧ bits d 64 64 = 0 ∧ coresBad root kern = false ∧ cpHeld s t (slotOf u 2) s.seq = false ∧
      loadHeld s t 0x2000 = false := by decide +kernel
/-- A queue in a host page, behind a message to the host. -/
theorem test_meets_packets_held : let leaf := 1 + 16 + 32 + 256 + 2 ^ 15 + 12345 * 2 ^ 16
    let s : State := { (tables leaf) with chan := [⟨0, 5, .cell 5, .host, .soWrite 0 0 8 0, 0, 0, false, .bare false 0⟩] }
    hostBehind s s.seq = true ∧ cpHeld s stage2Only (tableVa / 16 * 16) s.seq = true := by decide +kernel
theorem test_meets_cancels : let k : Kernel := { kern with pidx := 2 }
    let s (k : Kernel) : State := { (queued 0 0) with kernels := [k] }
    (s k).kernels.find? (fun k => k.q == some 3 && k.pidx == 2) = some k ∧ kernelOf (s k) 1 = some k ∧ k.state < 2 ∧ k.started = true ∧
      ({ k with started := false, state := 2 } : Kernel).state = 2 ∧ k.kid ∉ (s k).newKernels ∧ k.kid ∈ ({ (s k) with newKernels := [1] } : State).newKernels := by
  decide +kernel
def waitingKern (e : Nat) : Kernel := { kern with
  state := 0
  packet := BitVec.ofNat 512 (e * 2 ^ 320 + 2) }
def waits (e : Nat) : State := { (queued 0 0) with kernels := [waitingKern e] }
theorem test_meets_kernel_admission : kernelOf (waits 100) 1 = some (waitingKern 100) ∧ regionOf (waits 100) 9 = some root ∧
    budgetOf (waits 100) 9 = [9] ∧ rcbField root 416 64 = 5000 ∧ kEest (waitingKern 5001) = 5001 ∧ tooHot (waits 100) root = false := by
  decide +kernel
theorem test_meets_energy_left : (kEest (waitingKern 4500) : Int) > root.erem ∧ (kEest (waitingKern 100) : Int) ≤ root.erem := by decide +kernel
theorem test_meets_signal : signalMet (waits 100) (waitingKern 100) = true := by decide +kernel
def signalKern : Kernel := { (waitingKern 100) with packet := BitVec.ofNat 512 (2 + 0x100 * 2 ^ 192) }
theorem test_meets_signal_word : signalMet (waits 100) signalKern = true := by decide +kernel
/-- Kernel 1 of region 9: gangs of two, four by two tasks, with its second gang to dispatch. -/
def gangKern : Kernel := { kern with next := 2, running := [], desc := BitVec.ofNat 512 (0x4000 + 2 * 2 ^ 352 + 4 * 2 ^ 368 + 2 ^ 348) }
theorem test_meets_dispatch : let s : State := { State.reset with regions := [root], kernels := [gangKern] }
    kernelOf s 1 = some gangKern ∧ regionOf s 9 = some root ∧ ready s gangKern = true ∧ placeAt s gangKern 0 = true ∧
      served s gangKern 0 = true ∧ kCores gangKern = false ∧ gangKern.saved = [] ∧ kG gangKern = 2 := by decide +kernel
/-- A save area of a region, at 0x200000. -/
def saveArea : Nat := 2 ^ 95 + 0x200000 * 2 ^ 800 + 0x1000 * 2 ^ 864
/-- A kernel that waits for the cell of region 9, and the task of kernel 5 of a region below it that stands in its way. -/
def challenger : Kernel := { gangKern with
  next := 0
  desc := BitVec.ofNat 512 (0x4000 + 2 * 2 ^ 352 + 3 * 2 ^ 368) }
@[inherit_doc challenger] def arena : Region := { root with
  cells := [0]
  rcb := BitVec.ofNat 2048 (rcbWord 0 9 0 0 1 0 1 0 3 0 5000 + saveArea + 3 * 2 ^ 86) }
@[inherit_doc challenger] def contested (hold : Bool) : State :=
  let below : Region := { root with
    part := 4
    pa := 0x7000
    parent := some 9
    cells := [0, 1]
    rcb := BitVec.ofNat 2048 (rcbWord 0x8000 4 0 1 1 0 0 0 1 0 500 + saveArea) }
  { State.reset with
    seq := 9
    regions := [arena, below]
    kernels := [challenger, { challenger with kid := 5, part := 4, next := 3, running := [1] }]
    cells := [(0, { Cell.reset with
      owners := (List.range 28).map fun j => (j, 4)
      task := some ⟨5, 1, 0, 0, 2⟩
      hold := hold
      saving := if hold then some 1 else none
      frozen := if hold then some ⟨8, 0, 0, false, false⟩ else none })] }
theorem test_meets_preemption : kernelOf (contested false) 1 = some challenger ∧ regionOf (contested false) 9 = some arena ∧
    ready (contested false) challenger = true ∧ placeImages (contested false) 4 1 0x200000 = true ∧ saveHeld (contested false) [0] = false ∧
    (getCell (contested false) 0).saving = none ∧ (listed (contested false)).Nodup := by decide +kernel
theorem test_meets_preemption_victim : chosenVictim (contested false) arena challenger = some 0 ∧
    arena.cells.any (placeAt (contested false) challenger) = false := by decide +kernel
theorem test_meets_preemption_saved : let s := contested true
    let t : TaskRef := ⟨5, 1, 0, 0, 2⟩
    (getCell s 0).task = some t ∧ taskCells s t = [0] ∧ (getCell s 0).saving = some 1 ∧ ready s challenger = true ∧
      arena.cells.any (placeAt s challenger) = false ∧ (firstPlace s 4 1).isSome = true ∧ quiescent s 0 = true ∧
      placeImages s 4 1 0x200000 = true ∧ (kernelOf s 5).isSome = true ∧ saveHeld s [0] = false ∧ (getCell s 0).failed = 0 ∧
      (getCell s 0).image = none ∧ s.regions.map (·.pins) = [[], []] := by decide +kernel
/-- The same with a D word in L1, with a failed cell, and with no kernel that waits. -/
theorem test_meets_preemption_others : let s := contested true
    let d (f : Cell → Cell) : State := { s with cells := s.cells.map fun e => (e.1, f e.2) }
    ((getCell (d fun x => { x with l1 := [(32, ⟨1, 0, false, [(31, ⟨7, true, false, false, []⟩)], 0, .bare false 0⟩)] }) 0).l1.any
      fun e => e.2.words.any fun w => w.2.dirty) = true ∧ (getCell (d fun x => { x with failed := 1 }) 0).failed = 1 ∧
      kernelOf { s with kernels := [] } 1 = none := by decide +kernel
theorem test_meets_completion : let s (t : Word) : State := { State.reset with
      kernels := [kern]
      cells := [(0, { Cell.reset with task := taskOf 1 0, user := { Ctx.zero with pkind := 2, target := t } })] }
    kernelOf (s 0) 1 = some kern ∧ endReady (getCell (s 0) 0) = true ∧ (getCell (s 0) 0).user.target = 0 ∧ endReleased (s 4) 0 = true ∧
      endReady (getCell (s 4) 0) = true ∧ taskCells (s 0) ⟨1, 0, 0, 0, 1⟩ = [0] := by decide +kernel
/-- Where no L2 holds a line, and no die tracks dirty pages, memory is plain. -/
theorem plain_of_empty_l2 (s : State) (h : ∀ e ∈ s.dies, e.2.l2 = [] ∧ e.2.migctl.getLsbD 0 = false) (c : s.codecs = [])
    (m : Memory.wf s.mem = true) : plainMemory s := by
  have g : ∀ (l : SMap Die) (d : Nat), (∀ e ∈ l, e.2.l2 = [] ∧ e.2.migctl.getLsbD 0 = false) →
      (smGet Die.reset l d).l2 = [] ∧ (smGet Die.reset l d).migctl.getLsbD 0 = false := by
    intro l d
    induction l with
    | nil => intro _; exact ⟨rfl, by simp only [smGet]; decide⟩
    | cons e l ih =>
      intro k
      simp only [smGet]
      split
      · exact k e (by simp)
      · split
        · exact ⟨rfl, by decide⟩
        · exact ih fun x hx => k x (by simp [hx])
  exact ⟨c, fun d => (g _ d h).2, fun d => by simp [getDie, (g _ d h).1], m⟩
/-- The premise of every clause that reads memory back (R335). -/
theorem test_meets_plain : plainMemory State.reset ∧ plainMemory (contested true) :=
  ⟨plain_of_empty_l2 _ (by simp [State.reset]) rfl rfl, plain_of_empty_l2 _ (by decide +kernel) rfl rfl⟩
theorem test_meets_retirement : let k : Kernel := { kern with state := 2, status := 1, pidx := 2, packet := 3 }
    let e : Kernel := { k with q := none, entry := some (0, 3) }
    let s : State := { (queued 3 0) with kernels := [k] }
    kernelOf s 1 = some k ∧ s.tctx = [] ∧ slotOf (queueOf s 3) 2 % 8 = 0 ∧ slotOf (queueOf s 3) 2 < 2 ^ 40 ∧ s.dies = [] ∧ s.codecs = [] ∧ Memory.wf s.mem = true ∧
      decrements k = true ∧ decrements { k with status := 8 } = false ∧ e.q = none ∧
      smWf 0 0 (getDie (onDie { Die.reset with sched := [(3, 77)] }) 0).sched = true ∧ recordsOut s k = true ∧ kSignal k = 0 ∧ hostBehind s k.rel = false ∧
      hostBehind { s with chan := [⟨0, 5, .cell 5, .host, .soWrite 0 0 8 0, 0, 0, false, .bare false 0⟩] } k.rel = true := by decide +kernel

/-! ### Hypotheses that are met: time, errors, life cycle, registers and commands -/

theorem test_meets_time : let s : State := { State.reset with slew := 5 * 1024, tset := 2000000, tsetw := true }
    (5 : Int) ≠ 0 ∧ s.slew = 5 * 1024 ∧ 1024 * (5 : Int).natAbs ≤ 5120 ∧ 5119 < s.slew.natAbs ∧ State.reset.slew = 0 ∧
      s.tsetw = true ∧ s.tset = 2000000 ∧ State.reset.tsetw = false ∧ (1000000 : Int) < ((2000000#64).toNat : Int) - (s.time.toNat : Int) := by decide +kernel
theorem test_meets_energy : let s : State := { State.reset with
      regions := [root]
      kernels := [kern]
      cells := [(0, { Cell.reset with owners := [(0, 9)], task := taskOf 1 0, enj := 90 })] }
    let u := after (exec (.slewEnd 1000000) s)
    s.refills < u.time.toNat / 1000000 ∧ s.charges < u.time.toNat / 100000 ∧ root.rcb.getLsbD 129 = false ∧ root.parent = none ∧
      (regionOf s (seqOwner (getCell s 0))).isSome = true ∧ (after (exec (.slewEnd 99999) s)).time.toNat / 100000 ≤ s.charges := by decide +kernel
theorem test_meets_die : let x : Die := { Die.reset with telsize := 4, telbase := 0x100 }
    (x.telsize.extractLsb' 0 5).toNat = 4 ∧ (Die.reset.telsize.extractLsb' 0 5).toNat < 4 ∧
      ((0x0640#64).extractLsb' 0 16).toInt = 16 * 100 ∧ ((0x063F#64).extractLsb' 0 16).toInt < 16 * 100 := by decide +kernel
theorem test_meets_scrub : homeDie 0x2000 = 1 ∧ 0x2000 < 2 ^ 40 ∧ 2 ^ 40 ≤ 2 ^ 40 + 2 * 2 ^ 20 ∧
    ((2 ^ 44 + 0x2000) % 2 ^ 44 = 0x2000 ∧ Nat.testBit (2 ^ 44 + 0x2000) 44 = true ∧ Nat.testBit 0x2000 44 = false) ∧
    (scrubCell 0 (2 ^ 40 + 9)).2.1 = 9 ∧ (scrubCell 0 (2 ^ 40 + 11)).2.1 = 11 ∧ (scrubCell 0 (2 ^ 40 + 12)).2.1 = 12 ∧
    (scrubCell 0 (2 ^ 40 + 11 * 2 ^ 20)).1 < 1024 ∧ ringOn 4 = true := by decide +kernel
theorem test_meets_schedule : let e : SchedEnt := BitVec.ofNat 256 (50 + 0x8000 * 2 ^ 64 + 2 ^ 192)
    let s : State := onDie { Die.reset with sched := [(3, e)] }
    let entry (j : Nat) : BitVec 256 := smGet 0 (getDie s 0).sched j
    let due (t : State) (j : Nat) : Prop := (entry j).getLsbD 192 = true ∧ ((entry j).extractLsb' 0 64).toNat ≤ dieTime t 0
    due (advanceTime s 50) 3 ∧ (∀ j < 3, ¬ due (advanceTime s 50) j) ∧ smWf 0 0 (getDie s 0).sched = true ∧ ¬ due (advanceTime s 49) 3 := by
  decide +kernel
theorem test_meets_group_failure : let s := contested true
    let t : State := { s with cells := s.cells.map fun e => (e.1, { e.2 with failed := 1 }) }
    (getCell t 0).failed = 1 ∧ members t 0 = [0] ∧ (getCell t 0).hold = true ∧ quiescent t 0 = true ∧ placeImages t 4 1 0x200000 = true ∧
      (Machine.saveArea t 4).isSome = true ∧ Machine.saveArea { t with regions := [] } 4 = none ∧ saveHeld t [0] = false ∧ (getCell t 0).l1 = [] ∧
      (getCell t 0).image = none ∧ [0].Nodup ∧ 0x200000 % 128 = 0 := by decide +kernel
theorem test_meets_failed_image : let x : Cell := { Cell.reset with image := some ⟨0x200000, 0, 0, false⟩, poison := [(1, 3, 0)] }
    x.image = some ⟨0x200000, 0, 0, false⟩ ∧ 0x200000 + 256 ≤ 2 ^ 40 ∧ (1, 3, 0) ∈ x.poison ∧ markPlace (1, 3, 0) = (1, 24) := by decide +kernel
theorem test_meets_life_cycle : (State.reset.lcstat.extractLsb' 0 3, (1 : BitVec 3)) ∈ [((0, 1) : BitVec 3 × BitVec 3), (1, 2), (2, 3), (3, 1)] ∧
    (State.reset.lcstat.extractLsb' 0 3, (2 : BitVec 3)) ∉ [((0, 1) : BitVec 3 × BitVec 3), (1, 2), (2, 3), (3, 1)] ∧
    ({ State.reset with failmap := [(5, 2, 140)] } : State).failmap = [(5, 2, 140)] ∧ 128 ≤ 140 % 160 ∧
    ({ State.reset with lcstat := 0x100 } : State).lcstat.getLsbD 8 = true := by decide +kernel
theorem test_meets_firmware_activation : let s : State := { State.reset with
      hosts := [(3, { HostFn.reset with tdisp := 2, fwevt := 1 })]
      fwimage := some 0x5000
      paused := true
      sincePause := 10000000000 }
    (0x5000 : Word) = 0x5123 &&& 0x0000FFFFFFFFF000 ∧ s.hosts.Pairwise (fun x y => x.1 < y.1) ∧ activeFns s = [3] ∧ pausedFns s = [3] ∧
      s.fwimage = some 0x5000 ∧ (getHost s 3).fwack = false ∧ 10000000000 ≤ s.sincePause ∧ State.reset.paused = false ∧
      pausedFns State.reset = [] := by decide +kernel
/-- A collective command of three members, of which this device is member 1: 8 KiB at 0x10000, the area at 0x40000, step 12, a start
word at 0x5000 and the record at 0x6000. -/
def block (op : Nat) (acq : Bool) : Nat :=
  op + (if acq then 2 ^ 35 else 0) + 2 ^ 48 + 3 * 2 ^ 56 + 0x10000 * 2 ^ 64 + 0x40000 * 2 ^ 128 + 8192 * 2 ^ 192 + 12 * 2 ^ 320 +
    0x5000 * 2 ^ 384 + 0x6000 * 2 ^ 448
theorem test_meets_collectives : cBad 1 (block 1 false) = false ∧ cBad 2 (block 2 true) = false ∧ cBad 1 (block 2 true) = true ∧
    3 ≤ cG (block 2 true) ∧ cDone (block 1 false) % 16 = 0 ∧ cChunk (block 1 false) = 4096 := by decide +kernel
theorem test_meets_starts : startMet State.reset (block 1 false) = true ∧ startMet State.reset (block 1 true) = false ∧
    startMet { State.reset with mem := writeNat [] 0x5000 8 1 } (block 1 true) = true := by decide +kernel
@[inherit_doc block] def coll (op : Nat) (acq w done : Bool) (pos : Nat) (got : List Nat) : Collective :=
  ⟨BitVec.ofNat 512 (block op acq), w, 0, 0, 0, pos, 0, 0, got, done⟩
theorem test_meets_collective_steps : let c := coll 1 false false false
    (c 0 []).done = false ∧ (c 0 []).waits = false ∧ (c 0 []).blk.extractLsb' 0 8 = 1 ∧ cLen (block 1 false) / 64 = 128 ∧
      cChunk (block 1 false) / 64 = 64 ∧ (0 + 1) % 64 ≠ 0 ∧ (63 + 1) % 64 = 0 ∧ 63 < 128 ∧ 128 < 128 + 64 ∧
      (coll 2 false false false 0 [1]).got.length < 3 * 3 ∧ (coll 2 false false false 0 [1]).blk.extractLsb' 0 8 = 2 ∧
      cG (block 2 false) = 3 ∧ (coll 2 false false false 0 (List.replicate 8 0)).got.length + 1 = 3 * 3 := by decide +kernel
/-- Device 1 lacks two pieces of step 12, of which one is of step 11. -/
theorem test_meets_outcomes : let ps : List (Nat × Option Nat) := [(0, some 12), (0, some 12), (0, some 12)]
    let qs : List (Nat × Option Nat) := [(0, some 12), (0, some 11), (0, none)]
    counting ([ps, ps, ps].getD 1 []) 12 = 3 ∧ counting ([ps, qs, ps].getD 1 []) 12 < 3 - 1 ∧
      (loadOutcome (block 2 false) [ps, ps, ps], loadOutcome (block 2 false) [ps, qs, ps]) = ((0, 0, 12), (0x21, 2, 0)) := by decide +kernel
theorem test_meets_collective_ends : let s (acq w d : Bool) : State := { State.reset with coll := [coll 1 acq w d 0 []] }
    let c := coll 1 false false true 0 []
    (s false false true).coll = [c] ∧ c.done = true ∧ collHeld (s false false true) c = false ∧ c.status < 2 ^ 16 ∧
      (coll 1 true true false 0 []).blk.getLsbD 35 = true ∧ cStart (block 1 true) ≠ 0 ∧ homeReadN (s true true false) (cStart (block 1 true)) 8 = 0 ∧
      (coll 1 false true false 0 []).blk.getLsbD 35 = false ∧ c.blk.getLsbD 36 = false ∧ 11 < 12 ∧ 0 + 64 ≤ 2 ^ 40 := by decide +kernel
theorem test_meets_registers : (0x40, (0xFFFFFFFFFFF0 : Word)) ∈ ([(0x40, 0xFFFFFFFFFFF0), (0x48, 0x1F)] : List (Nat × Word)) ∧ 7 < 8 ∧
    0x2408 % 8 = 0 ∧ 127 < 128 ∧ 511 < 512 ∧ smWf 0 0 (getDie State.reset 7).sched = true := by decide +kernel
theorem test_meets_codecs : let s (ctl view size back : Word) : State := { State.reset with
      codecs := [(5, { Codec.reset with ctl := ctl, view := view, size := size, back := back })] }
    smWf Codec.reset 0 (s 0x10 0x10000 1 0x40000).codecs = true ∧ (codecAt (s 0x40 0 0 0) 5).ctl.getLsbD 6 = true ∧
      (codecAt (s 0x10 0 0 0) 5).ctl.getLsbD 4 = true ∧ enableBad (s 0 0 0 0) 5 (codecAt (s 0 0 0 0) 5) = true ∧
      enableBad (s 0 0x10000 1 0x40000) 5 (codecAt (s 0 0x10000 1 0x40000) 5) = false := by decide +kernel
/-- A scan of the scalar registers of cell 0 by partition 9, to or from the image at 0x200000, its block at 0x300000. -/
def scanBlock : Nat := 2 + 9 * 2 ^ 48 + 0x200000 * 2 ^ 128 + 0x1000 * 2 ^ 192
@[inherit_doc scanBlock] def scan (trig : Nat) (started : Bool) : SysCmd :=
  ⟨1, trig, 0, 0x8000, 0x300000, 0, 0, false, none, started, BitVec.ofNat 512 scanBlock, none, none⟩
@[inherit_doc scanBlock] def scanning (hold : Bool) (c : SysCmd) : State := { State.reset with
  mem := writeNat [] 0x300000 64 scanBlock
  regions := [arena]
  cells := [(0, { Cell.reset with
    owners := [(1, 9)]
    hold := hold
    frozen := if hold then some ⟨8, 0, 0, false, false⟩ else none })]
  dies := [(0, { Die.reset with sys := [c] })] }
theorem test_meets_scan_block : homeBig (scanning true (scan 1 false)) 0x300000 64 = scanBlock := by decide +kernel
theorem test_meets_scan_plain : plainMemory (scanning true (scan 1 true)) :=
  plain_of_empty_l2 _ (by decide +kernel) rfl (by decide +kernel)
theorem test_meets_scan_checks : blockOk 0 scanBlock = true ∧ cellSet 0 (blkSet scanBlock) = some [0] ∧ namedSegs (blkSegs scanBlock) = [1] ∧
    imageBytes (blkSegs scanBlock) ≤ 0x1000 ∧ (saveRegion (scanning true (scan 1 false)) 9 0x200000 (imageBytes (blkSegs scanBlock))).isSome =
      true ∧ saveRegion (scanning true (scan 1 false)) 9 0x300000000 256 = none := by decide +kernel
theorem test_meets_scan_cells : (getCell (scanning true (scan 1 false)) 0).hold = true ∧ (getCell (scanning false (scan 1 false)) 0).hold = false ∧
    smGet 0 (getCell (scanning true (scan 1 false)) 0).owners 1 = 9 ∧ smGet 0 (getCell State.reset 0).owners 1 ≠ 9 := by decide +kernel
theorem test_meets_scan_moves : let c := scan 1 true
    (getDie (scanning true c) 0).sys = [c] ∧ c.status = none ∧ (scanCells 0 c)[c.next]? = some 0 ∧ blkImage c.blk.toNat 0 % 128 = 0 ∧
      blkSegs c.blk.toNat = 2 ∧ quiescent (scanning true c) 0 = true ∧ quiescent (due { tgt := .handle 2, val := 0, cnt := 0, slot := 15 }) 0 = false ∧
      pinFails (scanning true c) 9 0x200000 (imageBytes 2) = none ∧ c.stage = none ∧
      pinFails { (scanning true c) with regions := [{ arena with pins := [(0x200000, 0x6148, 7)] }] } 9 0x200000 (imageBytes 2) = some 0x200000 ∧ scanRuns (scanning true c) 0 = true := by decide +kernel
theorem test_meets_scan_image : bits (homeBig { (scanning true (scan 2 true)) with mem := writeNat [] 0x200004 4 2 } 0x200000 256) 32 32 = 2 := by
  decide +kernel
theorem test_meets_scan_held : heldScan (scanning true { (scan 1 true) with held := true }) 0 = some (0, { (scan 1 true) with held := true }) ∧
    (heldScan (holdSave (scanning true (scan 1 true)) 0 9 0x200000) 0).map (fun e => (e.1, e.2.trig)) = some (1, 8) := by
  decide +kernel
/-- A command of the sys unit of cell 1. -/
def command (trig : Nat) (o t : Word) (started : Bool) : SysCmd := ⟨1, trig, o, 0x8000, t, 0, 0, false, none, started, 0, none, none⟩
theorem test_meets_commands : let c := command 5 0 0 false
    (getDie (scanning true c) 0).sys = [c] ∧ c.status = none ∧ c.m.toNat % 8 = 0 ∧ c.m.toNat ≠ 0 ∧ cellSet 0 0x11000 = some [0, 1, 16, 17] ∧
      cellSet 0 1 = none ∧ userStopped (scanning true c) 0 = true ∧ userStopped placed 0 = false ∧
      scanRuns (scanning true c) 0 = false ∧ (getCell (onCell { Cell.reset with frzReq := true }) 0).frzReq = true := by decide +kernel
/-- A running scan of cell 0 and a cell.rsm behind it; an ended scan; and a command whose release is complete, or is not. -/
theorem test_meets_answers_of_commands : let e := scan 1 true
    let c := { (command 4 9 1 false) with cell := 2 }
    let s : State := { (scanning true e) with dies := [(0, { Die.reset with sys := [e, c] })] }
    let r : SysCmd := { (command 5 0 0 false) with ans := some (0, 0, 0, 7) }
    (getDie s 0).sys = [e, c] ∧ scanLive e = true ∧ e.ans = none ∧ e.cell ≠ c.cell ∧ scanRuns s 0 = true ∧ isScan c = false ∧
      cellSet 0 0 = some [0] ∧ doneAddr c = 0x8000 ∧ (scanning true e).chan = [] ∧ { e with status := some 0x11 }.status = some 0x11 ∧
      markersDone (getCell (scanning true r) 1) 7 = true ∧ markersDone { Cell.reset with markers := [⟨7, 3, false, none, 7, false⟩] } 7 = false := by
  decide +kernel
theorem test_meets_cos : let o := (0x3101#64).toNat
    o / 2 ^ 20 = 0 ∧ bits o 2 6 = 0 ∧ bits o 16 4 = 0 ∧ bits o 12 4 = 3 ∧ bits o 0 2 = 1 ∧
      (0x70008#64).extractLsb' 0 15 &&& (0x70008#64).extractLsb' 16 15 = 0 := by decide +kernel
theorem test_meets_clear : let s := scanning true (command 7 0 0 false)
    segsOk 2 = true ∧ segsOk 0 = false ∧ bits (2 ^ 33 + 1) 32 32 = 2 ∧ bits (2 ^ 33 + 1) 0 10 / 128 = 0 ∧
      smWf 0 0 (getCell s 0).owners = true ∧ smGet 0 (getCell s 0).owners 1 ≠ 7 := by decide +kernel
/-- A DICT image of one entry, number 5, with w0 and w2, at 0x2000 (R63). -/
def imaged (crc : Nat) : State := { State.reset with
  mem := writeNat (writeNat [] 0x2000 16 (1 + 5 * 2 ^ 16 + 2 ^ 32 + 10 * 2 ^ 64 + crc * 2 ^ 96)) 0x2010 10 0x100023E468005 }
theorem test_meets_dictionary_image : (imageAt (imaged 0x812C7076) 0x2000).map (fun m => (m.map Prod.fst, m.map (fun e => e.2.word 2))) =
    some ([5], [1]) ∧ imageAt (imaged 0) 0x2000 = none := by decide +kernel

/-! ### Hypotheses that are met: values of the units -/

/-- Every branch of FloatArithmetic: finite numbers, infinities, negative numbers and zeros of FP32. -/
theorem test_meets_FloatArithmetic : let fin (v : Nat) : Prop := v / 2 ^ fp32.fw % 2 ^ fp32.ew ≠ 2 ^ fp32.ew - 1
    let inf (v : Nat) : Prop := v % 2 ^ 31 = (2 ^ fp32.ew - 1) * 2 ^ fp32.fw
    fp32 ∈ [fp16, bf16, fp32, fp64] ∧ FmtOps.width fp32 = 32 ∧ fin 0x40400000 ∧ fin 0xC0400000 ∧ fin 0x80000000 ∧ inf 0x7F800000 ∧
      inf 0xFF800000 ∧ 0x40400000 % 2 ^ 31 ≠ 0 ∧ 0x80000000 % 2 ^ 31 = 0 ∧ (0xC0400000).testBit 31 = true ∧
      funpack fp32 0x7F800001 = .nan := by decide +kernel
/-- Tiles 1 and 2 in INT8 and in BF16; column 5 of tile 1 is marked by its map, and tile 3 is at its end. -/
theorem test_meets_PushTakesOperands_widths : let c (f : Word) : Ctx := { Ctx.zero with cr := [(0x141, 0x504010000 + 2 ^ 29 + f),
        (0x142, 0x304010000 + 2 ^ 29 + f), (0x143, 0x404010000 + f), (0x151, 0x20)] }
    smWf 0 0 (c 1).cr = true ∧ tFmt (c 1) 1 < 2 ∧ 2 ≤ tFmt (c 2) 1 ∧ tFmt (c 2) 1 < 4 ∧ tCur (c 1) 1 < tKlen (c 1) 1 ∧
      (decide (1 ≤ tCur (c 1) 1 ∧ tCur (c 1) 1 ≤ 63 ∧ 1 ≤ tCur (c 1) 2) && (creg (c 1) 0x151).getLsbD (tCur (c 1) 1)) = true ∧
      tKlen (c 1) 3 ≤ tCur (c 1) 3 := by decide +kernel
/-- A row with a long mantissa takes two products, and an empty row one whose exponent is at its limit. -/
theorem test_meets_row_beat : let r := withMants { AccRow.clear with z := false, hr := 2 } ((List.range 64).map fun j => if j = 9 then -(2 ^ 43) else 0)
    let v : List Term := [⟨2 ^ 20, 5, 9⟩, ⟨-3, 7, 9⟩]
    r.hr.toNat ≤ 46 ∧ (∀ j < 64, (mant r j).natAbs < 2 ^ (46 - r.hr.toNat)) ∧ (∀ t ∈ v, t.col < 64 ∧ t.p ≠ 0 ∧ t.p.natAbs < 2 ^ 32 ∧ t.ep.natAbs ≤ 30000) ∧
      (v.filter fun t => t.col = 9).length = 2 ∧ (∃ t ∈ v, t.ep = 7) ∧ (∀ t ∈ v, t.ep ≤ 7) ∧ (∃ t ∈ v, 2 ^ 21 ≤ 2 * t.p.natAbs) ∧
      (∀ t ∈ v, t.p.natAbs < 2 ^ 21) ∧ expOverflow r v = false ∧ expOverflow { r with e := 32767, hr := 1 } v = true := by decide +kernel
theorem test_meets_products : (0x7F80 / 2 ^ bf16.fw % 2 ^ bf16.ew = 2 ^ bf16.ew - 1) ∧ (0x3F80 / 2 ^ bf16.fw % 2 ^ bf16.ew ≠ 2 ^ bf16.ew - 1) ∧
    product 2 0x3F80 0x4000 = .val (2 ^ 14) (-13) ∧ product 2 0 0x4000 = .zero ∧ sval 8 0x80 * sval 8 2 ≠ 0 ∧ 0x80 % 128 = 0 ∧
    0x43 % 128 ≠ 0 := by decide +kernel
/-- A slice of age 9: its pair (3, 5) meets row 3, and its pair (8, 0) is not valid. -/
theorem test_meets_slices : let u : Slice := { (pushSlice Ctx.zero 1 2 4).2 with av := 8, bv := 0x20, age := 9 }
    u.age = 3 + 5 + 1 ∧ u.av.getLsbD 3 = true ∧ u.bv.getLsbD 5 = true ∧ u.age = 8 + 0 + 1 ∧ u.av.getLsbD 8 = false ∧ u.tile.toNat = 4 := by
  decide +kernel
theorem test_meets_beats : let x : Cell := { Cell.reset with acc := [(66, { AccRow.clear with pf := true })], rcnt := [(1, 7)] }
    smWf AccRow.clear 0 x.acc = true ∧ smWf 0 0 x.rcnt = true ∧ smWf 0 0 x.tcnt = true ∧ beatFails x [] = none := by decide +kernel
theorem test_meets_norm_headroom : let r := withMants { AccRow.clear with z := false, hr := 43 } ((List.range 64).map fun j => if j = 63 then 5 else 0)
    (∀ j < 64, (mant r j).natAbs < 2 ^ (46 - r.hr.toNat)) ∧ 2 ^ (46 - r.hr.toNat) ≤ 2 * (mant r 63).natAbs := by decide +kernel
/-- Values of every kind that elementsConvert and elementsSplit tell apart. -/
theorem test_meets_conversions : fp16 ≠ bf16 ∧ Elem.int 8 true ≠ .int 16 true ∧ 0x7C01 < 2 ^ (1 + fp16.ew + fp16.fw) ∧ funpack fp16 0x7C01 = .nan ∧
    0xFC00 % 2 ^ 15 = (2 ^ fp16.ew - 1) * 2 ^ fp16.fw ∧ funpack fp16 0x3C00 ≠ .nan ∧ 0x3C00 % 2 ^ 15 ≠ (2 ^ fp16.ew - 1) * 2 ^ fp16.fw ∧
    0x7F80 / 2 ^ bf16.fw % 2 ^ bf16.ew = 2 ^ bf16.ew - 1 ∧ 0xFF < 256 := by decide +kernel
theorem test_meets_drained : (-(2 ^ 46) : Int).natAbs < 2 ^ 47 ∧ (-32768 : Int).natAbs ≤ 2 ^ 15 ∧ (1 : Int) ≠ 0 := by decide
/-- A column with an element above 2^8, and one without. -/
theorem test_meets_columns : (8 : Int) ≤ 127 ∧ sval 8 0x7F = 127 ∧ sval 8 0x07 = 7 ∧ bits 0x077F 0 8 = 0x7F ∧ bits 0x077F 8 8 = 0x07 := by decide +kernel

/-! ### Hypotheses that are met: interrupts, messages and atomics -/

/-- A context with UIVEC v, EN and a pending bit, and a bundle with Y. -/
def interrupted (v : Word) : Ctx := { Ctx.zero with pc := 0x500126, cr := [(0x107, v), (0x108, 0x10004)] }
theorem test_meets_interrupts : let s := onCtx (interrupted 0x600)
    let y : Cyc := { Cyc.idle with bundle := 8 }
    followersOf s 0 = [] ∧ (Bundle.word y.bundle 0).getLsbD 3 = true ∧ y.ends = false ∧ (creg (interrupted 0x600) 0x108).getLsbD 16 = true ∧
      handling (interrupted 0x600) = false ∧ (creg (interrupted 0x600) 0x108).extractLsb' 0 8 ≠ 0 ∧ y.traps = [] ∧ (getCell s 0).arrivals = [] ∧
      (getCell s 0).inbox = [] ∧ rankOf (getCell s 0) = 0 := by decide +kernel
/-- The same with an odd UIVEC, in the idle cycles and after them. -/
theorem test_meets_odd_vector : let s (b : Nat) : State := onCell { Cell.reset with
      task := some ⟨1, 0, 0, 0, 1⟩
      user := { (getCell (interrupt (onCtx (interrupted 0x601)) 0) 0).user with bubbles := b } }
    let c (b : Nat) := getCtx (s b) 0 false
    (c 2).pkind = 1 ∧ (c 2).pc.getLsbD 0 = true ∧ (c 2).target.getLsbD 0 = false ∧ (c 2).lead = 0 ∧ (c 2).bubbles ≠ 0 ∧ (c 0).bubbles = 0 ∧
      (getCell (s 0) 0).task.isSome = true ∧ (getCell (s 0) 0).hold = false ∧ (getDie (s 0) 0).melted = false ∧
      stopDue (getCell (s 0) 0).dbg = false ∧ (getCell (s 0) 0).soq = none ∧ landBlocked (c 0) = false ∧ walkDue (c 0) = false ∧
      storeBlocked (getCell (s 0) 0) = false ∧ replayFull (s 0) 0 = false := by decide +kernel
/-- Messages at the head of their channel: a writeback of two words, a strongly ordered load that waits, an atomic and a fill behind which
a writeback of the same cell carries word 3. -/
theorem test_meets_message_kinds : let o : Origin := .bare false 0
    let m (id : Nat) (op : MsgOp) : Msg := ⟨id, 0, .cell 0, .slice (homeDie 0x1000) (homeSlice 0x1000), op, 0, 0, false, o⟩
    let ws : SMap L1Word := [(0, ⟨7, true, true, false, []⟩), (3, ⟨9, true, false, false, []⟩)]
    let q : SoReq := ⟨5, 0x1000, 8, false, false, 0, 0, false, o, true⟩
    let s : State := { State.reset with
      chan := [m 4 (.fill 32 1), m 6 (.wb 32 1 ws)]
      cells := [(0, { Cell.reset with soq := some q })] }
    let t (op : MsgOp) : State := { s with
      chan := [m 4 op]
      dies := [(homeDie 0x1000, { Die.reset with returned := [(8, 32)] })] }
    s.chan.find? (fun k => k.id == 4) = some (m 4 (.fill 32 1)) ∧ oldestIn s (m 4 (.fill 32 1)) = true ∧ wbWord s (m 4 (.fill 32 1)) 32 3 ≠ none ∧
      (ws.map Prod.fst).Nodup ∧ (∀ e ∈ ws, e.1 < 32) ∧ msgMissing (t (.wb 32 1 ws)) (m 4 (.wb 32 1 ws)) = none ∧
      (getCell (t (.soRead 5 0x1000 8)) 0).soq = some q ∧ q.id = 5 ∧ q.len = 8 ∧ q.signed = false ∧ (t (.soRead 5 0x1000 8)).poison = [] ∧
      msgMissing (t (.atomic 0x1000 0 0x11 false 2 3 true 0 9)) (m 4 (.atomic 0x1000 0 0x11 false 2 3 true 0 9)) = none ∧
      (0x11 : Word).extractLsb' 0 4 = 1 ∧ 0x1000 % 128 + 16 ≤ 128 ∧ (getDie (t (.fill 32 1)) (homeDie 0x1000)).l2 = [] := by decide +kernel
/-- A scratchpad atomic: its read and its write. -/
theorem test_meets_scratchpad_atomics : let o : BankOp := { cnt := 0, code := 0, act := .amoRead 3 false 0x13 5 0, off := 0, len := 8, grp := 3 }
    o.ext = 0 ∧ o.dead = false ∧ o.len ≤ 128 ∧ (1 < 8 ∧ 3 < 8) ∧ ({ o with act := .amoWrite } : BankOp).dead = false := by decide +kernel
/-- A host atomic that may run, and one that waits for the later write of another function. -/
theorem test_meets_host_atomics : let s (other : List HostReq) : State := { State.reset with
      hosts := [(3, { HostFn.reset with queue := [.atomic 0x1000 0x11 2 0 true] }), (5, { HostFn.reset with queue := other })]
      dies := [(homeDie 0x1000, { Die.reset with returned := [(7, 32)] })] }
    (getHost (s []) 3).queue = [.atomic 0x1000 0x11 2 0 true] ∧ lineMissing (s []) 7 0 0x1000 8 = none ∧ wiping (s []) = false ∧
      hostAtomicOpen (s []) 3 0x1000 8 = false ∧ hostAtomicOpen (s [.later 0x1004 4 0]) 3 0x1000 8 = true := by decide +kernel

/-! ### Hypotheses that are met: fetches, kernels and commands -/

/-- A context that waits for a line, with a fetch walk that stage 2 refuses, and with one whose leaf may not be executed. -/
theorem test_meets_fetch_walks : let s (e : Nat) : State := { (walking e) with
      cells := [(0, { Cell.reset with owners := [(0, 9)], task := taskOf 1 0, user := { Ctx.zero with want := some (lineOf (BitVec.ofNat 64 tableVa)) } })] }
    let va := (lineOf (BitVec.ofNat 64 tableVa)).toNat
    let walk (e : Nat) (t : TCtx) : Nat :=
      match translateBy t true va (stage1By (s e) t (stage2Walk (s e) t true) va) (stage2Walk (s e) t false) with
      | .ok (_, _, h) => if !h.x1 then 3 else if !h.x2 then 4 else 0
      | .error f => if f.stage2 then 2 else 1
    ispPc (lineOf (BitVec.ofNat 64 tableVa)) = false ∧ (getCtx (s 0) 0 false).want = some (lineOf (BitVec.ofNat 64 tableVa)) ∧
      walk 0 stage2Only = 2 ∧ walk (1 + 16 + 32 + 256 + 12345 * 2 ^ 16) stage2Only = 4 ∧
      walk (1 + 16 + 32 + 64 + 256 + 12345 * 2 ^ 16) stage2Only = 0 ∧ walkHeld (s 0) stage2Only va = false ∧
      ringOn ({ (s 0) with hvsize := 4 } : State).hvsize = true ∧ ringOn (s 0).hvsize = false := by decide +kernel
/-- Tables in host memory, behind a message to the host: the walk waits. -/
theorem test_meets_walk_held : let s : State := { (tables (1 + 16 + 32 + 256 + 2 ^ 15 + 12345 * 2 ^ 16)) with
      chan := [⟨0, 5, .cell 5, .host, .soWrite 0 0 8 0, 0, 0, false, .bare false 0⟩] }
    let t : TCtx := { TCtx.reset with reg := BitVec.ofNat 256 (3 + 3 * 2 ^ 48 + 0x1000 * 2 ^ 128 + tableVa / 2 ^ 12 * 2 ^ 204) }
    hostBehind s s.seq = true ∧ walkHeld s stage2Only tableVa = false ∧ walkHeld s t tableVa = true := by decide +kernel
theorem test_meets_open_walk : let x : Cell := { Cell.reset with user := { Ctx.zero with walk := some ⟨false, 0, 0, 0, 0, 4⟩ } }
    walkOpen { TCtx.reset with reqs2 := [0x80], iseq2 := 5 } true x = true ∧ walkOpen { TCtx.reset with reqs2 := [0x80], iseq2 := 4 } true x = false := by
  decide +kernel
/-- A pre-emption that is held back at its cell, and the save of a failed group. -/
theorem test_meets_saves_held : let s (f : Cell → Cell) : State := holdSave { (contested true) with
      cells := (contested true).cells.map fun e => (e.1, f e.2) } 0 4 0x200000
    (heldScan (s id) 0).map (fun e => e.2.trig) = some 8 ∧ (getCell (s id) 0).saving.isSome = true ∧ (getCell (s id) 0).user.walk = none ∧
      (listed (s id)).Nodup ∧ (getCell (s fun x => { x with saving := none, failed := 1 }) 0).saving = none := by decide +kernel
theorem test_meets_doorbell_behind : let s (w : List HostReq) : State := { (queued 3 0) with
      tctx := [(9, { TCtx.reset with reg := BitVec.ofNat 256 (3 * 2 ^ 48) })]
      hosts := [(tctxFunc { TCtx.reset with reg := BitVec.ofNat 256 (3 * 2 ^ 48) }, { HostFn.reset with queue := w })] }
    (qRegion (s []) (queueOf (s []) 3)).isSome = true ∧ bellHeld (s [.write 0x10080 8 3]) 3 = true ∧ bellHeld (s []) 3 = false := by decide +kernel
/-- Slot 2 of queue 3 holds a packet that was not read; one that an earlier packet still holds. -/
theorem test_meets_written_packets : let s (ks : List Kernel) : State := { (queued 3 0) with kernels := ks }
    let t := tctxOf (s []) 9 false
    let u := queueOf (s []) 3
    ((2 : BitVec 32) - qRd u).toNat < 2 ^ qLog u ∧ cpHeld (s []) t (slotOf u 2) (s []).seq = false ∧
      (cpRead64 (s []) t (slotOf u 2)).map (fun x => bit x.2 0) = some true ∧ written (s []) 3 2 = true ∧
      slotOf u (2 - 16) = slotOf u 2 ∧ written (s [{ kern with pidx := 2 - 16 }]) 3 2 = false := by decide +kernel
theorem test_meets_signal_was_met : let k : Kernel := { signalKern with met := true }
    let s : State := { (waits 100) with kernels := [k], mem := writeNat [] 0x100 8 5 }
    kernelOf s 1 = some k ∧ k.met = true ∧ signalMet s { k with met := false } = false := by decide +kernel
/-- Firing 7 of entry 3 was the last one, and one that was not. -/
theorem test_meets_last_firing : let s : State := onDie { Die.reset with fired := [(3, 7)] }
    smGet 0 (getDie s 0).fired 3 = 7 ∧ smGet 0 (getDie s 0).fired 3 ≠ 6 ∧ smWf 0 0 (getDie s 0).fired = true := by decide +kernel
theorem test_meets_records_out : let k : Kernel := { kern with state := 3, rel := 4 }
    let s (r : List RecEnt) : State := { (queued 0 0) with kernels := [k], cells := [(0, { Cell.reset with records := r })] }
    recordsOut (s [⟨4, false, 9⟩]) k = false ∧ recordsOut (s [⟨5, false, 9⟩]) k = true := by decide +kernel
theorem test_meets_telemetry_due : let s : State := { (onDie { Die.reset with telnext := 500, telsize := 4 }) with real := 499 }
    s.real < (getDie s 0).telnext ∧ (getDie { s with real := 500 } 0).telnext ≤ ({ s with real := 500 } : State).real ∧
      (getDie s 0).telctl.extractLsb' 0 16 = 0 := by decide +kernel
/-- A scan of the L1 segment of a cell with a D word, and the same once its image waits for the writeback. -/
theorem test_meets_scan_with_dirty_words : let l : L1Line := ⟨1, 0, false, [(31, ⟨7, true, false, false, []⟩)], 0, .bare false 0⟩
    let s : State := onCell { Cell.reset with l1 := [(32, l)] }
    let c : SysCmd := { (scan 1 true) with blk := BitVec.ofNat 512 (2 ^ 19 + 9 * 2 ^ 48 + 0x200000 * 2 ^ 128) }
    let w : SysCmd := { c with stage := some (1, imageBytes (2 ^ 19)) }
    bit (blkSegs c.blk.toNat) 19 = true ∧ ((getCell s 0).l1.any fun e => e.2.words.any fun x => x.2.dirty) = true ∧
      w.stage = some (1, imageBytes (blkSegs w.blk.toNat)) ∧ wbOut s 0 = false ∧
      wbOut { s with chan := [⟨0, 0, .cell 0, .slice 0 0, .wb 32 1 l.words, 0, 0, false, .bare false 0⟩] } 0 = true := by decide +kernel
/-- A scan-out that has moved its images: what it wrote back is on its way, or its record waits for its release. -/
theorem test_meets_scan_goes_on : let e : SysCmd := { (scan 1 true) with status := some 0 }
    let c : SysCmd := { (command 4 9 1 false) with cell := 2 }
    let s : State := { (scanning true e) with
      dies := [(0, { Die.reset with sys := [e, c] })]
      chan := [⟨0, 0, .cell 0, .slice 0 0, .wb 32 1 [], 0, 0, false, .bare false 0⟩] }
    let r : SysCmd := { e with ans := some (1, 1, 0, 7) }
    let t : State := { s with cells := s.cells ++ [(1, { Cell.reset with markers := [⟨7, 3, false, none, 7, false⟩] })] }
    (getDie s 0).sys = [e, c] ∧ (scanCells 0 e).any (wbOut s) = true ∧ e.started = true ∧ scanNames s 0 0 e = true ∧ e.cell ≠ c.cell ∧
      markersDone (getCell t r.cell) 7 = false := by decide +kernel
/-- Firmware: an acknowledgement that is missing in time and late, and one that came. -/
theorem test_meets_firmware_late : let s (t : Nat) (a : Bool) : State := { State.reset with
      hosts := [(3, { HostFn.reset with tdisp := 2, fwevt := 1, fwack := a }), (4, { HostFn.reset with tdisp := 2, fwevt := 1 })]
      fwimage := some 0x5000
      paused := true
      sincePause := t }
    pausedFns (s 0 true) = [3, 4] ∧ (getHost (s 0 false) 3).fwack = false ∧ (getHost (s 0 true) 3).fwack = true ∧ (getHost (s 0 true) 4).fwack = false ∧
      10000000000 ≤ (s 10000000000 true).sincePause ∧ ¬ 10000000000 ≤ (s 9999999999 true).sincePause := by decide +kernel
/-- An ABORTED save with REL. -/
theorem test_meets_aborted_save : let c : Collective := { (coll 1 false false true 0 []) with blk := BitVec.ofNat 512 (block 1 false + 2 ^ 36), status := 0x24 }
    c.blk.getLsbD 36 = true ∧ c.blk.extractLsb' 0 8 = 1 ∧ c.status = 0x24 := by decide +kernel
/-- A full buffer at a port, and the lowest of two buffers that name it. -/
theorem test_meets_full_buffer : let c : Ctx := { Ctx.zero with cr := [(0x112, 0xC100100000000002), (0x113, 0xC100100000000002)] }
    let f : Ctx := { c with cr := c.cr ++ [(0x11A, 0x200000000)] }
    cbLink c 2 = 0 + 1 ∧ cbLink c 3 = 0 + 1 ∧ cbLink c 0 ≠ 0 + 1 ∧ cbLink c 1 ≠ 0 + 1 ∧ cbValid c 2 = true ∧ cbFree c 2 ≠ 0 ∧
      cbValid f 2 = true ∧ cbFree f 2 = 0 := by decide +kernel
/-- The debugger: SEQ belongs to the partition that asks, and to another one. -/
theorem test_meets_debugger_owner : let x (p : BitVec 16) : Cell := { Cell.reset with owners := [(0, p), (1, 9)], dbg := { Debug.reset with stat := 1, sel := 2 ^ 56 } }
    smGet 0 (x 9).owners 0 = 9 ∧ smGet 0 (x 8).owners 0 ≠ 9 ∧ smGet 0 (x 9).owners 1 = 9 ∧ smGet 0 (x 8).owners 1 ≠ 8 := by decide +kernel
theorem test_meets_pinned : let s : State := { (queued 0 0) with kernels := [{ kern with state := 0, desc := BitVec.ofNat 512 (4 * 2 ^ 336 + 0x700 * 2 ^ 260) }] }
    (s.regions.map (·.part)).Nodup ∧ (∃ k ∈ s.kernels, k.part = 9 ∧ k.state < 2 ∧ 4 ≤ (k.desc.extractLsb' 336 5).toNat ∧ (k.desc.extractLsb' 336 5).toNat ≤ 20) := by
  decide +kernel
end Sys2Proof.Tests
end

