-- ==== Sys2Proof/Proofs/HomeFrame.lean ====
section
/-!
What an access at a home leaves (R254, R334 to R341): every cell, region and message, and the sys commands of every die.
-/

namespace Sys2Proof.Machine

/-- From s to t no cell, region or message has changed, and no sys command of any die. -/
structure HomeFrame (s t : State) : Prop where
  cells : t.cells = s.cells
  regions : t.regions = s.regions
  chan : t.chan = s.chan
  sys : ∀ d, (getDie t d).sys = (getDie s d).sys

namespace HomeFrame

theorem refl (s : State) : HomeFrame s s := ⟨rfl, rfl, rfl, fun _ => rfl⟩

/-- What changes no field but those of the memories and the model's own. -/
theorem of_eq {s t : State} (hc : t.cells = s.cells) (hr : t.regions = s.regions) (hm : t.chan = s.chan) (hd : t.dies = s.dies) :
    HomeFrame s t := ⟨hc, hr, hm, fun d => by simp only [getDie, hd]⟩

theorem trans {s t u : State} (h : HomeFrame s t) (k : HomeFrame t u) : HomeFrame s u :=
  ⟨k.cells.trans h.cells, k.regions.trans h.regions, k.chan.trans h.chan, fun d => (k.sys d).trans (h.sys d)⟩

theorem cell {s t : State} (h : HomeFrame s t) (n : Nat) : getCell t n = getCell s n := by simp only [getCell, h.cells]

/-- Steps that each leave all of it, one for each element of a list. -/
theorem foldl {α : Type} {f : State → α → State} (hf : ∀ s x, HomeFrame s (f s x)) (l : List α) (s : State) :
    HomeFrame s (l.foldl f s) := by
  induction l generalizing s with
  | nil => exact refl s
  | cons x l ih => exact (hf s x).trans (ih _)

theorem modDie {s : State} {d : Nat} {f : Die → Die} (hf : ∀ x, (f x).sys = x.sys) : HomeFrame s (modDie s d f) where
  cells := rfl
  regions := rfl
  chan := rfl
  sys e := by
    by_cases h : e = d
    · subst h; simp [hf]
    · rw [getDie_modDie_other s f h]

end HomeFrame

theorem memWriteLine_frame (s : State) (line mask v : Nat) : HomeFrame s (memWriteLine s line mask v) := by
  unfold memWriteLine
  dsimp only
  split
  · exact HomeFrame.of_eq rfl rfl rfl rfl
  · split
    · exact HomeFrame.refl s
    · exact HomeFrame.of_eq rfl rfl rfl rfl

theorem homeStore_frame (s : State) (sel line mask v : Nat) : HomeFrame s (homeStore s sel line mask v) := by
  unfold homeStore
  dsimp only
  split
  · exact HomeFrame.modDie fun _ => rfl
  · exact memWriteLine_frame ..

theorem homePutLine_frame (s : State) (sel line mask v : Nat) : HomeFrame s (homePutLine s sel line mask v) :=
  HomeFrame.trans (t := { s with poison := clearPoison s.poison line mask }) (HomeFrame.of_eq rfl rfl rfl rfl) (homeStore_frame ..)

theorem fresh_frame (s : State) : HomeFrame s (fresh s) := HomeFrame.of_eq rfl rfl rfl rfl

theorem l2Ask_sys (sl line c : Nat) (who : List Nat) (x : Die) : (l2Ask sl line c who x).sys = x.sys := by
  unfold l2Ask
  dsimp only
  split
  · rfl
  · split <;> rfl

theorem l2Reach_frame (s : State) (sel pa c : Nat) (who : List Nat) : HomeFrame s (l2Reach s sel pa c who) := by
  unfold l2Reach
  dsimp only
  split
  · exact HomeFrame.refl s
  · split
    · exact (fresh_frame s).trans (HomeFrame.modDie fun _ => rfl)
    · exact HomeFrame.modDie fun _ => l2Ask_sys ..

theorem l2Choose_frame (s : State) (sel line : Nat) : HomeFrame s (l2Choose s sel line) := by
  unfold l2Choose
  split
  · exact HomeFrame.of_eq rfl rfl rfl rfl
  · exact HomeFrame.refl s

theorem l2Evict_frame (s : State) (d : Nat) (y : L2Line) : HomeFrame s (l2Evict s d y) := by
  have hd := HomeFrame.modDie (s := s) (d := d)
    (f := fun x => modCos { x with l2 := delFirst (fun z => l2Is y.slice y.line z && z.way == y.way) x.l2 } y.slice y.cos
      fun r => { r with cur := r.cur - 1 }) fun _ => rfl
  unfold l2Evict
  dsimp only
  split
  · exact hd
  · split
    · exact hd.trans (memWriteLine_frame ..)
    · refine (hd.trans (memWriteLine_frame _ y.line (2 ^ 128 - 1) y.data.toNat)).trans ?_
      split
      · exact HomeFrame.of_eq rfl rfl rfl rfl
      · exact HomeFrame.refl _

theorem l2Displace_frame (s : State) (d : Nat) (w : WayUse) : HomeFrame s (l2Displace s d w) := by
  cases w with
  | line y => exact l2Evict_frame s d y
  | fill f =>
    unfold l2Displace
    exact HomeFrame.modDie fun _ => rfl

theorem l2Begin_frame (s : State) (d : Nat) (m : L2Miss) : HomeFrame s (l2Begin s d m) := by
  have hf := fresh_frame s
  unfold l2Begin
  dsimp only
  split
  · exact hf.trans (HomeFrame.modDie fun _ => rfl)
  · split
    · exact (hf.trans (l2Displace_frame ..)).trans (HomeFrame.modDie fun _ => rfl)
    · exact hf.trans (HomeFrame.modDie fun _ => rfl)

theorem l2Install_frame (s : State) (d : Nat) (f : L2Fill) : HomeFrame s (l2Install s d f) := by
  have hd := HomeFrame.modDie (s := s) (d := d) (f := fun x => l2Return f.line f.who { x with fills := delFirst (· == f) x.fills })
    fun _ => rfl
  unfold l2Install
  extract_lets u v w z
  split
  · exact hd
  · split
    · exact hd.trans (HomeFrame.modDie fun _ => rfl)
    · have hz : HomeFrame v z := by
        dsimp only [z]
        split
        · exact HomeFrame.of_eq rfl rfl rfl rfl
        · exact HomeFrame.refl v
      exact ((hd.trans (fresh_frame u)).trans hz).trans (HomeFrame.modDie fun _ => rfl)

theorem setDie_frame {s : State} {d : Nat} {x : Die} (h : x.sys = (getDie s d).sys) : HomeFrame s (setDie s d x) where
  cells := rfl
  regions := rfl
  chan := rfl
  sys e := by
    by_cases he : e = d
    · subst he; simpa [getDie, setDie] using h
    · simp [getDie, setDie, smGet_smPut_other _ _ _ he]

theorem l2Bring_frame (s : State) (sel line : Nat) : HomeFrame s (l2Bring s sel line) := by
  unfold l2Bring
  extract_lets d sl isM isF x u
  have begun : HomeFrame s u := by
    dsimp only [u]
    split
    · exact HomeFrame.refl s
    · split
      · exact HomeFrame.trans (setDie_frame (by rfl)) (l2Begin_frame ..)
      · exact l2Begin_frame ..
  split
  · exact begun.trans (l2Install_frame ..)
  · exact begun

theorem codecBring_frame (s : State) (sel line : Nat) : HomeFrame s (codecBring s sel line) := by
  unfold codecBring
  split
  · exact l2Bring_frame ..
  · exact HomeFrame.refl s

theorem ownTouch_frame (wr : Bool) (sel : Nat) (s : State) (line : Nat) : HomeFrame s (ownTouch wr sel s line) := by
  refine HomeFrame.trans ?_ (l2Choose_frame ..)
  refine HomeFrame.trans ?_ (l2Reach_frame ..)
  cases wr
  · exact HomeFrame.refl s
  · exact codecBring_frame ..

theorem markDirty_frame (s : State) (pa : Nat) : HomeFrame s (markDirty s pa) := by
  unfold markDirty
  dsimp only
  split
  · exact (codecBring_frame ..).trans (homePutLine_frame ..)
  · exact HomeFrame.refl s

theorem homeWriteLine_frame (s : State) (sel line mask v : Nat) : HomeFrame s (homeWriteLine s sel line mask v) :=
  (homePutLine_frame ..).trans (markDirty_frame ..)

theorem homeWriteLines_frame (k : Nat) : ∀ (s : State) (pa n v : Nat), HomeFrame s (homeWriteLines k s pa n v) := by
  induction k with
  | zero => exact fun s _ _ _ => HomeFrame.refl s
  | succ k ih =>
    intro s pa n v
    simp only [homeWriteLines]
    split
    · exact HomeFrame.refl s
    · exact (homeWriteLine_frame ..).trans (ih ..)

theorem homeWriteN_frame (s : State) (pa n v : Nat) : HomeFrame s (homeWriteN s pa n v) := homeWriteLines_frame ..

theorem ownRead_frame (s : State) (pa n : Nat) : HomeFrame s (ownRead s pa n) := HomeFrame.foldl (ownTouch_frame false 0) _ s

theorem ownWrite_frame (s : State) (pa n v : Nat) : HomeFrame s (ownWrite s pa n v) :=
  (HomeFrame.foldl (ownTouch_frame true 0) _ s).trans (homeWriteN_frame ..)

theorem homePutLines_frame (d : Nat) : ∀ (s : State) (l n v : Nat), HomeFrame s (homePutLines s d l n v) := by
  induction d with
  | zero =>
    intro s l n v
    simp only [homePutLines]
    split
    · exact HomeFrame.refl s
    · exact (codecBring_frame ..).trans (homeWriteLine_frame ..)
  | succ d ih =>
    intro s l n v
    simp only [homePutLines]
    split
    · exact HomeFrame.refl s
    · exact (ih ..).trans (ih ..)

theorem imagePart_frame (s : State) (base v lo hi : Nat) : HomeFrame s (imagePart s base v lo hi) := homePutLines_frame ..

end Sys2Proof.Machine
end

