-- ==== Sys2Proof/Proofs/PlainHome.lean ====
section
/-!
Reads after writes at a home (R255), where memory is plain: no codec region, no dirty tracking, every L2 line in its natural slice.
A line is followed bit by bit.
-/

namespace Sys2Proof.Machine

/-! ### Bits of bytes and fields -/

theorem bits_testBit (v lo n j : Nat) : (bits v lo n).testBit j = (decide (j < n) && v.testBit (lo + j)) := by
  simp [bits, Nat.testBit_mod_two_pow, Nat.testBit_shiftRight]

theorem mergeBytes_testBit (n : Nat) : ∀ mask new old j, (mergeBytes n mask new old).testBit j =
    (decide (j < 8 * n) && (if mask.testBit (j / 8) then new.testBit j else old.testBit j)) := by
  induction n with
  | zero => intro mask new old j; simp [mergeBytes]
  | succ n ih =>
    intro mask new old j
    have byte : (if mask % 2 = 1 then new % 2 ^ 8 else old % 2 ^ 8) < 2 ^ 8 := by split <;> omega
    rw [mergeBytes, Nat.add_comm, show (256 : Nat) = 2 ^ 8 by rfl, Nat.testBit_two_pow_mul_add _ byte]
    by_cases hj : j < 8
    · have h0 : j / 8 = 0 := by omega
      rw [if_pos hj, h0, Nat.testBit_zero]
      have h1 : j < 8 * (n + 1) := by omega
      by_cases hm : mask % 2 = 1 <;> simp only [hm, h1, hj, if_true, if_false, Nat.testBit_mod_two_pow, decide_true, decide_false,
        Bool.true_and, Bool.false_eq_true]
    · have h1 : j / 8 = (j - 8) / 8 + 1 := by omega
      have h2 : 8 + (j - 8) = j := by omega
      rw [if_neg hj, ih, h1, Nat.testBit_succ, ← Nat.shiftRight_eq_div_pow new 8, ← Nat.shiftRight_eq_div_pow old 8,
        Nat.testBit_shiftRight, Nat.testBit_shiftRight, h2]
      congr 1
      simp only [decide_eq_decide]
      omega

theorem readNat_testBit (m : Bytes) (n : Nat) : ∀ a j, (readNat m a n).testBit j =
    (decide (j < 8 * n) && (readByte m (a + j / 8)).toNat.testBit (j % 8)) := by
  induction n with
  | zero => intro a j; simp [readNat]
  | succ n ih =>
    intro a j
    rw [readNat, Nat.add_comm, show (256 : Nat) = 2 ^ 8 by rfl, Nat.testBit_two_pow_mul_add _ (readByte m a).isLt]
    by_cases hj : j < 8
    · have h0 : j / 8 = 0 := by omega
      have h1 : j % 8 = j := by omega
      have h2 : j < 8 * (n + 1) := by omega
      simp [hj, h0, h1, h2]
    · have h1 : a + 1 + (j - 8) / 8 = a + j / 8 := by omega
      have h2 : (j - 8) % 8 = j % 8 := by omega
      have h3 : j - 8 < 8 * n ↔ j < 8 * (n + 1) := by omega
      rw [if_neg hj, ih, h1, h2]
      simp only [h3]

/-- A masked write, read back over its range. -/
theorem readNat_writeMasked (m : Bytes) (a n mask v : Nat) (hm : Memory.wf m = true) :
    readNat (writeMasked m a n mask v) a n = mergeBytes n mask v (readNat m a n) := by
  apply Nat.eq_of_testBit_eq
  intro j
  rw [readNat_testBit, mergeBytes_testBit, readNat_testBit]
  by_cases hj : j < 8 * n
  · have e : (256 : Nat) ^ (j / 8) = 2 ^ (8 * (j / 8)) := by rw [Nat.pow_mul]
    have h8 : 8 * (j / 8) + j % 8 = j := by omega
    have hl : j % 8 < 8 := by omega
    rw [readByte_writeMasked_inside m a n mask v (j / 8) hm (by omega)]
    simp only [hj, decide_true, Bool.true_and, Nat.testBit_eq_decide_div_mod_eq (x := mask), decide_eq_true_eq]
    split
    · rw [BitVec.toNat_ofNat, Nat.testBit_mod_two_pow, e, ← Nat.shiftRight_eq_div_pow, Nat.testBit_shiftRight, h8]
      simp [hl]
    · rfl
  · simp [hj]

/-- A masked write leaves what stands elsewhere. -/
theorem readNat_writeMasked_apart (m : Bytes) {a b n k : Nat} (mask v : Nat) (hm : Memory.wf m = true)
    (h : b + k ≤ a ∨ a + n ≤ b) : readNat (writeMasked m a n mask v) b k = readNat m b k := by
  apply Nat.eq_of_testBit_eq
  intro j
  rw [readNat_testBit, readNat_testBit]
  by_cases hj : j < 8 * k
  · rw [readByte_writeMasked_outside m a n mask v _ hm (by omega)]
  · simp [hj]

/-! ### The first line that a lookup finds -/

theorem find?_updFirst_same {α : Type} {p : α → Bool} {f : α → α} (hf : ∀ y, p (f y) = p y) (l : List α) :
    (updFirst p f l).find? p = (l.find? p).map f := by
  induction l with
  | nil => rfl
  | cons x l ih => by_cases hx : p x = true <;> simp [updFirst, hx, hf, ih]

theorem find?_updFirst_other {α : Type} {p q : α → Bool} {f : α → α} (hf : ∀ y, q (f y) = q y)
    (hpq : ∀ y, p y = true → q y = false) (l : List α) : (updFirst p f l).find? q = l.find? q := by
  induction l with
  | nil => rfl
  | cons x l ih =>
    by_cases hx : p x = true
    · simp [updFirst, hx, hf, hpq x hx]
    · by_cases hq : q x = true <;> simp [updFirst, hx, hq, ih]

theorem mem_updFirst {α : Type} {p : α → Bool} {f : α → α} {l : List α} {y : α} (h : y ∈ updFirst p f l) :
    y ∈ l ∨ ∃ x ∈ l, y = f x := by
  induction l with
  | nil => simp [updFirst] at h
  | cons x l ih =>
    simp only [updFirst] at h
    split at h
    · rcases List.mem_cons.1 h with h | h
      · exact .inr ⟨x, by simp, h⟩
      · exact .inl (by simp [h])
    · rcases List.mem_cons.1 h with h | h
      · exact .inl (by simp [h])
      · rcases ih h with h | ⟨z, hz, e⟩
        · exact .inl (by simp [h])
        · exact .inr ⟨z, by simp [hz], e⟩

/-! ### A line under plain memory -/

section Plain

variable {s : State}

theorem codecOf_plain (hp : plainMemory s) (a : Nat) : codecOf s a = none := by simp [codecOf, hp.1]

theorem codecBacking_plain (hp : plainMemory s) (a : Nat) : codecBacking s a = false := by simp [codecBacking, hp.1]

theorem codecBring_plain (hp : plainMemory s) (sel line : Nat) : codecBring s sel line = s := by
  simp [codecBring, codecOf_plain hp]

theorem markDirty_plain (hp : plainMemory s) (pa : Nat) : markDirty s pa = s := by
  have hbit : bit (getDie s (homeDie pa)).migctl.toNat 0 = false := by
    simpa [bit, BitVec.getLsbD, Nat.testBit_zero] using hp.2.1 (homeDie pa)
  simp [markDirty, hbit]

/-- The home value of a line: the resident copy, else memory. -/
theorem homeLine_plain (hp : plainMemory s) {k : Nat} (hk : k < 2 ^ 33) : homeLine s 0 k =
    match l2Find (getDie s (homeDie (k * 128))) (sliceOf 0 (k * 128)) k with
    | some x => x.data.toNat
    | none => readNat s.mem (k * 128) 128 := by
  have once : (getDie s (homeDie (k * 128))).l2.any (fun x => x.line == k && x.slice != sliceOf 0 (k * 128)) = false := by
    rw [List.any_eq_false]
    rintro y hy
    have := hp.2.2.1 _ y hy
    by_cases hl : y.line = k
    · subst hl; simp [this]
    · simp [hl]
  have hm : memLine s k = readNat s.mem (k * 128) 128 := by
    simp only [memLine, codecOf_plain hp, memGet, if_pos (show k * 128 + 128 ≤ 2 ^ 40 by omega)]
  simp only [homeLine, codecBacking_plain hp, once, hm]
  rfl

theorem getDie_mem (s : State) (m : Bytes) (d : Nat) : getDie { s with mem := m } d = getDie s d := rfl

/-- A resident line after a masked write. -/
def L2Line.stored (mask v : Nat) (y : L2Line) : L2Line :=
  { y with
    data := BitVec.ofNat 1024 (mergeBytes 128 mask v y.data.toNat)
    dirty := y.dirty ||| BitVec.ofNat 128 mask }

theorem stored_slice (mask v : Nat) (y : L2Line) : (y.stored mask v).slice = y.slice := by simp only [L2Line.stored]

theorem stored_line (mask v : Nat) (y : L2Line) : (y.stored mask v).line = y.line := by simp only [L2Line.stored]

/-- A die whose resident copy of a line has taken a masked write. -/
def Die.stored (sl line mask v : Nat) (x : Die) : Die := { x with l2 := updFirst (l2At x sl line) (L2Line.stored mask v) x.l2 }

theorem homeStore_resident (hp : plainMemory s) {line : Nat} {y : L2Line} (mask v : Nat)
    (h : l2Find (getDie s (homeDie (line * 128))) (sliceOf 0 (line * 128)) line = some y) :
    homeStore s 0 line mask v = modDie s (homeDie (line * 128)) (Die.stored (sliceOf 0 (line * 128)) line mask v) := by
  simp only [homeStore, codecBacking_plain hp, Bool.false_eq_true, if_false, h]
  rfl

theorem homeStore_memory (hp : plainMemory s) {line : Nat} (mask v : Nat)
    (h : l2Find (getDie s (homeDie (line * 128))) (sliceOf 0 (line * 128)) line = none) :
    homeStore s 0 line mask v = if absent line then s else { s with mem := writeMasked s.mem (line * 128) 128 mask v } := by
  simp only [homeStore, codecBacking_plain hp, Bool.false_eq_true, if_false, h, memWriteLine, codecOf_plain hp]

/-- A merged line is a value of 1024 bits. -/
theorem toNat_mergeBytes (mask new old : Nat) : (BitVec.ofNat 1024 (mergeBytes 128 mask new old)).toNat = mergeBytes 128 mask new old := by
  apply Nat.eq_of_testBit_eq
  intro j
  rw [BitVec.testBit_toNat, BitVec.getLsbD_ofNat, mergeBytes_testBit, ← Bool.and_assoc]
  simp

theorem l2At_dieStored (x : Die) (sl line mask v : Nat) : l2At (x.stored sl line mask v) = l2At x := by
  funext sl' k y
  simp only [l2At, cosReach, cosOf, Die.stored]

theorem l2At_stored (x : Die) (sl k mask v : Nat) (y : L2Line) : l2At x sl k (y.stored mask v) = l2At x sl k y := by
  simp only [l2At, L2Line.stored]

/-- A lookup after a write into a resident copy: that line holds what was written, and any other line is found as before. -/
theorem l2Find_stored (x : Die) (sl line mask v sl' k : Nat) : l2Find (x.stored sl line mask v) sl' k =
    if sl' = sl ∧ k = line then (l2Find x sl' k).map (L2Line.stored mask v) else l2Find x sl' k := by
  simp only [l2Find, l2At_dieStored]
  split
  · rename_i h
    obtain ⟨rfl, rfl⟩ := h
    exact find?_updFirst_same (l2At_stored x _ _ mask v) x.l2
  · rename_i h
    refine find?_updFirst_other (l2At_stored x _ _ mask v) (fun y hy => ?_) x.l2
    simp only [l2At, Bool.and_eq_true, beq_iff_eq] at hy
    obtain ⟨⟨h1, h2⟩, -⟩ := hy
    have : ¬ (y.slice = sl' ∧ y.line = k) := by rintro ⟨rfl, rfl⟩; exact h ⟨h1, h2⟩
    by_cases h3 : y.slice = sl' <;> simp_all [l2At]

theorem plainMemory_stored (hp : plainMemory s) (d sl line mask v : Nat) :
    plainMemory (modDie s d (Die.stored sl line mask v)) := by
  obtain ⟨hc, hmig, hsl, hwf⟩ := hp
  refine ⟨hc, fun e => ?_, fun e y hy => ?_, hwf⟩ <;> by_cases he : e = d
  · subst he; rw [getDie_modDie_same]; exact hmig e
  · rw [getDie_modDie_other _ _ he]; exact hmig e
  · subst he
    rw [getDie_modDie_same] at hy
    rcases mem_updFirst hy with hy | ⟨z, hz, rfl⟩
    · exact hsl _ y hy
    · rw [stored_slice, stored_line]; exact hsl _ z hz
  · rw [getDie_modDie_other _ _ he] at hy; exact hsl e y hy

/-- A masked write at a home: memory stays plain, the line takes the bytes, and no other line changes. -/
theorem homeStore_plain (hp : plainMemory s) (line mask v : Nat) :
    plainMemory (homeStore s 0 line mask v) ∧ ∀ k < 2 ^ 33, homeLine (homeStore s 0 line mask v) 0 k =
      if k = line then mergeBytes 128 mask v (homeLine s 0 k) else homeLine s 0 k := by
  cases hf : l2Find (getDie s (homeDie (line * 128))) (sliceOf 0 (line * 128)) line with
  | some x =>
    rw [homeStore_resident hp mask v hf]
    have hp' := plainMemory_stored hp (homeDie (line * 128)) (sliceOf 0 (line * 128)) line mask v
    refine ⟨hp', fun k hk => ?_⟩
    rw [homeLine_plain hp' hk, homeLine_plain hp hk]
    by_cases hkl : k = line
    · subst hkl
      rw [getDie_modDie_same, l2Find_stored, if_pos ⟨rfl, rfl⟩, if_pos rfl, hf]
      exact toNat_mergeBytes ..
    · rw [if_neg hkl]
      by_cases hd : homeDie (k * 128) = homeDie (line * 128)
      · rw [hd, getDie_modDie_same, l2Find_stored, if_neg (fun h => hkl h.2)]
        rfl
      · rw [getDie_modDie_other _ _ hd]
        rfl
  | none =>
    rw [homeStore_memory hp mask v hf]
    obtain ⟨hc, hmig, hsl, hwf⟩ := id hp
    split
    · rename_i ha
      refine ⟨hp, fun k hk => ?_⟩
      have : k ≠ line := by rintro rfl; simp [absent] at ha; omega
      rw [if_neg this]
    · have hp' : plainMemory { s with mem := writeMasked s.mem (line * 128) 128 mask v } :=
        ⟨hc, hmig, hsl, wf_writeMasked _ _ _ _ _ hwf⟩
      refine ⟨hp', fun k hk => ?_⟩
      rw [homeLine_plain hp' hk, homeLine_plain hp hk]
      by_cases hkl : k = line
      · subst hkl
        simp only [getDie_mem, hf, if_true]
        exact readNat_writeMasked s.mem _ _ _ _ hwf
      · rw [if_neg hkl]
        simp only [getDie_mem]
        rw [readNat_writeMasked_apart s.mem mask v hwf (by omega)]

theorem homeWriteLine_plain (hp : plainMemory s) (line mask v : Nat) :
    plainMemory (homeWriteLine s 0 line mask v) ∧ ∀ k < 2 ^ 33, homeLine (homeWriteLine s 0 line mask v) 0 k =
      if k = line then mergeBytes 128 mask v (homeLine s 0 k) else homeLine s 0 k := by
  have hp1 : plainMemory { s with poison := clearPoison s.poison line mask } := hp
  have h := homeStore_plain hp1 line mask v
  have e : homeWriteLine s 0 line mask v = homeStore { s with poison := clearPoison s.poison line mask } 0 line mask v :=
    markDirty_plain h.1 _
  rw [e]
  exact h

/-- Writes over 2^d lines: the lines around them stay, and each line that the bytes fill holds its part of them. -/
theorem homePutLines_plain (d : Nat) : ∀ {s : State} (l n v : Nat), plainMemory s →
    plainMemory (homePutLines s d l n v) ∧
      (∀ k < 2 ^ 33, k < l ∨ l + 2 ^ d ≤ k → homeLine (homePutLines s d l n v) 0 k = homeLine s 0 k) ∧
      ∀ i < 2 ^ d, 128 * (i + 1) ≤ n → l + i < 2 ^ 33 → homeLine (homePutLines s d l n v) 0 (l + i) = bits v (1024 * i) 1024 := by
  induction d with
  | zero =>
    intro s l n v hp
    simp only [homePutLines, codecBring_plain hp]
    split
    · exact ⟨hp, fun _ _ _ => rfl, fun i _ h => by omega⟩
    · obtain ⟨hp', hl⟩ := homeWriteLine_plain hp l (2 ^ min n 128 - 1) v
      refine ⟨hp', fun k hk h => ?_, fun i hi hn hk => ?_⟩
      · rw [hl k hk, if_neg (by omega)]
      · obtain rfl : i = 0 := by omega
        rw [hl _ hk, if_pos (by omega)]
        apply Nat.eq_of_testBit_eq
        intro j
        rw [mergeBytes_testBit, bits_testBit, show min n 128 = 128 by omega, Nat.testBit_two_pow_sub_one]
        by_cases hj : j < 1024
        · simp [hj, show j / 8 < 128 by omega]
        · simp [hj]
  | succ d ih =>
    intro s l n v hp
    simp only [homePutLines]
    split
    · exact ⟨hp, fun _ _ _ => rfl, fun i _ h => by omega⟩
    · obtain ⟨hp1, out1, in1⟩ := ih l (min n (128 * 2 ^ d)) (v % 2 ^ (1024 * 2 ^ d)) hp
      obtain ⟨hp2, out2, in2⟩ := ih (l + 2 ^ d) (n - 128 * 2 ^ d) (v >>> (1024 * 2 ^ d)) hp1
      have hpow : 2 ^ (d + 1) = 2 ^ d + 2 ^ d := by omega
      refine ⟨hp2, fun k hk h => ?_, fun i hi hn hk => ?_⟩
      · rw [out2 k hk (by omega), out1 k hk (by omega)]
      · by_cases hlow : i < 2 ^ d
        · rw [out2 _ hk (by omega), in1 i hlow (by omega) hk]
          apply Nat.eq_of_testBit_eq
          intro j
          rw [bits_testBit, bits_testBit, Nat.testBit_mod_two_pow]
          by_cases hj : j < 1024
          · simp [hj, show 1024 * i + j < 1024 * 2 ^ d by omega]
          · simp [hj]
        · have e : l + i = l + 2 ^ d + (i - 2 ^ d) := by omega
          rw [e, in2 (i - 2 ^ d) (by omega) (by omega) (by omega)]
          apply Nat.eq_of_testBit_eq
          intro j
          rw [bits_testBit, bits_testBit, Nat.testBit_shiftRight]
          congr 2
          omega

end Plain

/-! ### Doublewords -/

/-- A write of an aligned doubleword is one access. -/
theorem homeWriteN_word (s : State) {pa : Nat} (v : Nat) (h : pa % 8 = 0) : homeWriteN s pa 8 v = homeWrite s 0 pa 8 v := by
  have h1 : min 8 (128 - pa % 128) = 8 := by omega
  simp only [homeWriteN, homeWriteLines, h1]
  simp

/-- A doubleword is read back. -/
theorem home64_homeWriteN_same {s : State} (hp : plainMemory s) {pa : Nat} (v : Nat) (h : pa % 8 = 0) (hpa : pa < 2 ^ 40) :
    home64 (homeWriteN s pa 8 v) pa = BitVec.ofNat 64 v := by
  rw [homeWriteN_word s v h]
  apply BitVec.eq_of_getLsbD_eq
  intro j hj
  have hm : (pa % 128 + 8) * 8 ≤ 1024 := by omega
  have hd : (8 * (pa % 128) + j) / 8 - pa % 128 < 8 := by omega
  have mask : ((2 ^ 8 - 1) * 2 ^ (pa % 128)).testBit ((8 * (pa % 128) + j) / 8) = true := by
    rw [Nat.mul_comm, Nat.testBit_two_pow_mul, Nat.testBit_two_pow_sub_one]
    simp only [hd, decide_true, Bool.and_true, decide_eq_true_eq]
    omega
  simp only [home64, homeRead, homeWrite, (homeWriteLine_plain hp ..).2 _ (show pa / 128 < 2 ^ 33 by omega), if_true,
    BitVec.getLsbD_ofNat, bits_testBit, mergeBytes_testBit, mask, Nat.mul_comm (v % _), Nat.testBit_two_pow_mul,
    Nat.testBit_mod_two_pow, Nat.add_sub_cancel_left, hj, decide_true, Bool.true_and, Nat.le_add_right]
  simp [show 8 * (pa % 128) + j < 1024 by omega]

/-- A doubleword of another line stays. -/
theorem home64_homeWriteN_other {s : State} (hp : plainMemory s) {pa pb : Nat} (v : Nat) (h : pa % 8 = 0) (hpb : pb < 2 ^ 40)
    (hl : pb / 128 ≠ pa / 128) : home64 (homeWriteN s pa 8 v) pb = home64 s pb := by
  rw [homeWriteN_word s v h]
  simp only [home64, homeRead, homeWrite, (homeWriteLine_plain hp ..).2 _ (show pb / 128 < 2 ^ 33 by omega), if_neg hl]

end Sys2Proof.Machine
end

