-- ==== Sys2Proof/Proofs/BigReads.lean ====
section
/-!
Reads of several lines at a home (R3): which bits of which line they give.
-/

namespace Sys2Proof.Machine

/-! ### A line is a value of 1024 bits -/

theorem lanes_lt (w : Nat) (f : Nat → Nat) (n : Nat) : ∀ k, lanes w f n k < 2 ^ (w * n) := by
  induction n with
  | zero => intro k; simp [lanes]
  | succ n ih =>
    intro k
    have h1 : f k % 2 ^ w < 2 ^ w := Nat.mod_lt _ (Nat.two_pow_pos w)
    have h2 : lanes w f n (k + 1) + 1 ≤ 2 ^ (w * n) := ih (k + 1)
    calc lanes w f (n + 1) k = f k % 2 ^ w + 2 ^ w * lanes w f n (k + 1) := rfl
      _ < 2 ^ w * (lanes w f n (k + 1) + 1) := by rw [Nat.mul_add]; omega
      _ ≤ 2 ^ w * 2 ^ (w * n) := Nat.mul_le_mul_left _ h2
      _ = 2 ^ (w * (n + 1)) := by rw [← Nat.pow_add]; ring_nf

/-- A value is of n bits when no bit from n on is set. -/
def Narrow (n v : Nat) : Prop := ∀ j, n ≤ j → v.testBit j = false

theorem narrow_of_lt {n m v : Nat} (h : v < 2 ^ m) (hm : m = n) : Narrow n v := fun _ hj =>
  Nat.testBit_eq_false_of_lt (Nat.lt_of_lt_of_le h (Nat.pow_le_pow_right (by omega) (hm ▸ hj)))

theorem narrow_toNat {n : Nat} (v : BitVec n) : Narrow n v.toNat := narrow_of_lt v.isLt rfl

theorem narrow_memGet (s : State) (a n : Nat) : Narrow (8 * n) (memGet s a n) := by
  unfold memGet
  split
  · intro j hj
    simp [readNat_testBit, show ¬ j < 8 * n by omega]
  · exact narrow_of_lt (Nat.mod_lt _ (Nat.two_pow_pos _)) rfl

theorem narrow_memLine (s : State) (k : Nat) : Narrow 1024 (memLine s k) := by
  unfold memLine
  dsimp only
  split
  · unfold codecDecode
    exact narrow_of_lt (lanes_lt 64 _ 16 0) (by omega)
  · exact narrow_memGet s _ 128

theorem narrow_homeLine (s : State) (sel k : Nat) : Narrow 1024 (homeLine s sel k) := by
  unfold homeLine
  extract_lets d sl vs
  split
  · exact narrow_memLine s k
  · split
    · rw [List.getD_eq_getElem?_getD]
      cases hv : vs[(Config.freeVec s.free).toNat % vs.length]? with
      | none => exact fun j _ => Nat.zero_testBit j
      | some v =>
        rcases List.mem_append.1 (List.mem_of_getElem? hv) with h | h
        · obtain ⟨y, -, rfl⟩ := List.mem_map.1 h
          exact narrow_toNat _
        · rw [List.mem_singleton.1 h]
          exact narrow_memLine s k
    · split
      · exact narrow_toNat _
      · exact narrow_memLine s k

/-! ### Several lines -/

theorem homeLines_testBit (s : State) (d : Nat) : ∀ l j, (homeLines s d l).testBit j =
    (decide (j < 1024 * 2 ^ d) && (homeLine s 0 (l + j / 1024)).testBit (j % 1024)) := by
  induction d with
  | zero =>
    intro l j
    by_cases hj : j < 1024
    · simp [homeLines, hj, Nat.div_eq_of_lt hj, Nat.mod_eq_of_lt hj]
    · simp [homeLines, hj, narrow_homeLine s 0 l j (by omega)]
  | succ d ih =>
    intro l j
    have small : homeLines s d l < 2 ^ (1024 * 2 ^ d) := by
      apply Nat.lt_pow_two_of_testBit
      intro i hi
      simp [ih, show ¬ i < 1024 * 2 ^ d by omega]
    have hpow : 1024 * 2 ^ (d + 1) = 1024 * 2 ^ d + 1024 * 2 ^ d := by omega
    rw [homeLines, Nat.shiftLeft_eq, Nat.add_comm, Nat.mul_comm, Nat.testBit_two_pow_mul_add _ small]
    split
    · rename_i h
      simp [ih, h, show j < 1024 * 2 ^ (d + 1) by omega]
    · rename_i h
      have h1 : l + 2 ^ d + (j - 1024 * 2 ^ d) / 1024 = l + j / 1024 := by omega
      have h2 : (j - 1024 * 2 ^ d) % 1024 = j % 1024 := by omega
      rw [ih, h1, h2]
      congr 1
      simp only [decide_eq_decide]
      omega

theorem le_two_pow_log2up (n : Nat) : n ≤ 2 ^ log2up n := by
  unfold log2up
  split
  · omega
  · have := Nat.lt_log2_self (n := n - 1)
    omega

/-- What n bytes from an address are, bit by bit. -/
theorem homeBig_testBit (s : State) (pa n j : Nat) : (homeBig s pa n).testBit j =
    (decide (j < 8 * n) && (homeLine s 0 ((8 * pa + j) / 1024)).testBit ((8 * pa + j) % 1024)) := by
  have hl := le_two_pow_log2up (n / 128 + 2)
  rw [homeBig, bits_testBit, homeLines_testBit]
  by_cases hj : j < 8 * n
  · have h1 : 8 * (pa % 128) + j < 1024 * 2 ^ log2up (n / 128 + 2) := by omega
    have h2 : pa / 128 + (8 * (pa % 128) + j) / 1024 = (8 * pa + j) / 1024 := by omega
    have h3 : (8 * (pa % 128) + j) % 1024 = (8 * pa + j) % 1024 := by omega
    simp only [hj, h1, h2, h3, decide_true, Bool.true_and]
  · simp [hj]

/-- A field of what is read, within one line, is what stands there. -/
theorem field_homeBig (s : State) {pa n off m : Nat} (hn : off + m ≤ n) (hl : (pa + off) % 128 + m ≤ 128) :
    field (homeBig s pa n) off m = homeRead s 0 (pa + off) m := by
  apply Nat.eq_of_testBit_eq
  intro j
  rw [field, homeRead, bits_testBit, bits_testBit, homeBig_testBit]
  by_cases hj : j < 8 * m
  · have h1 : 8 * off + j < 8 * n := by omega
    have h2 : (8 * pa + (8 * off + j)) / 1024 = (pa + off) / 128 := by omega
    have h3 : (8 * pa + (8 * off + j)) % 1024 = 8 * ((pa + off) % 128) + j := by omega
    simp only [hj, h1, h2, h3, decide_true, Bool.true_and]
  · simp [hj]

/-! ### What a home gives -/

/-- From s to t nothing has changed that a home answers from: memory, the codec regions, the choice of log 57, and of the dies the
L2 lines, the classes of service and the dirty tracking. -/
structure HomesSame (s t : State) : Prop where
  mem : t.mem = s.mem
  codecs : t.codecs = s.codecs
  free : t.free = s.free
  l2 : ∀ d, (getDie t d).l2 = (getDie s d).l2
  cos : ∀ d, (getDie t d).cos = (getDie s d).cos
  migctl : ∀ d, (getDie t d).migctl = (getDie s d).migctl

namespace HomesSame

variable {s t u : State}

theorem refl (s : State) : HomesSame s s := ⟨rfl, rfl, rfl, fun _ => rfl, fun _ => rfl, fun _ => rfl⟩

theorem trans (h : HomesSame s t) (k : HomesSame t u) : HomesSame s u :=
  ⟨k.mem.trans h.mem, k.codecs.trans h.codecs, k.free.trans h.free, fun d => (k.l2 d).trans (h.l2 d), fun d => (k.cos d).trans (h.cos d),
    fun d => (k.migctl d).trans (h.migctl d)⟩

theorem of_eq (hm : t.mem = s.mem) (hc : t.codecs = s.codecs) (hf : t.free = s.free) (hd : t.dies = s.dies) : HomesSame s t := by
  refine ⟨hm, hc, hf, fun d => ?_, fun d => ?_, fun d => ?_⟩ <;> simp only [getDie, hd]

theorem foldl {α : Type} {f : State → α → State} (hf : ∀ s x, HomesSame s (f s x)) (l : List α) : ∀ s, HomesSame s (l.foldl f s) := by
  induction l with
  | nil => exact fun s => refl s
  | cons x l ih => exact fun s => (hf s x).trans (ih _)

theorem modDie (s : State) (d : Nat) {f : Die → Die} (hl : ∀ x, (f x).l2 = x.l2) (hc : ∀ x, (f x).cos = x.cos)
    (hm : ∀ x, (f x).migctl = x.migctl) : HomesSame s (modDie s d f) := by
  have kept {α : Type} (g : Die → α) (hg : ∀ x, g (f x) = g x) (e : Nat) : g (getDie (Machine.modDie s d f) e) = g (getDie s e) := by
    by_cases he : e = d
    · rw [he, getDie_modDie_same, hg]
    · rw [getDie_modDie_other _ _ he]
  exact ⟨rfl, rfl, rfl, kept _ hl, kept _ hc, kept _ hm⟩

theorem setSys (s : State) (d i : Nat) (e : SysCmd) : HomesSame s (setSys s d i e) :=
  modDie s d (fun _ => rfl) (fun _ => rfl) fun _ => rfl

theorem memLine (h : HomesSame s t) (k : Nat) : memLine t k = memLine s k := by
  have hg (a n : Nat) : memGet t a n = memGet s a n := by rw [memGet, memGet, h.mem]
  have hc (a : Nat) : codecOf t a = codecOf s a := by rw [codecOf, codecOf, h.codecs]
  simp only [Machine.memLine, hg, hc]

theorem l2Find (h : HomesSame s t) (d sl k : Nat) : l2Find (getDie t d) sl k = l2Find (getDie s d) sl k := by
  have hat : l2At (getDie t d) sl k = l2At (getDie s d) sl k := by
    funext x
    simp only [l2At, cosReach, cosOf, h.cos]
  rw [Machine.l2Find, Machine.l2Find, hat, h.l2]

theorem homeLine (h : HomesSame s t) (sel k : Nat) : homeLine t sel k = homeLine s sel k := by
  have hb (a : Nat) : codecBacking t a = codecBacking s a := by rw [codecBacking, codecBacking, h.codecs]
  simp only [Machine.homeLine, hb, h.memLine, h.l2Find, h.l2, h.free]

theorem homeBig (h : HomesSame s t) (pa n : Nat) : homeBig t pa n = homeBig s pa n := by
  apply Nat.eq_of_testBit_eq
  intro j
  rw [homeBig_testBit, homeBig_testBit, h.homeLine]

theorem home64 (h : HomesSame s t) (pa : Nat) : home64 t pa = home64 s pa := by
  simp only [Machine.home64, homeRead, h.homeLine]

theorem plain (h : HomesSame s t) (hp : plainMemory s) : plainMemory t := by
  obtain ⟨hc, hm, hs, hw⟩ := hp
  refine ⟨h.codecs.trans hc, fun d => by rw [h.migctl, hm], fun d y hy => hs d y (h.l2 d ▸ hy), by rw [h.mem, hw]⟩

end HomesSame

end Sys2Proof.Machine
end

