-- ==== Sys2Proof/Proofs/Registers.lean ====
section
/-!
Register writes and the half reads of R401 (R4, R5, R315, R326).
-/

namespace Sys2Proof.Machine

/-- Die registers of which a write sets only the fields of a mask: offset and mask (R4, R5). -/
def dieMasks : List (Nat × Word) :=
  [(0x40, 0xFFFFFFFFFFF0), (0x48, 0x1F), (0x50, ~~~0), (0x60, ~~~0), (0x3000, ~~~0), (0x3100, 0xC0000000FFFFFFFF), (0x3200, 1),
    (0x3208, 0xFFFFFFE00000), (0x3210, 0xFFFFFFE00000), (0x4800, 0xFFFF), (0x4808, 0xFFFFFFFFFFF0), (0x4810, 0x1F), (0x4818, ~~~0)]

/-- The same for a debug block. -/
def dbgMasks : List (Nat × Word) :=
  [(0x30, 0x80000000000007FF), (0x48, 0xFF000000FFFFFFFF), (0x58, 0xFFFFFFFFFFF0), (0x60, 0x1F), (0x68, ~~~0), (0x70, 0xFFE)]

theorem dieMasks_off {off : Nat} {mask : Word} (h : (off, mask) ∈ dieMasks) : off < 0x100000 ∧ off % 8 = 0 := by
  have all : ∀ e ∈ dieMasks, e.1 < 0x100000 ∧ e.1 % 8 = 0 := by decide
  exact all _ h

theorem dbgMasks_off {off : Nat} {mask : Word} (h : (off, mask) ∈ dbgMasks) : off < 0x200 ∧ off % 8 = 0 ∧ off ≠ 0 := by
  have all : ∀ e ∈ dbgMasks, e.1 < 0x200 ∧ e.1 % 8 = 0 ∧ e.1 ≠ 0 := by decide
  exact all _ h

/-- A register of a die, outside the debug blocks, is written by dieWrite. -/
theorem exec_registerWrite_die (s : State) {d off : Nat} (v : Word) (hd : d < 8) (h8 : off % 8 = 0)
    (hoff : off < 0x100000) : exec (.registerWrite 0 d off v) s = .next (modDie s d (dieWrite off v)) := by
  change execRegisterWrite 0 d off v s = _
  have h1 : ¬ 8 ≤ d := by omega
  have h2 : ¬ (0x100000 ≤ off ∧ off < 0x110000) := by omega
  simp only [execRegisterWrite, regWrite, h8, h1, h2, if_true, if_false]

/-- A register of a debug block but for DBGCTL is written by dbgWrite. -/
theorem exec_registerWrite_debug (s : State) {d c off : Nat} (v : Word) (hd : d < 8) (hc : c < 128) (h8 : off % 8 = 0)
    (h0 : off ≠ 0) (hoff : off < 0x200) : exec (.registerWrite 0 d (0x100000 + 0x200 * c + off) v) s =
      .next (modDbg s (128 * d + c) (dbgWrite off v)) := by
  change execRegisterWrite 0 d (0x100000 + 0x200 * c + off) v s = _
  have h1 : ¬ 8 ≤ d := by omega
  have h2 : 0x100000 ≤ 0x100000 + 0x200 * c + off ∧ 0x100000 + 0x200 * c + off < 0x110000 := by omega
  have h3 : (0x100000 + 0x200 * c + off) % 8 = 0 := by omega
  have h4 : (0x100000 + 0x200 * c + off - 0x100000) / 0x200 = c := by omega
  have h5 : (0x100000 + 0x200 * c + off - 0x100000) % 0x200 = off := by omega
  simp only [execRegisterWrite, regWrite, h1, h2, h3, h4, h5, h0, and_self, if_true, if_false]

theorem regRead_die (s : State) {d : Nat} (off : Nat) (hd : d < 8) : regRead s 0 d off = dieRead s d off := if_pos hd

theorem regRead_debug (s : State) {d c off : Nat} (hd : d < 8) (hc : c < 128) (hoff : off < 0x200) :
    regRead s 0 d (0x100000 + 0x200 * c + off) = dbgRead off (getCell s (128 * d + c)).dbg := by
  have h4 : (0x100000 + 0x200 * c + off - 0x100000) / 0x200 = c := by omega
  have h5 : (0x100000 + 0x200 * c + off - 0x100000) % 0x200 = off := by omega
  rw [regRead_die s _ hd]
  unfold dieRead
  extract_lets x g w o
  repeat rw [if_neg (by omega)]
  rw [if_pos (by omega), h4, h5]

theorem and_ones (v : Word) : v &&& 0xFFFFFFFFFFFFFFFF#64 = v := BitVec.and_allOnes

/-- What is read after a write: the fields of the mask are new, the others old. -/
theorem dieRead_dieWrite (s : State) (d : Nat) {off : Nat} {mask : Word} (v : Word) (h : (off, mask) ∈ dieMasks) :
    dieRead (modDie s d (dieWrite off v)) d off = (dieRead s d off &&& ~~~mask) ||| (v &&& mask) := by
  simp only [dieMasks, List.mem_cons, Prod.mk.injEq, List.not_mem_nil, or_false] at h
  rcases h with ⟨rfl, rfl⟩ | ⟨rfl, rfl⟩ | ⟨rfl, rfl⟩ | ⟨rfl, rfl⟩ | ⟨rfl, rfl⟩ | ⟨rfl, rfl⟩ | ⟨rfl, rfl⟩ | ⟨rfl, rfl⟩ | ⟨rfl, rfl⟩ |
    ⟨rfl, rfl⟩ | ⟨rfl, rfl⟩ | ⟨rfl, rfl⟩ | ⟨rfl, rfl⟩ <;>
    simp [dieRead, dieWrite, ringBase, ringSize, masked, and_ones]

theorem dbgRead_dbgWrite {off : Nat} {mask : Word} (v : Word) (x : Debug) (h : (off, mask) ∈ dbgMasks) :
    dbgRead off (dbgWrite off v x) = (dbgRead off x &&& ~~~mask) ||| (v &&& mask) := by
  simp only [dbgMasks, List.mem_cons, Prod.mk.injEq, List.not_mem_nil, or_false] at h
  rcases h with ⟨rfl, rfl⟩ | ⟨rfl, rfl⟩ | ⟨rfl, rfl⟩ | ⟨rfl, rfl⟩ | ⟨rfl, rfl⟩ | ⟨rfl, rfl⟩ <;>
    simp [dbgRead, dbgWrite, ringBase, ringSize, masked, and_ones]

/-- LVER, CELLOK and ENJ cannot be written (R5, R383). -/
theorem dieWrite_readOnly {off : Nat} (v : Word) (x : Die) (h8 : off % 8 = 0)
    (h : (0x2000 ≤ off ∧ off ≤ 0x2408) ∨ (0x4000 ≤ off ∧ off < 0x4400)) : dieWrite off v x = x := by
  unfold dieWrite
  repeat rw [if_neg (by omega)]

/-! ### The schedule table -/

/-- Words 0 to 2 of an entry wait for word 3 (log 88). -/
theorem dieWrite_sched_low {i k : Nat} (v : Word) (x : Die) (hi : i < 512) (hk : k < 3) :
    (dieWrite (0x80000 + 32 * i + 8 * k) v x).sched = x.sched := by
  unfold dieWrite
  extract_lets i' k' w e
  repeat rw [if_neg (by omega)]
  rw [if_pos (by omega), if_pos (by omega)]

/-- Word 3 writes the entry whole, and no earlier firing is its last one (R315). -/
theorem dieWrite_sched_high {i : Nat} (v : Word) (x : Die) (hi : i < 512) :
    (dieWrite (0x80000 + 32 * i + 24) v x).sched = smSet 0 x.sched i (BitVec.ofNat 256 ((smGet 0 x.schedw (3 * i + 0)).toNat +
        (smGet 0 x.schedw (3 * i + 1)).toNat * 2 ^ 64 + (smGet 0 x.schedw (3 * i + 2)).toNat * 2 ^ 128 +
        (v &&& 0xFFFFFFFFFFFFFF03).toNat * 2 ^ 192)) ∧
      (dieWrite (0x80000 + 32 * i + 24) v x).fired = smDel x.fired i := by
  have hv : masked 0 v 0xFFFFFFFFFFFFFF03 = v &&& 0xFFFFFFFFFFFFFF03 := by simp [masked]
  unfold dieWrite
  extract_lets i' k' w e
  have hi' : i' = i := by omega
  repeat rw [if_neg (by omega)]
  rw [if_pos (by omega), if_neg (by omega)]
  constructor <;> simp only [e, w, hi', hv]

/-! ### HVRESP -/

/-- HVRESP answers as its own instructions do (R326). -/
theorem exec_registerWrite_hvresp (s : State) (v : Word) : exec (.registerWrite 1 0 0x118 v) s = exec (match v.extractLsb' 16 2 with
    | 1 => .hvrespReflect (v.extractLsb' 0 10).toNat
    | 2 => .hvrespKill (v.extractLsb' 0 10).toNat
    | _ => .hvrespRetry (v.extractLsb' 0 10).toNat) s := by
  change Host.Outcome.next (hvrespWrite s v) = _
  have hn : bits v.toNat 0 10 = (v.extractLsb' 0 10).toNat := (BitVec.extractLsb'_toNat ..).symm
  have ha : bits v.toNat 16 2 = (v.extractLsb' 16 2).toNat := (BitVec.extractLsb'_toNat ..).symm
  unfold hvrespWrite
  dsimp only
  rw [hn, ha]
  generalize v.extractLsb' 16 2 = act
  have : act = 0 ∨ act = 1 ∨ act = 2 ∨ act = 3 := by bv_omega
  rcases this with rfl | rfl | rfl | rfl <;> rfl

/-! ### Functions -/

theorem modHost_modHost (s : State) (f : Nat) (g h : HostFn → HostFn) : modHost (modHost s f g) f h = modHost s f fun x => h (g x) := by
  simp [modHost, getHost, smPut_smPut]

theorem getHost_modHost_other (s : State) {f g : Nat} (k : HostFn → HostFn) (h : f ≠ g) : getHost (modHost s g k) f = getHost s f :=
  smGet_smPut_other _ _ _ h

end Sys2Proof.Machine

namespace Sys2Proof.Laws
open Sys2Proof Machine

theorem registersAreWritten : Sys2Proof.registersAreWritten := by
  refine ⟨fun s d off mask v hd hm => ?_, fun s d c off mask v hd hc hm => ?_, fun s d off v hd h8 hoff => ?_, fun s v => ?_,
    fun s d i v hd hi hwf => ?_⟩
  · obtain ⟨hoff, h8⟩ := dieMasks_off hm
    refine ⟨_, exec_registerWrite_die s v hd h8 hoff, rfl, rfl, fun e he => getDie_modDie_other s _ he, ?_⟩
    rw [regRead_die _ _ hd, regRead_die _ _ hd]
    exact dieRead_dieWrite s d v hm
  · obtain ⟨hoff, h8, h0⟩ := dbgMasks_off hm
    refine ⟨_, exec_registerWrite_debug s v hd hc h8 h0 hoff, fun n hn => getCell_modCell_other s _ hn, ?_, ?_⟩
    · simp [modDbg]
    · rw [regRead_debug _ hd hc hoff, regRead_debug _ hd hc hoff, modDbg, getCell_modCell_same]
      exact dbgRead_dbgWrite v _ hm
  · refine ⟨_, exec_registerWrite_die s v hd h8 (by omega), rfl, fun e => ?_⟩
    by_cases he : e = d
    · subst he; rw [getDie_modDie_same, dieWrite_readOnly v _ h8 hoff]
    · exact getDie_modDie_other s _ he
  · exact ⟨rfl, exec_registerWrite_hvresp s v, rfl, rfl, rfl⟩
  · refine ⟨fun k hk => ⟨_, exec_registerWrite_die s v hd (by omega) (by omega), dieWrite_sched_low v _ hi hk⟩,
      _, exec_registerWrite_die s v hd (by omega) (by omega), ?_⟩
    obtain ⟨hs, hf⟩ := dieWrite_sched_high v (getDie s d) hi
    rw [getDie_modDie_same, hs, hf]
    exact ⟨smGet_smSet_same 0 _ i _ hwf, fun hw => smGet_smDel_same 0 _ i hw, fun j hj => smGet_smSet_other 0 _ _ hwf hj⟩

theorem halvesAreRead : Sys2Proof.halvesAreRead := by
  intro s f sp d off v
  have low : BitVec.ofNat 1024 (v.toNat % 2 ^ 32) = (v.extractLsb' 0 32).zeroExtend 1024 := by
    apply BitVec.eq_of_getLsbD_eq
    intro i hi
    rw [BitVec.getLsbD_ofNat, Nat.testBit_mod_two_pow, BitVec.getLsbD_setWidth, BitVec.getLsbD_extractLsb', BitVec.testBit_toNat,
      Nat.zero_add]
  refine ⟨_, rfl, ?_, ?_, fun g sp' d' off' hg => ⟨_, rfl, getHost_modHost_other _ _ hg.symm⟩, rfl⟩
  · simp only [← low]
    rfl
  · change Host.Outcome.next (modHost (modHost s f _) f _) = _
    rw [modHost_modHost]
    simp only [← low]
    rfl

end Sys2Proof.Laws
end

