-- ==== Sys2Proof/Proofs/Codecs.lean ====
section
/-!
The codec table: CRCTL, and the drain of the view range (R266, R267).
-/

namespace Sys2Proof.Machine

/-! ### Fields of CRCTL -/

theorem setBits_testBit (v lo n x j : Nat) : (setBits v lo n x).testBit j =
    if j < lo then v.testBit j else if j < lo + n then x.testBit (j - lo) else v.testBit j := by
  have e : setBits v lo n x = 2 ^ lo * (2 ^ n * (v >>> (lo + n)) + x % 2 ^ n) + v % 2 ^ lo := by
    unfold setBits
    rw [Nat.pow_add]
    ring
  rw [e, Nat.testBit_two_pow_mul_add _ (Nat.mod_lt _ (Nat.two_pow_pos lo)),
    Nat.testBit_two_pow_mul_add _ (Nat.mod_lt _ (Nat.two_pow_pos n)), Nat.testBit_shiftRight]
  by_cases h1 : j < lo
  · simp [h1, Nat.testBit_mod_two_pow]
  · by_cases h2 : j < lo + n
    · have h3 : j - lo < n := by omega
      simp [h1, h2, h3, Nat.testBit_mod_two_pow]
    · have h3 : ¬ j - lo < n := by omega
      simp [h1, h2, h3, show lo + n + (j - lo - n) = j by omega]

theorem ofNat_setBits_one (v : Nat) {i : Nat} (hi : i < 64) :
    BitVec.ofNat 64 (setBits v i 1 1) = BitVec.ofNat 64 v ||| BitVec.twoPow 64 i := by
  apply BitVec.eq_of_getLsbD_eq
  intro j hj
  rw [BitVec.getLsbD_or, BitVec.getLsbD_ofNat, BitVec.getLsbD_ofNat, BitVec.getLsbD_twoPow, setBits_testBit]
  rcases Nat.lt_trichotomy j i with h | rfl | h
  · simp [hj, h, show ¬ i = j by omega]
  · simp [hj]
  · simp [hj, show ¬ j < i by omega, show ¬ j < i + 1 by omega, show ¬ i = j by omega]

theorem ofNat_setBits_zero (v : Nat) {i : Nat} (hi : i < 64) :
    BitVec.ofNat 64 (setBits v i 1 0) = BitVec.ofNat 64 v &&& ~~~BitVec.twoPow 64 i := by
  apply BitVec.eq_of_getLsbD_eq
  intro j hj
  rw [BitVec.getLsbD_and, BitVec.getLsbD_not, BitVec.getLsbD_ofNat, BitVec.getLsbD_ofNat, BitVec.getLsbD_twoPow, setBits_testBit]
  rcases Nat.lt_trichotomy j i with h | rfl | h
  · simp [hj, h, show ¬ i = j by omega]
  · simp [hj]
  · simp [hj, show ¬ j < i by omega, show ¬ j < i + 1 by omega, show ¬ i = j by omega]

/-- BUD of CRCTL takes that of the value written. -/
theorem ofNat_setBits_bud (ctl v : Word) : BitVec.ofNat 64 (setBits ctl.toNat 0 3 (bits v.toNat 0 3)) = (ctl &&& ~~~7) ||| (v &&& 7) := by
  have seven (j : Nat) : (7 : Word).getLsbD j = decide (j < 3) := by
    change (BitVec.ofNat 64 (2 ^ 3 - 1)).getLsbD j = _
    rw [BitVec.getLsbD_ofNat, Nat.testBit_two_pow_sub_one]
    by_cases h : j < 3 <;> simp [h]
    omega
  apply BitVec.eq_of_getLsbD_eq
  intro j hj
  rw [BitVec.getLsbD_ofNat, setBits_testBit, bits_testBit, BitVec.getLsbD_or, BitVec.getLsbD_and, BitVec.getLsbD_and,
    BitVec.getLsbD_not, seven, BitVec.testBit_toNat, BitVec.testBit_toNat]
  by_cases h : j < 3
  · simp only [hj, h, Nat.not_lt_zero, Nat.zero_add, Nat.sub_zero, if_false, if_true, decide_true, Bool.not_true, Bool.and_false,
      Bool.false_or, Bool.and_true, Bool.true_and]
  · simp only [hj, h, Nat.not_lt_zero, Nat.zero_add, if_false, decide_true, decide_false, Bool.not_false, Bool.and_true,
      Bool.and_false, Bool.or_false, Bool.true_and]

theorem bit_toNat (v : Word) (i : Nat) : bit v.toNat i = v.getLsbD i := by
  rw [bit, BitVec.getLsbD, Nat.testBit_eq_decide_div_mod_eq, ← Nat.shiftRight_eq_div_pow]
  rfl

theorem crctl_drain (v : Nat) : BitVec.ofNat 64 (setBits (setBits v 6 1 1) 7 1 0) = (BitVec.ofNat 64 v ||| 0x40) &&& ~~~0x80 := by
  rw [ofNat_setBits_zero _ (by omega), ofNat_setBits_one _ (by omega)]
  rfl

/-! ### CRCTL written -/

theorem codecAt_modCodec_same (s : State) (r : Nat) (f : Codec → Codec) (h : smWf Codec.reset 0 s.codecs = true) :
    codecAt (modCodec s r f) r = f (codecAt s r) := smGet_smSet_same _ _ _ _ h

/-- The region as a write of CRCTL leaves its budget. -/
def Codec.budgeted (c : Codec) (v : Word) : Codec := { c with ctl := (c.ctl &&& ~~~7) ||| (v &&& 7) }

/-- A write of CRCTL, case by case (R267). -/
theorem crctlBody_eq (s : State) (r : Nat) (v : Word) : crctlBody s r v =
    if (codecAt s r).ctl.getLsbD 6 then s
    else if (codecAt s r).ctl.getLsbD 4 then
      if v.getLsbD 4 then s
      else modCodec s r fun c => { c with next := false, ctl := ((codecAt s r).ctl ||| 0x40) &&& ~~~0x80 }
    else if v.getLsbD 4 then
      if enableBad s r ((codecAt s r).budgeted v) then
        modCodec s r fun _ => { (codecAt s r).budgeted v with ctl := ((codecAt s r).budgeted v).ctl ||| 0x80 }
      else modCodec s r fun _ =>
        { (codecAt s r).budgeted v with next := true, ctl := (((codecAt s r).budgeted v).ctl ||| 0x40) &&& ~~~0x80 }
    else modCodec s r fun _ => (codecAt s r).budgeted v := by
  have hb : { codecAt s r with ctl := BitVec.ofNat 64 (setBits (codecAt s r).ctl.toNat 0 3 (bits v.toNat 0 3)) } =
      (codecAt s r).budgeted v := by rw [ofNat_setBits_bud]; rfl
  unfold crctlBody
  extract_lets c ctl c'
  have hc' : c' = (codecAt s r).budgeted v := hb
  simp only [hc', crctl_drain, ctl, c, bit_toNat, ofNat_setBits_one _ (show 7 < 64 by omega), BitVec.ofNat_toNat, BitVec.setWidth_eq]
  cases (codecAt s r).ctl.getLsbD 6 <;> cases (codecAt s r).ctl.getLsbD 4 <;> cases v.getLsbD 4 <;> rfl

theorem exec_crctlWrite (s : State) {r : Nat} (v : Word) (h : r < 64) : exec (.crctlWrite r v) s = .next (crctlBody s r v) := by
  change execCrctlWrite r v s = _
  simp only [execCrctlWrite, if_pos h]

/-! ### EN refused -/

theorem enableBad_empty (s : State) (r : Nat) (c : Codec) (h : codecPages c = 0 ∨ c.ctl.extractLsb' 0 3 = 7) :
    enableBad s r c = true := by
  unfold enableBad
  rcases h with h | h
  · simp [h]
  · have : bits c.ctl.toNat 0 3 = 7 := by
      rw [bits, ← BitVec.extractLsb'_toNat, h]
      rfl
    simp [this]

theorem enableBad_sound (s : State) (r : Nat) (c : Codec) (hp : codecPages c ≠ 0) (hb : c.ctl.extractLsb' 0 3 ≠ 7)
    (hv : codecBase c + codecPages c * 65536 ≤ 2 ^ 40) (hk : codecBack c + codecBackLen c ≤ 2 ^ 40)
    (ho : overlap (codecBase c) (codecPages c * 65536) (codecBack c) (codecBackLen c) = false)
    (hs : ∀ e ∈ s.codecs, e.1 = r ∨ codecOn e.2 = false) : enableBad s r c = false := by
  have h7 : bits c.ctl.toNat 0 3 ≠ 7 := by
    intro h
    refine hb (BitVec.eq_of_toNat_eq ?_)
    rw [BitVec.extractLsb'_toNat]
    exact h
  have hany : (s.codecs.any fun e => e.1 != r && codecOn e.2 &&
      (rangesMeet (codecBase c) (codecPages c * 65536) (codecBase e.2) (codecPages e.2 * 65536) ||
        rangesMeet (codecBase c) (codecPages c * 65536) (codecBack e.2) (codecBackLen e.2) ||
        rangesMeet (codecBack c) (codecBackLen c) (codecBase e.2) (codecPages e.2 * 65536) ||
        rangesMeet (codecBack c) (codecBackLen c) (codecBack e.2) (codecBackLen e.2))) = false := by
    rw [List.any_eq_false]
    intro e he
    rcases hs e he with h | h <;> simp [h]
  have hv' : ¬ 2 ^ 40 < codecBase c + codecPages c * 65536 := by omega
  have hk' : ¬ 2 ^ 40 < codecBack c + codecBackLen c := by omega
  rw [enableBad, hany, rangesMeet, ho, beyond, beyond, decide_eq_false hv', decide_eq_false hk', beq_false_of_ne hp,
    beq_false_of_ne h7]
  rfl

/-! ### Lines that leave L2 -/

theorem memWriteLine_dies (s : State) (line mask v : Nat) : (memWriteLine s line mask v).dies = s.dies := by
  unfold memWriteLine
  dsimp only
  split
  · rfl
  · split <;> rfl

/-- A die without a line that leaves. -/
def Die.evicted (y : L2Line) (x : Die) : Die :=
  modCos { x with l2 := delFirst (fun z => l2Is y.slice y.line z && z.way == y.way) x.l2 } y.slice y.cos fun r => { r with cur := r.cur - 1 }

theorem l2Evict_dies (s : State) (d : Nat) (y : L2Line) : (l2Evict s d y).dies = (modDie s d (Die.evicted y)).dies := by
  unfold l2Evict
  extract_lets u
  have hu : u = modDie s d (Die.evicted y) := rfl
  split
  · rw [hu]
  · split
    · rw [memWriteLine_dies, hu]
    · split <;> exact (memWriteLine_dies ..).trans (by rw [hu])

/-- Taking out the first line that is chosen leaves the others chosen, and the rest as it was. -/
theorem filter_delFirst {α : Type} {p q : α → Bool} {y : α} (hq : q y = true) (hqp : ∀ z, q z = true → p z = true) (l ys : List α)
    (h : l.filter p = y :: ys) : (delFirst q l).filter p = ys ∧ (delFirst q l).filter (!p ·) = l.filter (!p ·) := by
  induction l with
  | nil => simp at h
  | cons x l ih =>
    by_cases hp : p x = true
    · obtain ⟨rfl, rfl⟩ : x = y ∧ l.filter p = ys := by simpa [hp] using h
      simp [delFirst, hq, hp]
    · have hqx : ¬ q x = true := fun hx => hp (hqp x hx)
      have hl : l.filter p = y :: ys := by simpa [hp] using h
      simpa [delFirst, hqx, hp] using ih hl

/-- Every line of a die that p chooses, by its address alone, leaves. -/
theorem l2EvictAll_l2 {p : L2Line → Bool} (hp : ∀ y z : L2Line, y.line = z.line → p y = p z) (d : Nat) (ys : List L2Line) :
    ∀ s : State, (getDie s d).l2.filter p = ys → (getDie (l2EvictAll s d ys) d).l2 = (getDie s d).l2.filter (!p ·) := by
  induction ys with
  | nil =>
    intro s h
    rw [List.filter_eq_nil_iff] at h
    exact (List.filter_eq_self.2 fun y hy => by simp [h y hy]).symm
  | cons y ys ih =>
    intro s h
    have hy : p y = true := (List.mem_filter.1 (h ▸ List.mem_cons_self : y ∈ (getDie s d).l2.filter p)).2
    have hl : (getDie (l2Evict s d y) d).l2 = delFirst (fun z => l2Is y.slice y.line z && z.way == y.way) (getDie s d).l2 := by
      rw [getDie, l2Evict_dies]
      exact congrArg Die.l2 (getDie_modDie_same s d (Die.evicted y))
    obtain ⟨h1, h2⟩ := filter_delFirst (p := p) (q := fun z => l2Is y.slice y.line z && z.way == y.way) (y := y) (by simp [l2Is])
      (fun z hz => by
        simp only [l2Is, Bool.and_eq_true, beq_iff_eq] at hz
        rw [hp z y hz.1.2, hy]) _ _ h
    rw [show l2EvictAll s d (y :: ys) = l2EvictAll (l2Evict s d y) d ys from rfl, ih _ (by rw [hl, h1]), hl, h2]

theorem getDie_l2EvictAll_other {d e : Nat} (h : e ≠ d) (ys : List L2Line) : ∀ s : State, getDie (l2EvictAll s d ys) e = getDie s e := by
  induction ys with
  | nil => exact fun _ => rfl
  | cons y ys ih =>
    intro s
    rw [show l2EvictAll s d (y :: ys) = l2EvictAll (l2Evict s d y) d ys from rfl, ih, getDie, l2Evict_dies]
    exact getDie_modDie_other s _ h

/-! ### The drain -/

/-- No line of a die meets a range. -/
def NoLine (a n d : Nat) (s : State) : Prop := ∀ y ∈ (getDie s d).l2, overlap (y.line * 128) 128 a n = false

/-- The lines of one die that meet a range leave. -/
def drainDie (a n : Nat) (s : State) (d : Nat) : State :=
  l2EvictAll s d ((getDie s d).l2.filter fun y => overlap (y.line * 128) 128 a n)

theorem drainRange_eq (s : State) (a n : Nat) : drainRange s a n = (List.range 8).foldl (drainDie a n) s := rfl

theorem drainDie_l2 (a n : Nat) (s : State) (d : Nat) :
    (getDie (drainDie a n s d) d).l2 = (getDie s d).l2.filter fun y => !overlap (y.line * 128) 128 a n :=
  l2EvictAll_l2 (p := fun y => overlap (y.line * 128) 128 a n) (fun y z h => by rw [h]) d _ s rfl

theorem noLine_drainDie_same (a n : Nat) (s : State) (d : Nat) : NoLine a n d (drainDie a n s d) := by
  intro y hy
  rw [drainDie_l2, List.mem_filter] at hy
  simpa using hy.2

theorem noLine_drainDie {a n d : Nat} {s : State} (h : NoLine a n d s) (e : Nat) : NoLine a n d (drainDie a n s e) := by
  by_cases he : d = e
  · subst he; exact noLine_drainDie_same a n s d
  · unfold NoLine
    rw [drainDie, getDie_l2EvictAll_other he]
    exact h

theorem noLine_foldl (a n : Nat) (ds : List Nat) : ∀ (s : State) (d : Nat), d ∈ ds ∨ NoLine a n d s →
    NoLine a n d (ds.foldl (drainDie a n) s) := by
  induction ds with
  | nil => exact fun s d h => h.resolve_left (by simp)
  | cons e ds ih =>
    intro s d h
    refine ih _ _ ?_
    rcases h with h | h
    · rcases List.mem_cons.1 h with rfl | h
      · exact .inr (noLine_drainDie_same a n s d)
      · exact .inl h
    · exact .inr (noLine_drainDie h e)

theorem noLine_drainRange (s : State) (a n : Nat) {d : Nat} (hd : d < 8) : NoLine a n d (drainRange s a n) := by
  rw [drainRange_eq]
  exact noLine_foldl a n _ s d (.inl (List.mem_range.2 hd))

theorem l2EvictAll_frame (s : State) (d : Nat) (ys : List L2Line) : HomeFrame s (l2EvictAll s d ys) :=
  HomeFrame.foldl (fun s y => l2Evict_frame s d y) ys s

theorem drainRange_frame (s : State) (a n : Nat) : HomeFrame s (drainRange s a n) :=
  HomeFrame.foldl (fun s d => l2EvictAll_frame s d _) _ s

/-! ### What an encoded line leaves of its region -/

/-- The table stays in its canonical form, and no region changes but in its counters (R271). -/
structure CodecsKept (s t : State) : Prop where
  kept : smWf Codec.reset 0 s.codecs = true → smWf Codec.reset 0 t.codecs = true ∧
    ∀ r, (codecAt t r).ctl = (codecAt s r).ctl ∧ (codecAt t r).next = (codecAt s r).next ∧ (codecAt t r).view = (codecAt s r).view

theorem CodecsKept.of_eq {s t : State} (h : t.codecs = s.codecs) : CodecsKept s t := by
  refine ⟨fun hwf => ?_⟩
  simp only [codecAt, h]
  exact ⟨hwf, fun _ => ⟨trivial, trivial, trivial⟩⟩

theorem CodecsKept.trans {s t u : State} (h : CodecsKept s t) (k : CodecsKept t u) : CodecsKept s u := by
  refine ⟨fun hwf => ?_⟩
  obtain ⟨ht, et⟩ := h.kept hwf
  obtain ⟨hu, eu⟩ := k.kept ht
  refine ⟨hu, fun r => ?_⟩
  obtain ⟨e1, e2, e3⟩ := et r
  obtain ⟨f1, f2, f3⟩ := eu r
  exact ⟨f1.trans e1, f2.trans e2, f3.trans e3⟩

theorem CodecsKept.foldl {α : Type} {f : State → α → State} (hf : ∀ s x, CodecsKept s (f s x)) (l : List α) :
    ∀ s, CodecsKept s (l.foldl f s) := by
  induction l with
  | nil => exact fun s => .of_eq rfl
  | cons x l ih => exact fun s => (hf s x).trans (ih _)

/-- A listed value is what the map holds. -/
theorem smGet_of_mem {α : Type} [DecidableEq α] (d : α) (m : SMap α) {lo k : Nat} {v : α} (hwf : smWf d lo m = true)
    (h : (k, v) ∈ m) : smGet d m k = v ∧ lo ≤ k := by
  induction m generalizing lo with
  | nil => simp at h
  | cons e m ih =>
    obtain ⟨j, u⟩ := e
    simp only [smWf, Bool.and_eq_true, decide_eq_true_eq] at hwf
    obtain ⟨⟨hlo, -⟩, hm⟩ := hwf
    rcases List.mem_cons.1 h with h | h
    · obtain ⟨rfl, rfl⟩ := Prod.mk.inj h
      exact ⟨by simp [smGet], hlo⟩
    · obtain ⟨hk, hj⟩ := ih hm h
      refine ⟨?_, by omega⟩
      simp only [smGet]
      rw [if_neg (by omega), if_neg (by omega), hk]

/-- The region that holds an address is listed, and enabled. -/
theorem codecOf_some {s : State} {a r : Nat} {c : Codec} (h : codecOf s a = some (r, c)) : (r, c) ∈ s.codecs ∧ codecOn c = true := by
  have hc := List.find?_some h
  simp only [Bool.and_eq_true] at hc
  exact ⟨List.mem_of_find?_eq_some h, hc.1.1⟩

theorem codecCount_ne_reset {c : Codec} (hon : codecOn c = true) (o : CodecOut) : codecCount c o ≠ Codec.reset := by
  intro e
  have e' : c.ctl = 0 := congrArg Codec.ctl e
  simp [codecOn, e', bit] at hon

theorem memWriteLine_codecs (s : State) (line mask v : Nat) : CodecsKept s (memWriteLine s line mask v) := by
  unfold memWriteLine
  dsimp only
  split
  · rename_i r c h
    obtain ⟨hmem, hon⟩ := codecOf_some h
    refine ⟨fun hwf => ⟨smWf_smPut _ _ _ _ (Nat.zero_le _) (codecCount_ne_reset hon _) hwf, fun q => ?_⟩⟩
    obtain ⟨hget, -⟩ := smGet_of_mem _ _ hwf hmem
    by_cases hq : q = r
    · subst hq
      simp only [codecAt, smGet_smPut_same, hget]
      exact ⟨rfl, rfl, rfl⟩
    · simp only [codecAt, smGet_smPut_other _ _ _ hq]
      exact ⟨trivial, trivial, trivial⟩
  · split <;> exact .of_eq rfl

theorem l2Evict_codecs (s : State) (d : Nat) (y : L2Line) : CodecsKept s (l2Evict s d y) := by
  unfold l2Evict
  extract_lets u bad t
  have hu : CodecsKept s u := .of_eq rfl
  have ht : CodecsKept s t := hu.trans (memWriteLine_codecs ..)
  split
  · exact hu
  · split
    · exact hu.trans (memWriteLine_codecs ..)
    · split
      · exact ht.trans (.of_eq rfl)
      · exact ht

theorem drainRange_codecs (s : State) (a n : Nat) : CodecsKept s (drainRange s a n) :=
  CodecsKept.foldl (fun s d => CodecsKept.foldl (fun s y => l2Evict_codecs s d y) _ s) _ s

/-- The region at the end of its drain. -/
def Codec.drained (c : Codec) : Codec :=
  { c with next := false, ctl := BitVec.ofNat 64 (setBits (setBits c.ctl.toNat 6 1 0) 4 1 (b2n c.next)) }

theorem exec_codecDrainEnd (s : State) {r : Nat} (h : (codecAt s r).ctl.getLsbD 6 = true) : exec (.codecDrainEnd r) s =
    .next (modCodec (drainRange s (codecBase (codecAt s r)) (codecPages (codecAt s r) * 65536)) r Codec.drained) := by
  change execCodecDrainEnd r s = _
  simp only [execCodecDrainEnd, bit_toNat, h, if_true]
  rfl

theorem drained_ctl (c : Codec) : c.drained.ctl.getLsbD 6 = false ∧ c.drained.ctl.getLsbD 4 = c.next := by
  simp only [Codec.drained, BitVec.getLsbD_ofNat, setBits_testBit]
  cases c.next <;> simp [b2n]

end Sys2Proof.Machine

namespace Sys2Proof.Laws
open Sys2Proof Machine

theorem codecsDrain : Sys2Proof.codecsDrain := by
  intro s r v hr hwf c ctl sets budgeted
  have sets_const (c' : Codec) (h : crctlBody s r v = modCodec s r fun _ => c') : sets c' (.crctlWrite r v) :=
    ⟨_, exec_crctlWrite s v hr, by rw [h]; rfl, by rw [h]; exact codecAt_modCodec_same s r _ hwf⟩
  refine ⟨fun h => ?_, fun h6 h4 hv => ?_, fun h6 h4 hv => ?_, fun h6 h4 hv hb => ?_, fun h6 h4 hv hb => ?_, fun h6 => ?_,
    enableBad_empty s r c, enableBad_sound s r c⟩
  · rw [exec_crctlWrite s v hr, crctlBody_eq]
    rcases h with h | ⟨h4, hv⟩
    · rw [if_pos h]
    · rw [if_pos h4, if_pos hv, ite_self]
  · refine sets_const _ ?_
    rw [crctlBody_eq, if_neg (ne_true_of_eq_false h6), if_pos h4, if_neg (ne_true_of_eq_false hv)]
    rfl
  · refine sets_const _ ?_
    rw [crctlBody_eq, if_neg (ne_true_of_eq_false h6), if_neg (ne_true_of_eq_false h4), if_neg (ne_true_of_eq_false hv)]
    rfl
  · have hb' : enableBad s r ((codecAt s r).budgeted v) = true := hb
    refine sets_const _ ?_
    rw [crctlBody_eq, if_neg (ne_true_of_eq_false h6), if_neg (ne_true_of_eq_false h4), if_pos hv, if_pos hb']
    rfl
  · have hb' : enableBad s r ((codecAt s r).budgeted v) = false := hb
    refine sets_const _ ?_
    rw [crctlBody_eq, if_neg (ne_true_of_eq_false h6), if_neg (ne_true_of_eq_false h4), if_pos hv, if_neg (ne_true_of_eq_false hb')]
    rfl
  · obtain ⟨t, ht⟩ : ∃ t, t = drainRange s (codecBase c) (codecPages c * 65536) := ⟨_, rfl⟩
    have hexec : exec (.codecDrainEnd r) s = .next (modCodec t r Codec.drained) := by rw [ht]; exact exec_codecDrainEnd s h6
    have hcells : t.cells = s.cells := ht ▸ (drainRange_frame ..).cells
    have hlines : ∀ d < 8, NoLine (codecBase c) (codecPages c * 65536) d t := fun d hd => ht ▸ noLine_drainRange s _ _ hd
    obtain ⟨hwf', kept⟩ := (ht ▸ drainRange_codecs s _ _ : CodecsKept s t).kept hwf
    obtain ⟨-, hnext, hview⟩ := kept r
    obtain ⟨d6, d4⟩ := drained_ctl (codecAt t r)
    have hat := codecAt_modCodec_same t r Codec.drained hwf'
    refine ⟨_, hexec, hcells, ?_, ?_, ?_, hlines⟩
    · rw [hat, d6]
    · rw [hat, d4, hnext]
    · rw [hat]; exact hview

end Sys2Proof.Laws
end

