-- ==== Sys2Proof/Proofs/ScanChecks.lean ====
section
/-!
Scans: which command acts (R214), and the checks that it makes first (R218, R219, R359, R375).
-/

namespace Sys2Proof.Machine

/-! ### The only command of a die -/

theorem setSys_single {s : State} {d : Nat} {c : SysCmd} (h : (getDie s d).sys = [c]) (e : SysCmd) :
    setSys s d 0 e = modDie s d fun x => { x with sys := [e] } := by
  simp [setSys, modDie, h]

theorem setSys_single_sys {s : State} {d : Nat} {c : SysCmd} (h : (getDie s d).sys = [c]) (e : SysCmd) :
    (getDie (setSys s d 0 e) d).sys = [e] := by simp [setSys, h]

/-- A scan that is neither ended nor held back acts, if it is to make its checks or the cell is its next one. -/
theorem scanFor_single {s : State} {d n : Nat} {c : SysCmd} (h : (getDie s d).sys = [c]) (hl : scanLive c = true)
    (hh : c.held = false) (hn : c.started = true → (scanCells d c).getD c.next 0 = n) : scanFor s d n = some (0, c) := by
  simpa [scanFor, h, findIdx', hl, hh, sysWaits] using hn

theorem scanLive_of {c : SysCmd} (ht : c.trig = 1 ∨ c.trig = 2) (hs : c.status = none) : scanLive c = true := by
  rcases ht with ht | ht <;> simp [scanLive, isScan, ht, hs]

theorem scanBusy_single {s : State} {d : Nat} {c : SysCmd} (h : (getDie s d).sys = [c]) (n : Nat) : scanBusy s d 0 n = false := by
  simp [scanBusy, h]

/-! ### The checks, in their order -/

theorem lineage_congr {s t : State} (h : t.regions = s.regions) (k : Nat) : ∀ p, lineage t p k = lineage s p k := by
  induction k with
  | zero => exact fun _ => rfl
  | succ k ih => intro p; simp only [lineage, regionOf, h, ih]

theorem saveRegion_congr {s t : State} (h : t.regions = s.regions) (p : BitVec 16) (a n : Nat) : saveRegion t p a n = saveRegion s p a n := by
  rw [saveRegion, saveRegion, lineage_congr h]

section Checks

variable (s : State) (out : Bool) (d i b : Nat)

/-- The cells that a block names. -/
def blkCells (d b : Nat) : List Nat := (cellSet d (blkSet b)).getD []

/-- PART owns the named segments of the cells. -/
def blkOwned (s : State) (d b : Nat) : Prop :=
  ∀ m ∈ blkCells d b, ∀ k ∈ namedSegs (blkSegs b), smGet 0 (getCell s m).owners k = BitVec.ofNat 16 (blkPart b)

/-- Every image lies in a SAVE area of PART. -/
def blkInSave (s : State) (d b : Nat) : Prop := ∀ k < (blkCells d b).length,
  (saveRegion s (BitVec.ofNat 16 (blkPart b)) (blkImage b k) (imageBytes (blkSegs b))).isSome = true

theorem scanCheck_unsound (h : blockOk d b ≠ true) : scanCheck s out d i b = (0x14, 0) := by
  unfold scanCheck
  extract_lets ns segs part owns lands inside
  rw [if_pos (by simpa using h)]

variable {s out d i b} (hs : blockOk d b = true)
include hs

theorem scanCheck_alien (h : ¬ blkOwned s d b) : scanCheck s out d i b = (0x11, 0) := by
  unfold scanCheck
  extract_lets ns segs part owns lands inside
  have ho : ns.all owns = false := by
    rw [Bool.eq_false_iff]
    intro ho
    refine h fun m hm k hk => ?_
    simpa using List.all_eq_true.1 (List.all_eq_true.1 ho m hm) k hk
  rw [if_neg (by simp [hs]), if_pos (by simp [ho])]

variable (hown : blkOwned s d b)
include hown

theorem scanCheck_outside (h : ¬ blkInSave s d b) : scanCheck s true d i b = (0x14, 0) := by
  unfold scanCheck
  extract_lets ns segs part owns lands inside
  have ho : ns.all owns = true := List.all_eq_true.2 fun m hm => List.all_eq_true.2 fun k hk => beq_iff_eq.2 (hown m hm k hk)
  have hi : (List.range ns.length).all inside = false := by
    rw [Bool.eq_false_iff]
    exact fun hi => h fun k hk => List.all_eq_true.1 hi k (List.mem_range.2 hk)
  rw [if_neg (by simp [hs]), if_neg (by simp [ho]), if_pos (by simp [hi])]

variable (hsave : out = true → blkInSave s d b)
include hsave

theorem scanCheck_running (h : ∃ m ∈ blkCells d b, (getCell s m).hold = false) : scanCheck s out d i b = (0x15, 0) := by
  unfold scanCheck
  extract_lets ns segs part owns lands inside
  have ho : ns.all owns = true := List.all_eq_true.2 fun m hm => List.all_eq_true.2 fun k hk => beq_iff_eq.2 (hown m hm k hk)
  have hi : out = true → (List.range ns.length).all inside = true := fun e =>
    List.all_eq_true.2 fun k hk => hsave e k (List.mem_range.1 hk)
  have hh : (ns.all fun n => (getCell s n).hold) = false := by
    obtain ⟨m, hm, hf⟩ := h
    rw [Bool.eq_false_iff]
    intro ha
    have := List.all_eq_true.1 ha m hm
    simp [hf] at this
  rw [if_neg (by simp [hs]), if_neg (by simp [ho]), if_neg (by simp; exact fun e => by simpa using hi e), if_pos (by simp [hh])]

omit hsave in
/-- A scan-out on frozen cells passes; with segment 27 a tile landing stops nothing (R219). -/
theorem scanCheck_passes (hsave : blkInSave s d b) (hhold : ∀ m ∈ blkCells d b, (getCell s m).hold = true)
    (h27 : bit (blkSegs b) 27 = true) (hbusy : ∀ n, scanBusy s d i n = false) : scanCheck s true d i b = (0, 0) := by
  unfold scanCheck
  extract_lets ns segs part owns lands inside
  have ho : ns.all owns = true := List.all_eq_true.2 fun m hm => List.all_eq_true.2 fun k hk => beq_iff_eq.2 (hown m hm k hk)
  have hi : (List.range ns.length).all inside = true := List.all_eq_true.2 fun k hk => hsave k (List.mem_range.1 hk)
  have hh : (ns.all fun n => (getCell s n).hold) = true := List.all_eq_true.2 hhold
  have h27' : bit segs 27 = true := h27
  have hb : ns.any (scanBusy s d i) = false := List.any_eq_false.2 fun m _ => by simp [hbusy m]
  rw [if_neg (by simp [hs]), if_neg (by simp [ho]), if_neg (by simp [hi]), if_neg (by simp [hh]), if_neg (by simp [h27']),
    if_neg (by simp [hb]), if_pos rfl]

end Checks

/-! ### The step -/

/-- A scan whose block lies at no multiple of 64 is BADARG. -/
theorem scanStart_unaligned {s : State} {d i : Nat} {c : SysCmd} (h : c.t.toNat % 64 ≠ 0) :
    scanStart s d i c = setSys s d i { c with status := some 0x14 } := by rw [scanStart, if_pos h]

/-- The state after the read of the scan block, and the block. -/
def afterBlock (s : State) (c : SysCmd) : State := ownRead s c.t.toNat 64
@[inherit_doc afterBlock] def readBlock (s : State) (c : SysCmd) : Nat := homeBig (afterBlock s c) c.t.toNat 64

/-- A scan that its checks refuse ends; but for LAYOUT there is no record. -/
theorem scanStart_refused {s : State} {d i st k : Nat} {c : SysCmd} (ht : c.t.toNat % 64 = 0)
    (h : scanCheck (afterBlock s c) (c.trig == 1) d i (readBlock s c) = (st, k)) (h0 : st ≠ 0) (hl : st ≠ 0x12) :
    scanStart s d i c = setSys (afterBlock s c) d i
      { c with blk := BitVec.ofNat 512 (readBlock s c), started := true, status := some st } := by
  unfold readBlock afterBlock at *
  rw [scanStart, if_neg (by omega)]
  dsimp only
  rw [h]
  split
  · rename_i e
    exact absurd (Prod.mk.inj e).1 h0
  · rename_i e
    obtain ⟨rfl, rfl⟩ := Prod.mk.inj e
    rw [if_neg hl]

/-- A scan that passes goes on with its block. -/
theorem scanStart_accepted {s : State} {d i : Nat} {c : SysCmd} (ht : c.t.toNat % 64 = 0)
    (h : scanCheck (afterBlock s c) (c.trig == 1) d i (readBlock s c) = (0, 0)) :
    scanStart s d i c = setSys (afterBlock s c) d i { c with blk := BitVec.ofNat 512 (readBlock s c), started := true } := by
  unfold readBlock afterBlock at *
  rw [scanStart, if_neg (by omega)]
  simp only [h]

theorem exec_scanTransfer_check {s : State} {d : Nat} {c : SysCmd} (n : Nat) (h : (getDie s d).sys = [c])
    (ht : c.trig = 1 ∨ c.trig = 2) (hs : c.status = none) (hh : c.held = false) (hst : c.started = false) :
    exec (.scanTransfer d n) s = .next (scanStart s d 0 c) := by
  change execScanTransfer d n s = _
  rw [execScanTransfer, scanFor_single h (scanLive_of ht hs) hh (by simp [hst])]
  simp [hst]

theorem exec_scanTransfer_move {s : State} {d n : Nat} {c : SysCmd} (h : (getDie s d).sys = [c])
    (ht : c.trig = 1 ∨ c.trig = 2) (hs : c.status = none) (hh : c.held = false) (hst : c.started = true)
    (hn : (scanCells d c)[c.next]? = some n) : exec (.scanTransfer d n) s = .next (scanMove s d 0 c) := by
  change execScanTransfer d n s = _
  rw [execScanTransfer, scanFor_single h (scanLive_of ht hs) hh (by simp [hn])]
  simp [hst]

end Sys2Proof.Machine

namespace Sys2Proof.Laws
open Sys2Proof Machine

theorem scansCheck : Sys2Proof.scansCheck := by
  intro s d n c x u b ns ends sound inSave owned hsys htrig hstatus hheld hstarted
  have hexec := exec_scanTransfer_check n hsys htrig hstatus hheld hstarted
  have frame : HomeFrame s u := ownRead_frame ..
  have husys : (getDie u d).sys = [c] := (frame.sys d).trans hsys
  have hcell (m : Nat) : getCell u m = getCell s m := frame.cell m
  have ends_of {t : State} {e : SysCmd} {st : Nat} (h : scanStart s d 0 c = setSys t d 0 e) (he : e.status = some st)
      (hc : t.cells = s.cells) (ht : (getDie t d).sys = [c]) : ends st :=
    ⟨_, hexec, by rw [h]; exact hc, _, by rw [h]; exact setSys_single_sys ht _, he⟩
  have refused {st : Nat} (ht : c.t.toNat % 64 = 0) (h : scanCheck u (c.trig == 1) d 0 b = (st, 0)) (h0 : st ≠ 0)
      (hl : st ≠ 0x12) : ends st := ends_of (scanStart_refused ht h h0 hl) rfl frame.cells husys
  have howned (h : owned) : blkOwned u d b := fun m hm k hk => by rw [hcell]; exact h m hm k hk
  have hinSave (h : inSave) : blkInSave u d b := fun k hk => by rw [saveRegion_congr frame.regions]; exact h k hk
  refine ⟨fun ht => ?_, fun ht hs => ?_, fun ht hs ho => ?_, fun ht hs ho h1 hi => ?_, fun ht hs ho hi hh => ?_,
    fun ht hs ho hh h1 hi h27 => ?_⟩
  · exact ends_of (scanStart_unaligned ht) rfl rfl hsys
  · exact refused ht (scanCheck_unsound u _ d 0 b hs) (by decide) (by decide)
  · refine refused ht (scanCheck_alien hs fun h => ho fun m hm k hk => ?_) (by decide) (by decide)
    rw [← hcell]
    exact h m hm k hk
  · refine refused ht ?_ (by decide) (by decide)
    rw [h1]
    refine scanCheck_outside hs (howned ho) fun h => hi fun k hk => ?_
    rw [← saveRegion_congr frame.regions]
    exact h k hk
  · refine refused ht (scanCheck_running hs (howned ho) (fun e => hinSave (hi (by simpa using e))) ?_) (by decide) (by decide)
    obtain ⟨m, hm, hf⟩ := hh
    exact ⟨m, hm, by rw [hcell]; exact hf⟩
  · have hcheck : scanCheck u (c.trig == 1) d 0 b = (0, 0) := by
      rw [h1]
      exact scanCheck_passes hs (howned ho) (hinSave hi) (fun m hm => by rw [hcell]; exact hh m hm) h27 (scanBusy_single husys)
    rw [hexec, scanStart_accepted ht hcheck]
    exact congrArg _ (setSys_single husys _)

end Sys2Proof.Laws
end

