-- ==== Sys2Proof/Proofs/CellFrames.lean ====
section
/-!
What the operations on the segments of a cell leave (R350, R357, R361): every die, every other cell, HOLD and the owners of the
cell, and, but for segment 1, its scalar registers and predicates.
-/

namespace Sys2Proof.Machine

/-- A function of the state of a fold that each of its steps keeps. -/
theorem foldl_keeps {α β γ : Type} {f : β → α → β} (g : β → γ) (h : ∀ b a, g (f b a) = g b) (l : List α) :
    ∀ b, g (l.foldl f b) = g b := by
  induction l with
  | nil => exact fun _ => rfl
  | cons x l ih => exact fun b => (ih _).trans (h b x)

/-- A context has the same scalar registers and predicates. -/
structure ScalarsKept (c c' : Ctx) : Prop where
  x : c'.x = c.x
  p : c'.p = c.p

/-- A cell has the same HOLD and owners, and its user context the same scalar registers and predicates. -/
structure CellKept (y z : Cell) : Prop where
  hold : z.hold = y.hold
  owners : z.owners = y.owners
  scalars : ScalarsKept y.user z.user

theorem ScalarsKept.refl (c : Ctx) : ScalarsKept c c := ⟨rfl, rfl⟩

theorem ScalarsKept.trans {c d e : Ctx} (h : ScalarsKept c d) (k : ScalarsKept d e) : ScalarsKept c e := ⟨k.x.trans h.x, k.p.trans h.p⟩

theorem CellKept.trans {x y z : Cell} (h : CellKept x y) (k : CellKept y z) : CellKept x z :=
  ⟨k.hold.trans h.hold, k.owners.trans h.owners, h.scalars.trans k.scalars⟩

theorem ScalarsKept.foldl {α : Type} {f : Ctx → α → Ctx} (h : ∀ c a, ScalarsKept c (f c a)) (l : List α) (c : Ctx) :
    ScalarsKept c (l.foldl f c) :=
  ⟨foldl_keeps Ctx.x (fun c a => (h c a).x) l c, foldl_keeps Ctx.p (fun c a => (h c a).p) l c⟩

theorem CellKept.of_eq {y z : Cell} (hh : z.hold = y.hold) (ho : z.owners = y.owners) (hu : z.user = y.user) : CellKept y z :=
  ⟨hh, ho, hu ▸ .refl _⟩

/-- From s to t no die has changed, no cell but n, and of that neither HOLD nor the owners. -/
structure CellFrame (n : Nat) (s t : State) : Prop where
  dies : t.dies = s.dies
  others : ∀ m, m ≠ n → getCell t m = getCell s m
  hold : (getCell t n).hold = (getCell s n).hold
  owners : (getCell t n).owners = (getCell s n).owners

/-- The same, with the scalar registers and the predicates of the user context. -/
structure ScalarFrame (n : Nat) (s t : State) : Prop extends CellFrame n s t where
  x : (getCell t n).user.x = (getCell s n).user.x
  p : (getCell t n).user.p = (getCell s n).user.p

variable {n : Nat} {s t u : State}

theorem CellFrame.refl (n : Nat) (s : State) : CellFrame n s s := ⟨rfl, fun _ _ => rfl, rfl, rfl⟩

theorem CellFrame.trans (h : CellFrame n s t) (k : CellFrame n t u) : CellFrame n s u :=
  ⟨k.dies.trans h.dies, fun m hm => (k.others m hm).trans (h.others m hm), k.hold.trans h.hold, k.owners.trans h.owners⟩

theorem ScalarFrame.refl (n : Nat) (s : State) : ScalarFrame n s s := ⟨.refl n s, rfl, rfl⟩

theorem ScalarFrame.trans (h : ScalarFrame n s t) (k : ScalarFrame n t u) : ScalarFrame n s u :=
  ⟨h.toCellFrame.trans k.toCellFrame, k.x.trans h.x, k.p.trans h.p⟩

theorem CellFrame.foldl {α : Type} {f : State → α → State} (hf : ∀ s a, CellFrame n s (f s a)) (l : List α) :
    ∀ s, CellFrame n s (l.foldl f s) := by
  induction l with
  | nil => exact fun s => .refl n s
  | cons a l ih => exact fun s => (hf s a).trans (ih _)

theorem ScalarFrame.foldl {α : Type} {f : State → α → State} (l : List α) (hf : ∀ s, ∀ a ∈ l, ScalarFrame n s (f s a)) :
    ∀ s, ScalarFrame n s (l.foldl f s) := by
  induction l with
  | nil => exact fun s => .refl n s
  | cons a l ih => exact fun s => (hf s a (by simp)).trans (ih (fun s b hb => hf s b (by simp [hb])) _)

/-- A change of fields that neither names. -/
theorem ScalarFrame.of_eq (hc : t.cells = s.cells) (hd : t.dies = s.dies) : ScalarFrame n s t := by
  refine ⟨⟨hd, fun m _ => ?_, ?_, ?_⟩, ?_, ?_⟩ <;> simp only [getCell, hc]

theorem CellFrame.modCell {f : Cell → Cell} (hh : (f (getCell s n)).hold = (getCell s n).hold)
    (ho : (f (getCell s n)).owners = (getCell s n).owners) : CellFrame n s (modCell s n f) :=
  ⟨rfl, fun _ hm => getCell_modCell_other s f hm, by rw [getCell_modCell_same, hh], by rw [getCell_modCell_same, ho]⟩

theorem ScalarFrame.modCell {f : Cell → Cell} (h : CellKept (getCell s n) (f (getCell s n))) : ScalarFrame n s (modCell s n f) :=
  ⟨.modCell h.hold h.owners, by rw [getCell_modCell_same, h.scalars.x], by rw [getCell_modCell_same, h.scalars.p]⟩

theorem modCtx_user (s : State) (n : Nat) (f : Ctx → Ctx) : modCtx s n false f = modCell s n fun x => { x with user := f x.user } := rfl

theorem CellFrame.modUser {f : Ctx → Ctx} : CellFrame n s (modCtx s n false f) := by
  rw [modCtx_user]
  exact .modCell rfl rfl

theorem ScalarFrame.modUser {f : Ctx → Ctx} (h : ∀ c, ScalarsKept c (f c)) : ScalarFrame n s (modCtx s n false f) := by
  rw [modCtx_user]
  exact .modCell ⟨rfl, rfl, h _⟩

/-! ### Marks, L1 and records -/

theorem unmarkSeg_frame (s : State) (n seg : Nat) : ScalarFrame n s (unmarkSeg s n seg) := by
  unfold unmarkSeg unmarkAt
  split
  · exact .refl n s
  · exact .modCell (.of_eq rfl rfl rfl)

/-- The writebacks of an L1 enter the channel; nothing else changes. -/
def sendWb (n : Nat) (c : Cell) (s : State) (l : Nat × L1Line) : State :=
  if l.2.words.any fun e => e.2.dirty then
    sendMsg s n l.2.org (.cell n) (homeOf l.2.host l.2.slice (l.1 * 128))
      (.wb (l.1 % 2 ^ 57) (match c.fifo.find? fun e => e.line == l.1 with | some e => e.pos | none => 0)
        (l.2.words.filter fun e => e.2.dirty))
  else s

/-- The cell after its D words have become C. -/
def Cell.cleaned (c : Cell) : Cell :=
  { c with
    l1 := c.l1.map fun l => (l.1, { l.2 with words := l.2.words.map fun w => (w.1, { w.2 with dirty := false, whole := false, orgs := [] }) })
    fifo := [] }

theorem flushL1_eq (s : State) (n : Nat) :
    flushL1 s n = modCell ((getCell s n).l1.foldl (sendWb n (getCell s n)) s) n Cell.cleaned := rfl

theorem sendWb_frame (n m : Nat) (c : Cell) (s : State) (l : Nat × L1Line) : ScalarFrame m s (sendWb n c s l) := by
  unfold sendWb
  split
  · exact .of_eq rfl rfl
  · exact .refl m s

theorem flushL1_frame (s : State) (n : Nat) : ScalarFrame n s (flushL1 s n) := by
  rw [flushL1_eq]
  exact (ScalarFrame.foldl _ (fun s l _ => sendWb_frame n n _ s l) s).trans (.modCell (.of_eq rfl rfl rfl))

theorem appendRecord_kept (id : Nat) (dev : Bool) (v : BitVec 256) (c : Cell) : CellKept c (appendRecord id dev v c) := by
  unfold appendRecord
  extract_lets size
  split
  · exact .of_eq rfl rfl rfl
  · split <;> exact .of_eq rfl rfl rfl

/-- The cell of a frozen interval once its record is filed. -/
def Cell.filed (id : Nat) (v : BitVec 256) (f : Frozen) (c : Cell) : Cell :=
  if bit c.dbg.devctl.toNat f.cause then { c with frozen := some { f with filed := true } }
  else appendRecord id true v { c with frozen := some { f with filed := true } }

theorem filed_kept (id : Nat) (v : BitVec 256) (f : Frozen) (c : Cell) : CellKept c (c.filed id v f) := by
  unfold Cell.filed
  split
  · exact .of_eq rfl rfl rfl
  · obtain ⟨hh, ho, hs⟩ := appendRecord_kept id true v { c with frozen := some { f with filed := true } }
    exact ⟨hh, ho, hs⟩

theorem fileFreeze_eq (s : State) (n : Nat) : fileFreeze s n = s ∨
    ∃ v f, fileFreeze s n = modCell (fresh s) n (Cell.filed (fresh s).seq v f) := by
  unfold fileFreeze
  dsimp only
  split
  · exact .inl rfl
  · split
    · exact .inl rfl
    · exact .inr ⟨_, _, rfl⟩

theorem fileFreeze_frame (s : State) (n : Nat) : ScalarFrame n s (fileFreeze s n) := by
  rcases fileFreeze_eq s n with h | ⟨v, f, h⟩ <;> rw [h]
  · exact .refl n s
  · exact ScalarFrame.trans (t := fresh s) (.of_eq rfl rfl) (.modCell (filed_kept ..))

theorem scanned_frame (s : State) (n segs : Nat) : ScalarFrame n s (scanned s n segs) := by
  unfold scanned
  extract_lets s1 s2
  have h1 : ScalarFrame n s s1 := .modUser fun _ => ⟨rfl, rfl⟩
  have h2 : ScalarFrame n s1 s2 := by
    dsimp only [s2]
    split
    · exact flushL1_frame ..
    · exact .refl n s1
  exact (h1.trans h2).trans (fileFreeze_frame ..)

/-! ### Segments -/

theorem cregPut_kept (k : Nat) (v : Word) (c : Ctx) : ScalarsKept c (cregPut c k v) := ⟨rfl, rfl⟩

theorem sPut_kept (l : SLatch) (v : Word) (c : Ctx) : ScalarsKept c (sPut c l v) := ⟨rfl, rfl⟩

theorem handles_kept (c : Ctx) (ph : SMap Handle) : ScalarsKept c { c with ph := ph } := ⟨rfl, rfl⟩

theorem seqUnpack_kept (v : Nat) (c : Ctx) : ScalarsKept c (seqUnpack v c) := by
  unfold seqUnpack
  extract_lets st
  exact ⟨rfl, rfl⟩

theorem tilePut_kept (v : Nat) (x : Cell) : CellKept x (tilePut v x) := by
  unfold tilePut
  extract_lets k u c put
  have hc : ScalarsKept x.user c := by
    dsimp only [c, u]
    generalize putRange x.user.tiles 0 k (unpackMap 65536 k 0 (field v 0 131072)) = ts
    exact ⟨rfl, rfl⟩
  have hput : ScalarsKept c ((List.range 16).foldl put c) :=
    ScalarsKept.foldl (fun c i => (cregPut_kept _ _ c).trans (cregPut_kept _ _ _)) _ c
  exact ⟨rfl, rfl, hc.trans hput⟩

theorem accSeg_kept (i v : Nat) (x : Cell) : CellKept x (accSeg i v x) := by
  unfold accSeg
  split
  · exact .of_eq rfl rfl rfl
  · extract_lets y
    have hh : y.hold = x.hold := foldl_keeps Cell.hold (fun _ _ => by rfl) _ x
    have ho : y.owners = x.owners := foldl_keeps Cell.owners (fun _ _ => by rfl) _ x
    have hu : y.user = x.user := foldl_keeps Cell.user (fun _ _ => by rfl) _ x
    clear_value y
    exact CellKept.trans (.of_eq hh ho hu) (.of_eq rfl rfl rfl)

/-- What segment CTL changes beside the control registers of the user context. -/
theorem counters_kept (c : Ctx) (scyc rankx ranky : Word) : ScalarsKept c { c with scyc := scyc, rankx := rankx, ranky := ranky } :=
  ⟨rfl, rfl⟩

@[inherit_doc counters_kept] theorem cellRegs_kept {x : Cell} {c : Ctx} (h : ScalarsKept x.user c) (act : Bool) (base size head share : Word) :
    CellKept x { x with ispAct := act, exlbase := base, exlsize := size, exlhead := head, fwshare := share, user := c } :=
  ⟨rfl, rfl, h⟩

theorem ctlUnpack_kept (v : Nat) (x : Cell) : CellKept x (ctlUnpack v x) := by
  unfold ctlUnpack
  extract_lets at_ own c
  have hc : ScalarsKept x.user c := ScalarsKept.foldl (f := fun c k => cregPut c (0x100 + k) (at_ (0x100 + k)))
    (fun c k => cregPut_kept (0x100 + k) (at_ (0x100 + k)) c) own x.user
  clear_value c own at_
  exact cellRegs_kept (hc.trans (counters_kept ..)) ..

theorem tlandPut_kept (v : Nat) (c : Ctx) : ScalarsKept c (tlandPut v c) := by
  unfold tlandPut
  extract_lets xs p tile val
  clear_value xs val tile p
  split
  · exact ⟨rfl, rfl⟩
  · split <;> exact ⟨rfl, rfl⟩

theorem linkUnpack_kept (v : Nat) (x : Cell) : CellKept x (linkUnpack v x) := by
  unfold linkUnpack
  generalize (x.arrivals.filter fun a => !a.sync) ++
      (List.range 12).filterMap (fun k => arrivalUnpack (field v (512 + 192 * k) 192)) = as
  generalize putRange x.user.vl 14 4 (unpackMap 1024 4 14 (field v 0 512)) = vl
  exact ⟨rfl, rfl, ⟨rfl, rfl⟩⟩

theorem putSnaps_frame (s : State) (n : Nat) (c : Ctx) (v : Nat) : ScalarFrame n s (putSnaps s n c v) := by
  unfold putSnaps
  extract_lets was old t img kept live lost one new bs s'
  have hs : ScalarFrame n s s' := .of_eq rfl rfl
  clear_value s' bs new
  exact hs.trans (.modUser fun _ => ⟨rfl, rfl⟩)

/-- What segment LATCH puts into the user context beside its snapshot slots. -/
theorem latches_kept (c : Ctx) (sl : SMap Word) (vl : SMap Vec) (dv : DivState) (a b : BitVec 1056) :
    ScalarsKept c { c with sl := sl, vl := vl, dv := dv, cola := a, colb := b } := ⟨rfl, rfl⟩

theorem latchPut_frame (s : State) (n v : Nat) : ScalarFrame n s (latchPut s n v) := by
  unfold latchPut
  extract_lets sl vl sums u s' slice
  have hs : ScalarFrame n s s' := putSnaps_frame ..
  clear_value s' sl vl slice
  refine hs.trans (.modCell ⟨rfl, rfl, ?_⟩)
  exact (latches_kept ..).trans (sPut_kept ..)

theorem ScalarFrame.ite {p : Prop} [Decidable p] (ht : ScalarFrame n s t) (hu : ScalarFrame n s u) :
    ScalarFrame n s (if p then t else u) := by
  split
  · exact ht
  · exact hu

/-- A segment is put into a cell: but for segment 1, the scalar registers and predicates stay. -/
theorem segPut_frame (s : State) (n seg v : Nat) (h : seg ≠ 1) : ScalarFrame n s (segPut s n seg v) := by
  unfold segPut
  extract_lets user
  refine .ite (.modUser (seqUnpack_kept v)) ?_
  rw [if_neg h]
  refine .ite (.modUser fun _ => ⟨rfl, rfl⟩) ?_
  refine .ite (.modCell (tilePut_kept ..)) ?_
  refine .ite (.modCell (accSeg_kept ..)) ?_
  refine .ite (latchPut_frame ..) ?_
  refine .ite (.modCell (linkUnpack_kept ..)) ?_
  refine .ite (.modUser (ScalarsKept.foldl (fun c k => cregPut_kept _ _ c) _)) ?_
  refine .ite (.modUser (ScalarsKept.foldl (fun c _ => handles_kept c _) _)) ?_
  refine .ite (.refl n s) ?_
  refine .ite (.modCell (.of_eq rfl rfl rfl)) ?_
  refine .ite (.modCell (ctlUnpack_kept ..)) ?_
  refine .ite (.modCell (.of_eq rfl rfl rfl)) ?_
  refine .ite (.modCell (.of_eq rfl rfl rfl)) ?_
  exact .ite (.modUser (tlandPut_kept v)) (.refl n s)

theorem segPut_one (s : State) (n v : Nat) : segPut s n 1 v = modCtx s n false fun c => { c with
    x := unpackMap 64 64 0 (field v 0 512), xs := unpackMap 64 8 0 (field v 512 64), p := BitVec.ofNat 64 (field v 576 8) } := rfl

theorem segPut_cellFrame (s : State) (n seg v : Nat) : CellFrame n s (segPut s n seg v) := by
  by_cases h : seg = 1
  · subst h
    rw [segPut_one]
    exact .modUser
  · exact (segPut_frame s n seg v h).toCellFrame

end Sys2Proof.Machine
end

