-- ==== Sys2Proof/Proofs/Ownership.lean ====
section
/-!
own.wr: segments that change hands (R223, R357).
-/

namespace Sys2Proof.Machine

theorem dropPending_frame (s : State) (n : Nat) : ScalarFrame n s (dropPending s n) := by
  unfold dropPending
  extract_lets s'
  have hs : ScalarFrame n s s' := .modCell ⟨rfl, rfl, ⟨rfl, rfl⟩⟩
  exact hs.trans (.of_eq rfl rfl)

theorem clearSeg_one (s : State) (n : Nat) : clearSeg s n 1 = modCtx s n false fun c => { c with x := [], xs := [], p := 1 } := rfl

/-- A segment takes its value of R231: but for segment 1, the scalar registers and predicates stay. -/
theorem clearSeg_frame (s : State) (n seg : Nat) (h : seg ≠ 1) : ScalarFrame n s (clearSeg s n seg) := by
  unfold clearSeg
  rw [if_neg h]
  refine .ite (.modCell (.of_eq rfl rfl rfl)) ?_
  refine .ite ((segPut_frame s n 15 0 (by decide)).trans (dropPending_frame ..)) ?_
  refine .ite ((segPut_frame s n 16 0 (by decide)).trans (.modCell (.of_eq rfl rfl rfl))) ?_
  refine .ite ((flushL1_frame s n).trans (.modCell (.of_eq rfl rfl rfl))) ?_
  exact segPut_frame s n seg 0 h

theorem clearSeg_cellFrame (s : State) (n seg : Nat) : CellFrame n s (clearSeg s n seg) := by
  by_cases h : seg = 1
  · subst h
    rw [clearSeg_one]
    exact .modUser
  · exact (clearSeg_frame s n seg h).toCellFrame

/-- From s to t a list of segments of cell n has changed hands to partition p: no die and no other cell has changed. -/
structure Handed (n : Nat) (p : BitVec 16) (l : List Nat) (s t : State) : Prop where
  dies : t.dies = s.dies
  others : ∀ m, m ≠ n → getCell t m = getCell s m
  wf : smWf 0 0 (getCell s n).owners = true → smWf 0 0 (getCell t n).owners = true
  owners : smWf 0 0 (getCell s n).owners = true → ∀ k, smGet 0 (getCell t n).owners k = if k ∈ l then p else smGet 0 (getCell s n).owners k

/-- The scalar registers and predicates are those of R231. -/
def ScalarsZero (c : Ctx) : Prop := c.x = [] ∧ c.p = 1

section OneSegment

variable (s : State) (n : Nat) (p : BitVec 16) (seg : Nat)

/-- The segment has its value of R231, and its marks are gone. -/
def handOver (s : State) (n seg : Nat) : State := unmarkSeg (clearSeg s n seg) n seg

theorem handOver_frame : CellFrame n s (handOver s n seg) :=
  (clearSeg_cellFrame s n seg).trans (unmarkSeg_frame ..).toCellFrame

theorem ownSeg_eq : ownSeg s n p seg = if smGet 0 (getCell s n).owners seg = p then s
    else modCell (handOver s n seg) n fun x => { x with owners := smSet 0 x.owners seg p } := rfl

theorem ownSeg_handed : Handed n p [seg] s (ownSeg s n p seg) := by
  rw [ownSeg_eq]
  split
  · rename_i h
    refine ⟨rfl, fun _ _ => rfl, id, fun _ k => ?_⟩
    split
    · rename_i hk
      rw [List.mem_singleton.1 hk, h]
    · rfl
  · have hf := handOver_frame s n seg
    refine ⟨hf.dies, fun m hm => (getCell_modCell_other _ _ hm).trans (hf.others m hm), fun hwf => ?_, fun hwf k => ?_⟩
    · rw [getCell_modCell_same]
      exact smWf_smSet 0 _ seg p (Nat.zero_le _) (hf.owners ▸ hwf)
    · rw [getCell_modCell_same]
      change smGet 0 (smSet 0 (getCell (handOver s n seg) n).owners seg p) k = _
      rw [hf.owners]
      by_cases hk : k = seg
      · subst hk
        rw [smGet_smSet_same 0 _ k p hwf, if_pos (by simp)]
      · rw [smGet_smSet_other 0 _ p hwf hk, if_neg (by simpa using hk)]

theorem ownSeg_scalars (h : seg ≠ 1 ∨ smGet 0 (getCell s n).owners 1 = p) :
    ScalarsKept (getCell s n).user (getCell (ownSeg s n p seg) n).user := by
  rw [ownSeg_eq]
  split
  · exact .refl _
  · rename_i hne
    have h1 : seg ≠ 1 := by
      rintro rfl
      exact hne (h.resolve_left (by simp))
    rw [getCell_modCell_same]
    have hf := (clearSeg_frame s n seg h1).trans (unmarkSeg_frame _ n seg)
    exact ⟨hf.x, hf.p⟩

theorem ownSeg_one (h : smGet 0 (getCell s n).owners 1 ≠ p) : ScalarsZero (getCell (ownSeg s n p 1) n).user := by
  rw [ownSeg_eq, if_neg h, getCell_modCell_same, handOver]
  have hf := unmarkSeg_frame (clearSeg s n 1) n 1
  have hc : getCell (clearSeg s n 1) n = { getCell s n with user := { (getCell s n).user with x := [], xs := [], p := 1 } } := by
    rw [clearSeg_one, modCtx_user, getCell_modCell_same]
  refine ⟨hf.x.trans ?_, hf.p.trans ?_⟩ <;> rw [hc]

end OneSegment

theorem Handed.trans {n : Nat} {p : BitVec 16} {k l : List Nat} {s t u : State} (h : Handed n p k s t) (g : Handed n p l t u) :
    Handed n p (k ++ l) s u := by
  refine ⟨g.dies.trans h.dies, fun m hm => (g.others m hm).trans (h.others m hm), fun hwf => g.wf (h.wf hwf), fun hwf j => ?_⟩
  rw [g.owners (h.wf hwf), h.owners hwf]
  by_cases hk : j ∈ k <;> by_cases hl : j ∈ l <;> simp [hk, hl]

/-- Segments change hands one after the other. -/
def ownSegs (s : State) (n : Nat) (p : BitVec 16) (l : List Nat) : State := l.foldl (fun s k => ownSeg s n p k) s

theorem ownSegs_handed (n : Nat) (p : BitVec 16) (l : List Nat) : ∀ s, Handed n p l s (ownSegs s n p l) := by
  induction l with
  | nil => exact fun s => ⟨rfl, fun _ _ => rfl, id, fun _ k => by simp; rfl⟩
  | cons k l ih => exact fun s => (ownSeg_handed s n p k).trans (ih _)

/-- While segment 1 is the partition's already, its registers stay. -/
theorem ownSegs_scalars (n : Nat) (p : BitVec 16) (l : List Nat) : ∀ s, smWf 0 0 (getCell s n).owners = true →
    smGet 0 (getCell s n).owners 1 = p → ScalarsKept (getCell s n).user (getCell (ownSegs s n p l) n).user := by
  induction l with
  | nil => exact fun s _ _ => .refl _
  | cons k l ih =>
    intro s hwf h1
    have hk := ownSeg_handed s n p k
    refine (ownSeg_scalars s n p k (.inr h1)).trans (ih _ (hk.wf hwf) ?_)
    rw [hk.owners hwf, h1, ite_self]

/-- Segment 1 of another partition is cleared as it changes hands. -/
theorem ownSegs_one (n : Nat) (p : BitVec 16) (l : List Nat) : ∀ s, smWf 0 0 (getCell s n).owners = true → 1 ∈ l →
    smGet 0 (getCell s n).owners 1 ≠ p → ScalarsZero (getCell (ownSegs s n p l) n).user := by
  induction l with
  | nil => intro s _ h; simp at h
  | cons k l ih =>
    intro s hwf hmem h1
    have hk := ownSeg_handed s n p k
    by_cases he : k = 1
    · subst he
      obtain ⟨hx, hp⟩ := ownSeg_one s n p h1
      obtain ⟨kx, kp⟩ := ownSegs_scalars n p l _ (hk.wf hwf) (by rw [hk.owners hwf]; simp)
      exact ⟨kx.trans hx, kp.trans hp⟩
    · refine ih _ (hk.wf hwf) ((List.mem_cons.1 hmem).resolve_left (Ne.symm he)) ?_
      rw [hk.owners hwf, if_neg (by simpa using Ne.symm he)]
      exact h1

theorem mem_namedSegs {m k : Nat} : k ∈ namedSegs m ↔ k < 28 ∧ bit m k = true := by simp [namedSegs]

end Sys2Proof.Machine
end

