-- ==== Sys2Proof/Proofs/Restores.lean ====
section
/-!
What a restore leaves (R361, R362): HOLD of the cell, and the sys commands of every die.
-/

namespace Sys2Proof.Machine

/-- From s to t cell n keeps HOLD, and every die its sys commands. -/
structure HoldFrame (n : Nat) (s t : State) : Prop where
  hold : (getCell t n).hold = (getCell s n).hold
  sys : ∀ d, (getDie t d).sys = (getDie s d).sys

namespace HoldFrame

variable {n : Nat} {s t u : State}

theorem refl (n : Nat) (s : State) : HoldFrame n s s := ⟨rfl, fun _ => rfl⟩

theorem trans (h : HoldFrame n s t) (k : HoldFrame n t u) : HoldFrame n s u :=
  ⟨k.hold.trans h.hold, fun d => (k.sys d).trans (h.sys d)⟩

theorem foldl {α : Type} {f : State → α → State} (l : List α) (hf : ∀ s, ∀ a ∈ l, HoldFrame n s (f s a)) :
    ∀ s, HoldFrame n s (l.foldl f s) := by
  induction l with
  | nil => exact fun s => refl n s
  | cons a l ih => exact fun s => (hf s a (by simp)).trans (ih (fun s b hb => hf s b (by simp [hb])) _)

theorem of_home (h : HomeFrame s t) : HoldFrame n s t := ⟨by rw [h.cell], h.sys⟩

theorem of_cell (h : CellFrame n s t) : HoldFrame n s t := ⟨h.hold, fun d => by simp only [getDie, h.dies]⟩

/-- What happens to another cell. -/
theorem of_other {m : Nat} (h : CellFrame m s t) (hm : n ≠ m) : HoldFrame n s t :=
  ⟨by rw [h.others n hm], fun d => by simp only [getDie, h.dies]⟩

/-- A change of fields that neither names. -/
theorem of_eq (hc : t.cells = s.cells) (hd : t.dies = s.dies) : HoldFrame n s t :=
  ⟨by simp only [getCell, hc], fun d => by simp only [getDie, hd]⟩

theorem ite {p : Prop} [Decidable p] (ht : HoldFrame n s t) (hu : HoldFrame n s u) : HoldFrame n s (if p then t else u) := by
  split
  · exact ht
  · exact hu

/-- A change of a cell that keeps HOLD. -/
theorem modCell (m : Nat) {f : Cell → Cell} (hf : ∀ c, (f c).hold = c.hold) : HoldFrame n s (modCell s m f) := by
  refine ⟨?_, fun _ => rfl⟩
  by_cases h : n = m
  · subst h; rw [getCell_modCell_same, hf]
  · rw [getCell_modCell_other s f h]

end HoldFrame

variable (n : Nat)

/-! ### Charges -/

theorem rcbWrite_hold (s : State) (r : Region) (lo k v : Nat) : HoldFrame n s (rcbWrite s r lo k v) := .of_home (ownWrite_frame ..)

theorem setErem_hold (s : State) (p : BitVec 16) (v : Int) : HoldFrame n s (setErem s p v) := by
  unfold setErem
  split
  · exact .refl n s
  · exact HoldFrame.trans (t := modRegion s p fun r => { r with erem := v }) (.of_eq rfl rfl) (rcbWrite_hold ..)

theorem addErem_hold (s : State) (ps : List (BitVec 16)) (v : Int) : HoldFrame n s (addErem s ps v) := by
  refine HoldFrame.foldl ps (fun s p _ => ?_) s
  split
  · exact setErem_hold ..
  · exact .refl n s

theorem addEcons_hold (s : State) (p : BitVec 16) (v : Word) : HoldFrame n s (addEcons s p v) := by
  refine HoldFrame.foldl _ (fun s r _ => ?_) s
  exact HoldFrame.trans (t := modRegion s r.part fun q => { q with econs := r.econs + v }) (.of_eq rfl rfl) (rcbWrite_hold ..)

theorem chargeCell_hold (s : State) (m : Nat) : HoldFrame n s (chargeCell s m) := by
  unfold chargeCell
  extract_lets x e s1 s2
  have h1 : HoldFrame n s s1 := .modCell m fun _ => rfl
  refine .ite (.refl n s) ?_
  split
  · exact h1
  · extract_lets r s3
    have h2 : HoldFrame n s1 s2 := addEcons_hold n s1 _ _
    have h3 : HoldFrame n s2 s3 := .of_eq rfl rfl
    have h123 := (h1.trans h2).trans h3
    exact .ite h123 (h123.trans (addErem_hold ..))

/-! ### A task that leaves another cell -/

theorem closeFreeze_frame (s : State) (m : Nat) : CellFrame m s (closeFreeze s m) := by
  unfold closeFreeze
  split
  · exact .refl m s
  · exact (fileFreeze_frame s m).toCellFrame.trans (.modCell rfl rfl)

theorem freeAt_other {n m : Nat} (s : State) (h : n ≠ m) : HoldFrame n s (freeAt s m) := by
  unfold freeAt
  extract_lets s'
  have hs : HoldFrame n s s' := by
    refine (HoldFrame.of_other (flushL1_frame s m).toCellFrame h).trans ⟨?_, fun _ => rfl⟩
    rw [getCell_modCell_other _ _ h]
  exact hs.trans (.of_eq rfl rfl)

theorem rebind_hold (s : State) (a segs : Nat) : HoldFrame n s (rebind s n a segs) := by
  unfold rebind
  extract_lets x kd tx ty r
  refine .ite (.refl n s) (.ite (.refl n s) ?_)
  split
  · exact .refl n s
  · rename_i k hk
    extract_lets c old s1 s2
    refine .ite (.refl n s) ?_
    have h1 : HoldFrame n s s1 := by
      refine HoldFrame.trans (t := old.foldl (fun s m => freeAt (closeFreeze (chargeCell s m) m) m) (chargeCell s n)) ?_ (.of_eq rfl rfl)
      refine (chargeCell_hold n s n).trans (HoldFrame.foldl _ (fun s m hm => ?_) _)
      have hne : n ≠ m := by
        rintro rfl
        simp [old] at hm
      exact ((chargeCell_hold n s m).trans (.of_other (closeFreeze_frame ..) hne)).trans (freeAt_other _ hne)
    have h2 : HoldFrame n s1 s2 := .modCell n fun _ => rfl
    exact (h1.trans h2).trans (.of_eq rfl rfl)

/-! ### Restores -/

theorem readImage_frame (s : State) (a segs : Nat) : CellFrame n s (readImage s n a segs) := by
  unfold readImage
  extract_lets have_ s1 s2 s3 s4
  have h1 : CellFrame n s s1 := by
    dsimp only [s1]
    split
    · exact .modUser
    · exact .refl n s
  have h2 : CellFrame n s1 s2 := by
    dsimp only [s2]
    split
    · exact (flushL1_frame s1 n).toCellFrame.trans (.modCell rfl rfl)
    · exact .refl n s1
  have h3 : CellFrame n s2 s3 :=
    CellFrame.foldl (fun s k => (unmarkSeg_frame s n k).toCellFrame.trans (segPut_cellFrame ..)) _ s2
  have h4 : CellFrame n s3 s4 := .modUser
  exact (((h1.trans h2).trans h3).trans h4).trans .modUser

end Sys2Proof.Machine
end

