-- ==== Sys2Proof/Proofs/ImageHeaders.lean ====
section
/-!
The header of an image as a save writes it first (R351, R352): its magic number, and VALID 0.
-/

namespace Sys2Proof.Machine

/-! ### Bounds of the fields -/

theorem crcBit_lt {c : Nat} (h : c < 2 ^ 32) : crcBit c < 2 ^ 32 := by
  unfold crcBit
  split
  · exact Nat.xor_lt_two_pow (by rw [Nat.shiftRight_eq_div_pow]; omega) (by decide)
  · rw [Nat.shiftRight_eq_div_pow]
    omega

theorem crcBits_lt (k : Nat) : ∀ {c : Nat}, c < 2 ^ 32 → crcBits k c < 2 ^ 32 := by
  induction k with
  | zero => exact id
  | succ k ih => exact fun h => ih (crcBit_lt h)

theorem crc32_lt (bs : List Nat) (h : ∀ b ∈ bs, b < 256) : crc32 bs < 2 ^ 32 := by
  have folded (l : List Nat) : ∀ c, (∀ b ∈ l, b < 256) → c < 2 ^ 32 → l.foldl (fun c b => crcBits 8 (c ^^^ b)) c < 2 ^ 32 := by
    induction l with
    | nil => exact fun c _ hc => hc
    | cons b l ih =>
      intro c hl hc
      obtain ⟨hb, hl⟩ := List.forall_mem_cons.1 hl
      exact ih _ hl (crcBits_lt 8 (Nat.xor_lt_two_pow hc (by omega)))
  exact Nat.xor_lt_two_pow (folded bs _ h (by decide)) (by decide)

theorem byteList_lt (d : Nat) : ∀ v, ∀ b ∈ byteList d v, b < 256 := by
  induction d with
  | zero =>
    intro v b hb
    rw [List.mem_singleton.1 hb]
    exact Nat.mod_lt _ (by decide)
  | succ d ih =>
    intro v b hb
    rcases List.mem_append.1 hb with h | h <;> exact ih _ b h

theorem bytesOf_lt (n v : Nat) : ∀ b ∈ bytesOf n v, b < 256 := fun b hb => byteList_lt _ _ b (List.mem_of_mem_take hb)

theorem segLen_le : ∀ k < 28, segLen k ≤ 262144 := by decide

/-- An image has its header, and at most 28 segments. -/
theorem imageBytes_bounds (segs : Nat) : 256 ≤ imageBytes segs ∧ imageBytes segs ≤ 256 + 28 * 262144 := by
  have folded (l : List Nat) : ∀ n, (∀ k ∈ l, k < 28) → n ≤ l.foldl (fun n k => n + segLen k) n ∧
      l.foldl (fun n k => n + segLen k) n ≤ n + l.length * 262144 := by
    induction l with
    | nil => exact fun n _ => ⟨Nat.le_refl n, by simp⟩
    | cons k l ih =>
      intro n hl
      obtain ⟨hk, hl⟩ := List.forall_mem_cons.1 hl
      have h1 := ih (n + segLen k) hl
      have h2 := segLen_le k hk
      simp only [List.foldl_cons, List.length_cons]
      omega
  have hl : (namedSegs segs).length ≤ 28 := by
    simpa [namedSegs] using List.length_filter_le (bit segs) (List.range 28)
  obtain ⟨h1, h2⟩ := folded (namedSegs segs) 256 fun k hk => (mem_namedSegs.1 hk).1
  exact ⟨h1, Nat.le_trans h2 (Nat.add_le_add_left (Nat.mul_le_mul_right _ hl) _)⟩

theorem bits_lt (v lo n : Nat) : bits v lo n < 2 ^ n := Nat.mod_lt _ (Nat.two_pow_pos n)

/-- The fields of a use lie in 48 bits from bit 256. -/
theorem useHeader_eq (use : Nat) : ∃ w < 2 ^ 48, useHeader use = w * 2 ^ 256 := by
  refine ⟨_, ?_, rfl⟩
  have h1 := bits_lt use 41 7
  have h2 := bits_lt use 33 8
  have h3 := bits_lt use 25 8
  have h4 := bits_lt use 17 8
  have h5 := bits_lt use 9 8
  have h6 := bits_lt use 4 5
  have h7 := bits_lt use 0 4
  omega

theorem cellSet_lt {d v n : Nat} {ns : List Nat} (h : cellSet d v = some ns) (hn : n ∈ ns) : n < 2 ^ 12 := by
  unfold cellSet at h
  extract_lets x1 y1 x0 y0 at h
  split at h
  · simp at h
  · rename_i hok
    simp only [not_or] at hok
    obtain ⟨-, hd, hx1, hy1, hy⟩ := hok
    have hx : x1 < 2 ^ 4 := bits_lt v 16 4
    have hd' := bits_lt v 0 4
    obtain rfl := Option.some.inj h
    simp only [List.mem_flatten, List.mem_map, List.mem_range] at hn
    obtain ⟨l, ⟨i, hi, rfl⟩, hn⟩ := hn
    obtain ⟨j, hj, rfl⟩ := List.mem_map.1 hn
    rw [List.mem_range] at hj
    omega

/-- What is put above bit k leaves the bits below. -/
theorem add_shiftLeft_testBit (v w : Nat) {k j : Nat} (h : j < k) : (v + w <<< k).testBit j = v.testBit j := by
  have low (x : Nat) : x.testBit j = (x % 2 ^ k).testBit j := by rw [Nat.testBit_mod_two_pow, decide_eq_true h, Bool.true_and]
  rw [low, Nat.shiftLeft_eq, Nat.add_mul_mod_self_right, ← low]

/-! ### The header -/

/-- The bits of an image below its body are those of its header. -/
theorem imageHeld_testBit (s : State) (n segs part : Nat) (zap : Nat → Nat → Nat) {j : Nat} (hj : j < 2048) :
    (imageHeld s n segs part zap).testBit j = (imageHeader s n segs part (imageBody s n segs zap) 0).testBit j := by
  unfold imageHeld
  exact add_shiftLeft_testBit _ _ hj

section Header

variable (s : State) {n segs part : Nat} (body : Nat) (hn : n < 2 ^ 12) (hsegs : segs < 2 ^ 32) (hpart : part < 2 ^ 16)
include hn hsegs hpart

/-- While VALID is 0 the header is its magic number, fields up to bit 255, and the use. -/
theorem imageHeader_eq : ∃ m < 2 ^ 240, ∃ w < 2 ^ 48, imageHeader s n segs part body 0 = 0x4F43 + m * 2 ^ 16 + w * 2 ^ 256 := by
  obtain ⟨w, hw, use⟩ := useHeader_eq (taskUse s n).1
  have hlen := (imageBytes_bounds segs).2
  have hcrc := crc32_lt _ (bytesOf_lt (imageBytes segs - 256) body)
  have hver := (getCell s n).lver.isLt
  have hk := (taskUse s n).2.isLt
  refine ⟨(getCell s n).lver.toNat + segs * 2 ^ 16 + part * 2 ^ 48 + n * 2 ^ 64 + imageBytes segs * 2 ^ 80 +
    crc32 (bytesOf (imageBytes segs - 256) body) * 2 ^ 112 + (taskUse s n).2.toNat * 2 ^ 176, by omega, w, hw, ?_⟩
  simp only [imageHeader, use]
  omega

theorem imageHeader_lt {k : Nat} (hk : 48 ≤ k) : imageHeader s n segs part body 0 < 2 ^ (256 + k) := by
  obtain ⟨m, hm, w, hw, h⟩ := imageHeader_eq s body hn hsegs hpart
  have h48 : 2 ^ 48 ≤ 2 ^ k := Nat.pow_le_pow_right (by decide) hk
  rw [h, Nat.pow_add]
  omega

theorem imageHeld_magic (zap : Nat → Nat → Nat) : bits (imageHeld s n segs part zap) 0 16 = 0x4F43 := by
  obtain ⟨m, -, w, -, h⟩ := imageHeader_eq s (imageBody s n segs zap) hn hsegs hpart
  calc bits (imageHeld s n segs part zap) 0 16 = bits (imageHeader s n segs part (imageBody s n segs zap) 0) 0 16 := by
        apply Nat.eq_of_testBit_eq
        intro j
        rw [bits_testBit, bits_testBit]
        by_cases hj : j < 16
        · rw [imageHeld_testBit s n segs part zap (by omega)]
        · simp [hj]
    _ = 0x4F43 := by
        rw [h, bits, Nat.shiftRight_zero]
        omega

theorem imageHeld_valid (zap : Nat → Nat → Nat) : bits (imageHeld s n segs part zap) 1984 64 = 0 := by
  apply Nat.eq_of_testBit_eq
  intro j
  rw [bits_testBit, Nat.zero_testBit]
  by_cases hj : j < 64
  · rw [imageHeld_testBit s n segs part zap (by omega), Nat.testBit_eq_false_of_lt, Bool.and_false]
    rw [show 1984 + j = 256 + (1728 + j) by omega]
    exact imageHeader_lt s _ hn hsegs hpart (by omega)
  · simp [hj]

end Header

end Sys2Proof.Machine
end

