-- ==== Sys2Proof/Proofs/Saves.lean ====
section
/-!
A save of an image (R348, R349, R352, R360): the steps of a scan.out, what its writes leave in a plain memory, and when writebacks
of the cell are on their way.
-/

namespace Sys2Proof.Machine

/-! ### What is written -/

theorem imagePart_whole (s : State) (a v len : Nat) : imagePart s a v 0 len = homePutLines s (log2up (len / 128 + 1)) (a / 128) len v := by
  simp [imagePart, homePutBig]

/-- A doubleword of a line whose value is part of a larger one. -/
theorem home64_of_line {s : State} {a v i off : Nat} (ha : a % 128 = 0) (hoff : off < 128) (h8 : off % 8 = 0)
    (hl : homeLine s 0 (a / 128 + i) = bits v (1024 * i) 1024) :
    home64 s (a + (128 * i + off)) = BitVec.ofNat 64 (bits v (1024 * i + 8 * off) 64) := by
  have hd : (a + (128 * i + off)) / 128 = a / 128 + i := by omega
  have hm : (a + (128 * i + off)) % 128 = off := by omega
  rw [home64, homeRead, hd, hm, hl]
  congr 1
  apply Nat.eq_of_testBit_eq
  intro j
  rw [bits_testBit, bits_testBit, bits_testBit]
  by_cases hj : j < 64
  · simp [hj, show 8 * off + j < 1024 by omega, Nat.add_assoc]
  · simp [hj]

section Written

variable {s : State} (hp : plainMemory s) {a len : Nat} (v : Nat) (ha : a % 128 = 0) (hlen : 256 ≤ len) (hend : a + len ≤ 2 ^ 40)
include hp ha hlen hend

/-- The first and the last doubleword of the header, as they are written. -/
theorem imagePart_plain : plainMemory (imagePart s a v 0 len) ∧ home64 (imagePart s a v 0 len) a = BitVec.ofNat 64 (bits v 0 64) ∧
    home64 (imagePart s a v 0 len) (a + 248) = BitVec.ofNat 64 (bits v 1984 64) := by
  rw [imagePart_whole]
  have hlines := le_two_pow_log2up (len / 128 + 1)
  obtain ⟨hp', -, hin⟩ := homePutLines_plain (log2up (len / 128 + 1)) (a / 128) len v hp
  exact ⟨hp', home64_of_line (i := 0) (off := 0) ha (by omega) (by omega) (hin 0 (by omega) (by omega) (by omega)),
    home64_of_line (i := 1) (off := 120) ha (by omega) (by omega) (hin 1 (by omega) (by omega) (by omega))⟩

end Written

/-- VALID is written; the magic number, which lies in another line, stays. -/
theorem imageValid_plain {s : State} (hp : plainMemory s) {a : Nat} (ha : a % 128 = 0) (hend : a + 256 ≤ 2 ^ 40) :
    home64 (imageValid s a 1) (a + 248) = 1 ∧ home64 (imageValid s a 1) a = home64 s a := by
  unfold imageValid
  exact ⟨home64_homeWriteN_same hp 1 (by omega) (by omega), home64_homeWriteN_other hp 1 (by omega) (by omega) (by omega)⟩

theorem imageValid_frame (s : State) (a v : Nat) : HomeFrame s (imageValid s a v) := homeWriteN_frame ..

/-! ### What was read -/

theorem sendWb_homes (n : Nat) (c : Cell) (s : State) (l : Nat × L1Line) : HomesSame s (sendWb n c s l) := by
  unfold sendWb
  split
  · exact .of_eq rfl rfl rfl rfl
  · exact .refl s

theorem flushL1_homes (s : State) (n : Nat) : HomesSame s (flushL1 s n) := by
  rw [flushL1_eq]
  exact (HomesSame.foldl (sendWb_homes n _) _ s).trans (.of_eq rfl rfl rfl rfl)

theorem fileFreeze_homes (s : State) (n : Nat) : HomesSame s (fileFreeze s n) := by
  rcases fileFreeze_eq s n with h | ⟨v, f, h⟩ <;> rw [h]
  · exact .refl s
  · exact .of_eq rfl rfl rfl rfl

/-- The cell once its walk is abandoned. -/
def walkLess (s : State) (n : Nat) : State := modCtx s n false fun c => { c with walk := none }

theorem scanned_eq (s : State) (n segs : Nat) :
    scanned s n segs = fileFreeze (if bit segs 19 then flushL1 (walkLess s n) n else walkLess s n) n := rfl

theorem scanned_homes (s : State) (n segs : Nat) : HomesSame s (scanned s n segs) := by
  have h0 : HomesSame s (walkLess s n) := .of_eq rfl rfl rfl rfl
  rw [scanned_eq]
  split
  · exact (h0.trans (flushL1_homes ..)).trans (fileFreeze_homes ..)
  · exact h0.trans (fileFreeze_homes ..)

/-! ### Writebacks on their way -/

/-- Some word of a line is D. -/
def dirtyLine (l : Nat × L1Line) : Bool := l.2.words.any fun e => e.2.dirty

theorem wbOut_congr {s t : State} (h : t.chan = s.chan) (n : Nat) : wbOut t n = wbOut s n := by simp only [wbOut, h]

theorem wbOut_sendWb (n : Nat) (c : Cell) (s : State) (l : Nat × L1Line) : wbOut (sendWb n c s l) n = (wbOut s n || dirtyLine l) := by
  unfold sendWb dirtyLine
  split
  · rename_i h
    simp [wbOut, sendMsg, h, fresh]
  · rename_i h
    simp [h]

theorem wbOut_foldl (n : Nat) (c : Cell) (ls : List (Nat × L1Line)) : ∀ s,
    wbOut (ls.foldl (sendWb n c) s) n = (wbOut s n || ls.any dirtyLine) := by
  induction ls with
  | nil => simp
  | cons l ls ih =>
    intro s
    rw [List.foldl_cons, ih, wbOut_sendWb, List.any_cons, Bool.or_assoc]

theorem wbOut_flushL1 (s : State) (n : Nat) : wbOut (flushL1 s n) n = (wbOut s n || (getCell s n).l1.any dirtyLine) := by
  rw [flushL1_eq, ← wbOut_foldl n (getCell s n)]
  exact wbOut_congr rfl n

theorem wbOut_fileFreeze (s : State) (n m : Nat) : wbOut (fileFreeze s n) m = wbOut s m := by
  rcases fileFreeze_eq s n with h | ⟨v, f, h⟩ <;> rw [h]
  exact wbOut_congr rfl m

/-- A scan that read a cell has writebacks of it on their way when there were some, or when it named L1 and some word was D. -/
theorem wbOut_scanned (s : State) (n segs : Nat) :
    wbOut (scanned s n segs) n = (wbOut s n || bit segs 19 && (getCell s n).l1.any dirtyLine) := by
  have h0 : wbOut (walkLess s n) n = wbOut s n := wbOut_congr rfl n
  rw [scanned_eq, wbOut_fileFreeze]
  by_cases h19 : bit segs 19 = true
  · have hl : (getCell (walkLess s n) n).l1 = (getCell s n).l1 := by rw [walkLess, modCtx_user, getCell_modCell_same]
    rw [if_pos h19, wbOut_flushL1, h0, hl, h19, Bool.true_and]
  · rw [if_neg h19, h0, eq_false_of_ne_true h19, Bool.false_and, Bool.or_false]

theorem any_dirtyLine (ls : List (Nat × L1Line)) : ls.any dirtyLine = false ↔ ∀ e ∈ ls, ∀ w ∈ e.2.words, w.2.dirty = false := by
  simp [dirtyLine]

/-- A quiescent cell has no message on its way. -/
theorem wbOut_quiescent {s : State} {n : Nat} (h : quiescent s n = true) : wbOut s n = false := by
  have hc : s.chan.any (fun m => m.cell == n) = false := by
    simp only [quiescent, Bool.and_eq_true, Bool.not_eq_true'] at h
    exact h.1.2
  rw [wbOut, List.any_eq_false]
  intro m hm
  have := List.any_eq_false.1 hc m hm
  simp [this]

/-! ### The steps of a scan.out -/

/-- The command once it has moved an image (R348, R352). -/
def SysCmd.moved (d : Nat) (c : SysCmd) : SysCmd :=
  { c with
    next := c.next + 1
    cells := c.cells + 1
    stage := none
    status := if c.next + 1 = (scanCells d c).length then some 0 else c.status }

/-- The address and the length of the image that a scan is at. -/
def SysCmd.image (c : SysCmd) : Nat := blkImage c.blk.toNat c.next
@[inherit_doc SysCmd.image] def SysCmd.length (c : SysCmd) : Nat := imageBytes (blkSegs c.blk.toNat)

/-- Where the save of the rest of an image meets a page whose pin fails (R359). -/
def saveFails (s : State) (c : SysCmd) (off : Nat) : Option Nat :=
  pinFails s (BitVec.ofNat 16 (blkPart c.blk.toNat)) (c.image + off) (c.length - off)

/-- The image of a cell as it is written first. -/
def heldImage (s : State) (n : Nat) (c : SysCmd) : Nat :=
  imageHeld s n (blkSegs c.blk.toNat) (blkPart c.blk.toNat) fun _ v => v

/-- The state once the image is written and the cell is read. -/
def savedCell (s : State) (n : Nat) (c : SysCmd) : State :=
  scanned (imagePart s c.image (heldImage s n c) 0 c.length) n (blkSegs c.blk.toNat)

/-- A scan whose writebacks are performed writes VALID and moves on. -/
def saveEnds (s : State) (d n v : Nat) (c : SysCmd) : State :=
  if wbOut s n then setSys s d 0 { c with stage := some (v, c.length) } else setSys (imageValid s c.image 1) d 0 (c.moved d)

/-- Of nothing no pin fails. -/
theorem pinFails_empty (s : State) (p : BitVec 16) (a : Nat) : pinFails s p a 0 = none := by
  unfold pinFails
  split
  · rfl
  · rw [List.find?_eq_none]
    intro b hb
    obtain ⟨k, -, rfl⟩ := List.mem_map.1 hb
    simp only [Bool.and_eq_true, decide_eq_true_eq, not_and]
    omega

section Steps

variable {s : State} {d n : Nat} {c : SysCmd}

theorem moved_eq (d : Nat) (c : SysCmd) : c.moved d =
    if ({ c with next := c.next + 1, cells := c.cells + 1, stage := none } : SysCmd).next = (scanCells d c).length then
      { c with next := c.next + 1, cells := c.cells + 1, stage := none, status := some 0 }
    else { c with next := c.next + 1, cells := c.cells + 1, stage := none } := by
  unfold SysCmd.moved
  split <;> rfl

variable (hn : (scanCells d c)[c.next]? = some n)
include hn

theorem scanMove_in (ht : c.trig = 2) : scanMove s d 0 c =
    setSys (rebind (readImage s n c.image (blkSegs c.blk.toNat)) n c.image (blkSegs c.blk.toNat)) d 0 (c.moved d) := by
  rw [moved_eq]
  simp only [scanMove, List.getD_eq_getElem?_getD, hn, ht]
  rfl

variable (ht : c.trig = 1)
include ht

theorem scanMove_waits (hs : c.stage = none) (hq : quiescent s n = false) : scanMove s d 0 c = s := by
  simp [scanMove, hn, ht, hs, hq]

theorem scanMove_held (hs : c.stage = none) (hq : quiescent s n = true) {p : Nat} (hp : saveFails s c 0 = some p) :
    scanMove s d 0 c = setSys (saveFault (imagePart s c.image (heldImage s n c) 0 (p - c.image)) n p) d 0
      { c with held := true, stage := some (heldImage s n c, p - c.image) } := by
  unfold saveFails SysCmd.image SysCmd.length at *
  simp only [scanMove, List.getD_eq_getElem?_getD, hn, ht, hs, hq, Option.getD_some, Option.getD_none, hp]
  rfl

theorem scanMove_saves (hs : c.stage = none) (hq : quiescent s n = true) (hp : saveFails s c 0 = none) :
    scanMove s d 0 c = saveEnds (savedCell s n c) d n (heldImage s n c) c := by
  have hlen := (imageBytes_bounds (blkSegs c.blk.toNat)).1
  unfold saveFails SysCmd.image SysCmd.length at hp
  rw [saveEnds, moved_eq]
  simp only [scanMove, List.getD_eq_getElem?_getD, hn, ht, hs, hq, Option.getD_some, Option.getD_none, hp,
    if_pos (show 0 < imageBytes (blkSegs c.blk.toNat) by omega)]
  rfl

theorem scanMove_resumes {v : Nat} (hs : c.stage = some (v, c.length)) : scanMove s d 0 c = saveEnds s d n v c := by
  have hp : saveFails s c c.length = none := by rw [saveFails, Nat.sub_self, pinFails_empty]
  unfold saveFails SysCmd.image SysCmd.length at *
  rw [saveEnds, moved_eq]
  simp only [scanMove, List.getD_eq_getElem?_getD, hn, ht, hs, Option.getD_some, Option.isNone_some, Bool.and_false,
    Bool.false_eq_true, if_false, if_true, hp, Nat.lt_irrefl]
  rfl

end Steps

end Sys2Proof.Machine
end

