-- ==== Sys2Proof/Proofs/ScanMoves.lean ====
section
/-!
The transfers of a scan (R253, R348 to R352, R360, R361).
-/

namespace Sys2Proof.Machine

/-! ### Scalar registers from an image -/

/-- A map made of the nonzero values below a number of places gives each place its value. -/
theorem smGet_filterMap_range {w : Nat} (f : Nat → BitVec w) (i m : Nat) : ∀ lo,
    smGet 0 ((List.range' lo m).filterMap fun k => if f k = 0 then none else some (k, f k)) i =
      if lo ≤ i ∧ i < lo + m then f i else 0 := by
  induction m with
  | zero =>
    intro lo
    rw [if_neg (by omega)]
    rfl
  | succ m ih =>
    intro lo
    rw [List.range'_succ, List.filterMap_cons]
    by_cases h0 : f lo = 0
    · rw [if_pos h0, ih]
      by_cases hi : i = lo
      · subst hi; simp [h0]
      · congr 1
        simp only [eq_iff_iff]
        omega
    · rw [if_neg h0]
      simp only [smGet]
      by_cases hi : i = lo
      · subst hi; simp
      · rw [if_neg hi]
        by_cases hlt : i < lo
        · rw [if_pos hlt, if_neg (by omega)]
        · rw [if_neg hlt, ih]
          congr 1
          simp only [eq_iff_iff]
          omega

theorem smGet_unpackMap (w n v i : Nat) (h : i < n) : smGet 0 (unpackMap w n 0 v) i = BitVec.ofNat w (v >>> (w * i)) := by
  have hr : unpackMap w n 0 v = (List.range' 0 n).filterMap fun k =>
      if BitVec.ofNat w (v >>> (w * k)) = 0 then none else some (k, BitVec.ofNat w (v >>> (w * k))) := by
    simp only [unpackMap, Nat.zero_add, List.range_eq_range']
  rw [hr, smGet_filterMap_range fun k => BitVec.ofNat w (v >>> (w * k)), if_pos (by omega)]

theorem ofNat_field_shift (v i : Nat) (h : i < 64) : BitVec.ofNat 64 (field v 0 512 >>> (64 * i)) = BitVec.ofNat 64 (field v (8 * i) 8) := by
  apply BitVec.eq_of_getLsbD_eq
  intro j hj
  rw [BitVec.getLsbD_ofNat, BitVec.getLsbD_ofNat, Nat.testBit_shiftRight, field, field, bits_testBit, bits_testBit]
  simp only [show 64 * i + j < 8 * 512 by omega, show j < 8 * 8 by omega, decide_true, Bool.true_and]
  congr 1
  omega

/-- A restore of the scalar registers alone from an image that holds them alone. -/
theorem readImage_scalars (s : State) (n : Nat) {a : Nat} (ha : a % 128 = 0) (hh : bits (homeBig s a 256) 32 32 = 2) (i : Nat) (hi : i < 64) :
    smGet 0 (getCell (readImage s n a 2) n).user.x i = home64 s (a + 256 + 8 * i) := by
  have segs : namedSegs 2 = [1] := by decide
  have off : segOffset 2 1 = 256 := by decide
  have hx : (getCell (readImage s n a 2) n).user.x = unpackMap 64 64 0 (field (homeBig s (a + 256) 640) 0 512) := by
    unfold readImage
    extract_lets have_ s1 s2 s3 s4
    have h15 : s1 = s := if_neg (by decide)
    have h19 : s2 = s1 := if_neg (by decide)
    have h3 : s3 = segPut (unmarkSeg s2 n 1) n 1 (homeBig s2 (a + segOffset have_ 1) (segLen 1)) := by
      dsimp only [s3]
      rw [segs]
      rfl
    have h4 : ScalarFrame n s3 s4 := .modUser fun c => by
      extract_lets c'
      have hc : ScalarsKept c c' := by
        dsimp only [c']
        split
        · exact .refl c
        · exact ⟨rfl, rfl⟩
      exact ⟨hc.x, hc.p⟩
    have h5 : ScalarFrame n s4 (modCtx s4 n false (dropStale (fetchCtx s4 n false) 2)) := .modUser fun _ => ⟨rfl, rfl⟩
    rw [h5.x, h4.x, h3, h19, h15, show have_ = 2 from hh, off, segPut_one, modCtx_user, getCell_modCell_same]
    rfl
  rw [hx, smGet_unpackMap 64 64 _ i hi, ofNat_field_shift _ i hi, field_homeBig s (by omega) (by omega), home64]

/-- Without SEQ and CTL a restore takes no task with it. -/
theorem rebind_scalars (s : State) (n a : Nat) : rebind s n a 2 = s := by
  unfold rebind
  exact if_pos (by decide)

/-! ### What a transfer leaves -/

theorem saveFault_cells (s : State) (n a : Nat) : (saveFault s n a).cells = s.cells ∧ (saveFault s n a).dies = s.dies := by
  unfold saveFault fileHyper
  dsimp only
  split <;> exact ⟨rfl, rfl⟩

theorem SysCmd.length_ge (c : SysCmd) : 256 ≤ c.length := (imageBytes_bounds _).1

/-- A transfer that keeps the cell's HOLD and scalar registers. -/
structure Saved (n : Nat) (s t : State) : Prop where
  hold : (getCell t n).hold = (getCell s n).hold
  x : (getCell t n).user.x = (getCell s n).user.x
  sys : ∀ d, (getDie t d).sys = (getDie s d).sys

theorem savedCell_saved (s : State) (n : Nat) (c : SysCmd) : Saved n s (savedCell s n c) := by
  have h1 := imagePart_frame s c.image (heldImage s n c) 0 c.length
  have h2 := scanned_frame (imagePart s c.image (heldImage s n c) 0 c.length) n (blkSegs c.blk.toNat)
  exact ⟨by rw [savedCell, h2.hold, h1.cell], by rw [savedCell, h2.x, h1.cell], fun d => by
    rw [savedCell, getDie, h2.dies]
    exact h1.sys d⟩

theorem Saved.home {n : Nat} {s t u : State} (h : Saved n s t) (k : HomeFrame t u) : Saved n s u :=
  ⟨by rw [k.cell, h.hold], by rw [k.cell, h.x], fun d => (k.sys d).trans (h.sys d)⟩

theorem extract_ofNat_bits (v : Nat) : (BitVec.ofNat 64 (bits v 0 64)).extractLsb' 0 16 = BitVec.ofNat 16 (bits v 0 16) := by
  apply BitVec.eq_of_getLsbD_eq
  intro j hj
  simp only [BitVec.getLsbD_extractLsb', BitVec.getLsbD_ofNat, bits_testBit, hj, Nat.zero_add, show j < 64 by omega, decide_true, Bool.true_and]

/-- The header as a save writes it first: the magic number, and VALID 0. -/
theorem savedCell_plain {s : State} {d n : Nat} {c : SysCmd} (hn : (scanCells d c)[c.next]? = some n) (ha : c.image % 128 = 0)
    (hp : plainMemory s) (hend : c.image + c.length ≤ 2 ^ 40) : plainMemory (savedCell s n c) ∧
      (home64 (savedCell s n c) c.image).extractLsb' 0 16 = 0x4F43 ∧ home64 (savedCell s n c) (c.image + 248) = 0 := by
  have hcell : n < 2 ^ 12 := by
    unfold scanCells at hn
    cases hs : cellSet d (blkSet c.blk.toNat) with
    | none => simp [hs] at hn
    | some ns =>
      rw [hs] at hn
      exact cellSet_lt hs (List.mem_of_getElem? hn)
  have hsegs : blkSegs c.blk.toNat < 2 ^ 32 := bits_lt ..
  have hpart : blkPart c.blk.toNat < 2 ^ 16 := bits_lt ..
  have hlen := c.length_ge
  obtain ⟨hp1, hmagic, hvalid⟩ := imagePart_plain hp (heldImage s n c) ha hlen hend
  have hsame := scanned_homes (imagePart s c.image (heldImage s n c) 0 c.length) n (blkSegs c.blk.toNat)
  refine ⟨hsame.plain hp1, ?_, ?_⟩
  · rw [savedCell, hsame.home64, hmagic, extract_ofNat_bits, heldImage, imageHeld_magic s hcell hsegs hpart]
    rfl
  · rw [savedCell, hsame.home64, hvalid, heldImage, imageHeld_valid s hcell hsegs hpart]
    rfl

/-- Writebacks are on their way after a save just when it named L1 and some word was D. -/
theorem wbOut_savedCell {s : State} {n : Nat} {c : SysCmd} (hq : quiescent s n = true) : wbOut (savedCell s n c) n = false ↔
    (bit (blkSegs c.blk.toNat) 19 = true → ∀ e ∈ (getCell s n).l1, ∀ w ∈ e.2.words, w.2.dirty = false) := by
  have frame := imagePart_frame s c.image (heldImage s n c) 0 c.length
  rw [savedCell, wbOut_scanned, wbOut_congr frame.chan, wbOut_quiescent hq, frame.cell, Bool.false_or, ← any_dirtyLine]
  cases bit (blkSegs c.blk.toNat) 19 <;> simp

theorem setSys_cells (s : State) (d i : Nat) (e : SysCmd) : (setSys s d i e).cells = s.cells := rfl

theorem setSys_cell (s : State) (d i : Nat) (e : SysCmd) (n : Nat) : getCell (setSys s d i e) n = getCell s n := rfl

section Ends

variable {s : State} {d n : Nat} (v : Nat) {c : SysCmd}

theorem saveEnds_cells : (saveEnds s d n v c).cells = s.cells := by
  unfold saveEnds
  split
  · exact setSys_cells ..
  · exact (setSys_cells ..).trans (imageValid_frame s c.image 1).cells

theorem saveEnds_waits (hsys : (getDie s d).sys = [c]) (hwb : wbOut s n = true) :
    (getDie (saveEnds s d n v c) d).sys = [{ c with stage := some (v, c.length) }] ∧ HomesSame s (saveEnds s d n v c) := by
  rw [saveEnds, if_pos hwb]
  exact ⟨setSys_single_sys hsys _, .setSys ..⟩

theorem saveEnds_moves (hsys : (getDie s d).sys = [c]) (hwb : wbOut s n = false) : (getDie (saveEnds s d n v c) d).sys = [c.moved d] ∧
    (plainMemory s → c.image % 128 = 0 → c.image + c.length ≤ 2 ^ 40 →
      home64 (saveEnds s d n v c) (c.image + 248) = 1 ∧ home64 (saveEnds s d n v c) c.image = home64 s c.image) := by
  rw [saveEnds, if_neg (by simp [hwb])]
  have frame := imageValid_frame s c.image 1
  have hlen := c.length_ge
  refine ⟨setSys_single_sys ((frame.sys d).trans hsys) _, fun hp ha hend => ?_⟩
  rw [(HomesSame.setSys ..).home64, (HomesSame.setSys ..).home64]
  exact imageValid_plain hp ha (by omega)

end Ends

end Sys2Proof.Machine

namespace Sys2Proof.Laws
open Sys2Proof Machine

theorem scansMove : Sys2Proof.scansMove := by
  intro s d n c x b ns a len plain moved clean same hsys hstatus hheld hstarted hn ha
  have hmoved : c.moved d = moved := rfl
  have hexec (ht : c.trig = 1 ∨ c.trig = 2) : exec (.scanTransfer d n) s = .next (scanMove s d 0 c) :=
    exec_scanTransfer_move hsys ht hstatus hheld hstarted hn
  have hfails : saveFails s c 0 = pinFails s (BitVec.ofNat 16 (blkPart b)) a len := rfl
  have same_of {t : State} (hh : (getCell t n).hold = (getCell s n).hold) (hx : (getCell t n).user.x = (getCell s n).user.x) : same t :=
    ⟨hh, fun i => by rw [hx]⟩
  refine ⟨fun ht hs hq => ?_, fun ht hs hq hpin => ?_, fun v ht hs => ?_, fun ht hs hq hpin => ?_, fun ht => ?_⟩
  · rw [hexec (.inl ht), scanMove_waits hn ht hs hq]
  · have hsaved := savedCell_saved s n c
    have hsys1 : (getDie (savedCell s n c) d).sys = [c] := (hsaved.sys d).trans hsys
    have hclean : wbOut (savedCell s n c) n = false ↔ clean := wbOut_savedCell hq
    have hcell : getCell (saveEnds (savedCell s n c) d n (heldImage s n c) c) n = getCell (savedCell s n c) n := by
      simp only [getCell, saveEnds_cells]
    refine ⟨_, (hexec (.inl ht)).trans (congrArg _ (scanMove_saves hn ht hs hq (hfails.trans hpin))),
      same_of (by rw [hcell, hsaved.hold]) (by rw [hcell, hsaved.x]), fun h => ?_, fun h => ?_⟩
    · obtain ⟨hs1, hh⟩ := saveEnds_moves (heldImage s n c) hsys1 (hclean.2 h)
      refine ⟨hmoved ▸ hs1, fun hp => ?_⟩
      obtain ⟨hp1, hmagic, -⟩ := savedCell_plain hn ha hp.1 hp.2
      obtain ⟨hvalid, hkept⟩ := hh hp1 ha hp.2
      exact ⟨hvalid, (congrArg _ hkept).trans hmagic⟩
    · obtain ⟨hs1, hh⟩ := saveEnds_waits (heldImage s n c) hsys1 (eq_true_of_ne_false fun e => h (hclean.1 e))
      refine ⟨_, hs1, fun hp => ?_⟩
      obtain ⟨-, hmagic, hvalid⟩ := savedCell_plain hn ha hp.1 hp.2
      exact ⟨(hh.home64 _).trans hvalid, (congrArg _ (hh.home64 _)).trans hmagic⟩
  · have hstage : ({ c with stage := some (v, c.length) } : SysCmd) = c := by
      rw [← show c.stage = some (v, c.length) from hs]
    refine ⟨_, (hexec (.inl ht)).trans (congrArg _ (scanMove_resumes hn ht hs)), saveEnds_cells v, fun hwb => ?_, fun hwb => ?_⟩
    · obtain ⟨hs1, hh⟩ := saveEnds_waits v hsys hwb
      exact ⟨hstage ▸ hs1, hh.mem⟩
    · obtain ⟨hs1, hh⟩ := saveEnds_moves v hsys hwb
      exact ⟨hmoved ▸ hs1, fun hp => (hh hp.1 ha hp.2).1⟩
  · obtain ⟨p, hp⟩ := Option.isSome_iff_exists.1 hpin
    have frame := imagePart_frame s c.image (heldImage s n c) 0 (p - c.image)
    obtain ⟨hcells, hdies⟩ := saveFault_cells (imagePart s c.image (heldImage s n c) 0 (p - c.image)) n p
    have hsys1 : (getDie (saveFault (imagePart s c.image (heldImage s n c) 0 (p - c.image)) n p) d).sys = [c] := by
      rw [getDie, hdies]
      exact (frame.sys d).trans hsys
    exact ⟨_, _, (hexec (.inl ht)).trans (congrArg _ (scanMove_held hn ht hs hq (hfails.trans hp))), setSys_single_sys hsys1 _, rfl,
      hstatus, rfl, rfl, hcells.trans frame.cells⟩
  · have hread : CellFrame n s (readImage s n c.image (blkSegs b)) := readImage_frame n s c.image (blkSegs b)
    have hheld : HoldFrame n s (rebind (readImage s n c.image (blkSegs b)) n c.image (blkSegs b)) :=
      (HoldFrame.of_cell hread).trans (rebind_hold n _ c.image _)
    refine ⟨_, (hexec (.inr ht)).trans (congrArg _ (scanMove_in hn ht)), ?_, hheld.hold, fun h2 hh i hi => ?_⟩
    · exact hmoved ▸ setSys_single_sys ((hheld.sys d).trans hsys) (c.moved d)
    · rw [← readImage_scalars s n ha hh i hi, setSys_cell, h2, rebind_scalars]
      rfl

end Sys2Proof.Laws
end

