-- ==== Sys2Proof/Proofs/CommandSteps.lean ====
section
/-!
How sys commands end (R214, R215, R258): which command acts, and what an end leaves beside the list of its die.
-/

namespace Sys2Proof.Machine

/-! ### Ends -/

/-- A cell without its store buffer and markers, which a release enters. -/
def Cell.bare (y : Cell) : Cell := { y with storeb := [], markers := [] }

/-- From u to t no region has changed, no cell but in its store buffer and markers, and of the die no more than its list of commands. -/
structure Ended (d : Nat) (u t : State) : Prop where
  bare : ∀ n, (getCell t n).bare = (getCell u n).bare
  regions : t.regions = u.regions
  die : ∃ l, getDie t d = { getDie u d with sys := l }

theorem Ended.migctl {d : Nat} {u t : State} (h : Ended d u t) : (getDie t d).migctl = (getDie u d).migctl := by
  obtain ⟨l, h⟩ := h.die
  rw [h]

theorem Ended.cos {d : Nat} {u t : State} (h : Ended d u t) : (getDie t d).cos = (getDie u d).cos := by
  obtain ⟨l, h⟩ := h.die
  rw [h]

/-- A field that the store buffer and the markers are no part of. -/
theorem Ended.cell {d : Nat} {u t : State} (h : Ended d u t) {α : Type} (f : Cell → α) (hf : ∀ y : Cell, f y.bare = f y) (n : Nat) :
    f (getCell t n) = f (getCell u n) := by rw [← hf, h.bare, hf]

theorem modSys_ended (u : State) (d : Nat) (f : List SysCmd → List SysCmd) : Ended d u (modDie u d fun x => { x with sys := f x.sys }) :=
  ⟨fun _ => rfl, rfl, _, getDie_modDie_same ..⟩

/-- The release that the record of a command waits for enters the store buffer of its cell (R258). -/
def recordRelease (u : State) (n : Nat) : State := pushMarker u n 3 false true

theorem recordRelease_eq (u : State) (n : Nat) : recordRelease u n = modCell (fresh u) n fun c => { c with
    storeb := c.storeb ++ [.mark (u.seq + 1)], markers := c.markers ++ [⟨u.seq + 1, 3, false, none, u.seq + 1, true⟩] } := rfl

theorem recordRelease_bare (u : State) (n m : Nat) : (getCell (recordRelease u n) m).bare = (getCell u m).bare := by
  rw [recordRelease_eq]
  by_cases h : m = n
  · subst h
    rw [getCell_modCell_same]
    rfl
  · rw [getCell_modCell_other _ _ h]
    rfl

theorem recordRelease_marker (u : State) (n : Nat) :
    ∃ k ∈ (getCell (recordRelease u n) n).markers, k.id = (recordRelease u n).seq ∧ k.scope = 3 := by
  refine ⟨⟨u.seq + 1, 3, false, none, u.seq + 1, true⟩, ?_, rfl, rfl⟩
  rw [recordRelease_eq, getCell_modCell_same]
  exact List.mem_append_right _ (by simp)

theorem sysEnd_unrecorded {d i : Nat} {c : SysCmd} (r : SysDone) (h : doneAddr c = 0) :
    sysEnd d i c r = modDie r.1 d fun x => { x with sys := x.sys.eraseIdx i } := by rw [sysEnd, if_pos h]

theorem sysEnd_recorded {d i : Nat} {c : SysCmd} (r : SysDone) (h : doneAddr c ≠ 0) : sysEnd d i c r =
    setSys (recordRelease r.1 c.cell) d i { c with ans := some (r.2.1, r.2.2.1, r.2.2.2, (recordRelease r.1 c.cell).seq) } := by
  rw [sysEnd, if_neg h]
  rfl

theorem sysEnd_ended (d i : Nat) (c : SysCmd) (r : SysDone) : Ended d r.1 (sysEnd d i c r) := by
  by_cases h : doneAddr c = 0
  · rw [sysEnd_unrecorded r h]
    exact modSys_ended r.1 d fun l => l.eraseIdx i
  · rw [sysEnd_recorded r h]
    obtain ⟨hb, hr, hd⟩ := modSys_ended (recordRelease r.1 c.cell) d
      fun l => l.set i { c with ans := some (r.2.1, r.2.2.1, r.2.2.2, (recordRelease r.1 c.cell).seq) }
    exact ⟨fun n => (hb n).trans (recordRelease_bare ..), hr, hd⟩

/-- A command without a record leaves the list; another one waits for its release. -/
theorem sysEnd_sys (d i : Nat) (c : SysCmd) (r : SysDone) :
    (doneAddr c = 0 → (getDie (sysEnd d i c r) d).sys = (getDie r.1 d).sys.eraseIdx i) ∧
    (doneAddr c ≠ 0 → ∃ m, (getDie (sysEnd d i c r) d).sys = (getDie r.1 d).sys.set i { c with ans := some (r.2.1, r.2.2.1, r.2.2.2, m) } ∧
      ∃ k ∈ (getCell (sysEnd d i c r) c.cell).markers, k.id = m ∧ k.scope = 3) := by
  refine ⟨fun h => ?_, fun h => ⟨(recordRelease r.1 c.cell).seq, ?_, ?_⟩⟩
  · rw [sysEnd_unrecorded r h, getDie_modDie_same]
  · rw [sysEnd_recorded r h, setSys, getDie_modDie_same]
    rfl
  · rw [sysEnd_recorded r h]
    exact recordRelease_marker r.1 c.cell

theorem doneAddr_other {c : SysCmd} (h1 : c.trig ≠ 1) (h2 : c.trig ≠ 2) : doneAddr c = if c.m.toNat % 8 = 0 then c.m.toNat else 0 := by
  simp [doneAddr, h1, h2]

/-! ### The only command of a die acts -/

section Single

variable {s : State} {d : Nat} {c : SysCmd} (hsys : (getDie s d).sys = [c]) (hans : c.ans = none) (hlive : scanLive c = false)
include hsys hans hlive

theorem exec_sysCompletion_done {s' : State} {r : SysDone} (hact : sysAct s d 0 c = (s', some r)) :
    exec (.sysCompletion d) s = .next (sysEnd d 0 c r) := by
  change execSysCompletion d s = _
  have acts : ¬ (sysWaits d [c] 0 = true ∨ scanLive c = true) := by simp [sysWaits, hlive]
  simp only [execSysCompletion, hsys, sysFirst, hans, acts, if_false, hact]

/-- A command that does not answer yet. -/
theorem exec_sysCompletion_begun {s' : State} (hact : sysAct s d 0 c = (s', none)) :
    exec (.sysCompletion d) s = .next (if c.started then s else s') := by
  change execSysCompletion d s = _
  have acts : ¬ (sysWaits d [c] 0 = true ∨ scanLive c = true) := by simp [sysWaits, hlive]
  simp only [execSysCompletion, hsys, sysFirst, hans, acts, if_false, hact]

/-- A command that answers, and is no scan, ends. -/
theorem exec_sysCompletion_ends {u : State} {images cells st : Nat} (h1 : c.trig ≠ 1) (h2 : c.trig ≠ 2)
    {s' : State} (hact : sysAct s d 0 c = (s', some (u, images, cells, st))) (hu : (getDie u d).sys = [c]) :
    ∃ t, exec (.sysCompletion d) s = .next t ∧ Ended d u t ∧
      (c.m.toNat % 8 ≠ 0 ∨ c.m.toNat = 0 → (getDie t d).sys = []) ∧
      (c.m.toNat % 8 = 0 → c.m.toNat ≠ 0 → ∃ m, (getDie t d).sys = [{ c with ans := some (images, cells, st, m) }] ∧
        ∃ k ∈ (getCell t c.cell).markers, k.id = m ∧ k.scope = 3) := by
  have hdone := doneAddr_other h1 h2
  obtain ⟨hnone, hsome⟩ := sysEnd_sys d 0 c (u, images, cells, st)
  refine ⟨_, exec_sysCompletion_done hsys hans hlive hact, sysEnd_ended d 0 c (u, images, cells, st), fun h => ?_, fun h8 h0 => ?_⟩
  · rw [hnone ?_, hu]
    · rfl
    · rw [hdone]
      split <;> omega
  · obtain ⟨m, hl, hk⟩ := hsome (by rw [hdone, if_pos h8]; exact h0)
    exact ⟨m, by rw [hl, hu]; rfl, hk⟩

end Single

/-! ### A change of some cells -/

/-- A change of the cells of a list that is done when made once. -/
theorem getCell_foldl_modCell (f : Cell → Cell) (hf : ∀ y, f (f y) = f y) (l : List Nat) : ∀ (s : State) (n : Nat),
    getCell (l.foldl (fun s m => modCell s m f) s) n = if n ∈ l then f (getCell s n) else getCell s n := by
  induction l with
  | nil => exact fun _ _ => rfl
  | cons m l ih =>
    intro s n
    rw [List.foldl_cons, ih]
    by_cases hm : n = m
    · subst hm
      rw [getCell_modCell_same, hf, ite_self, if_pos (by simp)]
    · rw [getCell_modCell_other s f hm]
      simp only [List.mem_cons, hm, false_or]

theorem getDie_foldl_modCell (f : Cell → Cell) (l : List Nat) (s : State) (d : Nat) :
    getDie (l.foldl (fun s m => modCell s m f) s) d = getDie s d := 
  foldl_keeps (f := fun s m => modCell s m f) (getDie · d) (fun _ _ => rfl) l s

/-! ### Ends of L2 partitioning -/

theorem cosOf_modCos_same (x : Die) (sl c : Nat) (f : CosRegs → CosRegs) : cosOf (modCos x sl c f) sl c = f (cosOf x sl c) :=
  smGet_smPut_same ..

theorem cosOf_modCos_other (x : Die) {sl k : Nat} (c : Nat) (f : CosRegs → CosRegs) (h : k ≠ sl) :
    cosOf (modCos x sl c f) k c = cosOf x k c := smGet_smPut_other _ _ _ (by omega)

/-- A change of a class in the slices of a list that is done when made once. -/
theorem cosOf_foldl_modCos (f : CosRegs → CosRegs) (hf : ∀ r, f (f r) = f r) (c k : Nat) (l : List Nat) : ∀ x,
    cosOf (l.foldl (fun x j => modCos x j c f) x) k c = if k ∈ l then f (cosOf x k c) else cosOf x k c := by
  induction l with
  | nil => exact fun _ => rfl
  | cons j l ih =>
    intro x
    rw [List.foldl_cons, ih]
    by_cases hj : k = j
    · subst hj
      rw [cosOf_modCos_same, hf, ite_self, if_pos (by simp)]
    · rw [cosOf_modCos_other x c f hj]
      simp only [List.mem_cons, hj, false_or]

theorem cosPut_idem (field t : Nat) (r : CosRegs) : cosPut field t (cosPut field t r) = cosPut field t r :=
  match field with
  | 0 => rfl
  | 1 => rfl
  | 2 => rfl
  | _ + 3 => rfl

/-- From s to t the classes of a die keep their set windows. -/
def WindowsKept (d : Nat) (s t : State) : Prop := ∀ sl c, (cosOf (getDie t d) sl c).setbase = (cosOf (getDie s d) sl c).setbase ∧
  (cosOf (getDie t d) sl c).setmask = (cosOf (getDie s d) sl c).setmask

theorem WindowsKept.foldl {α : Type} {f : State → α → State} {d : Nat} (hf : ∀ s a, WindowsKept d s (f s a)) (l : List α) :
    ∀ s, WindowsKept d s (l.foldl f s) := by
  induction l with
  | nil => exact fun _ _ _ => ⟨rfl, rfl⟩
  | cons a l ih => exact fun s sl c => ⟨(ih _ sl c).1.trans (hf s a sl c).1, (ih _ sl c).2.trans (hf s a sl c).2⟩

/-- One line less is counted for a class. -/
theorem window_uncounted (x y : Die) (sl c k j : Nat) (hy : y.cos = x.cos) :
    (cosOf (modCos y sl c fun r => { r with cur := r.cur - 1 }) k j).setbase = (cosOf x k j).setbase ∧
    (cosOf (modCos y sl c fun r => { r with cur := r.cur - 1 }) k j).setmask = (cosOf x k j).setmask := by
  have hx (k j : Nat) : cosOf y k j = cosOf x k j := by rw [cosOf, cosOf, hy]
  by_cases h : k * 16 + j = sl * 16 + c
  · have e : cosOf (modCos y sl c fun r => { r with cur := r.cur - 1 }) k j = { cosOf y sl c with cur := (cosOf y sl c).cur - 1 } := by
      rw [cosOf, h]
      exact smGet_smPut_same ..
    have hsame : cosOf x k j = cosOf x sl c := by rw [cosOf, cosOf, h]
    rw [e, hx, hsame]
    exact ⟨rfl, rfl⟩
  · have e : cosOf (modCos y sl c fun r => { r with cur := r.cur - 1 }) k j = cosOf y k j := smGet_smPut_other _ _ _ h
    rw [e, hx]
    exact ⟨rfl, rfl⟩

theorem l2Evict_windows (s : State) (d : Nat) (y : L2Line) : WindowsKept d s (l2Evict s d y) := by
  intro sl c
  have h : getDie (l2Evict s d y) d = Die.evicted y (getDie s d) := by
    rw [getDie, l2Evict_dies]
    exact getDie_modDie_same ..
  rw [h]
  exact window_uncounted _ _ _ _ _ _ rfl

theorem l2Displace_windows (s : State) (d : Nat) (f : L2Fill) : WindowsKept d s (l2Displace s d (.fill f)) := by
  intro sl c
  unfold l2Displace
  rw [getDie_modDie_same]
  exact window_uncounted _ _ _ _ _ _ rfl

/-- The classes of the slices that a cos.wr names take the field. -/
def cosWritten (s : State) (d slice c field t : Nat) : State :=
  modDie s d fun x => (if slice = 15 then List.range 16 else [slice]).foldl (fun x k => modCos x k c (cosPut field t)) x

theorem cosWrite_eq (s : State) (d slice c field t : Nat) : cosWrite s d slice c field t =
    if field = 1 then ((getDie (cosWritten s d slice c field t) d).fills.filter fun f =>
          f.way < 16 && !cosReach (getDie (cosWritten s d slice c field t) d) f.slice f.line f.set).foldl
        (fun s f => l2Displace s d (.fill f)) (l2EvictAll (cosWritten s d slice c field t) d
          (l2Unreachable (getDie (cosWritten s d slice c field t) d)))
    else cosWritten s d slice c field t := rfl

theorem cosWritten_frame (s : State) (d slice c field t : Nat) : HomeFrame s (cosWritten s d slice c field t) :=
  .modDie fun x => foldl_keeps (f := fun x k => modCos x k c (cosPut field t)) Die.sys (fun _ _ => rfl) _ x

theorem cosWrite_frame (s : State) (d slice c field t : Nat) : HomeFrame s (cosWrite s d slice c field t) := by
  have h := cosWritten_frame s d slice c field t
  rw [cosWrite_eq]
  split
  · exact (h.trans (l2EvictAll_frame ..)).trans (.foldl (fun s f => l2Displace_frame s d (.fill f)) _ _)
  · exact h

theorem cosOf_cosWritten (s : State) (d c field t : Nat) {slice k : Nat} (hk : k < 16) (h : slice = k ∨ slice = 15) :
    cosOf (getDie (cosWritten s d slice c field t) d) k c = cosPut field t (cosOf (getDie s d) k c) := by
  rw [cosWritten, getDie_modDie_same, cosOf_foldl_modCos _ (cosPut_idem field t), if_pos]
  split
  · exact List.mem_range.2 hk
  · rw [List.mem_singleton]
    exact (h.resolve_right ‹_›).symm

theorem cosWrite_windows (s : State) (d slice c field t : Nat) :
    WindowsKept d (cosWritten s d slice c field t) (cosWrite s d slice c field t) := by
  intro sl k
  rw [cosWrite_eq]
  split
  · obtain ⟨h1, h2⟩ := WindowsKept.foldl (fun s y => l2Evict_windows s d y)
      (l2Unreachable (getDie (cosWritten s d slice c field t) d)) (cosWritten s d slice c field t) sl k
    obtain ⟨k1, k2⟩ := WindowsKept.foldl (fun s f => l2Displace_windows s d f)
      ((getDie (cosWritten s d slice c field t) d).fills.filter fun f =>
        f.way < 16 && !cosReach (getDie (cosWritten s d slice c field t) d) f.slice f.line f.set)
      (l2EvictAll (cosWritten s d slice c field t) d (l2Unreachable (getDie (cosWritten s d slice c field t) d))) sl k
    exact ⟨k1.trans h1, k2.trans h2⟩
  · exact ⟨rfl, rfl⟩

end Sys2Proof.Machine
end

