-- ==== Sys2Proof/Proofs/CommandEnds.lean ====
section
/-!
The ends of sys commands (R62, R214, R215, R217, R220 to R223, R357), command by command.
-/

namespace Sys2Proof.Machine

/-- The command is the only one of its die, is no scan, and has no answer yet. -/
structure SoleCommand (s : State) (d : Nat) (c : SysCmd) : Prop where
  sys : (getDie s d).sys = [c]
  ans : c.ans = none
  plain : isScan c = false

/-- The command ends with p, and with a record of some cells and a status where it names an address. -/
def CommandEnds (s : State) (d : Nat) (c : SysCmd) (p : State → Prop) (cells st : Nat) : Prop :=
  ∃ t, exec (.sysCompletion d) s = .next t ∧ p t ∧
    (c.m.toNat % 8 ≠ 0 ∨ c.m.toNat = 0 → (getDie t d).sys = []) ∧
    (c.m.toNat % 8 = 0 → c.m.toNat ≠ 0 → ∃ m, (getDie t d).sys = [{ c with ans := some (0, cells, st, m) }] ∧
      ∃ k ∈ (getCell t c.cell).markers, k.id = m ∧ k.scope = 3)

/-- No cell has changed but in its store buffer and markers. -/
def BareSame (s t : State) : Prop := ∀ n, (getCell t n).bare = (getCell s n).bare

/-- The command ends with a status, and nothing changes. -/
def CommandRefused (s : State) (d : Nat) (c : SysCmd) (st : Nat) : Prop :=
  CommandEnds s d c (fun t => BareSame s t ∧ t.regions = s.regions ∧ (getDie t d).cos = (getDie s d).cos) 0 st

namespace SoleCommand

variable {s : State} {d : Nat} {c : SysCmd} (h : SoleCommand s d c)
include h

theorem idle : scanLive c = false := by simp [scanLive, h.plain]

theorem trig_out : c.trig ≠ 1 := by
  intro e
  have := h.plain
  simp [isScan, e] at this

theorem trig_in : c.trig ≠ 2 := by
  intro e
  have := h.plain
  simp [isScan, e] at this

theorem ends {u : State} {cells st : Nat} {p : State → Prop} (hact : sysAct s d 0 c = (s, some (u, 0, cells, st)))
    (hu : (getDie u d).sys = (getDie s d).sys) (hp : ∀ t, Ended d u t → p t) : CommandEnds s d c p cells st := by
  obtain ⟨t, he, hend, hbare, hrec⟩ := exec_sysCompletion_ends h.sys h.ans h.idle h.trig_out h.trig_in hact (hu.trans h.sys)
  exact ⟨t, he, hp t hend, hbare, hrec⟩

/-- A command that answers without a change. -/
theorem ends_same {cells st : Nat} (hact : sysAct s d 0 c = (s, some (s, 0, cells, st))) :
    CommandEnds s d c (BareSame s) cells st := h.ends hact rfl fun _ ht => ht.bare

theorem refused {st : Nat} (hact : sysAct s d 0 c = (s, some (s, 0, 0, st))) : CommandRefused s d c st :=
  h.ends hact rfl fun _ ht => ⟨ht.bare, ht.regions, ht.cos⟩

end SoleCommand

/-! ### What each command does -/

variable {s : State} {d i : Nat} {c : SysCmd}

theorem sysAct_dict (h : c.trig = 0) : sysAct s d i c = (s, some (dictDone s c)) := by simp [sysAct, h]

theorem sysAct_frz (h : c.trig = 3) : sysAct s d i c = frzDone s d i c := by simp [sysAct, h]

theorem sysAct_rsm (h : c.trig = 4) : sysAct s d i c = (s, some (rsmDone s d i c)) := by simp [sysAct, h]

theorem sysAct_swap (h : c.trig = 5) :
    sysAct s d i c = (s, some (modDie s d fun x => { x with migctl := x.migctl ^^^ 2 }, 0, 0, 0)) := by simp [sysAct, h]

theorem sysAct_cos (h : c.trig = 6) : sysAct s d i c = (s, some (cosDone s d c)) := by simp [sysAct, h]

theorem sysAct_own (h : c.trig = 7) : sysAct s d i c = (s, some (ownDone s d i c)) := by simp [sysAct, h]

/-! ### migrate and dict.ld -/

theorem swap_ends (h : SoleCommand s d c) (ht : c.trig = 5) :
    CommandEnds s d c (fun t => (getDie t d).migctl = (getDie s d).migctl ^^^ 2 ∧ BareSame s t) 0 0 :=
  h.ends (sysAct_swap ht) (by rw [getDie_modDie_same]) fun t hend =>
    ⟨by rw [hend.migctl, getDie_modDie_same], hend.bare⟩

/-- The dictionary of a cell takes the entries of an image; what was poisoned of them is no more (R63, R379). -/
def dictLoaded (s : State) (n : Nat) (es : SMap Bundle) : State :=
  modCell (unmarkAt s n fun p => p.1 == 7 && es.any fun e => e.1 == p.2.1) n fun x => { x with dict := loadEntries x.dict es }

theorem unmarkAt_kept (s : State) (n : Nat) (p : Nat × Nat × Nat → Bool) :
    (getCell (unmarkAt s n p) n).dict = (getCell s n).dict ∧ (getCell (unmarkAt s n p) n).user = (getCell s n).user ∧
      (unmarkAt s n p).dies = s.dies := by
  unfold unmarkAt
  split
  · exact ⟨rfl, rfl, rfl⟩
  · rw [getCell_modCell_same]
    exact ⟨rfl, rfl, rfl⟩

theorem dictLoaded_eq (s : State) (n : Nat) (es : SMap Bundle) :
    (getCell (dictLoaded s n es) n).dict = loadEntries (getCell s n).dict es ∧
      (getCell (dictLoaded s n es) n).user = (getCell s n).user ∧ (dictLoaded s n es).dies = s.dies := by
  obtain ⟨hdict, huser, hdies⟩ := unmarkAt_kept s n fun p => p.1 == 7 && es.any fun e => e.1 == p.2.1
  rw [dictLoaded, getCell_modCell_same, ← hdict, ← huser]
  exact ⟨rfl, rfl, hdies⟩

theorem dict_loads (h : SoleCommand s d c) (ht : c.trig = 0) (ha : c.t.toNat % 16 = 0) (hs : userStopped s c.cell = true)
    {es : SMap Bundle} (hes : imageAt s c.t.toNat = some es) :
    CommandEnds s d c (fun t => (getCell t c.cell).dict = loadEntries (getCell s c.cell).dict es ∧
      (getCell t c.cell).user = (getCell s c.cell).user) 1 0 := by
  have hdone : dictDone s c = (dictLoaded s c.cell es, 0, 1, 0) := by
    simp [dictDone, ha, hs, hes, dictLoaded]
  obtain ⟨hdict, huser, hdies⟩ := dictLoaded_eq s c.cell es
  refine h.ends ((sysAct_dict ht).trans (by rw [hdone])) (congrArg (fun l => (smGet Die.reset l d).sys) hdies) fun t hend => ⟨?_, ?_⟩
  · rw [hend.cell Cell.dict (fun _ => rfl), hdict]
  · rw [hend.cell Cell.user (fun _ => rfl), huser]

theorem dict_unaligned (h : SoleCommand s d c) (ht : c.trig = 0) (ha : c.t.toNat % 16 ≠ 0) : CommandRefused s d c 0x14 :=
  h.refused ((sysAct_dict ht).trans (by rw [dictDone, if_pos ha]))

theorem dict_running (h : SoleCommand s d c) (ht : c.trig = 0) (ha : c.t.toNat % 16 = 0) (hs : userStopped s c.cell = false) :
    CommandRefused s d c 0x15 := h.refused ((sysAct_dict ht).trans (by simp [dictDone, ha, hs]))

theorem dict_unsound (h : SoleCommand s d c) (ht : c.trig = 0) (ha : c.t.toNat % 16 = 0) (hs : userStopped s c.cell = true)
    (hes : imageAt s c.t.toNat = none) : CommandRefused s d c 0x13 :=
  h.refused ((sysAct_dict ht).trans (by simp [dictDone, ha, hs, hes]))

/-! ### cell.frz and cell.rsm -/

/-- The low bits of a word. -/
theorem ofNat_toNat_low (n : Nat) (v : Word) : BitVec.ofNat n v.toNat = v.extractLsb' 0 n := by
  apply BitVec.eq_of_toNat_eq
  rw [BitVec.toNat_ofNat, BitVec.extractLsb'_toNat, Nat.shiftRight_zero]

theorem ofNat_toNat_shift (n k : Nat) (v : Word) : BitVec.ofNat n (v.toNat >>> k) = v.extractLsb' k n := by
  apply BitVec.eq_of_toNat_eq
  rw [BitVec.toNat_ofNat, BitVec.extractLsb'_toNat]

/-- The named cells that PART owns. -/
def ownedCells (s : State) (c : SysCmd) (ns : List Nat) : List Nat := ns.filter fun n => seqOwner (getCell s n) == c.o.extractLsb' 0 16

theorem counted_eq (s : State) (d : Nat) (c : SysCmd) : counted s d c = (cellSet d c.t.toNat).map (ownedCells s c) := by
  simp only [counted, ofNat_toNat_low]
  rfl

/-- A cell that is asked to hold (R220). -/
def Cell.asked (x : Cell) : Cell := if x.hold then x else { x with frzReq := true }

theorem asked_asked (x : Cell) : x.asked.asked = x.asked := by
  by_cases h : x.hold = true <;> simp [Cell.asked, h]

theorem asked_frzReq (x : Cell) : x.asked.frzReq = (x.frzReq || !x.hold) := by
  unfold Cell.asked
  cases h : x.hold <;> simp

theorem release_release (x : Cell) : release (release x) = release x := by
  unfold release
  by_cases h : (x.hold && x.ok) = true
  · simp only [h, if_true]
    rfl
  · simp only [if_neg h]

theorem release_hold (x : Cell) : (release x).hold = (x.hold && !x.ok) := by
  unfold release
  cases hh : x.hold <;> cases ho : x.ok <;> simp [hh]

theorem release_flights (x : Cell) : (release x).user.flights = x.user.flights := by
  unfold release
  split <;> rfl

section Sets

variable {ns : List Nat} (h : SoleCommand s d c) (hns : cellSet d c.t.toNat = some ns)
include h hns

/-- A cell.frz that has just begun makes its requests. -/
theorem frz_begins (ht : c.trig = 3) (hst : c.started = false) : ∃ t e, exec (.sysCompletion d) s = .next t ∧ (getDie t d).sys = [e] ∧
    e.started = true ∧ e.cells = (ownedCells s c ns).length ∧
    ∀ n, (getCell t n).frzReq = ((getCell s n).frzReq || ((ownedCells s c ns).contains n && !(getCell s n).hold)) := by
  have hact : sysAct s d 0 c = (setSys ((ownedCells s c ns).foldl (fun s n => modCell s n Cell.asked) s) d 0
      { c with started := true, cells := (ownedCells s c ns).length }, none) := by
    rw [sysAct_frz ht, frzDone, counted_eq, hns]
    simp only [Option.map_some, hst]
    rfl
  have hexec := exec_sysCompletion_begun h.sys h.ans h.idle hact
  refine ⟨_, _, hexec.trans (by rw [hst]; rfl), setSys_single_sys (c := c) ?_ _, rfl, rfl, fun n => ?_⟩
  · exact (congrArg Die.sys (getDie_foldl_modCell ..)).trans h.sys
  · rw [setSys_cell, getCell_foldl_modCell _ asked_asked, List.contains_eq_mem]
    split
    · simp [asked_frzReq, *]
    · simp [*]

theorem frz_ends (ht : c.trig = 3) (hst : c.started = true) (hf : ∀ n ∈ ns, (getCell s n).frzReq = false) :
    CommandEnds s d c (BareSame s) c.cells 0 := by
  have held : frzDone.scanCellsHeld s d c = true := by
    rw [frzDone.scanCellsHeld, hns, List.all_eq_true]
    exact fun n hn => by rw [hf n hn]; rfl
  refine h.ends_same ?_
  rw [sysAct_frz ht, frzDone, counted_eq, hns]
  simp only [Option.map_some, hst, held]
  rfl

theorem frz_waits (ht : c.trig = 3) (hst : c.started = true) (hf : ∃ n ∈ ns, (getCell s n).frzReq = true) :
    exec (.sysCompletion d) s = .next s := by
  have held : frzDone.scanCellsHeld s d c = false := by
    obtain ⟨n, hn, hr⟩ := hf
    rw [frzDone.scanCellsHeld, hns, List.all_eq_false]
    exact ⟨n, hn, by simp [hr]⟩
  have hact : sysAct s d 0 c = (s, none) := by
    rw [sysAct_frz ht, frzDone, counted_eq, hns]
    simp only [Option.map_some, hst, held]
    rfl
  rw [exec_sysCompletion_begun h.sys h.ans h.idle hact, ite_self]

theorem rsm_ends (ht : c.trig = 4) : CommandEnds s d c (fun t => ∀ n,
    (getCell t n).hold = ((getCell s n).hold && !((ownedCells s c ns).contains n && (getCell s n).ok)) ∧
      (getCell t n).user.flights = (getCell s n).user.flights) (ownedCells s c ns).length 0 := by
  have hact : sysAct s d 0 c =
      (s, some ((ownedCells s c ns).foldl (fun s n => modCell s n release) s, 0, (ownedCells s c ns).length, 0)) := by
    have busy : ns.any (scanBusy s d 0) = false := List.any_eq_false.2 fun n _ => by rw [scanBusy_single h.sys n]; decide
    rw [sysAct_rsm ht, rsmDone, counted_eq, hns]
    simp only [Option.map_some, Option.getD_some, busy]
    rfl
  refine h.ends hact (congrArg Die.sys (getDie_foldl_modCell ..)) fun t hend n => ?_
  have hcell := getCell_foldl_modCell release release_release (ownedCells s c ns) s n
  rw [hend.cell Cell.hold (fun _ => rfl), hend.cell Cell.user (fun _ => rfl), hcell, List.contains_eq_mem]
  split
  · simp [release_hold, release_flights, *]
  · simp [*]

end Sets

theorem set_unsound (h : SoleCommand s d c) (ht : c.trig = 3 ∨ c.trig = 4) (hns : cellSet d c.t.toNat = none) : CommandRefused s d c 0x14 := by
  rcases ht with ht | ht
  · refine h.refused ?_
    rw [sysAct_frz ht, frzDone, counted_eq, hns]
    rfl
  · refine h.refused ?_
    rw [sysAct_rsm ht, rsmDone, counted_eq, hns]
    rfl

/-! ### cos.wr -/

/-- The class that a cos.wr names in slice k. -/
def cosNamed (x : Die) (c : SysCmd) (k : Nat) : CosRegs := cosOf x k (bits c.o.toNat 8 4)

theorem cos_refused (h : SoleCommand s d c) (ht : c.trig = 6)
    (ho : c.o.toNat / 2 ^ 20 ≠ 0 ∨ bits c.o.toNat 2 6 ≠ 0 ∨ bits c.o.toNat 16 4 ≠ d) : CommandRefused s d c 0x14 := by
  rw [← Nat.shiftRight_eq_div_pow] at ho
  exact h.refused ((sysAct_cos ht).trans (by rw [cosDone, if_pos ho]))

section Cos

variable (h : SoleCommand s d c) (ht : c.trig = 6) (ho : c.o.toNat / 2 ^ 20 = 0) (h26 : bits c.o.toNat 2 6 = 0)
  (hd : bits c.o.toNat 16 4 = d)
include h ht ho h26 hd

/-- A cos.wr that passes writes its field. -/
theorem cos_writes (hwin : bits c.o.toNat 0 2 = 1 → c.t.extractLsb' 0 15 &&& c.t.extractLsb' 16 15 = 0) {p : State → Prop}
    (hp : ∀ t, Ended d (cosWrite s d (bits c.o.toNat 12 4) (bits c.o.toNat 8 4) (bits c.o.toNat 0 2) c.t.toNat) t → p t) :
    CommandEnds s d c p 0 0 := by
  have hwin' : ¬ (bits c.o.toNat 0 2 = 1 ∧ bits c.t.toNat 0 15 &&& bits c.t.toNat 16 15 ≠ 0) := by
    rintro ⟨h1, h2⟩
    have := congrArg BitVec.toNat (hwin h1)
    rw [BitVec.toNat_and, BitVec.extractLsb'_toNat, BitVec.extractLsb'_toNat] at this
    exact h2 this
  have hpass : ¬ (c.o.toNat >>> 20 ≠ 0 ∨ bits c.o.toNat 2 6 ≠ 0 ∨ bits c.o.toNat 16 4 ≠ d) := by
    rw [Nat.shiftRight_eq_div_pow]
    rintro (h1 | h1 | h1)
    · exact h1 ho
    · exact h1 h26
    · exact h1 hd
  refine h.ends ((sysAct_cos ht).trans (by rw [cosDone, if_neg hpass, if_neg hwin'])) ?_ hp
  exact (cosWrite_frame ..).sys d

variable {k : Nat} (hk : k < 16) (hsl : bits c.o.toNat 12 4 = k ∨ bits c.o.toNat 12 4 = 15)
include hk hsl

/-- A field that is no set window. -/
theorem cos_field {f : Nat} (hf : bits c.o.toNat 0 2 = f) (h1 : f ≠ 1) :
    CommandEnds s d c (fun t => cosNamed (getDie t d) c k = cosPut f c.t.toNat (cosNamed (getDie s d) c k)) 0 0 := by
  refine cos_writes h ht ho h26 hd (fun e => absurd (hf.symm.trans e) h1) fun t hend => ?_
  rw [hf, cosWrite_eq, if_neg h1] at hend
  rw [cosNamed, cosOf, hend.cos]
  exact cosOf_cosWritten s d (bits c.o.toNat 8 4) f c.t.toNat hk hsl

theorem cos_window (hf : bits c.o.toNat 0 2 = 1) (hwin : c.t.extractLsb' 0 15 &&& c.t.extractLsb' 16 15 = 0) :
    CommandEnds s d c (fun t => (cosNamed (getDie t d) c k).setbase = c.t.extractLsb' 0 15 ∧
      (cosNamed (getDie t d) c k).setmask = c.t.extractLsb' 16 15) 0 0 := by
  refine cos_writes h ht ho h26 hd (fun _ => hwin) fun t hend => ?_
  have hw := cosWrite_windows s d (bits c.o.toNat 12 4) (bits c.o.toNat 8 4) (bits c.o.toNat 0 2) c.t.toNat k (bits c.o.toNat 8 4)
  rw [cosOf_cosWritten s d (bits c.o.toNat 8 4) (bits c.o.toNat 0 2) c.t.toNat hk hsl, hf] at hw
  rw [hf] at hend
  rw [cosNamed, cosOf, hend.cos, ← ofNat_toNat_low, ← ofNat_toNat_shift]
  exact hw

end Cos

/-! ### own.wr -/

section Own

variable (h : SoleCommand s d c) (ht : c.trig = 7)
include h ht

theorem own_unsound (ho : bits c.o.toNat 0 10 / 128 ≠ d ∨ segsOk (bits c.o.toNat 32 32) = false) : CommandRefused s d c 0x14 := by
  refine h.refused ((sysAct_own ht).trans ?_)
  rw [ownDone, if_pos]
  simpa [dieOf] using ho

variable (hd : bits c.o.toNat 0 10 / 128 = d) (hm : segsOk (bits c.o.toNat 32 32) = true)
include hd hm

theorem own_running (hs : userStopped s (bits c.o.toNat 0 10) = false) : CommandRefused s d c 0x15 := by
  refine h.refused ((sysAct_own ht).trans ?_)
  have hd' : dieOf (bits c.o.toNat 0 10) = d := hd
  simp [ownDone, hd', hm, hs]

/-- The named segments change hands. -/
theorem own_ends (hs : userStopped s (bits c.o.toNat 0 10) = true) {p : State → Prop}
    (hp : ∀ t, Ended d (ownSegs s (bits c.o.toNat 0 10) (c.t.extractLsb' 0 16) (namedSegs (bits c.o.toNat 32 32))) t → p t) :
    CommandEnds s d c p 1 0 := by
  have hd' : dieOf (bits c.o.toNat 0 10) = d := hd
  have hact : sysAct s d 0 c =
      (s, some (ownSegs s (bits c.o.toNat 0 10) (c.t.extractLsb' 0 16) (namedSegs (bits c.o.toNat 32 32)), 0, 1, 0)) := by
    rw [sysAct_own ht, ownDone, ← ofNat_toNat_low]
    simp [hd', hm, hs, scanBusy_single h.sys, ownSegs]
  refine h.ends hact ?_ hp
  exact congrArg (fun l => (smGet Die.reset l d).sys) (ownSegs_handed ..).dies

end Own

end Sys2Proof.Machine

namespace Sys2Proof.Laws
open Sys2Proof Machine

theorem commandsEnd : Sys2Proof.commandsEnd := by
  intro s d c x a o part bare same ends refused hsys hstatus hans hscan
  have h : SoleCommand s d c := ⟨hsys, hans, hscan⟩
  refine ⟨swap_ends h, fun ht ha hs es hes => dict_loads h ht ha hs hes, dict_unaligned h, dict_running h, dict_unsound h,
    fun ns hns => ?_, fun ht _ hns => set_unsound h ht hns, fun ht ho h26 hd k hk hsl => ?_, cos_refused h, fun ht => ?_⟩
  · exact ⟨frz_begins h hns, frz_ends h hns, frz_waits h hns, rsm_ends h hns⟩
  · refine ⟨fun hf => ?_, fun hf => ?_, fun hf => ?_, cos_window h ht ho h26 hd hk hsl⟩
    · have e : cosPut 0 c.t.toNat (cosNamed x c k) = { cosNamed x c k with ways := c.t.extractLsb' 0 16 } := by
        rw [← ofNat_toNat_low]
        rfl
      exact e ▸ cos_field h ht ho h26 hd hk hsl hf (by decide)
    · have e : cosPut 2 c.t.toNat (cosNamed x c k) = { cosNamed x c k with share := c.t.extractLsb' 0 8 } := by
        rw [← ofNat_toNat_low]
        rfl
      exact e ▸ cos_field h ht ho h26 hd hk hsl hf (by decide)
    · have e : cosPut 3 c.t.toNat (cosNamed x c k) = { cosNamed x c k with peak := c.t.extractLsb' 32 20 } := by
        rw [← ofNat_toNat_shift]
        rfl
      exact e ▸ cos_field h ht ho h26 hd hk hsl hf (by decide)
  · refine ⟨own_unsound h ht, own_running h ht, fun hd hm hs hwf => own_ends h ht hd hm hs fun t hend => ?_⟩
    have handed := ownSegs_handed (bits o 0 10) (c.t.extractLsb' 0 16) (namedSegs (bits o 32 32)) s
    refine ⟨fun m hm => ?_, fun k hk => ?_, fun h1 hne => ?_⟩
    · exact (hend.bare m).trans (congrArg Cell.bare (handed.others m hm))
    · rw [hend.cell Cell.owners (fun _ => rfl), handed.owners hwf]
      simp only [mem_namedSegs, hk, true_and]
    · obtain ⟨hx, hp⟩ := ownSegs_one (bits o 0 10) (c.t.extractLsb' 0 16) _ s hwf (mem_namedSegs.2 ⟨by decide, h1⟩) hne
      rw [hend.cell Cell.user (fun _ => rfl)]
      exact ⟨fun i => by rw [hx]; rfl, hp⟩

end Sys2Proof.Laws
end

