-- ==== Sys2Proof/Proofs/CommandAnswers.lean ====
section
/-!
What a running scan refuses, how a scan ends, and the record of an ended command (R214, R215, R219, R220, R223, R258).
-/

namespace Sys2Proof.Machine

/-! ### Accesses of a plain memory -/

/-- A change of a die that leaves its dirty tracking off and its L2 lines in their natural slices. -/
theorem plainMemory_modDie {s : State} (hp : plainMemory s) (d : Nat) {f : Die → Die} (hm : ∀ x, (f x).migctl = x.migctl)
    (hl : ∀ x : Die, (∀ y ∈ x.l2, y.slice = sliceOf 0 (y.line * 128)) → ∀ y ∈ (f x).l2, y.slice = sliceOf 0 (y.line * 128)) :
    plainMemory (modDie s d f) := by
  obtain ⟨hc, hmig, hsl, hwf⟩ := hp
  refine ⟨hc, fun e => ?_, fun e => ?_, hwf⟩ <;> by_cases he : e = d
  · subst he
    rw [getDie_modDie_same, hm]
    exact hmig e
  · rw [getDie_modDie_other _ _ he]
    exact hmig e
  · subst he
    rw [getDie_modDie_same]
    exact hl _ (hsl e)
  · rw [getDie_modDie_other _ _ he]
    exact hsl e

theorem l2Ask_kept (sl line c : Nat) (who : List Nat) (x : Die) :
    (l2Ask sl line c who x).migctl = x.migctl ∧ (l2Ask sl line c who x).l2 = x.l2 := by
  unfold l2Ask
  dsimp only
  split
  · exact ⟨rfl, rfl⟩
  · split <;> exact ⟨rfl, rfl⟩

theorem l2Reach_plain {s : State} (hp : plainMemory s) (sel pa c : Nat) (who : List Nat) : plainMemory (l2Reach s sel pa c who) := by
  have hf : plainMemory (fresh s) := hp
  unfold l2Reach
  dsimp only
  split
  · exact hp
  · split
    · refine plainMemory_modDie hf _ (fun _ => rfl) fun x hx y hy => ?_
      rcases mem_updFirst hy with h | ⟨z, hz, rfl⟩
      · exact hx y h
      · exact hx z hz
    · refine plainMemory_modDie hp _ (fun x => (l2Ask_kept ..).1) fun x hx y hy => hx y ?_
      rwa [(l2Ask_kept ..).2] at hy

theorem l2Choose_plain {s : State} (hp : plainMemory s) (sel line : Nat) : plainMemory (l2Choose s sel line) := by
  unfold l2Choose
  split <;> exact hp

theorem ownTouch_plain {s : State} (hp : plainMemory s) (wr : Bool) (sel line : Nat) : plainMemory (ownTouch wr sel s line) := by
  unfold ownTouch
  rw [codecBring_plain hp, ite_self]
  exact l2Choose_plain (l2Reach_plain hp ..) ..

/-- A doubleword that Sirvy or a command writes is read back. -/
theorem home64_ownWrite {s : State} (hp : plainMemory s) {pa : Nat} (v : Nat) (h : pa % 8 = 0) (hpa : pa < 2 ^ 40) :
    home64 (ownWrite s pa 8 v) pa = BitVec.ofNat 64 v := by
  have touched (l : List Nat) : ∀ s, plainMemory s → plainMemory (l.foldl (ownTouch true 0) s) := by
    induction l with
    | nil => exact fun _ hp => hp
    | cons line l ih => exact fun s hp => ih _ (ownTouch_plain hp true 0 line)
  exact home64_homeWriteN_same (touched _ s hp) v h hpa

/-! ### A command after a scan -/

/-- A command that has no end yet: one without an answer that has not ended or whose writebacks are on their way, or one whose
release is not complete. -/
def GoesOn (s : State) (d : Nat) (e : SysCmd) : Prop :=
  (e.ans = none ∧ (e.status = none ∨ (e.trig = 1 ∧ e.started = true ∧ (scanCells d e).any (wbOut s) = true))) ∨
    ∃ r, e.ans = some r ∧ markersDone (getCell s e.cell) r.2.2.2 = false

theorem sysAct_scan_waits {s : State} {d i : Nat} {e : SysCmd} (ht : e.trig = 1) (hst : e.started = true)
    (hw : (scanCells d e).any (wbOut s) = true) : sysAct s d i e = (s, none) := by simp [sysAct, ht, hst, hw]

/-- A scan that goes on leaves the turn to the commands after it. -/
theorem sysFirst_goesOn {s : State} {d : Nat} {e : SysCmd} {cs : List SysCmd} (hsys : (getDie s d).sys = e :: cs) (hscan : isScan e = true)
    (hg : GoesOn s d e) : sysFirst s d (e :: cs) 0 = sysFirst s d cs 1 := by
  have waits : sysWaits d (e :: cs) 0 = false := by simp [sysWaits]
  rcases hg with ⟨hans, hst | ⟨ht, hst, hw⟩⟩ | ⟨r, hans, hm⟩
  · simp [sysFirst, hans, hsys, waits, scanLive, hscan, hst]
  · cases hlive : scanLive e <;> simp [sysFirst, hans, hsys, waits, hlive, sysAct_scan_waits ht hst hw, hst]
  · simp [sysFirst, hans, hm]

section Second

variable {s : State} {d : Nat} {e c : SysCmd} (hsys : (getDie s d).sys = [e, c]) (hscan : isScan e = true)
include hsys hscan

/-- A scan that runs keeps a cell from a command after it. -/
theorem scanBusy_second (hopen : e.status = none ∨ e.status = some 0) {n : Nat} (hn : scanNames s d n e = true) : scanBusy s d 1 n = true := by
  have ho : scanOpen e = true := by rcases hopen with h | h <;> simp [scanOpen, hscan, h]
  simp [scanBusy, hsys, ho, hn, List.range_succ]

variable (hg : GoesOn s d e) (hcell : e.cell ≠ c.cell ∨ e.started = true) (hans : c.ans = none) (hplain : isScan c = false)
  (ht : c.trig ≠ 0)
include hg hcell hans hplain ht

theorem exec_sysCompletion_second {s' : State} {r : SysDone} (hact : sysAct s d 1 c = (s', some r)) :
    exec (.sysCompletion d) s = .next (sysEnd d 1 c r) := by
  have waits : sysWaits d [e, c] 1 = false := by
    rcases hcell with h | h <;> simp [sysWaits, hscan, h, ht]
  have idle : scanLive c = false := by simp [scanLive, hplain]
  change execSysCompletion d s = _
  rw [execSysCompletion, hsys, sysFirst_goesOn hsys hscan hg]
  simp [sysFirst, hans, hsys, waits, idle, hact]

end Second

theorem rsmDone_busy {s : State} {d i : Nat} {c : SysCmd} {ns : List Nat} (hns : cellSet d c.t.toNat = some ns)
    (hb : ∃ n ∈ ns, scanBusy s d i n = true) : rsmDone s d i c = (s, 0, 0, 0x17) := by
  have busy : ns.any (scanBusy s d i) = true := List.any_eq_true.2 hb
  rw [rsmDone, counted_eq, hns]
  simp only [Option.map_some, Option.getD_some, busy]
  rfl

theorem ownDone_busy {s : State} {d i : Nat} {c : SysCmd} (hd : dieOf (bits c.o.toNat 0 10) = d)
    (hm : segsOk (bits c.o.toNat 32 32) = true) (hs : userStopped s (bits c.o.toNat 0 10) = true)
    (hb : scanBusy s d i (bits c.o.toNat 0 10) = true) : ownDone s d i c = (s, 0, 0, 0x17) := by
  simp [ownDone, hd, hm, hs, hb]

/-! ### The end of a scan, and records -/

theorem sysAct_scan_ends {s : State} {d i st : Nat} {c : SysCmd} (ht : c.trig = 1 ∨ c.trig = 2) (hst : c.status = some st)
    (hw : (scanCells d c).any (wbOut s) = false) :
    sysAct s d i c = (s, some (s, c.cells * (imageBytes (blkSegs c.blk.toNat) / 64), c.cells, st)) := by
  rcases ht with ht | ht <;> simp [sysAct, ht, hst, hw]

theorem wbOut_empty {s : State} (h : s.chan = []) (n : Nat) : wbOut s n = false := by simp [wbOut, h]

theorem exec_sysCompletion_unreleased {s : State} {d : Nat} {c : SysCmd} {r : Nat × Nat × Nat × Nat} (hsys : (getDie s d).sys = [c])
    (hans : c.ans = some r) (hm : markersDone (getCell s c.cell) r.2.2.2 = false) : exec (.sysCompletion d) s = .next s := by
  change execSysCompletion d s = _
  simp [execSysCompletion, hsys, sysFirst, hans, hm]

theorem exec_sysCompletion_record {s : State} {d : Nat} {c : SysCmd} {r : Nat × Nat × Nat × Nat} (hsys : (getDie s d).sys = [c])
    (hans : c.ans = some r) (hm : markersDone (getCell s c.cell) r.2.2.2 = true) :
    exec (.sysCompletion d) s = .next (sysRecord s d 0 c r) := by
  change execSysCompletion d s = _
  simp [execSysCompletion, hsys, sysFirst, hans, hm]

theorem doneAddr_aligned (c : SysCmd) : doneAddr c % 8 = 0 := by
  unfold doneAddr
  extract_lets a
  split <;> omega

/-- The command leaves the die as its record is written. -/
theorem sysRecord_leaves {s : State} {d : Nat} {c : SysCmd} (r : Nat × Nat × Nat × Nat) (hsys : (getDie s d).sys = [c]) :
    (getDie (sysRecord s d 0 c r) d).sys = [] ∧ (sysRecord s d 0 c r).cells = s.cells := by
  have frame := ownWrite_frame (modDie s d fun x => { x with sys := x.sys.eraseIdx 0 }) (doneAddr c) 8
    (2 ^ 63 + r.1 % 2 ^ 31 * 2 ^ 32 + r.2.1 % 2 ^ 16 * 2 ^ 16 + r.2.2.1)
  refine ⟨(frame.sys d).trans ?_, frame.cells⟩
  rw [getDie_modDie_same, hsys]
  rfl

theorem home64_sysRecord {s : State} (hp : plainMemory s) (d : Nat) {c : SysCmd} (r : Nat × Nat × Nat × Nat) (ha : doneAddr c < 2 ^ 40) :
    home64 (sysRecord s d 0 c r) (doneAddr c) = BitVec.ofNat 64 (2 ^ 63 + r.1 % 2 ^ 31 * 2 ^ 32 + r.2.1 % 2 ^ 16 * 2 ^ 16 + r.2.2.1) := by
  have hp' : plainMemory (modDie s d fun x => { x with sys := x.sys.eraseIdx 0 }) := plainMemory_modDie hp d (fun _ => rfl) fun _ hx => hx
  unfold sysRecord
  exact home64_ownWrite hp' _ (doneAddr_aligned c) ha

end Sys2Proof.Machine

namespace Sys2Proof.Laws
open Sys2Proof Machine

theorem commandsAnswer : Sys2Proof.commandsAnswer := by
  intro s d c x bare plain ends goesOn busy
  have busy_of {ns : List Nat} (hplain : isScan c = false) (ht : c.trig ≠ 0)
      (hact : ∀ e, x.sys = [e, c] → (∃ n ∈ ns, scanBusy s d 1 n = true) → sysAct s d 1 c = (s, some (s, 0, 0, 0x17))) : busy ns := by
    intro e hsys hscan hopen hg hcell hans hnames
    obtain ⟨n, hn, hb⟩ := hnames
    have hact' := hact e hsys ⟨n, hn, scanBusy_second hsys hscan hopen hb⟩
    obtain ⟨hnone, hsome⟩ := sysEnd_sys d 1 c (s, 0, 0, 0x17)
    refine ⟨_, exec_sysCompletion_second hsys hscan hg hcell hans hplain ht hact', (sysEnd_ended d 1 c (s, 0, 0, 0x17)).bare,
      fun h => (hnone h).trans ?_, fun h => ?_⟩
    · exact congrArg (List.eraseIdx · 1) hsys
    · obtain ⟨m, hl, -⟩ := hsome h
      exact ⟨m, hl.trans (congrArg (List.set · 1 _) hsys)⟩
  refine ⟨fun ns ht hns => ?_, fun n hn ht hd hm hs => ?_, fun st hsys ht hst hans hchan => ?_, fun images cells st m hsys hans => ?_⟩
  · exact busy_of (by simp [isScan, ht]) (by simp [ht]) fun e _ hb => (sysAct_rsm ht).trans (by rw [rsmDone_busy hns hb])
  · subst hn
    refine busy_of (by simp [isScan, ht]) (by simp [ht]) fun e _ hb => (sysAct_own ht).trans ?_
    obtain ⟨n, hn, hb⟩ := hb
    rw [List.mem_singleton.1 hn] at hb
    rw [ownDone_busy hd hm hs hb]
  · have hact := sysAct_scan_ends (d := d) (i := 0) ht hst (List.any_eq_false.2 fun n _ => by rw [wbOut_empty hchan n]; decide)
    obtain ⟨hnone, hsome⟩ := sysEnd_sys d 0 c (s, c.cells * (imageBytes (blkSegs c.blk.toNat) / 64), c.cells, st)
    refine ⟨_, exec_sysCompletion_done hsys hans (by simp [scanLive, hst]) hact, (sysEnd_ended d 0 c _).bare,
      fun h => (hnone h).trans ?_, fun h => ?_⟩
    · exact congrArg (List.eraseIdx · 0) hsys
    · obtain ⟨m, hl, -⟩ := hsome h
      exact ⟨m, hl.trans (congrArg (List.set · 0 _) hsys)⟩
  · refine ⟨exec_sysCompletion_unreleased hsys hans, fun hm ha => ⟨_, exec_sysCompletion_record hsys hans hm, ?_⟩⟩
    obtain ⟨hl, hc⟩ := sysRecord_leaves (images, cells, st, m) hsys
    exact ⟨hl, hc, fun hp ha _ => home64_sysRecord hp d _ ha⟩

/-- Settles O60: each of its parts holds. Saves and records are followed bit by bit in a memory without codec regions and dirty
tracking; what restores, ends and drains leave rests on a frame lemma for each operation they are made of. -/
theorem registersAndCommands : Obligations.RegistersAndCommands :=
  ⟨registersAreWritten, halvesAreRead, codecsDrain, scansCheck, scansMove, commandsEnd, commandsAnswer⟩

end Sys2Proof.Laws
end

