-- ==== Sys2Proof/Proofs/LinkSends.lean ====
section
/-!
Sends over the links to the neighbours (R9, R173), and the memories at reset.
-/

namespace Sys2Proof.Machine

/-! ### Sends over a link -/

/-- A vector source that can be read gives its slot what it reads. -/
theorem withV_vsource {s : State} {k : Nat} {x : BitVec 10} {v : Vec} (h : vsource s k x = some v) (f : State → Vec → State) :
    withV s k x f = f s v := by
  unfold vsource at h
  cases hx : cbSrc x with
  | none =>
    rw [withV_plain hx]
    rw [hx] at h
    rw [Option.some.inj h]
  | some e =>
    obtain ⟨b, n⟩ := e
    rw [hx] at h
    cases ho : cbReadOk (cur s) k b n with
    | false => simp [ho] at h
    | true =>
      rw [withV_buffer hx ho]
      simp only [ho, if_true] at h
      rw [Option.some.inj h]

/-- lnk.send with its guard on and a source that can be read sends what it reads (R173). -/
theorem exec_lnkSend {s : State} {g : BitVec 12} {x : BitVec 10} {v : Vec} (hg : moveOn s g = true) (hv : vsource s 8 x = some v)
    (p : BitVec 2) : exec (.lnkSend g x p) s = .next (sendBody s p.toNat v) := by
  change Host.Outcome.next (trigMV s g x fun s t => sendBody s p.toNat t) = _
  rw [trigMV, guarded_on hg, withV_vsource hv]

/-- An edge port sends nothing. -/
theorem sendBody_edge {s : State} {p : Nat} (h : neighbour s.cyc.cell p = none) (v : Vec) :
    sendBody s p v = raise s 0x0C 8 false (BitVec.ofNat 64 p) 0 := by
  simp [sendBody, h]

/-- Nothing passes a fence. -/
theorem sendBody_fenced {s : State} {p m : Nat} (h : neighbour s.cyc.cell p = some m) (hf : fenced s s.cyc.cell m = true) (v : Vec) :
    sendBody s p v = raise s 0x0C 8 false (BitVec.ofNat 64 p) 0 := by
  simp [sendBody, h, hf]

/-- What is sent arrives at the opposite port of the neighbour. -/
theorem sendBody_arrives {s : State} {p m : Nat} (h : neighbour s.cyc.cell p = some m) (hf : fenced s s.cyc.cell m = false) (v : Vec) :
    sendBody s p v = modCell s m fun c => { c with
      arrivals := c.arrivals ++ [⟨(p + 2) % 4, v, 4, !s.cyc.fw && (lockstep s s.cyc.cell).contains m, s.cyc.fw⟩] } := by
  simp [sendBody, h, hf]

end Sys2Proof.Machine

namespace Sys2Proof.Laws
open Sys2Proof Machine

/-- Settles O41: the three cases of a send, by the neighbour of the port and the fence to it. -/
theorem linkSends : Obligations.LinkSends := by
  intro s g x p v hg hv
  simp only [exec_lnkSend hg hv]
  refine ⟨fun h => ?_, fun m h hf => ?_, fun m h hf => ?_⟩
  · rw [sendBody_edge h]
  · rw [sendBody_fenced h hf]
  · rw [sendBody_arrives h hf]

/-- Settles O50: nothing is stored at reset. -/
theorem memoryIsCanonicalAtReset : Obligations.MemoryIsCanonicalAtReset :=
  ⟨Memory.wf_nil, Memory.wf_nil⟩

end Sys2Proof.Laws
end

