-- ==== Sys2Proof/Proofs/MemoryOfCells.lean ====
section
/-!
The canonical form of the memories (R11, R255, log 4) under the operations of homes, regions, cells and the memory machine.
-/

namespace Sys2Proof.Machine

/-! ### Rules

A fact about an operation that writes no memory is an equivalence, which simp rewrites by; one about an operation that may is an
implication. -/

@[simp] theorem memInv_ite {c : Prop} [Decidable c] {s t : State} : MemInv (if c then s else t) ↔ if c then MemInv s else MemInv t := by
  split <;> rfl

/-- An update of other fields than the two memories. -/
@[simp] theorem memInv_update {s : State}
    {agenda focus cyc free seq cells dies hostDeny poison chan hosts codecs regions tctx queues kernels newKernels time tset tsetw tstat slew
      hvbase hvsize hvhead hvirqs fwstat fwimage fwactive fwcode paused lcstat failmap corrected answer coll groups peerOut peerGot replay
      refills charges real sinceEdge sincePause} :
    MemInv ⟨agenda, focus, cyc, free, seq, cells, dies, s.mem, s.hostMem, hostDeny, poison, chan, hosts, codecs, regions, tctx, queues, kernels,
      newKernels, time, tset, tsetw, tstat, slew, hvbase, hvsize, hvhead, hvirqs, fwstat, fwimage, fwactive, fwcode, paused, lcstat,
      failmap, corrected, answer, coll, groups, peerOut, peerGot, replay, refills, charges, real, sinceEdge, sincePause⟩ ↔ MemInv s := Iff.rfl

theorem memInv_foldl {α : Type} {f : State → α → State} (hf : ∀ s x, MemInv s → MemInv (f s x)) (l : List α) {s : State} (h : MemInv s) :
    MemInv (l.foldl f s) := by
  induction l generalizing s with
  | nil => exact h
  | cons x l ih => exact ih (hf s x h)

@[simp] theorem memInv_foldl_iff {α : Type} {f : State → α → State} (hf : ∀ s x, MemInv (f s x) ↔ MemInv s) (l : List α) {s : State} :
    MemInv (l.foldl f s) ↔ MemInv s := by
  induction l generalizing s with
  | nil => rfl
  | cons x l ih => exact ih.trans (hf s x)

/-- The same where the fold carries more than the state. -/
theorem memInv_foldl_fst {α β : Type} {f : State × β → α → State × β} (hf : ∀ a x, MemInv a.1 → MemInv (f a x).1) (l : List α)
    {a : State × β} (h : MemInv a.1) : MemInv (l.foldl f a).1 := by
  induction l generalizing a with
  | nil => exact h
  | cons x l ih => exact ih (hf a x h)

@[simp] theorem memInv_foldl_fst_iff {α β : Type} {f : State × β → α → State × β} (hf : ∀ a x, MemInv (f a x).1 ↔ MemInv a.1)
    (l : List α) {a : State × β} : MemInv (l.foldl f a).1 ↔ MemInv a.1 := by
  induction l generalizing a with
  | nil => rfl
  | cons x l ih => exact ih.trans (hf a x)

/-! ### Homes, L2 and memory -/

@[simp] theorem memInv_setCell {s n c} : MemInv (setCell s n c) ↔ MemInv s := Iff.rfl

@[simp] theorem memInv_modCell {s n f} : MemInv (modCell s n f) ↔ MemInv s := Iff.rfl

@[simp] theorem memInv_setDie {s d x} : MemInv (setDie s d x) ↔ MemInv s := Iff.rfl

@[simp] theorem memInv_modDie {s d f} : MemInv (modDie s d f) ↔ MemInv s := Iff.rfl

@[simp] theorem memInv_unmarkAt {s n p} : MemInv (unmarkAt s n p) ↔ MemInv s := by simp [unmarkAt]

@[simp] theorem memInv_unmarkSeg {s n seg} : MemInv (unmarkSeg s n seg) ↔ MemInv s := by simp [unmarkSeg]

@[simp] theorem memInv_fresh {s} : MemInv (fresh s) ↔ MemInv s := Iff.rfl

/-- What reaches memory is written byte by byte. -/
@[simp] theorem memInv_memWriteLine {s line mask v} (h : MemInv s) : MemInv (memWriteLine s line mask v) := by
  obtain ⟨hm, hh⟩ := h
  unfold memWriteLine
  dsimp only
  split
  · refine ⟨?_, hh⟩
    dsimp only
    split
    · exact wf_writeNat _ _ _ _ hm
    · exact hm
  · split
    · exact ⟨hm, hh⟩
    · exact ⟨wf_writeMasked _ _ _ _ _ hm, hh⟩

@[simp] theorem memInv_homeStore {s sel line mask v} (h : MemInv s) : MemInv (homeStore s sel line mask v) := by
  unfold homeStore
  dsimp only
  split <;> simp [h]

@[simp] theorem memInv_homePutLine {s sel line mask v} (h : MemInv s) : MemInv (homePutLine s sel line mask v) := by simp [homePutLine, h]

@[simp] theorem memInv_l2Reach {s sel pa c who} : MemInv (l2Reach s sel pa c who) ↔ MemInv s := by
  unfold l2Reach
  dsimp only
  split
  · rfl
  · split <;> simp

@[simp] theorem memInv_l2Touch {s sel pa c} : MemInv (l2Touch s sel pa c) ↔ MemInv s := by simp [l2Touch]

@[simp] theorem memInv_useFree {s} : MemInv (useFree s) ↔ MemInv s := Iff.rfl

@[simp] theorem memInv_l2Choose {s sel line} : MemInv (l2Choose s sel line) ↔ MemInv s := by simp [l2Choose]

@[simp] theorem memInv_l2Evict {s d y} (h : MemInv s) : MemInv (l2Evict s d y) := by
  unfold l2Evict
  dsimp only
  repeat' split
  all_goals simp [h]

@[simp] theorem memInv_l2Displace {s d w} (h : MemInv s) : MemInv (l2Displace s d w) := by
  unfold l2Displace
  split <;> simp [h]

@[simp] theorem memInv_l2Begin {s d m} (h : MemInv s) : MemInv (l2Begin s d m) := by
  unfold l2Begin
  dsimp only
  split
  · simp [h]
  · split <;> simp [h]

@[simp] theorem memInv_l2FillStart {s d sl} (h : MemInv s) : MemInv (l2FillStart s d sl) := by
  unfold l2FillStart
  repeat' split
  all_goals simp [h]

@[simp] theorem memInv_l2Install {s d f} : MemInv (l2Install s d f) ↔ MemInv s := by simp [l2Install]

@[simp] theorem memInv_l2Bring {s sel line} (h : MemInv s) : MemInv (l2Bring s sel line) := by
  unfold l2Bring
  extract_lets d sl isM isF x u
  have hu : MemInv u := by
    dsimp only [u]
    split
    · exact h
    · split <;> simp [h]
  split <;> simp [hu]

@[simp] theorem memInv_codecBring {s sel line} (h : MemInv s) : MemInv (codecBring s sel line) := by simp [codecBring, h]

@[simp] theorem memInv_ownTouch {wr sel s line} (h : MemInv s) : MemInv (ownTouch wr sel s line) := by simp [ownTouch, h]

@[simp] theorem memInv_markDirty {s pa} (h : MemInv s) : MemInv (markDirty s pa) := by simp [markDirty, h]

@[simp] theorem memInv_homeWriteLine {s sel line mask v} (h : MemInv s) : MemInv (homeWriteLine s sel line mask v) :=
  by simp [homeWriteLine, h]

@[simp] theorem memInv_homeWrite {s sel pa n v} (h : MemInv s) : MemInv (homeWrite s sel pa n v) := by simp [homeWrite, h]

@[simp] theorem memInv_homeWriteLines (k) {s pa n v} (h : MemInv s) : MemInv (homeWriteLines k s pa n v) := by
  induction k generalizing s pa n v with
  | zero => exact h
  | succ k ih => simp [homeWriteLines, h, ih]

@[simp] theorem memInv_homeWriteN {s pa n v} (h : MemInv s) : MemInv (homeWriteN s pa n v) := by simp [homeWriteN, h]

@[simp] theorem memInv_ownRead {s pa n} (h : MemInv s) : MemInv (ownRead s pa n) :=
  memInv_foldl (fun _ _ => memInv_ownTouch) _ h

@[simp] theorem memInv_ownWrite {s pa n v} (h : MemInv s) : MemInv (ownWrite s pa n v) :=
  memInv_homeWriteN (memInv_foldl (fun _ _ => memInv_ownTouch) _ h)

@[simp] theorem memInv_l2FillInstall {s d sl} : MemInv (l2FillInstall s d sl) ↔ MemInv s := by
  unfold l2FillInstall
  split <;> simp

@[simp] theorem memInv_l2EvictAll {s d ys} (h : MemInv s) : MemInv (l2EvictAll s d ys) :=
  memInv_foldl (fun _ _ => memInv_l2Evict) _ h

/-! ### Regions, kernels and fault records -/

@[simp] theorem memInv_modRegion {s p f} : MemInv (modRegion s p f) ↔ MemInv s := Iff.rfl

@[simp] theorem memInv_rcbWrite {s r lo n v} (h : MemInv s) : MemInv (rcbWrite s r lo n v) := by simp [rcbWrite, h]

@[simp] theorem memInv_sendMsg {s n o snd home op} : MemInv (sendMsg s n o snd home op) ↔ MemInv s := Iff.rfl

@[simp] theorem memInv_holdCells {s cause causer ns} : MemInv (holdCells s cause causer ns) ↔ MemInv s := by
  simp [holdCells]

@[simp] theorem memInv_fileFreeze {s n} : MemInv (fileFreeze s n) ↔ MemInv s := by
  unfold fileFreeze
  dsimp only
  split <;> simp

@[simp] theorem memInv_closeFreeze {s n} : MemInv (closeFreeze s n) ↔ MemInv s := by simp [closeFreeze]

@[simp] theorem memInv_flushL1 {s n} : MemInv (flushL1 s n) ↔ MemInv s := by
  simp [flushL1]

@[simp] theorem memInv_freeAt {s n} : MemInv (freeAt s n) ↔ MemInv s := by simp [freeAt]

@[simp] theorem memInv_modKernel {s kid f} : MemInv (modKernel s kid f) ↔ MemInv s := Iff.rfl

@[simp] theorem memInv_setErem {s p v} (h : MemInv s) : MemInv (setErem s p v) := by
  unfold setErem
  split <;> simp [h]

@[simp] theorem memInv_addErem {s ps v} (h : MemInv s) : MemInv (addErem s ps v) :=
  memInv_foldl (fun _ _ h => by split <;> simp [h]) _ h

@[simp] theorem memInv_addEcons {s p v} (h : MemInv s) : MemInv (addEcons s p v) :=
  memInv_foldl (fun _ _ h => by simp [h]) _ h

@[simp] theorem memInv_chargeCell {s n} (h : MemInv s) : MemInv (chargeCell s n) := by
  unfold chargeCell
  dsimp only
  split
  · exact h
  · split <;> simp [h]

@[simp] theorem memInv_killKernel {s kid status} (h : MemInv s) : MemInv (killKernel s kid status) := by
  refine memInv_update.2 (memInv_foldl (fun s n h => ?_) _ h)
  split
  · split <;> simp [h]
  · exact h

@[simp] theorem memInv_killParts {s ps status} (h : MemInv s) : MemInv (killParts s ps status) :=
  memInv_update.2 (memInv_foldl (fun _ _ => memInv_killKernel) _ h)

@[simp] theorem memInv_fileRegion {s p rec_} (h : MemInv s) : MemInv (fileRegion s p rec_) := by
  unfold fileRegion
  dsimp only
  split <;> simp [h]

@[simp] theorem memInv_fileFirmware {s d rec_} (h : MemInv s) : MemInv (fileFirmware s d rec_) := by simp [fileFirmware, h]

@[simp] theorem memInv_fileHyper {s n rec_} : MemInv (fileHyper s n rec_) ↔ MemInv s := by simp [fileHyper]

@[simp] theorem memInv_faultPolicy {s p causer} (h : MemInv s) : MemInv (faultPolicy s p causer) := by
  unfold faultPolicy
  repeat' split
  all_goals simp [h]

/-! ### Contexts, flights and traps -/

@[simp] theorem memInv_modCtx {s n fw f} : MemInv (modCtx s n fw f) ↔ MemInv s := Iff.rfl

@[simp] theorem memInv_modCur {s f} : MemInv (modCur s f) ↔ MemInv s := Iff.rfl

@[simp] theorem memInv_modCurCell {s f} : MemInv (modCurCell s f) ↔ MemInv s := Iff.rfl

@[simp] theorem memInv_landCreg {s n fw k v} : MemInv (landCreg s n fw k v) ↔ MemInv s := by simp [landCreg]

@[simp] theorem memInv_raise {s cause slot dec info0 info1} : MemInv (raise s cause slot dec info0 info1) ↔ MemInv s := Iff.rfl

@[simp] theorem memInv_raiseIll {s k} : MemInv (raiseIll s k) ↔ MemInv s := Iff.rfl

@[simp] theorem memInv_launch {s f} : MemInv (launch s f) ↔ MemInv s := Iff.rfl

@[simp] theorem memInv_result {s l lat v} : MemInv (result s l lat v) ↔ MemInv s := Iff.rfl

@[simp] theorem memInv_vresult {s l lat v} : MemInv (vresult s l lat v) ↔ MemInv s := Iff.rfl

@[simp] theorem memInv_portWrite {s u k code v} : MemInv (portWrite s u k code v) ↔ MemInv s := Iff.rfl

@[simp] theorem memInv_depositWith {s n fw b reserved reg mem_ v} : MemInv (depositWith s n fw b reserved reg mem_ v) ↔ MemInv s :=
  by simp [depositWith]

@[simp] theorem memInv_deposit {s n fw b reserved v} : MemInv (deposit s n fw b reserved v) ↔ MemInv s := by simp [deposit]

@[simp] theorem memInv_fileTrap {s n fw ts count baddr scyc} (h : MemInv s) : MemInv (fileTrap s n fw ts count baddr scyc) := by
  unfold fileTrap
  split <;> simp [h]

@[simp] theorem memInv_takeTrap {s n fw ts count baddr scyc} (h : MemInv s) : MemInv (takeTrap s n fw ts count baddr scyc) :=
  by simp [takeTrap, h]

/-! ### Operands and move words -/

@[simp] theorem memInv_raiseCb {s k b} : MemInv (raiseCb s k b) ↔ MemInv s := Iff.rfl

@[simp] theorem memInv_withV {f : State → Vec → State} (hf : ∀ s v, MemInv (f s v) ↔ MemInv s) {s k src} :
    MemInv (withV s k src f) ↔ MemInv s := by
  unfold withV; split <;> simp [hf]

@[simp] theorem memInv_guarded {f : State → State} (hf : ∀ s, MemInv (f s) ↔ MemInv s) {s g} : MemInv (guarded s g f) ↔ MemInv s := by
  simp [guarded, hf]

@[simp] theorem memInv_moveWrite {s k lat t v} : MemInv (moveWrite s k lat t v) ↔ MemInv s := Iff.rfl

@[simp] theorem memInv_raisePriv {s k d} : MemInv (raisePriv s k d) ↔ MemInv s := Iff.rfl

@[simp] theorem memInv_writeS {s k d v} : MemInv (writeS s k d v) ↔ MemInv s := by simp [writeS]

@[simp] theorem memInv_writeV {s k d v} : MemInv (writeV s k d v) ↔ MemInv s := by simp [writeV]

@[simp] theorem memInv_cbScramble {s b} : MemInv (cbScramble s b) ↔ MemInv s := by simp [cbScramble]

@[simp] theorem memInv_putCb {s k b n v} : MemInv (putCb s k b n v) ↔ MemInv s := by simp [putCb]

@[simp] theorem memInv_writeCb {s k b n v} : MemInv (writeCb s k b n v) ↔ MemInv s := by simp [writeCb]

@[simp] theorem memInv_trigS {f : State → Word → State} (hf : ∀ s t, MemInv (f s t) ↔ MemInv s) {s u code k g src} :
    MemInv (trigS s u code k g src f) ↔ MemInv s := by
  simp [trigS, hf]

@[simp] theorem memInv_trigV {f : State → Vec → State} (hf : ∀ s t, MemInv (f s t) ↔ MemInv s) {s u code k g src} :
    MemInv (trigV s u code k g src f) ↔ MemInv s := by
  simp [trigV, hf]

@[simp] theorem memInv_trigM {f : State → Word → State} (hf : ∀ s t, MemInv (f s t) ↔ MemInv s) {s g src} :
    MemInv (trigM s g src f) ↔ MemInv s := by
  simp [trigM, hf]

@[simp] theorem memInv_trigMV {f : State → Vec → State} (hf : ∀ s t, MemInv (f s t) ↔ MemInv s) {s g src} :
    MemInv (trigMV s g src f) ↔ MemInv s := by
  simp [trigMV, hf]

/-! ### Flags and counts -/

@[simp] theorem memInv_putPred {s k i cond v} : MemInv (putPred s k i cond v) ↔ MemInv s := by simp [putPred]

@[simp] theorem memInv_cmpTarget {s k wm q sense p} : MemInv (cmpTarget s k wm q sense p) ↔ MemInv s := by
  unfold cmpTarget
  split <;> simp

@[simp] theorem memInv_compare {s k op t} : MemInv (compare s k op t) ↔ MemInv s := by simp [compare]

@[simp] theorem memInv_putFlag {s n v} : MemInv (putFlag s n v) ↔ MemInv s := Iff.rfl

@[simp] theorem memInv_turnAndPut {s p16} : MemInv (turnAndPut s p16) ↔ MemInv s := Iff.rfl

@[simp] theorem memInv_appendLanes {s n rcd step kindOff} (l : List Nat) : MemInv (appendLanes s n rcd step kindOff l) ↔ MemInv s := by
  induction l generalizing s with
  | nil => rfl
  | cons i l ih => simp [appendLanes, ih]

@[simp] theorem memInv_landCounts {s cell fw n nan inf rcd step kindOff} :
    MemInv (landCounts s cell fw n nan inf rcd step kindOff) ↔ MemInv s :=
  by simp [landCounts]

@[simp] theorem memInv_countsFlight {s cnt nan inf rcd} : MemInv (countsFlight s cnt nan inf rcd) ↔ MemInv s := by simp [countsFlight]

/-! ### Branches -/

@[simp] theorem memInv_decideBr {s taken bub kind target} : MemInv (decideBr s taken bub kind target) ↔ MemInv s := Iff.rfl

@[simp] theorem memInv_goRel {s i bub kind} : MemInv (goRel s i bub kind) ↔ MemInv s := Iff.rfl

@[simp] theorem memInv_goInd {f : State → State} (hf : ∀ s, MemInv (f s) ↔ MemInv s) {s i bub kind} :
    MemInv (goInd s i bub kind f) ↔ MemInv s := by
  simp [goInd, hf]

@[simp] theorem memInv_putReturn {s} : MemInv (putReturn s) ↔ MemInv s := Iff.rfl

@[simp] theorem memInv_loopBody {s i} : MemInv (loopBody s i) ↔ MemInv s := by simp [loopBody]

@[simp] theorem memInv_loopxBody {s i} : MemInv (loopxBody s i) ↔ MemInv s := by simp [loopxBody]

@[simp] theorem memInv_unspinPreds {s} (l : List Nat) : MemInv (unspinPreds s l) ↔ MemInv s := by
  induction l generalizing s with
  | nil => rfl
  | cons i l ih => simp [unspinPreds, ih]

@[simp] theorem memInv_unspinBody {s} : MemInv (unspinBody s) ↔ MemInv s := by simp [unspinBody]

@[simp] theorem memInv_uiretBody {s} : MemInv (uiretBody s) ↔ MemInv s := by simp [uiretBody]

@[simp] theorem memInv_ifenceBody {s} : MemInv (ifenceBody s) ↔ MemInv s := Iff.rfl

@[simp] theorem memInv_flipAct {s} : MemInv (flipAct s) ↔ MemInv s := Iff.rfl

@[simp] theorem memInv_endBody {s} : MemInv (endBody s) ↔ MemInv s := Iff.rfl

/-! ### The matrix unit -/

@[simp] theorem memInv_raiseAccExp {s t i} : MemInv (raiseAccExp s t i) ↔ MemInv s := Iff.rfl

@[simp] theorem memInv_advance {s push acc} : MemInv (advance s push acc) ↔ MemInv s := by
  unfold advance
  extract_lets c bad
  split
  · simp
  · rcases push with _ | ⟨ta, tb, a⟩ <;> dsimp only <;> split <;> simp

@[simp] theorem memInv_xGuard {f : State → State} (hf : ∀ s, MemInv (f s) ↔ MemInv s) {s} : MemInv (xGuard s f) ↔ MemInv s := by
  simp [xGuard, hf]

@[simp] theorem memInv_drainBody {s a r f b} : MemInv (drainBody s a r f b) ↔ MemInv s := by simp [drainBody]

@[simp] theorem memInv_mergeBody {s a r f b c} : MemInv (mergeBody s a r f b c) ↔ MemInv s := by simp [mergeBody]

@[simp] theorem memInv_unmarkAcc {s a p} : MemInv (unmarkAcc s a p) ↔ MemInv s := by simp [unmarkAcc]

@[simp] theorem memInv_clearBody {s a r w} : MemInv (clearBody s a r w) ↔ MemInv s := by simp [clearBody]

@[simp] theorem memInv_normBody {s a r w} : MemInv (normBody s a r w) ↔ MemInv s := Iff.rfl

@[simp] theorem memInv_rdmBody {s a r q} : MemInv (rdmBody s a r q) ↔ MemInv s := Iff.rfl

@[simp] theorem memInv_rdxBody {s a q} : MemInv (rdxBody s a q) ↔ MemInv s := Iff.rfl

@[simp] theorem memInv_wrmBody {s a r q c} : MemInv (wrmBody s a r q c) ↔ MemInv s := by simp [wrmBody]

@[simp] theorem memInv_wrxBody {s a q c} : MemInv (wrxBody s a q c) ↔ MemInv s := by simp [wrxBody]

/-! ### Scratchpad and memory triggers -/

@[simp] theorem memInv_watch {s sp b off len rd wr} : MemInv (watch s sp b off len rd wr) ↔ MemInv s := by simp [watch]

@[simp] theorem memInv_withSp {f : State → State} (hf : ∀ s, MemInv (f s) ↔ MemInv s) {s off len align idle rd wr} :
    MemInv (withSp s off len align idle rd wr f) ↔ MemInv s := by
  unfold withSp; split <;> simp [hf]

@[simp] theorem memInv_withMem {f : State → Handle → State} (hf : ∀ s h, MemInv (f s h) ↔ MemInv s) {s off len rd wr} :
    MemInv (withMem s off len rd wr f) ↔ MemInv s := by
  unfold withMem; dsimp only; split <;> simp [hf]

@[simp] theorem memInv_stream {s} : MemInv (stream s) ↔ MemInv s := Iff.rfl

@[simp] theorem memInv_resultFor {s l lat w} : MemInv (resultFor s l lat w) ↔ MemInv s := Iff.rfl

@[simp] theorem memInv_bankOp {s b} : MemInv (bankOp s b) ↔ MemInv s := Iff.rfl

@[simp] theorem memInv_replayDiff {s n m t idx field} : MemInv (replayDiff s n m t idx field) ↔ MemInv s := by
  unfold replayDiff
  split <;> simp

@[simp] theorem memInv_replayPush {s e} : MemInv (replayPush s e) ↔ MemInv s := by
  unfold replayPush
  dsimp only
  repeat' split
  all_goals simp

@[simp] theorem memInv_replayStart {s n t} : MemInv (replayStart s n t) ↔ MemInv s := by
  unfold replayStart
  dsimp only
  repeat' split
  all_goals simp

@[simp] theorem memInv_spLoad {s off len sg l} : MemInv (spLoad s off len sg l) ↔ MemInv s := by
  simp [spLoad]

@[simp] theorem memInv_spStore {s len v} : MemInv (spStore s len v) ↔ MemInv s := by
  simp [spStore]

@[simp] theorem memInv_memLoad {s off len sg l} : MemInv (memLoad s off len sg l) ↔ MemInv s :=
  memInv_withMem fun s h => by dsimp only; split <;> simp

@[simp] theorem memInv_memStore {s code len v b strict} : MemInv (memStore s code len v b strict) ↔ MemInv s := by simp [memStore]

@[simp] theorem memInv_pushMarker {s n scope fence fw} : MemInv (pushMarker s n scope fence fw) ↔ MemInv s := by simp [pushMarker]

@[simp] theorem memInv_pushAcquire {s n scope mark} : MemInv (pushAcquire s n scope mark) ↔ MemInv s := Iff.rfl

@[simp] theorem memInv_withScope {f : State → State} (hf : ∀ s, MemInv (f s) ↔ MemInv s) {s sc} :
    MemInv (withScope s sc f) ↔ MemInv s := by
  simp [withScope, hf]

@[simp] theorem memInv_memLoadAq {s t len} : MemInv (memLoadAq s t len) ↔ MemInv s := by
  simp [memLoadAq]

@[simp] theorem memInv_memStoreRl {s code len v} : MemInv (memStoreRl s code len v) ↔ MemInv s := by
  simp [memStoreRl]

@[simp] theorem memInv_spAtomic {s off len vec a k} : MemInv (spAtomic s off len vec a k) ↔ MemInv s := by
  simp [spAtomic]

@[simp] theorem memInv_memAtomic {s code off len cas128 a k} : MemInv (memAtomic s code off len cas128 a k) ↔ MemInv s := by
  unfold memAtomic
  dsimp only
  split <;> simp

@[simp] theorem memInv_copyBody {s t} : MemInv (copyBody s t) ↔ MemInv s := by
  unfold copyBody
  dsimp only
  split <;> simp

@[simp] theorem memInv_cbadvBody {s t} : MemInv (cbadvBody s t) ↔ MemInv s := by simp [cbadvBody]

@[simp] theorem memInv_tileBody {s store t} : MemInv (tileBody s store t) ↔ MemInv s := by
  unfold tileBody
  dsimp only
  split
  · simp
  · split <;> simp

/-! ### Translation -/

/-- The marks of a leaf are written to host memory, or at a home. -/
@[simp] theorem memInv_markLeaf {s l dirty} (h : MemInv s) : MemInv (markLeaf s l dirty) := by
  unfold markLeaf
  extract_lets e
  split
  · exact h
  · split
    · exact ⟨h.1, wf_writeNat _ _ _ _ h.2⟩
    · simp [h]

theorem memInv_translate {s t fetch va u k} (h : MemInv s) (ht : translate s t fetch va = .ok (u, k)) : MemInv u := by
  unfold translate at ht
  split at ht
  · cases ht
  · cases ht
    simp [h]

theorem memInv_translateVia {s d b t fetch va u k} (h : MemInv s) (ht : translateVia s d b t fetch va = .ok (u, k)) : MemInv u := by
  unfold translateVia at ht
  split at ht
  · exact memInv_translate h ht
  · extract_lets x hit s2 s1 v at ht
    have hv : MemInv v := by simp [v, h]
    split at ht
    · split at ht
      · cases ht
      · exact memInv_translate hv ht
    · extract_lets due w e at ht
      split at ht
      · exact memInv_translate hv ht
      · cases ht
        simp [w, hv]

@[simp] theorem memInv_markAt {s lvl addr inHost page size dirty} (h : MemInv s) : MemInv (markAt s lvl addr inHost page size dirty) :=
  by simp [markAt, h]

@[simp] theorem memInv_markLeaves {s b dirty} (h : MemInv s) : MemInv (markLeaves s b dirty) := by simp [markLeaves, h]

/-! ### Handles, the copy engine and links -/

@[simp] theorem memInv_mapBody {s t} : MemInv (mapBody s t) ↔ MemInv s := Iff.rfl

@[simp] theorem memInv_unmapBody {s t} : MemInv (unmapBody s t) ↔ MemInv s := Iff.rfl

@[simp] theorem memInv_probeBody {s t} : MemInv (probeBody s t) ↔ MemInv s := Iff.rfl

@[simp] theorem memInv_ceTrap {s cause sp b off rd wr} : MemInv (ceTrap s cause sp b off rd wr) ↔ MemInv s := Iff.rfl

@[simp] theorem memInv_ceSubmit {s k} (h : MemInv s) : MemInv (ceSubmit s k) := by
  have marked {s : State} (h : MemInv s) (b : Bool) (l : Handle) (dirty : Bool) :
      MemInv (if b = true then s else markLeaves s l dirty) := by simp [h]
  exact memInv_replayPush.2 (marked (marked (by simp [h]) _ _ _) _ _ _)

@[simp] theorem memInv_goBody {s t} (h : MemInv s) : MemInv (goBody s t) := by
  unfold goBody
  dsimp only
  repeat' split
  all_goals simp [h]

@[simp] theorem memInv_swapBody {s} : MemInv (swapBody s) ↔ MemInv s := Iff.rfl

@[simp] theorem memInv_pollBody {s} : MemInv (pollBody s) ↔ MemInv s := Iff.rfl

@[simp] theorem memInv_abortBody {s} : MemInv (abortBody s) ↔ MemInv s := Iff.rfl

@[simp] theorem memInv_sendBody {s p v} : MemInv (sendBody s p v) ↔ MemInv s := by
  unfold sendBody
  dsimp only
  split <;> simp

/-! ### Sys triggers -/

@[simp] theorem memInv_sysBody {s trig k t} : MemInv (sysBody s trig k t) ↔ MemInv s := by simp [sysBody]

/-! ### Landings -/

@[simp] theorem memInv_bankAct {s n fw x} : MemInv (bankAct s n fw x) ↔ MemInv s := by
  unfold bankAct
  dsimp only
  repeat' split
  all_goals simp

@[simp] theorem memInv_bankPhase {s n fw} : MemInv (bankPhase s n fw).1 ↔ MemInv s := by
  simp [bankPhase]

@[simp] theorem memInv_unmarkTgt {s n fw t} : MemInv (unmarkTgt s n fw t) ↔ MemInv s := by
  unfold unmarkTgt
  split <;> simp

@[simp] theorem memInv_unmarkTile {s n fw t} : MemInv (unmarkTile s n fw t) ↔ MemInv s := by simp [unmarkTile]

@[simp] theorem memInv_applyFlight {s n fw f} : MemInv (applyFlight s n fw f) ↔ MemInv s := by
  unfold applyFlight
  split <;> simp

@[simp] theorem memInv_applyTile {s n fw ks t} : MemInv (applyTile s n fw ks t) ↔ MemInv s := by simp [applyTile]

@[simp] theorem memInv_landArrival {n late ks acc p} : MemInv (landArrival n late ks acc p).1 ↔ MemInv acc.1 := by
  unfold landArrival
  dsimp only
  repeat' split
  all_goals simp

@[simp] theorem memInv_landBoxed {n ks acc d} : MemInv (landBoxed n ks acc d).1 ↔ MemInv acc.1 := by
  unfold landBoxed
  dsimp only
  split <;> simp

@[simp] theorem memInv_landPhase {s n fw} : MemInv (landPhase s n fw).1 ↔ MemInv s := by
  unfold landPhase
  dsimp only
  repeat' split
  all_goals simp [*]

@[simp] theorem memInv_countDown {s n fw} : MemInv (countDown s n fw) ↔ MemInv s := Iff.rfl

@[simp] theorem memInv_cycleEnd {s n fw} : MemInv (cycleEnd s n fw).1 ↔ MemInv s := by
  unfold cycleEnd
  dsimp only
  split <;> simp

/-! ### The memory machine -/

@[simp] theorem memInv_bindResult {s n fw id len sg v} : MemInv (bindResult s n fw id len sg v) ↔ MemInv s := Iff.rfl

@[simp] theorem memInv_writeLine {s n line pos} : MemInv (writeLine s n line pos) ↔ MemInv s := by simp [writeLine]

@[simp] theorem memInv_evictLine {s n line} : MemInv (evictLine s n line) ↔ MemInv s := by simp [evictLine]

@[simp] theorem memInv_l1Room {s n line} : MemInv (l1Room s n line) ↔ MemInv s := by
  unfold l1Room
  dsimp only
  split
  · rfl
  · split <;> simp

@[simp] theorem memInv_drainHead {s n} : MemInv (drainHead s n) ↔ MemInv s := by
  unfold drainHead
  split <;> simp

@[simp] theorem memInv_writeBackBody {s n line} : MemInv (writeBackBody s n line) ↔ MemInv s := by
  unfold writeBackBody
  dsimp only
  split <;> simp

@[simp] theorem memInv_soBody {s n} : MemInv (soBody s n) ↔ MemInv s := by
  unfold soBody
  dsimp only
  split <;> simp

@[simp] theorem memInv_ceWrite {s n r len v} : MemInv (ceWrite s n r len v) ↔ MemInv s := by
  unfold ceWrite
  split <;> simp

@[simp] theorem memInv_ceBreak {s n r o} : MemInv (ceBreak s n r o) ↔ MemInv s := Iff.rfl

@[simp] theorem memInv_ceLocal {s n r} : MemInv (ceLocal s n r) ↔ MemInv s := by simp [ceLocal]

@[simp] theorem memInv_ceRead {s n r} : MemInv (ceRead s n r) ↔ MemInv s := by simp [ceRead]

@[simp] theorem memInv_ceCount {s n fw} : MemInv (ceCount s n fw) ↔ MemInv s := Iff.rfl

@[simp] theorem memInv_ceEnd {s n r} : MemInv (ceEnd s n r) ↔ MemInv s := by simp [ceEnd]

@[simp] theorem memInv_ceStep {s n r} : MemInv (ceStep s n r) ↔ MemInv s := by simp [ceStep]

@[simp] theorem memInv_engineHead {s n} : MemInv (engineHead s n) ↔ MemInv s := by
  unfold engineHead
  dsimp only
  split <;> simp

@[simp] theorem memInv_trapNow {s n fw t} (h : MemInv s) : MemInv (trapNow s n fw t) := by simp [trapNow, h]

@[simp] theorem memInv_depositNow {s n fw b v} (h : MemInv s) : MemInv (depositNow s n fw b v) := by simp [depositNow, h]

@[simp] theorem memInv_landInbox {s n fw} (h : MemInv s) : MemInv (landInbox s n fw) := by
  unfold landInbox
  dsimp only
  split
  · exact h
  · exact memInv_foldl (fun _ _ => memInv_depositNow) _ (by simp [h])

@[simp] theorem memInv_depositInto {s n fw b v} (h : MemInv s) : MemInv (depositInto s n fw b v) := by
  unfold depositInto
  split
  · simp [h]
  · exact memInv_depositNow (memInv_landInbox h)

@[simp] theorem memInv_ceReport {s n k done status} (h : MemInv s) : MemInv (ceReport s n k done status) := by
  unfold ceReport
  split
  · exact memInv_depositInto h
  · exact h

@[simp] theorem memInv_completionBody {s n} (h : MemInv s) : MemInv (completionBody s n) := by
  unfold completionBody
  split <;> simp [h]

@[simp] theorem memInv_recordBody {s n} : MemInv (recordBody s n) ↔ MemInv s := by
  unfold recordBody
  dsimp only
  split <;> simp

@[simp] theorem memInv_fileRefusal {s n fetch o va f} : MemInv (fileRefusal s n fetch o va f) ↔ MemInv s := by simp [fileRefusal]

@[simp] theorem memInv_refuseAccess {s n o pa} : MemInv (refuseAccess s n o pa) ↔ MemInv s := by simp [refuseAccess]

/-- A message to the host writes host memory. -/
@[simp] theorem memInv_putHome {s m line mask v} (h : MemInv s) : MemInv (putHome s m line mask v) := by
  unfold putHome
  split
  · simp [h]
  · split
    · exact h
    · exact ⟨h.1, wf_writeMasked _ _ _ _ _ h.2⟩

@[simp] theorem memInv_putBytes {s m pa len v} (h : MemInv s) : MemInv (putBytes s m pa len v) := by simp [putBytes, h]

@[simp] theorem memInv_performWb {s m line ws} (h : MemInv s) : MemInv (performWb s m line ws) := by
  unfold performWb
  split <;> simp [h]

@[simp] theorem memInv_performFill {s m line kind} : MemInv (performFill s m line kind) ↔ MemInv s := by simp [performFill]

@[simp] theorem memInv_payRets (n) (k) {s} (h : MemInv s) : MemInv (payRets n k s) := by
  induction k generalizing s with
  | zero => exact h
  | succ k ih =>
    unfold payRets
    split
    · exact ih (by simp [h])
    · exact h

@[simp] theorem memInv_setRet {s n trig v} (h : MemInv s) : MemInv (setRet s n trig v) := by simp [setRet, h]

@[simp] theorem memInv_soDone {s n id} : MemInv (soDone s n id) ↔ MemInv s := Iff.rfl

@[simp] theorem memInv_performAtomic {s m pa off aop cas a k ret trig} (h : MemInv s) :
    MemInv (performAtomic s m pa off aop cas a k ret trig) := by
  unfold performAtomic
  dsimp only
  split <;> simp [h]

@[simp] theorem memInv_performEngRead {s m pa len off} : MemInv (performEngRead s m pa len off) ↔ MemInv s := by
  unfold performEngRead
  split <;> simp

@[simp] theorem memInv_performSoRead {s m id pa len} (h : MemInv s) : MemInv (performSoRead s m id pa len) := by
  unfold performSoRead
  dsimp only
  split
  · split
    · exact h
    · split <;> simp [h]
  · exact h

/-- A record for the hypervisor is written to host memory. -/
@[simp] theorem memInv_performOp {s m} (h : MemInv s) : MemInv (performOp s m) := by
  unfold performOp
  split
  case h_9 => exact ⟨h.1, wf_writeNat _ _ _ _ h.2⟩
  all_goals simp [h]

@[simp] theorem memInv_l2Serve {s who sel pa len c} : MemInv (l2Serve s who sel pa len c) ↔ MemInv s :=
  memInv_foldl_iff (fun _ _ => by simp) _

@[simp] theorem memInv_performSide {s m} : MemInv (performSide s m) ↔ MemInv s := by
  unfold performSide
  split <;> simp

@[simp] theorem memInv_performBody {s m} (h : MemInv s) : MemInv (performBody s m) := by
  unfold performBody
  split <;> simp [h]

@[simp] theorem memInv_modHost {s f g} : MemInv (modHost s f g) ↔ MemInv s := Iff.rfl

@[simp] theorem memInv_hostWiped {s f q rest} : MemInv (hostWiped s f q rest) ↔ MemInv s := by
  unfold hostWiped
  split <;> simp

@[simp] theorem memInv_hostBody {s f q rest} (h : MemInv s) : MemInv (hostBody s f q rest) := by
  unfold hostBody
  split <;> simp [h]

theorem memInv_hostReach {g : State → State} (hg : ∀ s, MemInv s → MemInv (g s)) {s f q} (h : MemInv s) : MemInv (hostReach s f q g) := by
  unfold hostReach
  dsimp only
  split
  · simp [h]
  · exact hg _ (by simp [h])

/-! ### Scalar units -/

@[simp] theorem memInv_aluOp {k g x u idx f s} : MemInv (aluOp k g x u idx f s) ↔ MemInv s := by
  simp [aluOp]

@[simp] theorem memInv_mulOp {k g x idx f s} : MemInv (mulOp k g x idx f s) ↔ MemInv s := by
  simp [mulOp]

@[simp] theorem memInv_divOp {k g x idx f s} : MemInv (divOp k g x idx f s) ↔ MemInv s := by
  simp [divOp]

@[simp] theorem memInv_cmpOp {k g x op s} : MemInv (cmpOp k g x op s) ↔ MemInv s := by
  simp [cmpOp]

/-! ### The transform unit -/

@[simp] theorem memInv_tGuard {f : State → State} (hf : ∀ s, MemInv (f s) ↔ MemInv s) {s} : MemInv (tGuard s f) ↔ MemInv s := by
  simp [tGuard, hf]

@[simp] theorem memInv_tileLand {s l} : MemInv (tileLand s l) ↔ MemInv s := Iff.rfl

@[simp] theorem memInv_cvtBody {s fi fo v p rm} : MemInv (cvtBody s fi fo v p rm) ↔ MemInv s := by simp [cvtBody]

@[simp] theorem memInv_expBody {s fi fo ts td lay b} : MemInv (expBody s fi fo ts td lay b) ↔ MemInv s := Iff.rfl

@[simp] theorem memInv_trBody {s ts td w} : MemInv (trBody s ts td w) ↔ MemInv s := Iff.rfl

@[simp] theorem memInv_packBody {s v td l m q} : MemInv (packBody s v td l m q) ↔ MemInv s := Iff.rfl

@[simp] theorem memInv_splitBody {s ts td the} : MemInv (splitBody s ts td the) ↔ MemInv s := by simp [splitBody]

@[simp] theorem memInv_supplyB {s w} : MemInv (supplyB s w) ↔ MemInv s := Iff.rfl

@[simp] theorem memInv_chkBody {s cls idx} : MemInv (chkBody s cls idx) ↔ MemInv s := by simp [chkBody]

/-! ### Vector units -/

@[simp] theorem memInv_vxOp {k g x u op low w f s} : MemInv (vxOp k g x u op low w f s) ↔ MemInv s := by
  simp [vxOp]

@[simp] theorem memInv_vxLogic {k g x u low f s} : MemInv (vxLogic k g x u low f s) ↔ MemInv s := by
  simp [vxLogic]

@[simp] theorem memInv_vfOp {k g x op fm f s} : MemInv (vfOp k g x op fm f s) ↔ MemInv s := by
  simp [vfOp]

@[simp] theorem memInv_vrOp {k g x op w lat f s} : MemInv (vrOp k g x op w lat f s) ↔ MemInv s := by
  simp [vrOp]

@[simp] theorem memInv_vrFp {k g x op fm f s} : MemInv (vrFp k g x op fm f s) ↔ MemInv s := by
  simp [vrFp]

/-! ### Slot words -/

/-- An outcome keeps the canonical form: its next state has it. -/
def KeepsMem : Host.Outcome State Fault Refusal → Prop
  | .next t => MemInv t
  | _ => True

theorem keepsMem_execMove {k g x d s} (h : MemInv s) : KeepsMem (execMove k g x d s) := by
  simp [execMove, KeepsMem, h]

theorem keepsMem_execCbRead {k g b n d s} (h : MemInv s) : KeepsMem (execCbRead k g b n d s) := by
  simp [execCbRead, KeepsMem, h]

/-- A slot word keeps the canonical form: of all of them only ce.go, which marks the leaves of its handles, writes memory at all. -/
theorem keepsMem_execSlot {s : State} (i : Instr) (h : MemInv s) : KeepsMem (execSlot i s) := by
  have gated {c : Prop} [Decidable c] {t : State} (ht : MemInv t ↔ MemInv s) : MemInv (if c then t else s) := by simp [ht, h]
  cases i with
  | br | brCall | brRet | brInd | brLoop | brLoopx | brUiret | brIfence | brSwap | brEnd | brCalli | brUnspin => exact gated (by simp)
  | move => exact keepsMem_execMove h
  | cbRead => exact keepsMem_execCbRead h
  | cbWriteV | cbWriteM => exact (memInv_guarded fun _ => by simp).2 h
  | aluMov | aluAdd | aluSub | aluAdds1 | aluAdds2 | aluAdds3 | aluAnd | aluOr | aluXor | aluAndn | aluShl | aluShr | aluSar | aluRol
  | aluRor | aluMin | aluMax | aluMinn | aluMaxn | aluSext | aluZext | aluBfx | aluBfxn | aluClz | aluCtz | aluPopc | aluBswap =>
    exact memInv_aluOp.2 h
  | mulMul | mulMulh | mulMulhn | mulMulhsn => exact memInv_mulOp.2 h
  | mulDinit | mulDinitn | mulDstep => exact memInv_divOp.2 h
  | mulDfix => exact (memInv_trigS fun _ _ => by simp).2 h
  | cmpEq | cmpNe | cmpLt | cmpLe | cmpGt | cmpGe | cmpLtn | cmpLen | cmpGtn | cmpGen | cmpTbit | cmpTany => exact memInv_cmpOp.2 h
  | dictLd | scanOut | scanIn | cellFrz | cellRsm | migSwap | cosWr | ownWr => exact (memInv_guarded fun _ => by simp).2 h
  | vxAdd | vxSub | vxAdds | vxAddsn | vxSubs | vxSubsn | vxMul | vxMin | vxMax | vxShl | vxShr | vxSar | vxCeq | vxClt | vxCltn =>
    exact memInv_vxOp.2 h
  | vxAnd | vxOr | vxXor | vxAndn => exact memInv_vxLogic.2 h
  | vfAdd | vfSub | vfMul | vfFma | vfFms | vfMin | vfMax | vfAbs | vfNeg | vfCeq | vfClt | vfCle | vfRcpe | vfRsqe =>
    exact memInv_vfOp.2 h
  | vrPerm | vrLsh | vrRot | vrRadd | vrRmax => exact memInv_vrOp.2 h
  | vrRfadd | vrRfmax => exact memInv_vrFp.2 h
  | vfToi | vfFromi | vrXtr => exact (memInv_trigV fun _ _ => by simp).2 h
  | lsuSldN8 | lsuSldI8 | lsuSldN16 | lsuSldI16 | lsuSldN32 | lsuSldI32 | lsuSld64 | lsuVlds | lsuSst8 | lsuSst16 | lsuSst32 | lsuSst64
  | lsuMldN8 | lsuMldI8 | lsuMldN16 | lsuMldI16 | lsuMldN32 | lsuMldI32 | lsuMld64 | lsuVldm | lsuMst8 | lsuMst16 | lsuMst32 | lsuMst64
  | lsuMldAq32 | lsuMldAq64 | lsuMstRl32 | lsuMstRl64 | lsuAmo | lsuL2amo | lsuCpy | lsuCbadv | lsuRel | lsuAcq | lsuFence | lsuTld
  | lsuTst | xltMap | xltUnmap | xltProbe | ceSwap | cePoll | ceAbort => exact (memInv_trigM fun _ _ => by simp).2 h
  | lsuVsts | lsuVstm | lsuVamo | lsuVcas128 | lnkSend => exact (memInv_trigMV fun _ _ => by simp).2 h
  | ceGo g x =>
    change MemInv (if moveOn s g then goBody s (readS s x) else s)
    simp [h]
  | mxPush | mxShift | mxAcc | mxPacc | mxDrain | mxMrg | mxClr | mxNorm | mxRdm | mxRdx | mxWrm | mxWrx =>
    exact (memInv_xGuard fun _ => by simp).2 h
  | xfCvt | xfExp | xfTr | xfSplit | xfPack | chk => exact (memInv_tGuard fun _ => by simp).2 h
  | longImmediate | bcast => exact memInv_supplyB.2 h
  | _ => exact h

@[simp] theorem memInv_afterSlot {s i} (h : MemInv s) : MemInv (afterSlot s i) := by
  have hk := keepsMem_execSlot i h
  unfold afterSlot
  split
  next ht => rwa [ht] at hk
  · exact h

end Sys2Proof.Machine
end

