-- ==== Sys2Proof/Proofs/MemoryOfTasks.lean ====
section
/-!
The canonical form of the memories under fetches, cycles, translation, images, scans and the launch of kernels.
-/

namespace Sys2Proof.Machine

/-! ### Fetched lines -/

@[simp] theorem memInv_startCyc {s n fw addr len b o} : MemInv (startCyc s n fw addr len b o) ↔ MemInv s := Iff.rfl

/-! ### Cycles -/

@[simp] theorem memInv_applyOutcome {s o} : MemInv (applyOutcome s o) ↔ MemInv s := by simp [applyOutcome]

@[simp] theorem memInv_actWords {s b out} (h : MemInv s) : MemInv (actWords s b out) := by
  have act {s : State} (h : MemInv s) (l : List Instr) : MemInv (l.foldl afterSlot s) := memInv_foldl (fun _ _ => memInv_afterSlot) l h
  unfold actWords
  dsimp only
  split
  · exact memInv_applyOutcome.2 (act (act (act h _) _) _)
  · exact act (act (act (act h _) _) _) _

@[simp] theorem memInv_runBundle {s n fw b addr len o out} (h : MemInv s) : MemInv (runBundle s n fw b addr len o out) :=
  by simp [runBundle, h]

@[simp] theorem memInv_pushStream {s n} : MemInv (pushStream s n) ↔ MemInv s := by
  simp [pushStream]

@[simp] theorem memInv_markInt {s n} : MemInv (markInt s n) ↔ MemInv s := by
  simp [markInt]

@[simp] theorem memInv_beginCycle {s n fw x} (h : MemInv s) : MemInv (beginCycle s n fw x) := by
  unfold beginCycle
  dsimp only
  repeat' split
  all_goals simp [h]

@[simp] theorem memInv_dbgStop {s n reason which cause} : MemInv (dbgStop s n reason which cause) ↔ MemInv s := by
  simp [dbgStop]

@[simp] theorem memInv_enterInterrupt {s n pend} : MemInv (enterInterrupt s n pend) ↔ MemInv s := Iff.rfl

@[simp] theorem memInv_interrupt {s n} : MemInv (interrupt s n) ↔ MemInv s := by simp [interrupt]

@[simp] theorem memInv_followInterrupt {s n o} : MemInv (followInterrupt s n o) ↔ MemInv s := by simp [followInterrupt]

@[simp] theorem memInv_debugAfter {s n} : MemInv (debugAfter s n) ↔ MemInv s := by
  unfold debugAfter
  dsimp only
  split <;> simp

@[simp] theorem memInv_spendEnergy {s n fw} : MemInv (spendEnergy s n fw) ↔ MemInv s := Iff.rfl

@[simp] theorem memInv_finishCycle {s n fw x y} (h : MemInv s) : MemInv (finishCycle s n fw x y) := by
  unfold finishCycle
  dsimp only
  repeat' split
  all_goals exact memInv_takeTrap (by simp [h])

@[simp] theorem memInv_stopAfter {s n y} : MemInv (stopAfter s n y) ↔ MemInv s := by simp [stopAfter]

@[simp] theorem memInv_settle {s n fw} (h : MemInv s) : MemInv (settle s n fw) := by
  simp [settle, h]

@[simp] theorem memInv_freezeCell {s cause causer n} : MemInv (freezeCell s cause causer n) ↔ MemInv s := Iff.rfl

@[simp] theorem memInv_asyncArrival {s n a} (h : MemInv s) : MemInv (asyncArrival s n a) := by
  unfold asyncArrival
  dsimp only
  split <;> simp [h]

@[simp] theorem memInv_landCome {s n fw} (h : MemInv s) : MemInv (landCome s n fw) :=
  memInv_foldl (fun _ _ => memInv_asyncArrival) _ (memInv_landInbox h)

@[simp] theorem memInv_groupWait {s nx causer cause} (h : MemInv s) : MemInv (groupWait s nx causer cause) := by
  refine memInv_foldl (fun s p h => ?_) _ (memInv_foldl (fun _ _ => memInv_landCome) _ h)
  dsimp only
  repeat' split
  all_goals simp [h]

@[simp] theorem memInv_retireCell {s n p} : MemInv (retireCell s n p) ↔ MemInv s := by simp [retireCell]

@[simp] theorem memInv_beforeIssue {s n fw x} (h : MemInv s) : MemInv (beforeIssue s n fw x) := by
  unfold beforeIssue
  split <;> simp [h]

@[simp] theorem memInv_groupCycle {s nx} (h : MemInv s) : MemInv (groupCycle s nx) := by
  unfold groupCycle
  extract_lets live u
  have hu : MemInv u := (memInv_foldl_iff (fun _ _ => by split <;> simp) _).2 h
  have begun := memInv_foldl_fst (f := fun (acc : State × List (Nat × Next × Cyc)) (p : Nat × Next) =>
    (beginCycle acc.1 p.1 false p.2, acc.2 ++ [(p.1, p.2, (beginCycle acc.1 p.1 false p.2).cyc)]))
    (fun _ _ => memInv_beginCycle) live (a := (u, [])) hu
  refine memInv_update.2 ((memInv_foldl_iff (fun _ _ => by simp) _).2 ((memInv_foldl_iff (fun _ _ => by simp) _).2 ?_))
  exact memInv_foldl (fun _ _ => memInv_finishCycle) _ begun

@[simp] theorem memInv_issueGroup {s n} (h : MemInv s) : MemInv (issueGroup s n) := by
  have hs : MemInv ((members s n).foldl (fun s m => settle s m false) s) := memInv_foldl (fun _ _ => memInv_settle) _ h
  unfold issueGroup
  dsimp only
  split
  · exact memInv_groupWait hs
  · split
    · exact memInv_foldl (fun _ _ => memInv_beforeIssue) _ hs
    · exact memInv_groupCycle hs

@[simp] theorem memInv_firmCycle {s n} (h : MemInv s) : MemInv (firmCycle s n) := by
  have hs : MemInv (settle s n true) := memInv_settle h
  unfold firmCycle
  dsimp only
  repeat' split
  all_goals simp [hs]

@[simp] theorem memInv_firmGroup {s n} (h : MemInv s) : MemInv (firmGroup s n) :=
  memInv_foldl (fun _ _ h => by dsimp only; split <;> simp [h]) _ h

@[simp] theorem memInv_fileWalk {s n cause info0 info1} : MemInv (fileWalk s n cause info0 info1) ↔ MemInv s := by simp [fileWalk]

@[simp] theorem memInv_lineFault {s n fw va f} (h : MemInv s) : MemInv (lineFault s n fw va f) := by simp [lineFault, h]

@[simp] theorem memInv_lineArrival {s n fw line} (h : MemInv s) : MemInv (lineArrival s n fw line) := by
  unfold lineArrival
  dsimp only
  split
  · split <;> simp [h]
  · split
    · exact h
    · split
      next u k ht =>
        have hu := memInv_translateVia h ht
        split
        · simp [hu]
        · simp [hu]
      next f _ =>
        split <;> simp [h]

@[simp] theorem memInv_landRest {s n fw} (h : MemInv s) : MemInv (landRest s n fw) := by simp [landRest, h]

/-! ### Walks and invalidations -/

@[simp] theorem memInv_walkBody {s n fw} (h : MemInv s) : MemInv (walkBody s n fw) := by
  unfold walkBody
  dsimp only
  split
  · exact h
  split
  · exact h
  split
  next ht => simp [memInv_translateVia h ht]
  · split
    · exact h
    · repeat' split
      all_goals simp [h]

@[simp] theorem memInv_modTctx {s k g} : MemInv (modTctx s k g) ↔ MemInv s := Iff.rfl

@[simp] theorem memInv_dropWalks {s k stage2 v} : MemInv (dropWalks s k stage2 v) ↔ MemInv s := Iff.rfl

@[simp] theorem memInv_invComplete {s k stage2} : MemInv (invComplete s k stage2) ↔ MemInv s := by
  unfold invComplete
  dsimp only
  split
  · rfl
  · simp

/-! ### Reads and writes of a command processor -/

@[simp] theorem memInv_homePutLines (d) {s l n v} (h : MemInv s) : MemInv (homePutLines s d l n v) := by
  induction d generalizing s l n v with
  | zero => simp [homePutLines, h]
  | succ d ih => simp [homePutLines, h, ih]

@[simp] theorem memInv_homePutBig {s pa n v} (h : MemInv s) : MemInv (homePutBig s pa n v) := by simp [homePutBig, h]

theorem memInv_cpHandle {s t va wr u k} (h : MemInv s) (hu : cpHandle s t va wr = some (u, k)) : MemInv u := by
  unfold cpHandle at hu
  split at hu
  next v e ht =>
    have hv := memInv_translate h ht
    obtain ⟨-, hu⟩ := Option.ite_none_left_eq_some.1 hu
    split at hu
    · obtain ⟨-, hu⟩ := Option.ite_none_left_eq_some.1 hu
      cases hu
      exact hv
    · cases hu
      exact memInv_ownTouch hv
  next => cases hu

theorem memInv_cpBlocks (t) (k) {s va u v} (h : MemInv s) (hu : cpBlocks t k s va = some (u, v)) : MemInv u := by
  induction k generalizing s va u v with
  | zero => cases hu; exact h
  | succ k ih =>
    unfold cpBlocks at hu
    split at hu
    · cases hu
    next hc =>
      obtain ⟨r, hr, e⟩ := Option.map_eq_some_iff.1 hu
      cases e
      exact ih (memInv_cpHandle h hc) hr

theorem memInv_cpRead {s t va n u v} (h : MemInv s) (hu : cpRead s t va n = some (u, v)) : MemInv u := by
  obtain ⟨r, hr, e⟩ := Option.map_eq_some_iff.1 hu
  cases e
  exact memInv_cpBlocks _ _ h hr

theorem memInv_cpRead64 {s t va u v} (h : MemInv s) (hu : cpRead64 s t va = some (u, v)) : MemInv u := by
  unfold cpRead64 at hu
  split at hu
  · cases hu
  next hc => cases hu; exact memInv_cpHandle h hc

/-- A command processor writes host memory, or at a home. -/
@[simp] theorem memInv_cpWrite64 {s t va v} (h : MemInv s) : MemInv (cpWrite64 s t va v) := by
  unfold cpWrite64
  split
  · exact h
  next hc =>
    have hu := memInv_cpHandle h hc
    split
    · exact ⟨hu.1, wf_writeNat _ _ _ _ hu.2⟩
    · exact memInv_homeWrite hu

theorem memInv_imageAtVirtual {s t va u v} (h : MemInv s) (hu : imageAtVirtual s t va = some (u, v)) : MemInv u := by
  unfold imageAtVirtual at hu
  split at hu
  · cases hu
  next h1 =>
    split at hu
    · cases hu
    · split at hu
      · cases hu
      next h2 =>
        obtain ⟨es, -, e⟩ := Option.map_eq_some_iff.1 hu
        cases e
        exact memInv_cpRead (memInv_cpRead h h1) h2

/-! ### Images -/

@[simp] theorem memInv_latchPut {s n v} : MemInv (latchPut s n v) ↔ MemInv s := Iff.rfl

@[simp] theorem memInv_segPut {s n seg v} : MemInv (segPut s n seg v) ↔ MemInv s := by simp [segPut]

@[simp] theorem memInv_scanned {s n segs} : MemInv (scanned s n segs) ↔ MemInv s := by simp [scanned]

@[simp] theorem memInv_imagePart {s base v lo hi} (h : MemInv s) : MemInv (imagePart s base v lo hi) := by simp [imagePart, h]

@[simp] theorem memInv_imageValid {s base valid} (h : MemInv s) : MemInv (imageValid s base valid) := by simp [imageValid, h]

@[simp] theorem memInv_readImage {s n base segs} : MemInv (readImage s n base segs) ↔ MemInv s := by
  simp [readImage]

/-! ### Scans and sys commands -/

@[simp] theorem memInv_layoutRecord {s d b k} (h : MemInv s) : MemInv (layoutRecord s d b k) := by simp [layoutRecord, h]

@[simp] theorem memInv_setSys {s d i c} : MemInv (setSys s d i c) ↔ MemInv s := Iff.rfl

@[simp] theorem memInv_scanStart {s d i c} (h : MemInv s) : MemInv (scanStart s d i c) := by
  unfold scanStart
  dsimp only
  split
  · simp [h]
  · split <;> simp [h]

@[simp] theorem memInv_saveFault {s n a} : MemInv (saveFault s n a) ↔ MemInv s := by simp [saveFault]

@[simp] theorem memInv_holdSave {s n part a} : MemInv (holdSave s n part a) ↔ MemInv s := by simp [holdSave]

@[simp] theorem memInv_rebind {s n base segs} (h : MemInv s) : MemInv (rebind s n base segs) := by
  unfold rebind
  extract_lets x kd tx ty r
  split
  · exact h
  split
  · exact h
  split
  · exact h
  extract_lets c old u v
  have hu : MemInv u := memInv_fresh.2 (memInv_foldl (fun _ _ h => by simp [h]) _ (memInv_chargeCell h))
  split
  · exact h
  · simp [v, hu]

@[simp] theorem memInv_scanMove {s d i c} (h : MemInv s) : MemInv (scanMove s d i c) := by
  unfold scanMove
  dsimp only
  split
  · split
    · exact h
    · split
      · simp [h]
      · split <;> simp [h]
  · simp [h]

@[simp] theorem memInv_dropPending {s n} : MemInv (dropPending s n) ↔ MemInv s := Iff.rfl

@[simp] theorem memInv_clearSeg {s n seg} : MemInv (clearSeg s n seg) ↔ MemInv s := by simp [clearSeg]

@[simp] theorem memInv_ownSeg {s n p seg} : MemInv (ownSeg s n p seg) ↔ MemInv s := by simp [ownSeg]

@[simp] theorem memInv_cosWrite {s d slice c field t} (h : MemInv s) : MemInv (cosWrite s d slice c field t) := by
  unfold cosWrite
  dsimp only
  split
  · exact memInv_foldl (fun _ _ => memInv_l2Displace) _ (by simp [h])
  · simp [h]

@[simp] theorem memInv_dictDone {s c} : MemInv (dictDone s c).1 ↔ MemInv s := by
  unfold dictDone
  repeat' split
  all_goals simp

@[simp] theorem memInv_rsmDone {s d i c} : MemInv (rsmDone s d i c).1 ↔ MemInv s := by
  unfold rsmDone
  repeat' split
  all_goals simp

@[simp] theorem memInv_cosDone {s d c} (h : MemInv s) : MemInv (cosDone s d c).1 := by
  unfold cosDone
  dsimp only
  repeat' split
  all_goals simp [h]

@[simp] theorem memInv_ownDone {s d i c} : MemInv (ownDone s d i c).1 ↔ MemInv s := by
  unfold ownDone
  dsimp only
  repeat' split
  all_goals simp


/-- The state in which a command goes on, and that in which it ends. -/
theorem memInv_frzDone {s d i c} (h : MemInv s) : MemInv (frzDone s d i c).1 ∧ ∀ r, (frzDone s d i c).2 = some r → MemInv r.1 := by
  unfold frzDone
  repeat' split
  all_goals simp [h]

theorem memInv_sysAct {s d i c} (h : MemInv s) : MemInv (sysAct s d i c).1 ∧ ∀ r, (sysAct s d i c).2 = some r → MemInv r.1 := by
  unfold sysAct
  split
  case h_2 => exact memInv_frzDone h
  case h_7 =>
    refine ⟨h, fun r hr => ?_⟩
    obtain ⟨-, hr⟩ := Option.ite_none_left_eq_some.1 hr
    obtain ⟨st, -, rfl⟩ := Option.map_eq_some_iff.1 hr
    exact h
  all_goals simp [h]

@[simp] theorem memInv_sysRecord {s d i c r} (h : MemInv s) : MemInv (sysRecord s d i c r) := by simp [sysRecord, h]

@[simp] theorem memInv_sysEnd {d i c r} : MemInv (sysEnd d i c r) ↔ MemInv r.1 := by
  simp [sysEnd]

@[simp] theorem memInv_sysFirst {s d} (l i) (h : MemInv s) : MemInv (sysFirst s d l i) := by
  induction l generalizing i with
  | nil => exact h
  | cons c cs ih =>
    unfold sysFirst
    split
    · split
      · simp [h]
      · exact ih _
    · split
      · exact ih _
      · obtain ⟨h1, h2⟩ := memInv_sysAct (d := d) (i := i) (c := c) h
        split
        next hr => simp [h2 _ (by rw [hr])]
        next hr =>
          rw [hr] at h1
          split
          · exact ih _
          · exact h1

/-! ### Queues, kernels and tasks -/

@[simp] theorem memInv_advanceTime {s dt} : MemInv (advanceTime s dt) ↔ MemInv s := by simp [advanceTime]

@[simp] theorem memInv_refillAll {s} (h : MemInv s) : MemInv (refillAll s) :=
  memInv_foldl (fun _ _ h => by split <;> simp [h]) _ h

@[simp] theorem memInv_pinAll {s p} : MemInv (pinAll s p) ↔ MemInv s := by
  simp [pinAll]

@[simp] theorem memInv_writeShares {s r} (h : MemInv s) : MemInv (writeShares s r) := by
  refine memInv_foldl (fun s d h => ?_) _ h
  extract_lets s1 s2 s3
  have h1 : MemInv s1 := memInv_cosWrite h
  have h2 : MemInv s2 := by
    dsimp only [s2]
    split
    · exact memInv_cosWrite h1
    · exact h1
  have h3 : MemInv s3 := memInv_cosWrite h2
  split <;> simp [h3]

@[simp] theorem memInv_forgetCtx {s part} : MemInv (forgetCtx s part) ↔ MemInv s := Iff.rfl

@[simp] theorem memInv_functionError {s f} (h : MemInv s) : MemInv (functionError s f) := by simp [functionError, h]

@[simp] theorem memInv_modQueue {s q f} : MemInv (modQueue s q f) ↔ MemInv s := Iff.rfl

@[simp] theorem memInv_pinRing {s k} : MemInv (pinRing s k) ↔ MemInv s := Iff.rfl

@[simp] theorem memInv_loadKernel {s r k} (h : MemInv s) : MemInv (loadKernel s r k).1 := by
  unfold loadKernel
  dsimp only
  split
  · exact h
  · split
    · exact h
    next h1 =>
      have h2 := memInv_cpRead h h1
      split
      · exact h2
      · split
        · exact h2
        · split
          · exact h2
          next h3 => exact memInv_imageAtVirtual h2 h3

@[simp] theorem memInv_takeIn {s q} (h : MemInv s) : MemInv (takeIn s q) := by
  unfold takeIn
  dsimp only
  split
  · exact h
  split
  · exact h
  split
  · exact h
  split
  · simp [h]
  next h1 =>
  split
  · simp [h]
  split
  · simp [h]
  next h2 =>
  have h3 := memInv_cpRead (memInv_cpRead64 h h1) h2
  split
  · exact h
  split
  · simp [h3]
  split <;> simp [h3]

@[simp] theorem memInv_resumeAll {s status} (h : MemInv s) : MemInv (resumeAll s status) :=
  memInv_foldl (fun _ _ => memInv_takeIn) _ (by simp [h])

@[simp] theorem memInv_tryActivate {s} (h : MemInv s) : MemInv (tryActivate s) := by
  unfold tryActivate
  split <;> simp [h]

@[simp] theorem memInv_admitKernel {s k r} (h : MemInv s) : MemInv (admitKernel s k r) := by
  unfold admitKernel
  split <;> simp [h]

@[simp] theorem memInv_fireEntry {s d i} (h : MemInv s) : MemInv (fireEntry s d i) := by
  unfold fireEntry
  dsimp only
  split <;> simp [h]

@[simp] theorem memInv_startCell {s k n tx ty r num} : MemInv (startCell s k n tx ty r num) ↔ MemInv s := Iff.rfl

@[simp] theorem memInv_takeTurn {s p} : MemInv (takeTurn s p) ↔ MemInv s := by
  unfold takeTurn
  split <;> simp

@[simp] theorem memInv_bindTask {s k c saved lead} : MemInv (bindTask s k c saved lead) ↔ MemInv s := by
  cases saved <;> simp [bindTask]

@[simp] theorem memInv_dispatch {s k lead} : MemInv (dispatch s k lead) ↔ MemInv s := by
  unfold dispatch
  split
  · split
    · rfl
    · split
      · exact memInv_foldl_iff (fun s c => by split <;> simp) _
      · simp
  · rfl

@[simp] theorem memInv_saveOne {s n base bytes} (h : MemInv s) : MemInv (saveOne s n base bytes) := by
  unfold saveOne
  dsimp only
  split <;> simp [h]

@[simp] theorem memInv_saveAll {bytes} (l) {s} (h : MemInv s) : MemInv (saveAll bytes s l) := by
  induction l generalizing s with
  | nil => exact h
  | cons e l ih => simp [saveAll, h, ih]

@[simp] theorem memInv_saveWhole {s valid ns} (h : MemInv s) : MemInv (saveWhole s valid ns) :=
  memInv_foldl (fun _ _ h => by split <;> simp [h]) _ h

@[simp] theorem memInv_leaveTask {s t ns base owner} (h : MemInv s) : MemInv (leaveTask s t ns base owner) := by
  refine memInv_modKernel.2 (memInv_fresh.2 (memInv_foldl (fun s n h => ?_) _ h))
  simp [h]

@[simp] theorem memInv_thaw {s ns} : MemInv (thaw s ns) ↔ MemInv s := by
  simp [thaw]

@[simp] theorem memInv_noSave {s ns} : MemInv (noSave s ns) ↔ MemInv s := by
  simp [noSave]

@[simp] theorem memInv_preemptSave {s kid victim t base} (h : MemInv s) : MemInv (preemptSave s kid victim t base) := by
  unfold preemptSave
  extract_lets ns p begun from_ u
  have hu : MemInv u := memInv_saveAll _ h
  split
  · simp [h]
  split
  · simp [h]
  split
  · exact h
  split
  · exact hu
  split
  · extract_lets v
    have hv : MemInv v := memInv_leaveTask (memInv_saveWhole hu)
    split <;> simp [hv]
  · exact memInv_leaveTask (memInv_saveWhole hu)

@[simp] theorem memInv_endTask {s t ns} (h : MemInv s) : MemInv (endTask s t ns) :=
  memInv_modKernel.2 (memInv_foldl (fun _ _ h => by simp [h]) _ h)

@[simp] theorem memInv_retireWord {s k} (h : MemInv s) : MemInv (retireWord s k) := by
  unfold retireWord
  repeat' split
  all_goals simp [h]

@[simp] theorem memInv_decrement {s k} (h : MemInv s) : MemInv (decrement s k) := by
  unfold decrement
  dsimp only
  split
  · exact h
  · split
    · exact h
    next hr => exact memInv_cpWrite64 (memInv_cpRead64 h hr)

end Sys2Proof.Machine
end

