-- ==== Sys2Proof/Proofs/MemoryOfSteps.lean ====
section
/-!
The canonical form of the memories under every event, and so under every step (R11, R255, log 4).
-/

namespace Sys2Proof.Machine

/-! ### Answers of the hypervisor -/

@[simp] theorem memInv_dropHeld {s n i} : MemInv (dropHeld s n i) ↔ MemInv s := Iff.rfl

@[simp] theorem memInv_noImages {s ns} : MemInv (endSave.noImages s ns) ↔ MemInv s := by
  simp [endSave.noImages]

@[simp] theorem memInv_endSave {s n} : MemInv (endSave s n) ↔ MemInv s := by
  unfold endSave
  dsimp only
  split
  · split <;> simp
  · simp

@[simp] theorem memInv_endHeld {s n i c} : MemInv (endHeld s n i c) ↔ MemInv s := by simp [endHeld]

@[simp] theorem memInv_retryScan {s n i c} (h : MemInv s) : MemInv (retryScan s n i c) := by simp [retryScan, h]

@[simp] theorem memInv_retryWalk {s n w} (h : MemInv s) : MemInv (retryWalk s n w) := by simp [retryWalk, h]

@[simp] theorem memInv_reflectWalk {s n w} (h : MemInv s) : MemInv (reflectWalk s n w) := by simp [reflectWalk, h]

@[simp] theorem memInv_killAt {s n} (h : MemInv s) : MemInv (killAt s n) := by
  unfold killAt
  dsimp only
  split
  · exact memInv_tryActivate (by simp [h])
  · exact h

theorem memInv_answerHeld {s n} {f : WalkHold → State} {g : Nat → SysCmd → State} (h : MemInv s) (hf : ∀ w, MemInv (f w))
    (hg : ∀ i c, MemInv (g i c)) : MemInv (answerHeld s n f g) := by
  unfold answerHeld
  split
  · exact hf _
  · exact hg _ _
  · exact h

@[simp] theorem memInv_hvRetry {n s} (h : MemInv s) : MemInv (hvRetry n s) :=
  memInv_answerHeld h (fun _ => memInv_retryWalk h) fun _ _ => memInv_retryScan h

@[simp] theorem memInv_hvReflect {n s} (h : MemInv s) : MemInv (hvReflect n s) :=
  memInv_answerHeld h (fun _ => memInv_reflectWalk h) fun _ _ => memInv_endHeld.2 h

@[simp] theorem memInv_hvKill {n s} (h : MemInv s) : MemInv (hvKill n s) :=
  memInv_answerHeld h (fun _ => memInv_killAt h) fun _ _ => memInv_killAt (memInv_endHeld.2 h)

@[simp] theorem memInv_hvrespWrite {s v} (h : MemInv s) : MemInv (hvrespWrite s v) := by
  unfold hvrespWrite
  split <;> simp [h]

/-! ### SPDM and TDISP -/

@[simp] theorem memInv_respond {s f code v} : MemInv (respond s f code v) ↔ MemInv s := Iff.rfl

@[simp] theorem memInv_refuseSpdm {s f} : MemInv (refuseSpdm s f) ↔ MemInv s := Iff.rfl

@[simp] theorem memInv_lockBody {s f} : MemInv (lockBody s f) ↔ MemInv s := by simp [lockBody]

@[simp] theorem memInv_startBody {s f} : MemInv (startBody s f) ↔ MemInv s := by simp [startBody]

@[simp] theorem memInv_stopBody {s f} : MemInv (stopBody s f) ↔ MemInv s := by simp [stopBody]

@[simp] theorem memInv_spdmStep {s f lo hi next code} : MemInv (spdmStep s f lo hi next code) ↔ MemInv s := by simp [spdmStep]

/-! ### The debugger -/

@[simp] theorem memInv_modDbg {s n f} : MemInv (modDbg s n f) ↔ MemInv s := Iff.rfl

@[simp] theorem memInv_haltBody {s n} : MemInv (haltBody s n) ↔ MemInv s := by simp [haltBody]

@[simp] theorem memInv_stepBody {s n} : MemInv (stepBody s n) ↔ MemInv s := by
  simp [stepBody]

@[simp] theorem memInv_runBody {s n} : MemInv (runBody s n) ↔ MemInv s := by simp [runBody]

@[simp] theorem memInv_dbgRefuse {s n} : MemInv (dbgRefuse s n) ↔ MemInv s := Iff.rfl

@[simp] theorem memInv_dbgPut {s n v} : MemInv (dbgPut s n v) ↔ MemInv s := by simp [dbgPut]

/-! ### Errors -/

@[simp] theorem memInv_countError {s d ue} : MemInv (countError s d ue) ↔ MemInv s := Iff.rfl

@[simp] theorem memInv_addFailure {s n k i} : MemInv (addFailure s n k i) ↔ MemInv s := Iff.rfl

@[simp] theorem memInv_countCorrection {s n k i} : MemInv (countCorrection s n k i) ↔ MemInv s := by simp [countCorrection]

@[simp] theorem memInv_scrubRecord {s die n info0 mem_} (h : MemInv s) : MemInv (scrubRecord s die n info0 mem_) := by simp [scrubRecord, h]

@[simp] theorem memInv_dropLine {s n i} : MemInv (dropLine s n i) ↔ MemInv s := Iff.rfl

@[simp] theorem memInv_scrubMemory {s die a bad file} (h : MemInv s) : MemInv (scrubMemory s die a bad file) := by simp [scrubMemory, h]

@[simp] theorem memInv_scrubUnit {s die a bad file} (h : MemInv s) : MemInv (scrubUnit s die a bad file) := by simp [scrubUnit, h]

@[simp] theorem memInv_failRecord {s m} (h : MemInv s) : MemInv (failRecord s m) := by simp [failRecord, h]

@[simp] theorem memInv_failSave {s ms p base} (h : MemInv s) : MemInv (failSave s ms p base) := by simp [failSave, h]

@[simp] theorem memInv_gangfailBody {s n base} (h : MemInv s) : MemInv (gangfailBody s n base) := by
  unfold gangfailBody
  extract_lets ms p u
  have hu : MemInv u := by
    dsimp only [u]
    split
    · exact h
    · exact memInv_failSave h
  split
  · exact h
  · split
    · exact memInv_faultPolicy (memInv_foldl (fun _ _ => memInv_failRecord) _ hu)
    · exact hu

@[simp] theorem memInv_fwResume {s die v} : MemInv (fwResume s die v) ↔ MemInv s := by
  unfold fwResume
  split <;> simp

@[simp] theorem memInv_fwStart {s die v} (h : MemInv s) : MemInv (fwStart s die v) := by
  unfold fwStart
  split <;> simp [h]

/-! ### Life cycle, activation and collectives -/

@[simp] theorem memInv_sendPiece {s b e kind v} : MemInv (sendPiece s b e kind v) ↔ MemInv s := Iff.rfl

@[simp] theorem memInv_ckSaveStep {s c} (h : MemInv s) : MemInv (ckSaveStep s c).1 := by
  unfold ckSaveStep
  dsimp only
  repeat' split
  all_goals simp [h]

@[simp] theorem memInv_ckLoadStep {s c} (h : MemInv s) : MemInv (ckLoadStep s c).1 := by
  unfold ckLoadStep
  dsimp only
  split
  · split <;> simp [h]
  · simp [h]

@[simp] theorem memInv_collRun {s c} (h : MemInv s) : MemInv (collRun s c).1 := by
  unfold collRun
  split <;> simp [h]

@[simp] theorem memInv_collSubmit {s op blk} : MemInv (collSubmit s op blk) ↔ MemInv s := Iff.rfl

@[simp] theorem memInv_collRecord {s c} (h : MemInv s) : MemInv (collRecord s c) := by simp [collRecord, h]

@[simp] theorem memInv_collNext (l) {s seen} (h : MemInv s) : MemInv (collNext s seen l) := by
  induction l generalizing s seen with
  | nil => simp [collNext, h]
  | cons c cs ih => simp [collNext, h, ih]

@[simp] theorem memInv_stageBody {s v} : MemInv (stageBody s v) ↔ MemInv s := by simp [stageBody]

@[simp] theorem memInv_activateBody {s v} (h : MemInv s) : MemInv (activateBody s v) := by
  unfold activateBody
  dsimp only
  split
  · simp [h]
  · split
    · simp [h]
    · exact memInv_tryActivate (by simp [h])

/-- A wipe leaves memory empty, and host memory as it is. -/
@[simp] theorem memInv_wipe {s} (h : MemInv s) : MemInv (wipe s) := ⟨Memory.wf_nil, h.2⟩

/-- A reset leaves memory empty, and host memory as it is. -/
@[simp] theorem memInv_resetBody {s} (h : MemInv s) : MemInv (resetBody s) := ⟨Memory.wf_nil, h.2⟩

@[simp] theorem memInv_lifeBody {s b} (h : MemInv s) : MemInv (lifeBody s b) := by simp [lifeBody, h]

/-! ### Time and energy -/

@[simp] theorem memInv_dieOffsets {s now} : MemInv (dieOffsets s now) ↔ MemInv s := by
  simp [dieOffsets]

@[simp] theorem memInv_edge {s} : MemInv (edge s) ↔ MemInv s := by simp [edge]

@[simp] theorem memInv_telAppend {s d rcd} (h : MemInv s) : MemInv (telAppend s d rcd) := by simp [telAppend, h]

/-! ### Registers -/

@[simp] theorem memInv_dbgctlWrite {s n v} : MemInv (dbgctlWrite s n v) ↔ MemInv s := by simp [dbgctlWrite]

@[simp] theorem memInv_ioWrite {s off v} (h : MemInv s) : MemInv (ioWrite s off v) := by simp [ioWrite, h]

@[simp] theorem memInv_modCodec {s r f} : MemInv (modCodec s r f) ↔ MemInv s := Iff.rfl

@[simp] theorem memInv_regWrite {s sp die off v} (h : MemInv s) : MemInv (regWrite s sp die off v) := by
  unfold regWrite
  split <;> simp [h]

@[simp] theorem memInv_crctlBody {s r v} : MemInv (crctlBody s r v) ↔ MemInv s := by simp [crctlBody]

@[simp] theorem memInv_drainRange {s a n} (h : MemInv s) : MemInv (drainRange s a n) :=
  memInv_foldl (fun _ _ => memInv_l2EvictAll) _ h

/-! ### Events -/

theorem keepsMem_execIssue {n s} (h : MemInv s) : KeepsMem (execIssue n s) := by simp [execIssue, KeepsMem, h]

theorem keepsMem_execResultLanding {n s} (h : MemInv s) : KeepsMem (execResultLanding n s) :=
  memInv_landRest (memInv_landRest (memInv_settle (memInv_settle h)))

theorem keepsMem_execFirmwareBundle {n s} (h : MemInv s) : KeepsMem (execFirmwareBundle n s) := by simp [execFirmwareBundle, KeepsMem, h]

theorem keepsMem_execGangStreamIssue {n s} (h : MemInv s) : KeepsMem (execGangStreamIssue n s) := by simp [execGangStreamIssue, KeepsMem, h]

theorem keepsMem_execCellFreeze {n s} (h : MemInv s) : KeepsMem (execCellFreeze n s) := by simp [execCellFreeze, KeepsMem, h]

theorem keepsMem_execLinkArrival {n s} (h : MemInv s) : KeepsMem (execLinkArrival n s) := by
  unfold execLinkArrival
  show MemInv _
  split <;> simp [h]

theorem keepsMem_execFillRequest {n id s} (h : MemInv s) : KeepsMem (execFillRequest n id s) := by
  unfold execFillRequest
  show MemInv _
  split <;> simp [h]

theorem keepsMem_execBind {n id s} (h : MemInv s) : KeepsMem (execBind n id s) := by
  unfold execBind
  show MemInv _
  split <;> simp [h]

theorem keepsMem_execAcquire {n s} (h : MemInv s) : KeepsMem (execAcquire n s) := by
  unfold execAcquire
  show MemInv _
  split <;> simp [h]

theorem keepsMem_execDrain {n s} (h : MemInv s) : KeepsMem (execDrain n s) := by simp [execDrain, KeepsMem, h]

theorem keepsMem_execPlace {n s} (h : MemInv s) : KeepsMem (execPlace n s) := by
  unfold execPlace
  show MemInv _
  split <;> simp [h]

theorem keepsMem_execComplete {n s} (h : MemInv s) : KeepsMem (execComplete n s) := by
  unfold execComplete
  show MemInv _
  split <;> simp [h]

theorem keepsMem_execEngine {n s} (h : MemInv s) : KeepsMem (execEngine n s) := by
  unfold execEngine
  show MemInv _
  split <;> simp [h]

theorem keepsMem_execPerform {id s} (h : MemInv s) : KeepsMem (execPerform id s) := by
  unfold execPerform
  split
  · exact h
  split
  · exact h
  split
  · trivial
  · exact memInv_performBody h

theorem keepsMem_execHost {f s} (h : MemInv s) : KeepsMem (execHost f s) := by
  unfold execHost
  split
  · exact h
  split
  · trivial
  show MemInv _
  split
  · exact memInv_hostWiped.2 h
  split
  · exact h
  · exact memInv_hostReach (fun _ => memInv_hostBody) h

theorem keepsMem_execHostAtomicWrite {f s} (h : MemInv s) : KeepsMem (execHostAtomicWrite f s) := by
  unfold execHostAtomicWrite
  show MemInv _
  split
  · dsimp only
    split
    · exact memInv_modHost.2 h
    · exact memInv_hostReach (fun _ h => memInv_homeWriteN (memInv_modHost.2 h)) h
  · exact h

theorem keepsMem_execTaskCompletion {n s} (h : MemInv s) : KeepsMem (execTaskCompletion n s) := by
  unfold execTaskCompletion
  show MemInv _
  split <;> simp [h]

theorem keepsMem_execInvreq {f v s} (h : MemInv s) : KeepsMem (execInvreq f v s) := by
  unfold execInvreq
  show MemInv _
  split <;> simp [h]

theorem keepsMem_execHinvreq {v s} (h : MemInv s) : KeepsMem (execHinvreq v s) := by
  unfold execHinvreq
  show MemInv _
  dsimp only
  split <;> simp [h]

theorem keepsMem_execInvalidationComplete {f stage2 s} (h : MemInv s) : KeepsMem (execInvalidationComplete f stage2 s) := by
  unfold execInvalidationComplete
  show MemInv _
  split <;> simp [h]

theorem keepsMem_execNegotiateAlgorithms {f s} (h : MemInv s) : KeepsMem (execNegotiateAlgorithms f s) :=
  by simp [execNegotiateAlgorithms, KeepsMem, h]

theorem keepsMem_execGetMeasurements {f idx s} (h : MemInv s) : KeepsMem (execGetMeasurements f idx s) :=
  by simp [execGetMeasurements, KeepsMem, h]

theorem keepsMem_execKeyUpdate {f s} (h : MemInv s) : KeepsMem (execKeyUpdate f s) := by simp [execKeyUpdate, KeepsMem, h]

theorem keepsMem_execEndSession {f s} (h : MemInv s) : KeepsMem (execEndSession f s) := by simp [execEndSession, KeepsMem, h]

theorem keepsMem_execVendorDefinedRequest {f msg s} (h : MemInv s) : KeepsMem (execVendorDefinedRequest f msg s) := by
  unfold execVendorDefinedRequest
  show MemInv _
  split <;> simp [h]

theorem keepsMem_execQnotify {q v s} (h : MemInv s) : KeepsMem (execQnotify q v s) := by simp [execQnotify, KeepsMem, h]

theorem keepsMem_execQnotifyCancel {q v s} (h : MemInv s) : KeepsMem (execQnotifyCancel q v s) := by
  unfold execQnotifyCancel
  show MemInv _
  dsimp only
  repeat' split
  all_goals simp [h]

theorem keepsMem_execKernelAdmission {kid s} (h : MemInv s) : KeepsMem (execKernelAdmission kid s) := by
  unfold execKernelAdmission
  show MemInv _
  split
  · split
    · split <;> simp [h]
    · exact h
  · exact memInv_foldl (fun _ _ => memInv_takeIn) _ h

theorem keepsMem_execTaskDispatch {kid lead s} (h : MemInv s) : KeepsMem (execTaskDispatch kid lead s) := by
  unfold execTaskDispatch
  show MemInv _
  split <;> simp [h]

theorem keepsMem_execPreemption {kid victim base s} (h : MemInv s) : KeepsMem (execPreemption kid victim base s) := by
  unfold execPreemption
  show MemInv _
  repeat' split
  all_goals simp [h]

theorem keepsMem_execPacketRetirement {kid s} (h : MemInv s) : KeepsMem (execPacketRetirement kid s) := by
  unfold execPacketRetirement
  show MemInv _
  repeat' split
  all_goals simp [h]

theorem keepsMem_execAdmitRcb {pa s} (h : MemInv s) : KeepsMem (execAdmitRcb pa s) := by
  have hu : MemInv (ownRead s pa 256) := memInv_ownRead h
  unfold execAdmitRcb
  show MemInv _
  extract_lets u
  split
  · exact memInv_pinAll.2 (memInv_writeShares (memInv_rcbWrite (memInv_rcbWrite (memInv_update.2 hu))))
  · exact memInv_update.2 hu

theorem keepsMem_execQueueContextWrite {q v s} (h : MemInv s) : KeepsMem (execQueueContextWrite q v s) :=
  by simp [execQueueContextWrite, KeepsMem, h]

theorem keepsMem_execTranslationContextWrite {part v s} (h : MemInv s) : KeepsMem (execTranslationContextWrite part v s) :=
  by simp [execTranslationContextWrite, KeepsMem, h]

theorem keepsMem_execSubtreeRelease {part s} (h : MemInv s) : KeepsMem (execSubtreeRelease part s) := by
  unfold execSubtreeRelease
  show MemInv _
  repeat' split
  all_goals simp [h]

theorem keepsMem_execEnergyRefill {dt s} (h : MemInv s) : KeepsMem (execEnergyRefill dt s) := by simp [execEnergyRefill, KeepsMem, h]

theorem keepsMem_execEnergyCharge {dt s} (h : MemInv s) : KeepsMem (execEnergyCharge dt s) := by
  unfold execEnergyCharge
  show MemInv _
  dsimp only
  split
  · exact memInv_foldl (fun _ _ => memInv_chargeCell) _ (by simp [h])
  · simp [h]

theorem keepsMem_execTelemetrySample {die pwr hbmt qt s} (h : MemInv s) : KeepsMem (execTelemetrySample die pwr hbmt qt s) :=
  by simp [execTelemetrySample, KeepsMem, h]

theorem keepsMem_execThermalThreshold {die qt s} (h : MemInv s) : KeepsMem (execThermalThreshold die qt s) :=
  by simp [execThermalThreshold, KeepsMem, h]

theorem keepsMem_execScrub {die addr bad s} (h : MemInv s) : KeepsMem (execScrub die addr bad s) := by simp [execScrub, KeepsMem, h]

theorem keepsMem_execScheduleTableFiring {die i_ dt s} (h : MemInv s) : KeepsMem (execScheduleTableFiring die i_ dt s) :=
  by simp [execScheduleTableFiring, KeepsMem, h]

theorem keepsMem_execPpsEdge {dt s} (h : MemInv s) : KeepsMem (execPpsEdge dt s) := by simp [execPpsEdge, KeepsMem, h]

theorem keepsMem_execCrctlWrite {r v s} (h : MemInv s) : KeepsMem (execCrctlWrite r v s) := by simp [execCrctlWrite, KeepsMem, h]

theorem keepsMem_execCodecDrainEnd {r s} (h : MemInv s) : KeepsMem (execCodecDrainEnd r s) := by simp [execCodecDrainEnd, KeepsMem, h]

theorem keepsMem_execScanTransfer {die n s} (h : MemInv s) : KeepsMem (execScanTransfer die n s) := by
  unfold execScanTransfer
  show MemInv _
  split <;> simp [h]

theorem keepsMem_execSysCompletion {die s} (h : MemInv s) : KeepsMem (execSysCompletion die s) := by simp [execSysCompletion, KeepsMem, h]

theorem keepsMem_execDbgdataRead {n part s} (h : MemInv s) : KeepsMem (execDbgdataRead n part s) := by simp [execDbgdataRead, KeepsMem, h]

theorem keepsMem_execDbgdataWrite {n part v s} (h : MemInv s) : KeepsMem (execDbgdataWrite n part v s) :=
  by simp [execDbgdataWrite, KeepsMem, h]

theorem keepsMem_execPreciseStop {n s} (h : MemInv s) : KeepsMem (execPreciseStop n s) := by simp [execPreciseStop, KeepsMem, h]

theorem keepsMem_execPreciseStopTimeout {n s} (h : MemInv s) : KeepsMem (execPreciseStopTimeout n s) :=
  by simp [execPreciseStopTimeout, KeepsMem, h]

/-- The end of a wipe leaves memory empty. -/
theorem keepsMem_execWipeEnd {s} (h : MemInv s) : KeepsMem (execWipeEnd s) := by
  unfold execWipeEnd
  show MemInv _
  split
  · exact ⟨Memory.wf_nil, h.2⟩
  · exact h

theorem keepsMem_execFwack {f s} (h : MemInv s) : KeepsMem (execFwack f s) := by simp [execFwack, KeepsMem, h]

theorem keepsMem_execFwActivationTimeout {s} (h : MemInv s) : KeepsMem (execFwActivationTimeout s) :=
  by simp [execFwActivationTimeout, KeepsMem, h]

theorem keepsMem_execCollectiveCompletion {s} (h : MemInv s) : KeepsMem (execCollectiveCompletion s) :=
  by simp [execCollectiveCompletion, KeepsMem, h]

theorem keepsMem_execHalfReadLow {f sp die off s} (h : MemInv s) : KeepsMem (execHalfReadLow f sp die off s) :=
  by simp [execHalfReadLow, KeepsMem, h]

theorem keepsMem_execHalfReadHigh {f s} (h : MemInv s) : KeepsMem (execHalfReadHigh f s) := by simp [execHalfReadHigh, KeepsMem, h]

theorem keepsMem_execRegisterWrite {sp die off v s} (h : MemInv s) : KeepsMem (execRegisterWrite sp die off v s) :=
  by simp [execRegisterWrite, KeepsMem, h]

theorem keepsMem_execPeerPortAccess {port wr addr v s} (h : MemInv s) : KeepsMem (execPeerPortAccess port wr addr v s) :=
  by simp [execPeerPortAccess, KeepsMem, h]

theorem keepsMem_execRcbTeardown {part s} (h : MemInv s) : KeepsMem (execRcbTeardown part s) := by simp [execRcbTeardown, KeepsMem, h]

/-- What the head of the agenda does keeps the canonical form. -/
theorem keepsMem_exec {s : State} (i : Instr) (h : MemInv s) : KeepsMem (exec i s) := by
  have slot := keepsMem_execSlot i h
  cases i with
  | issue => exact keepsMem_execIssue h
  | resultLanding => exact keepsMem_execResultLanding h
  | firmwareBundle => exact keepsMem_execFirmwareBundle h
  | gangStreamIssue => exact keepsMem_execGangStreamIssue h
  | fetchLineArrival => exact memInv_lineArrival h
  | cellFreeze => exact keepsMem_execCellFreeze h
  | linkArrival => exact keepsMem_execLinkArrival h
  | fillRequest => exact keepsMem_execFillRequest h
  | bind => exact keepsMem_execBind h
  | acquire => exact keepsMem_execAcquire h
  | drain => exact keepsMem_execDrain h
  | place => exact keepsMem_execPlace h
  | writeBack => exact memInv_writeBackBody.2 h
  | complete => exact keepsMem_execComplete h
  | so => exact memInv_soBody.2 h
  | engine => exact keepsMem_execEngine h
  | record => exact memInv_recordBody.2 h
  | perform => exact keepsMem_execPerform h
  | host => exact keepsMem_execHost h
  | hostAtomicWrite => exact keepsMem_execHostAtomicWrite h
  | fillStart => exact memInv_l2FillStart h
  | ceCompletion => exact memInv_completionBody h
  | taskCompletion => exact keepsMem_execTaskCompletion h
  | translationWalk => exact memInv_walkBody h
  | invreq => exact keepsMem_execInvreq h
  | hinvreq => exact keepsMem_execHinvreq h
  | invalidationComplete => exact keepsMem_execInvalidationComplete h
  | hvrespRetry => exact memInv_hvRetry h
  | hvrespReflect => exact memInv_hvReflect h
  | hvrespKill => exact memInv_hvKill h
  | lockInterfaceRequest => exact memInv_lockBody.2 h
  | startInterfaceRequest => exact memInv_startBody.2 h
  | stopInterfaceRequest => exact memInv_stopBody.2 h
  | tdispError => exact memInv_functionError h
  | getVersion | getCapabilities | getDigests | getCertificate | challenge | keyExchange | finish | heartbeat => exact memInv_spdmStep.2 h
  | negotiateAlgorithms => exact keepsMem_execNegotiateAlgorithms h
  | getMeasurements => exact keepsMem_execGetMeasurements h
  | keyUpdate => exact keepsMem_execKeyUpdate h
  | endSession => exact keepsMem_execEndSession h
  | vendorDefinedRequest => exact keepsMem_execVendorDefinedRequest h
  | qnotify => exact keepsMem_execQnotify h
  | qnotifyCancel => exact keepsMem_execQnotifyCancel h
  | kernelAdmission => exact keepsMem_execKernelAdmission h
  | taskDispatch => exact keepsMem_execTaskDispatch h
  | preemption => exact keepsMem_execPreemption h
  | packetRetirement => exact keepsMem_execPacketRetirement h
  | admitRcb => exact keepsMem_execAdmitRcb h
  | queueContextWrite => exact keepsMem_execQueueContextWrite h
  | translationContextWrite => exact keepsMem_execTranslationContextWrite h
  | subtreeRelease => exact keepsMem_execSubtreeRelease h
  | energyRefill => exact keepsMem_execEnergyRefill h
  | energyCharge => exact keepsMem_execEnergyCharge h
  | energyCalibration => exact memInv_useFree.2 h
  | telemetrySample => exact keepsMem_execTelemetrySample h
  | thermalThreshold => exact keepsMem_execThermalThreshold h
  | scrub => exact keepsMem_execScrub h
  | scheduleTableFiring => exact keepsMem_execScheduleTableFiring h
  | ppsEdge => exact keepsMem_execPpsEdge h
  | slewEnd | lockTimeout => exact memInv_advanceTime.2 h
  | crctlWrite => exact keepsMem_execCrctlWrite h
  | codecDrainEnd => exact keepsMem_execCodecDrainEnd h
  | scanTransfer => exact keepsMem_execScanTransfer h
  | sysCompletion => exact keepsMem_execSysCompletion h
  | fwrsmResume => exact memInv_fwResume.2 h
  | fwrsmStart => exact memInv_fwStart h
  | halt => exact memInv_haltBody.2 h
  | step => exact memInv_stepBody.2 h
  | run => exact memInv_runBody.2 h
  | dbgdataRead => exact keepsMem_execDbgdataRead h
  | dbgdataWrite => exact keepsMem_execDbgdataWrite h
  | preciseStop => exact keepsMem_execPreciseStop h
  | preciseStopTimeout => exact keepsMem_execPreciseStopTimeout h
  | gangfail => exact memInv_gangfailBody h
  | deviceReset => exact memInv_resetBody h
  | lifecycleChange => exact memInv_lifeBody h
  | wipeEnd => exact keepsMem_execWipeEnd h
  | fwcmdStage => exact memInv_stageBody.2 h
  | fwcmdActivate => exact memInv_activateBody h
  | fwack => exact keepsMem_execFwack h
  | fwActivationTimeout => exact keepsMem_execFwActivationTimeout h
  | cksave | ckload => exact memInv_collSubmit.2 h
  | collectiveCompletion => exact keepsMem_execCollectiveCompletion h
  | halfReadLow => exact keepsMem_execHalfReadLow h
  | halfReadHigh => exact keepsMem_execHalfReadHigh h
  | registerWrite => exact keepsMem_execRegisterWrite h
  | fillInstall => exact memInv_l2FillInstall.2 h
  | peerPortAccess => exact keepsMem_execPeerPortAccess h
  | rcbTeardown => exact keepsMem_execRcbTeardown h
  | _ => exact slot

/-! ### Steps -/

/-- An event is what some instruction does. -/
def IsExec (f : Event) : Prop := ∃ i, f = exec i

theorem isExec_exec (i : Instr) : IsExec (exec i) := ⟨i, rfl⟩

theorem cellEvents_isExec (s : State) (n : Nat) : ∀ f ∈ cellEvents s n, IsExec f := by
  unfold cellEvents
  extract_lets x want narrow
  have wants (fw : Bool) (c : Ctx) : ∀ f ∈ want fw c, IsExec f := by
    dsimp only [want]
    split
    · exact List.forall_mem_singleton.2 (isExec_exec (.fetchLineArrival n fw _))
    · exact List.forall_mem_nil _
  have narrows : ∀ f ∈ narrow, IsExec f := by
    dsimp only [narrow]
    split
    · exact List.forall_mem_singleton.2 (isExec_exec (.fillRequest n _))
    · exact List.forall_mem_nil _
  simp only [List.forall_mem_append, List.forall_mem_cons, List.forall_mem_map, List.not_mem_nil, false_implies, implies_true, and_true,
    and_assoc]
  exact ⟨wants _ _, wants _ _, isExec_exec (.translationWalk n false), isExec_exec (.translationWalk n true), isExec_exec (.acquire n),
    fun e _ => isExec_exec (.bind n (loadId e)), fun e _ => isExec_exec (.fillRequest n (loadId e)), narrows, isExec_exec (.drain n),
    isExec_exec (.place n), fun e _ => isExec_exec (.writeBack n e.line), isExec_exec (.complete n), isExec_exec (.so n),
    isExec_exec (.engine n), isExec_exec (.ceCompletion n), isExec_exec (.record n), isExec_exec (.linkArrival n),
    isExec_exec (.cellFreeze n), isExec_exec (.preciseStop n), isExec_exec (.preciseStopTimeout n), isExec_exec (.taskCompletion n)⟩

/-- A list of events that is given under a condition. -/
theorem isExec_unless {c : Prop} [Decidable c] {l : List Event} (h : ∀ f ∈ l, IsExec f) : ∀ f ∈ (if c then [] else l), IsExec f := by
  split
  · exact List.forall_mem_nil _
  · exact h

theorem sharedEvents_isExec (s : State) : ∀ f ∈ sharedEvents s, IsExec f := by
  unfold sharedEvents
  extract_lets die kernel saves fails
  have dies (e : Nat × Die) : ∀ f ∈ die e, IsExec f := by
    simp only [die, List.forall_mem_append, List.forall_mem_map]
    refine ⟨⟨fun f _ => isExec_exec (.fillInstall e.1 f.slice), fun m _ => isExec_exec (.fillStart e.1 m.slice)⟩, isExec_unless ?_⟩
    simp only [List.forall_mem_append, List.forall_mem_map, List.forall_mem_singleton]
    exact ⟨fun n _ => isExec_exec (.scanTransfer e.1 n), isExec_exec (.sysCompletion e.1)⟩
  have kernels (k : Kernel) : ∀ f ∈ kernel k, IsExec f := by
    simp only [kernel, List.forall_mem_append, List.forall_mem_singleton]
    refine ⟨⟨isExec_exec (.kernelAdmission k.kid), ?_⟩, isExec_exec (.packetRetirement k.kid)⟩
    split
    · exact List.forall_mem_singleton.2 (isExec_exec (.taskDispatch k.kid _))
    · exact List.forall_mem_map.2 fun n _ => isExec_exec (.preemption k.kid n _)
  have saved : ∀ f ∈ saves, IsExec f := by
    simp only [saves, List.mem_filterMap, Option.map_eq_some_iff]
    rintro f ⟨n, -, k, -, rfl⟩
    exact isExec_exec (.preemption k n _)
  have hosts (e : Nat × HostFn) : ∀ f ∈ (if e.2.queue.isEmpty then [] else [execHost e.1, execHostAtomicWrite e.1] : List Event), IsExec f :=
    isExec_unless (by
      simp only [List.forall_mem_cons, List.not_mem_nil, false_implies, implies_true, and_true]
      exact ⟨isExec_exec (.host e.1), isExec_exec (.hostAtomicWrite e.1)⟩)
  have each {α : Type} {g : α → List Event} (hg : ∀ x, ∀ f ∈ g x, IsExec f) (l : List α) : ∀ f ∈ (l.map g).flatten, IsExec f := by
    simp only [List.mem_flatten, List.mem_map]
    rintro f ⟨-, ⟨x, -, rfl⟩, hf⟩
    exact hg x f hf
  simp only [List.forall_mem_append, List.forall_mem_map, List.forall_mem_singleton, and_assoc]
  refine ⟨fun m _ => isExec_exec (.perform m.id), each dies _, each hosts _, each kernels _, saved,
    List.forall_mem_map.2 fun n _ => isExec_exec (.gangfail n _), ?_, isExec_unless ?_, isExec_exec .collectiveCompletion⟩
  · split
    · exact List.forall_mem_singleton.2 (isExec_exec .fwActivationTimeout)
    · exact List.forall_mem_nil _
  · exact List.forall_mem_singleton.2 (isExec_exec (.kernelAdmission 0))

theorem firmEvents_isExec (s : State) (n : Nat) : ∀ f ∈ firmEvents s n, IsExec f := by
  unfold firmEvents
  split
  · simp only [List.forall_mem_cons, List.forall_mem_append]
    exact ⟨⟨.firmwareBundle n, rfl⟩, cellEvents_isExec s n, sharedEvents_isExec s⟩
  · simp

/-- With an empty agenda an event of the lists takes place, or an issue. -/
theorem autoEvent_isExec (s : State) : IsExec (autoEvent s) := by
  have issue (n : Nat) : IsExec (execIssue n) := ⟨.issue n, rfl⟩
  unfold autoEvent
  extract_lets n
  split
  · cases hf : (firmEvents s n).find? (changes s) with
    | none => exact issue n
    | some f => exact firmEvents_isExec s n f (List.mem_of_find?_eq_some hf)
  · split
    next f hf =>
      have hm := List.mem_of_find?_eq_some hf
      exact (List.mem_append.1 hm).elim (cellEvents_isExec s n f) (sharedEvents_isExec s f)
    next =>
      split
      · exact ⟨.firmwareBundle n, rfl⟩
      · exact issue n

theorem keepsMem_step {s : State} (h : MemInv s) : KeepsMem (step s) := by
  unfold step
  split
  · exact keepsMem_exec _ h
  · obtain ⟨i, hi⟩ := autoEvent_isExec s
    rw [hi]
    exact keepsMem_exec i h

end Sys2Proof.Machine

namespace Sys2Proof.Laws
open Sys2Proof Machine

/-- Settles O51: a step is an event of the agenda or of the fixed lists, and each keeps the canonical form, because whatever writes a
memory writes it byte by byte. -/
theorem stepsKeepMemoryCanonical : Obligations.StepsKeepMemoryCanonical := by
  intro s t h ht
  have hk := keepsMem_step h
  rwa [ht] at hk

end Sys2Proof.Laws
end

