-- ==== Sys2Proof/Proofs/Asides.lean ====
section
/-!
What accesses to memory leave: the host functions, the firmware state, the collective commands and what they have sent (R264, R392,
R393). Kernels that a queue hands over leave them as well (R360).
-/

namespace Sys2Proof.Machine

/-- What stands aside of every access to memory. -/
structure Aside where
  hosts : SMap HostFn
  paused : Bool
  fwimage : Option Word
  fwactive : Word
  fwcode : Nat
  fwstat : Word
  coll : List Collective
  peerOut : List PeerWrite

/-- That part of a state. -/
def aside (s : State) : Aside := ⟨s.hosts, s.paused, s.fwimage, s.fwactive, s.fwcode, s.fwstat, s.coll, s.peerOut⟩

/-! ### Rules -/

@[simp] theorem aside_ite {c : Prop} [Decidable c] {s t : State} : aside (if c then s else t) = if c then aside s else aside t := by
  split <;> rfl

/-- An update of other fields than these. -/
@[simp] theorem aside_update {s : State}
    {agenda focus cyc free seq cells dies mem hostMem hostDeny poison chan codecs regions tctx queues kernels newKernels time tset tsetw
      tstat slew hvbase hvsize hvhead hvirqs lcstat failmap corrected answer groups peerGot replay refills charges real sinceEdge
      sincePause} :
    aside ⟨agenda, focus, cyc, free, seq, cells, dies, mem, hostMem, hostDeny, poison, chan, s.hosts, codecs, regions, tctx, queues,
      kernels, newKernels, time, tset, tsetw, tstat, slew, hvbase, hvsize, hvhead, hvirqs, s.fwstat, s.fwimage, s.fwactive, s.fwcode,
      s.paused, lcstat, failmap, corrected, answer, s.coll, groups, s.peerOut, peerGot, replay, refills, charges, real, sinceEdge,
      sincePause⟩ = aside s := rfl

theorem aside_foldl {α : Type} {f : State → α → State} (hf : ∀ s x, aside (f s x) = aside s) (l : List α) :
    ∀ s, aside (l.foldl f s) = aside s := by
  induction l with
  | nil => exact fun s => rfl
  | cons x l ih => exact fun s => (ih _).trans (hf s x)

/-! ### Homes -/

section
variable {s : State}

@[simp] theorem aside_modDie {d f} : aside (modDie s d f) = aside s := rfl

@[simp] theorem aside_setDie {d x} : aside (setDie s d x) = aside s := rfl

@[simp] theorem aside_fresh : aside (fresh s) = aside s := rfl

@[simp] theorem aside_useFree : aside (useFree s) = aside s := rfl

@[simp] theorem aside_memWriteLine {line mask v} : aside (memWriteLine s line mask v) = aside s := by
  unfold memWriteLine
  dsimp only
  split
  · rfl
  · simp

@[simp] theorem aside_homeStore {sel line mask v} : aside (homeStore s sel line mask v) = aside s := by
  unfold homeStore
  dsimp only
  split <;> simp

@[simp] theorem aside_homePutLine {sel line mask v} : aside (homePutLine s sel line mask v) = aside s := by simp [homePutLine]

@[simp] theorem aside_l2Reach {sel pa c who} : aside (l2Reach s sel pa c who) = aside s := by
  unfold l2Reach
  dsimp only
  split
  · rfl
  · split <;> simp

@[simp] theorem aside_l2Choose {sel line} : aside (l2Choose s sel line) = aside s := by simp [l2Choose]

@[simp] theorem aside_l2Evict {d y} : aside (l2Evict s d y) = aside s := by
  unfold l2Evict
  dsimp only
  split
  · rfl
  · split <;> simp

@[simp] theorem aside_l2Displace {d w} : aside (l2Displace s d w) = aside s := by
  cases w with
  | line y => exact aside_l2Evict
  | fill f => rfl

@[simp] theorem aside_l2Begin {d m} : aside (l2Begin s d m) = aside s := by
  unfold l2Begin
  dsimp only
  split
  · simp
  · split <;> simp

@[simp] theorem aside_l2Install {d f} : aside (l2Install s d f) = aside s := by simp [l2Install]

@[simp] theorem aside_l2Bring {sel line} : aside (l2Bring s sel line) = aside s := by
  unfold l2Bring
  extract_lets d sl isM isF x u
  have hu : aside u = aside s := by
    dsimp only [u]
    split
    · rfl
    · split <;> simp
  split <;> simp [hu]

@[simp] theorem aside_codecBring {sel line} : aside (codecBring s sel line) = aside s := by simp [codecBring]

@[simp] theorem aside_ownTouch {wr sel line} : aside (ownTouch wr sel s line) = aside s := by simp [ownTouch, l2Touch]

@[simp] theorem aside_markDirty {pa} : aside (markDirty s pa) = aside s := by simp [markDirty]

@[simp] theorem aside_homeWriteLine {sel line mask v} : aside (homeWriteLine s sel line mask v) = aside s := by simp [homeWriteLine]

end

theorem aside_homeWriteLines (k : Nat) : ∀ s pa n v, aside (homeWriteLines k s pa n v) = aside s := by
  induction k with
  | zero => exact fun s pa n v => rfl
  | succ k ih => exact fun s pa n v => by simp [homeWriteLines, homeWrite, ih]

@[simp] theorem aside_homeWriteN {s pa n v} : aside (homeWriteN s pa n v) = aside s := aside_homeWriteLines ..

/-! ### Command processors -/

section
variable {s u : State}

@[simp] theorem aside_markLeaf {l dirty} : aside (markLeaf s l dirty) = aside s := by simp [markLeaf]

theorem aside_translate {t fetch va h} (ht : translate s t fetch va = .ok (u, h)) : aside u = aside s := by
  unfold translate at ht
  split at ht
  · cases ht
  · cases ht
    simp

theorem aside_cpHandle {t va wr r} (hu : cpHandle s t va wr = some (u, r)) : aside u = aside s := by
  unfold cpHandle at hu
  split at hu
  next v e ht =>
    have hv := aside_translate ht
    obtain ⟨-, hu⟩ := Option.ite_none_left_eq_some.1 hu
    split at hu
    · obtain ⟨-, hu⟩ := Option.ite_none_left_eq_some.1 hu
      cases hu
      exact hv
    · cases hu
      exact aside_ownTouch.trans hv
  next => cases hu

theorem aside_cpBlocks (t : TCtx) (k : Nat) : ∀ {s va u v}, cpBlocks t k s va = some (u, v) → aside u = aside s := by
  induction k with
  | zero => intro s va u v h; cases h; rfl
  | succ k ih =>
    intro s va u v h
    unfold cpBlocks at h
    split at h
    · cases h
    next hc =>
      obtain ⟨r, hr, e⟩ := Option.map_eq_some_iff.1 h
      cases e
      exact (ih hr).trans (aside_cpHandle hc)

theorem aside_cpRead {t va n v} (hu : cpRead s t va n = some (u, v)) : aside u = aside s := by
  obtain ⟨r, hr, e⟩ := Option.map_eq_some_iff.1 hu
  cases e
  exact aside_cpBlocks _ _ hr

theorem aside_cpRead64 {t va v} (hu : cpRead64 s t va = some (u, v)) : aside u = aside s := by
  unfold cpRead64 at hu
  split at hu
  · cases hu
  next hc => cases hu; exact aside_cpHandle hc

theorem aside_imageAtVirtual {t va es} (hu : imageAtVirtual s t va = some (u, es)) : aside u = aside s := by
  unfold imageAtVirtual at hu
  split at hu
  · cases hu
  next h1 =>
    split at hu
    · cases hu
    · split at hu
      · cases hu
      next h2 =>
        obtain ⟨_, -, e⟩ := Option.map_eq_some_iff.1 hu
        cases e
        exact (aside_cpRead h2).trans (aside_cpRead h1)

@[simp] theorem aside_loadKernel {r k} : aside (loadKernel s r k).1 = aside s := by
  unfold loadKernel
  dsimp only
  split
  · rfl
  · split
    · rfl
    next h1 =>
      have h := aside_cpRead h1
      split
      · exact h
      · split
        · exact h
        · split
          · exact h
          next h2 => exact (aside_imageAtVirtual h2).trans h

/-! ### Queues -/

@[simp] theorem aside_modQueue {q f} : aside (modQueue s q f) = aside s := rfl

/-- A kernel that a queue hands over. -/
theorem aside_takeIn (s : State) (q : Nat) : aside (takeIn s q) = aside s := by
  unfold takeIn
  dsimp only
  split
  · rfl
  · split
    · rfl
    · split
      · rfl
      · split
        · rfl
        next h1 =>
          split
          · rfl
          · split
            · rfl
            next h2 =>
              have h := (aside_cpRead h2).trans (aside_cpRead64 h1)
              split
              · rfl
              · repeat' split
                all_goals simp [h]

end

end Sys2Proof.Machine
end

