-- ==== Sys2Proof/Proofs/HomeWrites.lean ====
section
/-!
Writes of several bytes at a home, over any number of lines, and what reads of them give (R3, R255), where memory is plain. A write is
followed bit by bit.
-/

namespace Sys2Proof.Machine

/-! ### Reads -/

/-- What n bytes from an address are, bit by bit. -/
theorem homeReadN_testBit (s : State) (n : Nat) : ∀ pa j, (homeReadN s pa n).testBit j =
    (decide (j < 8 * n) && (homeLine s 0 ((8 * pa + j) / 1024)).testBit ((8 * pa + j) % 1024)) := by
  induction n with
  | zero => simp [homeReadN]
  | succ n ih =>
    intro pa j
    have byte : homeRead s 0 pa 1 < 2 ^ 8 := bits_lt ..
    rw [homeReadN, Nat.add_comm, show (256 : Nat) = 2 ^ 8 by rfl, Nat.testBit_two_pow_mul_add _ byte]
    by_cases hj : j < 8
    · have h1 : (8 * pa + j) / 1024 = pa / 128 := by omega
      have h2 : (8 * pa + j) % 1024 = 8 * (pa % 128) + j := by omega
      rw [if_pos hj, homeRead, bits_testBit, h1, h2]
      simp [hj, show j < 8 * (n + 1) by omega]
    · have h1 : 8 * (pa + 1) + (j - 8) = 8 * pa + j := by omega
      have h2 : j - 8 < 8 * n ↔ j < 8 * (n + 1) := by omega
      rw [if_neg hj, ih, h1]
      simp only [h2]

/-- States that answer alike from their homes read alike. -/
theorem HomesSame.homeReadN {s t : State} (h : HomesSame s t) (pa n : Nat) : homeReadN t pa n = homeReadN s pa n := by
  apply Nat.eq_of_testBit_eq
  intro j
  rw [homeReadN_testBit, homeReadN_testBit, h.homeLine]

/-! ### Writes -/

/-- t has taken a write of the n bytes of v at pa: the bits of those bytes are those of v, and the others are as in s. -/
def Written (pa n v : Nat) (s t : State) : Prop :=
  plainMemory t ∧ ∀ k < 2 ^ 33, ∀ j < 1024, (homeLine t 0 k).testBit j =
    if 8 * pa ≤ 1024 * k + j ∧ 1024 * k + j < 8 * (pa + n) then v.testBit (1024 * k + j - 8 * pa) else (homeLine s 0 k).testBit j

variable {s t u : State} {pa n v : Nat}

/-- The bits of a write within a line lie in that line. -/
theorem written_place {k j : Nat} (hj : j < 1024) (hn : pa % 128 + n ≤ 128) : (8 * pa ≤ 1024 * k + j ∧ 1024 * k + j < 8 * (pa + n)) ↔
    (k = pa / 128 ∧ pa % 128 ≤ j / 8 ∧ j / 8 < pa % 128 + n) := by
  omega

/-- A write within a line. -/
theorem homeWrite_written (hp : plainMemory s) (hn : pa % 128 + n ≤ 128) : Written pa n v s (homeWrite s 0 pa n v) := by
  obtain ⟨hq, hl⟩ := homeWriteLine_plain hp (pa / 128) ((2 ^ n - 1) * 2 ^ (pa % 128)) ((v % 2 ^ (8 * n)) * 2 ^ (8 * (pa % 128)))
  refine ⟨hq, fun k hk j hj => ?_⟩
  have line : homeLine (homeWrite s 0 pa n v) 0 k = _ := hl k hk
  simp only [line, written_place hj hn]
  by_cases h : k = pa / 128
  · have mask : ((2 ^ n - 1) * 2 ^ (pa % 128)).testBit (j / 8) = decide (pa % 128 ≤ j / 8 ∧ j / 8 < pa % 128 + n) := by
      rw [Nat.mul_comm, Nat.testBit_two_pow_mul, Nat.testBit_two_pow_sub_one, ← Bool.decide_and]
      exact decide_eq_decide.2 (by omega)
    rw [if_pos h, mergeBytes_testBit, mask]
    simp only [h, true_and, hj, decide_true, Bool.true_and, decide_eq_true_eq]
    split
    · rename_i hb
      have h8 : 8 * (pa % 128) ≤ j := by omega
      have place : j - 8 * (pa % 128) = 1024 * (pa / 128) + j - 8 * pa := by omega
      have inside : 1024 * (pa / 128) + j - 8 * pa < 8 * n := by omega
      simp [Nat.mul_comm (v % _), Nat.testBit_two_pow_mul, Nat.testBit_mod_two_pow, place, h8, inside]
    · rfl
  · simp [h]

/-- A write of the first m bytes, and then of the others. -/
theorem Written.append {m : Nat} (h1 : Written pa m v s t) (h2 : Written (pa + m) (n - m) (v / 2 ^ (8 * m)) t u) (hm : m ≤ n) :
    Written pa n v s u := by
  refine ⟨h2.1, fun k hk j hj => ?_⟩
  rw [h2.2 k hk j hj, h1.2 k hk j hj, ← Nat.shiftRight_eq_div_pow, Nat.testBit_shiftRight]
  by_cases hb : 1024 * k + j < 8 * (pa + m)
  · have outside : ¬ 8 * (pa + m) ≤ 1024 * k + j := by omega
    have within : 1024 * k + j < 8 * (pa + n) := by omega
    simp [outside, hb, within]
  · have below : 8 * (pa + m) ≤ 1024 * k + j := by omega
    have above : 8 * pa ≤ 1024 * k + j := by omega
    have place : 8 * m + (1024 * k + j - 8 * (pa + m)) = 1024 * k + j - 8 * pa := by omega
    have same : pa + m + (n - m) = pa + n := by omega
    simp [below, above, hb, place, same]

theorem written_none (hp : plainMemory s) : Written pa 0 v s s :=
  ⟨hp, fun k _ j _ => by rw [if_neg (by omega)]⟩

theorem homeWriteLines_written (f : Nat) : ∀ {s : State} {pa n v}, plainMemory s → n = 0 ∨ pa % 128 + n ≤ 128 * f →
    Written pa n v s (homeWriteLines f s pa n v) := by
  induction f with
  | zero =>
    intro s pa n v hp hn
    obtain rfl : n = 0 := by omega
    exact written_none hp
  | succ f ih =>
    intro s pa n v hp hn
    simp only [homeWriteLines]
    split
    · rename_i h
      subst h
      exact written_none hp
    · have first := homeWrite_written (v := v) hp (show pa % 128 + min n (128 - pa % 128) ≤ 128 by omega)
      have rest : n - min n (128 - pa % 128) = 0 ∨ (pa + min n (128 - pa % 128)) % 128 + (n - min n (128 - pa % 128)) ≤ 128 * f := by
        rcases Nat.le_total n (128 - pa % 128) with h | h
        · exact .inl (by omega)
        · rw [Nat.min_eq_right h]
          omega
      exact first.append (ih first.1 rest) (by omega)

theorem homeWriteN_written (hp : plainMemory s) : Written pa n v s (homeWriteN s pa n v) :=
  homeWriteLines_written _ hp (.inr (by omega))

/-! ### Reads after writes -/

/-- A write is read back. -/
theorem homeReadN_homeWriteN (hp : plainMemory s) (hpa : pa + n ≤ 2 ^ 40) : homeReadN (homeWriteN s pa n v) pa n = v % 2 ^ (8 * n) := by
  apply Nat.eq_of_testBit_eq
  intro j
  rw [homeReadN_testBit, Nat.testBit_mod_two_pow]
  by_cases hj : j < 8 * n
  · have place : 1024 * ((8 * pa + j) / 1024) + (8 * pa + j) % 1024 = 8 * pa + j := by omega
    rw [(homeWriteN_written hp).2 _ (by omega) _ (by omega), place, if_pos (by omega), Nat.add_sub_cancel_left]
  · simp [hj]

/-- A doubleword of what is written. -/
theorem home64_homeWriteN {i : Nat} (hp : plainMemory s) (h8 : (pa + i) % 8 = 0) (hi : i + 8 ≤ n) (hpa : pa + n ≤ 2 ^ 40) :
    home64 (homeWriteN s pa n v) (pa + i) = BitVec.ofNat 64 (bits v (8 * i) 64) := by
  apply BitVec.eq_of_getLsbD_eq
  intro j hj
  have place : 1024 * ((pa + i) / 128) + (8 * ((pa + i) % 128) + j) = 8 * pa + (8 * i + j) := by omega
  simp only [home64, homeRead, BitVec.getLsbD_ofNat, bits_testBit]
  rw [(homeWriteN_written hp).2 _ (by omega) _ (by omega), place, if_pos (by omega), Nat.add_sub_cancel_left]

end Sys2Proof.Machine
end

