-- ==== Sys2Proof/Proofs/LifeCycle.lean ====
section
/-!
The changes of the life cycle, resets and wipes (R353, R383, R384, R394, R395).
-/

namespace Sys2Proof.Machine

/-! ### Maps -/

/-- A lookup after a change of every value that leaves the default as it is. -/
theorem smGet_map {α : Type} {d : α} {f : α → α} (hf : f d = d) (m : SMap α) (k : Nat) :
    smGet d (m.map fun e => (e.1, f e.2)) k = f (smGet d m k) := by
  induction m with
  | nil => simp [hf]
  | cons e m ih =>
    obtain ⟨j, v⟩ := e
    simp only [List.map_cons, smGet, ih]
    split
    · rfl
    · split
      · exact hf.symm
      · rfl

/-- A lookup in a map built over ascending keys. -/
theorem smGet_map_keys {α : Type} (d : α) (g : Nat → α) (k : Nat) : ∀ l : List Nat, l.Pairwise (· < ·) →
    smGet d (l.map fun i => (i, g i)) k = if k ∈ l then g k else d
  | [], _ => rfl
  | j :: l, h => by
    obtain ⟨first, rest⟩ := List.pairwise_cons.1 h
    simp only [List.map_cons, smGet, smGet_map_keys d g k l rest, List.mem_cons]
    by_cases hk : k = j
    · simp [hk]
    · by_cases hlt : k < j
      · have absent : k ∉ l := fun hm => absurd (first k hm) (by omega)
        simp [hk, hlt, absent]
      · simp [hk, hlt]

/-! ### A wipe -/

theorem getCell_wipe (s : State) (n : Nat) : getCell (wipe s) n = wipeCell (getCell s n) :=
  smGet_map (by decide +kernel) s.cells n

theorem getDie_wipe (s : State) (d : Nat) : getDie (wipe s) d = wipeDie (getDie s d) :=
  smGet_map (by decide +kernel) s.dies d

theorem getHost_wipe (s : State) {f : Nat} (h : f < 256) : getHost (wipe s) f = wipeHost (getHost s f) := by
  have e := smGet_map_keys HostFn.reset (fun f => wipeHost (getHost s f)) f (List.range 256) List.pairwise_lt_range
  rwa [if_pos (List.mem_range.2 h)] at e

/-- What a wipe leaves of a cell. -/
theorem wipeCell_zero {x y : Cell} (h : y = wipeCell x) : y.user = Ctx.zero ∧ y.spad = [] ∧ y.acc = [] ∧ y.l1 = [] ∧ y.poison = [] ∧
    y.hold = (x.hold && !x.ok) := by
  subst h
  exact ⟨rfl, rfl, rfl, rfl, rfl, rfl⟩

/-- OCC is zero in every class of every slice once the lines are gone. -/
theorem cosOf_noLines {x y : Die} (h : y.cos = x.cos.map fun e => (e.1, noLines e.2)) (sl k : Nat) : (cosOf y sl k).cur = 0 := by
  have e := smGet_map (d := CosRegs.reset) (f := noLines) (by decide +kernel) x.cos (sl * 16 + k)
  rw [cosOf, h, e]
  rfl

/-- A die at the end of a wipe: no line is left. -/
def emptied (x : Die) : Die := { x with
  l2 := [], cos := x.cos.map fun r => (r.1, noLines r.2), misses := [], fills := [], returned := [] }

theorem emptied_zero {x y : Die} (h : y = emptied x) : y.l2 = [] ∧ ∀ sl k, (cosOf y sl k).cur = 0 := by
  subst h
  exact ⟨rfl, cosOf_noLines rfl⟩

theorem lcstat_wipe (s : State) : (wipe s).lcstat = s.lcstat ||| 0x100 := rfl

theorem toNat_cStep (blk : BitVec 512) : BitVec.ofNat 64 (cStep blk.toNat) = blk.extractLsb' 320 64 := by
  apply BitVec.eq_of_toNat_eq
  simp [cStep, bits]

/-- What starts a wipe leaves it under way, whatever else it has changed of the state. -/
theorem wiped_wipe {s u : State} (hf : u.failmap = s.failmap) (hm : u.hostMem = s.hostMem) (hc : u.coll = s.coll) : wiped s (wipe u) := by
  have cell (n : Nat) := getCell_wipe u n
  have die (d : Nat) := getDie_wipe u d
  refine ⟨by simp [lcstat_wipe], fun a => rfl, rfl, rfl, rfl, rfl, fun f h => ?_, fun c h => ?_, ?_, fun n => ?_, fun d => ?_, hf, hm⟩
  · rw [getHost_wipe u h]
    exact ⟨rfl, rfl⟩
  · obtain ⟨k, -, rfl⟩ := List.mem_map.1 h
    exact ⟨rfl, rfl, toNat_cStep k.blk⟩
  · rw [← hc]
    exact List.length_map ..
  · rw [cell]
    exact ⟨rfl, rfl, rfl, rfl, rfl, rfl, rfl, rfl, rfl⟩
  · rw [die]
    exact ⟨rfl, rfl, cosOf_noLines rfl⟩

/-! ### Changes of the life cycle -/

theorem permitted_iff (was to_ : BitVec 3) : permitted was.toNat to_.toNat = true ↔
    ((was, to_) ∈ [((0, 1) : BitVec 3 × BitVec 3), (1, 2), (2, 3), (3, 1)] ∨ (was ≠ 4 ∧ to_ = 4)) := by
  revert was to_
  decide

theorem toNat_state (w : Word) : bits w.toNat 0 3 = (w.extractLsb' 0 3).toNat := by simp [bits]

/-- WIPING lies outside the state. -/
theorem state_wiping (w : Word) : (w ||| 0x100).extractLsb' 0 3 = w.extractLsb' 0 3 := by
  rw [BitVec.extractLsb'_or]
  exact BitVec.or_zero

/-- The state that a change sets. -/
theorem state_setBits (w : Word) (b : BitVec 3) : (BitVec.ofNat 64 (setBits w.toNat 0 3 b.toNat)).extractLsb' 0 3 = b := by
  apply BitVec.eq_of_toNat_eq
  simp [setBits, Nat.mod_one, Nat.mod_eq_of_lt b.isLt]

/-- The state that a reset keeps. -/
theorem state_bits (w : Word) : (BitVec.ofNat 64 (bits w.toNat 0 3)).extractLsb' 0 3 = w.extractLsb' 0 3 := by
  apply BitVec.eq_of_toNat_eq
  simp [bits]

/-! ### Resets -/

/-- The cells that a failure map names. -/
def failedCells (m : List (Nat × Nat × Nat)) : List Nat := (List.range 1024).filter fun n => m.any fun e => e.1 == n

theorem pairwise_failedCells (m : List (Nat × Nat × Nat)) : (failedCells m).Pairwise (· < ·) := List.pairwise_lt_range.filter _

theorem mem_failedCells (m : List (Nat × Nat × Nat)) (n : Nat) : n ∈ failedCells m ↔ n < 1024 ∧ ∃ e ∈ m, e.1 = n := by
  simp [failedCells]

theorem getCell_resetBody (s : State) (n : Nat) :
    getCell (resetBody s) n = wipeCell (smGet Cell.reset ((failedCells s.failmap).map fun n => (n, repaired s.failmap n)) n) := by
  unfold resetBody
  rw [getCell_wipe]
  simp only [getCell, failedCells]

/-- A cell that the failure map does not name is as at reset. -/
theorem getCell_resetBody_unnamed {s : State} {n : Nat} (h : ∀ e ∈ s.failmap, e.1 ≠ n) : getCell (resetBody s) n = Cell.reset := by
  have unset : wipeCell Cell.reset = Cell.reset := by decide +kernel
  have unnamed : n ∉ failedCells s.failmap := fun hm => by
    obtain ⟨-, e, he, hen⟩ := (mem_failedCells ..).1 hm
    exact h e he hen
  rw [getCell_resetBody, smGet_map_keys _ _ _ _ (pairwise_failedCells _), if_neg unnamed, unset]

/-- One that it names has its repairs. -/
theorem getCell_resetBody_named {s : State} {n : Nat} (hn : n < 1024) (h : ∃ e ∈ s.failmap, e.1 = n) :
    getCell (resetBody s) n = wipeCell (repaired s.failmap n) := by
  rw [getCell_resetBody, smGet_map_keys _ _ _ _ (pairwise_failedCells _), if_pos ((mem_failedCells ..).2 ⟨hn, h⟩)]

/-- The bytes that a class-2 repair takes, by the row that failed. -/
theorem class2_lver : ∀ r : Fin 160, 128 ≤ r.val → BitVec.ofNat 16 (setBits 0x100 0 3 (max 0 ((160 - r.val + 7) / 8))) =
    0x0100 + BitVec.ofNat 16 ((160 - r.val + 7) / 8) := by
  decide

/-- The repairs of one failed unit (R353, R384). -/
theorem repair_classes {k i : Nat} (hi : i < 0x8000) : let r := repair (0x0100, true) k i
    (k = 2 → 128 ≤ i % 160 → r.2 = true ∧ r.1 = 0x0100 + BitVec.ofNat 16 ((160 - i % 160 + 7) / 8)) ∧
    (k = 3 → i = 15 → r.2 = true ∧ r.1 = 0x0180) ∧ (k = 4 → i = 7 → r.2 = true ∧ r.1 = 0x0140) ∧
    (¬ (k = 2 ∧ 128 ≤ i % 160) → ¬ (k = 3 ∧ i = 15) → ¬ (k = 4 ∧ i = 7) → r.2 = false ∧ r.1 = 0x0100) := by
  intro r
  have hr : r = repair (0x0100, true) k i := rfl
  unfold repair at hr
  simp only [Nat.mod_eq_of_lt hi] at hr
  refine ⟨fun h2 hrow => ?_, fun h3 h15 => ?_, fun h4 h7 => ?_, fun h2 h3 h4 => ?_⟩
  · rw [hr, if_pos ⟨h2, hrow⟩]
    exact ⟨rfl, class2_lver ⟨i % 160, Nat.mod_lt _ (by omega)⟩ hrow⟩
  · rw [hr, if_neg (by omega), if_pos ⟨h3, h15⟩]
    exact ⟨rfl, rfl⟩
  · rw [hr, if_neg (by omega), if_neg (by omega), if_pos ⟨h4, h7⟩]
    exact ⟨rfl, rfl⟩
  · rw [hr, if_neg h2, if_neg h3, if_neg h4]
    exact ⟨rfl, rfl⟩

/-- The cell that the only entry of the failure map names. -/
theorem repaired_one (n k i : Nat) : repaired [(n, k, i)] n =
    { Cell.reset with lver := (repair (0x0100, true) k i).1, ok := (repair (0x0100, true) k i).2 } := by
  simp [repaired, Cell.reset]

end Sys2Proof.Machine

namespace Sys2Proof.Laws
open Sys2Proof Machine

/-- Of O59, the life cycle: a permitted change and a reset start a wipe, of the state as it is or as at reset; the end of one empties
memory again. -/
theorem lifeCycleMoves : Sys2Proof.lifeCycleMoves := by
  refine ⟨fun s to_ => ?_, fun s => ?_, fun s => ?_⟩
  · intro was may
    have run : exec (.lifecycleChange to_) s = .next (lifeBody s to_.toNat) := rfl
    have hmay : permitted (bits s.lcstat.toNat 0 3) to_.toNat = true ↔ may := by rw [toNat_state]; exact permitted_iff was to_
    refine ⟨fun h => ⟨_, run, ?_⟩, fun h => ?_⟩
    · rw [lifeBody, if_pos (hmay.2 h)]
      exact ⟨wiped_wipe rfl rfl rfl, (state_wiping _).trans (state_setBits ..), fun n => by rw [getCell_wipe]; rfl⟩
    · rw [run, lifeBody, if_neg (fun k => h (hmay.1 k))]
  · refine ⟨resetBody s, rfl, wiped_wipe rfl rfl rfl, (state_wiping _).trans (state_bits s.lcstat), rfl,
      fun n h => getCell_resetBody_unnamed h, fun n k i hm hn hi => ?_⟩
    rw [getCell_resetBody_named hn ⟨(n, k, i), by simp [hm], rfl⟩, hm, repaired_one]
    exact repair_classes hi
  · have run : exec .wipeEnd s = execWipeEnd s := rfl
    refine ⟨fun h => ?_, fun h => ?_⟩
    · have hw : wiping s = true := h
      rw [run, execWipeEnd, if_pos hw]
      exact ⟨_, rfl, rfl, fun a => rfl, rfl, rfl, fun n => wipeCell_zero (smGet_map (by decide +kernel) s.cells n),
        fun d => emptied_zero (smGet_map (f := emptied) (by decide +kernel) s.dies d)⟩
    · rw [run, execWipeEnd, if_neg]
      exact fun k => by rw [wiping, h] at k; cases k

end Sys2Proof.Laws
end

