-- ==== Sys2Proof/Proofs/Collectives.lean ====
section
/-!
Collective and checkpoint commands: how they are taken up, spread and end (R264, R389, R390).
-/

namespace Sys2Proof.Machine

/-! ### The block -/

theorem bits_toNat {w : Nat} (v : BitVec w) (lo n : Nat) : bits v.toNat lo n = (v.extractLsb' lo n).toNat :=
  (BitVec.extractLsb'_toNat ..).symm

/-- A flag of a block. -/
theorem bit_block (v : BitVec 512) (i : Nat) : bit v.toNat i = v.getLsbD i := by
  rw [bit, BitVec.getLsbD, Nat.testBit_eq_decide_div_mod_eq, ← Nat.shiftRight_eq_div_pow]
  rfl

/-- A block of another operation, or one that R389 refuses. -/
theorem cBad_iff (op : BitVec 8) (blk : BitVec 512) : cBad op.toNat blk.toNat = true ↔
    (blk.extractLsb' 320 64 = 0 ∨ cG blk.toNat < 3 ∨ 16 < cG blk.toNat ∨ cG blk.toNat ≤ cD blk.toNat ∨
      cLen blk.toNat % (4096 * (cG blk.toNat - 1)) ≠ 0 ∨ blk.extractLsb' 40 8 ≠ 0 ∨ blk.extractLsb' 8 27 ≠ 0 ∨
      4 < (blk.extractLsb' 37 3).toNat) ∨ blk.extractLsb' 0 8 ≠ op := by
  simp only [cBad, cStep, bits_toNat, Bool.or_eq_true, bne_iff_ne, beq_iff_eq, decide_eq_true_eq, ne_eq,
    BitVec.toNat_eq (x := blk.extractLsb' _ _)]
  tauto

/-- The geometry of a command that is not refused: its group, its device in it, and its shard as whole chunks of 64-byte blocks. -/
theorem cBad_geometry {op b : Nat} (h : cBad op b = false) :
    3 ≤ cG b ∧ cG b ≤ 16 ∧ cD b < cG b ∧ cLen b / 64 = cChunk b / 64 * (cG b - 1) ∧ 64 * (cChunk b / 64) = cChunk b := by
  simp only [cBad, Bool.or_eq_false_iff, bne_eq_false_iff_eq, decide_eq_false_iff_not, Nat.not_lt, Nat.not_le] at h
  obtain ⟨⟨⟨⟨⟨⟨⟨⟨-, -⟩, hlow⟩, hhigh⟩, hd⟩, hlen⟩, -⟩, -⟩, -⟩ := h
  obtain ⟨q, hq⟩ := Nat.dvd_of_mod_eq_zero hlen
  have pos : 0 < cG b - 1 := by omega
  have chunk : cChunk b = 64 * (64 * q) := by
    rw [cChunk, hq, show 4096 * (cG b - 1) * q = 64 * (64 * q) * (cG b - 1) by ring, Nat.mul_div_cancel _ pos]
  have len : cLen b = 64 * (64 * q * (cG b - 1)) := by rw [hq]; ring
  rw [chunk, len, Nat.mul_div_cancel_left _ (by decide), Nat.mul_div_cancel_left _ (by decide)]
  exact ⟨hlow, hhigh, hd, rfl, rfl⟩

/-- A block of a chunk lies in it. -/
theorem block_inside {p n m k : Nat} (hm : 64 * m = k) (h1 : n ≤ p) (h2 : p < n + m) : 64 * (p - n) + 64 ≤ k := by omega

/-! ### Headers -/

/-- The fields of a header (R390). -/
theorem pieceHeader_fields {b d kind crc : Nat} (hd : d < 2 ^ 8) (hk : kind < 2 ^ 8) (hc : crc < 2 ^ 32) :
    let h := pieceHeader b d kind crc
    bits h 0 16 = 0x4B43 ∧ bits h 16 8 = kind ∧ bits h 24 8 = d ∧ bits h 64 64 = cJob b ∧ bits h 128 64 = cStep b ∧ bits h 32 32 = crc ∧
      h < 2 ^ 512 := by
  have hjob : cJob b < 2 ^ 64 := bits_lt ..
  have hstep : cStep b < 2 ^ 64 := bits_lt ..
  simp only [pieceHeader, bits, Nat.shiftRight_eq_div_pow]
  refine ⟨?_, ?_, ?_, ?_, ?_, ?_, ?_⟩ <;> omega

/-! ### Records -/

/-- What the record of a command holds (R389). -/
def recordValue (c : Collective) : Nat := 2 ^ 63 + c.mask % 2 ^ 16 * 2 ^ 16 + c.status + c.step.toNat * 2 ^ 64

theorem collRecord_aligned (s : State) {c : Collective} (h : cDone c.blk.toNat % 16 = 0) :
    collRecord s c = homeWriteN s (cDone c.blk.toNat) 16 (recordValue c) := if_neg (not_not.2 h)

theorem toNat_recordLow {c : Collective} (h : c.status < 2 ^ 16) :
    (BitVec.ofNat 64 (bits (recordValue c) 0 64)).toNat = 2 ^ 63 + c.mask % 2 ^ 16 * 2 ^ 16 + c.status := by
  simp only [recordValue, bits, BitVec.toNat_ofNat, Nat.shiftRight_eq_div_pow]
  omega

theorem recordHigh {c : Collective} (h : c.status < 2 ^ 16) : BitVec.ofNat 64 (bits (recordValue c) 64 64) = c.step := by
  have hs := c.step.isLt
  apply BitVec.eq_of_toNat_eq
  simp only [recordValue, bits, BitVec.toNat_ofNat, Nat.shiftRight_eq_div_pow]
  omega

/-- A record, read back. -/
theorem collRecord_fields {s : State} {c : Collective} (hp : plainMemory s) (ha : cDone c.blk.toNat % 16 = 0)
    (hlt : cDone c.blk.toNat < 2 ^ 40) (hst : c.status < 2 ^ 16) : let a := cDone c.blk.toNat
    let t := collRecord s c
    (home64 t a).getLsbD 63 = true ∧ ((home64 t a).extractLsb' 16 16).toNat = c.mask % 2 ^ 16 ∧
      ((home64 t a).extractLsb' 0 16).toNat = c.status ∧ home64 t (a + 8) = c.step := by
  intro a t
  have ht : t = homeWriteN s a 16 (recordValue c) := collRecord_aligned s ha
  have low : home64 t a = _ := ht ▸ home64_homeWriteN (i := 0) hp (by omega) (by omega) (by omega)
  have high : home64 t (a + 8) = _ := ht ▸ home64_homeWriteN (i := 8) hp (by omega) (by omega) (by omega)
  have word : (home64 t a).toNat = _ := (congrArg BitVec.toNat low).trans (toNat_recordLow hst)
  refine ⟨?_, ?_, ?_, high.trans (recordHigh hst)⟩
  · rw [BitVec.getLsbD, word, Nat.testBit_eq_decide_div_mod_eq, decide_eq_true_eq]
    omega
  · rw [BitVec.extractLsb'_toNat, word, Nat.shiftRight_eq_div_pow]
    omega
  · rw [BitVec.extractLsb'_toNat, word, Nat.shiftRight_eq_div_pow]
    omega

/-- The start word holds a command back as R264 and R389 say. -/
theorem startMet_iff (s : State) (blk : BitVec 512) : startMet s blk.toNat = true ↔
    ¬ (blk.getLsbD 35 = true ∧ cStart blk.toNat ≠ 0 ∧ homeReadN s (cStart blk.toNat) 8 = 0) := by
  rw [not_and_or, not_and_or, Bool.not_eq_true, not_not]
  simp only [startMet, bit_block, Bool.or_eq_true, Bool.not_eq_true', beq_iff_eq, bne_iff_ne, or_assoc, ne_eq]

/-! ### The first command -/

section
variable {s : State} {c : Collective} {rest : List Collective}

/-- A command first in the queue that is not done and does not wait takes a step. -/
theorem collNext_step (hc : s.coll = c :: rest) (hd : c.done = false) (hw : c.waits = false) :
    exec .collectiveCompletion s = .next { (collRun s c).1 with coll := (collRun s c).2 :: rest } := by
  change Host.Outcome.next (collNext s [] s.coll) = _
  simp [hc, collNext, hd, hw]

theorem collRun_save (h : c.blk.extractLsb' 0 8 = 1) : collRun s c = ckSaveStep s c := by simp [collRun, bits_toNat, h]

theorem collRun_load (h : c.blk.extractLsb' 0 8 = 2) : collRun s c = ckLoadStep s c := by simp [collRun, bits_toNat, h]

/-- The queue of commands is nothing that a home answers from. -/
theorem homeReadN_withColl (t : State) (cs : List Collective) (a n : Nat) : homeReadN { t with coll := cs } a n = homeReadN t a n :=
  HomesSame.homeReadN (s := t) (t := { t with coll := cs }) (HomesSame.of_eq rfl rfl rfl rfl) a n

theorem coll_homeWriteN (t : State) (a n v : Nat) : (homeWriteN t a n v).coll = t.coll := congrArg Aside.coll aside_homeWriteN

theorem peerOut_homeWriteN (t : State) (a n v : Nat) : (homeWriteN t a n v).peerOut = t.peerOut := congrArg Aside.peerOut aside_homeWriteN

theorem coll_collRecord (t : State) (c : Collective) : (collRecord t c).coll = t.coll := by
  unfold collRecord
  dsimp only
  split
  · rfl
  · exact coll_homeWriteN ..

/-- The pieces that go to peers where a chunk is empty touch no home. -/
theorem sendPieces_same (s : State) (b g : Nat) :
    HomesSame s ((List.range g).foldl (fun s j => sendPiece s b (chunkOn (cG b) (cD b) j) j 0) s) :=
  HomesSame.foldl (f := fun s j => sendPiece s b (chunkOn (cG b) (cD b) j) j 0) (fun _ _ => HomesSame.of_eq rfl rfl rfl rfl) _ s

end

end Sys2Proof.Machine

namespace Sys2Proof.Laws
open Sys2Proof Machine

/-- Of O59, the commands that are taken up: a block that R389 refuses, or of the other operation, is BADARG. -/
theorem commandsAreTaken : Sys2Proof.commandsAreTaken := by
  intro s blk b bad step op add
  have save : exec (.cksave blk) s = .next (collSubmit s 1 blk) := rfl
  have load : exec (.ckload blk) s = .next (collSubmit s 2 blk) := rfl
  have h1 : cBad 1 blk.toNat = true ↔ bad ∨ op ≠ 1 := cBad_iff 1 blk
  have h2 : cBad 2 blk.toNat = true ↔ bad ∨ op ≠ 2 := cBad_iff 2 blk
  simp only [save, load, collSubmit, toNat_cStep]
  refine ⟨fun h => ?_, fun h => ?_, fun h ho => ?_, fun h ho => ?_⟩
  · rw [if_pos (h1.2 h)]
  · rw [if_pos (h2.2 h)]
  · rw [if_neg fun k => (h1.1 k).elim h (absurd ho)]
  · rw [if_neg fun k => (h2.1 k).elim h (absurd ho)]

/-- Of O59, the steps of CKSAVE: it gathers a chunk, sends it, writes the parity, and at last the header of that. -/
theorem savesSpread : Sys2Proof.savesSpread := by
  intro s c rest b m n slot plain header buf hc hd hw hop hbad
  obtain ⟨hlow, hhigh, hdev, hn, hm⟩ := cBad_geometry hbad
  have run : exec .collectiveCompletion s = .next { (ckSaveStep s c).1 with coll := (ckSaveStep s c).2 :: rest } := by
    rw [collNext_step hc hd hw, collRun_save hop]
  have fields {kind v : Nat} (hk : kind < 2 ^ 8) :=
    pieceHeader_fields (b := b) (d := cD b) (by omega) hk (crc32_lt _ (bytesOf_lt (cChunk b) v))
  have hbuf : c.buf + homeReadN s (cSrc b + 64 * c.pos) 64 <<< (512 * (c.pos % m)) = buf := by rw [Nat.shiftLeft_eq]
  refine ⟨fun h1 h2 => ?_, fun h1 h2 => ?_, fun h1 h2 => ?_, fun h1 => ?_⟩
  · have step : ckSaveStep s c = (s, { c with pos := c.pos + 1, buf := buf }) := by
      rw [← hbuf]; exact (if_pos h1).trans (if_neg h2)
    rw [run, step]
  · have step : ckSaveStep s c = (sendPiece s b (chunkOn (cG b) (cD b) (c.pos / m)) (c.pos / m) buf,
        { c with pos := c.pos + 1, buf := 0, par := c.par ^^^ buf }) := by
      rw [← hbuf]; exact (if_pos h1).trans (if_pos h2)
    have hk : c.pos / m < cG b - 1 := Nat.div_lt_of_lt_mul (hn ▸ h1)
    obtain ⟨f1, f2, f3, f4, f5, f6, -⟩ := fields (kind := c.pos / m) (v := buf) (by omega)
    rw [run, step]
    exact ⟨_, _, rfl, rfl, rfl, rfl, rfl, rfl, rfl, rfl, f1, f2, f3, f4, f5, f6⟩
  · have step : ckSaveStep s c = (homeWriteN s (slot + 64 + 64 * (c.pos - n)) 64 (bits c.par (512 * (c.pos - n)) 512),
        { c with pos := c.pos + 1 }) := (if_neg (Nat.not_lt.2 h1)).trans (if_pos h2)
    rw [run, step]
    refine ⟨_, rfl, rfl, peerOut_homeWriteN .., fun ⟨hp, hslot⟩ => ?_⟩
    have inside := block_inside hm h1 h2
    rw [homeReadN_withColl, homeReadN_homeWriteN hp (by omega)]
    exact Nat.mod_eq_of_lt (bits_lt ..)
  · let u := if m = 0 then (List.range (cG b - 1)).foldl (fun s j => sendPiece s b (chunkOn (cG b) (cD b) j) j 0) s else s
    have step : ckSaveStep s c = (homeWriteN u slot 64 (pieceHeader b (cD b) 0xFF (crc32 (bytesOf (cChunk b) c.par))),
        { c with done := true, step := BitVec.ofNat 64 (cStep b) }) :=
      (if_neg (Nat.not_lt.2 (Nat.le_trans (Nat.le_add_right n m) h1))).trans (if_neg (Nat.not_lt.2 h1))
    have same : HomesSame s u := by
      dsimp only [u]
      split
      · exact sendPieces_same s b _
      · exact HomesSame.refl s
    obtain ⟨f1, f2, f3, f4, f5, f6, hlt⟩ := fields (kind := 0xFF) (v := c.par) (by decide)
    rw [run, step]
    refine ⟨_, _, rfl, rfl, rfl, rfl, rfl, toNat_cStep c.blk, fun ⟨hp, hslot⟩ => ?_⟩
    rw [homeReadN_withColl, homeReadN_homeWriteN (same.plain hp) (by omega), Nat.mod_eq_of_lt hlt]
    exact ⟨f1, f2, f3, f4, f5, f6⟩

/-- Of O59, how commands end: the record, what it waits for, the start word, and what a peer reads and writes. -/
theorem collectivesEnd : Sys2Proof.collectivesEnd := by
  intro s c rest a waits plain
  have run : exec .collectiveCompletion s = .next (collNext s [] s.coll) := rfl
  have start : startMet s c.blk.toNat = true ↔ ¬ waits := startMet_iff s c.blk
  refine ⟨fun hc hd hh ha hlt hst hp => ?_, fun hc hd hh => ?_, fun h => ?_, fun h hop hst => ?_,
    fun hc hd hw hs => ?_, fun hc hd hw hs => ?_, fun port pa v hport hpa => ⟨?_, fun hp => ?_⟩, fun port wr pa v hport => ?_⟩
  · have leaves : collNext s [] s.coll = collRecord { s with coll := rest } c := by simp [hc, collNext, hd, hh]
    have hp' : plainMemory { s with coll := rest } := hp
    refine ⟨_, run, ?_⟩
    rw [leaves]
    exact ⟨coll_collRecord .., collRecord_fields hp' ha hlt hst⟩
  · rw [run, hc]
    simp [collNext, hd, hh, useFree, hc]
  · rw [collHeld, bit_block, h]
    rfl
  · simp [collHeld, hst]
  · rw [run, hc]
    simp [collNext, hd, hw, start.2 hs]
  · have unmet : startMet s c.blk.toNat = false := by simpa using mt start.1 (not_not.2 hs)
    rw [run, hc]
    simp [collNext, hd, hw, unmet]
  · have inside : ¬ (12 ≤ port ∨ beyond pa 64 = true) := by simp [beyond]; omega
    exact congrArg Host.Outcome.next (if_neg inside)
  · have inside : ¬ (12 ≤ port ∨ beyond pa 64 = true) := by simp [beyond]; omega
    refine ⟨_, congrArg Host.Outcome.next (if_neg inside), ?_, (homeWriteN_frame ..).cells⟩
    exact (homeReadN_homeWriteN hp hpa).trans (Nat.mod_eq_of_lt v.isLt)
  · exact congrArg Host.Outcome.next (if_pos (.inl hport))

end Sys2Proof.Laws
end

