-- ==== Sys2Proof/Proofs/Loads.lean ====
section
/-!
CKLOAD (R391): the missing piece of a shard is the XOR of the others, and the outcome by what the pieces of each device count.
-/

namespace Sys2Proof.Machine

/-! ### Parity -/

theorem parity_append (l : List Nat) (v : Nat) : parity (l ++ [v]) = parity l ^^^ v := by simp [parity]

/-- The parity where one chunk is left out is that of all of them and of it. -/
theorem parity_without (x : Nat → Nat) (lost n : Nat) : parity ((List.range n).map fun j => if j = lost then 0 else x j) =
    if lost < n then parity ((List.range n).map x) ^^^ x lost else parity ((List.range n).map x) := by
  induction n with
  | zero => rfl
  | succ n ih =>
    rw [List.range_succ, List.map_append, List.map_append, List.map_singleton, List.map_singleton, parity_append, parity_append, ih]
    rcases Nat.lt_trichotomy n lost with h | h | h
    · rw [if_neg (by omega), if_neg (by omega), if_neg (by omega)]
    · subst h
      rw [if_neg (by omega), if_pos rfl, if_pos (by omega), Nat.xor_zero, Nat.xor_assoc, Nat.xor_self, Nat.xor_zero]
    · rw [if_pos h, if_neg (by omega), if_pos (by omega), Nat.xor_assoc, Nat.xor_comm (x lost), ← Nat.xor_assoc]

/-- The XOR of all pieces but a lost chunk, the parity among them, is that chunk. -/
theorem parity_lost (x : Nat → Nat) {lost n : Nat} (h : lost < n) :
    parity (((List.range n).map fun j => if j = lost then 0 else x j) ++ [parity ((List.range n).map x)]) = x lost := by
  rw [parity_append, parity_without, if_pos h, Nat.xor_comm, ← Nat.xor_assoc, Nat.xor_self, Nat.zero_xor]

theorem packList_congr {w n : Nat} {f g : Nat → Nat} (h : ∀ j < n, f j = g j) : packList w n f = packList w n g := by
  unfold packList
  exact congrArg packBytes (List.map_congr_left fun j hj => by rw [h j (List.mem_range.1 hj)])

/-- A piece of a shard at a step: its bytes, unless it is the lost one. -/
def pieceOf (step junk lost j v : Nat) : Nat × Option Nat := if j = lost then (junk, none) else (v, some step)

theorem pieceOf_value (step junk lost j v : Nat) :
    (if (pieceOf step junk lost j v).2 = some step then (pieceOf step junk lost j v).1 else 0) = if j = lost then 0 else v := by
  unfold pieceOf
  split <;> simp

/-- With one piece lost at most, the shard is rebuilt. -/
theorem rebuild_pieces (b junk lost : Nat) (x : Nat → Nat) :
    rebuild b ((List.range (cG b - 1)).map (fun j => pieceOf (cStep b) junk lost j (x j)) ++
      [pieceOf (cStep b) junk lost (cG b - 1) (parity ((List.range (cG b - 1)).map x))]) = packList (cChunk b) (cG b - 1) x := by
  refine packList_congr fun j hj => ?_
  have hget : ((List.range (cG b - 1)).map (fun j => pieceOf (cStep b) junk lost j (x j)) ++
      [pieceOf (cStep b) junk lost (cG b - 1) (parity ((List.range (cG b - 1)).map x))])[j]? =
        some (pieceOf (cStep b) junk lost j (x j)) := by
    rw [List.getElem?_append_left (by simpa using hj)]
    simp [hj]
  rw [hget]
  by_cases h : j = lost
  · subst h
    have all := parity_lost x hj
    simp only [List.map_append, List.map_map, List.map_singleton, Function.comp_def, pieceOf_value,
      if_neg (show ¬ cG b - 1 = j by omega), all]
    simp [pieceOf]
  · simp [pieceOf, h]

/-! ### The outcome -/

theorem bitsOf_testBit (f : Nat → Bool) (n : Nat) : ∀ k d, d < n → (bitsOf f n k).testBit d = f (k + d) := by
  induction n with
  | zero => intro k d h; omega
  | succ n ih =>
    intro k d h
    have low : b2n (f k) < 2 ^ 1 := by unfold b2n; split <;> decide
    rw [bitsOf, Nat.add_comm, show (2 : Nat) = 2 ^ 1 by rfl, Nat.testBit_two_pow_mul_add _ low]
    cases d with
    | zero => cases f k <;> simp [b2n]
    | succ d =>
      rw [if_neg (by omega), Nat.add_sub_cancel, ih _ _ (by omega)]
      congr 1
      omega

theorem foldl_max_ge (l : List Nat) : ∀ a, a ≤ l.foldl max a ∧ ∀ m ∈ l, m ≤ l.foldl max a := by
  induction l with
  | nil => simp
  | cons x l ih =>
    intro a
    obtain ⟨h1, h2⟩ := ih (max a x)
    simp only [List.foldl_cons, List.mem_cons]
    refine ⟨by omega, ?_⟩
    rintro m (rfl | hm)
    · omega
    · exact h2 m hm

theorem foldl_max_mem (l : List Nat) : ∀ a, l.foldl max a = a ∨ l.foldl max a ∈ l := by
  induction l with
  | nil => simp
  | cons x l ih =>
    intro a
    simp only [List.foldl_cons, List.mem_cons]
    rcases ih (max a x) with h | h
    · rw [h]
      rcases Nat.le_total a x with hx | hx
      · exact .inr (.inl (Nat.max_eq_right hx))
      · exact .inl (Nat.max_eq_left hx)
    · exact .inr (.inr h)

section
variable (b : Nat) (all : List (List (Nat × Option Nat)))

/-- Device d has too few pieces at the step of the command. -/
def lacksPieces (d : Nat) : Bool := decide (counting (all.getD d []) (cStep b) < cG b - 1)

/-- The other steps of valid pieces. -/
def otherSteps : List Nat := (all.flatten.filterMap (·.2)).filter (· != cStep b)

/-- Every device has pieces enough at a step. -/
def wholeAt (t : Nat) : Bool := all.all fun ps => decide (cG b - 1 ≤ counting ps t)

theorem loadOutcome_done (h : ∀ d < cG b, lacksPieces b all d = false) : loadOutcome b all = (0, 0, cStep b) := by
  have hall : ((List.range (cG b)).all fun d => !lacksPieces b all d) = true := by simpa using h
  exact if_pos hall

/-- The newest of the other steps at which every device has pieces enough, or 0. -/
def newestWhole : Nat := ((otherSteps b all).filter (wholeAt b all)).foldl max 0

theorem loadOutcome_lacks (h : ∃ d < cG b, lacksPieces b all d = true) : loadOutcome b all =
    (if (otherSteps b all).isEmpty then 0x22 else 0x21, maskOf (lacksPieces b all) (cG b) 0,
      newestWhole b all) := by
  have hall : ¬ ((List.range (cG b)).all fun d => !lacksPieces b all d) = true := by simpa using h
  exact if_neg hall

theorem mem_otherSteps (m : Nat) : m ∈ otherSteps b all ↔ (∃ ps ∈ all, ∃ p ∈ ps, p.2 = some m) ∧ m ≠ cStep b := by
  simp only [otherSteps, List.mem_filter, List.mem_filterMap, List.mem_flatten, bne_iff_ne, ne_eq]
  constructor
  · rintro ⟨⟨p, ⟨ps, hps, hp⟩, hm⟩, hne⟩
    exact ⟨⟨ps, hps, p, hp, hm⟩, hne⟩
  · rintro ⟨⟨ps, hps, p, hp, hm⟩, hne⟩
    exact ⟨⟨p, ⟨ps, hps, hp⟩, hm⟩, hne⟩

theorem otherSteps_some : (otherSteps b all).isEmpty = false ↔ ∃ ps ∈ all, ∃ p ∈ ps, ∃ m, p.2 = some m ∧ m ≠ cStep b := by
  rw [List.isEmpty_eq_false_iff_exists_mem]
  constructor
  · rintro ⟨m, hm⟩
    obtain ⟨⟨ps, hps, p, hp, he⟩, hne⟩ := (mem_otherSteps b all m).1 hm
    exact ⟨ps, hps, p, hp, m, he, hne⟩
  · rintro ⟨ps, hps, p, hp, m, he, hne⟩
    exact ⟨m, (mem_otherSteps b all m).2 ⟨⟨ps, hps, p, hp, he⟩, hne⟩⟩

theorem wholeAt_iff (t : Nat) : wholeAt b all t = true ↔ ∀ ps ∈ all, cG b - 1 ≤ counting ps t := by simp [wholeAt]

theorem newest_whole : newestWhole b all = 0 ∨ ∀ ps ∈ all, cG b - 1 ≤ counting ps (newestWhole b all) := by
  rcases foldl_max_mem ((otherSteps b all).filter (wholeAt b all)) 0 with h | h
  · exact .inl h
  · exact .inr ((wholeAt_iff b all _).1 (List.mem_filter.1 h).2)

theorem newest_ge {m : Nat} (hm : m ∈ otherSteps b all) (hall : ∀ ps ∈ all, cG b - 1 ≤ counting ps m) : m ≤ newestWhole b all :=
  (foldl_max_ge _ 0).2 m (List.mem_filter.2 ⟨hm, (wholeAt_iff b all m).2 hall⟩)

end

/-- The status of an outcome is one of three; DONE comes with MASK 0 and the step of the command. -/
theorem loadOutcome_status (b : Nat) (all : List (List (Nat × Option Nat))) : loadOutcome b all = (0, 0, cStep b) ∨
    (loadOutcome b all).1 = 0x21 ∨ (loadOutcome b all).1 = 0x22 := by
  by_cases h : ∀ d < cG b, lacksPieces b all d = false
  · exact .inl (loadOutcome_done b all h)
  · have h' : ∃ d < cG b, lacksPieces b all d = true := by simpa using h
    rw [loadOutcome_lacks b all h']
    dsimp only
    split <;> simp

end Sys2Proof.Machine

namespace Sys2Proof.Laws
open Sys2Proof Machine

/-- Of O59, the outcome and the steps of CKLOAD. -/
theorem loadsRebuild : Sys2Proof.loadsRebuild := by
  refine ⟨fun b junk lost x _ _ => rebuild_pieces b junk lost x, fun b all => ?_, fun s c rest => ?_⟩
  · intro lacks other r
    have hlacks (d : Nat) : lacksPieces b all d = true ↔ lacks d := decide_eq_true_iff
    refine ⟨fun h => loadOutcome_done b all fun d hd => Bool.eq_false_iff.2 fun k => h d hd ((hlacks d).1 k), fun ⟨d, hd, hl⟩ => ?_⟩
    have hr : r = _ := loadOutcome_lacks b all ⟨d, hd, (hlacks d).2 hl⟩
    have hother : (otherSteps b all).isEmpty = false ↔ other := otherSteps_some b all
    rw [hr]
    refine ⟨fun h => ?_, fun h => ?_, fun d hd => ?_, ?_, fun ps hps p hp m he hne hall => ?_⟩
    · rw [hother.2 h]
      rfl
    · rw [Bool.eq_true_of_not_eq_false fun k => h (hother.1 k)]
      rfl
    · rw [← hlacks]
      have bit := bitsOf_testBit (lacksPieces b all) (cG b) 0 d hd
      rw [Nat.zero_add] at bit
      exact Bool.eq_iff_iff.1 bit
    · exact newest_whole b all
    · exact newest_ge b all ((mem_otherSteps b all m).2 ⟨⟨ps, hps, p, hp, he⟩, hne⟩) hall
  · intro b g k holder n plain hc hd hw hop hbad
    obtain ⟨hlow, hhigh, hdev, -, -⟩ := cBad_geometry hbad
    have run : exec .collectiveCompletion s = .next { (ckLoadStep s c).1 with coll := (ckLoadStep s c).2 :: rest } := by
      rw [collNext_step hc hd hw, collRun_load hop]
    refine ⟨fun hk => ?_, fun hk => ?_⟩
    · have here : holder = cD b → piece s b k = homeReadN s (cSlot b (k / g)) (64 + cChunk b) := fun h => if_pos h
      by_cases hlast : k + 1 < g * g
      · have step : ckLoadStep s c = (useFree s, { c with got := c.got ++ [piece s b k] }) :=
          (if_pos hk).trans (if_pos (by simpa using hlast))
        rw [run, step]
        exact ⟨piece s b k, _, rfl, rfl, rfl, rfl, hw, here, fun _ => ⟨rfl, hd⟩, fun h => absurd h (Nat.ne_of_lt hlast)⟩
      · let all := (List.range g).map (piecesOf b (c.got ++ [piece s b k]))
        have step : ckLoadStep s c = (useFree s, { c with
            got := c.got ++ [piece s b k], status := (loadOutcome b all).1, mask := (loadOutcome b all).2.1
            step := BitVec.ofNat 64 (loadOutcome b all).2.2, done := (loadOutcome b all).1 != 0 || n == 0
            buf := if (loadOutcome b all).1 = 0 then rebuild b (all.getD (cD b) []) else 0 }) :=
          (if_pos hk).trans (if_neg (by simpa using hlast))
        have own : all.getD (cD b) [] = piecesOf b (c.got ++ [piece s b k]) (cD b) := by simp [all, hdev, g]
        rw [run, step]
        refine ⟨piece s b k, _, rfl, rfl, rfl, rfl, hw, here, fun h => absurd h hlast, fun _ => ⟨?_, fun h => ?_, fun h => ?_⟩⟩
        · rcases loadOutcome_status b all with h | h | h
          · exact .inl (congrArg Prod.fst h)
          · exact .inr (.inl h)
          · exact .inr (.inr h)
        · have hout : loadOutcome b all = (0, 0, cStep b) := by
            rcases loadOutcome_status b all with k | k | k
            · exact k
            · exact absurd (k.symm.trans h) (by decide)
            · exact absurd (k.symm.trans h) (by decide)
          rw [hout, own]
          exact ⟨rfl, toNat_cStep c.blk, rfl, by simp⟩
        · have hne : (loadOutcome b all).1 ≠ 0 := h
          simp [hne]
    · have step : ckLoadStep s c = (homeWriteN s (cSrc b + 64 * c.pos) 64 (bits c.buf (512 * c.pos) 512),
          { c with pos := c.pos + 1, done := c.pos + 1 == n }) := if_neg (Nat.not_lt.2 hk)
      rw [run, step]
      refine ⟨_, rfl, rfl, fun ⟨hp, hsrc⟩ => ?_⟩
      rw [homeReadN_withColl, homeReadN_homeWriteN hp (by omega)]
      exact Nat.mod_eq_of_lt (bits_lt ..)

end Sys2Proof.Laws
end

