-- ==== Sys2Proof/Proofs/Firmware.lean ====
section
/-!
Firmware: staging, activation, acknowledgement and time-out (R392, R393).
-/

namespace Sys2Proof.Machine

/-! ### The map of host functions -/

/-- A map whose keys ascend. -/
def Ascending (m : SMap HostFn) : Prop := m.Pairwise fun x y => x.1 < y.1

theorem mem_smPut {α : Type} {m : SMap α} {k : Nat} {v : α} {e : Nat × α} (h : e ∈ smPut m k v) : e.1 = k ∨ e ∈ m := by
  induction m with
  | nil => exact .inl (by rw [List.mem_singleton.1 h])
  | cons x m ih =>
    obtain ⟨j, u⟩ := x
    simp only [smPut] at h
    split at h
    · rcases List.mem_cons.1 h with rfl | h
      · exact .inl rfl
      · exact .inr (by simp [h])
    · split at h
      · rcases List.mem_cons.1 h with rfl | h
        · exact .inl rfl
        · exact .inr h
      · rcases List.mem_cons.1 h with rfl | h
        · exact .inr (by simp)
        · exact (ih h).imp id fun h => by simp [h]

theorem Ascending.smPut {m : SMap HostFn} (h : Ascending m) (k : Nat) (v : HostFn) : Ascending (smPut m k v) := by
  induction m with
  | nil => exact List.pairwise_singleton ..
  | cons x m ih =>
    obtain ⟨j, u⟩ := x
    obtain ⟨first, rest⟩ := List.pairwise_cons.1 h
    simp only [Machine.smPut]
    split
    · rename_i hk
      subst hk
      exact List.pairwise_cons.2 ⟨first, rest⟩
    · split
      · rename_i hlt
        refine List.pairwise_cons.2 ⟨fun e he => ?_, h⟩
        rcases List.mem_cons.1 he with rfl | he
        · exact hlt
        · exact Nat.lt_trans hlt (first e he)
      · refine List.pairwise_cons.2 ⟨fun e he => ?_, ih rest⟩
        rcases mem_smPut he with hek | he
        · dsimp only
          omega
        · exact first e he

/-- A lookup gives the entry of its key. -/
theorem Ascending.smGet {m : SMap HostFn} (h : Ascending m) : ∀ e ∈ m, smGet HostFn.reset m e.1 = e.2 := by
  induction m with
  | nil => simp
  | cons x m ih =>
    obtain ⟨first, rest⟩ := List.pairwise_cons.1 h
    intro e he
    rcases List.mem_cons.1 he with rfl | he
    · simp [Machine.smGet]
    · have hlt : x.1 < e.1 := first e he
      simp only [Machine.smGet, if_neg (show ¬ e.1 = x.1 by omega), if_neg (show ¬ e.1 < x.1 by omega)]
      exact ih rest e he

/-- A lookup of a key that no entry has gives a function at reset. -/
theorem smGet_absent {m : SMap HostFn} {k : Nat} (h : ∀ e ∈ m, e.1 ≠ k) : smGet HostFn.reset m k = HostFn.reset := by
  induction m with
  | nil => rfl
  | cons x m ih =>
    have hk : ¬ k = x.1 := fun e => h x (by simp) e.symm
    simp only [smGet, if_neg hk, ih fun e he => h e (by simp [he])]
    split <;> rfl

/-- The functions that a list of hosts is filtered to are those whose entry passes, when one at reset does not. -/
theorem mem_hosts {s : State} (h : Ascending s.hosts) {p : HostFn → Bool} (hp : p HostFn.reset = false) (f : Nat) :
    f ∈ (s.hosts.filter fun e => p e.2).map Prod.fst ↔ p (getHost s f) = true := by
  simp only [List.mem_map, List.mem_filter, getHost]
  constructor
  · rintro ⟨e, ⟨he, hpe⟩, rfl⟩
    rwa [h.smGet e he]
  · intro hf
    by_cases hk : ∀ e ∈ s.hosts, e.1 ≠ f
    · rw [smGet_absent hk, hp] at hf
      cases hf
    · simp only [not_forall, not_not] at hk
      obtain ⟨e, he, rfl⟩ := hk
      rw [h.smGet e he] at hf
      exact ⟨e, ⟨he, hf⟩, rfl⟩

theorem nodup_hosts {m : SMap HostFn} (h : Ascending m) (p : Nat × HostFn → Bool) : ((m.filter p).map Prod.fst).Nodup :=
  (List.pairwise_map.2 ((h.filter p).imp fun h => Nat.ne_of_lt h))

section
variable {s : State} (h : Ascending s.hosts)
include h

theorem mem_pausedFns (f : Nat) : f ∈ pausedFns s ↔ bits (getHost s f).fwevt.toNat 0 2 = 1 :=
  (mem_hosts h (p := fun x => bits x.fwevt.toNat 0 2 == 1) (by decide) f).trans beq_iff_eq

theorem nodup_pausedFns : (pausedFns s).Nodup := nodup_hosts h _

theorem nodup_activeFns : (activeFns s).Nodup := nodup_hosts h _

end

theorem allAcked_iff (s : State) : allAcked s = true ↔ ¬ ∃ f ∈ pausedFns s, (getHost s f).fwack = false := by
  simp [allAcked]

theorem noTask_iff (s : State) : noTask s = true ↔ ∀ c ∈ s.cells, c.2.task = none := by simp [noTask]

/-! ### One change of several functions -/

theorem getHost_modHost_same (s : State) (f : Nat) (g : HostFn → HostFn) : getHost (modHost s f g) f = g (getHost s f) :=
  smGet_smPut_same ..

theorem ascending_modHost {s : State} (h : Ascending s.hosts) (f : Nat) (g : HostFn → HostFn) : Ascending (modHost s f g).hosts :=
  h.smPut f _

/-- A change of several functions leaves every field but the map of them. -/
theorem modHosts_field {α : Type} {p : State → α} (hp : ∀ s m, p { s with hosts := m } = p s) (g : HostFn → HostFn) (l : List Nat) :
    ∀ s : State, p (l.foldl (fun s f => modHost s f g) s) = p s := by
  induction l with
  | nil => exact fun s => rfl
  | cons f l ih => exact fun s => (ih (modHost s f g)).trans (hp s _)

theorem ascending_modHosts (g : HostFn → HostFn) (l : List Nat) : ∀ {s : State}, Ascending s.hosts →
    Ascending (l.foldl (fun s f => modHost s f g) s).hosts := by
  induction l with
  | nil => exact id
  | cons f l ih => exact fun h => ih (ascending_modHost h f g)

theorem getHost_modHosts (g : HostFn → HostFn) (k : Nat) : ∀ (l : List Nat), l.Nodup → ∀ s : State,
    getHost (l.foldl (fun s f => modHost s f g) s) k = if k ∈ l then g (getHost s k) else getHost s k
  | [], _, s => rfl
  | f :: l, hl, s => by
    obtain ⟨hf, hl⟩ := List.nodup_cons.1 hl
    rw [List.foldl_cons, getHost_modHosts g k l hl]
    by_cases hk : k = f
    · subst hk
      simp [hf, getHost_modHost_same]
    · simp [hk, getHost_modHost_other s g hk]

/-! ### Fields -/

/-- A field of a word in its place is the word under the mask of it. -/
theorem field_in_place (w : Word) (lo n : Nat) :
    BitVec.ofNat 64 (bits w.toNat lo n * 2 ^ lo) = w &&& BitVec.ofNat 64 ((2 ^ n - 1) * 2 ^ lo) := by
  apply BitVec.eq_of_getLsbD_eq
  intro j hj
  rw [BitVec.getLsbD_and, BitVec.getLsbD_ofNat, BitVec.getLsbD_ofNat, Nat.mul_comm, Nat.mul_comm (2 ^ n - 1), Nat.testBit_two_pow_mul,
    Nat.testBit_two_pow_mul, bits_testBit, Nat.testBit_two_pow_sub_one]
  by_cases h : lo ≤ j
  · rw [Nat.add_sub_of_le h]
    simp [hj, h, BitVec.getLsbD, Bool.and_comm]
  · simp [h]

theorem fwAddr_eq (v : Word) : fwAddr v = v &&& 0x0000FFFFFFFFF000 := field_in_place v 12 36

/-- BUSY beside the last status. -/
theorem fwStatus_busy (w : Word) : fwStatus 1 (bits w.toNat 8 8) = (w &&& 0xFF00) ||| 1 := by
  have place : (w &&& 0xFF00) = BitVec.ofNat 64 (bits w.toNat 8 8 * 2 ^ 8) := (field_in_place w 8 8).symm
  rw [place, fwStatus, Nat.add_comm, Nat.mul_comm, Nat.two_pow_add_eq_or_of_lt (by decide), BitVec.ofNat_or]
  rfl

/-- PAUSE is followed by RESUME. -/
theorem fwevt_resumed {w : Word} (h : bits w.toNat 0 2 = 1) : (w + 1).extractLsb' 0 2 = 2 := by
  apply BitVec.eq_of_toNat_eq
  have hw : w.toNat % 4 = 1 := by simpa [bits] using h
  have one : (1 : Word).toNat = 1 := rfl
  have two : (2 : BitVec 2).toNat = 2 := rfl
  simp only [BitVec.extractLsb'_toNat, BitVec.toNat_add, Nat.shiftRight_zero, one, two]
  omega

theorem lowBits (q : Nat) : (1 + q * 2 ^ 32) % 2 ^ 64 % 2 ^ 2 = 1 := by omega

theorem highHalf {q : Nat} (h : q < 2 ^ 32) : (1 + q * 2 ^ 32) % 2 ^ 64 / 2 ^ 32 % 2 ^ 32 = q := by omega

/-- A function that is sent PAUSE: the event, its number, and no acknowledgement yet. -/
def pausedHost (h : HostFn) : HostFn := { h with
  fwack := false, fwevt := BitVec.ofNat 64 (1 + (bits h.fwevt.toNat 32 32 + 1) % 2 ^ 32 * 2 ^ 32) }

theorem pausedHost_event (h : HostFn) : (pausedHost h).fwevt.extractLsb' 0 2 = 1 := by
  apply BitVec.eq_of_toNat_eq
  rw [BitVec.extractLsb'_toNat, pausedHost, BitVec.toNat_ofNat, Nat.shiftRight_zero]
  exact lowBits _

theorem pausedHost_number (h : HostFn) : (pausedHost h).fwevt.extractLsb' 32 32 = h.fwevt.extractLsb' 32 32 + 1 := by
  apply BitVec.eq_of_toNat_eq
  rw [BitVec.extractLsb'_toNat, BitVec.toNat_add, BitVec.extractLsb'_toNat, pausedHost, BitVec.toNat_ofNat, Nat.shiftRight_eq_div_pow]
  exact highHalf (Nat.mod_lt _ (by decide))

/-! ### The end of an activation -/

/-- What the end of an activation leaves: nothing is paused or staged, every function that was paused has had RESUME, and the running
image is that of before. -/
structure Resumed (s t : State) (status : Nat) : Prop where
  paused : t.paused = false
  fwimage : t.fwimage = none
  fwactive : t.fwactive = s.fwactive
  fwcode : t.fwcode = s.fwcode
  fwstat : t.fwstat = fwStatus 0 status
  hosts : ∀ f ∈ pausedFns s, (getHost t f).fwevt.extractLsb' 0 2 = 2

theorem resumeAll_resumed {s : State} (h : Ascending s.hosts) (status : Nat) : Resumed s (resumeAll s status) status := by
  let resume (x : HostFn) : HostFn := { x with fwack := false, fwevt := x.fwevt + 1 }
  let u := (pausedFns s).foldl (fun s f => modHost s f resume) s
  have kept : aside (resumeAll s status) = aside { u with paused := false, fwimage := none, fwstat := fwStatus 0 status } :=
    aside_foldl aside_takeIn _ _
  refine ⟨congrArg Aside.paused kept, congrArg Aside.fwimage kept, ?_, ?_, congrArg Aside.fwstat kept, fun f hf => ?_⟩
  · exact (congrArg Aside.fwactive kept).trans (modHosts_field (p := State.fwactive) (fun _ _ => rfl) resume (pausedFns s) s)
  · exact (congrArg Aside.fwcode kept).trans (modHosts_field (p := State.fwcode) (fun _ _ => rfl) resume (pausedFns s) s)
  · have host : getHost (resumeAll s status) f = getHost u f := congrArg (smGet HostFn.reset · f) (congrArg Aside.hosts kept)
    rw [host, getHost_modHosts resume f _ (nodup_pausedFns h), if_pos hf]
    exact fwevt_resumed ((mem_pausedFns h f).1 hf)

/-- The new firmware runs once every function has acknowledged and no task runs. -/
theorem tryActivate_goes {s : State} {a : Word} (hp : s.paused = true) (hi : s.fwimage = some a)
    (hacked : ¬ ∃ f ∈ pausedFns s, (getHost s f).fwack = false) (hidle : ∀ c ∈ s.cells, c.2.task = none) :
    tryActivate s = resumeAll { s with fwactive := a, fwcode := homeReadN s a.toNat Config.imageBytes } 0 := by
  simp [tryActivate, hp, hi, (allAcked_iff s).2 hacked, (noTask_iff s).2 hidle]

/-- Then the staged image is the running one, and every function has had RESUME. -/
theorem tryActivate_replaces {s : State} {a : Word} (h : Ascending s.hosts) (hp : s.paused = true) (hi : s.fwimage = some a)
    (hacked : ¬ ∃ f ∈ pausedFns s, (getHost s f).fwack = false) (hidle : ∀ c ∈ s.cells, c.2.task = none) :
    Resumed { s with fwactive := a, fwcode := homeReadN s a.toNat Config.imageBytes } (tryActivate s) 0 := by
  rw [tryActivate_goes hp hi hacked hidle]
  exact resumeAll_resumed (s := { s with fwactive := a, fwcode := homeReadN s a.toNat Config.imageBytes }) h 0

theorem tryActivate_waits {s : State} (h : s.paused = false ∨ (∃ f ∈ pausedFns s, (getHost s f).fwack = false) ∨
    ¬ ∀ c ∈ s.cells, c.2.task = none) : tryActivate s = s := by
  unfold tryActivate
  split
  next hp _ =>
    rw [if_neg]
    rw [Bool.and_eq_true, allAcked_iff, noTask_iff]
    rintro ⟨hacked, hidle⟩
    rcases h with h | h | h
    · rw [h] at hp
      cases hp
    · exact hacked h
    · exact h hidle
  next => rfl

theorem ackLate_iff (s : State) : ackLate s = true ↔
    (∃ f ∈ pausedFns s, (getHost s f).fwack = false) ∧ 10000000000 ≤ s.sincePause := by
  rw [ackLate, Bool.and_eq_true, decide_eq_true_iff, Bool.not_eq_true', ← Bool.not_eq_true, allAcked_iff, not_not]

/-! ### Acknowledgement -/

/-- A function that has acknowledged. -/
def acked (s : State) (f : Nat) : State := modHost s f fun x => { x with fwack := true }

theorem ascending_acked {s : State} (h : Ascending s.hosts) (f : Nat) : Ascending (acked s f).hosts := ascending_modHost h f _

theorem pausedFns_acked {s : State} (h : Ascending s.hosts) (f g : Nat) : g ∈ pausedFns (acked s f) ↔ g ∈ pausedFns s := by
  rw [mem_pausedFns (ascending_acked h f), mem_pausedFns h]
  by_cases hg : g = f
  · subst hg
    rw [acked, getHost_modHost_same]
  · rw [acked, getHost_modHost_other s _ hg]

/-- An acknowledgement in time, of a function that is paused. -/
theorem fwack_intime {s : State} {f : Nat} (hp : s.paused = true) (hf : f ∈ pausedFns s) (hl : ¬ ackLate s = true) :
    exec (.fwack f) s = .next (tryActivate (acked s f)) := by
  have run : exec (.fwack f) s = execFwack f s := rfl
  rw [run, execFwack, if_pos hp, if_neg hl, if_pos (List.contains_iff_mem.2 hf)]
  rfl

/-- One that comes too late. -/
theorem fwack_late {s : State} {f : Nat} (hp : s.paused = true) (hl : ackLate s = true) : exec (.fwack f) s = .next (resumeAll s 2) := by
  have run : exec (.fwack f) s = execFwack f s := rfl
  rw [run, execFwack, if_pos hp, if_pos hl]

/-- Who is missing after an acknowledgement: the others that were. -/
theorem missing_acked {s : State} (h : Ascending s.hosts) (f : Nat) :
    (∃ g ∈ pausedFns (acked s f), (getHost (acked s f) g).fwack = false) ↔ ∃ g ∈ pausedFns s, g ≠ f ∧ (getHost s g).fwack = false := by
  simp only [pausedFns_acked h]
  refine exists_congr fun g => and_congr_right fun _ => ?_
  by_cases hg : g = f
  · subst hg
    simp [acked, getHost_modHost_same]
  · simp [acked, getHost_modHost_other s _ hg, hg]

/-! ### Activation -/

/-- Activation begins: the queues are paused, and the functions that are active have PAUSE. -/
def pauseBegun (s : State) : State :=
  { useFree s with paused := true, sincePause := 0, fwstat := fwStatus 1 (bits s.fwstat.toNat 8 8) }

def pausedAll (s : State) : State := (activeFns s).foldl (fun s f => modHost s f pausedHost) (pauseBegun s)

theorem getHost_pausedAll {s : State} (h : Ascending s.hosts) {f : Nat} (hf : f ∈ activeFns s) :
    getHost (pausedAll s) f = pausedHost (getHost s f) :=
  (getHost_modHosts pausedHost f _ (nodup_activeFns h) _).trans (if_pos hf)

theorem pausedAll_field {α : Type} {p : State → α} (hp : ∀ s m, p { s with hosts := m } = p s) (s : State) :
    p (pausedAll s) = p (pauseBegun s) := modHosts_field hp ..

/-- An ACTIVATE of what is staged and good. -/
theorem activateBody_accepted {s : State} {v : Word} (hp : s.paused = false) (hi : s.fwimage = some (fwAddr v)) (hg : sigGood s = true) :
    activateBody s v = tryActivate (pausedAll s) := by
  have accepted : ¬ (s.fwimage ≠ some (fwAddr v) ∨ (!sigGood s) = true) := by simp [hi, hg]
  rw [activateBody, if_neg (by simp [hp]), if_neg accepted]
  rfl

/-- One of another image, or of one that is no longer good. -/
theorem activateBody_refused {s : State} {v : Word} (hp : s.paused = false) (h : s.fwimage ≠ some (fwAddr v) ∨ ¬ sigGood s = true) :
    activateBody s v = { useFree s with fwstat := fwStatus 0 1 } := by
  have refused : s.fwimage ≠ some (fwAddr v) ∨ (!sigGood s) = true := by simpa using h
  rw [activateBody, if_neg (by simp [hp]), if_pos refused]

/-- With no function to wait for, the functions are as before. -/
theorem pausedAll_none {s : State} (h : activeFns s = []) : pausedAll s = pauseBegun s := by
  rw [pausedAll, h]
  rfl

/-- With a function to wait for, an activation waits. -/
theorem tryActivate_pausedAll {s : State} (h : Ascending s.hosts) (hne : activeFns s ≠ []) : tryActivate (pausedAll s) = pausedAll s := by
  obtain ⟨f, hf⟩ := List.exists_mem_of_ne_nil _ hne
  have up : Ascending (pausedAll s).hosts := ascending_modHosts _ _ h
  have host := getHost_pausedAll h hf
  refine tryActivate_waits (.inr (.inl ⟨f, (mem_pausedFns up f).2 ?_, ?_⟩))
  · rw [host, bits_toNat, pausedHost_event]
    rfl
  · rw [host]
    rfl

end Sys2Proof.Machine

namespace Sys2Proof.Laws
open Sys2Proof Machine

/-- Of O59, staging, activation, acknowledgement and time-out. -/
theorem firmwareIsReplaced : Sys2Proof.firmwareIsReplaced := by
  intro s v a ha up good next resumed timedOut replaced idle late missing
  have addr : fwAddr v = a := (fwAddr_eq v).trans ha.symm
  have stage : exec (.fwcmdStage v) s = .next (stageBody s v) := rfl
  have activate : exec (.fwcmdActivate v) s = .next (activateBody s v) := rfl
  have timer : exec .fwActivationTimeout s = execFwActivationTimeout s := rfl
  have expired : timedOut (resumeAll s 2) := by
    have r := resumeAll_resumed up 2
    exact ⟨⟨r.paused, r.fwimage, r.hosts⟩, r.fwactive, r.fwstat⟩
  have late_iff : ackLate s = true ↔ missing ∧ late := ackLate_iff s
  refine ⟨fun hp => ?_, fun hp hg => ?_, fun hp hg => ?_, fun hp hg => ?_, fun hp hi hg => ?_, fun f hp hf => ?_, fun hp hm hl => ?_,
    fun hp hm hidle hi => ?_, fun h => ?_⟩
  · rw [stage, activate, stageBody, activateBody, if_pos hp, if_pos hp]
    exact ⟨rfl, rfl⟩
  · rw [stage, stageBody, if_neg (by simp [hp]), if_pos (show sigGood s = true from hg), addr]
    rfl
  · rw [stage, stageBody, if_neg (by simp [hp]), if_neg (show ¬ sigGood s = true from hg)]
    rfl
  · rw [activate, activateBody_refused hp (addr.symm ▸ hg)]
    rfl
  · refine ⟨_, activate.trans (congrArg Host.Outcome.next (activateBody_accepted hp (addr.symm ▸ hi) hg)), fun hne => ?_,
      fun hnone hpaused hidle => ?_, fun hnone hpaused hidle => ?_⟩
    · rw [tryActivate_pausedAll up hne]
      refine ⟨pausedAll_field (p := State.paused) (fun _ _ => rfl) s,
        (pausedAll_field (p := State.fwstat) (fun _ _ => rfl) s).trans (fwStatus_busy s.fwstat),
        pausedAll_field (p := State.fwactive) (fun _ _ => rfl) s, fun f hf => ?_⟩
      rw [getHost_pausedAll up hf]
      exact ⟨rfl, pausedHost_event (getHost s f), pausedHost_number _⟩
    · rw [pausedAll_none hnone, tryActivate_waits (s := pauseBegun s) (.inr (.inr hidle))]
      exact ⟨rfl, rfl⟩
    · have same : HomesSame next (pauseBegun s) := HomesSame.of_eq rfl rfl rfl rfl
      have none_paused : pausedFns (pauseBegun s) = [] := hpaused
      have r := tryActivate_replaces (s := pauseBegun s) up rfl hi (by simp [none_paused]) hidle
      rw [pausedAll_none hnone]
      exact ⟨r.paused, r.fwactive, r.fwstat, r.fwcode.trans (same.homeReadN ..)⟩
  · by_cases hlate : ackLate s = true
    · refine ⟨_, fwack_late hp hlate, fun _ _ => expired, fun hnot => ?_⟩
      obtain ⟨hm, hl⟩ := late_iff.1 hlate
      exact hnot.elim (absurd hm) (absurd hl)
    · refine ⟨_, fwack_intime hp hf hlate, fun hm hl => absurd (late_iff.2 ⟨hm, hl⟩) hlate,
        fun _ => ⟨fun hi hothers hidle => ?_, fun hwaits => ?_⟩⟩
      · obtain ⟨b, hb⟩ := Option.isSome_iff_exists.1 hi
        have none_missing : ¬ ∃ g ∈ pausedFns (acked s f), (getHost (acked s f) g).fwack = false := by
          rw [missing_acked up]
          rintro ⟨g, hg, hne, hga⟩
          rw [hothers g hg hne] at hga
          cases hga
        have r := tryActivate_replaces (ascending_acked up f) hp hb none_missing hidle
        exact ⟨⟨r.paused, r.fwimage, fun g hg => r.hosts g ((pausedFns_acked up f g).2 hg)⟩,
          hb.trans (congrArg some r.fwactive.symm), r.fwstat⟩
      · rw [tryActivate_waits (s := acked s f) (.inr (hwaits.imp (missing_acked up f).2 id))]
        exact ⟨hp, congrArg HostFn.fwack (getHost_modHost_same ..), rfl⟩
  · have hlate : (s.paused && ackLate s) = true := by rw [hp, late_iff.2 ⟨hm, hl⟩]; rfl
    rw [timer, execFwActivationTimeout, if_pos hlate]
    exact ⟨_, rfl, expired⟩
  · obtain ⟨b, hb⟩ := Option.isSome_iff_exists.1 hi
    have intime : ¬ (s.paused && ackLate s) = true := by
      rw [Bool.and_eq_true, late_iff]
      exact fun k => hm k.2.1
    have r := tryActivate_replaces up hp hb hm hidle
    rw [timer, execFwActivationTimeout, if_neg intime]
    exact ⟨_, rfl, ⟨r.paused, r.fwimage, r.hosts⟩, hb.trans (congrArg some r.fwactive.symm), r.fwstat⟩
  · have waits : tryActivate s = s := tryActivate_waits (h.imp id fun h => h.imp And.left And.right)
    have intime : ¬ (s.paused && ackLate s) = true := by
      rw [Bool.and_eq_true, late_iff]
      rintro ⟨hp, hm, hl⟩
      rcases h with h | h | h
      · rw [h] at hp
        cases hp
      · exact h.2 hl
      · exact h.1 hm
    rw [timer, execFwActivationTimeout, if_neg intime, waits]

/-- Settles O59: each of its parts holds. What is written is read back bit by bit where memory is plain, and what stands aside of memory
is unmoved by every access. -/
theorem lifeCycleAndCollectives : Obligations.LifeCycleAndCollectives :=
  ⟨lifeCycleMoves, firmwareIsReplaced, commandsAreTaken, savesSpread, loadsRebuild, collectivesEnd⟩

end Sys2Proof.Laws
end

