-- ==== Sys2Proof/Proofs/Resets.lean ====
section
/-!
What the maps of the machine hold at reset (R28, R224, R337, R345, R354).
-/

namespace Sys2Proof.Machine

/-- RST0 to RST63 at reset (R345): the last four entries have V and VES. -/
theorem smGet_rstReset (i : Nat) : smGet 0 Die.rstReset i = if 60 ≤ i ∧ i < 64 then (0xA000000000000000 : Word) else 0 := by
  simp only [Die.rstReset, smGet]
  grind

end Sys2Proof.Machine

namespace Sys2Proof.Laws
open Sys2Proof Machine

/-- Settles O48: a state that lists nothing holds the default of each of its maps. -/
theorem resetLeavesTheStatedValues : Obligations.ResetLeavesTheStatedValues := by
  refine ⟨fun _ => rfl, rfl, rfl, rfl, rfl, fun n => ?_, fun d => ?_⟩
  · exact ⟨rfl, rfl, rfl, rfl, rfl, fun _ => rfl, fun _ => rfl, fun _ => ⟨rfl, rfl⟩⟩
  · exact ⟨smGet_rstReset, rfl, fun _ _ => ⟨rfl, rfl, rfl, rfl⟩⟩

end Sys2Proof.Laws
end

