-- ==== Sys2Proof/Proofs/Rows.lean ====
section
/-!
Lanes and signed fields (R3, R16), and the rows of the accumulator (R28, R29): the mantissas and HR of a row that is written.
-/

namespace Sys2Proof.Machine

/-! ### Lanes and signed fields -/

theorem lane_zero (w v : Nat) : lane w v 0 = v % 2 ^ w := by simp [lane, bits]

theorem lane_succ (w v j : Nat) : lane w v (j + 1) = lane w (v / 2 ^ w) j := by
  simp only [lane, bits, Nat.shiftRight_eq_div_pow, Nat.div_div_eq_div_mul, ← Nat.pow_add]
  rw [show w * (j + 1) = w + w * j by ring]

/-- A value made of lanes has these lanes. -/
theorem lane_lanes (w : Nat) (f : Nat → Nat) (n : Nat) : ∀ k j, j < n → lane w (lanes w f n k) j = f (k + j) % 2 ^ w := by
  induction n with
  | zero => intro k j h; omega
  | succ n ih =>
    intro k j h
    cases j with
    | zero => rw [lane_zero, lanes, Nat.add_mul_mod_self_left, Nat.mod_mod, Nat.add_zero]
    | succ j =>
      have hlow : f k % 2 ^ w < 2 ^ w := Nat.mod_lt _ (Nat.two_pow_pos w)
      rw [lane_succ, lanes, Nat.add_mul_div_left _ _ (Nat.two_pow_pos w), Nat.div_eq_of_lt hlow, Nat.zero_add,
        ih (k + 1) j (by omega), show k + 1 + j = k + (j + 1) by omega]

theorem lane_lt (w v j : Nat) : lane w v j < 2 ^ w := bits_lt ..

theorem sval_mod (w v : Nat) : sval w (v % 2 ^ w) = sval w v := by simp only [sval, Nat.mod_mod]

/-- A signed value that fits its field is read back. -/
theorem sval_wrap {w : Nat} {i : Int} (hlo : -2 ^ w ≤ i) (hhi : i < 2 ^ w) : sval (w + 1) (wrap (w + 1) i) = i := by
  have pow : (2 : Int) ^ (w + 1) = 2 * 2 ^ w := by ring
  have key : (wrap (w + 1) i : Int) = i ∨ (wrap (w + 1) i : Int) = i + 2 ^ (w + 1) ∧ i < 0 := by
    have h : (wrap (w + 1) i : Int) = i % 2 ^ (w + 1) := by
      rw [wrap, Int.toNat_of_nonneg (Int.emod_nonneg _ (by positivity))]
      norm_cast
    rw [h]
    rcases lt_or_ge i 0 with hi | hi
    · right
      exact ⟨by rw [← Int.add_emod_right, Int.emod_eq_of_lt (by omega) (by omega)], hi⟩
    · exact .inl (Int.emod_eq_of_lt hi (by omega))
  have hlt : wrap (w + 1) i < 2 ^ (w + 1) := by
    zify
    rcases key with h | ⟨h, hi⟩ <;> rw [h] <;> omega
  unfold sval
  rw [Nat.mod_eq_of_lt hlt]
  have half : ((2 ^ w : Nat) : Int) = 2 ^ w := by norm_cast
  simp only [Nat.add_sub_cancel]
  split
  · omega
  · omega

/-! ### Bit lengths -/

theorem bitlen_le {n k : Nat} : bitlen n ≤ k ↔ n < 2 ^ k := by
  unfold bitlen
  split
  · simp_all
  · rw [Nat.succ_le_iff, Nat.log2_lt ‹_›]

theorem lt_two_pow_bitlen (n : Nat) : n < 2 ^ bitlen n := bitlen_le.1 le_rfl

theorem bitlen_zero : bitlen 0 = 0 := rfl

/-- The bit length is the number of bits of a value that is not 0. -/
theorem two_pow_bitlen_le {n : Nat} (h : n ≠ 0) : 2 ^ bitlen n ≤ 2 * n := by
  rw [bitlen, if_neg h, Nat.pow_succ, Nat.mul_comm]
  exact Nat.mul_le_mul_left 2 (Nat.log2_self_le h)

theorem bitlen_pos {n : Nat} (h : n ≠ 0) : 0 < bitlen n := by simp [bitlen, h]

/-- The bit length of a value of k bits. -/
theorem bitlen_eq {n k : Nat} (hlo : 2 ^ k ≤ 2 * n) (hhi : n < 2 ^ k) : bitlen n = k := by
  refine le_antisymm (bitlen_le.2 hhi) ?_
  by_contra hk
  have h := Nat.pow_le_pow_right (n := 2) (by omega) (show bitlen n + 1 ≤ k by omega)
  have := lt_two_pow_bitlen n
  rw [Nat.pow_succ] at h
  omega

/-- The longest of some values. -/
theorem maxLen_le {ms : List Int} {k : Nat} : maxLen ms ≤ k ↔ ∀ m ∈ ms, m.natAbs < 2 ^ k := by
  constructor
  · intro h m hm
    exact bitlen_le.1 (((foldl_max_ge _ 0).2 _ (List.mem_map_of_mem hm)).trans h)
  · intro h
    rcases foldl_max_mem (ms.map fun i => bitlen i.natAbs) 0 with h0 | hmem
    · rw [maxLen, h0]
      exact Nat.zero_le k
    · obtain ⟨m, hm, he⟩ := List.mem_map.1 hmem
      rw [maxLen, ← he]
      exact bitlen_le.2 (h m hm)

theorem lt_two_pow_maxLen {ms : List Int} {m : Int} (h : m ∈ ms) : m.natAbs < 2 ^ maxLen ms := maxLen_le.1 le_rfl m h

/-- Some value has the longest length. -/
theorem two_pow_maxLen_le {ms : List Int} (h : ∃ m ∈ ms, m ≠ 0) : ∃ m ∈ ms, 2 ^ maxLen ms ≤ 2 * m.natAbs := by
  rcases foldl_max_mem (ms.map fun i => bitlen i.natAbs) 0 with h0 | hmem
  · obtain ⟨m, hm, hne⟩ := h
    have := lt_two_pow_maxLen hm
    rw [maxLen, h0] at this
    omega
  · obtain ⟨m, hm, he⟩ := List.mem_map.1 hmem
    by_cases hz : m.natAbs = 0
    · obtain ⟨k, hk, hne⟩ := h
      have := lt_two_pow_maxLen hk
      rw [maxLen, ← he, hz, bitlen_zero] at this
      omega
    · exact ⟨m, hm, by rw [maxLen, ← he]; exact two_pow_bitlen_le hz⟩

/-- The length of values of which one has k bits and none more. -/
theorem maxLen_eq {ms : List Int} {k : Nat} (hlo : ∃ m ∈ ms, 2 ^ k ≤ 2 * m.natAbs) (hhi : ∀ m ∈ ms, m.natAbs < 2 ^ k) : maxLen ms = k := by
  obtain ⟨m, hm, hk⟩ := hlo
  refine le_antisymm (maxLen_le.2 hhi) ?_
  calc k = bitlen m.natAbs := (bitlen_eq hk (hhi m hm)).symm
    _ ≤ maxLen ms := (foldl_max_ge _ 0).2 _ (List.mem_map_of_mem hm)

/-! ### Rows -/

/-- The mantissas of a row that is written, as far as they fit. -/
theorem mant_withMants (r : AccRow) {ms : List Int} (h : ∀ m ∈ ms, m.natAbs < 2 ^ 47) {j : Nat} (hj : j < 64) :
    mant (withMants r ms) j = ms.getD j 0 := by
  have hfit : (ms.getD j 0).natAbs < 2 ^ 47 := by
    rw [List.getD_eq_getElem?_getD]
    cases hm : ms[j]? with
    | none => simp
    | some m => exact h m (List.mem_of_getElem? hm)
  have hlanes : (withMants r ms).m.toNat = lanes 48 (fun j => wrap 48 (ms.getD j 0)) 64 0 :=
    Nat.mod_eq_of_lt (lanes_lt 48 _ 64 0)
  rw [mant, hlanes, lane_lanes 48 _ 64 0 j hj, sval_mod, Nat.zero_add]
  exact sval_wrap (w := 47) (by omega) (by omega)

/-- HR of a row that is written (R28, R29). -/
theorem hr_withMants (r : AccRow) {ms : List Int} (h : maxLen ms ≤ 46) : (withMants r ms).hr.toNat = 46 - maxLen ms := by
  have hw : wrap 6 (46 - (maxLen ms : Int)) = 46 - maxLen ms := by
    rw [wrap, Int.emod_eq_of_lt (by omega) (by omega)]
    omega
  show (wrap 6 (46 - (maxLen ms : Int))) % 2 ^ 6 = _
  rw [hw]
  omega

@[simp] theorem withMants_e (r : AccRow) (ms : List Int) : (withMants r ms).e = r.e := by simp only [withMants]
@[simp] theorem withMants_z (r : AccRow) (ms : List Int) : (withMants r ms).z = r.z := by simp only [withMants]
@[simp] theorem withMants_pf (r : AccRow) (ms : List Int) : (withMants r ms).pf = r.pf := by simp only [withMants]

theorem mem_mants {r : AccRow} {m : Int} : m ∈ mants r ↔ ∃ j < 64, mant r j = m := by simp [mants]

theorem mants_getD (r : AccRow) {j : Nat} (hj : j < 64) : (mants r).getD j 0 = mant r j := by simp [mants, hj]

theorem toInt_ofInt16 {i : Int} (hlo : -32768 ≤ i) (hhi : i ≤ 32767) : (BitVec.ofInt 16 i).toInt = i := by
  rw [BitVec.toInt_ofInt, Int.bmod_eq_of_le (by norm_num; omega) (by norm_num; omega)]

end Sys2Proof.Machine
end

