-- ==== Sys2Proof/Proofs/Norm.lean ====
section
/-!
mx.norm (R34).
-/

namespace Sys2Proof.Machine

/-- How far mx.norm shifts a row: to HR 12, or to the lowest exponent (R34). -/
def normShift (r : AccRow) : Nat := (min (max 0 ((r.hr.toNat : Int) - 12)) (r.e.toInt + 32768)).toNat

variable {r : AccRow}

theorem normShift_bounds (r : AccRow) : -32768 ≤ r.e.toInt ∧ r.e.toInt ≤ 32767 ∧
    (normShift r : Int) = min (max 0 ((r.hr.toNat : Int) - 12)) (r.e.toInt + 32768) := by
  have hlo : -32768 ≤ r.e.toInt := by simpa using BitVec.le_toInt r.e
  have hhi : r.e.toInt < 32768 := by simpa using BitVec.toInt_lt (x := r.e)
  refine ⟨hlo, by omega, Int.toNat_of_nonneg (by omega)⟩

/-- A row that is not all zero is shifted left. -/
theorem normRow_shifts (hz : r.z = false) (hr : r.hr.toNat ≤ 46) (hne : ∃ j < 64, mant r j ≠ 0) :
    normRow r = withMants { r with e := BitVec.ofInt 16 (r.e.toInt - normShift r) } ((mants r).map (· * 2 ^ normShift r)) := by
  obtain ⟨j, hj, hm⟩ := hne
  have hall : ¬ (mants r).all (· == 0) = true := by
    rw [List.all_eq_true]
    exact fun h => hm (by simpa using h _ (mem_mants.2 ⟨j, hj, rfl⟩))
  have hhr : rowHr r = r.hr.toNat := if_neg (by omega)
  have hs := (normShift_bounds r).2.2
  rw [normRow, if_neg hall, if_neg (by simp [hz])]
  simp only [hhr, rowExp]
  rw [← hs, Int.toNat_natCast]

/-- A row that HR describes does not outgrow 46 bits. -/
theorem shifted_fits (hfit : ∀ j < 64, (mant r j).natAbs < 2 ^ (46 - r.hr.toNat)) :
    ∀ m ∈ (mants r).map (· * 2 ^ normShift r), m.natAbs < 2 ^ (46 - r.hr.toNat + normShift r) := by
  intro m hm
  obtain ⟨i, hi, rfl⟩ := List.mem_map.1 hm
  obtain ⟨j, hj, rfl⟩ := mem_mants.1 hi
  rw [Int.natAbs_mul, Int.natAbs_pow, pow_add]
  exact Nat.mul_lt_mul_of_pos_right (hfit j hj) (by positivity)

end Sys2Proof.Machine

namespace Sys2Proof.Laws
open Sys2Proof Machine

/-- Settles O29: the shift of mx.norm loses no bit, and lengthens every mantissa by as much as it lowers E. -/
theorem normKeepsValues : Obligations.NormKeepsValues := by
  intro r hz hr hfit hne t
  obtain ⟨hlo, hhi, hs⟩ := normShift_bounds r
  have ht : t = _ := normRow_shifts hz hr hne
  have hlong := shifted_fits hfit
  have hle : 46 - r.hr.toNat + normShift r ≤ 46 := by omega
  have he : t.e.toInt = r.e.toInt - normShift r := by
    rw [ht, withMants_e]
    exact toInt_ofInt16 (by omega) (by omega)
  have hk : (r.e.toInt - t.e.toInt).toNat = normShift r := by omega
  refine ⟨by rw [ht, withMants_z, hz], by rw [ht, withMants_pf], by omega, fun j hj => ?_, by omega, fun ⟨j, hj, htop⟩ => ?_⟩
  · have hwide : ∀ m ∈ (mants r).map (· * 2 ^ normShift r), m.natAbs < 2 ^ 47 := fun m hm =>
      (hlong m hm).trans_le (Nat.pow_le_pow_right (by omega) (by omega))
    rw [hk, ht, mant_withMants _ hwide hj]
    simp [mants, hj]
  · have hlen : maxLen ((mants r).map (· * 2 ^ normShift r)) = 46 - r.hr.toNat + normShift r := by
      refine maxLen_eq ⟨mant r j * 2 ^ normShift r, List.mem_map_of_mem (mem_mants.2 ⟨j, hj, rfl⟩), ?_⟩ hlong
      rw [Int.natAbs_mul, Int.natAbs_pow, pow_add, ← Nat.mul_assoc]
      exact Nat.mul_le_mul_right _ htop
    have hhr : t.hr.toNat = 46 - (46 - r.hr.toNat + normShift r) := by
      rw [ht, hr_withMants _ (hlen.trans_le hle), hlen]
    omega

end Sys2Proof.Laws
end

