-- ==== Sys2Proof/Proofs/Drains.lean ====
section
/-!
mx.drain (R35, R188).
-/

namespace Sys2Proof.Machine

theorem xGuard_on {s : State} (h : stageOn s = true) (f : State → State) : xGuard s f = f s := if_pos h

theorem bit1_toNat_eq_one {h : BitVec 1} : h.toNat = 1 ↔ h = 1 := by
  rw [← BitVec.toNat_inj]
  rfl

/-- The lanes of zeros. -/
theorem lanes_zero (w n : Nat) : ∀ k, lanes w (fun _ => 0) n k = 0 := by
  induction n with
  | zero => intro k; rfl
  | succ n ih => intro k; rw [lanes, ih, Nat.zero_mod, Nat.mul_zero]

theorem drainWidth_eq {f : Nat} (h : f < 6) : drainWidth f = [32, 16, 16, 8, 8, 32].getD f 0 := by
  interval_cases f <;> rfl

/-- A poisoned row drains as canonical NaNs into the floating-point formats, and as 0 into the others. -/
theorem drainNaN_eq (f : Nat) : drainNaN f = [0x7FC00000, 0x7FC0, 0x7E00].getD f 0 := by
  match f with
  | 0 => rfl
  | 1 => rfl
  | 2 => rfl
  | _ + 3 => rfl

theorem drainNaN_integer {f : Nat} (h : 3 ≤ f) : drainNaN f = 0 := by
  rw [drainNaN_eq, List.getD_eq_default _ _ (by simpa using h)]

/-- Element k of what a row drains as (R35). -/
def drainLane (row : AccRow) (f h k : Nat) : Nat :=
  if row.pf then drainNaN f else if row.z then 0 else drainElem f (mant row (32 * h + k)) (rowExp row)

/-- What mx.drain puts into mx.r. -/
def drainOut (row : AccRow) (f h : Nat) : Vec := BitVec.ofNat 1024 (lanes (drainWidth f) (drainLane row f h) (drainCols f) 0)

section

variable {s : State} {a r f h : Nat} {row : AccRow} (hrow : accRow (curCell s) a r = row) (hok : ¬ (h = 1 ∧ drainWidth f ≠ 32))
include hrow hok

/-- mx.drain of a half that its format has. -/
theorem drainBody_plain (hp : ¬ (row.pf = true ∧ 3 ≤ f)) : drainBody s a r f h = vresult s .mxr 4 (drainOut row f h) := by
  subst hrow
  exact (if_neg hok).trans (if_neg hp)

/-- A poisoned row that drains into DM8 or an integer also leaves an exception record. -/
theorem drainBody_records (hp : row.pf = true ∧ 3 ≤ f) : drainBody s a r f h = launch (vresult s .mxr 4 (drainOut row f h))
    { tgt := .counts, val := BitVec.ofNat 1024 ((excRecord (0x04 * 2 ^ 24 + r * 2 ^ 16 + a) 0x03 9 0 s.cyc.cell + 0xFF * 2 ^ 40) *
      2 ^ 256), cnt := 4, slot := 15, aux := 1 } := by
  subst hrow
  exact (if_neg hok).trans (if_pos hp)

end

/-- What drains is fixed by its lanes. -/
theorem drainOut_eq {row : AccRow} {f h : Nat} {e : Nat → Nat} (he : ∀ k, drainLane row f h k = e k) :
    drainOut row f h = BitVec.ofNat 1024 (lanes (drainWidth f) e (drainCols f) 0) := by
  rw [drainOut, funext he]

theorem drainOut_zero {row : AccRow} {f h : Nat} (he : ∀ k, drainLane row f h k = 0) : drainOut row f h = 0 := by
  rw [drainOut_eq he, lanes_zero]
  rfl

theorem drainLane_poisoned {row : AccRow} (hp : row.pf = true) (f h k : Nat) : drainLane row f h k = drainNaN f := if_pos hp

theorem drainLane_empty {row : AccRow} (hp : row.pf = false) (hz : row.z = true) (f h k : Nat) : drainLane row f h k = 0 :=
  (if_neg (by simp [hp])).trans (if_pos hz)

theorem drainLane_element {row : AccRow} (hp : row.pf = false) (hz : row.z = false) (f h k : Nat) :
    drainLane row f h k = drainElem f (mant row (32 * h + k)) row.e.toInt := (if_neg (by simp [hp])).trans (if_neg (by simp [hz]))

end Sys2Proof.Machine

namespace Sys2Proof.Laws
open Sys2Proof Machine

/-- Settles O27: by the cases of the row, poisoned, empty or neither. -/
theorem drainConverts : Obligations.DrainConverts := by
  intro s a r f h hs hf row w n out rcd
  have run : exec (.mxDrain a r f h) s = .next (drainBody s a.toNat r.toNat f.toNat h.toNat) := congrArg Host.Outcome.next (xGuard_on hs _)
  have hw : drainWidth f.toNat = w := drainWidth_eq hf
  have hn : drainCols f.toNat = n := by rw [drainCols, hw]
  have runs : h = 1 ∧ w ≠ 32 ↔ h.toNat = 1 ∧ drainWidth f.toNat ≠ 32 := by rw [bit1_toNat_eq_one, hw]
  rw [run]
  refine ⟨fun h1 h32 => ?_, fun hok => ?_⟩
  · rw [drainBody, if_pos (runs.1 ⟨h1, h32⟩)]
    rfl
  rw [runs] at hok
  simp only [out, ← hw, ← hn]
  refine ⟨fun hp hf3 => ?_, fun hp hf3 => ?_, fun hp hz => ?_, fun hp hz => ?_⟩
  · rw [drainBody_plain rfl hok (by omega), drainOut_eq fun k => (drainLane_poisoned hp ..).trans (drainNaN_eq _)]
  · have hrec : excRecord (0x04 * 2 ^ 24 + r.toNat * 2 ^ 16 + a.toNat) 0x03 9 0 s.cyc.cell + 0xFF * 2 ^ 40 = rcd := by
      simp only [excRecord, rcd]
      omega
    rw [drainBody_records rfl hok ⟨hp, hf3⟩, drainOut_zero fun k => (drainLane_poisoned hp ..).trans (drainNaN_integer hf3), hrec]
  · rw [drainBody_plain rfl hok (fun h => by simp [row, hp] at h), drainOut_zero (drainLane_empty hp hz _ _)]
  · rw [drainBody_plain rfl hok (fun h => by simp [row, hp] at h), drainOut_eq (drainLane_element hp hz _ _)]

end Sys2Proof.Laws
end

