-- ==== Sys2Proof/Proofs/RowWrites.lean ====
section
/-!
The commands that write rows of the accumulator (R34, R189, R190, R192).
-/

namespace Sys2Proof.Machine

/-- A command of the X slot acts where its stage is on. -/
theorem next_xGuard {s : State} (h : stageOn s = true) (f : State → State) :
    (Host.Outcome.next (xGuard s f) : Host.Outcome State Fault Refusal) = .next (f s) := by rw [xGuard_on h]

/-- The exponent in a row record (R28). -/
theorem ofNat_record_exponent (e : Nat) : BitVec.ofNat 16 (bits e 8 16) = BitVec.ofNat 16 (e / 256) := by
  apply BitVec.eq_of_toNat_eq
  simp [bits, Nat.shiftRight_eq_div_pow]

theorem accRz_eq (c : Ctx) : accRz c = (creg c 0x105).getLsbD 0 := bit_toNat ..

/-- mx.wrx of row records marks no word. -/
theorem wrxBody_records (s : State) {a q : Nat} (c : Nat) (hq : q < 2) : wrxBody s a q c =
    modCurCell (unmarkAcc s a fun _ => false) fun x => (List.range 32).foldl (fun x k =>
      let e := lane 32 (xSrc (cur s) c).toNat k
      let row := accRow x a (32 * q + k)
      accPut x a (32 * q + k) (withMants { row with
        e := BitVec.ofNat 16 (e / 256), pf := bit e 1, z := row.z && bit e 0 } (mants row))) x := by
  have hp : (fun k => decide (2 ≤ q) && k == 3104) = fun _ => false := by
    funext k
    rw [decide_eq_false (by omega), Bool.false_and]
  simp only [wrxBody, hp, if_pos hq, ofNat_record_exponent]

/-- mx.wrx of the counters writes one word. -/
theorem wrxBody_counters (s : State) (a c : Nat) : wrxBody s a 2 c =
    modCurCell (unmarkAcc s a fun k => k == 3104) fun x => { x with
      rcnt := smSet 0 x.rcnt a (BitVec.ofNat 32 (lane 32 (xSrc (cur s) c).toNat 0))
      tcnt := smSet 0 x.tcnt a (BitVec.ofNat 32 (lane 32 (xSrc (cur s) c).toNat 1)) } := rfl

/-- mx.mrg of a half that its format does not have. -/
theorem mergeBody_refused (s : State) (a r : Nat) {f h : Nat} (c : Nat) (hbad : h = 1 ∧ drainWidth f ≠ 32) :
    mergeBody s a r f h c = raiseIll s 9 := if_pos hbad

/-- mx.mrg is a beat of one row (R189). -/
theorem mergeBody_beats (s : State) (a r : Nat) {f h : Nat} (c : Nat) (hok : ¬ (h = 1 ∧ drainWidth f ≠ 32)) : mergeBody s a r f h c =
    let v := (xSrc (cur s) c).toNat
    let ts := (List.range (drainCols f)).map fun k => (mergeVal f (lane (drainWidth f) v k), 32 * h + k)
    if expOverflow (accRow (curCell s) a r) (termsV ts) then raiseAccExp s a r
    else modCurCell s fun x => beatRow ((creg (cur s) 0x105).getLsbD 0) x a r (hasPoison ts) (termsV ts) := by
  rw [← accRz_eq]
  exact if_neg hok

end Sys2Proof.Machine

namespace Sys2Proof.Laws
open Sys2Proof Machine

/-- Settles O28: each command is its body, in the cycle. -/
theorem accumulatorWrites : Obligations.AccumulatorWrites := by
  intro s a r q f h c hs A R v row unmarked ts
  have half : h = 1 ∧ drainWidth f.toNat ≠ 32 ↔ h.toNat = 1 ∧ drainWidth f.toNat ≠ 32 := by rw [bit1_toNat_eq_one]
  refine ⟨next_xGuard hs _, next_xGuard hs _, next_xGuard hs _, next_xGuard hs _, next_xGuard hs _, fun hq => ?_, fun hq => ?_,
    fun h1 h32 => ?_, fun hok => ?_⟩
  · exact (next_xGuard hs _).trans (congrArg Host.Outcome.next (wrxBody_records s c.toNat hq))
  · subst hq
    exact (next_xGuard hs _).trans (congrArg Host.Outcome.next (wrxBody_counters s A c.toNat))
  · exact (next_xGuard hs _).trans (congrArg Host.Outcome.next (mergeBody_refused s A R c.toNat (half.1 ⟨h1, h32⟩)))
  · exact (next_xGuard hs _).trans (congrArg Host.Outcome.next (mergeBody_beats s A R c.toNat (half.not.1 hok)))

end Sys2Proof.Laws
end

