-- ==== Sys2Proof/Proofs/Rounding.lean ====
section
/-!
Integers rounded to a multiple of a power of two (R33, R125).
-/

namespace Sys2Proof.Machine

theorem roundShift_zero (rm : Nat) (neg : Bool) (m : Nat) : roundShift rm neg m 0 = m := by
  match rm with
  | 0 | 1 | 2 | _ + 3 => simp [roundShift, Nat.mod_one]

theorem roundShift_trunc (neg : Bool) (m sh : Nat) : roundShift 1 neg m sh = m / 2 ^ sh := Nat.shiftRight_eq_div_pow ..

theorem roundShift_cases (rm : Nat) (neg : Bool) (m sh : Nat) : roundShift rm neg m sh = m / 2 ^ sh ∨ roundShift rm neg m sh = m / 2 ^ sh + 1 := by
  unfold roundShift
  rw [Nat.shiftRight_eq_div_pow]
  dsimp only
  split <;> split <;> simp

/-- Toward zero, and down or up of a sign for which that is toward zero. -/
theorem roundShift_toward {rm : Nat} {neg : Bool} (h : rm = 1 ∨ (rm = 2 ∧ neg = false) ∨ (rm = 3 ∧ neg = true)) (m sh : Nat) :
    roundShift rm neg m sh = m / 2 ^ sh := by
  rcases h with rfl | ⟨rfl, rfl⟩ | ⟨rfl, rfl⟩ <;> exact Nat.shiftRight_eq_div_pow ..

/-- Away from zero, but for what is exact. -/
theorem roundShift_away {rm : Nat} {neg : Bool} (h : (rm = 2 ∧ neg = true) ∨ (rm = 3 ∧ neg = false)) (m sh : Nat) :
    roundShift rm neg m sh = if m % 2 ^ sh = 0 then m / 2 ^ sh else m / 2 ^ sh + 1 := by
  by_cases h0 : m % 2 ^ sh = 0
  · rcases h with ⟨rfl, rfl⟩ | ⟨rfl, rfl⟩ <;> simp [roundShift, h0, Nat.shiftRight_eq_div_pow]
  · rcases h with ⟨rfl, rfl⟩ | ⟨rfl, rfl⟩ <;> simp [roundShift, h0, Nat.shiftRight_eq_div_pow]

/-- Direction 0 rounds to the nearest, a tie to the even one. -/
theorem roundShift_nearest (neg : Bool) (m sh : Nat) : nearestEven m (2 ^ sh) (roundShift 0 neg m sh) := by
  have hm := Nat.div_add_mod m (2 ^ sh)
  have hr := Nat.mod_lt m (Nat.two_pow_pos sh)
  unfold nearestEven roundShift
  rw [Nat.shiftRight_eq_div_pow]
  have cast : ((2 ^ sh : Nat) : Int) = 2 ^ sh := by norm_cast
  generalize hd : 2 ^ sh = d at *
  rw [← cast]
  generalize m / d = q at *
  generalize m % d = r at *
  have low : (q : Int) * d - m = -r := by rw [← hm]; push_cast; ring
  have high : ((q : Int) + 1) * d - m = d - r := by rw [← hm]; push_cast; ring
  simp only [Bool.or_eq_true, Bool.and_eq_true, decide_eq_true_eq, beq_iff_eq]
  split
  · rw [Nat.cast_add, Nat.cast_one, high, abs_of_nonneg (by omega)]
    omega
  · rw [low, abs_neg, Nat.abs_cast]
    omega

/-- What lies below a bound that is a multiple of the unit rounds to no more than it. -/
theorem roundShift_le {rm : Nat} {neg : Bool} {m sh n : Nat} (h : m < n * 2 ^ sh) : roundShift rm neg m sh ≤ n := by
  have hq : m / 2 ^ sh < n := (Nat.div_lt_iff_lt_mul (Nat.two_pow_pos sh)).2 h
  rcases roundShift_cases rm neg m sh with hr | hr <;> omega

/-! ### Signed values -/

theorem signed_natAbs (i : Int) : signed (decide (i < 0)) i.natAbs = i := by
  rcases lt_or_ge i 0 with h | h
  · simp only [signed, decide_eq_true h, if_true]
    omega
  · simp only [signed, decide_eq_false (not_lt.2 h), Bool.false_eq_true, if_false]
    omega

theorem natAbs_signed (n : Bool) (m : Nat) : (signed n m).natAbs = m := by cases n <;> simp [signed]

/-- The sign put back on a quotient of magnitudes: the division that truncates. -/
theorem signed_div (i : Int) (d : Nat) : signed (decide (i < 0)) (i.natAbs / d) = Int.tdiv i d := by
  conv_rhs => rw [← signed_natAbs i]
  unfold signed
  split
  · rw [Int.neg_tdiv, ← Int.ofNat_tdiv]
  · rw [← Int.ofNat_tdiv]

theorem accRound_trunc (k : Nat) (i : Int) : accRound true k i = Int.tdiv i (2 ^ k) := by
  rw [accRound, if_pos rfl, roundShift_trunc, signed_div]
  norm_cast

theorem nearestEven_neg {i d q : Int} (h : nearestEven i d q) : nearestEven (-i) d (-q) := by
  obtain ⟨hle, htie⟩ := h
  have hd : -q * d - -i = -(q * d - i) := by ring
  rw [nearestEven, hd, abs_neg]
  exact ⟨hle, fun h => by have := htie h; omega⟩

theorem accRound_nearest (k : Nat) (i : Int) : nearestEven i (2 ^ k) (accRound false k i) := by
  have h := roundShift_nearest false i.natAbs k
  rcases lt_or_ge i 0 with hi | hi
  · have := nearestEven_neg h
    rw [show -(i.natAbs : Int) = i by omega] at this
    simpa [accRound, signed, hi] using this
  · rw [show (i.natAbs : Int) = i by omega] at h
    simpa [accRound, signed, not_lt.2 hi] using h

theorem accRound_zero (rz : Bool) (i : Int) : accRound rz 0 i = i := by rw [accRound, roundShift_zero, signed_natAbs]

end Sys2Proof.Machine
end

