-- ==== Sys2Proof/Proofs/Beats.lean ====
section
/-!
What a beat makes of one row (R31 to R33).
-/

namespace Sys2Proof.Machine

/-! ### Terms -/

/-- A term aligned to exponent e is truncated toward zero. -/
theorem alignTerm_addend (e : Int) (t : Term) : (alignTerm e t).1 =
    if e ≤ t.ep then t.p * 2 ^ (t.ep - e).toNat else Int.tdiv t.p (2 ^ (e - t.ep).toNat) := by
  unfold alignTerm
  by_cases h : e ≤ t.ep
  · rw [if_pos h]
    simp only [sub_nonneg, h, if_true]
  · rw [if_neg h]
    simp only [sub_nonneg, h, if_false, neg_sub, Nat.shiftRight_eq_div_pow, signed_div]
    norm_cast

/-- It loses bits where the alignment is no whole division. -/
theorem alignTerm_lost (e : Int) (t : Term) : (alignTerm e t).2 = true ↔ t.ep < e ∧ ¬ (2 ^ (e - t.ep).toNat ∣ t.p) := by
  unfold alignTerm
  by_cases h : e ≤ t.ep
  · simp only [sub_nonneg, h, if_true, Bool.false_eq_true, false_iff, not_and]
    omega
  · simp only [sub_nonneg, h, if_false, neg_sub, bne_iff_ne, ne_eq, ← Nat.dvd_iff_mod_eq_zero]
    rw [show ((2 : Int) ^ (e - t.ep).toNat ∣ t.p) ↔ 2 ^ (e - t.ep).toNat ∣ t.p.natAbs by
      rw [← Int.natCast_dvd]; norm_cast]
    exact ⟨fun hd => ⟨by omega, hd⟩, And.right⟩

/-- An aligned term is no longer than its length at its scale. -/
theorem alignTerm_lt {e : Int} {t : Term} {len n : Nat} (hp : t.p.natAbs < 2 ^ len) (hn : (len : Int) + t.ep - e ≤ n) :
    (alignTerm e t).1.natAbs < 2 ^ n := by
  rw [alignTerm_addend]
  split
  · next h =>
    rw [Int.natAbs_mul, Int.natAbs_pow]
    calc t.p.natAbs * 2 ^ (t.ep - e).toNat < 2 ^ len * 2 ^ (t.ep - e).toNat := Nat.mul_lt_mul_of_pos_right hp (by positivity)
      _ = 2 ^ (len + (t.ep - e).toNat) := (pow_add ..).symm
      _ ≤ 2 ^ n := Nat.pow_le_pow_right (by omega) (by omega)
  · next h =>
    rw [Int.natAbs_tdiv, Int.natAbs_pow, show Int.natAbs 2 = 2 from rfl]
    refine (Nat.div_lt_iff_lt_mul (Nat.two_pow_pos _)).2 ?_
    rw [← pow_add]
    exact hp.trans_le (Nat.pow_le_pow_right (by omega) (by omega))

/-! ### The update of a row -/

/-- The largest scale of some terms. -/
def topScale (v : List Term) : Int := (v.map (·.ep)).foldl max ((v.map (·.ep)).headD 0)

theorem foldl_max_int (l : List Int) : ∀ a, (a ≤ l.foldl max a ∧ ∀ m ∈ l, m ≤ l.foldl max a) ∧ (l.foldl max a = a ∨ l.foldl max a ∈ l) := by
  induction l with
  | nil => intro a; simp
  | cons x l ih =>
    intro a
    obtain ⟨⟨hle, hall⟩, hmem⟩ := ih (max a x)
    rw [List.foldl_cons]
    refine ⟨⟨by omega, fun m hm => ?_⟩, ?_⟩
    · rcases List.mem_cons.1 hm with rfl | hm
      · omega
      · exact hall m hm
    · rcases hmem with h | h
      · rw [h]
        rcases max_choice a x with hx | hx <;> simp [hx]
      · exact .inr (List.mem_cons_of_mem _ h)

theorem topScale_eq {v : List Term} {pmax : Int} (hmem : ∃ t ∈ v, t.ep = pmax) (hle : ∀ t ∈ v, t.ep ≤ pmax) : topScale v = pmax := by
  obtain ⟨t, ht, rfl⟩ := hmem
  have h := foldl_max_int (v.map (·.ep)) ((v.map (·.ep)).headD 0)
  refine le_antisymm ?_ (h.1.2 _ (List.mem_map_of_mem ht))
  have inside : ∀ m ∈ v.map (·.ep), m ≤ t.ep := by simpa using hle
  rcases h.2 with hb | hb
  · rw [topScale, hb]
    cases v with
    | nil => cases ht
    | cons u us => exact inside _ (by simp)
  · exact inside _ hb

/-- The exponent of a row after a beat. -/
def newExp (r : AccRow) (v : List Term) : Int := startExp r v + ((renormShift r v).getD 0 : Nat)

/-- Mantissa j of a row after a beat. -/
def newMant (rz : Bool) (r : AccRow) (v : List Term) (j : Nat) : Int :=
  accRound rz ((renormShift r v).getD 0) (mant r j) + ((v.filter fun t => t.col = j).map fun t => (alignTerm (newExp r v) t).1).sum

theorem rowUpdate_none (rz : Bool) (r : AccRow) : rowUpdate rz r [] = (r, false, false) := rfl

theorem foldl_add_eq_sum {α : Type} (f : α → Int) (l : List α) : ∀ a, l.foldl (fun acc x => acc + f x) a = a + (l.map f).sum := by
  induction l with
  | nil => intro a; simp
  | cons x l ih => intro a; rw [List.foldl_cons, ih, List.map_cons, List.sum_cons]; ring

/-- The update of a row that terms reach. -/
theorem rowUpdate_some (rz : Bool) (r : AccRow) {v : List Term} (hv : v ≠ []) : rowUpdate rz r v =
    (withMants { r with e := BitVec.ofInt 16 (newExp r v), z := false } ((List.range 64).map (newMant rz r v)),
      (renormShift r v).isSome, v.any fun t => (alignTerm (newExp r v) t).2) := by
  have old : ∀ j < 64, (match renormShift r v with
      | some k => (mants r).map (accRound rz k)
      | none => mants r).getD j 0 = accRound rz ((renormShift r v).getD 0) (mant r j) := by
    intro j hj
    cases renormShift r v with
    | none => rw [Option.getD_none, accRound_zero, mants_getD r hj]
    | some k => simp [mants, hj]
  have news : (List.range 64).map (fun j => (((v.map fun t => (t.col, alignTerm (newExp r v) t)).filter fun a => a.1 == j).foldl
      (fun acc a => acc + a.2.1) ((match renormShift r v with
      | some k => (mants r).map (accRound rz k)
      | none => mants r).getD j 0))) = (List.range 64).map (newMant rz r v) := by
    refine List.map_congr_left fun j hj => ?_
    rw [old j (List.mem_range.1 hj), foldl_add_eq_sum, newMant, List.filter_map, List.map_map]
    rfl
  rw [rowUpdate, if_neg (by simpa using hv)]
  refine Prod.ext ?_ (Prod.ext rfl ?_)
  · exact congrArg (withMants { r with e := BitVec.ofInt 16 (newExp r v), z := false }) news
  · exact List.any_map

end Sys2Proof.Machine
end

