-- ==== Sys2Proof/Proofs/BeatRows.lean ====
section
/-!
The rows that a beat reaches do not outgrow their mantissas (R31, R32).
-/

namespace Sys2Proof.Machine

/-- The length that a row could have before the terms are added, less the carries (R31). -/
def rowLen (r : AccRow) (v : List Term) : Int := max (46 - r.hr.toNat) (maxLen (v.map (·.p)) + topScale v - startExp r v)

/-- The shift of the renormalisation, 0 where there is none. -/
def beatShift (r : AccRow) (v : List Term) : Nat := (renormShift r v).getD 0

theorem renormShift_eq {r : AccRow} (hr : r.hr.toNat ≤ 46) (v : List Term) :
    renormShift r v = if 46 < rowLen r v + 2 then some (rowLen r v - 32).toNat else none := by
  have h : rowHr r = r.hr.toNat := if_neg (by omega)
  rw [renormShift]
  simp only [h]
  rfl

theorem beatShift_eq {r : AccRow} (hr : r.hr.toNat ≤ 46) (v : List Term) :
    beatShift r v = if 46 < rowLen r v + 2 then (rowLen r v - 32).toNat else 0 := by
  rw [beatShift, renormShift_eq hr]
  split <;> rfl

theorem renormShift_isSome {r : AccRow} (hr : r.hr.toNat ≤ 46) (v : List Term) : (renormShift r v).isSome = true ↔ 46 < rowLen r v + 2 := by
  rw [renormShift_eq hr]
  split <;> simp_all

theorem expOverflow_iff {r : AccRow} (hr : r.hr.toNat ≤ 46) {v : List Term} (hv : v ≠ []) :
    expOverflow r v = true ↔ 46 < rowLen r v + 2 ∧ 32767 < newExp r v := by
  rw [expOverflow, if_neg (by simpa using hv), newExp, renormShift_eq hr]
  split <;> simp_all

/-- A row after the shift has at most 44 bits. -/
theorem rowLen_shifted {r : AccRow} (hr : r.hr.toNat ≤ 46) (v : List Term) : ∃ n : Nat, n ≤ 44 ∧ rowLen r v ≤ n + beatShift r v := by
  rw [beatShift_eq hr]
  split
  · exact ⟨32, by omega, by omega⟩
  · exact ⟨(rowLen r v).toNat, by omega, by omega⟩

theorem natAbs_sum_le {l : List Int} {b : Nat} (h : ∀ x ∈ l, x.natAbs ≤ b) : l.sum.natAbs ≤ l.length * b := by
  induction l with
  | nil => simp
  | cons x l ih =>
    have hx := h x (by simp)
    have hl := ih fun y hy => h y (List.mem_cons_of_mem _ hy)
    have habs := Int.natAbs_add_le x l.sum
    rw [List.sum_cons, List.length_cons, Nat.add_mul]
    omega

/-- A mantissa that has been shifted and takes at most two terms has at most 46 bits. -/
theorem newMant_lt (rz : Bool) {r : AccRow} {v : List Term} (hr : r.hr.toNat ≤ 46) {j : Nat}
    (hm : (mant r j).natAbs < 2 ^ (46 - r.hr.toNat)) (htwo : (v.filter fun t => t.col = j).length ≤ 2) : (newMant rz r v j).natAbs < 2 ^ 46 := by
  obtain ⟨n, hn, hlen⟩ := rowLen_shifted hr v
  have row := le_max_left ((46 : Int) - r.hr.toNat) (maxLen (v.map (·.p)) + topScale v - startExp r v)
  have terms := le_max_right ((46 : Int) - r.hr.toNat) (maxLen (v.map (·.p)) + topScale v - startExp r v)
  rw [← rowLen] at row terms
  have old : (accRound rz (beatShift r v) (mant r j)).natAbs ≤ 2 ^ n := by
    rw [accRound, natAbs_signed]
    refine roundShift_le (hm.trans_le ?_)
    rw [← pow_add]
    exact Nat.pow_le_pow_right (by omega) (by omega)
  have added : ∀ x ∈ (v.filter fun t => t.col = j).map fun t => (alignTerm (newExp r v) t).1, x.natAbs ≤ 2 ^ n := by
    intro x hx
    obtain ⟨t, ht, rfl⟩ := List.mem_map.1 hx
    have htv := (List.mem_filter.1 ht).1
    have hep : t.ep ≤ topScale v := (foldl_max_int _ _).1.2 _ (List.mem_map_of_mem htv)
    refine (alignTerm_lt (len := maxLen (v.map (·.p))) (lt_two_pow_maxLen (List.mem_map_of_mem htv)) ?_).le
    have : newExp r v = startExp r v + beatShift r v := rfl
    omega
  have total := natAbs_sum_le added
  rw [List.length_map] at total
  have habs := Int.natAbs_add_le (accRound rz (beatShift r v) (mant r j))
    ((v.filter fun t => t.col = j).map fun t => (alignTerm (newExp r v) t).1).sum
  have hpow : 2 ^ n ≤ 2 ^ 44 := Nat.pow_le_pow_right (by omega) hn
  have hsum := total.trans (Nat.mul_le_mul htwo hpow)
  calc (newMant rz r v j).natAbs ≤ 2 ^ 44 + 2 * 2 ^ 44 := habs.trans (by omega)
    _ < 2 ^ 46 := by norm_num

theorem getD_newMants (rz : Bool) (r : AccRow) (v : List Term) {j : Nat} (hj : j < 64) :
    ((List.range 64).map (newMant rz r v)).getD j 0 = newMant rz r v j := by simp [hj]

end Sys2Proof.Machine

namespace Sys2Proof.Laws
open Sys2Proof Machine

/-- Of O25, the update of one row. -/
theorem rowTakesBeat : Sys2Proof.rowTakesBeat := by
  intro rz r v pmax len hr hfit hterms htwo
  refine ⟨fun h => by subst h; exact ⟨rfl, rfl⟩, fun hmem hmax hlong hshort => ?_⟩
  intro e0 m k e added q
  have hv : v ≠ [] := by
    rintro rfl
    simp at hmem
  have hp : topScale v = pmax := topScale_eq hmem hmax
  have hlen : maxLen (v.map (·.p)) = len := by
    obtain ⟨t, ht, hk⟩ := hlong
    refine maxLen_eq ⟨t.p, List.mem_map_of_mem ht, hk⟩ fun x hx => ?_
    obtain ⟨u, hu, rfl⟩ := List.mem_map.1 hx
    exact hshort u hu
  have he0 : startExp r v = e0 := by
    show (if r.z then topScale v + maxLen (v.map (·.p)) - 34 else rowExp r) = _
    rw [hp, hlen, rowExp]
  have hm : rowLen r v = m := by rw [rowLen, hp, hlen, he0]
  have hk : beatShift r v = k := by rw [beatShift_eq hr, hm]
  have he : newExp r v = e := by
    show startExp r v + (beatShift r v : Int) = _
    rw [he0, hk]
  have overflows := expOverflow_iff hr hv
  rw [hm, he] at overflows
  refine ⟨overflows, fun hfits => ?_⟩
  have hq : q = _ := rowUpdate_some rz r hv
  have bound : ∀ x ∈ (List.range 64).map (newMant rz r v), x.natAbs < 2 ^ 46 := by
    intro x hx
    obtain ⟨j, hj, rfl⟩ := List.mem_map.1 hx
    exact newMant_lt rz hr (hfit j (List.mem_range.1 hj)) (htwo j)
  have short : maxLen ((List.range 64).map (newMant rz r v)) ≤ 46 := maxLen_le.2 bound
  have news : ∀ j < 64, mant q.1 j = newMant rz r v j := by
    intro j hj
    rw [hq, mant_withMants _ (fun x hx => (bound x hx).trans (by norm_num)) hj, getD_newMants rz r v hj]
  have hhr : q.1.hr.toNat = 46 - maxLen ((List.range 64).map (newMant rz r v)) := by rw [hq, hr_withMants _ short]
  have hlast : 46 - q.1.hr.toNat = maxLen ((List.range 64).map (newMant rz r v)) := by omega
  refine ⟨?_, by rw [hq, withMants_z], by rw [hq, withMants_pf], ?_, ?_, fun j hj => ?_, by omega, fun j hj => ?_, fun ⟨j, hj, hne⟩ => ?_⟩
  · obtain ⟨t, ht, hep⟩ := hmem
    have hlen32 : len ≤ 32 := by
      rw [← hlen]
      refine maxLen_le.2 fun x hx => ?_
      obtain ⟨u, hu, rfl⟩ := List.mem_map.1 hx
      exact (hterms u hu).2.2.1
    have hscale := (hterms t ht).2.2.2
    have hlo : -32768 ≤ r.e.toInt := by simpa using BitVec.le_toInt r.e
    have hhi : r.e.toInt < 32768 := by simpa using BitVec.toInt_lt (x := r.e)
    have hstart : -32768 ≤ e0 ∧ e0 ≤ 32767 := by
      simp only [e0]
      split <;> omega
    have htop : e ≤ 32767 := by
      by_contra hgt
      by_cases hren : 46 < m + 2
      · exact absurd (overflows.2 ⟨hren, by omega⟩) (by simp [hfits])
      · have : k = 0 := if_neg hren
        omega
    rw [hq, withMants_e, he]
    exact toInt_ofInt16 (by omega) htop
  · rw [hq, ← hm]
    exact renormShift_isSome hr v
  · rw [hq, List.any_eq_true, he]
    exact exists_congr fun t => and_congr_right fun _ => alignTerm_lost e t
  · refine ⟨accRound rz k (mant r j), fun h => ?_, fun h => ?_, ?_⟩
    · rw [h, accRound_trunc]
    · rw [h]
      exact accRound_nearest k _
    · rw [news j hj, newMant, he]
      show accRound rz (beatShift r v) _ + _ = _
      rw [hk, funext (alignTerm_addend e)]
  · rw [news j hj, hlast]
    exact lt_two_pow_maxLen (List.mem_map_of_mem (List.mem_range.2 hj))
  · obtain ⟨x, hx, htop⟩ := two_pow_maxLen_le
      ⟨newMant rz r v j, List.mem_map_of_mem (List.mem_range.2 hj), fun h => hne ((news j hj).trans h)⟩
    obtain ⟨i, hi, rfl⟩ := List.mem_map.1 hx
    refine ⟨i, List.mem_range.1 hi, ?_⟩
    rw [hlast, news i (List.mem_range.1 hi)]
    exact htop

end Sys2Proof.Laws
end

