-- ==== Sys2Proof/Proofs/Products.lean ====
section
/-!
The values of operands and the products of a beat (R17, R20, R30).
-/

namespace Sys2Proof.Machine

/-! ### Values -/

/-- The rational that a finite value stands for. -/
def FVal.rat : FVal → ℚ
  | .fin n m e => signed n m * (2 : ℚ) ^ e
  | _ => 0

theorem bits_zero (v n : Nat) : bits v 0 n = v % 2 ^ n := rfl

theorem bits_div (v lo n : Nat) : bits v lo n = v / 2 ^ lo % 2 ^ n := by rw [bits, Nat.shiftRight_eq_div_pow]

theorem bit_testBit (v i : Nat) : bit v i = v.testBit i := by
  rw [bit, Nat.testBit, Nat.and_comm, Nat.and_one_is_mod]
  rcases Nat.mod_two_eq_zero_or_one (v >>> i) with h | h <;> simp [h]

/-! ### DM8 -/

/-- The magnitude of a DM8 code in a row with w fraction bits (R20). -/
theorem dm8_magnitude (f w : Nat) (e : ℤ) : (2 : ℚ) ^ e * (1 + f / 2 ^ w) = ((2 ^ w + f : Nat) : ℚ) * (2 : ℚ) ^ (e - w) := by
  rw [zpow_sub₀ (by norm_num), zpow_natCast]
  push_cast
  field_simp

/-- The magnitude of seven bits of DM8, as R20 tables it. -/
def dm8Abs (m : Nat) : ℚ :=
  let at_ (w : Nat) (e : List ℤ) : ℚ := 2 ^ (e.getD (m / 2 ^ w % 4) 0) * (1 + (m % 2 ^ w : Nat) / 2 ^ w)
  if 0x40 ≤ m then at_ 4 [-2, -1, 0, 1] else if 0x20 ≤ m then at_ 3 [-4, -3, 2, 3] else if 0x10 ≤ m then at_ 2 [-6, -5, 4, 5]
  else if 0x08 ≤ m then at_ 1 [-8, -7, 6, 7] else if 0x04 ≤ m then at_ 0 [-10, -9, 8, 9]
  else if m = 3 then 2 ^ (10 : ℤ) else if m = 2 then 2 ^ (-11 : ℤ) else if m = 1 then 2 ^ (-12 : ℤ) else 0

theorem dm8Value_abs (c : Nat) : dm8Value c = (if c.testBit 7 then -1 else 1) * dm8Abs (c % 128) := rfl

/-- One of four exponents, as the model picks it and as R20 tables it. -/
theorem getD_four (q : Nat) (a b c d : ℤ) : [a, b, c, d].getD (q % 4) 0 = match q % 4 with | 0 => a | 1 => b | 2 => c | _ => d := by
  have : q % 4 < 4 := Nat.mod_lt _ (by omega)
  generalize q % 4 = r at *
  interval_cases r <;> rfl

theorem getD_four_rising (q : Nat) : [-2, -1, 0, 1].getD (q % 4) 0 = ((q % 4 : Nat) : ℤ) - 2 := by
  have : q % 4 < 4 := Nat.mod_lt _ (by omega)
  generalize q % 4 = r at *
  interval_cases r <;> rfl

/-- The seven magnitude bits of a DM8 code as the model reads them. -/
def dm8Parts (m : Nat) : Nat × ℤ :=
  if 0x40 ≤ m then (2 ^ 4 + m % 2 ^ 4, [-2, -1, 0, 1].getD (m / 2 ^ 4 % 4) 0 - (4 : Nat))
  else if 0x20 ≤ m then (2 ^ 3 + m % 2 ^ 3, [-4, -3, 2, 3].getD (m / 2 ^ 3 % 4) 0 - (3 : Nat))
  else if 0x10 ≤ m then (2 ^ 2 + m % 2 ^ 2, [-6, -5, 4, 5].getD (m / 2 ^ 2 % 4) 0 - (2 : Nat))
  else if 0x08 ≤ m then (2 ^ 1 + m % 2 ^ 1, [-8, -7, 6, 7].getD (m / 2 ^ 1 % 4) 0 - (1 : Nat))
  else if 0x04 ≤ m then (2 ^ 0 + m % 2 ^ 0, [-10, -9, 8, 9].getD (m / 2 ^ 0 % 4) 0 - (0 : Nat))
  else if m = 3 then (1, 10) else if m = 2 then (1, -11) else if m = 1 then (1, -12) else (0, 0)

theorem dm8Abs_parts (m : Nat) : dm8Abs m = (dm8Parts m).1 * (2 : ℚ) ^ (dm8Parts m).2 := by
  unfold dm8Abs dm8Parts
  split_ifs
  · exact dm8_magnitude ..
  · exact dm8_magnitude ..
  · exact dm8_magnitude ..
  · exact dm8_magnitude ..
  · exact dm8_magnitude ..
  all_goals norm_num

theorem dm8Val_parts (c : Nat) : dm8Val c =
    .fin (decide (c % 128 ≠ 0) && c.testBit 7) (dm8Parts (c % 128)).1 (dm8Parts (c % 128)).2 := by
  have hm : c % 128 < 128 := Nat.mod_lt _ (by omega)
  rw [dm8Val]
  simp only [bit_testBit, bits_div, Nat.pow_zero, Nat.div_one, show 2 ^ 7 = 128 from rfl]
  generalize c % 128 = m at *
  generalize c.testBit 7 = n
  unfold dm8Parts
  by_cases h0 : m = 0
  · subst h0
    rfl
  rw [if_neg h0, show decide (m ≠ 0) = true by simpa using h0, Bool.true_and]
  by_cases h1 : 0x40 ≤ m
  · rw [if_pos h1, if_pos h1, getD_four_rising]
    rfl
  rw [if_neg h1, if_neg h1]
  by_cases h2 : 0x20 ≤ m
  · rw [if_pos h2, if_pos h2, getD_four]
    rfl
  rw [if_neg h2, if_neg h2]
  by_cases h3 : 0x10 ≤ m
  · rw [if_pos h3, if_pos h3, getD_four]
    rfl
  rw [if_neg h3, if_neg h3]
  by_cases h4 : 0x08 ≤ m
  · rw [if_pos h4, if_pos h4, getD_four]
    rfl
  rw [if_neg h4, if_neg h4]
  by_cases h5 : 0x04 ≤ m
  · rw [if_pos h5, if_pos h5, getD_four]
    simp only [Nat.pow_zero, Nat.mod_one, Nat.div_one, Nat.add_zero, Nat.cast_zero, sub_zero]
    rfl
  have : m = 1 ∨ m = 2 ∨ m = 3 := by omega
  rcases this with rfl | rfl | rfl <;> rfl

theorem dm8Parts_lt (m : Nat) : (dm8Parts m).1 < 32 := by
  unfold dm8Parts
  split_ifs <;> dsimp only <;> omega

theorem dm8Parts_zero {m : Nat} : (dm8Parts m).1 = 0 ↔ m = 0 := by
  unfold dm8Parts
  grind

/-! ### Codes of floating-point formats -/

section

variable (F : Fmt) (v : Nat)

/-- The fields of a code (R17): its exponent, and the significand of a finite one. -/
def expField : Nat := v / 2 ^ F.fw % 2 ^ F.ew
@[inherit_doc expField] def significand : Nat := if expField F v = 0 then v % 2 ^ F.fw else 2 ^ F.fw + v % 2 ^ F.fw
/-- The scale of a finite code. -/
def scale : ℤ := (max (expField F v) 1 : Nat) - (2 ^ (F.ew - 1) - 1) - F.fw

theorem cast_bias : ((FmtOps.bias F : Nat) : ℤ) = 2 ^ (F.ew - 1) - 1 := by
  rw [FmtOps.bias, Nat.cast_sub Nat.one_le_two_pow]
  push_cast
  rfl

variable {F v}

/-- A code whose exponent is not all ones is finite. -/
theorem funpack_finite (h : expField F v ≠ 2 ^ F.ew - 1) :
    funpack F v = .fin (v.testBit (F.ew + F.fw)) (significand F v) (scale F v) := by
  have hsign : fneg F v = v.testBit (F.ew + F.fw) := by
    rw [fneg, bit_testBit, FmtOps.width]
    congr 1
    omega
  rw [funpack]
  simp only [bits_div, hsign, Nat.pow_zero, Nat.div_one, cast_bias]
  refine (if_neg h).trans ?_
  rw [significand, scale]
  by_cases hx : v / 2 ^ F.fw % 2 ^ F.ew = 0
  · rw [if_pos hx, expField, hx, if_pos rfl]
    congr 1
  · have : 1 ≤ v / 2 ^ F.fw % 2 ^ F.ew := Nat.one_le_iff_ne_zero.2 hx
    rw [if_neg hx, expField, if_neg hx, max_eq_left this]

/-- One whose exponent is all ones is a NaN or an infinity. -/
theorem funpack_special (h : expField F v = 2 ^ F.ew - 1) :
    funpack F v = if v % 2 ^ F.fw = 0 then .inf (v.testBit (F.ew + F.fw)) else .nan := by
  have hsign : fneg F v = v.testBit (F.ew + F.fw) := by
    rw [fneg, bit_testBit, FmtOps.width]
    congr 1
    omega
  rw [funpack]
  simp only [bits_div, hsign, Nat.pow_zero, Nat.div_one]
  exact if_pos h

end

/-! ### Products -/

theorem product_poison {f a b : Nat} (h : termOf (opVal f a) = .poison ∨ termOf (opVal f b) = .poison) : product f a b = .poison := by
  unfold product
  rcases h with h | h
  · rw [h]
  · rw [h]
    cases termOf (opVal f a) <;> rfl

/-- The product of finite operands. -/
theorem product_finite {f a b : Nat} {na nb : Bool} {ma mb : Nat} {ea eb : ℤ} (ha : opVal f a = .fin na ma ea)
    (hb : opVal f b = .fin nb mb eb) : product f a b =
      if ma = 0 ∨ mb = 0 then .zero else .val (signed na ma * signed nb mb) (ea + eb) := by
  rw [product, ha, hb, termOf, termOf]
  by_cases hma : ma = 0
  · by_cases hmb : mb = 0 <;> simp [hma, hmb]
  · by_cases hmb : mb = 0
    · simp [hma, hmb]
    · simp [hma, hmb]

/-- A NaN or an infinity poisons. -/
theorem termOf_special {F : Fmt} {v : Nat} (h : expField F v = 2 ^ F.ew - 1) : termOf (funpack F v) = .poison := by
  rw [funpack_special h]
  split <;> rfl

/-- A DM8 operand is scaled to five bits (R30). -/
def dm8Scaled (c : Nat) : Nat × ℤ :=
  let k := 5 - bitlen (dm8Parts (c % 128)).1
  ((dm8Parts (c % 128)).1 * 2 ^ k, (dm8Parts (c % 128)).2 - k)

theorem opVal_dm8 (c : Nat) : opVal 0 c = .fin (decide (c % 128 ≠ 0) && c.testBit 7) (dm8Scaled c).1 (dm8Scaled c).2 := by
  rw [opVal, dm8Val_parts]
  rfl

theorem dm8Scaled_eq_zero {c : Nat} : (dm8Scaled c).1 = 0 ↔ c % 128 = 0 := by
  rw [dm8Scaled, Nat.mul_eq_zero, dm8Parts_zero]
  simp

theorem dm8Scaled_range {c : Nat} (h : c % 128 ≠ 0) : 16 ≤ (dm8Scaled c).1 ∧ (dm8Scaled c).1 < 32 := by
  have hne : (dm8Parts (c % 128)).1 ≠ 0 := fun h0 => h (dm8Parts_zero.1 h0)
  have hlen : bitlen (dm8Parts (c % 128)).1 ≤ 5 := bitlen_le.2 (dm8Parts_lt _)
  have hlt := lt_two_pow_bitlen (dm8Parts (c % 128)).1
  have hge := two_pow_bitlen_le hne
  rw [dm8Scaled]
  generalize (dm8Parts (c % 128)).1 = m at *
  generalize bitlen m = l at *
  interval_cases l <;> omega

theorem dm8Abs_scaled (c : Nat) : dm8Abs (c % 128) = (dm8Scaled c).1 * (2 : ℚ) ^ (dm8Scaled c).2 := by
  rw [dm8Abs_parts, dm8Scaled]
  dsimp only
  rw [zpow_sub₀ (by norm_num), zpow_natCast]
  push_cast
  field_simp

/-- A DM8 operand has its value. -/
theorem dm8Value_scaled {c : Nat} (h : c % 128 ≠ 0) :
    dm8Value c = (signed (decide (c % 128 ≠ 0) && c.testBit 7) (dm8Scaled c).1 : ℤ) * (2 : ℚ) ^ (dm8Scaled c).2 := by
  rw [dm8Value_abs, dm8Abs_scaled, decide_eq_true h, Bool.true_and]
  cases c.testBit 7 <;> simp [signed]

theorem signed_eq_mul (n : Bool) (m : Nat) : signed n m = (if n then -1 else 1) * (m : ℤ) := by cases n <;> simp [signed]

theorem signed_eq_zero {n : Bool} {m : Nat} : signed n m = 0 ↔ m = 0 := by cases n <;> simp [signed]

end Sys2Proof.Machine

namespace Sys2Proof.Laws
open Sys2Proof Machine

/-- The products of two operands of a floating-point format. -/
theorem floatProducts {f : Nat} {F : Fmt} (hop : ∀ v, opVal f v = funpack F v) (hw : F.ew + F.fw = 15) (a b : Nat) :
    let special (v : Nat) : Prop := expField F v = 2 ^ F.ew - 1
    let p (v : Nat) : Int := (if v.testBit 15 then -1 else 1) * (significand F v : Nat)
    (special a ∨ special b → product f a b = .poison) ∧
    (¬ special a → ¬ special b → p a = 0 ∨ p b = 0 → product f a b = .zero) ∧
    (¬ special a → ¬ special b → p a ≠ 0 → p b ≠ 0 → product f a b = .val (p a * p b) (scale F a + scale F b)) := by
  intro special p
  have fin {v : Nat} (h : ¬ special v) : opVal f v = .fin (v.testBit 15) (significand F v) (scale F v) := by
    rw [hop, funpack_finite h, hw]
  have hp (v : Nat) : p v = signed (v.testBit 15) (significand F v) := (signed_eq_mul ..).symm
  refine ⟨fun h => product_poison (h.imp (fun h => ?_) fun h => ?_), fun ha hb hz => ?_, fun ha hb hpa hpb => ?_⟩
  · rw [hop, termOf_special h]
  · rw [hop, termOf_special h]
  · rw [hp, hp, signed_eq_zero, signed_eq_zero] at hz
    rw [product_finite (fin ha) (fin hb), if_pos hz]
  · rw [hp, ne_eq, signed_eq_zero] at hpa hpb
    rw [product_finite (fin ha) (fin hb), if_neg (by simp [hpa, hpb]), hp, hp]

/-- Of O25, the products. -/
theorem productsAreExact : Sys2Proof.productsAreExact := by
  intro a b _ _
  refine ⟨?_, fun _ _ => ⟨fun hz => ?_, fun hz => ?_, fun hz => ?_, fun ha hb => ?_⟩⟩
  · rw [List.forall_mem_cons, List.forall_mem_singleton]
    exact ⟨floatProducts (F := bf16) (fun _ => rfl) rfl a b, floatProducts (F := fp16) (fun _ => rfl) rfl a b⟩
  · rw [product_finite (f := 1) (a := a) (b := b) rfl rfl, if_pos (by simpa using hz)]
  · rw [product_finite (f := 1) (a := a) (b := b) rfl rfl, if_neg (by simpa using hz), signed_natAbs, signed_natAbs]
    rfl
  · rw [product_finite (opVal_dm8 a) (opVal_dm8 b), if_pos (hz.imp dm8Scaled_eq_zero.2 dm8Scaled_eq_zero.2)]
  · have ra := dm8Scaled_range ha
    have rb := dm8Scaled_range hb
    refine ⟨_, _, _, _, ?_, ?_, ?_, ?_, dm8Value_scaled ha, dm8Value_scaled hb, ?_⟩
    any_goals rw [natAbs_signed]
    · exact ra.1
    · exact ra.2
    · exact rb.1
    · exact rb.2
    · rw [product_finite (opVal_dm8 a) (opVal_dm8 b), if_neg (by omega)]

end Sys2Proof.Laws
end

