-- ==== Sys2Proof/Proofs/BeatTiles.lean ====
section
/-!
What a beat makes of the rows of every tile (R31, R183, R185 to R187).
-/

namespace Sys2Proof.Machine

/-! ### What reaches a row -/

theorem tWidth_eq (f : Nat) : tWidth f = if f < 2 then 8 else 16 := rfl

/-- A pair on the diagonal of its age whose tags are set gives its product. -/
theorem sliceTerm_meets {u : Slice} {h i j : Nat} (hj : j < 64) (hage : u.age = i + j + 1) (ha : u.av.getLsbD (64 * h + i) = true)
    (hb : u.bv.getLsbD (64 * h + j) = true) : sliceTerm u h i =
      some (product u.fmt.toNat (bits u.a.toNat (512 * h + tWidth u.fmt.toNat * i) (tWidth u.fmt.toNat))
        (bits u.b.toNat (512 * h + tWidth u.fmt.toNat * j) (tWidth u.fmt.toNat)), j) := by
  have hcol : u.age - 1 - i = j := by omega
  rw [sliceTerm, if_pos (by omega), hcol]
  exact if_pos (by rw [bit_testBit, bit_testBit, ← BitVec.getLsbD, ← BitVec.getLsbD, ha, hb]; rfl)

/-- A slice whose pair on the diagonal is not valid, or that has none, gives nothing. -/
theorem sliceTerm_none {u : Slice} {h i : Nat} (hu : ∀ j < 64, u.age = i + j + 1 →
    u.av.getLsbD (64 * h + i) = false ∨ u.bv.getLsbD (64 * h + j) = false) : sliceTerm u h i = none := by
  rw [sliceTerm]
  split
  · next hd =>
    refine if_neg ?_
    rw [bit_testBit, bit_testBit, ← BitVec.getLsbD, ← BitVec.getLsbD, Bool.and_eq_true]
    rintro ⟨ha, hb⟩
    rcases hu (u.age - 1 - i) (by omega) (by omega) with h0 | h0
    · rw [ha] at h0
      cases h0
    · rw [hb] at h0
      cases h0
  · rfl

theorem filterMap_pair {α β : Type} (f : α → Option β) (x y : α) : [x, y].filterMap f = (f x).toList ++ (f y).toList := by
  cases hx : f x <;> cases hy : f y <;> simp [hx, hy]

/-! ### One row after the other -/

/-- What a beat makes of row i of tile t of a cell. -/
def beaten (rz : Bool) (l : List Slice) (c : Cell) (t i : Nat) : AccRow × Bool × Bool :=
  rowUpdate rz { accRow c t i with pf := (accRow c t i).pf || hasPoison (rowTerms l t i) } (termsV (rowTerms l t i))

/-- A beat reaches one row. -/
def beatStep (rz : Bool) (l : List Slice) (c : Cell) (x : Nat × Nat) : Cell :=
  if (rowTerms l x.1 x.2).isEmpty then c
  else beatRow rz c x.1 x.2 (hasPoison (rowTerms l x.1 x.2)) (termsV (rowTerms l x.1 x.2))

theorem beatRows_eq (rz : Bool) (l : List Slice) (c : Cell) :
    beatRows rz l c = (List.range 512).foldl (fun c k => beatStep rz l c (k / 64, k % 64)) c := by
  rw [beatRows, allRows, List.foldl_map]
  rfl

/-- A counter after n more. -/
def raised (old : BitVec 32) (n : Nat) : Nat := min (2 ^ 32 - 1) (old.toNat + n)

theorem toNat_satAdd32 (old : BitVec 32) (n : Nat) : (satAdd32 old n).toNat = raised old n :=
  Nat.mod_eq_of_lt (Nat.lt_of_le_of_lt (Nat.min_le_left (2 ^ 32 - 1) _) (by norm_num))

theorem raised_zero (old : BitVec 32) : raised old 0 = old.toNat := by
  have := old.isLt
  rw [raised]
  omega

/-- The rows and counters of a cell in canonical form. -/
structure AccWf (c : Cell) : Prop where
  acc : smWf AccRow.clear 0 c.acc = true
  rcnt : smWf 0 0 c.rcnt = true
  tcnt : smWf 0 0 c.tcnt = true

/-- A row of tile t takes what reaches it: u; everything else of the cell stays. -/
structure RowTaken (c d : Cell) (t i : Nat) (u : AccRow × Bool × Bool) : Prop where
  wf : AccWf d
  row : ∀ t' i', i' < 64 → accRow d t' i' = if t' = t ∧ i' = i then u.1 else accRow c t' i'
  rcnt : ∀ t', (smGet 0 d.rcnt t').toNat = raised (smGet 0 c.rcnt t') (if t' = t then b2n u.2.1 else 0)
  tcnt : ∀ t', (smGet 0 d.tcnt t').toNat = raised (smGet 0 c.tcnt t') (if t' = t then b2n u.2.2 else 0)
  rest : { d with acc := c.acc, rcnt := c.rcnt, tcnt := c.tcnt } = c

theorem counter_set {m : SMap (BitVec 32)} (h : smWf 0 0 m = true) (t n t' : Nat) :
    (smGet 0 (smSet 0 m t (satAdd32 (smGet 0 m t) n)) t').toNat = raised (smGet 0 m t') (if t' = t then n else 0) := by
  by_cases ht : t' = t
  · rw [if_pos ht, ht, smGet_smSet_same _ _ _ _ h, toNat_satAdd32]
  · rw [if_neg ht, smGet_smSet_other _ _ _ h ht, raised_zero]

theorem beatStep_taken (rz : Bool) (l : List Slice) {c : Cell} (h : AccWf c) (t : Nat) {i : Nat} (hi : i < 64) :
    RowTaken c (beatStep rz l c (t, i)) t i (beaten rz l c t i) := by
  obtain ⟨hacc, hr, ht⟩ := h
  by_cases he : (rowTerms l t i).isEmpty = true
  · have hnil : rowTerms l t i = [] := by simpa using he
    have hu : beaten rz l c t i = (accRow c t i, false, false) := by
      rw [beaten, hnil, termsV, List.filterMap_nil, rowUpdate_none, hasPoison, List.any_nil, Bool.or_false]
    rw [beatStep, if_pos he, hu]
    refine ⟨⟨hacc, hr, ht⟩, fun t' i' _ => ?_, fun t' => ?_, fun t' => ?_, rfl⟩
    · split
      · next hx => rw [hx.1, hx.2]
      · rfl
    · simp [b2n, raised_zero]
    · simp [b2n, raised_zero]
  · rw [beatStep, if_neg he]
    refine ⟨⟨smWf_smSet _ _ _ _ (Nat.zero_le _) hacc, smWf_smSet _ _ _ _ (Nat.zero_le _) hr, smWf_smSet _ _ _ _ (Nat.zero_le _) ht⟩,
      fun t' i' hi' => ?_, counter_set hr t _, counter_set ht t _, rfl⟩
    have hrow : accRow (beatRow rz c t i (hasPoison (rowTerms l t i)) (termsV (rowTerms l t i))) t' i' =
        smGet AccRow.clear (smSet AccRow.clear c.acc (64 * t + i) (beaten rz l c t i).1) (64 * t' + i') := rfl
    rw [hrow]
    split
    · next hx => rw [hx.1, hx.2, smGet_smSet_same _ _ _ _ hacc]
    · next hx => rw [smGet_smSet_other _ _ _ hacc (by omega), accRow]

/-! ### Every row -/

/-- How many of the rows of tile t that stand among the first k rows are flagged. -/
def flagged (f : Nat → Bool) (t k : Nat) : Nat := ((List.range (min 64 (k - 64 * t))).filter f).length

theorem flagged_succ (f : Nat → Bool) (t k : Nat) : flagged f t (k + 1) = flagged f t k + if t = k / 64 then b2n (f (k % 64)) else 0 := by
  by_cases ht : t = k / 64
  · have hk : min 64 (k - 64 * t) = k % 64 := by omega
    have hk1 : min 64 (k + 1 - 64 * t) = k % 64 + 1 := by omega
    rw [if_pos ht, flagged, flagged, hk, hk1, List.range_succ, List.filter_append, List.length_append]
    cases hf : f (k % 64) <;> simp [hf, b2n]
  · have hk : min 64 (k + 1 - 64 * t) = min 64 (k - 64 * t) := by omega
    rw [if_neg ht, flagged, flagged, hk, Nat.add_zero]

theorem raised_raised {old new : BitVec 32} {m : Nat} (h : new.toNat = raised old m) (n : Nat) : raised new n = raised old (m + n) := by
  simp only [raised] at *
  omega

/-- The first k rows have taken what reaches them. -/
structure RowsTaken (rz : Bool) (l : List Slice) (c d : Cell) (k : Nat) : Prop where
  wf : AccWf d
  row : ∀ t i, i < 64 → accRow d t i = if 64 * t + i < k then (beaten rz l c t i).1 else accRow c t i
  rcnt : ∀ t, (smGet 0 d.rcnt t).toNat = raised (smGet 0 c.rcnt t) (flagged (fun i => (beaten rz l c t i).2.1) t k)
  tcnt : ∀ t, (smGet 0 d.tcnt t).toNat = raised (smGet 0 c.tcnt t) (flagged (fun i => (beaten rz l c t i).2.2) t k)
  rest : { d with acc := c.acc, rcnt := c.rcnt, tcnt := c.tcnt } = c

theorem beatRows_taken (rz : Bool) (l : List Slice) {c : Cell} (h : AccWf c) (k : Nat) :
    RowsTaken rz l c ((List.range k).foldl (fun c k => beatStep rz l c (k / 64, k % 64)) c) k := by
  induction k with
  | zero =>
    have none (f : Nat → Bool) (t : Nat) : flagged f t 0 = 0 := by simp [flagged]
    refine ⟨h, fun t i _ => ?_, fun t => ?_, fun t => ?_, rfl⟩
    · rw [if_neg (by omega)]
      rfl
    · rw [none, raised_zero]
      rfl
    · rw [none, raised_zero]
      rfl
  | succ k ih =>
    rw [List.range_succ, List.foldl_append, List.foldl_cons, List.foldl_nil]
    generalize (List.range k).foldl _ c = d at ih ⊢
    have hi : k % 64 < 64 := Nat.mod_lt _ (by omega)
    have step := beatStep_taken rz l ih.wf (k / 64) hi
    have same : beaten rz l d (k / 64) (k % 64) = beaten rz l c (k / 64) (k % 64) := by
      rw [beaten, beaten, ih.row _ _ hi, if_neg (by omega)]
    rw [same] at step
    refine ⟨step.wf, fun t i hi => ?_, fun t => ?_, fun t => ?_, ?_⟩
    · rw [step.row t i hi, ih.row t i hi]
      by_cases hx : t = k / 64 ∧ i = k % 64
      · rw [if_pos hx, if_pos (by omega), hx.1, hx.2]
      · rw [if_neg hx]
        exact if_congr (by omega) rfl rfl
    · rw [step.rcnt t, raised_raised (ih.rcnt t), flagged_succ]
      congr 2
      exact ite_congr rfl (fun ht => by rw [ht]) fun _ => rfl
    · rw [step.tcnt t, raised_raised (ih.tcnt t), flagged_succ]
      congr 2
      exact ite_congr rfl (fun ht => by rw [ht]) fun _ => rfl
    · have h1 := congrArg (fun x : Cell => { x with acc := c.acc, rcnt := c.rcnt, tcnt := c.tcnt }) step.rest
      exact h1.trans ih.rest

/-! ### The check of a beat -/

/-- Row k of the cell, in the order of the tiles, fails the check. -/
def rowFails (c : Cell) (l : List Slice) (k : Nat) : Bool :=
  expOverflow (accRow c (k / 64) (k % 64)) (termsV (rowTerms l (k / 64) (k % 64)))

theorem rowFails_at (c : Cell) (l : List Slice) (t : Nat) {i : Nat} (hi : i < 64) :
    rowFails c l (64 * t + i) = expOverflow (accRow c t i) (termsV (rowTerms l t i)) := by
  rw [rowFails, show (64 * t + i) / 64 = t by omega, show (64 * t + i) % 64 = i by omega]

theorem beatFails_eq (c : Cell) (l : List Slice) :
    beatFails c l = ((List.range 512).find? (rowFails c l)).map fun k => (k / 64, k % 64) := by
  rw [beatFails, allRows, List.find?_map]
  rfl

/-- The row that fails is the first one. -/
theorem beatFails_some {c : Cell} {l : List Slice} {t i : Nat} (ht : t < 8) (hi : i < 64) : beatFails c l = some (t, i) ↔
    expOverflow (accRow c t i) (termsV (rowTerms l t i)) = true ∧ ∀ t' < 8, ∀ i' < 64, 64 * t' + i' < 64 * t + i →
      expOverflow (accRow c t' i') (termsV (rowTerms l t' i')) = false := by
  have place : beatFails c l = some (t, i) ↔ (List.range 512).find? (rowFails c l) = some (64 * t + i) := by
    rw [beatFails_eq]
    cases (List.range 512).find? (rowFails c l) with
    | none => simp
    | some k =>
      simp only [Option.map_some, Option.some.injEq, Prod.mk.injEq]
      omega
  rw [place, List.find?_range_eq_some, rowFails_at c l t hi]
  refine and_congr_right fun _ => ⟨fun ⟨_, h⟩ t' _ i' hi' hlt => ?_, fun h => ⟨List.mem_range.2 (by omega), fun k hk => ?_⟩⟩
  · rw [← rowFails_at c l t' hi']
    simpa using h _ hlt
  · have := h (k / 64) (by omega) (k % 64) (by omega) (by omega)
    rw [rowFails, this, Bool.not_false]

theorem beatFails_none {c : Cell} {l : List Slice} : beatFails c l = none ↔
    ∀ t < 8, ∀ i < 64, expOverflow (accRow c t i) (termsV (rowTerms l t i)) = false := by
  rw [beatFails_eq, Option.map_eq_none_iff, List.find?_range_eq_none]
  refine ⟨fun h t _ i hi => ?_, fun h k hk => ?_⟩
  · rw [← rowFails_at c l t hi]
    simpa using h (64 * t + i) (by omega)
  · rw [rowFails, h (k / 64) (by omega) (k % 64) (by omega), Bool.not_false]

end Sys2Proof.Machine

namespace Sys2Proof.Laws
open Sys2Proof Machine

/-- Of O25, which products reach a row. -/
theorem slicesMeetRows : Sys2Proof.slicesMeetRows := by
  intro l t i _
  refine ⟨fun u h _ => ⟨fun j hj hage ha hb => sliceTerm_meets hj hage ha hb, sliceTerm_none⟩, ?_⟩
  exact congrArg (fun f => List.flatMap f (l.filter fun u => u.tile.toNat == t)) (funext fun u => filterMap_pair (sliceTerm u · i) 0 1)

/-- Of O25, the rows of every tile. -/
theorem beatsUpdateRows : Sys2Proof.beatsUpdateRows := by
  intro rz c l t i ht hi hacc hr htc d vals row grown
  have taken := beatRows_taken rz l ⟨hacc, hr, htc⟩ 512
  rw [← beatRows_eq] at taken
  have whole : min 64 (512 - 64 * t) = 64 := by omega
  refine ⟨?_, ?_, ?_, taken.rest, beatFails_some ht hi, beatFails_none⟩
  · rw [taken.row t i hi, if_pos (by omega)]
    rfl
  · rw [taken.rcnt t, flagged, whole]
    rfl
  · rw [taken.tcnt t, flagged, whole]
    rfl

/-- Settles O25: by one row, one product, one slice and then all rows in turn. -/
theorem beatsAccumulate : Obligations.BeatsAccumulate := ⟨rowTakesBeat, productsAreExact, slicesMeetRows, beatsUpdateRows⟩

end Sys2Proof.Laws
end

