-- ==== Sys2Proof/Proofs/FloatLine.lean ====
section
/-!
The line of the values of a floating-point format (R17): its codes in order, and between which of them a value lies.
-/

namespace Sys2Proof.Machine
open FmtOps

/-! ### Magnitudes -/

/-- The magnitude of code u without sign, in units of the least positive one, where w is the width of the fraction. -/
def lineMag (w u : Nat) : Nat := if u / 2 ^ w = 0 then u % 2 ^ w else (2 ^ w + u % 2 ^ w) * 2 ^ (u / 2 ^ w - 1)

/-- The code whose exponent is that of s units of 2^k; s may carry into the next exponent. -/
theorem lineMag_scaled {w k s : Nat} (h : k = 0 ∨ 2 ^ w ≤ s) (hs : s ≤ 2 ^ (w + 1)) : lineMag w (k * 2 ^ w + s) = s * 2 ^ k := by
  have hw := Nat.two_pow_pos w
  have pow : 2 ^ (w + 1) = 2 * 2 ^ w := by ring
  rcases lt_or_ge s (2 ^ w) with hlt | hge
  · obtain rfl : k = 0 := by omega
    simp [lineMag, Nat.div_eq_of_lt hlt, Nat.mod_eq_of_lt hlt]
  · rcases Nat.lt_or_ge s (2 ^ (w + 1)) with hlt | htop
    · have hu : k * 2 ^ w + s = (s - 2 ^ w) + 2 ^ w * (k + 1) := by
        rw [Nat.mul_add, Nat.mul_comm]
        omega
      rw [lineMag, hu, Nat.add_mul_div_left _ _ hw, Nat.add_mul_mod_self_left, Nat.div_eq_of_lt (by omega), Nat.mod_eq_of_lt (by omega),
        if_neg (by omega), Nat.zero_add, Nat.add_sub_cancel, show 2 ^ w + (s - 2 ^ w) = s by omega]
    · obtain rfl : s = 2 ^ (w + 1) := by omega
      have hu : k * 2 ^ w + 2 ^ (w + 1) = 2 ^ w * (k + 2) := by ring
      rw [lineMag, hu, Nat.mul_div_cancel_left _ hw, Nat.mul_mod_right, if_neg (by omega), Nat.add_zero,
        show k + 2 - 1 = k + 1 by omega]
      ring

theorem lineMag_strictMono (w : Nat) : StrictMono (lineMag w) := by
  refine strictMono_nat_of_lt_succ fun u => ?_
  have hw := Nat.two_pow_pos w
  have pow : 2 ^ (w + 1) = 2 * 2 ^ w := by ring
  have hu := Nat.div_add_mod u (2 ^ w)
  have hf := Nat.mod_lt u hw
  generalize u / 2 ^ w = x at hu
  generalize u % 2 ^ w = f at hu hf
  subst hu
  cases x with
  | zero =>
    have h := lineMag_scaled (w := w) (k := 0) (s := f) (.inl rfl) (by omega)
    have h1 := lineMag_scaled (w := w) (k := 0) (s := f + 1) (.inl rfl) (by omega)
    simp only [Nat.zero_mul, Nat.zero_add, Nat.pow_zero, Nat.mul_one] at h h1
    simp only [Nat.mul_zero, Nat.zero_add, h, h1]
    omega
  | succ k =>
    have h := lineMag_scaled (w := w) (k := k) (s := 2 ^ w + f) (.inr (by omega)) (by omega)
    have h1 := lineMag_scaled (w := w) (k := k) (s := 2 ^ w + f + 1) (.inr (by omega)) (by omega)
    rw [show 2 ^ w * (k + 1) + f = k * 2 ^ w + (2 ^ w + f) by ring,
      show k * 2 ^ w + (2 ^ w + f) + 1 = k * 2 ^ w + (2 ^ w + f + 1) by ring, h, h1]
    exact Nat.mul_lt_mul_of_pos_right (by omega) (by positivity)

/-- The exponent of the least positive value of a format. -/
def unitExp (F : Fmt) : ℤ := 1 - (bias F : ℤ) - F.fw

/-- The magnitude of a code without sign. -/
def lineAbs (F : Fmt) (u : Nat) : ℚ := lineMag F.fw u * (2 : ℚ) ^ unitExp F

theorem lineAbs_strictMono (F : Fmt) : StrictMono (lineAbs F) := fun u v h =>
  mul_lt_mul_of_pos_right (by exact_mod_cast lineMag_strictMono F.fw h) (by positivity)

theorem lineAbs_zero (F : Fmt) : lineAbs F 0 = 0 := by simp [lineAbs, lineMag]

theorem lineAbs_nonneg (F : Fmt) (u : Nat) : 0 ≤ lineAbs F u := by
  rw [lineAbs]
  positivity

/-- The magnitude of s units of 2^k. -/
theorem lineAbs_scaled {F : Fmt} {k s : Nat} (h : k = 0 ∨ 2 ^ F.fw ≤ s) (hs : s ≤ 2 ^ (F.fw + 1)) :
    lineAbs F (k * 2 ^ F.fw + s) = s * (2 : ℚ) ^ (k + unitExp F) := by
  rw [lineAbs, lineMag_scaled h hs, zpow_add₀ (by norm_num), zpow_natCast]
  push_cast
  ring

/-! ### Codes with their sign -/

section

variable (F : Fmt)

theorem infBits_lt : infBits F < 2 ^ (F.ew + F.fw) := by
  rw [infBits, pow_add]
  exact Nat.mul_lt_mul_of_pos_right (Nat.sub_lt (Nat.two_pow_pos _) (by norm_num)) (Nat.two_pow_pos _)

theorem width_pred : width F - 1 = F.ew + F.fw := by rw [width]; omega

variable {F} (n : Bool) {c : Nat} (hc : c < 2 ^ (F.ew + F.fw))
include hc

theorem withSign_lt : withSign F n c < 2 ^ (1 + F.ew + F.fw) := by
  rw [withSign, width_pred, show 1 + F.ew + F.fw = F.ew + F.fw + 1 by ring, pow_succ]
  cases n <;> simp only [b2n] <;> grind

theorem withSign_div : withSign F n c / 2 ^ F.fw % 2 ^ F.ew = c / 2 ^ F.fw := by
  have hx : c / 2 ^ F.fw < 2 ^ F.ew := by
    rw [Nat.div_lt_iff_lt_mul (Nat.two_pow_pos _), ← pow_add]
    exact hc
  have hs : withSign F n c = c + 2 ^ F.fw * (2 ^ F.ew * b2n n) := by
    rw [withSign, width_pred, pow_add]
    ring
  rw [hs, Nat.add_mul_div_left _ _ (Nat.two_pow_pos _), Nat.add_mul_mod_self_left, Nat.mod_eq_of_lt hx]

theorem withSign_testBit : (withSign F n c).testBit (F.ew + F.fw) = n := by
  rw [withSign, width_pred, Nat.testBit_eq_decide_div_mod_eq, Nat.add_mul_div_right _ _ (Nat.two_pow_pos _), Nat.div_eq_of_lt hc]
  cases n <;> rfl

omit hc in
theorem withSign_mod (c : Nat) : withSign F n c % 2 ^ F.fw = c % 2 ^ F.fw := by
  rw [withSign, width_pred, pow_add, show c + b2n n * (2 ^ F.ew * 2 ^ F.fw) = c + 2 ^ F.fw * (2 ^ F.ew * b2n n) by ring,
    Nat.add_mul_mod_self_left]

theorem lineVal_withSign : lineVal F (withSign F n c) = (if n then -1 else 1) * lineAbs F c := by
  rw [lineVal, withSign_div n hc, withSign_testBit n hc, withSign_mod]
  congr 1
  rw [lineAbs, lineMag, unitExp, cast_bias]
  by_cases hx : c / 2 ^ F.fw = 0
  · rw [hx, if_pos rfl, if_pos rfl]
    norm_num
  · obtain ⟨k, hk⟩ := Nat.exists_eq_succ_of_ne_zero hx
    generalize c % 2 ^ F.fw = f
    rw [if_neg hx, if_neg hx, hk, Nat.succ_sub_one]
    push_cast
    rw [max_eq_left (by omega), mul_assoc, ← zpow_natCast (2 : ℚ) k, ← zpow_add₀ (by norm_num)]
    congr 2
    ring

end

end Sys2Proof.Machine
end

