-- ==== Sys2Proof/Proofs/Units.lean ====
section
/-!
The units of 2^q in a value m × 2^e, whole and rounded (R125).
-/

namespace Sys2Proof.Machine

/-- The whole units of 2^q in m × 2^e, and these units rounded in a direction (R125). -/
def wholeUnits (q e : ℤ) (m : Nat) : Nat := if q ≤ e then m * 2 ^ (e - q).toNat else m / 2 ^ (q - e).toNat

@[inherit_doc wholeUnits] def roundedUnits (rm : Nat) (neg : Bool) (q e : ℤ) (m : Nat) : Nat :=
  if q ≤ e then m * 2 ^ (e - q).toNat else roundShift rm neg m (q - e).toNat

theorem wholeUnits_lt {q e : ℤ} {m l n : Nat} (h : m < 2 ^ l) (hn : e + l ≤ q + n) : wholeUnits q e m < 2 ^ n := by
  unfold wholeUnits
  split
  · calc m * 2 ^ (e - q).toNat < 2 ^ l * 2 ^ (e - q).toNat := Nat.mul_lt_mul_of_pos_right h (by positivity)
      _ = 2 ^ (l + (e - q).toNat) := (pow_add ..).symm
      _ ≤ 2 ^ n := Nat.pow_le_pow_right (by omega) (by omega)
  · rw [Nat.div_lt_iff_lt_mul (by positivity), ← pow_add]
    exact h.trans_le (Nat.pow_le_pow_right (by omega) (by omega))

theorem le_wholeUnits {q e : ℤ} {m l n : Nat} (h : 2 ^ l ≤ m) (hn : q + n ≤ e + l) : 2 ^ n ≤ wholeUnits q e m := by
  unfold wholeUnits
  split
  · calc 2 ^ n ≤ 2 ^ (l + (e - q).toNat) := Nat.pow_le_pow_right (by omega) (by omega)
      _ = 2 ^ l * 2 ^ (e - q).toNat := pow_add ..
      _ ≤ m * 2 ^ (e - q).toNat := Nat.mul_le_mul_right _ h
  · rw [Nat.le_div_iff_mul_le (by positivity), ← pow_add]
    exact (Nat.pow_le_pow_right (by omega) (by omega)).trans h

theorem two_zpow_split {q e : ℤ} (h : e ≤ q) : (2 : ℚ) ^ q = 2 ^ (q - e).toNat * 2 ^ e := by
  rw [← zpow_natCast, ← zpow_add₀ (by norm_num)]
  congr 1
  omega

theorem wholeUnits_value (q e : ℤ) (m : Nat) : (wholeUnits q e m : ℚ) * 2 ^ q ≤ m * 2 ^ e ∧ m * (2 : ℚ) ^ e < (wholeUnits q e m + 1) * 2 ^ q := by
  have hpos (k : ℤ) : (0 : ℚ) < 2 ^ k := by positivity
  unfold wholeUnits
  split
  · next h =>
    rw [two_zpow_split h]
    push_cast
    have := hpos q
    exact ⟨by rw [mul_assoc], by rw [← mul_assoc]; gcongr; linarith⟩
  · next h =>
    rw [two_zpow_split (show e ≤ q by omega)]
    have hm := Nat.div_add_mod m (2 ^ (q - e).toNat)
    have hr := Nat.mod_lt m (Nat.two_pow_pos (q - e).toNat)
    have h1 : ((m / 2 ^ (q - e).toNat : Nat) : ℚ) * 2 ^ (q - e).toNat ≤ m := by
      exact_mod_cast (by rw [Nat.mul_comm]; omega : m / 2 ^ (q - e).toNat * 2 ^ (q - e).toNat ≤ m)
    have h2 : (m : ℚ) < (((m / 2 ^ (q - e).toNat : Nat) : ℚ) + 1) * 2 ^ (q - e).toNat := by
      exact_mod_cast (by rw [Nat.add_mul, Nat.mul_comm]; omega : m < (m / 2 ^ (q - e).toNat + 1) * 2 ^ (q - e).toNat)
    have := hpos e
    exact ⟨by rw [← mul_assoc]; gcongr, by rw [← mul_assoc]; gcongr⟩

/-! ### Rounding -/

theorem roundedUnits_cases (rm : Nat) (neg : Bool) (q e : ℤ) (m : Nat) :
    roundedUnits rm neg q e m = wholeUnits q e m ∨ roundedUnits rm neg q e m = wholeUnits q e m + 1 := by
  unfold roundedUnits wholeUnits
  split
  · exact .inl rfl
  · exact roundShift_cases ..

/-- Direction 0: the nearest, a tie to the even one. -/
theorem roundedUnits_nearest (neg : Bool) (q e : ℤ) (m : Nat) :
    2 * |(roundedUnits 0 neg q e m : ℚ) * 2 ^ q - m * 2 ^ e| ≤ 2 ^ q ∧
      (2 * |(roundedUnits 0 neg q e m : ℚ) * 2 ^ q - m * 2 ^ e| = 2 ^ q → roundedUnits 0 neg q e m % 2 = 0) := by
  unfold roundedUnits
  split
  · next h =>
    have hpos : (0 : ℚ) < 2 ^ q := by positivity
    have heq : ((m * 2 ^ (e - q).toNat : Nat) : ℚ) * 2 ^ q - m * 2 ^ e = 0 := by
      rw [two_zpow_split h]
      push_cast
      ring
    rw [heq, abs_zero, mul_zero]
    exact ⟨hpos.le, fun h0 => absurd h0 hpos.ne⟩
  · next h =>
    obtain ⟨hle, htie⟩ := roundShift_nearest neg m (q - e).toNat
    generalize roundShift 0 neg m (q - e).toNat = r at *
    have hpos : (0 : ℚ) < 2 ^ e := by positivity
    have hd : |(r : ℚ) * 2 ^ q - m * 2 ^ e| = (|(r : ℤ) * 2 ^ (q - e).toNat - m| : ℤ) * 2 ^ e := by
      rw [two_zpow_split (show e ≤ q by omega), ← mul_assoc, ← sub_mul, abs_mul, abs_of_pos hpos]
      push_cast
      rfl
    rw [hd, two_zpow_split (show e ≤ q by omega), ← mul_assoc, mul_le_mul_iff_of_pos_right hpos, mul_left_inj' hpos.ne']
    exact_mod_cast And.intro hle htie

/-- Toward zero, and down or up of a sign for which that is toward zero. -/
theorem roundedUnits_toward {rm : Nat} {neg : Bool} (h : rm = 1 ∨ (rm = 2 ∧ neg = false) ∨ (rm = 3 ∧ neg = true)) (q e : ℤ) (m : Nat) :
    roundedUnits rm neg q e m = wholeUnits q e m := by
  unfold roundedUnits wholeUnits
  split
  · rfl
  · exact roundShift_toward h ..

/-- Away from zero. -/
theorem roundedUnits_away {rm : Nat} {neg : Bool} (h : (rm = 2 ∧ neg = true) ∨ (rm = 3 ∧ neg = false)) (q e : ℤ) (m : Nat) :
    roundedUnits rm neg q e m =
      if (wholeUnits q e m : ℚ) * 2 ^ q = m * 2 ^ e then wholeUnits q e m else wholeUnits q e m + 1 := by
  unfold roundedUnits wholeUnits
  split
  · next hq =>
    rw [two_zpow_split hq, if_pos (by push_cast; ring)]
  · next hq =>
    have hpos : (2 : ℚ) ^ e ≠ 0 := by positivity
    have hm := Nat.div_add_mod m (2 ^ (q - e).toNat)
    have exact_iff : ((m / 2 ^ (q - e).toNat : Nat) : ℚ) * 2 ^ q = m * 2 ^ e ↔ m % 2 ^ (q - e).toNat = 0 := by
      rw [two_zpow_split (show e ≤ q by omega), ← mul_assoc, mul_left_inj' hpos]
      norm_cast
      rw [Nat.mul_comm]
      omega
    rw [if_congr exact_iff rfl rfl]
    exact roundShift_away h ..

end Sys2Proof.Machine
end

