-- ==== Sys2Proof/Proofs/FloatPack.lean ====
section
/-!
A value rounded to a code of a format (R121, R125).
-/

namespace Sys2Proof.Machine
open FmtOps

/-! ### The codes around a value -/

section Bracket

variable {L : Nat → ℚ} (hL : StrictMono L) {a : ℚ} {c code : Nat}
include hL

/-- Of the two codes around a value the nearer one is the nearest of all; on a tie it has to be the even one. -/
theorem nearest_of_bracket (hlo : L c ≤ a) (hhi : a < L (c + 1)) (hcode : code = c ∨ code = c + 1)
    (hnear : 2 * |L code - a| ≤ L (c + 1) - L c) (htie : 2 * |L code - a| = L (c + 1) - L c → code % 2 = 0) (u : Nat) :
    |L code - a| ≤ |L u - a| ∧ (|L code - a| = |L u - a| → u ≠ code → code % 2 = 0) := by
  rcases Nat.lt_or_ge c u with hu | hu
  · have hge : L (c + 1) ≤ L u := hL.monotone hu
    have hdist : |L u - a| = L u - a := abs_of_nonneg (by linarith)
    rcases hcode with rfl | rfl
    · have hd : |L code - a| = a - L code := by rw [abs_sub_comm]; exact abs_of_nonneg (by linarith)
      rw [hd] at hnear htie
      rw [hd, hdist]
      exact ⟨by linarith, fun h _ => htie (by linarith)⟩
    · have hd : |L (c + 1) - a| = L (c + 1) - a := abs_of_nonneg (by linarith)
      rw [hd, hdist]
      refine ⟨by linarith, fun h hne => absurd ?_ hne⟩
      exact hL.injective (by linarith)
  · have hle : L u ≤ L c := hL.monotone hu
    have hdist : |L u - a| = a - L u := by rw [abs_sub_comm]; exact abs_of_nonneg (by linarith)
    rcases hcode with rfl | rfl
    · have hd : |L code - a| = a - L code := by rw [abs_sub_comm]; exact abs_of_nonneg (by linarith)
      rw [hd, hdist]
      refine ⟨by linarith, fun h hne => absurd ?_ hne⟩
      exact hL.injective (by linarith)
    · have hd : |L (c + 1) - a| = L (c + 1) - a := abs_of_nonneg (by linarith)
      rw [hd] at hnear htie
      rw [hd, hdist]
      exact ⟨by linarith, fun h _ => htie (by linarith)⟩

end Bracket

/-! ### Magnitudes rounded -/

section

variable (F : Fmt) (a : ℚ) (w : Nat)

/-- w is the code without sign that is nearest to the magnitude a, a tie to the even one; an infinity stands for the next power of two. -/
def NearestMag : Prop := w ≤ infBits F ∧ ∀ u ≤ infBits F, |lineAbs F w - a| ≤ |lineAbs F u - a| ∧
  (|lineAbs F w - a| = |lineAbs F u - a| → u ≠ w → w % 2 = 0)

/-- w is the largest finite code without sign that is at most a. -/
def BelowMag : Prop := w < infBits F ∧ lineAbs F w ≤ a ∧ ∀ u < infBits F, lineAbs F u ≤ a → u ≤ w

/-- w is the smallest code without sign that is at least a. -/
def AboveMag : Prop := w ≤ infBits F ∧ (w < infBits F → a ≤ lineAbs F w) ∧ ∀ u < infBits F, a ≤ lineAbs F u → w ≤ u

variable {F a w} {c : Nat} (hlo : lineAbs F c ≤ a) (hhi : a < lineAbs F (c + 1))
include hlo hhi

/-- To the nearest: past the last code an infinity. -/
theorem nearestMag_of_bracket {code : Nat} (hcode : code = c ∨ code = c + 1)
    (hnear : 2 * |lineAbs F code - a| ≤ lineAbs F (c + 1) - lineAbs F c)
    (htie : 2 * |lineAbs F code - a| = lineAbs F (c + 1) - lineAbs F c → code % 2 = 0) : NearestMag F a (min code (infBits F)) := by
  refine ⟨Nat.min_le_right .., fun u hu => ?_⟩
  rcases Nat.lt_or_ge (infBits F) code with hover | hfits
  · have hle : lineAbs F (infBits F) ≤ a := ((lineAbs_strictMono F).monotone (by omega)).trans hlo
    have hu' : lineAbs F u ≤ lineAbs F (infBits F) := (lineAbs_strictMono F).monotone hu
    rw [Nat.min_eq_right hover.le, abs_sub_comm, abs_of_nonneg (by linarith), abs_sub_comm, abs_of_nonneg (by linarith)]
    refine ⟨by linarith, fun h hne => absurd ?_ hne⟩
    exact (lineAbs_strictMono F).injective (by linarith)
  · rw [Nat.min_eq_left hfits]
    exact nearest_of_bracket (lineAbs_strictMono F) hlo hhi hcode hnear htie u

/-- Toward zero: never an infinity. -/
theorem belowMag_of_bracket (hinf : 0 < infBits F) : BelowMag F a (if c < infBits F then c else infBits F - 1) := by
  have upto : ∀ u, lineAbs F u ≤ a → u ≤ c := fun u hu =>
    Nat.lt_succ_iff.1 ((lineAbs_strictMono F).lt_iff_lt.1 (hu.trans_lt hhi))
  split
  · next hc => exact ⟨hc, hlo, fun u _ hu => upto u hu⟩
  · next hc =>
    refine ⟨by omega, ((lineAbs_strictMono F).monotone (by omega)).trans hlo, fun u hu _ => by omega⟩

/-- Away from zero. -/
theorem aboveMag_of_bracket : AboveMag F a (min (if lineAbs F c = a then c else c + 1) (infBits F)) := by
  have from_ : a ≤ lineAbs F (if lineAbs F c = a then c else c + 1) ∧
      ∀ u, a ≤ lineAbs F u → (if lineAbs F c = a then c else c + 1) ≤ u := by
    split
    · next he => exact ⟨he.ge, fun u hu => (lineAbs_strictMono F).le_iff_le.1 (he.trans_le hu)⟩
    · next he => exact ⟨hhi.le, fun u hu => (lineAbs_strictMono F).lt_iff_lt.1 ((lt_of_le_of_ne hlo he).trans_le hu)⟩
  refine ⟨Nat.min_le_right .., fun hw => ?_, fun u _ hu => (Nat.min_le_left ..).trans (from_.2 u hu)⟩
  rw [Nat.min_eq_left (by omega)]
  exact from_.1

end

/-! ### fpack -/

section

variable (F : Fmt) (rm : Nat) (neg : Bool) (m : Nat) (e : ℤ)

/-- The exponent of the unit in the last place of m × 2^e. -/
def ulpExp : ℤ := max (e + bitlen m - 1) (1 - bias F) - F.fw
/-- How far that is above the least one. -/
def ulpLevel : Nat := (ulpExp F m e + F.fw + bias F - 1).toNat

theorem ulpLevel_cast : (ulpLevel F m e : ℤ) + unitExp F = ulpExp F m e := by
  rw [ulpLevel, unitExp, Int.toNat_of_nonneg]
  · ring
  · rw [ulpExp]
    have := le_max_right (e + bitlen m - 1) (1 - (bias F : ℤ))
    linarith

/-- The code without sign that a number of units in the last place has. -/
def unitCode (s : Nat) : Nat := ulpLevel F m e * 2 ^ F.fw + s

/-- What packing makes of a code: past the last one an infinity, or the largest finite one. -/
def packed (code : Nat) : Nat := if code < infBits F then code
  else if rm = 0 || (rm = 2 && neg) || (rm = 3 && !neg) then infBits F else infBits F - 1

theorem packed_away (h : rm = 0 ∨ (rm = 2 ∧ neg = true) ∨ (rm = 3 ∧ neg = false)) (code : Nat) :
    packed F rm neg code = min code (infBits F) := by
  have away : (rm = 0 || (rm = 2 && neg) || (rm = 3 && !neg) : Bool) = true := by
    rcases h with rfl | ⟨rfl, rfl⟩ | ⟨rfl, rfl⟩ <;> rfl
  rw [packed, if_pos away]
  split <;> omega

theorem packed_toward (h : rm = 1 ∨ (rm = 2 ∧ neg = false) ∨ (rm = 3 ∧ neg = true)) (code : Nat) :
    packed F rm neg code = if code < infBits F then code else infBits F - 1 := by
  refine if_congr Iff.rfl rfl (if_neg ?_)
  rcases h with rfl | ⟨rfl, rfl⟩ | ⟨rfl, rfl⟩ <;> simp

theorem fpack_eq (hm : m ≠ 0) : fpack F rm neg m e =
    withSign F neg (packed F rm neg (unitCode F m e (roundedUnits rm neg (ulpExp F m e) e m))) := by
  rw [fpack, if_neg hm, packed, apply_ite (withSign F neg), apply_ite (withSign F neg)]
  rfl

variable {m} (hm : m ≠ 0)
include hm

theorem wholeUlps_bounds : wholeUnits (ulpExp F m e) e m < 2 ^ (F.fw + 1) ∧
    (ulpLevel F m e = 0 ∨ 2 ^ F.fw ≤ wholeUnits (ulpExp F m e) e m) := by
  have hge := two_pow_bitlen_le hm
  obtain ⟨l, hl⟩ := Nat.exists_eq_succ_of_ne_zero (bitlen_pos hm).ne'
  have hle : 2 ^ l ≤ m := by
    rw [hl, pow_succ] at hge
    omega
  have hq : ulpExp F m e = max (e + bitlen m - 1) (1 - bias F) - F.fw := rfl
  have hlevel := ulpLevel_cast F m e
  rw [unitExp] at hlevel
  refine ⟨wholeUnits_lt (lt_two_pow_bitlen m) (by push_cast; omega), ?_⟩
  by_cases h0 : ulpLevel F m e = 0
  · exact .inl h0
  · exact .inr (le_wholeUnits hle (by omega))

/-- The codes around a value. -/
theorem unitCode_bracket : lineAbs F (unitCode F m e (wholeUnits (ulpExp F m e) e m)) = wholeUnits (ulpExp F m e) e m * 2 ^ ulpExp F m e ∧
    lineAbs F (unitCode F m e (wholeUnits (ulpExp F m e) e m) + 1) = (wholeUnits (ulpExp F m e) e m + 1) * 2 ^ ulpExp F m e := by
  obtain ⟨hlt, hge⟩ := wholeUlps_bounds F e hm
  have hlevel := ulpLevel_cast F m e
  generalize ulpExp F m e = q at *
  subst hlevel
  refine ⟨lineAbs_scaled hge hlt.le, ?_⟩
  rw [unitCode, Nat.add_assoc, lineAbs_scaled (hge.imp_right (by omega)) (by omega)]
  push_cast
  rfl

/-- A value packs to the code without sign that its direction asks for, with its sign. -/
theorem fpack_nearest (hf : 0 < F.fw) : ∃ w, fpack F 0 neg m e = withSign F neg w ∧ NearestMag F (m * 2 ^ e) w := by
  obtain ⟨hlo, hhi⟩ := unitCode_bracket F e hm
  obtain ⟨vlo, vhi⟩ := wholeUnits_value (ulpExp F m e) e m
  obtain ⟨near, tie⟩ := roundedUnits_nearest neg (ulpExp F m e) e m
  have hcases := roundedUnits_cases 0 neg (ulpExp F m e) e m
  have hval : lineAbs F (unitCode F m e (roundedUnits 0 neg (ulpExp F m e) e m)) = roundedUnits 0 neg (ulpExp F m e) e m * 2 ^ ulpExp F m e := by
    rcases hcases with h | h
    · rw [h, hlo]
    · rw [h, unitCode, ← Nat.add_assoc, ← unitCode, hhi]
      push_cast
      rfl
  have gap : lineAbs F (unitCode F m e (wholeUnits (ulpExp F m e) e m) + 1) - lineAbs F (unitCode F m e (wholeUnits (ulpExp F m e) e m)) =
      2 ^ ulpExp F m e := by
    rw [hlo, hhi]
    ring
  have parity : unitCode F m e (roundedUnits 0 neg (ulpExp F m e) e m) % 2 = roundedUnits 0 neg (ulpExp F m e) e m % 2 := by
    obtain ⟨k, hk⟩ := Nat.exists_eq_succ_of_ne_zero hf.ne'
    rw [unitCode, hk, pow_succ, ← Nat.mul_assoc]
    omega
  have mag := nearestMag_of_bracket (F := F) (hlo.trans_le vlo) (vhi.trans_eq hhi.symm)
    (code := unitCode F m e (roundedUnits 0 neg (ulpExp F m e) e m))
    (hcases.imp (congrArg _) fun h => (congrArg _ h).trans (Nat.add_assoc ..).symm)
    (by rw [hval, gap]; exact near) (by rw [hval, gap, parity]; exact tie)
  refine ⟨_, ?_, mag⟩
  rw [fpack_eq F 0 neg m e hm, packed_away F 0 neg (.inl rfl)]

theorem fpack_below (hinf : 0 < infBits F) (hrm : rm = 1 ∨ (rm = 2 ∧ neg = false) ∨ (rm = 3 ∧ neg = true)) :
    ∃ w, fpack F rm neg m e = withSign F neg w ∧ BelowMag F (m * 2 ^ e) w := by
  obtain ⟨hlo, hhi⟩ := unitCode_bracket F e hm
  obtain ⟨vlo, vhi⟩ := wholeUnits_value (ulpExp F m e) e m
  refine ⟨_, ?_, belowMag_of_bracket (hlo.trans_le vlo) (vhi.trans_eq hhi.symm) hinf⟩
  rw [fpack_eq F rm neg m e hm, roundedUnits_toward hrm, packed_toward F rm neg hrm]

theorem fpack_above (hrm : (rm = 2 ∧ neg = true) ∨ (rm = 3 ∧ neg = false)) :
    ∃ w, fpack F rm neg m e = withSign F neg w ∧ AboveMag F (m * 2 ^ e) w := by
  obtain ⟨hlo, hhi⟩ := unitCode_bracket F e hm
  obtain ⟨vlo, vhi⟩ := wholeUnits_value (ulpExp F m e) e m
  have hcode : unitCode F m e (roundedUnits rm neg (ulpExp F m e) e m) =
      if lineAbs F (unitCode F m e (wholeUnits (ulpExp F m e) e m)) = m * 2 ^ e then unitCode F m e (wholeUnits (ulpExp F m e) e m)
      else unitCode F m e (wholeUnits (ulpExp F m e) e m) + 1 := by
    rw [roundedUnits_away hrm, hlo, apply_ite (unitCode F m e)]
    rfl
  refine ⟨_, ?_, aboveMag_of_bracket (hlo.trans_le vlo) (vhi.trans_eq hhi.symm)⟩
  rw [fpack_eq F rm neg m e hm, hcode, packed_away F rm neg (.inr hrm)]

end

end Sys2Proof.Machine
end

