-- ==== Sys2Proof/Proofs/FloatRounds.lean ====
section
/-!
A packed value is the value rounded to its format in its direction (R121, R125).
-/

namespace Sys2Proof.Machine
open FmtOps

/-! ### Codes and numbers -/

section

variable {F : Fmt}

/-- The sign as a factor. -/
def unitSign (n : Bool) : ℚ := if n then -1 else 1

/-- A finite code stands for its value. -/
theorem numeric_finite {v : Nat} (h : expField F v ≠ 2 ^ F.ew - 1) : numeric (funpack F v) = ((lineVal F v : WithTop ℚ) : WithBot (WithTop ℚ)) := by
  rw [funpack_finite h, numeric, lineVal, mul_assoc, significand, scale, expField]
  congr 3
  push_cast
  rfl

theorem numeric_code (n : Bool) {c : Nat} (hc : c < infBits F) :
    numeric (funpack F (withSign F n c)) = ((unitSign n * lineAbs F c : ℚ) : WithTop ℚ) := by
  have hlt := hc.trans (infBits_lt F)
  rw [numeric_finite, lineVal_withSign n hlt, unitSign]
  rw [expField, withSign_div n hlt]
  exact (Nat.div_lt_of_lt_mul (by rwa [infBits, Nat.mul_comm] at hc)).ne

theorem expField_infinity (n : Bool) : expField F (withSign F n (infBits F)) = 2 ^ F.ew - 1 := by
  rw [expField, withSign_div n (infBits_lt F), infBits, Nat.mul_div_cancel _ (Nat.two_pow_pos _)]

theorem funpack_infinity (n : Bool) : funpack F (withSign F n (infBits F)) = .inf n := by
  rw [funpack_special (expField_infinity n), withSign_mod, infBits, Nat.mul_mod_left, if_pos rfl, ← infBits,
    withSign_testBit n (infBits_lt F)]

/-- A code that is no NaN has a sign and a magnitude up to the infinity. -/
theorem code_cases {u : Nat} (hu : u < 2 ^ (1 + F.ew + F.fw)) (hn : funpack F u ≠ .nan) : ∃ n c, u = withSign F n c ∧ c ≤ infBits F := by
  have hc : u % 2 ^ (F.ew + F.fw) < 2 ^ (F.ew + F.fw) := Nat.mod_lt _ (Nat.two_pow_pos _)
  have hsplit : u = withSign F (u.testBit (F.ew + F.fw)) (u % 2 ^ (F.ew + F.fw)) := by
    have hq : u / 2 ^ (F.ew + F.fw) < 2 := by
      rw [Nat.div_lt_iff_lt_mul (Nat.two_pow_pos _), ← pow_succ']
      exact hu.trans_eq (by ring)
    have hb : b2n (u.testBit (F.ew + F.fw)) = u / 2 ^ (F.ew + F.fw) := by
      rw [Nat.testBit_eq_decide_div_mod_eq, Nat.mod_eq_of_lt hq]
      rcases Nat.lt_succ_iff_lt_or_eq.1 hq with h | h
      · rw [Nat.lt_one_iff.1 h]
        rfl
      · rw [h]
        rfl
    rw [withSign, width_pred, hb, Nat.mul_comm]
    exact (Nat.mod_add_div ..).symm
  refine ⟨_, _, hsplit, ?_⟩
  generalize u % 2 ^ (F.ew + F.fw) = c at hc hsplit
  generalize u.testBit (F.ew + F.fw) = n at hsplit
  subst hsplit
  have hdiv := Nat.div_add_mod c (2 ^ F.fw)
  by_cases hx : c / 2 ^ F.fw = 2 ^ F.ew - 1
  · have hfr : c % 2 ^ F.fw = 0 := by
      by_contra h0
      rw [funpack_special (by rw [expField, withSign_div n hc, hx]), withSign_mod, if_neg h0] at hn
      exact hn rfl
    rw [hx, hfr, Nat.add_zero, Nat.mul_comm] at hdiv
    exact hdiv.symm.le
  · have hlt : c / 2 ^ F.fw < 2 ^ F.ew := by
      rw [Nat.div_lt_iff_lt_mul (Nat.two_pow_pos _), ← pow_add]
      exact hc
    exact ((Nat.div_lt_iff_lt_mul (Nat.two_pow_pos _)).1 (show c / 2 ^ F.fw < 2 ^ F.ew - 1 by omega)).le

theorem withSign_number (n : Bool) {c : Nat} (hc : c ≤ infBits F) :
    withSign F n c < 2 ^ (1 + F.ew + F.fw) ∧ funpack F (withSign F n c) ≠ .nan := by
  have hlt := hc.trans_lt (infBits_lt F)
  refine ⟨withSign_lt n hlt, ?_⟩
  rcases hc.lt_or_eq with h | rfl
  · rw [funpack_finite]
    · simp
    · rw [expField, withSign_div n hlt]
      exact (Nat.div_lt_of_lt_mul (by rwa [infBits, Nat.mul_comm] at h)).ne
  · simp [funpack_infinity]

end

/-! ### Signed values -/

section

variable {F : Fmt} {n : Bool} {w : Nat} {a : ℚ}

theorem unitSign_abs (n : Bool) (y : ℚ) : |unitSign n * y| = |y| := by cases n <;> simp [unitSign]

/-- To the nearest, whatever the sign. -/
theorem nearest_signed (ha : 0 ≤ a) (h : NearestMag F a w) (heven : 0 < F.ew + F.fw) {u : Nat} (hu : u < 2 ^ (1 + F.ew + F.fw))
    (hn : funpack F u ≠ .nan) :
    |lineVal F (withSign F n w) - unitSign n * a| ≤ |lineVal F u - unitSign n * a| ∧
    (|lineVal F (withSign F n w) - unitSign n * a| = |lineVal F u - unitSign n * a| → lineVal F u ≠ lineVal F (withSign F n w) →
      withSign F n w % 2 = 0) := by
  obtain ⟨k, c, rfl, hc⟩ := code_cases hu hn
  obtain ⟨hw, hall⟩ := h
  have parity : withSign F n w % 2 = w % 2 := by
    obtain ⟨j, hj⟩ := Nat.exists_eq_succ_of_ne_zero heven.ne'
    rw [withSign, width_pred, hj, pow_succ, ← Nat.mul_assoc]
    omega
  rw [lineVal_withSign n (hw.trans_lt (infBits_lt F)), lineVal_withSign k (hc.trans_lt (infBits_lt F)), parity, ← unitSign, ← unitSign, ← mul_sub,
    unitSign_abs]
  obtain ⟨hle, htie⟩ := hall c hc
  by_cases hk : k = n
  · rw [hk, ← mul_sub, unitSign_abs]
    exact ⟨hle, fun he hne => htie he fun hcw => hne (by rw [hcw])⟩
  · have hc0 := lineAbs_nonneg F c
    obtain ⟨hle0, htie0⟩ := hall 0 (Nat.zero_le _)
    rw [lineAbs_zero, zero_sub, abs_neg, abs_of_nonneg ha] at hle0 htie0
    have hfar : |unitSign k * lineAbs F c - unitSign n * a| = lineAbs F c + a := by
      have : unitSign k = -unitSign n := by cases k <;> cases n <;> simp_all [unitSign]
      rw [this, show -unitSign n * lineAbs F c - unitSign n * a = unitSign n * (-(lineAbs F c + a)) by ring, unitSign_abs, abs_neg,
        abs_of_nonneg (by linarith)]
    rw [hfar]
    refine ⟨by linarith, fun he _ => ?_⟩
    by_cases hw0 : w = 0
    · rw [hw0]
    · exact htie0 (by linarith) (Ne.symm hw0)

/-- The extended value of a code of magnitude c. -/
theorem numeric_cases (k : Bool) {c : Nat} (hc : c ≤ infBits F) :
    (c < infBits F ∧ numeric (funpack F (withSign F k c)) = ((unitSign k * lineAbs F c : ℚ) : WithTop ℚ)) ∨
    (c = infBits F ∧ numeric (funpack F (withSign F k c)) = if k then ⊥ else ⊤) := by
  rcases hc.lt_or_eq with h | rfl
  · exact .inl ⟨h, numeric_code k h⟩
  · refine .inr ⟨rfl, ?_⟩
    rw [funpack_infinity]
    cases k <;> rfl

theorem numeric_le_iff (k : Bool) {c : Nat} (hc : c ≤ infBits F) (y : ℚ) :
    numeric (funpack F (withSign F k c)) ≤ ((y : WithTop ℚ) : WithBot (WithTop ℚ)) ↔
      (c < infBits F ∧ unitSign k * lineAbs F c ≤ y) ∨ (c = infBits F ∧ k = true) := by
  rcases numeric_cases k hc with ⟨h, hv⟩ | ⟨h, hv⟩
  · rw [hv, WithBot.coe_le_coe, WithTop.coe_le_coe]
    simp [h, h.ne]
  · rw [hv]
    cases k
    · simp [h]
    · simp [h]

theorem le_numeric_iff (k : Bool) {c : Nat} (hc : c ≤ infBits F) (y : ℚ) :
    ((y : WithTop ℚ) : WithBot (WithTop ℚ)) ≤ numeric (funpack F (withSign F k c)) ↔
      (c < infBits F ∧ y ≤ unitSign k * lineAbs F c) ∨ (c = infBits F ∧ k = false) := by
  rcases numeric_cases k hc with ⟨h, hv⟩ | ⟨h, hv⟩
  · rw [hv, WithBot.coe_le_coe, WithTop.coe_le_coe]
    simp [h, h.ne]
  · rw [hv]
    cases k
    · simp [h]
    · simp [h]

/-- Codes in order: the negative ones, whose order is turned round, and then the others. -/
theorem numeric_mono {k n : Bool} {c w : Nat} (hc : c ≤ infBits F) (hw : w ≤ infBits F)
    (h : (k = true ∧ n = false) ∨ (k = false ∧ n = false ∧ c ≤ w) ∨ (k = true ∧ n = true ∧ w ≤ c)) :
    numeric (funpack F (withSign F k c)) ≤ numeric (funpack F (withSign F n w)) := by
  have mono {i j : Nat} (hij : i ≤ j) : lineAbs F i ≤ lineAbs F j := (lineAbs_strictMono F).monotone hij
  have hc0 := lineAbs_nonneg F c
  have hw0 := lineAbs_nonneg F w
  rcases h with ⟨rfl, rfl⟩ | ⟨rfl, rfl, hle⟩ | ⟨rfl, rfl, hle⟩
  · rcases numeric_cases true hc with ⟨_, hv⟩ | ⟨_, hv⟩
    · rw [hv, le_numeric_iff _ hw]
      refine hw.lt_or_eq.imp (fun h => ⟨h, ?_⟩) fun h => ⟨h, rfl⟩
      simp only [unitSign, if_true, Bool.false_eq_true, if_false]
      linarith
    · simp [hv]
  · rcases numeric_cases false hc with ⟨_, hv⟩ | ⟨h, hv⟩
    · rw [hv, le_numeric_iff _ hw]
      refine hw.lt_or_eq.imp (fun h => ⟨h, ?_⟩) fun h => ⟨h, rfl⟩
      simpa [unitSign] using mono hle
    · rw [show w = c by omega]
  · rcases numeric_cases true hw with ⟨_, hv⟩ | ⟨h, hv⟩
    · rw [hv, numeric_le_iff _ hc]
      refine hc.lt_or_eq.imp (fun h => ⟨h, ?_⟩) fun h => ⟨h, rfl⟩
      simpa [unitSign] using mono hle
    · rw [show w = c by omega]

variable (F) in
/-- v is the largest number that is at most x. -/
def IsFloor (x : ℚ) (v : Nat) : Prop := numeric (funpack F v) ≤ ((x : WithTop ℚ) : WithBot (WithTop ℚ)) ∧
  ∀ u, u < 2 ^ (1 + F.ew + F.fw) ∧ funpack F u ≠ .nan → numeric (funpack F u) ≤ ((x : WithTop ℚ) : WithBot (WithTop ℚ)) →
    numeric (funpack F u) ≤ numeric (funpack F v)

variable (F) in
/-- v is the smallest number that is at least x. -/
def IsCeil (x : ℚ) (v : Nat) : Prop := ((x : WithTop ℚ) : WithBot (WithTop ℚ)) ≤ numeric (funpack F v) ∧
  ∀ u, u < 2 ^ (1 + F.ew + F.fw) ∧ funpack F u ≠ .nan → ((x : WithTop ℚ) : WithBot (WithTop ℚ)) ≤ numeric (funpack F u) →
    numeric (funpack F v) ≤ numeric (funpack F u)

theorem floor_below (h : BelowMag F a w) : IsFloor F (unitSign false * a) (withSign F false w) := by
  obtain ⟨hw, hle, hall⟩ := h
  refine ⟨(numeric_le_iff _ hw.le _).2 (.inl ⟨hw, by simpa [unitSign] using hle⟩), fun u ⟨hu, hn⟩ hx => ?_⟩
  obtain ⟨k, c, rfl, hc⟩ := code_cases hu hn
  rw [numeric_le_iff _ hc] at hx
  refine numeric_mono hc hw.le ?_
  cases k
  · rcases hx with ⟨hlt, hx⟩ | ⟨_, hk⟩
    · exact .inr (.inl ⟨rfl, rfl, hall c hlt (by simpa [unitSign] using hx)⟩)
    · cases hk
  · exact .inl ⟨rfl, rfl⟩

theorem floor_above (h : AboveMag F a w) (ha : 0 < a) : IsFloor F (unitSign true * a) (withSign F true w) := by
  obtain ⟨hw, hle, hall⟩ := h
  refine ⟨(numeric_le_iff _ hw _).2 (hw.lt_or_eq.imp (fun h => ⟨h, by simpa [unitSign] using hle h⟩) fun h => ⟨h, rfl⟩),
    fun u ⟨hu, hn⟩ hx => ?_⟩
  obtain ⟨k, c, rfl, hc⟩ := code_cases hu hn
  rw [numeric_le_iff _ hc] at hx
  refine numeric_mono hc hw ?_
  have hc0 := lineAbs_nonneg F c
  cases k
  · rcases hx with ⟨_, hx⟩ | ⟨_, hk⟩
    · simp only [unitSign, if_true, Bool.false_eq_true, if_false] at hx
      linarith
    · cases hk
  · rcases hx with ⟨hlt, hx⟩ | ⟨he, _⟩
    · exact .inr (.inr ⟨rfl, rfl, hall c hlt (by simpa [unitSign] using hx)⟩)
    · exact .inr (.inr ⟨rfl, rfl, he ▸ hw⟩)

theorem ceil_below (h : BelowMag F a w) : IsCeil F (unitSign true * a) (withSign F true w) := by
  obtain ⟨hw, hle, hall⟩ := h
  refine ⟨(le_numeric_iff _ hw.le _).2 (.inl ⟨hw, by simpa [unitSign] using hle⟩), fun u ⟨hu, hn⟩ hx => ?_⟩
  obtain ⟨k, c, rfl, hc⟩ := code_cases hu hn
  rw [le_numeric_iff _ hc] at hx
  refine numeric_mono hw.le hc ?_
  cases k
  · exact .inl ⟨rfl, rfl⟩
  · rcases hx with ⟨hlt, hx⟩ | ⟨_, hk⟩
    · exact .inr (.inr ⟨rfl, rfl, hall c hlt (by simpa [unitSign] using hx)⟩)
    · cases hk

theorem ceil_above (h : AboveMag F a w) (ha : 0 < a) : IsCeil F (unitSign false * a) (withSign F false w) := by
  obtain ⟨hw, hle, hall⟩ := h
  refine ⟨(le_numeric_iff _ hw _).2 (hw.lt_or_eq.imp (fun h => ⟨h, by simpa [unitSign] using hle h⟩) fun h => ⟨h, rfl⟩),
    fun u ⟨hu, hn⟩ hx => ?_⟩
  obtain ⟨k, c, rfl, hc⟩ := code_cases hu hn
  rw [le_numeric_iff _ hc] at hx
  refine numeric_mono hw hc ?_
  have hc0 := lineAbs_nonneg F c
  cases k
  · rcases hx with ⟨hlt, hx⟩ | ⟨he, _⟩
    · exact .inr (.inl ⟨rfl, rfl, hall c hlt (by simpa [unitSign] using hx)⟩)
    · exact .inr (.inl ⟨rfl, rfl, he ▸ hw⟩)
  · rcases hx with ⟨_, hx⟩ | ⟨_, hk⟩
    · simp only [unitSign, if_true, Bool.false_eq_true, if_false] at hx
      linarith
    · cases hk

/-- A zero is exact in every direction. -/
theorem zero_exact (n : Bool) (hinf : 0 < infBits F) : IsFloor F 0 (withSign F n 0) ∧ IsCeil F 0 (withSign F n 0) := by
  have hv : numeric (funpack F (withSign F n 0)) = ((0 : ℚ) : WithTop ℚ) := by rw [numeric_code n hinf, lineAbs_zero, mul_zero]
  rw [IsFloor, IsCeil, hv]
  exact ⟨⟨le_rfl, fun _ _ h => h⟩, ⟨le_rfl, fun _ _ h => h⟩⟩

end

/-! ### The value of a packed code -/

theorem packed_le {F : Fmt} (rm : Nat) (neg : Bool) (code : Nat) : packed F rm neg code ≤ infBits F := by
  unfold packed
  split
  · omega
  · split <;> omega

theorem fpack_code (F : Fmt) (rm : Nat) (neg : Bool) {m : Nat} (e : ℤ) (hm : m ≠ 0) : ∃ w ≤ infBits F, fpack F rm neg m e = withSign F neg w :=
  ⟨_, packed_le .., fpack_eq F rm neg m e hm⟩

/-- A packed value has the sign it was given. -/
theorem fpack_sign (F : Fmt) (rm : Nat) (neg : Bool) (m : Nat) (e : ℤ) : ∃ w ≤ infBits F, fpack F rm neg m e = withSign F neg w := by
  by_cases hm : m = 0
  · exact ⟨0, Nat.zero_le _, if_pos hm⟩
  · exact fpack_code F rm neg e hm

section

variable {F : Fmt} (hf : 0 < F.fw) (he : 0 < F.ew)
include hf he

omit hf in
theorem infBits_pos : 0 < infBits F := by
  rw [infBits]
  exact Nat.mul_pos (Nat.sub_pos_of_lt (Nat.one_lt_two_pow he.ne')) (Nat.two_pow_pos _)

/-- What fpack gives is the value rounded. -/
theorem rounds_fpack (rm : Nat) (n : Bool) (m : Nat) (e : ℤ) : rounds F rm (unitSign n * (m * 2 ^ e)) (fpack F rm n m e) := by
  have hinf := infBits_pos he
  by_cases hm : m = 0
  · have hz : fpack F rm n m e = withSign F n 0 := if_pos hm
    have hx : unitSign n * ((m : ℚ) * 2 ^ e) = 0 := by simp [hm]
    rw [hz, hx]
    have hzero : lineVal F (withSign F n 0) = 0 := by
      rw [lineVal_withSign n (Nat.two_pow_pos _), lineAbs_zero, mul_zero]
    refine ⟨withSign_number n hinf.le, fun h => absurd rfl h, fun _ u _ => ?_, fun _ => (zero_exact n hinf).1, fun _ => (zero_exact n hinf).2⟩
    rw [hzero, sub_zero, sub_zero, abs_zero]
    exact ⟨abs_nonneg _, fun h hne => absurd (abs_eq_zero.1 h.symm) hne⟩
  · have ha : (0 : ℚ) < m * 2 ^ e := by positivity
    have hneg : unitSign n * ((m : ℚ) * 2 ^ e) < 0 ↔ n = true := by
      cases n
      · simpa [unitSign] using ha.le
      · simpa [unitSign] using ha
    obtain ⟨w, hw, hv⟩ := fpack_code F rm n e hm
    refine ⟨?_, fun _ => ?_, ?_, fun hrm => ?_, fun hrm => ?_⟩
    · rw [hv]
      exact withSign_number n hw
    · rw [hv, show 1 + F.ew + F.fw - 1 = F.ew + F.fw by omega, withSign_testBit n (hw.trans_lt (infBits_lt F)),
        ← Bool.coe_iff_coe, decide_eq_true_iff]
      exact hneg.symm
    · rintro rfl u ⟨hu, hn⟩
      obtain ⟨w, hv, hnear⟩ := fpack_nearest F n e hm hf
      rw [hv]
      exact nearest_signed ha.le hnear (by omega) hu hn
    · cases n
      · obtain ⟨w, hv, hb⟩ := fpack_below F rm false e hm hinf (hrm.symm.imp And.left fun h => .inl ⟨h, rfl⟩)
        rw [hv]
        exact floor_below hb
      · have hdown : rm = 2 := hrm.resolve_right fun h => h.2.not_gt (hneg.2 rfl)
        obtain ⟨w, hv, hb⟩ := fpack_above F rm true e hm (.inl ⟨hdown, rfl⟩)
        rw [hv]
        exact floor_above hb ha
    · cases n
      · have hup : rm = 3 := hrm.resolve_right fun h => Bool.false_ne_true (hneg.1 h.2)
        obtain ⟨w, hv, hb⟩ := fpack_above F rm false e hm (.inr ⟨hup, rfl⟩)
        rw [hv]
        exact ceil_above hb ha
      · obtain ⟨w, hv, hb⟩ := fpack_below F rm true e hm hinf (hrm.symm.imp And.left fun h => .inr ⟨h, rfl⟩)
        rw [hv]
        exact ceil_below hb

end

end Sys2Proof.Machine
end

