-- ==== Sys2Proof/Proofs/IntRounds.lean ====
section
/-!
Integers: a value rounded to one and held in its range (R23, R125).
-/

namespace Sys2Proof.Machine
open FmtOps

/-! ### Values -/

theorem rat_fin (n : Bool) (m : Nat) (e : ℤ) : (FVal.fin n m e).rat = unitSign n * (m * 2 ^ e) := by
  rw [FVal.rat, signed_eq_mul, unitSign]
  push_cast
  rw [mul_assoc]

theorem rat_funpack {F : Fmt} {v : Nat} (h : expField F v ≠ 2 ^ F.ew - 1) : (funpack F v).rat = lineVal F v := by
  rw [funpack_finite h, rat_fin, unitSign, lineVal, significand, scale, expField]
  push_cast
  rfl

theorem rat_dm8Val (c : Nat) : (dm8Val c).rat = dm8Value c := by
  rw [dm8Val_parts, rat_fin, ← dm8Abs_parts, dm8Value_abs]
  by_cases h : c % 128 = 0
  · simp [h, dm8Abs]
  · rw [decide_eq_true h, Bool.true_and, unitSign]

theorem rat_int (i e : ℤ) : (FVal.fin (decide (i < 0)) i.natAbs e).rat = i * 2 ^ e := by rw [FVal.rat, signed_natAbs]

theorem abs_rat (n : Bool) (m : Nat) (e : ℤ) : |(FVal.fin n m e).rat| = m * 2 ^ e := by
  rw [rat_fin, unitSign_abs, abs_of_nonneg (by positivity)]

/-- Packing an integer and a scale. -/
theorem rounds_fpackInt {F : Fmt} (hf : 0 < F.fw) (he : 0 < F.ew) (rm : Nat) (z : Bool) (i e : ℤ) :
    rounds F rm (i * 2 ^ e) (fpackInt F rm z i e) := by
  rw [fpackInt]
  split
  · next h =>
    have := rounds_fpack hf he rm z 0 0
    rw [fpack, if_pos rfl] at this
    simpa [h] using this
  · rw [← rat_int, rat_fin]
    exact rounds_fpack hf he ..

/-! ### Rounding -/

theorem froundInt_units (rm : Nat) (n : Bool) (m : Nat) (e : ℤ) : froundInt rm n m e = signed n (roundedUnits rm n 0 e m) := by
  rw [froundInt, roundedUnits, sub_zero, zero_sub]

/-- What is rounded away from zero is the value or the next integer. -/
theorem awayUnits {rm : Nat} {n : Bool} (h : (rm = 2 ∧ n = true) ∨ (rm = 3 ∧ n = false)) (m : Nat) (e : ℤ) :
    m * (2 : ℚ) ^ e ≤ roundedUnits rm n 0 e m ∧ (roundedUnits rm n 0 e m : ℚ) - 1 < m * 2 ^ e := by
  obtain ⟨hlo, hhi⟩ := wholeUnits_value 0 e m
  rw [roundedUnits_away h]
  rw [zpow_zero, mul_one] at *
  split
  · next he => exact ⟨he.ge, by linarith⟩
  · next he =>
    push_cast
    refine ⟨by linarith, ?_⟩
    rw [add_sub_cancel_right]
    exact lt_of_le_of_ne hlo he

theorem towardUnits {rm : Nat} {n : Bool} (h : rm = 1 ∨ (rm = 2 ∧ n = false) ∨ (rm = 3 ∧ n = true)) (m : Nat) (e : ℤ) :
    (roundedUnits rm n 0 e m : ℚ) ≤ m * 2 ^ e ∧ m * (2 : ℚ) ^ e < roundedUnits rm n 0 e m + 1 := by
  have h0 := wholeUnits_value 0 e m
  rw [zpow_zero, mul_one, mul_one] at h0
  rwa [roundedUnits_toward h]

theorem roundsInt_fround (rm : Nat) (n : Bool) (m : Nat) (e : ℤ) : roundsInt rm (FVal.fin n m e).rat (froundInt rm n m e) := by
  rw [rat_fin, froundInt_units]
  have hcast (r : Nat) : ((signed n r : ℤ) : ℚ) = unitSign n * r := by
    rw [signed_eq_mul, unitSign]
    push_cast
    rfl
  have ha : (0 : ℚ) ≤ m * 2 ^ e := by positivity
  simp only [roundsInt, hcast]
  refine ⟨?_, fun hrm => ?_, fun hrm => ?_⟩
  · rintro rfl
    have hnear := roundedUnits_nearest n 0 e m
    rw [zpow_zero, mul_one, abs_sub_comm] at hnear
    rw [← mul_sub, unitSign_abs]
    refine hnear.imp_right fun htie h => ?_
    have := htie h
    cases n <;> simp only [signed] <;> grind
  · cases n
    · have := towardUnits (rm := rm) (n := false) (hrm.symm.imp And.left fun h => .inl ⟨h, rfl⟩) m e
      simpa [unitSign] using this
    · rcases hrm with rfl | ⟨rfl, hx⟩
      · obtain ⟨h1, h2⟩ := awayUnits (.inl ⟨rfl, rfl⟩) m e
        simp only [unitSign, if_true]
        exact ⟨by linarith, by linarith⟩
      · obtain ⟨h1, h2⟩ := towardUnits (n := true) (.inl rfl) m e
        simp only [unitSign, if_true] at hx ⊢
        exact ⟨by linarith, by linarith⟩
  · cases n
    · have hup : rm = 3 := hrm.resolve_right fun h => by
        simp only [unitSign, Bool.false_eq_true, if_false, one_mul] at h
        linarith
      have := awayUnits (.inr ⟨hup, rfl⟩) m e
      simpa [unitSign] using this
    · obtain ⟨h1, h2⟩ := towardUnits (rm := rm) (n := true) (hrm.symm.imp And.left fun h => .inr ⟨h, rfl⟩) m e
      simp only [unitSign, if_true]
      exact ⟨by linarith, by linarith⟩

/-! ### Ranges -/

/-- The integer of a range that is nearest to i (R23). -/
def clampInt (w : Nat) (sg : Bool) (i : ℤ) : ℤ :=
  if sg then max (-2 ^ (w - 1)) (min (2 ^ (w - 1) - 1) i) else max 0 (min (2 ^ w - 1) i)

/-- The value of w bits. -/
def intVal (w : Nat) (sg : Bool) (r : Nat) : ℤ := if sg then sval w r else r

theorem sat_eq (w : Nat) (sg : Bool) (i : ℤ) : (if sg then satS w i else satU w i) = clampInt w sg i := by
  rw [clampInt, satS, satU]
  push_cast
  rfl

theorem wrap_lt (w : Nat) (i : ℤ) : wrap w i < 2 ^ w := by
  have := Int.emod_lt_of_pos i (b := (2 ^ w : Nat)) (by positivity)
  have := Int.emod_nonneg i (b := (2 ^ w : Nat)) (by positivity)
  rw [wrap]
  omega

theorem wrap_small {w i : Nat} (h : i < 2 ^ w) : wrap w i = i := by
  rw [wrap, Int.emod_eq_of_lt (by positivity) (by exact_mod_cast h), Int.toNat_natCast]

theorem intVal_wrap_clamp {w : Nat} (hw : 0 < w) (sg : Bool) (i : ℤ) : intVal w sg (wrap w (clampInt w sg i)) = clampInt w sg i := by
  obtain ⟨k, rfl⟩ := Nat.exists_eq_succ_of_ne_zero hw.ne'
  have hpos (n : Nat) : (0 : ℤ) < 2 ^ n := by positivity
  have := hpos k
  have := hpos (k + 1)
  rw [intVal, clampInt]
  cases sg
  · simp only [Bool.false_eq_true, if_false, Nat.succ_eq_add_one]
    obtain ⟨j, hj⟩ := Int.eq_ofNat_of_zero_le (a := max 0 (min (2 ^ (k + 1) - 1) i)) (le_max_left ..)
    have : j < 2 ^ (k + 1) := by
      zify
      omega
    rw [hj, wrap_small this]
  · simp only [if_true, Nat.succ_eq_add_one, Nat.add_sub_cancel]
    exact sval_wrap (by omega) (by omega)

/-- A finite value into an integer. -/
theorem toIntVal_fin {w : Nat} (hw : 0 < w) (sg : Bool) (rm : Nat) (n : Bool) (m : Nat) (e : ℤ) :
    ∃ r i, toIntVal w sg rm (.fin n m e) = (r, .none) ∧ roundsInt rm (FVal.fin n m e).rat i ∧ r < 2 ^ w ∧ intVal w sg r = clampInt w sg i := by
  refine ⟨_, _, rfl, roundsInt_fround rm n m e, ?_⟩
  rw [sat_eq]
  exact ⟨wrap_lt .., intVal_wrap_clamp hw ..⟩

/-- An infinity into an integer: the end of the range. -/
theorem toIntVal_inf {w : Nat} (hw : w ∈ [8, 16, 32, 64]) (sg : Bool) (rm : Nat) (n : Bool) :
    ∃ r, toIntVal w sg rm (.inf n) = (r, .inf) ∧ r < 2 ^ w ∧ intVal w sg r = clampInt w sg (if n then -2 ^ 64 else 2 ^ 64) := by
  refine ⟨_, rfl, ?_⟩
  simp only [List.mem_cons, List.not_mem_nil, or_false] at hw
  rcases hw with rfl | rfl | rfl | rfl <;> cases sg <;> cases n <;> decide

end Sys2Proof.Machine
end

