-- ==== Sys2Proof/Proofs/Dm8Rounds.lean ====
section
/-!
The DM8 code nearest to a value (R22).
-/

namespace Sys2Proof.Machine
open FmtOps

/-! ### Magnitudes of codes -/

theorem dm8Parts_low (m : Nat) : -16 ≤ (dm8Parts m).2 := by
  have row (q : Nat) (a b c d : ℤ) (k : ℤ) (ha : k ≤ a) (hb : k ≤ b) (hc : k ≤ c) (hd : k ≤ d) : k ≤ [a, b, c, d].getD (q % 4) 0 := by
    rw [getD_four]
    split <;> assumption
  unfold dm8Parts
  split_ifs <;> dsimp only
  · have := row (m / 2 ^ 4) (-2) (-1) 0 1 (-2) (by omega) (by omega) (by omega) (by omega)
    omega
  · have := row (m / 2 ^ 3) (-4) (-3) 2 3 (-4) (by omega) (by omega) (by omega) (by omega)
    omega
  · have := row (m / 2 ^ 2) (-6) (-5) 4 5 (-6) (by omega) (by omega) (by omega) (by omega)
    omega
  · have := row (m / 2 ^ 1) (-8) (-7) 6 7 (-8) (by omega) (by omega) (by omega) (by omega)
    omega
  · have := row (m / 2 ^ 0) (-10) (-9) 8 9 (-10) (by omega) (by omega) (by omega) (by omega)
    omega
  all_goals omega

theorem dm8Abs_mag (c : Nat) : dm8Abs (c % 128) = dm8Mag c * (2 : ℚ) ^ (-16 : ℤ) := by
  have hlow := dm8Parts_low (c % 128)
  rw [dm8Mag, dm8Val_parts, Nat.mod_mod, dm8Abs_parts]
  push_cast
  rw [mul_assoc, ← zpow_natCast (2 : ℚ), ← zpow_add₀ (by norm_num)]
  congr 2
  omega

theorem dm8Value_small {c : Nat} (h : c < 128) : dm8Value c = dm8Mag c * (2 : ℚ) ^ (-16 : ℤ) := by
  rw [dm8Value_abs, Nat.testBit_lt_two_pow (i := 7) (by omega), dm8Abs_mag]
  simp

/-- The codes of 1 to 127 stand for different magnitudes. -/
theorem dm8Mag_injective {c d : Nat} (hc : c < 128) (hd : d < 128) (h : dm8Mag c = dm8Mag d) : c = d := by
  have nodup : ((List.range 128).map dm8Mag).Nodup := by decide +kernel
  exact List.inj_on_of_nodup_map nodup (List.mem_range.2 hc) (List.mem_range.2 hd) h

/-! ### The better code -/

/-- c comes before d for the magnitude a: nearer, then bit 0 clear, then the smaller (R22). -/
def Dm8Before (a : ℚ) (c d : Nat) : Prop := |dm8Value c - a| < |dm8Value d - a| ∨
  (|dm8Value c - a| = |dm8Value d - a| ∧ ((c % 2 = 0 ∧ d % 2 = 1) ∨ (c % 2 = d % 2 ∧ dm8Value c < dm8Value d)))

theorem Dm8Before.trans {a : ℚ} {b c d : Nat} (h1 : Dm8Before a b c) (h2 : Dm8Before a c d) : Dm8Before a b d := by
  unfold Dm8Before at *
  grind

/-- How far below the unit of the codes the last place of m × 2^e is, and the distance of a code from it in that place. -/
def dm8Shift (e : ℤ) : Nat := (max 0 (-(e + 16))).toNat
@[inherit_doc dm8Shift] def dm8Off (m : Nat) (e : ℤ) (c : Nat) : Nat :=
  (((m * 2 ^ (e + 16 + dm8Shift e).toNat : Nat) : ℤ) - dm8Mag c * 2 ^ dm8Shift e).natAbs

theorem dm8Better_eq (m : Nat) (e : ℤ) (c d : Nat) : dm8Better m e c d =
    if dm8Off m e c < dm8Off m e d then c else if dm8Off m e d < dm8Off m e c then d
    else if c % 2 ≠ d % 2 then (if c % 2 = 0 then c else d)
    else if dm8Mag c < dm8Mag d then c else d := rfl

theorem dm8Value_off {c : Nat} (hc : c < 128) (m : Nat) (e : ℤ) :
    |dm8Value c - m * 2 ^ e| = dm8Off m e c * (2 : ℚ) ^ (-16 - dm8Shift e : ℤ) := by
  have hs : e = ((e + 16 + dm8Shift e).toNat : ℤ) + (-16 - dm8Shift e) := by
    rw [dm8Shift]
    omega
  rw [dm8Off]
  generalize dm8Shift e = s at *
  have hpos : (0 : ℚ) < 2 ^ (-16 - s : ℤ) := by positivity
  have hcode : (2 : ℚ) ^ (-16 : ℤ) = 2 ^ s * 2 ^ (-16 - s : ℤ) := by
    rw [← zpow_natCast (2 : ℚ) s, ← zpow_add₀ (by norm_num)]
    congr 1
    omega
  have hval : (m : ℚ) * 2 ^ e = (m * 2 ^ (e + 16 + s).toNat) * 2 ^ (-16 - s : ℤ) := by
    conv_lhs => rw [hs, zpow_add₀ (by norm_num), zpow_natCast]
    ring
  rw [dm8Value_small hc, hcode, hval, ← mul_assoc, ← sub_mul, abs_mul, abs_of_pos hpos, abs_sub_comm, Nat.cast_natAbs]
  push_cast
  rfl

/-- The order of codes for a magnitude in the numbers that the model compares. -/
theorem dm8Before_iff {c d : Nat} (hc : c < 128) (hd : d < 128) (m : Nat) (e : ℤ) : Dm8Before (m * 2 ^ e) c d ↔
    dm8Off m e c < dm8Off m e d ∨
      (dm8Off m e c = dm8Off m e d ∧ ((c % 2 = 0 ∧ d % 2 = 1) ∨ (c % 2 = d % 2 ∧ dm8Mag c < dm8Mag d))) := by
  have hpos : (0 : ℚ) < 2 ^ (-16 - dm8Shift e : ℤ) := by positivity
  have hunit : (0 : ℚ) < 2 ^ (-16 : ℤ) := by positivity
  rw [Dm8Before, dm8Value_off hc, dm8Value_off hd, mul_lt_mul_iff_of_pos_right hpos, mul_left_inj' hpos.ne', Nat.cast_lt, Nat.cast_inj,
    dm8Value_small hc, dm8Value_small hd, mul_lt_mul_iff_of_pos_right hunit, Nat.cast_lt]

/-- Of two codes one comes first, and the model takes it. -/
theorem dm8Better_before {c d : Nat} (hc : c < 128) (hd : d < 128) (hne : c ≠ d) (m : Nat) (e : ℤ) :
    (dm8Better m e c d = c ∧ Dm8Before (m * 2 ^ e) c d) ∨ (dm8Better m e c d = d ∧ Dm8Before (m * 2 ^ e) d c) := by
  have hmag : dm8Mag c ≠ dm8Mag d := fun h => hne (dm8Mag_injective hc hd h)
  rw [dm8Before_iff hc hd, dm8Before_iff hd hc, dm8Better_eq]
  grind

/-! ### The search -/

theorem dm8Search_first (m : Nat) (e : ℤ) : ∀ n best, n < 128 → 1 ≤ best → best < 128 →
    (∀ d, n < d → d < 128 → d ≠ best → Dm8Before (m * 2 ^ e) best d) →
    1 ≤ dm8Search m e n best ∧ dm8Search m e n best < 128 ∧
      ∀ d, 1 ≤ d → d < 128 → d ≠ dm8Search m e n best → Dm8Before (m * 2 ^ e) (dm8Search m e n best) d := by
  intro n
  induction n with
  | zero => exact fun best _ h1 h128 hbest => ⟨h1, h128, hbest⟩
  | succ n ih =>
    intro best hn h1 h128 hbest
    rw [dm8Search]
    by_cases heq : n + 1 = best
    · have hself : dm8Better m e (n + 1) best = best := by
        rw [heq]
        simp [dm8Better]
      rw [hself]
      exact ih best (by omega) h1 h128 fun d hd hd128 hne => hbest d (by omega) hd128 hne
    · rcases dm8Better_before hn h128 heq m e with ⟨hb, hbefore⟩ | ⟨hb, hbefore⟩
      · rw [hb]
        refine ih _ (by omega) (by omega) hn fun d hd hd128 hne => ?_
        by_cases hdb : d = best
        · rwa [hdb]
        · exact hbefore.trans (hbest d (by omega) hd128 hdb)
      · rw [hb]
        refine ih _ (by omega) h1 h128 fun d hd hd128 hne => ?_
        by_cases hdn : d = n + 1
        · rwa [hdn]
        · exact hbest d (by omega) hd128 hne

/-! ### The conversion -/

theorem ltPow_iff {m : Nat} {e k : ℤ} : ltPow m e k = true ↔ (m : ℚ) * 2 ^ e < 2 ^ k := by
  rw [ltPow, Bool.or_eq_true, decide_eq_true_eq, decide_eq_true_eq]
  by_cases hm : m = 0
  · simp [hm]
    positivity
  have hsplit : (2 : ℚ) ^ k = 2 ^ (k - e) * 2 ^ e := by rw [← zpow_add₀ (by norm_num), sub_add_cancel]
  have hpos : (0 : ℚ) < 2 ^ e := by positivity
  rw [hsplit, mul_lt_mul_iff_of_pos_right hpos, or_iff_right hm]
  obtain ⟨l, hl⟩ := Nat.exists_eq_succ_of_ne_zero (bitlen_pos hm).ne'
  have hlt := lt_two_pow_bitlen m
  have hge := two_pow_bitlen_le hm
  rw [hl, pow_succ] at *
  have hlo : (2 : ℚ) ^ (l : ℤ) ≤ m := by
    rw [zpow_natCast]
    exact_mod_cast (by omega : 2 ^ l ≤ m)
  have hhi : (m : ℚ) < 2 ^ ((l + 1 : Nat) : ℤ) := by
    rw [zpow_natCast, pow_succ]
    exact_mod_cast hlt
  constructor
  · intro h
    exact hhi.trans_le (zpow_le_zpow_right₀ (by norm_num) (by push_cast at *; omega))
  · intro h
    have := (zpow_lt_zpow_iff_right₀ (by norm_num : (1 : ℚ) < 2)).1 (hlo.trans_lt h)
    push_cast
    omega

/-- The sign of a value that is not zero. -/
theorem rat_neg_iff {n : Bool} {m : Nat} {e : ℤ} (hm : m ≠ 0) : (FVal.fin n m e).rat < 0 ↔ n = true := by
  have ha : (0 : ℚ) < m * 2 ^ e := by positivity
  rw [rat_fin]
  cases n
  · simpa [unitSign] using ha.le
  · simpa [unitSign] using ha

theorem roundsDm8_toDm8 (n : Bool) (m : Nat) (e : ℤ) : roundsDm8 (FVal.fin n m e).rat (toDm8 (.fin n m e)).1 := by
  have lt (k : ℤ) : ltPow m e k = true ↔ (m : ℚ) * 2 ^ e < 2 ^ k := ltPow_iff
  have notLt (k : ℤ) : (!ltPow m e k) = true ↔ (2 : ℚ) ^ k ≤ m * 2 ^ e := by
    rw [Bool.not_eq_true', ← Bool.not_eq_true, lt, not_lt]
  have hsign (h : (0 : ℚ) < m * 2 ^ e) : 128 * b2n n = if (FVal.fin n m e).rat < 0 then 128 else 0 := by
    have hm : m ≠ 0 := by
      rintro rfl
      simp at h
    rw [if_congr (rat_neg_iff hm) rfl rfl]
    cases n <;> rfl
  have hpos (k : ℤ) : (0 : ℚ) < 2 ^ k := by positivity
  have mono : (2 : ℚ) ^ (-13 : ℤ) < 2 ^ (-12 : ℤ) ∧ (2 : ℚ) ^ (-12 : ℤ) < 2 ^ (10 : ℤ) := by norm_num
  simp only [roundsDm8, abs_rat, toDm8, lt, notLt]
  rw [show (1024 : ℚ) = 2 ^ (10 : ℤ) by norm_num]
  refine ⟨fun h => if_pos h, fun h1 h2 => ?_, fun h => ?_, fun h1 h2 => ?_⟩
  · rw [if_neg h1.not_gt, if_pos h2, hsign ((hpos _).trans_le h1), Nat.add_comm]
  · have hp := (hpos _).trans_le h
    rw [if_neg (mono.1.trans (mono.2.trans_le h)).not_gt, if_neg (mono.2.trans_le h).not_gt, if_pos h, hsign hp, Nat.add_comm]
  · obtain ⟨hc1, hc128, hall⟩ := dm8Search_first m e 127 1 (by omega) (by omega) (by omega) (by omega)
    rw [if_neg (mono.1.trans_le h1).not_gt, if_neg h1.not_gt, if_neg h2.not_ge, hsign ((hpos _).trans_le h1)]
    exact ⟨_, hc1, hc128, Nat.add_comm .., hall⟩

end Sys2Proof.Machine
end

