-- ==== Sys2Proof/Proofs/Converts.lean ====
section
/-!
The conversion of one element between the thirteen formats (R19 to R23, R201).
-/

namespace Sys2Proof.Machine
open FmtOps

/-! ### Codes that are no numbers -/

section

variable {F : Fmt} {v : Nat}

theorem mod_fields (F : Fmt) (v : Nat) : v % 2 ^ (F.ew + F.fw) = v % 2 ^ F.fw + 2 ^ F.fw * expField F v := by
  rw [Nat.add_comm F.ew, pow_add, Nat.mod_mul, expField]

theorem funpack_nan (h : funpack F v = .nan) : expField F v = 2 ^ F.ew - 1 := by
  by_contra hx
  rw [funpack_finite hx] at h
  cases h

theorem funpack_inf (h : v % 2 ^ (F.ew + F.fw) = infBits F) : funpack F v = .inf (v.testBit (F.ew + F.fw)) := by
  have hf : v % 2 ^ F.fw = 0 := by
    have := congrArg (· % 2 ^ F.fw) h
    simpa [pow_add, Nat.mod_mul_left_mod, infBits] using this
  have hx : expField F v = 2 ^ F.ew - 1 := by
    rw [mod_fields, hf, Nat.zero_add, infBits, Nat.mul_comm] at h
    exact Nat.eq_of_mul_eq_mul_right (Nat.two_pow_pos _) h
  rw [funpack_special hx, if_pos hf]

/-- A code that is neither a NaN nor an infinity is finite. -/
theorem finite_of_number (hn : funpack F v ≠ .nan) (hi : v % 2 ^ (F.ew + F.fw) ≠ infBits F) : expField F v ≠ 2 ^ F.ew - 1 := by
  intro hx
  rw [funpack_special hx] at hn
  by_cases hf : v % 2 ^ F.fw = 0
  · exact hi (by rw [mod_fields, hf, hx, Nat.zero_add, infBits, Nat.mul_comm])
  · exact hn (if_neg hf)

theorem fneg_testBit (F : Fmt) (v : Nat) : fneg F v = v.testBit (F.ew + F.fw) := by rw [fneg, bit_testBit, width_pred]

theorem withSign_mag (n : Bool) {c : Nat} (hc : c < 2 ^ (F.ew + F.fw)) : withSign F n c % 2 ^ (F.ew + F.fw) = c := by
  rw [withSign, width_pred, Nat.add_mul_mod_self_right, Nat.mod_eq_of_lt hc]

theorem withSign_zero (F : Fmt) : withSign F false 0 = 0 := by simp [withSign, b2n]

end

/-! ### The rows of the table of R201 -/

section

variable (rm v : Nat) (w w' : Nat) (sg sg' : Bool) (F G : Fmt)

theorem convert_self {e : Elem} (h : v < 2 ^ elemWidth e) : convert e e rm v = (v, .none) := by
  rw [convert.eq_def, if_pos rfl, Nat.mod_eq_of_lt h]

/-- The integer that an element of an integer format stands for. -/
def elemInt : ℤ := if sg then sval w v else (v % 2 ^ w : Nat)

theorem convert_int_int (h : Elem.int w sg ≠ .int w' sg') (hw : 0 < w') :
    ∃ r, convert (.int w sg) (.int w' sg') rm v = (r, .none) ∧ r < 2 ^ w' ∧ intVal w' sg' r = clampInt w' sg' (elemInt v w sg) := by
  refine ⟨_, if_neg h, ?_⟩
  rw [sat_eq]
  exact ⟨wrap_lt .., intVal_wrap_clamp hw ..⟩

theorem convert_int_fp (hf : 0 < F.fw) (he : 0 < F.ew) :
    ∃ r, convert (.int w sg) (.fp F) rm v = (r, .none) ∧ rounds F rm (elemInt v w sg) r ∧ (elemInt v w sg = 0 → r = 0) := by
  refine ⟨_, if_neg nofun, ?_, fun h => ?_⟩
  · have := rounds_fpackInt hf he rm false (elemInt v w sg) 0
    rwa [zpow_zero, mul_one] at this
  · exact (if_pos h).trans (withSign_zero F)

theorem convert_int_dm8 : ∃ r, convert (.int w sg) .dm8 rm v = (r, .none) ∧ roundsDm8 (elemInt v w sg) r := by
  refine ⟨_, if_neg nofun, ?_⟩
  have := roundsDm8_toDm8 (decide (elemInt v w sg < 0)) (elemInt v w sg).natAbs 0
  rwa [rat_int, zpow_zero, mul_one] at this

theorem convert_dm8_int (hw : 0 < w') : ∃ r i, convert .dm8 (.int w' sg') rm v = (r, .none) ∧ roundsInt rm (dm8Value v) i ∧
    r < 2 ^ w' ∧ intVal w' sg' r = clampInt w' sg' i := by
  have hconv : convert .dm8 (.int w' sg') rm v = toIntVal w' sg' rm (dm8Val v) := if_neg nofun
  rw [hconv, ← rat_dm8Val, dm8Val_parts]
  exact toIntVal_fin hw ..

theorem convert_dm8_fp (hf : 0 < F.fw) (he : 0 < F.ew) :
    ∃ r, convert .dm8 (.fp F) rm v = (r, .none) ∧ rounds F rm (dm8Value v) r ∧ (dm8Value v = 0 → r = 0) := by
  have hconv : convert .dm8 (.fp F) rm v = match dm8Val v with | .fin n m e => (fpack F rm n m e, .none) | _ => (0, .none) := if_neg nofun
  rw [hconv, ← rat_dm8Val, dm8Val_parts]
  refine ⟨_, rfl, ?_, fun h => ?_⟩
  · rw [rat_fin]
    exact rounds_fpack hf he ..
  · have hm : (dm8Parts (v % 128)).1 = 0 := by
      rw [← abs_eq_zero, abs_rat] at h
      exact_mod_cast (mul_eq_zero.1 h).resolve_right (by positivity)
    have hsign : (decide (v % 128 ≠ 0) && v.testBit 7) = false := by simp [dm8Parts_zero.1 hm]
    rw [hm, hsign]
    exact (if_pos rfl).trans (withSign_zero F)

theorem convert_fp_dm8 : convert (.fp F) .dm8 rm v = toDm8 (funpack F v) := if_neg nofun

theorem convert_fp_int : convert (.fp F) (.int w' sg') rm v = toIntVal w' sg' rm (funpack F v) := if_neg nofun

variable {F v} in
/-- A number of a floating-point format into DM8 and into an integer. -/
theorem convert_number (hx : expField F v ≠ 2 ^ F.ew - 1) (hw : 0 < w') :
    (∃ r, convert (.fp F) .dm8 rm v = (r, .none) ∧ roundsDm8 (lineVal F v) r) ∧
    (∃ r i, convert (.fp F) (.int w' sg') rm v = (r, .none) ∧ roundsInt rm (lineVal F v) i ∧
      r < 2 ^ w' ∧ intVal w' sg' r = clampInt w' sg' i) := by
  rw [convert_fp_dm8, convert_fp_int, ← rat_funpack hx, funpack_finite hx]
  exact ⟨⟨_, rfl, roundsDm8_toDm8 ..⟩, toIntVal_fin hw ..⟩

/-- The fraction of a NaN aligned at its top bit. -/
def nanFraction : Nat := if F.fw ≤ G.fw then v % 2 ^ F.fw * 2 ^ (G.fw - F.fw) else v % 2 ^ F.fw / 2 ^ (F.fw - G.fw)

theorem nanFraction_lt : nanFraction v F G < 2 ^ G.fw := by
  have hv := Nat.mod_lt v (Nat.two_pow_pos F.fw)
  unfold nanFraction
  split
  · next h =>
    obtain ⟨d, hd⟩ := Nat.exists_eq_add_of_le h
    rw [hd, Nat.add_sub_cancel_left, pow_add]
    exact Nat.mul_lt_mul_of_pos_right hv (Nat.two_pow_pos d)
  · next h =>
    obtain ⟨d, hd⟩ := Nat.exists_eq_add_of_le (not_le.1 h).le
    rw [hd, Nat.add_sub_cancel_left, Nat.div_lt_iff_lt_mul (Nat.two_pow_pos d), ← pow_add, ← hd]
    exact hv

theorem fcvt_nan (h : funpack F v = .nan) :
    fcvt F G rm v = withSign G (v.testBit (F.ew + F.fw)) (infBits G + (nanFraction v F G ||| 2 ^ (G.fw - 1))) := by
  rw [fcvt, h, ← fneg_testBit, nanFraction, bits_zero]
  simp only [Nat.shiftRight_eq_div_pow]

theorem infBits_add_lt {f : Nat} (h : f < 2 ^ G.fw) : infBits G + f < 2 ^ (G.ew + G.fw) := by
  calc infBits G + f < infBits G + 2 ^ G.fw := by omega
    _ = (2 ^ G.ew - 1 + 1) * 2 ^ G.fw := by rw [infBits]; ring
    _ = 2 ^ (G.ew + G.fw) := by rw [Nat.sub_add_cancel Nat.one_le_two_pow, pow_add]

/-- A code of one floating-point format into another. -/
theorem convert_fp_fp (hne : F ≠ G) (hf : 0 < G.fw) (he : 0 < G.ew) :
    ∃ r, convert (.fp F) (.fp G) rm v = (r, .none) ∧ r < 2 ^ (1 + G.ew + G.fw) ∧
      (funpack F v ≠ .nan → v % 2 ^ (F.ew + F.fw) ≠ infBits F → rounds G rm (lineVal F v) r) ∧
      r.testBit (G.ew + G.fw) = v.testBit (F.ew + F.fw) ∧
      (v % 2 ^ (F.ew + F.fw) = infBits F → r % 2 ^ (G.ew + G.fw) = infBits G) ∧
      (funpack F v = .nan → r % 2 ^ (G.ew + G.fw) = infBits G + (nanFraction v F G ||| 2 ^ (G.fw - 1))) := by
  refine ⟨fcvt F G rm v, if_neg (by simpa using hne), ?_⟩
  by_cases hn : funpack F v = .nan
  · have hc := infBits_add_lt G (Nat.or_lt_two_pow (nanFraction_lt v F G) (Nat.pow_lt_pow_right (by norm_num) (Nat.sub_one_lt hf.ne')))
    have hi : v % 2 ^ (F.ew + F.fw) ≠ infBits F := fun h => by
      rw [funpack_inf h] at hn
      cases hn
    rw [fcvt_nan rm v F G hn]
    exact ⟨withSign_lt _ hc, fun h => absurd hn h, withSign_testBit _ hc, fun h => absurd h hi, fun _ => withSign_mag _ hc⟩
  by_cases hi : v % 2 ^ (F.ew + F.fw) = infBits F
  · have hr : fcvt F G rm v = withSign G (v.testBit (F.ew + F.fw)) (infBits G) := by rw [fcvt, funpack_inf hi]
    have hc := infBits_lt G
    rw [hr]
    exact ⟨withSign_lt _ hc, fun _ h => absurd hi h, withSign_testBit _ hc, fun _ => withSign_mag _ hc, fun h => absurd h hn⟩
  · have hx := finite_of_number hn hi
    have hr : fcvt F G rm v = fpack G rm (v.testBit (F.ew + F.fw)) (significand F v) (scale F v) := by rw [fcvt, funpack_finite hx]
    obtain ⟨c, hc, hcode⟩ := fpack_sign G rm (v.testBit (F.ew + F.fw)) (significand F v) (scale F v)
    have hlt := hc.trans_lt (infBits_lt G)
    rw [hr]
    refine ⟨hcode ▸ withSign_lt _ hlt, fun _ _ => ?_, hcode ▸ withSign_testBit _ hlt, fun h => absurd h hi, fun h => absurd h hn⟩
    rw [← rat_funpack hx, funpack_finite hx, rat_fin]
    exact rounds_fpack hf he ..

end

end Sys2Proof.Machine

namespace Sys2Proof.Laws
open Sys2Proof Machine

/-- Of O31, the codes of the formats. -/
theorem formatCodes : Sys2Proof.formatCodes := rfl

/-- Every format has a fraction and an exponent. -/
theorem floatFormat_fields {F : Fmt} (h : F ∈ [fp16, bf16, fp32, fp64]) : 0 < F.fw ∧ 0 < F.ew := by
  revert F
  decide

/-- Of O31, the conversions. -/
theorem elementsConvert : Sys2Proof.elementsConvert := by
  intro rm v _ _ F hF G hG w _ w' hw' sg sg' W ofInt clamp isInt nan inf neg from_
  obtain ⟨hf, he⟩ := floatFormat_fields hF
  obtain ⟨gf, ge⟩ := floatFormat_fields hG
  have hw : 0 < w' := by
    revert w'
    decide
  have hW : W - 1 = F.ew + F.fw := by omega
  simp only [inf, neg, hW]
  refine ⟨fun e _ hv => convert_self rm v hv, fun _ => ⟨fun hne => ?_, ?_, ?_⟩, fun _ => ⟨?_, ?_⟩, fun _ => ⟨fun hn => ?_, fun hi => ?_, fun hn hi => ?_, fun hne => ?_⟩⟩
  · exact convert_int_int rm v w w' sg sg' hne hw
  · exact convert_int_fp rm v w sg F hf he
  · exact convert_int_dm8 rm v w sg
  · exact convert_dm8_int rm v w' sg' hw
  · exact convert_dm8_fp rm v F hf he
  · exact ⟨(convert_fp_dm8 rm v F).trans (congrArg toDm8 hn), (convert_fp_int rm v w' sg' F).trans (congrArg (toIntVal w' sg' rm) hn)⟩
  · refine ⟨(convert_fp_dm8 rm v F).trans ?_, ?_⟩
    · rw [funpack_inf hi]
      cases v.testBit (F.ew + F.fw) <;> rfl
    · obtain ⟨r, hr, hint⟩ := toIntVal_inf hw' sg' rm (v.testBit (F.ew + F.fw))
      exact ⟨r, (convert_fp_int rm v w' sg' F).trans ((congrArg _ (funpack_inf hi)).trans hr), hint⟩
  · exact convert_number rm w' sg' (finite_of_number hn hi) hw
  · obtain ⟨r, hr, hlt, hround, hsign, hinf, hnan⟩ := convert_fp_fp rm v F G hne gf ge
    exact ⟨r, hr, hlt, hsign, hround, hinf, hnan⟩

end Sys2Proof.Laws
end

