-- ==== Sys2Proof/Proofs/DrainElems.lean ====
section
/-!
What an element drains as (R35).
-/

namespace Sys2Proof.Machine
open FmtOps

/-- The largest finite value in place of an infinity. -/
def saturated (F : Fmt) (u : Nat) : Nat := if u % 2 ^ (F.ew + F.fw) = infBits F then u - 1 else u

/-- A code that is rounded, and an infinity drawn back. -/
theorem saturated_fpack {F : Fmt} (he : 0 < F.ew) (n : Bool) (m : Nat) (e : ℤ) :
    (if bits (fpack F 0 n m e) 0 (width F - 1) = infBits F then withSign F n (infBits F - 1) else fpack F 0 n m e) =
      saturated F (fpack F 0 n m e) := by
  obtain ⟨c, hc, hcode⟩ := fpack_sign F 0 n m e
  have hpos := infBits_pos he
  rw [bits_zero, width_pred, saturated, hcode, withSign_mag n (hc.trans_lt (infBits_lt F))]
  split
  · next h =>
    rw [h, withSign, withSign]
    omega
  · rfl

end Sys2Proof.Machine

namespace Sys2Proof.Laws
open Sys2Proof Machine

/-- An element drains into a floating-point format. -/
theorem drainsFloat {k : Nat} {F : Fmt} (hc : (k, F) ∈ [(0, fp32), (1, bf16), (2, fp16)]) (m e : ℤ) :
    (m = 0 → drainElem k m e = 0) ∧ (m ≠ 0 → ∃ u, rounds F 0 (m * (2 : ℚ) ^ e) u ∧ drainElem k m e = saturated F u) := by
  have hF : 0 < F.fw ∧ 0 < F.ew := by
    simp only [List.mem_cons, Prod.mk.injEq, List.not_mem_nil, or_false] at hc
    obtain ⟨-, rfl⟩ | ⟨-, rfl⟩ | ⟨-, rfl⟩ := hc <;> decide
  have helem : drainElem k m e = if m = 0 then 0 else
      if bits (fpack F 0 (decide (m < 0)) m.natAbs e) 0 (FmtOps.width F - 1) = FmtOps.infBits F
      then withSign F (decide (m < 0)) (FmtOps.infBits F - 1) else fpack F 0 (decide (m < 0)) m.natAbs e := by
    simp only [List.mem_cons, Prod.mk.injEq, List.not_mem_nil, or_false] at hc
    obtain ⟨rfl, rfl⟩ | ⟨rfl, rfl⟩ | ⟨rfl, rfl⟩ := hc <;> rfl
  rw [helem]
  refine ⟨fun h => if_pos h, fun h => ⟨_, ?_, (if_neg h).trans (saturated_fpack hF.2 ..)⟩⟩
  rw [← rat_int, rat_fin]
  exact rounds_fpack hF.1 hF.2 ..

/-- An element drains into an integer. -/
theorem drainsInteger {k w : Nat} (hc : (k, w) ∈ [(4, 8), (5, 32)]) (m e : ℤ) : ∃ i, roundsInt 0 (m * (2 : ℚ) ^ e) i ∧ drainElem k m e < 2 ^ w ∧
    sval w (drainElem k m e) = max (-2 ^ (w - 1)) (min (2 ^ (w - 1) - 1) i) := by
  have hw : 0 < w := by
    simp only [List.mem_cons, Prod.mk.injEq, List.not_mem_nil, or_false] at hc
    omega
  have helem : drainElem k m e = (toIntVal w true 0 (.fin (decide (m < 0)) m.natAbs e)).1 := by
    simp only [List.mem_cons, Prod.mk.injEq, List.not_mem_nil, or_false] at hc
    obtain ⟨rfl, rfl⟩ | ⟨rfl, rfl⟩ := hc <;> rfl
  obtain ⟨r, i, hr, hround, hlt, hval⟩ := toIntVal_fin hw true 0 (decide (m < 0)) m.natAbs e
  rw [helem, hr]
  rw [rat_int] at hround
  exact ⟨i, hround, hlt, hval⟩

/-- Of O31, the drained elements. -/
theorem elementsDrain : Sys2Proof.elementsDrain := by
  intro m e _ _ x
  refine ⟨fun c hc => drainsFloat hc m e, ?_, fun c hc => drainsInteger hc m e⟩
  have := roundsDm8_toDm8 (decide (m < 0)) m.natAbs e
  rwa [rat_int] at this

end Sys2Proof.Laws
end

