-- ==== Sys2Proof/Proofs/Splits.lean ====
section
/-!
The two halves of an element (R36).
-/

namespace Sys2Proof.Machine
open FmtOps

/-! ### Floating point -/

section

variable {F : Fmt}

theorem expField_withSign (n : Bool) {c : Nat} (hc : c < infBits F) : expField F (withSign F n c) ≠ 2 ^ F.ew - 1 := by
  rw [expField, withSign_div n (hc.trans (infBits_lt F))]
  exact (Nat.div_lt_of_lt_mul (by rwa [infBits, Nat.mul_comm] at hc)).ne

/-- Toward zero nothing becomes an infinity. -/
theorem fpack_toward_finite (he : 0 < F.ew) (n : Bool) (m : Nat) (e : ℤ) : ∃ w < infBits F, fpack F 1 n m e = withSign F n w := by
  by_cases hm : m = 0
  · exact ⟨0, infBits_pos he, if_pos hm⟩
  · obtain ⟨w, hv, hw, -⟩ := fpack_below F 1 n e hm (infBits_pos he) (.inl rfl)
    exact ⟨w, hw, hv⟩

theorem exactSum_value (a ea b eb : ℤ) :
    ((exactSum a ea b eb).1 : ℚ) * 2 ^ (exactSum a ea b eb).2 = a * 2 ^ ea + b * 2 ^ eb := by
  rw [exactSum, two_zpow_split (min_le_left ea eb), two_zpow_split (min_le_right ea eb)]
  push_cast
  ring

/-- The first half: toward zero, and with sign + where it is 0. -/
def firstHalf (F : Fmt) (n : Bool) (m : Nat) (e : ℤ) : Nat :=
  if bits (fpack F 1 n m (e - 1)) 0 (width F - 1) = 0 then 0 else fpack F 1 n m (e - 1)

theorem firstHalf_code (he : 0 < F.ew) (n : Bool) (m : Nat) (e : ℤ) : ∃ w < infBits F, ∃ n', firstHalf F n m e = withSign F n' w ∧
    lineVal F (firstHalf F n m e) = lineVal F (fpack F 1 n m (e - 1)) := by
  obtain ⟨w, hw, hcode⟩ := fpack_toward_finite he n m (e - 1)
  have hlt := hw.trans (infBits_lt F)
  rw [firstHalf, hcode, bits_zero, width_pred, withSign_mag n hlt]
  split
  · next h =>
    subst h
    refine ⟨0, hw, false, (withSign_zero F).symm, ?_⟩
    have hzero (n : Bool) : lineVal F (withSign F n 0) = 0 := by rw [lineVal_withSign n hlt, lineAbs_zero, mul_zero]
    rw [hzero, ← hzero false, withSign_zero]
  · exact ⟨w, hw, n, rfl, rfl⟩

variable {k v : Nat} (hk : (k, F) ∈ [(2, bf16), (3, fp16)])
include hk

theorem splitElem_special (hv : expField F v = 2 ^ F.ew - 1) : splitElem k v = (v, v) := by
  have hsplit (h : ∀ n m e, funpack F v ≠ .fin n m e) : splitElem k v = (v, v) := by
    simp only [List.mem_cons, Prod.mk.injEq, List.not_mem_nil, or_false] at hk
    obtain ⟨rfl, rfl⟩ | ⟨rfl, rfl⟩ := hk
    · simp only [splitElem]
    · simp only [splitElem]
  refine hsplit fun n m e => ?_
  rw [funpack_special hv]
  split <;> nofun

theorem splitElem_finite {n n' : Bool} {m m' : Nat} {e e' : ℤ} (hv : funpack F v = .fin n m e)
    (hh : funpack F (firstHalf F n m e) = .fin n' m' e') : splitElem k v = (firstHalf F n m e,
      fpackInt F 0 false (exactSum (signed n m) e (-(signed n' m')) e').1 (exactSum (signed n m) e (-(signed n' m')) e').2) := by
  simp only [List.mem_cons, Prod.mk.injEq, List.not_mem_nil, or_false] at hk
  obtain ⟨rfl, rfl⟩ | ⟨rfl, rfl⟩ := hk
  · simp only [splitElem]
    rw [hv]
    simp only
    rw [← firstHalf, hh]
  · simp only [splitElem]
    rw [hv]
    simp only
    rw [← firstHalf, hh]

/-- The halves of a number. -/
theorem splits_number (hv : expField F v ≠ 2 ^ F.ew - 1) :
    (∃ u, rounds F 1 (lineVal F v / 2) u ∧ lineVal F (splitElem k v).1 = lineVal F u) ∧ (splitElem k v).1 < 2 ^ 16 ∧
      rounds F 0 (lineVal F v - lineVal F (splitElem k v).1) (splitElem k v).2 := by
  obtain ⟨hf, he, hw⟩ : 0 < F.fw ∧ 0 < F.ew ∧ 1 + F.ew + F.fw = 16 := by
    simp only [List.mem_cons, Prod.mk.injEq, List.not_mem_nil, or_false] at hk
    obtain ⟨-, rfl⟩ | ⟨-, rfl⟩ := hk <;> decide
  obtain ⟨n, m, e, hfin⟩ : ∃ n m e, funpack F v = .fin n m e := ⟨_, _, _, funpack_finite hv⟩
  obtain ⟨w, hlt, n', hcode, hval⟩ := firstHalf_code he n m e
  have hx : expField F (firstHalf F n m e) ≠ 2 ^ F.ew - 1 := hcode ▸ expField_withSign n' hlt
  have hrat := rat_funpack hv
  have hrat' := rat_funpack hx
  rw [hfin] at hrat
  rw [funpack_finite hx] at hrat'
  rw [splitElem_finite hk hfin (funpack_finite hx)]
  refine ⟨⟨fpack F 1 n m (e - 1), ?_, hval⟩, ?_, ?_⟩
  · have hhalf : lineVal F v / 2 = unitSign n * (m * 2 ^ (e - 1)) := by
      rw [← hrat, rat_fin, zpow_sub_one₀ (by norm_num)]
      ring
    rw [hhalf]
    exact rounds_fpack hf he ..
  · rw [hcode, ← hw]
    exact withSign_lt n' (hlt.trans (infBits_lt F))
  · have hdiff := exactSum_value (signed n m) e (-(signed ((firstHalf F n m e).testBit (F.ew + F.fw)) (significand F (firstHalf F n m e))))
      (scale F (firstHalf F n m e))
    rw [Int.cast_neg, neg_mul, ← sub_eq_add_neg] at hdiff
    rw [← hrat, ← hrat', FVal.rat, FVal.rat, ← hdiff]
    exact rounds_fpackInt hf he ..

end

/-! ### INT8 -/

theorem splits_int8 (v : Nat) : sval 8 (splitElem 1 v).1 = Int.tdiv (sval 8 v) 2 ∧
    sval 8 (splitElem 1 v).1 + sval 8 (splitElem 1 v).2 = sval 8 v := by
  have hrange : -128 ≤ sval 8 v ∧ sval 8 v ≤ 127 := by
    simp only [sval]
    split <;> omega
  have helem : splitElem 1 v = (wrap 8 (signed (decide (sval 8 v < 0)) ((sval 8 v).natAbs / 2)),
      wrap 8 (sval 8 v - signed (decide (sval 8 v < 0)) ((sval 8 v).natAbs / 2))) := rfl
  have hhalf : signed (decide (sval 8 v < 0)) ((sval 8 v).natAbs / 2) = Int.tdiv (sval 8 v) 2 := signed_div ..
  have hbound : |2 * signed (decide (sval 8 v < 0)) ((sval 8 v).natAbs / 2)| ≤ 128 ∧
      |2 * (sval 8 v - signed (decide (sval 8 v < 0)) ((sval 8 v).natAbs / 2))| ≤ 129 := by
    generalize sval 8 v = i at *
    unfold signed
    split <;> simp only [decide_eq_true_eq, abs_le] at * <;> omega
  rw [helem, ← hhalf]
  generalize signed (decide (sval 8 v < 0)) ((sval 8 v).natAbs / 2) = h at *
  rw [abs_le, abs_le] at hbound
  rw [sval_wrap (w := 7) (by omega) (by omega), sval_wrap (w := 7) (by omega) (by omega)]
  exact ⟨rfl, by ring⟩

/-! ### DM8 -/

theorem dm8Mag_mod (c : Nat) : dm8Mag (c % 128) = dm8Mag c := by rw [dm8Mag, Nat.mod_mod, dm8Mag]

theorem dm8Value_mag (c : Nat) : dm8Value c = unitSign (c.testBit 7) * (dm8Mag c * 2 ^ (-16 : ℤ)) := by rw [dm8Value_abs, dm8Abs_mag, unitSign]

theorem abs_dm8Value (c : Nat) : |dm8Value c| = dm8Mag c * (2 : ℚ) ^ (-16 : ℤ) := by
  rw [dm8Value_mag, unitSign_abs, abs_of_nonneg (by positivity)]

/-- The search finds a code of the largest magnitude that is at most half of that of a. -/
theorem dm8Half_largest (a : Nat) : ∀ n best, n < 128 → best < 128 → 2 * dm8Mag best ≤ dm8Mag a →
    (∀ d, n < d → d < 128 → 2 * dm8Mag d ≤ dm8Mag a → dm8Mag d ≤ dm8Mag best) →
    dm8Half a n best < 128 ∧ 2 * dm8Mag (dm8Half a n best) ≤ dm8Mag a ∧
      ∀ d, 0 < d → d < 128 → 2 * dm8Mag d ≤ dm8Mag a → dm8Mag d ≤ dm8Mag (dm8Half a n best) := by
  intro n
  induction n with
  | zero => exact fun best _ h128 hle hbest => ⟨h128, hle, hbest⟩
  | succ n ih =>
    intro best hn h128 hle hbest
    rw [dm8Half]
    split
    · next h =>
      refine ih _ (by omega) hn h.1 fun d hd hd128 hda => ?_
      by_cases hdn : d = n + 1
      · rw [hdn]
      · exact (hbest d (by omega) hd128 hda).trans h.2.le
    · next h =>
      refine ih _ (by omega) h128 hle fun d hd hd128 hda => ?_
      by_cases hdn : d = n + 1
      · subst hdn
        exact not_lt.1 fun hlt => h ⟨hda, hlt⟩
      · exact hbest d (by omega) hd128 hda

/-- A code with its sign. -/
theorem dm8_signed (n : Bool) {h : Nat} (hh : h < 128) : h + 128 * b2n n < 256 ∧ (h + 128 * b2n n).testBit 7 = n ∧ dm8Mag (h + 128 * b2n n) = dm8Mag h := by
  have hmod : (h + 128 * b2n n) % 128 = h := by omega
  refine ⟨?_, ?_, by rw [← dm8Mag_mod, hmod]⟩
  · have : b2n n ≤ 1 := by cases n <;> decide
    omega
  · rw [Nat.testBit_eq_decide_div_mod_eq, Nat.add_mul_div_left _ _ (by norm_num), Nat.div_eq_of_lt hh]
    cases n <;> rfl

theorem splits_dm8 (v : Nat) : (splitElem 0 v).1 < 256 ∧ 0 ≤ dm8Value (splitElem 0 v).1 * dm8Value v ∧
    2 * |dm8Value (splitElem 0 v).1| ≤ |dm8Value v| ∧
    (∀ u < 256, 2 * |dm8Value u| ≤ |dm8Value v| → |dm8Value u| ≤ |dm8Value (splitElem 0 v).1|) ∧
    roundsDm8 (dm8Value v - dm8Value (splitElem 0 v).1) (splitElem 0 v).2 := by
  have hzero : dm8Mag 0 = 0 := rfl
  obtain ⟨h128, hle, hmax⟩ := dm8Half_largest v 127 0 (by norm_num) (by norm_num) (by simp [hzero])
    fun d h1 h2 => absurd h2 (by omega)
  have helem : splitElem 0 v = (if dm8Mag (dm8Half v 127 0) = 0 then 0 else dm8Half v 127 0 + 128 * b2n (bit v 7),
      (toDm8 (.fin (bit v 7) (dm8Mag v - dm8Mag (dm8Half v 127 0)) (-16))).1) := rfl
  rw [helem, bit_testBit]
  generalize dm8Half v 127 0 = h at *
  have hunit : (0 : ℚ) < 2 ^ (-16 : ℤ) := by positivity
  obtain ⟨h1, hh1⟩ : ∃ h1, h1 = if dm8Mag h = 0 then 0 else h + 128 * b2n (v.testBit 7) := ⟨_, rfl⟩
  have hmag : h1 < 256 ∧ dm8Mag h1 = dm8Mag h ∧ dm8Value h1 = unitSign (v.testBit 7) * (dm8Mag h * 2 ^ (-16 : ℤ)) := by
    rw [hh1]
    split
    · next h0 => rw [h0, dm8Value_mag, hzero]; simp
    · obtain ⟨hlt, hsign, hm⟩ := dm8_signed (v.testBit 7) h128
      rw [dm8Value_mag, hsign, hm]
      exact ⟨hlt, rfl, rfl⟩
  rw [← hh1]
  obtain ⟨hlt, hm, hval⟩ := hmag
  refine ⟨hlt, ?_, ?_, fun u _ hu => ?_, ?_⟩
  · have hsq : unitSign (v.testBit 7) * unitSign (v.testBit 7) = 1 := by cases v.testBit 7 <;> norm_num [unitSign]
    rw [hval, dm8Value_mag v, mul_mul_mul_comm, hsq, one_mul]
    exact mul_nonneg (mul_nonneg (Nat.cast_nonneg _) hunit.le) (mul_nonneg (Nat.cast_nonneg _) hunit.le)
  · rw [abs_dm8Value, abs_dm8Value, hm, ← mul_assoc, mul_le_mul_iff_of_pos_right hunit]
    have hcast : ((2 * dm8Mag h : Nat) : ℚ) ≤ dm8Mag v := Nat.cast_le.2 hle
    rwa [Nat.cast_mul, Nat.cast_ofNat] at hcast
  · rw [abs_dm8Value, abs_dm8Value, ← mul_assoc, mul_le_mul_iff_of_pos_right hunit] at hu
    rw [abs_dm8Value, abs_dm8Value, hm, mul_le_mul_iff_of_pos_right hunit]
    have hu' : 2 * dm8Mag u ≤ dm8Mag v := by exact_mod_cast hu
    rw [Nat.cast_le, ← dm8Mag_mod u]
    rw [← dm8Mag_mod u] at hu'
    rcases Nat.eq_zero_or_pos (u % 128) with h0 | hpos
    · rw [h0, hzero]
      exact Nat.zero_le _
    · exact hmax _ hpos (Nat.mod_lt _ (by omega)) hu'
  · have hdiff : dm8Value v - dm8Value h1 = (FVal.fin (v.testBit 7) (dm8Mag v - dm8Mag h) (-16)).rat := by
      rw [hval, dm8Value_mag v, rat_fin, Nat.cast_sub (by omega)]
      ring
    rw [hdiff]
    exact roundsDm8_toDm8 ..

end Sys2Proof.Machine

namespace Sys2Proof.Laws
open Sys2Proof Machine

/-- Of O31, the halves. -/
theorem elementsSplit : Sys2Proof.elementsSplit := fun v _ =>
  ⟨fun _ hc => ⟨splitElem_special hc, splits_number hc⟩, fun _ =>
    ⟨(splits_int8 v).1, (splits_int8 v).2, splits_dm8 v⟩⟩

end Sys2Proof.Laws
end

