-- ==== Sys2Proof/Proofs/SplitColumns.lean ====
section
/-!
The columns of a tile that are split (R205).
-/

namespace Sys2Proof.Machine
open FmtOps

/-! ### Which elements qualify -/

theorem gtPow_iff {m : Nat} {e k : ℤ} : gtPow m e k = true ↔ (2 : ℚ) ^ k < m * 2 ^ e := by
  by_cases hm : m = 0
  · subst hm
    have : (0 : ℚ) < 2 ^ k := by positivity
    simpa [gtPow] using this.le
  obtain ⟨l, hl⟩ := Nat.exists_eq_succ_of_ne_zero (bitlen_pos hm).ne'
  have hlt := lt_two_pow_bitlen m
  have hge := two_pow_bitlen_le hm
  have hsplit : (2 : ℚ) ^ k = 2 ^ (k - e) * 2 ^ e := by rw [← zpow_add₀ (by norm_num), sub_add_cancel]
  have hpos : (0 : ℚ) < 2 ^ e := by positivity
  have order {a b : ℤ} : (2 : ℚ) ^ a < 2 ^ b ↔ a < b := zpow_lt_zpow_iff_right₀ (by norm_num)
  rw [gtPow, hl, hsplit, mul_lt_mul_iff_of_pos_right hpos]
  rw [hl, pow_succ] at hge
  rw [hl] at hlt
  have hlo : (2 : ℚ) ^ (l : ℤ) ≤ m := by
    rw [zpow_natCast]
    exact_mod_cast (by omega : 2 ^ l ≤ m)
  have hhi : (m : ℚ) < 2 ^ (l + 1 : ℤ) := by
    rw [← Nat.cast_succ, zpow_natCast]
    exact_mod_cast hlt
  simp only [Nat.succ_eq_add_one, Nat.add_sub_cancel, Nat.cast_add, Nat.cast_one, bne_iff_ne, ne_eq, hm, not_false_eq_true, Bool.and_eq_true,
    Bool.or_eq_true, decide_eq_true_eq, true_and]
  rcases lt_trichotomy (k - e) l with h | h | h
  · exact iff_of_true (.inl (by omega)) ((order.2 h).trans_le hlo)
  · have heq : m = 2 ^ l ↔ (2 : ℚ) ^ (k - e) = m := by
      rw [h, zpow_natCast, eq_comm]
      norm_cast
    rw [heq, or_iff_right (by omega), and_iff_right (by omega), ← ne_eq, lt_iff_le_and_ne, and_iff_right (h ▸ hlo)]
  · refine iff_of_false (by omega) (not_lt.2 (hhi.le.trans ?_))
    exact zpow_le_zpow_right₀ (by norm_num) (by omega)

theorem splitQualifies_fin {fmt v : Nat} {the : ℤ} {n : Bool} {m : Nat} {e : ℤ} (h : opVal fmt v = .fin n m e) :
    splitQualifies fmt the v = true ↔ (2 : ℚ) ^ the < |(FVal.fin n m e).rat| := by
  rw [abs_rat, splitQualifies, h]
  exact gtPow_iff

theorem splitQualifies_dm8 (v : Nat) (the : ℤ) : splitQualifies 0 the v = true ↔ (2 : ℚ) ^ the < |dm8Value v| := by
  rw [splitQualifies_fin (opVal_dm8 v), abs_rat, ← dm8Abs_scaled, abs_dm8Value, dm8Abs_mag]

theorem splitQualifies_int8 (v : Nat) (the : ℤ) : splitQualifies 1 the v = true ↔ (2 : ℚ) ^ the < |(sval 8 v : ℚ)| := by
  rw [splitQualifies_fin (e := 0) rfl, rat_int, zpow_zero, mul_one]

/-- An infinity qualifies and a NaN does not. -/
theorem splitQualifies_float {k : Nat} {F : Fmt} (hop : ∀ v, opVal k v = funpack F v) (v : Nat) (the : ℤ) :
    splitQualifies k the v = true ↔ v % 2 ^ (F.ew + F.fw) = infBits F ∨
      (expField F v ≠ 2 ^ F.ew - 1 ∧ (2 : ℚ) ^ the < |lineVal F v|) := by
  by_cases hx : expField F v = 2 ^ F.ew - 1
  · rw [or_iff_left (fun h => h.1 hx), splitQualifies, hop]
    by_cases hi : v % 2 ^ (F.ew + F.fw) = infBits F
    · rw [funpack_inf hi]
      simp [hi]
    · have hnan : funpack F v = .nan := by
        by_contra hn
        exact finite_of_number hn hi hx
      rw [hnan]
      simp [hi]
  · have hi : v % 2 ^ (F.ew + F.fw) ≠ infBits F := fun h => by
      have hfin := funpack_inf h
      rw [funpack_finite hx] at hfin
      cases hfin
    rw [or_iff_right hi, and_iff_right hx, splitQualifies_fin ((hop v).trans (funpack_finite hx)), ← rat_funpack hx, funpack_finite hx]

/-! ### Where the columns go -/

/-- The place of column j where q says which columns are split: a split column takes two. -/
def columnPlace (q : Nat → Bool) : Nat → Nat
  | 0 => 0
  | j + 1 => (if q 0 then 2 else 1) + columnPlace (fun i => q (i + 1)) j

theorem columnPlace_succ (j : Nat) : ∀ q, columnPlace q (j + 1) = columnPlace q j + if q j then 2 else 1 := by
  induction j with
  | zero => intro q; simp [columnPlace]
  | succ j ih =>
    intro q
    rw [columnPlace, ih, columnPlace, Nat.add_assoc]

/-- The first column from c on, and the ones behind it. -/
theorem columnPlace_first (q : Nat → Bool) (c j : Nat) : columnPlace (fun i => q (c + i)) (j + 1) =
    columnPlace (fun i => q (c + 1 + i)) j + if q c then 2 else 1 := by
  have shift : (fun i => q (c + (i + 1))) = fun i => q (c + 1 + i) := funext fun i => by rw [Nat.add_assoc, Nat.add_comm 1]
  rw [columnPlace, shift, Nat.add_zero, Nat.add_comm]

theorem columnPlace_lt (q : Nat → Bool) {i j : Nat} (h : i < j) : columnPlace q i + (if q i then 2 else 1) ≤ columnPlace q j := by
  rw [← columnPlace_succ]
  refine monotone_nat_of_le_succ (f := columnPlace q) (fun n => ?_) h
  rw [columnPlace_succ]
  omega

/-- The second half of a split column stands where no column begins. -/
theorem columnPlace_ne (q : Nat → Bool) {i : Nat} (hi : q i = true) (j : Nat) : columnPlace q j ≠ columnPlace q i + 1 := by
  rcases lt_trichotomy i j with h | h | h
  · have := columnPlace_lt q h
    rw [if_pos hi] at this
    omega
  · rw [h]
    omega
  · have := columnPlace_lt q h
    split at this <;> omega

/-- A power of two added below a multiple of the next one. -/
theorem testBit_add_two_pow {x o : Nat} (h : 2 ^ (o + 2) ∣ x) (k : Nat) : (x + 2 ^ (o + 1)).testBit k = (decide (k = o + 1) || x.testBit k) := by
  obtain ⟨y, rfl⟩ := h
  rw [Nat.testBit_two_pow_mul_add y (Nat.pow_lt_pow_right (by norm_num) (by omega)), Nat.testBit_two_pow_mul, Nat.testBit_two_pow]
  split
  · next h =>
    rw [decide_eq_false (show ¬ k ≥ o + 2 by omega), Bool.false_and, Bool.or_false]
    exact decide_eq_decide.2 eq_comm
  · next h =>
    have h' : k ≥ o + 2 := not_lt.1 h
    rw [decide_eq_false (show k ≠ o + 1 by omega), decide_eq_true h', Bool.true_and, Bool.false_or]

section

variable (fmt ext : Nat) (the : ℤ) (v : Nat)

/-- Column c of a tile, and whether it is split. -/
def splitColumn (c : Nat) : List Nat := (List.range 64).map fun i => aElem v fmt i c
@[inherit_doc splitColumn] def columnSplits (c : Nat) : Bool := ((splitColumn fmt v c).take ext).any (splitQualifies fmt the)

theorem columnSplits_iff {ext : Nat} (hext : ext ≤ 64) (c : Nat) :
    columnSplits fmt ext the v c = true ↔ ∃ i < ext, splitQualifies fmt the (aElem v fmt i c) = true := by
  rw [columnSplits, splitColumn, ← List.map_take, List.take_range, Nat.min_eq_left hext]
  simp

/-- A column that is split and one that is not. -/
theorem splitCols_succ (n c o : Nat) : splitCols fmt ext the v (n + 1) c o =
    if columnSplits fmt ext the v c then
      ((splitColumn fmt v c).map (fun x => (splitElem fmt x).1) :: (splitColumn fmt v c).map (fun x => (splitElem fmt x).2) ::
        (splitCols fmt ext the v n (c + 1) (o + 2)).1, (splitCols fmt ext the v n (c + 1) (o + 2)).2 + 2 ^ (o + 1))
    else (splitColumn fmt v c :: (splitCols fmt ext the v n (c + 1) (o + 1)).1, (splitCols fmt ext the v n (c + 1) (o + 1)).2) := rfl

theorem splitCols_length (n : Nat) : ∀ c o, (splitCols fmt ext the v n c o).1.length = columnPlace (fun i => columnSplits fmt ext the v (c + i)) n := by
  induction n with
  | zero => intro c o; rfl
  | succ n ih =>
    intro c o
    rw [splitCols_succ, columnPlace_first]
    split
    · rw [← ih _ (o + 2), List.length_cons, List.length_cons]
    · rw [← ih _ (o + 1), List.length_cons]

/-- The halves of a column that is split, and a column that is not, in their places. -/
theorem splitCols_get (n : Nat) : ∀ c o, ∀ j < n,
    (columnSplits fmt ext the v (c + j) = true →
      (splitCols fmt ext the v n c o).1[columnPlace (fun i => columnSplits fmt ext the v (c + i)) j]? =
        some ((splitColumn fmt v (c + j)).map fun x => (splitElem fmt x).1) ∧
      (splitCols fmt ext the v n c o).1[columnPlace (fun i => columnSplits fmt ext the v (c + i)) j + 1]? =
        some ((splitColumn fmt v (c + j)).map fun x => (splitElem fmt x).2)) ∧
    (columnSplits fmt ext the v (c + j) = false →
      (splitCols fmt ext the v n c o).1[columnPlace (fun i => columnSplits fmt ext the v (c + i)) j]? = some (splitColumn fmt v (c + j))) := by
  induction n with
  | zero => intro c o j hj; omega
  | succ n ih =>
    intro c o j hj
    rw [splitCols_succ]
    cases j with
    | zero =>
      rw [columnPlace, Nat.add_zero]
      refine ⟨fun h => ?_, fun h => ?_⟩
      · rw [if_pos h]
        exact ⟨rfl, rfl⟩
      · rw [if_neg (by simp [h])]
        rfl
    | succ j =>
      rw [columnPlace_first, show c + (j + 1) = c + 1 + j by omega]
      by_cases h : columnSplits fmt ext the v c = true
      · simp only [if_pos h, Nat.add_right_comm _ 2 1, List.getElem?_cons_succ]
        exact ih (c + 1) (o + 2) j (by omega)
      · simp only [if_neg h, List.getElem?_cons_succ]
        exact ih (c + 1) (o + 1) j (by omega)

theorem splitCols_map_dvd (n : Nat) : ∀ c o, 2 ^ o ∣ (splitCols fmt ext the v n c o).2 := by
  induction n with
  | zero => intro c o; exact dvd_zero _
  | succ n ih =>
    intro c o
    rw [splitCols_succ]
    split
    · exact dvd_add ((pow_dvd_pow 2 (by omega)).trans (ih (c + 1) (o + 2))) (pow_dvd_pow 2 (by omega))
    · exact (pow_dvd_pow 2 (by omega)).trans (ih (c + 1) (o + 1))

/-- The map holds the places of the second halves. -/
theorem splitCols_map (n : Nat) : ∀ c o k, (splitCols fmt ext the v n c o).2.testBit k = true ↔
    ∃ j < n, columnSplits fmt ext the v (c + j) = true ∧ k = o + columnPlace (fun i => columnSplits fmt ext the v (c + i)) j + 1 := by
  induction n with
  | zero => intro c o k; simp [splitCols]
  | succ n ih =>
    intro c o k
    have split_first (P : Nat → Prop) : (∃ j < n + 1, P j) ↔ P 0 ∨ ∃ j < n, P (j + 1) := by
      constructor
      · rintro ⟨j, hj, h⟩
        cases j with
        | zero => exact .inl h
        | succ j => exact .inr ⟨j, by omega, h⟩
      · rintro (h | ⟨j, hj, h⟩)
        · exact ⟨0, by omega, h⟩
        · exact ⟨j + 1, by omega, h⟩
    rw [splitCols_succ, split_first]
    simp only [columnPlace, Nat.add_zero, ← Nat.add_assoc, Nat.add_right_comm c _ 1]
    by_cases h : columnSplits fmt ext the v c = true
    · rw [if_pos h, testBit_add_two_pow (splitCols_map_dvd ..), Bool.or_eq_true, decide_eq_true_eq, ih]
      simp [h, Nat.add_assoc, Nat.add_comm, Nat.add_left_comm]
    · rw [if_neg h, ih]
      simp [h, Nat.add_assoc, Nat.add_comm, Nat.add_left_comm]

end

end Sys2Proof.Machine

namespace Sys2Proof.Laws
open Sys2Proof Machine

/-- Of O31, the columns. -/
theorem columnsSplit : Sys2Proof.columnsSplit := by
  intro fmt ext n v the hfmt hext _ _ _ w el big col r
  have hbig (u : Nat) : splitQualifies fmt the u = true ↔ big u := by
    have : fmt = 0 ∨ fmt = 1 ∨ fmt = 2 ∨ fmt = 3 := by omega
    rcases this with rfl | rfl | rfl | rfl
    · exact splitQualifies_dm8 u the
    · exact splitQualifies_int8 u the
    · exact splitQualifies_float (F := bf16) (fun _ => rfl) u the
    · exact splitQualifies_float (F := fp16) (fun _ => rfl) u the
  have hcol (c : Nat) : splitColumn fmt v c = col c := rfl
  have hsplits (c : Nat) : columnSplits fmt ext the v c = true ↔ ∃ i < ext, big (el i c) := by
    rw [columnSplits_iff fmt the v hext]
    exact exists_congr fun i => and_congr_right fun _ => hbig _
  have hget := splitCols_get fmt ext the v n 0 0
  have hmap := splitCols_map fmt ext the v n 0 0
  simp only [Nat.zero_add] at hget hmap
  have hfirst (c : Nat) : r.2.testBit (columnPlace (columnSplits fmt ext the v) c) = false := by
    rw [← Bool.not_eq_true, hmap]
    rintro ⟨j, _, hj, hk⟩
    exact columnPlace_ne _ hj c hk
  refine ⟨columnPlace (columnSplits fmt ext the v), rfl, ?_, fun c hc hs => ?_, fun c hc hs => ?_, fun k hk => ?_⟩
  · have := splitCols_length fmt ext the v n 0 0
    simpa only [Nat.zero_add] using this
  · have hs := (hsplits c).2 hs
    obtain ⟨h1, h2⟩ := (hget c hc).1 hs
    exact ⟨by rw [columnPlace_succ, if_pos hs], hfirst c, (hmap _).2 ⟨c, hc, hs, rfl⟩, h1, h2⟩
  · have hs := (not_congr (hsplits c)).2 hs
    exact ⟨by rw [columnPlace_succ, if_neg hs], hfirst c, (hget c hc).2 (by simpa using hs)⟩
  · rw [← Bool.not_eq_true, hmap]
    rintro ⟨j, hj, hs, hkj⟩
    have := columnPlace_lt (columnSplits fmt ext the v) hj
    rw [if_pos hs] at this
    change k = columnPlace (columnSplits fmt ext the v) j + 1 at hkj
    omega

/-- Settles O31: the five groups of values. -/
theorem conversionsRound : Obligations.ConversionsRound := ⟨formatCodes, elementsConvert, elementsDrain, elementsSplit, columnsSplit⟩

end Sys2Proof.Laws
end

