-- ==== Sys2Proof/Proofs/AcquireMarks.lean ====
section
/-!
An acquire takes the marks of the words that leave L1 (R249, R257, R381).
-/

namespace Sys2Proof.Machine

/-- The acquire at the head of the load queue acts on the queue and on L1, and on the marks that stand for words of L1. -/
theorem execAcquire_head {s : State} {n id scope mark : Nat} {fw : Bool} {rest : List LoadEnt}
    (hq : (getCell s n).loadq = .acq id scope mark fw :: rest) (hl : loadsDone (getCell s n) id = true)
    (hm : mark = 0 ∨ markersDone (getCell s n) (mark - 1) = true) :
    exec (.acquire n) s = .next (setCell s n (invalidate scope (mark != 0) { getCell s n with loadq := rest })) := by
  have hacq : acquirable (getCell s n) = some (id, scope, mark) := by
    have hok : (loadsDone (getCell s n) id && (mark == 0 || markersDone (getCell s n) (mark - 1))) = true := by simpa [hl] using hm
    simp only [acquirable, hq, List.find?, isLoad]
    exact if_pos hok
  change execAcquire n s = _
  simp only [execAcquire, hacq, modCell, hq, delFirst, loadId, beq_self_eq_true, if_true]

/-- A clean word of an RC line whose data are bad, with its mark, and an acquire at the head of the load queue. -/
def poisonedClean : Cell := { Cell.reset with
  loadq := [.acq 7 1 0 false]
  l1 := [(5, ⟨1, 0, false, [(0, { val := 9, dirty := false, poison := true })], 0, .bare false 0⟩)]
  poison := [(9, 5, 0)] }

@[inherit_doc poisonedClean] def cleanState : State := { State.reset with cells := [(0, poisonedClean)] }

/-- The word leaves, and its mark with it. -/
theorem poisonedClean_acquires : (invalidate 1 false { poisonedClean with loadq := [] }).poison = [] := by decide

end Sys2Proof.Machine

namespace Sys2Proof.Laws
open Sys2Proof Machine

/-- Refutes O52: its clause on ACQUIRE lets a cell change in its load queue and its lines alone, but a clean word that leaves L1 takes its
mark of structure 9 along (R249, R381). The counterexample is a clean word with bad data in a line of kind 1 and an acquire of scope 1. -/
theorem not_cellStepsOfTheMemoryMachine : ¬ Obligations.CellStepsOfTheMemoryMachine := by
  intro ⟨hload, _, _⟩
  have hcell : getCell cleanState 0 = poisonedClean := rfl
  obtain ⟨d, hexec, hd, -⟩ := (hload cleanState 0 []).2 7 1 0 false rfl rfl (.inl rfl)
  rw [execAcquire_head (rest := []) rfl rfl (.inl rfl), hcell] at hexec
  have hcells := congrArg (getCell · 0) (Host.Outcome.next.inj hexec)
  simp only [getCell_setCell_same] at hcells
  have hkeeps : d.poison = [(9, 5, 0)] := congrArg Cell.poison hd
  rw [← hcells, show ((0 : Nat) != 0) = false from rfl, poisonedClean_acquires] at hkeeps
  cases hkeeps

end Sys2Proof.Laws
end

