-- ==== Sys2Proof/Proofs/OffHome.lean ====
section
/-!
What accesses at the homes of memory leave (R254, R255, R334 to R341): all of the state but the dies, the memories, their marks and codecs,
and the numbers that are given out. Command processors leave it as well (R407).
-/

namespace Sys2Proof.Machine

/-- A state without what accesses to memory change. -/
def offHome (s : State) : State := { s with dies := [], mem := [], hostMem := [], poison := [], codecs := [], seq := 0, free := 0 }

/-! ### Homes -/

theorem offHome_foldl {α : Type} {f : State → α → State} (hf : ∀ s x, offHome (f s x) = offHome s) (l : List α) :
    ∀ s, offHome (l.foldl f s) = offHome s := foldl_keeps offHome hf l

section
variable {s : State}

@[simp] theorem offHome_ite {c : Prop} [Decidable c] {s t : State} : offHome (if c then s else t) = if c then offHome s else offHome t := by
  split <;> rfl

@[simp] theorem offHome_modDie {d f} : offHome (modDie s d f) = offHome s := rfl

@[simp] theorem offHome_setDie {d x} : offHome (setDie s d x) = offHome s := rfl

@[simp] theorem offHome_fresh : offHome (fresh s) = offHome s := rfl

@[simp] theorem offHome_useFree : offHome (useFree s) = offHome s := rfl

@[simp] theorem offHome_update {dies mem hostMem poison codecs seq free} : offHome { s with
  dies := dies, mem := mem, hostMem := hostMem, poison := poison, codecs := codecs, seq := seq, free := free } = offHome s := rfl

@[simp] theorem offHome_memWriteLine {line mask v} : offHome (memWriteLine s line mask v) = offHome s := by
  unfold memWriteLine
  dsimp only
  split
  · rfl
  · rw [offHome_ite]
    exact ite_self _

@[simp] theorem offHome_homeStore {sel line mask v} : offHome (homeStore s sel line mask v) = offHome s := by
  unfold homeStore
  dsimp only
  split <;> simp

@[simp] theorem offHome_homePutLine {sel line mask v} : offHome (homePutLine s sel line mask v) = offHome s := by simp [homePutLine]

@[simp] theorem offHome_l2Reach {sel pa c who} : offHome (l2Reach s sel pa c who) = offHome s := by
  unfold l2Reach
  dsimp only
  split
  · rfl
  · split <;> simp

@[simp] theorem offHome_l2Choose {sel line} : offHome (l2Choose s sel line) = offHome s := by simp [l2Choose]

@[simp] theorem offHome_l2Evict {d y} : offHome (l2Evict s d y) = offHome s := by
  unfold l2Evict
  dsimp only
  split
  · rfl
  · split <;> simp

@[simp] theorem offHome_l2Displace {d w} : offHome (l2Displace s d w) = offHome s := by
  cases w with
  | line y => exact offHome_l2Evict
  | fill f => rfl

@[simp] theorem offHome_l2Begin {d m} : offHome (l2Begin s d m) = offHome s := by
  unfold l2Begin
  dsimp only
  split
  · simp
  · split <;> simp

@[simp] theorem offHome_l2Install {d f} : offHome (l2Install s d f) = offHome s := by simp [l2Install]

@[simp] theorem offHome_l2Bring {sel line} : offHome (l2Bring s sel line) = offHome s := by
  unfold l2Bring
  extract_lets d sl isM isF x u
  have hu : offHome u = offHome s := by
    dsimp only [u]
    split
    · rfl
    · split <;> simp
  split <;> simp [hu]

@[simp] theorem offHome_codecBring {sel line} : offHome (codecBring s sel line) = offHome s := by simp [codecBring]

@[simp] theorem offHome_ownTouch {wr sel line} : offHome (ownTouch wr sel s line) = offHome s := by simp [ownTouch, l2Touch]

@[simp] theorem offHome_markDirty {pa} : offHome (markDirty s pa) = offHome s := by simp [markDirty]

@[simp] theorem offHome_homeWriteLine {sel line mask v} : offHome (homeWriteLine s sel line mask v) = offHome s := by simp [homeWriteLine]

@[simp] theorem offHome_homeWrite {sel pa n v} : offHome (homeWrite s sel pa n v) = offHome s := offHome_homeWriteLine

end

theorem offHome_homeWriteLines (k : Nat) : ∀ s pa n v, offHome (homeWriteLines k s pa n v) = offHome s := by
  induction k with
  | zero => exact fun s pa n v => rfl
  | succ k ih => exact fun s pa n v => by simp [homeWriteLines, ih]

theorem offHome_homePutLines (d : Nat) : ∀ s l n v, offHome (homePutLines s d l n v) = offHome s := by
  induction d with
  | zero => exact fun s l n v => by simp [homePutLines]
  | succ d ih => exact fun s l n v => by simp [homePutLines, ih]

section
variable {s u : State}

@[simp] theorem offHome_homeWriteN {pa n v} : offHome (homeWriteN s pa n v) = offHome s := offHome_homeWriteLines ..

@[simp] theorem offHome_ownRead {pa n} : offHome (ownRead s pa n) = offHome s := offHome_foldl (fun _ _ => offHome_ownTouch) _ _

@[simp] theorem offHome_ownWrite {pa n v} : offHome (ownWrite s pa n v) = offHome s := by
  rw [ownWrite, offHome_homeWriteN]
  exact offHome_foldl (fun _ _ => offHome_ownTouch) _ _

@[simp] theorem offHome_rcbWrite {r lo n v} : offHome (rcbWrite s r lo n v) = offHome s := offHome_ownWrite

@[simp] theorem offHome_imagePart {base v lo hi} : offHome (imagePart s base v lo hi) = offHome s := offHome_homePutLines ..

@[simp] theorem offHome_imageValid {base v} : offHome (imageValid s base v) = offHome s := offHome_homeWriteN

@[simp] theorem offHome_cosWrite {d slice c field t} : offHome (cosWrite s d slice c field t) = offHome s := by
  unfold cosWrite
  extract_lets sl s1 x out
  rw [offHome_ite]
  split
  · refine (offHome_foldl (fun _ _ => offHome_l2Displace) _ _).trans ?_
    exact (offHome_foldl (fun _ _ => offHome_l2Evict) _ _).trans rfl
  · rfl

@[simp] theorem offHome_writeShares {r} : offHome (writeShares s r) = offHome s := by
  unfold writeShares
  extract_lets slots put ds
  refine offHome_foldl (fun s d => ?_) _ _
  extract_lets s1 s2 s3
  have h1 : offHome s1 = offHome s := offHome_cosWrite
  have h2 : offHome s2 = offHome s := by
    dsimp only [s2]
    rw [offHome_ite, offHome_cosWrite, h1, ite_self]
  have h3 : offHome s3 = offHome s := offHome_cosWrite.trans h2
  rw [offHome_ite, offHome_modDie, h3, ite_self]

/-! ### Command processors -/

@[simp] theorem offHome_markLeaf {l dirty} : offHome (markLeaf s l dirty) = offHome s := by simp [markLeaf]

theorem offHome_translate {t fetch va h} (ht : translate s t fetch va = .ok (u, h)) : offHome u = offHome s := by
  unfold translate at ht
  split at ht
  · cases ht
  · cases ht
    simp

theorem offHome_cpHandle {t va wr r} (hu : cpHandle s t va wr = some (u, r)) : offHome u = offHome s := by
  unfold cpHandle at hu
  split at hu
  next v e ht =>
    have hv := offHome_translate ht
    obtain ⟨-, hu⟩ := Option.ite_none_left_eq_some.1 hu
    split at hu
    · obtain ⟨-, hu⟩ := Option.ite_none_left_eq_some.1 hu
      cases hu
      exact hv
    · cases hu
      exact offHome_ownTouch.trans hv
  next => cases hu

theorem offHome_cpBlocks (t : TCtx) (k : Nat) : ∀ {s va u v}, cpBlocks t k s va = some (u, v) → offHome u = offHome s := by
  induction k with
  | zero => intro s va u v h; cases h; rfl
  | succ k ih =>
    intro s va u v h
    unfold cpBlocks at h
    split at h
    · cases h
    next hc =>
      obtain ⟨r, hr, e⟩ := Option.map_eq_some_iff.1 h
      cases e
      exact (ih hr).trans (offHome_cpHandle hc)

theorem offHome_cpRead {t va n v} (hu : cpRead s t va n = some (u, v)) : offHome u = offHome s := by
  obtain ⟨r, hr, e⟩ := Option.map_eq_some_iff.1 hu
  cases e
  exact offHome_cpBlocks _ _ hr

theorem offHome_cpRead64 {t va v} (hu : cpRead64 s t va = some (u, v)) : offHome u = offHome s := by
  unfold cpRead64 at hu
  split at hu
  · cases hu
  next hc => cases hu; exact offHome_cpHandle hc

theorem offHome_imageAtVirtual {t va es} (hu : imageAtVirtual s t va = some (u, es)) : offHome u = offHome s := by
  unfold imageAtVirtual at hu
  split at hu
  · cases hu
  next h1 =>
    split at hu
    · cases hu
    · split at hu
      · cases hu
      next h2 =>
        obtain ⟨_, -, e⟩ := Option.map_eq_some_iff.1 hu
        cases e
        exact (offHome_cpRead h2).trans (offHome_cpRead h1)

@[simp] theorem offHome_loadKernel {r k} : offHome (loadKernel s r k).1 = offHome s := by
  unfold loadKernel
  dsimp only
  split
  · rfl
  · split
    · rfl
    next h1 =>
      have h := offHome_cpRead h1
      split
      · exact h
      · split
        · exact h
        · split
          · exact h
          next h2 => exact (offHome_imageAtVirtual h2).trans h

@[simp] theorem offHome_cpWrite64 {t va v} : offHome (cpWrite64 s t va v) = offHome s := by
  unfold cpWrite64
  split
  · rfl
  next hc =>
    have h := offHome_cpHandle hc
    split
    · exact h
    · exact offHome_homeWrite.trans h

end

/-! ### What follows for a part of the state -/

section
variable {s t : State} (h : offHome t = offHome s)
include h

theorem cells_of_offHome : t.cells = s.cells := show (offHome t).cells = (offHome s).cells by rw [h]
theorem regions_of_offHome : t.regions = s.regions := show (offHome t).regions = (offHome s).regions by rw [h]
theorem kernels_of_offHome : t.kernels = s.kernels := show (offHome t).kernels = (offHome s).kernels by rw [h]
theorem queues_of_offHome : t.queues = s.queues := show (offHome t).queues = (offHome s).queues by rw [h]
theorem tctx_of_offHome : t.tctx = s.tctx := show (offHome t).tctx = (offHome s).tctx by rw [h]
theorem chan_of_offHome : t.chan = s.chan := show (offHome t).chan = (offHome s).chan by rw [h]

theorem getCell_of_offHome (n : Nat) : getCell t n = getCell s n := by rw [getCell, cells_of_offHome h, getCell]

end

end Sys2Proof.Machine
end

