-- ==== Sys2Proof/Proofs/RegionParts.lean ====
section
/-!
Regions, kernels and queues by their numbers, and what of a region its tree, its fields and its translation context rest on (R304 to R307,
R318).
-/

namespace Sys2Proof.Machine

/-! ### By number -/

section
variable {s : State}

theorem regionOf_part {p : BitVec 16} {r : Region} (h : regionOf s p = some r) : r.part = p := by simpa using List.find?_some h

theorem mem_of_regionOf {p : BitVec 16} {r : Region} (h : regionOf s p = some r) : r ∈ s.regions := List.mem_of_find?_eq_some h

theorem kernelOf_kid {kid : Nat} {k : Kernel} (h : kernelOf s kid = some k) : k.kid = kid := by simpa using List.find?_some h

theorem mem_of_kernelOf {kid : Nat} {k : Kernel} (h : kernelOf s kid = some k) : k ∈ s.kernels := List.mem_of_find?_eq_some h

theorem regionOf_modRegion_same {p : BitVec 16} {f : Region → Region} (hf : ∀ r, (f r).part = r.part) :
    regionOf (modRegion s p f) p = (regionOf s p).map f := find?_updFirst_same (fun r => by rw [hf]) _

theorem regionOf_modRegion_other {p q : BitVec 16} {f : Region → Region} (hf : ∀ r, (f r).part = r.part) (h : q ≠ p) :
    regionOf (modRegion s p f) q = regionOf s q := by
  refine find?_updFirst_other (fun r => by rw [hf]) (fun r hr => ?_) _
  rw [beq_eq_false_iff_ne, eq_of_beq hr]
  exact h.symm

theorem kernelOf_modKernel_same {kid : Nat} {f : Kernel → Kernel} (hf : ∀ k, (f k).kid = k.kid) :
    kernelOf (modKernel s kid f) kid = (kernelOf s kid).map f := find?_updFirst_same (fun k => by rw [hf]) _

theorem kernelOf_modKernel_other {kid i : Nat} {f : Kernel → Kernel} (hf : ∀ k, (f k).kid = k.kid) (h : i ≠ kid) :
    kernelOf (modKernel s kid f) i = kernelOf s i := by
  refine find?_updFirst_other (fun k => by rw [hf]) (fun k hk => ?_) _
  rw [beq_eq_false_iff_ne, eq_of_beq hk]
  exact h.symm

@[simp] theorem queueOf_modQueue_same {q : Nat} {f : Queue → Queue} : queueOf (modQueue s q f) q = f (queueOf s q) := smGet_smPut_same ..

theorem queueOf_modQueue_other {q i : Nat} {f : Queue → Queue} (h : i ≠ q) : queueOf (modQueue s q f) i = queueOf s i :=
  smGet_smPut_other _ _ _ h

end

/-! ### The tree -/

/-- What the tree of the regions, their fields and their translation rest on. -/
def Region.bare (r : Region) : Region := { r with erem := 0, econs := 0, turn := 0, frozen := none, pins := [] }

section
variable {r r' : Region} (h : r'.bare = r.bare)
include h

theorem Region.part_of_bare : r'.part = r.part := show r'.bare.part = r.bare.part by rw [h]
theorem Region.parent_of_bare : r'.parent = r.parent := show r'.bare.parent = r.bare.parent by rw [h]
theorem Region.pa_of_bare : r'.pa = r.pa := show r'.bare.pa = r.bare.pa by rw [h]
theorem Region.cells_of_bare : r'.cells = r.cells := show r'.bare.cells = r.bare.cells by rw [h]
theorem rcbField_of_bare (lo n : Nat) : rcbField r' lo n = rcbField r lo n := show rcbField r'.bare lo n = rcbField r.bare lo n by rw [h]

end

/-- The same of every region. -/
def bareRegions (s : State) : List Region := s.regions.map Region.bare

theorem bareRegions_of_eq {s t : State} (h : t.regions = s.regions) : bareRegions t = bareRegions s := by rw [bareRegions, h, bareRegions]

/-- A change of other fields in the first that meets a condition. -/
theorem map_updFirst {α β : Type} {g : α → β} {p : α → Bool} {f : α → α} (hf : ∀ x, g (f x) = g x) (l : List α) :
    (updFirst p f l).map g = l.map g := by
  induction l with
  | nil => rfl
  | cons x l ih =>
    rw [updFirst]
    split
    · rw [List.map_cons, List.map_cons, hf]
    · rw [List.map_cons, List.map_cons, ih]

@[simp] theorem bareRegions_modRegion {s : State} {p : BitVec 16} {f : Region → Region} (hf : ∀ r, (f r).bare = r.bare) :
    bareRegions (modRegion s p f) = bareRegions s := map_updFirst hf _

section
variable {s t : State} (h : bareRegions t = bareRegions s)
include h

theorem regionOf_bare (p : BitVec 16) : (regionOf t p).map Region.bare = (regionOf s p).map Region.bare := by
  have pull (u : State) : (regionOf u p).map Region.bare = (bareRegions u).find? fun r => r.part == p := by
    rw [bareRegions, List.find?_map]
    rfl
  rw [pull, pull, h]

/-- A region that stands in one state stands in the other. -/
theorem regionOf_some_bare {p : BitVec 16} {r : Region} (hr : regionOf s p = some r) : ∃ r', regionOf t p = some r' ∧ r'.bare = r.bare := by
  have := regionOf_bare h p
  rw [hr, Option.map_some, Option.map_eq_some_iff] at this
  exact this

theorem regionOf_none_bare {p : BitVec 16} : regionOf t p = none ↔ regionOf s p = none := by
  rw [← Option.map_eq_none_iff (f := Region.bare), regionOf_bare h, Option.map_eq_none_iff]

/-- The regions up a tree, by what rests on these fields. -/
theorem lineage_bare {β : Type} {g g' : Region → β} (hg : ∀ {r r' : Region}, r'.bare = r.bare → g' r' = g r) (k : Nat) :
    ∀ p, (lineage t p k).map g' = (lineage s p k).map g := by
  induction k with
  | zero => exact fun _ => rfl
  | succ k ih =>
    intro p
    rw [lineage, lineage]
    cases hr : regionOf s p with
    | none =>
      rw [(regionOf_none_bare h).2 hr]
      rfl
    | some r =>
      obtain ⟨r', hr', hb⟩ := regionOf_some_bare h hr
      rw [hr']
      dsimp only
      rw [List.map_cons, List.map_cons, hg hb, Region.parent_of_bare hb]
      cases r.parent with
      | none => rfl
      | some q => exact congrArg _ (ih q)

theorem groupRegion_bare (g k : Nat) : ∀ {r r' : Region}, r'.bare = r.bare → (groupRegion t r' g k).bare = (groupRegion s r g k).bare := by
  induction k with
  | zero => exact fun hb => hb
  | succ k ih =>
    intro r r' hb
    rw [groupRegion, groupRegion, rcbField_of_bare hb, Region.parent_of_bare hb]
    split
    · cases r.parent with
      | none => exact hb
      | some q =>
        rw [Option.bind_some, Option.bind_some]
        cases hr : regionOf s q with
        | none =>
          rw [(regionOf_none_bare h).2 hr]
          exact hb
        | some u =>
          obtain ⟨u', hu', hbu⟩ := regionOf_some_bare h hr
          rw [hu']
          exact ih hbu
    · exact hb

theorem regionField_bare {r r' : Region} (hb : r'.bare = r.bare) (g lo n : Nat) : regionField t r' g lo n = regionField s r g lo n :=
  rcbField_of_bare (groupRegion_bare h g 8 hb) lo n

theorem budgetOf_bare (p : BitVec 16) : budgetOf t p = budgetOf s p := by
  rw [budgetOf, budgetOf, lineage_bare h fun hb => Region.part_of_bare (groupRegion_bare h 1 8 hb)]

theorem subtree_bare (p : BitVec 16) : (subtree t p).map Region.bare = (subtree s p).map Region.bare := by
  have hany (q : BitVec 16) : ((lineage t q 9).any fun r => r.part == p) = (lineage s q 9).any fun r => r.part == p := by
    have hparts := lineage_bare h (g := Region.part) (g' := Region.part) Region.part_of_bare 9 q
    have pull (l : List Region) : (l.any fun r => r.part == p) = (l.map Region.part).any (· == p) := by
      rw [List.any_map]
      rfl
    rw [pull, hparts, ← pull]
  have pull (u : State) : (subtree u p).map Region.bare = (bareRegions u).filter fun r => (lineage u r.part 9).any fun q => q.part == p := by
    rw [subtree, bareRegions, List.filter_map]
    rfl
  rw [pull, pull, h]
  exact List.filter_congr fun r _ => hany r.part

variable (htctx : t.tctx = s.tctx)
include htctx

theorem tctxKey_bare (p : BitVec 16) : tctxKey t p = tctxKey s p := by
  rw [tctxKey, tctxKey, lineage_bare h (fun hb => congrArg BitVec.toNat (Region.part_of_bare hb)), htctx]

theorem tctxOf_bare (p : BitVec 16) (fw : Bool) : tctxOf t p fw = tctxOf s p fw := by
  rw [tctxOf, tctxOf, tctxKey_bare h htctx, htctx]

end

end Sys2Proof.Machine
end

