-- ==== Sys2Proof/Proofs/Pins.lean ====
section
/-!
The pages that a region keeps pinned (R25, R307, R359).
-/

namespace Sys2Proof.Machine

/-! ### Pins of a range -/

/-- The pages of n bytes at a that a leaf maps, each with that leaf. -/
def pagePins (ls : List (Nat × Nat × Nat × Nat)) (a n : Nat) : List (Nat × Nat × Nat) :=
  ((List.range (n / 65536 + 2)).map fun k => (a / 65536 + k) * 65536).filterMap fun p =>
    if a + n ≤ p then none
    else (ls.find? fun l => oaCovers l.2.2.2 l.2.2.1 p 65536).map fun l => (p, l.2.1, l.2.2.1)

theorem pagePins_page {ls : List (Nat × Nat × Nat × Nat)} {a n g : Nat} {l : Nat × Nat × Nat × Nat} (hl : l ∈ ls)
    (hlo : g * 65536 < a + n) (hhi : a < (g + 1) * 65536) (hc : oaCovers l.2.2.2 l.2.2.1 (g * 65536) 65536 = true) :
    ∃ q ∈ pagePins ls a n, q.1 = g * 65536 := by
  obtain ⟨m, hm⟩ : ∃ m, (ls.find? fun l => oaCovers l.2.2.2 l.2.2.1 (g * 65536) 65536) = some m :=
    Option.isSome_iff_exists.1 (List.find?_isSome.2 ⟨l, hl, hc⟩)
  refine ⟨(g * 65536, m.2.1, m.2.2.1), List.mem_filterMap.2 ⟨g * 65536, List.mem_map.2 ⟨g - a / 65536, ?_, ?_⟩, ?_⟩, rfl⟩
  · rw [List.mem_range]
    omega
  · congr 1
    omega
  · rw [if_neg (by omega), hm]
    rfl

theorem pinsOf_eq (s : State) (r : Region) : pinsOf s r = if 4096 * rcbField r 864 32 = 0 then [] else
    if stage2Leaves s (tctxOf s r.part false) = [] then [] else
    pagePins (stage2Leaves s (tctxOf s r.part false)) (rcbField r 800 64) (4096 * rcbField r 864 32) := rfl

theorem ringPins_eq (s : State) (k : Kernel) : ringPins s k =
    if !(decide (4 ≤ bits k.desc.toNat 336 5) && decide (bits k.desc.toNat 336 5 ≤ 20)) then [] else
    pagePins (stage2Leaves s (tctxOf s k.part false)) (bits k.desc.toNat 260 44 * 16) (16 * 2 ^ bits k.desc.toNat 336 5) := rfl

/-- Where pins join, a page keeps one. -/
theorem addPins_page {ps qs : List (Nat × Nat × Nat)} {a : Nat} (h : (∃ q ∈ ps, q.1 = a) ∨ ∃ q ∈ qs, q.1 = a) : ∃ q ∈ addPins ps qs, q.1 = a := by
  rw [addPins]
  by_cases hp : ∃ q ∈ ps, q.1 = a
  · obtain ⟨q, hq, ha⟩ := hp
    exact ⟨q, List.mem_append_left _ hq, ha⟩
  · obtain ⟨q, hq, ha⟩ := h.resolve_left hp
    refine ⟨q, List.mem_append_right _ (List.mem_filter.2 ⟨hq, ?_⟩), ha⟩
    simp only [Bool.not_eq_true', List.any_eq_false, beq_iff_eq]
    exact fun y hy he => hp ⟨y, hy, he.trans ha⟩

theorem foldl_addPins_page (l : List (List (Nat × Nat × Nat))) {a : Nat} : ∀ {ps}, ((∃ q ∈ ps, q.1 = a) ∨ ∃ qs ∈ l, ∃ q ∈ qs, q.1 = a) →
    ∃ q ∈ l.foldl addPins ps, q.1 = a := by
  induction l with
  | nil => intro ps h; simpa using h
  | cons x l ih =>
    intro ps h
    refine ih ?_
    rcases h with h | ⟨qs, hqs, h⟩
    · exact .inl (addPins_page (.inl h))
    · rcases List.mem_cons.1 hqs with rfl | hqs
      · exact .inl (addPins_page (.inr h))
      · exact .inr ⟨qs, hqs, h⟩

/-! ### What the pins rest on -/

theorem leavesFrom_homes {s t : State} (h : HomesSame s t) (f : Nat) : ∀ lvl table gpa, leavesFrom t f lvl table gpa = leavesFrom s f lvl table gpa := by
  induction f with
  | zero => exact fun _ _ _ => rfl
  | succ f ih =>
    intro lvl table gpa
    simp only [leavesFrom, h.homeReadN, ih]

theorem stage2Leaves_homes {s t : State} (h : HomesSame s t) (c : TCtx) : stage2Leaves t c = stage2Leaves s c := by
  rw [stage2Leaves, stage2Leaves, leavesFrom_homes h]

/-- The pins of a region: of its save area, and of the rings of the kernels that it holds. -/
def pinsFor (s : State) (r : Region) : List (Nat × Nat × Nat) :=
  ((s.kernels.filter fun k => k.part == r.part && decide (k.state < 2)).map (ringPins s)).foldl addPins (pinsOf s r)

/-- Regions that differ in other fields than these alone. -/
structure RegionsOnly (s t : State) : Prop where
  rest : t = { s with regions := t.regions }
  bare : bareRegions t = bareRegions s

section
variable {s t : State}

theorem RegionsOnly.refl (s : State) : RegionsOnly s s := ⟨rfl, rfl⟩

theorem RegionsOnly.trans {u : State} (h : RegionsOnly s t) (k : RegionsOnly t u) : RegionsOnly s u :=
  ⟨by rw [k.rest, h.rest], k.bare.trans h.bare⟩

theorem RegionsOnly.foldl {α : Type} {f : State → α → State} (hf : ∀ s x, RegionsOnly s (f s x)) (l : List α) :
    ∀ s, RegionsOnly s (l.foldl f s) := by
  induction l with
  | nil => exact .refl
  | cons x l ih => exact fun s => (hf s x).trans (ih _)

theorem RegionsOnly.modRegion {p : BitVec 16} {f : Region → Region} (hf : ∀ r, (f r).bare = r.bare) : RegionsOnly s (modRegion s p f) :=
  ⟨rfl, bareRegions_modRegion hf⟩

variable (h : RegionsOnly s t)
include h

theorem RegionsOnly.homes : HomesSame s t := by
  rw [h.rest]
  exact .of_eq rfl rfl rfl rfl

theorem RegionsOnly.tctx : t.tctx = s.tctx := by rw [h.rest]

theorem RegionsOnly.kernels : t.kernels = s.kernels := by rw [h.rest]

theorem RegionsOnly.leaves (p : BitVec 16) : stage2Leaves t (tctxOf t p false) = stage2Leaves s (tctxOf s p false) := by
  rw [stage2Leaves_homes h.homes, tctxOf_bare h.bare h.tctx]

theorem pinsFor_bare {r r' : Region} (hb : r'.bare = r.bare) : pinsFor t r' = pinsFor s r := by
  have hring : ringPins t = ringPins s := funext fun k => by rw [ringPins_eq, ringPins_eq, h.leaves]
  have hsave : pinsOf t r' = pinsOf s r := by
    simp only [pinsOf_eq, rcbField_of_bare hb, Region.part_of_bare hb, h.leaves]
  rw [pinsFor, pinsFor, h.kernels, hring, hsave, Region.part_of_bare hb]

end

/-! ### A tree of regions pinned -/

/-- The pins of one region of the tree. -/
def pinOne (s : State) (r : Region) : State := modRegion s r.part fun q => { q with pins := pinsFor s r }

theorem pinAll_eq (s : State) (p : BitVec 16) : pinAll s p = (subtree s p).foldl pinOne s := rfl

theorem pinOne_only (s : State) (r : Region) : RegionsOnly s (pinOne s r) := .modRegion fun _ => rfl

theorem regionOf_pinOne_same (s : State) (r : Region) :
    regionOf (pinOne s r) r.part = (regionOf s r.part).map fun q => { q with pins := pinsFor s r } := regionOf_modRegion_same fun _ => rfl

theorem regionOf_pinOne_other (s : State) {r : Region} {p : BitVec 16} (h : p ≠ r.part) : regionOf (pinOne s r) p = regionOf s p :=
  regionOf_modRegion_other (fun _ => rfl) h

theorem pinAll_only (s : State) (p : BitVec 16) : RegionsOnly s (pinAll s p) := .foldl pinOne_only _ s

/-- Once a region has its pins it keeps them, where no other has its number. -/
theorem pinOnes_pins {s : State} {p : BitVec 16} {r : Region} (hr : r.part = p) (l : List Region) : ∀ {t : State}, RegionsOnly s t →
    (∀ q ∈ l, q.part = p → q = r) → (r ∈ l ∨ ∀ q, regionOf t p = some q → q.pins = pinsFor s r) →
    ∀ q, regionOf (l.foldl pinOne t) p = some q → q.pins = pinsFor s r := by
  induction l with
  | nil => intro t _ _ h; simpa using h
  | cons x l ih =>
    intro t ht hl h
    refine ih (ht.trans (pinOne_only t x)) (fun q hq => hl q (List.mem_cons_of_mem _ hq)) ?_
    by_cases hx : x.part = p
    · refine .inr fun q hq => ?_
      obtain rfl := hl x (List.mem_cons_self ..) hx
      rw [← hr, regionOf_pinOne_same] at hq
      obtain ⟨u, -, rfl⟩ := Option.map_eq_some_iff.1 hq
      exact pinsFor_bare ht rfl
    · rcases h with h | h
      · rcases List.mem_cons.1 h with rfl | h
        · exact absurd hr hx
        · exact .inl h
      · refine .inr fun q hq => h q ?_
        rwa [regionOf_pinOne_other t (Ne.symm hx)] at hq

/-- Pins are all that changes in a region. -/
theorem pinAll_pinless (s : State) (p : BitVec 16) :
    (pinAll s p).regions.map (fun q => { q with pins := [] }) = s.regions.map fun q => { q with pins := [] } :=
  foldl_keeps (f := pinOne) (fun s => s.regions.map fun q => { q with pins := [] }) (fun s r => map_updFirst (f := fun q : Region => { q with pins := pinsFor s r }) (fun _ => rfl) _) _ s

theorem mem_subtree {s : State} {p : BitVec 16} {r : Region} (hr : regionOf s p = some r) : r ∈ subtree s p := by
  refine List.mem_filter.2 ⟨mem_of_regionOf hr, ?_⟩
  rw [regionOf_part hr, lineage, hr]
  simp [regionOf_part hr]

section
variable {s : State} {p : BitVec 16} {r : Region} (hr : regionOf s p = some r) (hone : ∀ q ∈ s.regions, q.part = p → q = r)
include hr hone

theorem pinAll_pins {q : Region} (hq : regionOf (pinAll s p) p = some q) : q.pins = pinsFor s r := by
  rw [pinAll_eq] at hq
  exact pinOnes_pins (regionOf_part hr) _ (.refl s) (fun q hq => hone q (List.mem_filter.1 hq).1) (.inl (mem_subtree hr)) q hq

/-- Every area of the region has its pages pinned. -/
theorem pinAll_areas : areasPinned (pinAll s p) p := by
  have hpart := regionOf_part hr
  have only := pinAll_only s p
  refine ⟨fun q hq q' hq' hn l hl g hlo hhi hc => ?_, fun k hk hkp hks h4 h20 q hq _ l hl g hlo hhi hc => ?_⟩
  · obtain rfl : q = q' := by rw [hq] at hq'; exact Option.some.inj hq'
    obtain ⟨r', hr', hb⟩ := regionOf_some_bare only.bare hr
    obtain rfl : r' = q := by rw [hq] at hr'; exact (Option.some.inj hr').symm
    rw [pinAll_pins hr hone hq]
    refine foldl_addPins_page _ (.inl ?_)
    rw [only.leaves] at hl
    rw [rcbField_of_bare hb] at hn hhi
    rw [rcbField_of_bare hb, rcbField_of_bare hb] at hlo
    rw [pinsOf_eq, hpart, if_neg (by omega), if_neg (List.ne_nil_of_mem hl)]
    exact pagePins_page hl hlo hhi hc
  · rw [pinAll_pins hr hone hq]
    refine foldl_addPins_page _ (.inr ⟨_, List.mem_map_of_mem (List.mem_filter.2 ⟨only.kernels ▸ hk, by simp [hkp, hpart, hks]⟩), ?_⟩)
    rw [only.leaves] at hl
    have hfield (lo n : Nat) : (k.desc.extractLsb' lo n).toNat = bits k.desc.toNat lo n := BitVec.extractLsb'_toNat ..
    rw [hfield] at h4 h20
    rw [hfield, hfield] at hlo
    rw [hfield] at hhi
    rw [ringPins_eq, if_neg (by simp [h4, h20]), hkp]
    exact pagePins_page hl hlo hhi hc

end

end Sys2Proof.Machine
end

