-- ==== Sys2Proof/Proofs/Contexts.lean ====
section
/-!
The contexts of regions, queues and translation, as Sirvy writes them (R220, R304, R309, R310, R318, R332).
-/

namespace Sys2Proof.Machine

theorem ofNat_toNat16 (p : BitVec 16) : BitVec.ofNat 16 p.toNat = p := by simp

/-! ### Regions -/

section
variable {s : State} {part : BitVec 16}

theorem siblings_nil_iff : siblings s part = [] ↔ ∀ r ∈ s.regions, r.parent ≠ some part := by simp [siblings, List.filter_eq_nil_iff]

theorem exec_rcbTeardown (hsib : siblings s part = []) (hk : ∀ k ∈ s.kernels, k.part = part → k.state = 1 ∧ k.running = []) :
    exec (.rcbTeardown part.toNat) s = .next { forgetCtx s part.toNat with
      regions := s.regions.filter fun r => r.part != part, tctx := s.tctx.filter fun e => e.1 != part.toNat, answer := 0 } := by
  have hidle : s.kernels.any (fun k => k.part == part && (k.state != 1 || k.running != [])) = false := by
    simp only [List.any_eq_false, Bool.and_eq_true, beq_iff_eq, Bool.or_eq_true, bne_iff_ne, not_and, not_or, not_not]
    exact hk
  change Host.Outcome.next (if siblings s (BitVec.ofNat 16 part.toNat) ≠ [] ∨ s.kernels.any _ then s else _) = _
  rw [ofNat_toNat16, if_neg (by simp [hsib, hidle])]

theorem exec_rcbTeardown_held (h : (∃ r ∈ s.regions, r.parent = some part) ∨ ∃ k ∈ s.kernels, k.part = part ∧ ¬ (k.state = 1 ∧ k.running = [])) :
    exec (.rcbTeardown part.toNat) s = .next s := by
  change Host.Outcome.next (if siblings s (BitVec.ofNat 16 part.toNat) ≠ [] ∨ s.kernels.any _ then s else _) = _
  rw [ofNat_toNat16, if_pos]
  rcases h with ⟨r, hr, hp⟩ | ⟨k, hk, hp, hbusy⟩
  · exact .inl fun h => siblings_nil_iff.1 h r hr hp
  · refine .inr (List.any_eq_true.2 ⟨k, hk, ?_⟩)
    simp only [hp, beq_self_eq_true, Bool.true_and, Bool.or_eq_true, bne_iff_ne]
    tauto

/-- The cells of a frozen subtree that it still owns. -/
def stillOwned (s : State) (part : BitVec 16) (ns : List Nat) : List Nat :=
  ns.filter fun n => ((subtree s part).map (·.part)).contains (seqOwner (getCell s n))

theorem exec_subtreeRelease {r : Region} {ns : List Nat} (hr : regionOf s part = some r) (hf : r.frozen = some ns) :
    exec (.subtreeRelease part.toNat) s = .next (if (stillOwned s part ns).any (scanRuns s) then s else
      modRegion ((stillOwned s part ns).foldl (fun s n => modCell s n release) s) part fun r => { r with frozen := none }) := by
  change execSubtreeRelease part.toNat s = _
  simp only [execSubtreeRelease, ofNat_toNat16, hr, hf, regionOf_part hr]
  rfl

theorem release_pc (x : Cell) : (release x).user.pc = x.user.pc := by
  unfold release
  split <;> rfl

theorem foldl_modCell_regions (f : Cell → Cell) (l : List Nat) : ∀ s : State, (l.foldl (fun s n => modCell s n f) s).regions = s.regions :=
  foldl_keeps (f := fun s n => modCell s n f) State.regions (fun _ _ => rfl) l

end

/-! ### Queues and translation -/

theorem exec_queueContextWrite_refused {s : State} {q : Nat} {v : BitVec 256} (h : 512 ≤ q) :
    exec (.queueContextWrite q v) s = .next { s with answer := 1 } := congrArg Host.Outcome.next (if_pos h)

/-- The fields of a queue context that can be written. -/
def queueContext (v : BitVec 256) : BitVec 256 := BitVec.ofNat 256 (bits v.toNat 128 128 * 2 ^ 128 + bits v.toNat 32 32 * 2 ^ 32 + bits v.toNat 0 5)

theorem exec_queueContextWrite {s : State} {q : Nat} {v : BitVec 256} (h : q < 512) : exec (.queueContextWrite q v) s =
    .next { s with queues := smPut s.queues q ⟨queueContext v, v.extractLsb' 32 32, true, []⟩, answer := 0 } := by
  have hw : BitVec.ofNat 32 (bits v.toNat 32 32) = v.extractLsb' 32 32 := by
    apply BitVec.eq_of_toNat_eq
    rw [BitVec.toNat_ofNat, BitVec.extractLsb'_toNat, bits, Nat.mod_mod]
  refine congrArg Host.Outcome.next ((if_neg (by omega)).trans ?_)
  dsimp only
  rw [hw]
  rfl

/-- A field of a number that is made of fields. -/
theorem extractLsb'_ofNat (x lo n : Nat) (h : lo + n ≤ 256) : (BitVec.ofNat 256 x).extractLsb' lo n = BitVec.ofNat n (bits x lo n) := by
  apply BitVec.eq_of_getLsbD_eq
  intro j hj
  simp only [BitVec.getLsbD_extractLsb', BitVec.getLsbD_ofNat, bits_testBit, hj, decide_true, Bool.true_and]
  rw [decide_eq_true (by omega), Bool.true_and]

theorem extractLsb'_eq (v : BitVec 256) (lo n : Nat) : v.extractLsb' lo n = BitVec.ofNat n (bits v.toNat lo n) := by
  apply BitVec.eq_of_toNat_eq
  rw [BitVec.toNat_ofNat, BitVec.extractLsb'_toNat, bits, Nat.mod_mod]

theorem queueContext_fields (v : BitVec 256) : (queueContext v).extractLsb' 0 5 = v.extractLsb' 0 5 ∧ (queueContext v).extractLsb' 5 27 = 0 ∧
    (queueContext v).extractLsb' 32 32 = v.extractLsb' 32 32 ∧ (queueContext v).extractLsb' 64 64 = 0 ∧
    (queueContext v).extractLsb' 128 128 = v.extractLsb' 128 128 := by
  have h1 := bits_lt v.toNat 128 128
  have h2 := bits_lt v.toNat 32 32
  have h3 := bits_lt v.toNat 0 5
  rw [queueContext, extractLsb'_ofNat _ _ _ (by norm_num), extractLsb'_ofNat _ _ _ (by norm_num), extractLsb'_ofNat _ _ _ (by norm_num),
    extractLsb'_ofNat _ _ _ (by norm_num), extractLsb'_ofNat _ _ _ (by norm_num), extractLsb'_eq v, extractLsb'_eq v, extractLsb'_eq v]
  generalize bits v.toNat 128 128 = a at *
  generalize bits v.toNat 32 32 = b at *
  generalize bits v.toNat 0 5 = c at *
  simp only [bits_div]
  refine ⟨congrArg _ ?_, congrArg (BitVec.ofNat 27) (a₂ := 0) ?_, congrArg _ ?_, congrArg (BitVec.ofNat 64) (a₂ := 0) ?_, congrArg _ ?_⟩
  all_goals norm_num at *
  all_goals omega

/-- The fields of a translation context that can be written. -/
theorem tctxMask_fields (v : BitVec 256) : let c : BitVec 256 := BitVec.ofNat 256 (tctxMask v.toNat)
    c.extractLsb' 0 2 = v.extractLsb' 0 2 ∧ c.extractLsb' 2 30 = 0 ∧ c.extractLsb' 32 24 = v.extractLsb' 32 24 ∧
      c.extractLsb' 56 84 = 0 ∧ c.extractLsb' 140 52 = v.extractLsb' 140 52 ∧ c.extractLsb' 192 12 = 0 ∧
      c.extractLsb' 204 52 = v.extractLsb' 204 52 := by
  intro c
  have h1 := bits_lt v.toNat 204 52
  have h2 := bits_lt v.toNat 140 52
  have h3 := bits_lt v.toNat 32 24
  have h4 := bits_lt v.toNat 0 2
  simp only [c]
  rw [extractLsb'_ofNat _ _ _ (by norm_num), extractLsb'_ofNat _ _ _ (by norm_num), extractLsb'_ofNat _ _ _ (by norm_num),
    extractLsb'_ofNat _ _ _ (by norm_num), extractLsb'_ofNat _ _ _ (by norm_num), extractLsb'_ofNat _ _ _ (by norm_num),
    extractLsb'_ofNat _ _ _ (by norm_num), extractLsb'_eq v, extractLsb'_eq v, extractLsb'_eq v, extractLsb'_eq v, tctxMask]
  generalize bits v.toNat 204 52 = a at *
  generalize bits v.toNat 140 52 = b at *
  generalize bits v.toNat 32 24 = d at *
  generalize bits v.toNat 0 2 = e at *
  simp only [bits_div]
  refine ⟨congrArg _ ?_, congrArg (BitVec.ofNat 30) (a₂ := 0) ?_, congrArg _ ?_, congrArg (BitVec.ofNat 84) (a₂ := 0) ?_, congrArg _ ?_,
    congrArg (BitVec.ofNat 12) (a₂ := 0) ?_, congrArg _ ?_⟩
  all_goals norm_num at *
  all_goals omega

section
variable {s : State} {part : BitVec 16} (v : BitVec 256)

/-- A function that holds the context of a region locks it (R332). -/
def tctxHeld (s : State) (part : BitVec 16) : Bool := s.tctx.any fun e => e.1 == part.toNat
@[inherit_doc tctxHeld] def holderState (s : State) (part : BitVec 16) : BitVec 2 :=
  (getHost s (tctxFunc (smGet TCtx.reset s.tctx part.toNat))).tdisp

/-- The context of a region written. -/
def tctxWritten (s : State) (part : BitVec 16) : State := { forgetCtx s part.toNat with
  tctx := smPut s.tctx part.toNat { smGet TCtx.reset s.tctx part.toNat with reg := BitVec.ofNat 256 (tctxMask v.toNat) }, answer := 0 }

theorem exec_translationContextWrite (s : State) (part : BitVec 16) : exec (.translationContextWrite part.toNat v) s = .next
    (if (regionOf s part).isNone then { s with answer := 1 }
     else if tctxHeld s part && (holderState s part == 1 || holderState s part == 2) then
       functionError s (tctxFunc (smGet TCtx.reset s.tctx part.toNat))
     else if tctxHeld s part && holderState s part == 3 then { s with answer := 1 }
     else pinAll (tctxWritten v s part) part) := by
  change execTranslationContextWrite part.toNat v s = _
  simp only [execTranslationContextWrite, ofNat_toNat16]
  rfl

section
variable (hr : (regionOf s part).isSome = true)
include hr

theorem exec_translationContextWrite_open (h : ¬ (tctxHeld s part = true ∧ holderState s part ≠ 0)) :
    exec (.translationContextWrite part.toNat v) s = .next (pinAll (tctxWritten v s part) part) := by
  have hlock (w : BitVec 2) (hw : w ≠ 0) : (tctxHeld s part && holderState s part == w) = false := by
    rw [Bool.and_eq_false_iff, beq_eq_false_iff_ne, ← Bool.not_eq_true]
    by_contra hc
    rw [not_or, not_not, not_not] at hc
    exact h ⟨hc.1, hc.2 ▸ hw⟩
  rw [exec_translationContextWrite, if_neg (by simpa using Option.isSome_iff_ne_none.1 hr), Bool.and_or_distrib_left, hlock 1 (by decide),
    hlock 2 (by decide), hlock 3 (by decide)]
  rfl

variable (hh : tctxHeld s part = true)
include hh

theorem exec_translationContextWrite_locked (htd : holderState s part = 1 ∨ holderState s part = 2) :
    exec (.translationContextWrite part.toNat v) s = exec (.tdispError (tctxFunc (smGet TCtx.reset s.tctx part.toNat))) s := by
  rw [exec_translationContextWrite, if_neg (by simpa using Option.isSome_iff_ne_none.1 hr), hh, if_pos (by simpa using htd)]
  rfl

theorem exec_translationContextWrite_error (htd : holderState s part = 3) :
    exec (.translationContextWrite part.toNat v) s = .next { s with answer := 1 } := by
  rw [exec_translationContextWrite, if_neg (by simpa using Option.isSome_iff_ne_none.1 hr), hh, htd]
  rfl

end

theorem tctxWritten_walks (d : Nat) : (getDie (tctxWritten v s part) d).walks = (getDie s d).walks.filter fun e => e.key != part.toNat := by
  have hdie : getDie (tctxWritten v s part) d = { getDie s d with walks := (getDie s d).walks.filter fun e => e.key != part.toNat } :=
    smGet_map (d := Die.reset) (f := fun x => { x with walks := x.walks.filter fun e => e.key != part.toNat }) rfl s.dies d
  rw [hdie]

end

end Sys2Proof.Machine

namespace Sys2Proof.Laws
open Sys2Proof Machine

/-- A region whose number no other has. -/
theorem region_unique {s : State} (h : (s.regions.map (·.part)).Nodup) {p : BitVec 16} {r : Region} (hr : regionOf s p = some r) :
    ∀ q ∈ s.regions, q.part = p → q = r := fun _ hq hp =>
  List.inj_on_of_nodup_map h hq (mem_of_regionOf hr) (hp.trans (regionOf_part hr).symm)

/-- Of O57, the contexts. -/
theorem contextsAreWritten : Sys2Proof.contextsAreWritten := by
  intro s part q v t held tdisp bare idle
  have hheld : tctxHeld s part = true ↔ held := by simp [tctxHeld, held]
  refine ⟨fun hsib hk => ?_, exec_rcbTeardown_held, fun r ns hr hf => ?_, fun hq => ?_, exec_queueContextWrite_refused, fun hr => ?_,
    fun hr hfree => ?_, fun hr hh htd => ?_, fun hr hh htd => ?_⟩
  · exact exec_rcbTeardown (siblings_nil_iff.2 hsib) hk
  · intro owned
    rw [exec_subtreeRelease hr hf]
    refine ⟨fun ⟨n, hn, hrun⟩ => congrArg _ (if_pos (List.any_eq_true.2 ⟨n, hn, hrun⟩)), fun hfree => ⟨_, congrArg _ (if_neg ?_), ⟨_, ?_, rfl⟩,
      fun n => ?_⟩⟩
    · rw [Bool.not_eq_true, List.any_eq_false]
      exact fun n hn => by simp [hfree n hn]
    · have hsame : regionOf ((stillOwned s part ns).foldl (fun s n => modCell s n release) s) part = some r := by
        rw [regionOf, foldl_modCell_regions, ← regionOf, hr]
      refine (regionOf_modRegion_same (f := fun r => { r with frozen := none }) fun _ => rfl).trans ?_
      rw [hsame, Option.map_some]
    · have hcell : getCell (modRegion ((stillOwned s part ns).foldl (fun s n => modCell s n release) s) part fun r => { r with frozen := none }) n =
          if n ∈ owned then release (getCell s n) else getCell s n := getCell_foldl_modCell release release_release _ s n
      rw [hcell]
      by_cases hn : n ∈ owned
      · rw [if_pos hn, release_hold, release_pc, List.contains_iff_mem.2 hn, Bool.true_and]
        exact ⟨rfl, rfl⟩
      · rw [if_neg hn, List.contains_eq_mem, decide_eq_false hn]
        simp
  · exact ⟨queueContext v, exec_queueContextWrite hq, queueContext_fields v⟩
  · rw [exec_translationContextWrite, hr]
    rfl
  · obtain ⟨r, hr⟩ := Option.isSome_iff_exists.1 hr
    have only := pinAll_only (tctxWritten v s part) part
    have hpins := pinAll_pinless (tctxWritten v s part) part
    refine ⟨BitVec.ofNat 256 (tctxMask v.toNat), pinAll (tctxWritten v s part) part, ?_, fun hd => ?_, ?_, ?_, ?_, ?_, hpins, fun d => ?_,
      tctxMask_fields v⟩
    · exact exec_translationContextWrite_open v (by rw [hr]; rfl) fun h => hfree ⟨hheld.1 h.1, h.2⟩
    · exact pinAll_areas (r := r) hr (region_unique hd hr)
    all_goals rw [only.rest]
    · rfl
    · rfl
    · rfl
    · rfl
    · exact tctxWritten_walks v d
  · exact exec_translationContextWrite_locked v hr (hheld.2 hh) htd
  · exact exec_translationContextWrite_error v hr (hheld.2 hh) htd

end Sys2Proof.Laws
end

