-- ==== Sys2Proof/Proofs/TakeIn.lean ====
section
/-!
What a command processor takes in from a queue (R312, R313, R317, R366, R407), and what that leaves: the cells, the regions with their
contexts, RD of every queue, and the kernels that stand, after which new ones come.
-/

namespace Sys2Proof.Machine

/-! ### A packet -/

/-- A kernel keeps where it comes from, and its packet. -/
structure KernelKept (k k' : Kernel) : Prop where
  kid : k'.kid = k.kid
  q : k'.q = k.q
  pidx : k'.pidx = k.pidx
  part : k'.part = k.part
  packet : k'.packet = k.packet

theorem KernelKept.refl (k : Kernel) : KernelKept k k := ⟨rfl, rfl, rfl, rfl, rfl⟩

theorem KernelKept.trans {k k' k'' : Kernel} (h : KernelKept k k') (h' : KernelKept k' k'') : KernelKept k k'' :=
  ⟨h'.kid.trans h.kid, h'.q.trans h.q, h'.pidx.trans h.pidx, h'.part.trans h.part, h'.packet.trans h.packet⟩

theorem ended_kept (s : State) (k : Kernel) (status : Nat) : KernelKept k (ended s k status) := ⟨rfl, rfl, rfl, rfl, rfl⟩

theorem loadKernel_kept (s : State) (r : Region) (k : Kernel) : KernelKept k (loadKernel s r k).2 := by
  unfold loadKernel
  dsimp only
  split
  · exact ended_kept ..
  split
  · exact ended_kept ..
  split
  · exact ⟨rfl, rfl, rfl, rfl, rfl⟩
  split
  · exact ⟨rfl, rfl, rfl, rfl, rfl⟩
  split
  · exact ⟨rfl, rfl, rfl, rfl, rfl⟩
  · exact ⟨rfl, rfl, rfl, rfl, rfl⟩

/-- The packet of a queue at RD, read. -/
structure Packet where
  q : Nat
  u : Queue
  r : Region
  val : Nat

/-- The kernel that it brings. -/
def Packet.kernel (p : Packet) (s : State) : Kernel :=
  newKernel s.seq (some p.q) (qRd p.u) p.r.part p.val (bits p.val 128 64) none

/-- The checks of its type. -/
def Packet.checked (p : Packet) (s : State) : State × Kernel :=
  if bits p.val 1 3 = 0 then (s, ended s (p.kernel s) (if p.u.cancels.contains (qRd p.u) then 2 else 1))
  else if bits p.val 1 3 = 1 then loadKernel s p.r (p.kernel s)
  else (s, ended s (p.kernel s) 5)

/-- A launch that was cancelled before it was read. -/
def Packet.cancelled (p : Packet) (e : State × Kernel) : Kernel :=
  if e.2.state = 0 ∧ p.u.cancels.contains (qRd p.u) then ended e.1 e.2 2 else e.2

/-- The packet taken in. -/
def Packet.taken (p : Packet) (s : State) : State :=
  let e := p.checked (fresh s)
  let t := modQueue e.1 p.q fun u => { u with cancels := u.cancels.filter (· != qRd p.u) }
  { t with kernels := t.kernels ++ [p.cancelled e] }

theorem Packet.offHome_checked (p : Packet) (s : State) : offHome (p.checked s).1 = offHome s := by
  unfold checked
  split
  · rfl
  · split
    · exact offHome_loadKernel
    · rfl

theorem Packet.cancelled_kept (p : Packet) (s : State) : KernelKept (p.kernel s) (p.cancelled (p.checked s)) := by
  have hc : KernelKept (p.kernel s) (p.checked s).2 := by
    unfold checked
    split
    · exact ended_kept ..
    · split
      · exact loadKernel_kept ..
      · exact ended_kept ..
  unfold cancelled
  split
  · exact hc.trans (ended_kept ..)
  · exact hc

/-! ### A queue -/

/-- Nothing of a queue can be taken in: it is paused or stalled, its RD has come to WIDX, its size is none, or its packet is in. -/
def idle (s : State) (q : Nat) : Bool :=
  let u := queueOf s q
  s.paused || u.stalled || qRd u == u.widx || !(decide (4 ≤ qLog u) && decide (qLog u ≤ 16)) ||
    s.kernels.any fun k => k.q == some q && k.pidx == qRd u

/-- A queue that has stalled. -/
def stalledAt (s : State) (q : Nat) : State := modQueue s q fun u => { u with stalled := true }

section
variable {s : State} {q : Nat} {r : Region} (hr : qRegion s (queueOf s q) = some r)
include hr

theorem takeIn_idle (h : idle s q = true) : takeIn s q = s := by
  unfold idle at h
  simp only [takeIn, hr]
  exact if_pos h

variable (h : idle s q = false)
include h

theorem takeIn_held (hh : cpHeld s (tctxOf s r.part false) (slotOf (queueOf s q) (qRd (queueOf s q))) s.seq = true) : takeIn s q = s := by
  simp only [takeIn, hr]
  exact (if_neg (Bool.eq_false_iff.1 h)).trans (if_pos hh)

variable (hh : cpHeld s (tctxOf s r.part false) (slotOf (queueOf s q) (qRd (queueOf s q))) s.seq = false)
include hh

theorem takeIn_unread (hw : cpRead64 s (tctxOf s r.part false) (slotOf (queueOf s q) (qRd (queueOf s q))) = none) :
    takeIn s q = stalledAt s q := by
  simp only [takeIn, hr, hw]
  exact (if_neg (Bool.eq_false_iff.1 h)).trans (if_neg (Bool.eq_false_iff.1 hh))

variable {s1 : State} {w : Nat} (hw : cpRead64 s (tctxOf s r.part false) (slotOf (queueOf s q) (qRd (queueOf s q))) = some (s1, w))
include hw

theorem takeIn_unwritten (hv : bit w 0 = false) : takeIn s q = stalledAt s q := by
  simp only [takeIn, hr, hw, hv]
  exact (if_neg (Bool.eq_false_iff.1 h)).trans (if_neg (Bool.eq_false_iff.1 hh))

variable (hv : bit w 0 = true)
include hv

theorem takeIn_unfetched (hp : cpRead s1 (tctxOf s r.part false) (slotOf (queueOf s q) (qRd (queueOf s q))) 64 = none) :
    takeIn s q = stalledAt s q := by
  simp only [takeIn, hr, hw, hv, hp]
  exact (if_neg (Bool.eq_false_iff.1 h)).trans (if_neg (Bool.eq_false_iff.1 hh))

variable {s2 : State} {p : Nat}
  (hp : cpRead s1 (tctxOf s r.part false) (slotOf (queueOf s q) (qRd (queueOf s q))) 64 = some (s2, p))
include hp

theorem takeIn_waits (hl : bits p 1 3 = 1 ∧ loadHeld s2 (tctxOf s r.part false) (bits p 128 64) = true) : takeIn s q = s := by
  have hc : (decide (bits p 1 3 = 1) && loadHeld s2 (tctxOf s r.part false) (bits p 128 64)) = true := by simp [hl]
  simp only [takeIn, hr, hw, hv, hp]
  exact (if_neg (Bool.eq_false_iff.1 h)).trans ((if_neg (Bool.eq_false_iff.1 hh)).trans (if_pos hc))

theorem takeIn_taken (hl : ¬ (bits p 1 3 = 1 ∧ loadHeld s2 (tctxOf s r.part false) (bits p 128 64) = true)) :
    takeIn s q = (⟨q, queueOf s q, r, p⟩ : Packet).taken s2 := by
  have hc : (decide (bits p 1 3 = 1) && loadHeld s2 (tctxOf s r.part false) (bits p 128 64)) ≠ true := by simpa using hl
  simp only [takeIn, hr, hw, hv, hp]
  exact (if_neg (Bool.eq_false_iff.1 h)).trans ((if_neg (Bool.eq_false_iff.1 hh)).trans (if_neg hc))

end

/-- What a command processor does with a queue: nothing, or it stalls, or it takes a packet in. -/
theorem takeIn_cases (s : State) (q : Nat) : takeIn s q = s ∨ takeIn s q = stalledAt s q ∨
    ∃ r s1 w s2 p, cpRead64 s (tctxOf s r.part false) (slotOf (queueOf s q) (qRd (queueOf s q))) = some (s1, w) ∧
      cpRead s1 (tctxOf s r.part false) (slotOf (queueOf s q) (qRd (queueOf s q))) 64 = some (s2, p) ∧
      takeIn s q = (⟨q, queueOf s q, r, p⟩ : Packet).taken s2 := by
  cases hr : qRegion s (queueOf s q) with
  | none => exact .inl (by simp only [takeIn, hr])
  | some r =>
    cases h : idle s q with
    | true => exact .inl (takeIn_idle hr h)
    | false =>
      cases hh : cpHeld s (tctxOf s r.part false) (slotOf (queueOf s q) (qRd (queueOf s q))) s.seq with
      | true => exact .inl (takeIn_held hr h hh)
      | false =>
        cases hw : cpRead64 s (tctxOf s r.part false) (slotOf (queueOf s q) (qRd (queueOf s q))) with
        | none => exact .inr (.inl (takeIn_unread hr h hh hw))
        | some e =>
          cases hv : bit e.2 0 with
          | false => exact .inr (.inl (takeIn_unwritten hr h hh hw hv))
          | true =>
            cases hp : cpRead e.1 (tctxOf s r.part false) (slotOf (queueOf s q) (qRd (queueOf s q))) 64 with
            | none => exact .inr (.inl (takeIn_unfetched hr h hh hw hv hp))
            | some f =>
              by_cases hl : bits f.2 1 3 = 1 ∧ loadHeld f.1 (tctxOf s r.part false) (bits f.2 128 64) = true
              · exact .inl (takeIn_waits hr h hh hw hv hp hl)
              · exact .inr (.inr ⟨r, e.1, e.2, f.1, f.2, hw, hp, takeIn_taken hr h hh hw hv hp hl⟩)

/-! ### What it leaves -/

/-- From s to t command processors have taken packets in. -/
structure TakesIn (s t : State) : Prop where
  cells : t.cells = s.cells
  regions : t.regions = s.regions
  tctx : t.tctx = s.tctx
  heads : ∀ q, (queueOf t q).ctx = (queueOf s q).ctx
  kernels : ∃ l, t.kernels = s.kernels ++ l ∧ ∀ k ∈ l, ∃ q, k.q = some q ∧ k.pidx = qRd (queueOf s q)

section
variable {s t u : State}

theorem TakesIn.refl (s : State) : TakesIn s s := ⟨rfl, rfl, rfl, fun _ => rfl, [], by simp, by simp⟩

theorem TakesIn.rd (h : TakesIn s t) (q : Nat) : qRd (queueOf t q) = qRd (queueOf s q) := by rw [qRd, h.heads, qRd]

theorem TakesIn.trans (h : TakesIn s t) (k : TakesIn t u) : TakesIn s u := by
  obtain ⟨l, hl, hq⟩ := h.kernels
  obtain ⟨l', hl', hq'⟩ := k.kernels
  refine ⟨k.cells.trans h.cells, k.regions.trans h.regions, k.tctx.trans h.tctx, fun q => (k.heads q).trans (h.heads q), l ++ l', ?_, ?_⟩
  · rw [hl', hl, List.append_assoc]
  · intro x hx
    rcases List.mem_append.1 hx with hx | hx
    · exact hq x hx
    · obtain ⟨q, h1, h2⟩ := hq' x hx
      exact ⟨q, h1, h2.trans (h.rd q)⟩

theorem TakesIn.foldl {α : Type} {f : State → α → State} (hf : ∀ s x, TakesIn s (f s x)) (l : List α) : ∀ s, TakesIn s (l.foldl f s) := by
  induction l with
  | nil => exact .refl
  | cons x l ih => exact fun s => (hf s x).trans (ih _)

theorem TakesIn.getCell (h : TakesIn s t) (n : Nat) : getCell t n = getCell s n := by rw [Machine.getCell, h.cells, Machine.getCell]

theorem TakesIn.regionOf (h : TakesIn s t) (p : BitVec 16) : regionOf t p = regionOf s p := by rw [Machine.regionOf, h.regions, Machine.regionOf]

/-- A kernel that stands is found as before. -/
theorem TakesIn.kernelOf (h : TakesIn s t) {kid : Nat} {k : Kernel} (hk : kernelOf s kid = some k) : kernelOf t kid = some k := by
  obtain ⟨l, hl, -⟩ := h.kernels
  rw [Machine.kernelOf, hl, List.find?_append, ← Machine.kernelOf, hk, Option.some_or]

/-- Other fields of a queue than its context change. -/
theorem queueOf_modQueue_ctx {s : State} {q : Nat} {f : Queue → Queue} (hf : ∀ u, (f u).ctx = u.ctx) (i : Nat) :
    (queueOf (modQueue s q f) i).ctx = (queueOf s i).ctx := by
  by_cases h : i = q
  · rw [h, queueOf_modQueue_same, hf]
  · rw [queueOf_modQueue_other h]

theorem stalledAt_takesIn (s : State) (q : Nat) : TakesIn s (stalledAt s q) :=
  ⟨rfl, rfl, rfl, queueOf_modQueue_ctx fun _ => rfl, [], (List.append_nil _).symm, by simp⟩

/-- The state that a packet leaves but for memory. -/
theorem Packet.taken_takesIn {p : Packet} (hu : p.u = queueOf s p.q) (h : offHome t = offHome s) : TakesIn s (p.taken t) := by
  have hc : offHome (p.checked (fresh t)).1 = offHome s := (p.offHome_checked _).trans (offHome_fresh.trans h)
  have cells : (p.taken t).cells = (p.checked (fresh t)).1.cells := rfl
  have regions : (p.taken t).regions = (p.checked (fresh t)).1.regions := rfl
  have tctx : (p.taken t).tctx = (p.checked (fresh t)).1.tctx := rfl
  have kernels : (p.taken t).kernels = (p.checked (fresh t)).1.kernels ++ [p.cancelled (p.checked (fresh t))] := rfl
  refine ⟨cells.trans (cells_of_offHome hc), regions.trans (regions_of_offHome hc), tctx.trans (tctx_of_offHome hc), fun q => ?_, [p.cancelled (p.checked (fresh t))], ?_, ?_⟩
  · refine (queueOf_modQueue_ctx (s := (p.checked (fresh t)).1) (q := p.q)
      (f := fun u => { u with cancels := u.cancels.filter (· != qRd p.u) }) (fun _ => rfl) q).trans ?_
    rw [queueOf, queues_of_offHome hc, queueOf]
  · rw [kernels, kernels_of_offHome hc]
  · intro k hk
    obtain rfl := List.mem_singleton.1 hk
    have kept := p.cancelled_kept (fresh t)
    exact ⟨p.q, kept.q, kept.pidx.trans (congrArg qRd hu)⟩

theorem takeIn_takesIn (s : State) (q : Nat) : TakesIn s (takeIn s q) := by
  rcases takeIn_cases s q with h | h | ⟨r, s1, w, s2, p, hw, hp, h⟩ <;> rw [h]
  · exact .refl s
  · exact stalledAt_takesIn s q
  · exact Packet.taken_takesIn rfl ((offHome_cpRead hp).trans (offHome_cpRead64 hw))

/-! ### Activation -/

/-- A change of other fields. -/
theorem TakesIn.of_eq (hc : t.cells = s.cells) (hr : t.regions = s.regions) (ht : t.tctx = s.tctx) (hq : t.queues = s.queues)
    (hk : t.kernels = s.kernels) : TakesIn s t :=
  ⟨hc, hr, ht, fun q => by rw [queueOf, hq, queueOf], [], by rw [hk, List.append_nil], by simp⟩

theorem resumeAll_takesIn (s : State) (status : Nat) : TakesIn s (resumeAll s status) := by
  have hosts (f : HostFn → HostFn) (l : List Nat) (s : State) : TakesIn s (l.foldl (fun s i => modHost s i f) s) :=
    .foldl (f := fun s i => modHost s i f) (fun s i => .of_eq rfl rfl rfl rfl rfl) l s
  refine TakesIn.trans ?_ (.foldl takeIn_takesIn _ _)
  exact (hosts _ _ s).trans (.of_eq rfl rfl rfl rfl rfl)

theorem tryActivate_takesIn (s : State) : TakesIn s (tryActivate s) := by
  unfold tryActivate
  split
  · split
    · refine TakesIn.trans ?_ (resumeAll_takesIn _ _)
      exact .of_eq rfl rfl rfl rfl rfl
    · exact .refl s
  · exact .refl s

end

end Sys2Proof.Machine
end

