-- ==== Sys2Proof/Proofs/Packets.lean ====
section
/-!
Doorbells, and what a packet at RD becomes (R311 to R313, R317, R366).
-/

namespace Sys2Proof.Machine

/-- A queue whose doorbell has rung. -/
def rung (s : State) (q : Nat) (v : Word) : State := modQueue s q fun u => { u with widx := v.truncate 32, stalled := false }

section
variable {s : State} {q : Nat}

theorem exec_qnotify (v : Word) (hq : q < 512) : exec (.qnotify q v) s = .next (if bellHeld s q then s else takeIn (rung s q v) q) := by
  change Host.Outcome.next (if 512 ≤ q ∨ bellHeld s q then s else takeIn (rung s q v) q) = _
  simp only [show ¬ 512 ≤ q by omega, false_or]

theorem exec_qnotify_free {v : Word} (hq : q < 512) (h : bellHeld s q = false) : exec (.qnotify q v) s = .next (takeIn (rung s q v) q) := by
  rw [exec_qnotify v hq, h]
  rfl

theorem exec_qnotifyCancel_held {v : Word} (h : bellHeld s q = true) : exec (.qnotifyCancel q v) s = .next s :=
  congrArg Host.Outcome.next (if_pos h)

variable {r : Region} (hr : qRegion s (queueOf s q) = some r)
include hr

theorem bellHeld_iff : bellHeld s q = true ↔
    (tctxKey s r.part).isSome = true ∧ (getHost s (tctxFunc (tctxOf s r.part false))).queue ≠ [] := by
  simp [bellHeld, hr]

theorem qRegion_rung (v : Word) : qRegion (rung s q v) (queueOf (rung s q v) q) = some r := by
  rw [rung, queueOf_modQueue_same]
  exact hr

variable {v : Word} (hp : s.paused = false) (h4 : 4 ≤ qLog (queueOf s q)) (h16 : qLog (queueOf s q) ≤ 16)
  (hk : ∀ k ∈ s.kernels, ¬ (k.q = some q ∧ k.pidx = qRd (queueOf s q)))
include hp h4 h16 hk

omit hr in
/-- After the doorbell a queue has a packet to read where RD is not WIDX. -/
theorem idle_rung : idle (rung s q v) q = (qRd (queueOf s q) == v.truncate 32) := by
  have hkern : (rung s q v).kernels.any (fun k => k.q == some q && k.pidx == qRd (queueOf s q)) = false := by
    rw [List.any_eq_false]
    exact fun k hm => by simpa using hk k hm
  have hrd : qRd (queueOf (rung s q v) q) = qRd (queueOf s q) := by rw [rung, queueOf_modQueue_same]; rfl
  have hlog : qLog (queueOf (rung s q v) q) = qLog (queueOf s q) := by rw [rung, queueOf_modQueue_same]; rfl
  have hpaused : (rung s q v).paused = false := hp
  simp only [idle, hrd, hlog, hkern, hpaused, h4, h16]
  rw [rung, queueOf_modQueue_same]
  simp

end

/-! ### What a packet becomes -/

section
variable (p : Packet) (s : State)

theorem Packet.taken_kernels {l : List Kernel} (h : s.kernels = l) : (p.taken s).kernels = l ++ [p.cancelled (p.checked (fresh s))] := by
  have hc : (p.checked (fresh s)).1.kernels = s.kernels := kernels_of_offHome ((p.offHome_checked (fresh s)).trans offHome_fresh)
  have ht : (p.taken s).kernels = (p.checked (fresh s)).1.kernels ++ [p.cancelled (p.checked (fresh s))] := rfl
  rw [ht, hc, h]

variable {p s}

/-- A packet that is no launch is cancelled by its type alone. -/
theorem Packet.cancelled_of_state {e : State × Kernel} (h : e.2.state ≠ 0) : p.cancelled e = e.2 := if_neg fun hc => h hc.1

theorem Packet.cancelled_nop (h : bits p.val 1 3 = 0) :
    (p.cancelled (p.checked s)).state = 2 ∧ (p.cancelled (p.checked s)).status = if qRd p.u ∈ p.u.cancels then 2 else 1 := by
  have he : p.checked s = (s, ended s (p.kernel s) (if p.u.cancels.contains (qRd p.u) then 2 else 1)) := if_pos h
  rw [he, cancelled_of_state (by simp [ended])]
  refine ⟨rfl, ?_⟩
  simp [ended]

theorem Packet.cancelled_unknown (h : 1 < bits p.val 1 3) :
    (p.cancelled (p.checked s)).state = 2 ∧ (p.cancelled (p.checked s)).status = 5 := by
  have he : p.checked s = (s, ended s (p.kernel s) 5) := (if_neg (by omega)).trans (if_neg (by omega))
  rw [he, cancelled_of_state (by simp [ended])]
  exact ⟨rfl, rfl⟩

section
variable (h : bits p.val 1 3 = 1)
include h

theorem Packet.checked_launch : p.checked s = loadKernel s p.r (p.kernel s) := (if_neg (by omega)).trans (if_pos h)

/-- A launch whose descriptor cannot be taken. -/
theorem Packet.cancelled_bad {t : State} {k : Kernel} (he : loadKernel s p.r (p.kernel s) = (t, ended t k 6)) :
    (p.cancelled (p.checked s)).state = 2 ∧ (p.cancelled (p.checked s)).status = 6 := by
  rw [checked_launch h, he, cancelled_of_state (by simp [ended])]
  exact ⟨rfl, rfl⟩

omit h in
theorem Packet.kernel_kdesc : (p.kernel s).kdesc.toNat = bits p.val 128 64 := by
  have := bits_lt p.val 128 64
  exact Nat.mod_eq_of_lt this

theorem Packet.cancelled_unaligned (ha : bits p.val 128 64 % 64 ≠ 0) :
    (p.cancelled (p.checked s)).state = 2 ∧ (p.cancelled (p.checked s)).status = 6 := by
  refine cancelled_bad h (t := s) (k := p.kernel s) ?_
  unfold loadKernel
  simp only [kernel_kdesc]
  rw [if_pos ha]

variable (ha : bits p.val 128 64 % 64 = 0) {u : State} {d : Nat}
  (hd : cpRead s (tctxOf s p.r.part false) (bits p.val 128 64) 64 = some (u, d))
include ha hd

theorem Packet.cancelled_descBad (hb : descBad (bits p.val 128 64) d = true) :
    (p.cancelled (p.checked s)).state = 2 ∧ (p.cancelled (p.checked s)).status = 6 := by
  refine cancelled_bad h (t := u) (k := { p.kernel s with desc := BitVec.ofNat 512 d }) ?_
  unfold loadKernel
  simp only [kernel_kdesc, hd, hb]
  rw [if_neg (by simpa using ha)]
  rfl

/-- A launch that passes the checks of its descriptor, and has no DICT image. -/
theorem Packet.cancelled_launch (hb : descBad (bits p.val 128 64) d = false) (hc : coresBad p.r (p.cancelled (p.checked s)) = false)
    (hi : bits d 64 64 = 0) : (p.cancelled (p.checked s)).desc = BitVec.ofNat 512 d ∧
      (qRd p.u ∉ p.u.cancels → (p.cancelled (p.checked s)).state = 0) ∧
      (qRd p.u ∈ p.u.cancels → (p.cancelled (p.checked s)).state = 2 ∧ (p.cancelled (p.checked s)).status = 2) := by
  let k : Kernel := { p.kernel s with desc := BitVec.ofNat 512 d }
  have hdict : kDict k = 0 := by
    rw [kDict, ← hi]
    apply Nat.eq_of_testBit_eq
    intro j
    rw [bits_testBit, bits_testBit, BitVec.testBit_toNat, BitVec.getLsbD_ofNat]
    by_cases hj : j < 64
    · rw [decide_eq_true (show 64 + j < 512 by omega), Bool.true_and]
    · simp [hj]
  have cores (k' : Kernel) (hk : k'.desc = k.desc) : coresBad p.r k' = coresBad p.r k := by
    unfold coresBad kCores kTh kG kTw
    rw [hk]
  have hload : loadKernel s p.r (p.kernel s) = if coresBad p.r k then (u, ended u k 6) else (u, k) := by
    unfold loadKernel
    simp only [kernel_kdesc, hd, hb]
    rw [if_neg (by simpa using ha)]
    by_cases hcb : coresBad p.r k = true
    · rw [if_pos hcb]
      exact if_pos ((Bool.false_or _).trans hcb)
    · rw [if_neg hcb]
      exact (if_neg (by simpa using hcb)).trans (if_pos hdict)
  have hgood : coresBad p.r k = false := by
    by_contra hbad
    rw [Bool.not_eq_false] at hbad
    rw [checked_launch h, hload, if_pos hbad, cancelled_of_state (by simp [ended])] at hc
    exact absurd ((cores (ended u k 6) rfl).symm.trans hc) (by simp [hbad])
  rw [checked_launch h, hload, hgood]
  have hz : k.state = 0 := rfl
  simp only [cancelled, Bool.false_eq_true, if_false, hz, true_and, List.contains_iff_mem]
  refine ⟨?_, fun hn => ?_, fun hn => ?_⟩
  · split <;> rfl
  · rw [if_neg hn]
    rfl
  · rw [if_pos hn]
    exact ⟨rfl, rfl⟩

end

end

end Sys2Proof.Machine

namespace Sys2Proof.Laws
open Sys2Proof Machine

/-- Of O57, the packets. -/
theorem packetsAreTaken : Sys2Proof.packetsAreTaken := by
  intro s q v r u j s0 t behind hq hr
  have hheld : bellHeld s q = true ↔ behind := bellHeld_iff hr
  refine ⟨fun hb => ⟨?_, exec_qnotifyCancel_held (hheld.2 hb)⟩, fun hb hp h4 h16 hk => ?_⟩
  · rw [exec_qnotify v hq, hheld.2 hb]
    rfl
  have hexec : exec (.qnotify q v) s = .next (takeIn s0 q) := exec_qnotify_free hq (by simpa using mt hheld.1 hb)
  have hr0 : qRegion s0 (queueOf s0 q) = some r := qRegion_rung hr v
  have hu0 : queueOf s0 q = { u with widx := v.truncate 32, stalled := false } := queueOf_modQueue_same
  have hidle : idle s0 q = (j == v.truncate 32) := idle_rung hp h4 h16 hk
  have ht0 : tctxOf s0 r.part false = t := rfl
  have hslot : slotOf (queueOf s0 q) (qRd (queueOf s0 q)) = slotOf u j := by rw [hu0]; rfl
  rw [hexec]
  refine ⟨fun hj => ?_, fun hcp => ?_, fun hj hcp s1 w hw => ⟨fun hv => ?_, fun hv s2 p hread hload => ?_⟩⟩
  · rw [takeIn_idle hr0 (by simp [hidle, hj])]
  · by_cases hj : j = v.truncate 32
    · rw [takeIn_idle hr0 (by simp [hidle, hj])]
    · rw [takeIn_held hr0 (by simp [hidle, hj]) (by rw [hslot, ht0, hcp])]
  · have hi : idle s0 q = false := by simp [hidle, hj]
    rw [takeIn_unwritten hr0 hi (by rw [hslot, ht0, hcp]) (by rw [hslot, ht0, hw]) hv]
    rfl
  · have hi : idle s0 q = false := by simp [hidle, hj]
    let pk : Packet := ⟨q, queueOf s0 q, r, p⟩
    have hrd : qRd pk.u = j := by simp only [pk, hu0]; rfl
    have hcan : pk.u.cancels = u.cancels := by simp only [pk, hu0]
    have htaken : takeIn s0 q = pk.taken s2 := takeIn_taken hr0 hi (by rw [hslot, ht0, hcp]) (by rw [hslot, ht0, hw]) hv
      (by rw [hslot, ht0, hread]) fun hl => by rw [ht0, hload hl.1] at hl; exact absurd hl.2 (by simp)
    have hoff : offHome s2 = offHome s0 := (offHome_cpRead hread).trans (offHome_cpRead64 hw)
    have hkern : s2.kernels = s0.kernels := kernels_of_offHome hoff
    have kept := pk.cancelled_kept (fresh s2)
    have hts : tctxOf (fresh s2) r.part false = t :=
      tctxOf_bare (t := fresh s2) (s := s0) (bareRegions_of_eq (regions_of_offHome hoff)) (tctx_of_offHome hoff) _ _
    refine ⟨_, pk.cancelled (pk.checked (fresh s2)), congrArg _ htaken, pk.taken_kernels _ (hkern.trans rfl), kept.q, kept.pidx.trans hrd, kept.part,
      kept.packet, ?_, fun h0 => ?_, fun h1 => pk.cancelled_unknown h1, fun h1 ha => pk.cancelled_unaligned h1 ha,
      fun h1 ha s3 d hd => ⟨fun hb => ?_, fun hb hc hi => ?_⟩⟩
    · rw [← htaken, (takeIn_takesIn s0 q).rd, hu0]
      rfl
    · rw [← hrd, ← hcan]
      exact pk.cancelled_nop h0
    · exact pk.cancelled_descBad h1 ha (u := s3) (by rw [hts]; exact hd) hb
    · rw [← hrd, ← hcan]
      exact pk.cancelled_launch h1 ha (u := s3) (by rw [hts]; exact hd) hb hc hi

end Sys2Proof.Laws
end

