-- ==== Sys2Proof/Proofs/Admissions.lean ====
section
/-!
The admission of a region (R304, R305, R307, R359).
-/

namespace Sys2Proof.Machine

/-! ### The RCB as read -/

/-- The RCB at an address. -/
def rcbAt (s : State) (pa : Nat) : BitVec 2048 := BitVec.ofNat 2048 (homeReadN s pa 256)

theorem rcbAt_toNat (s : State) (pa : Nat) : (rcbAt s pa).toNat = homeReadN s pa 256 := by
  apply Nat.eq_of_testBit_eq
  intro j
  rw [BitVec.testBit_toNat, rcbAt, BitVec.getLsbD_ofNat, homeReadN_testBit, ← Bool.and_assoc, Bool.and_self]

theorem bit_getLsbD {w : Nat} (v : BitVec w) (i : Nat) : bit v.toNat i = v.getLsbD i := by
  rw [bit, BitVec.getLsbD, Nat.testBit_eq_decide_div_mod_eq, ← Nat.shiftRight_eq_div_pow]
  rfl

theorem inherits_getLsbD {w : Nat} (v : BitVec w) {g : Nat} (hg : g < 32) : inherits v.toNat g = v.getLsbD (128 + g) := by
  have hb : bit (bits v.toNat 128 32) g = (bits v.toNat 128 32).testBit g := by
    rw [bit, Nat.testBit_eq_decide_div_mod_eq, ← Nat.shiftRight_eq_div_pow]
    rfl
  rw [inherits, rf, hb, bits_testBit, decide_eq_true hg, Bool.true_and]
  rfl

theorem field_eq_zero {w : Nat} {v : BitVec w} {lo n : Nat} : bits v.toNat lo n = 0 ↔ v.extractLsb' lo n = 0 := by
  rw [bits_toNat, ← BitVec.toNat_inj]
  rfl

/-! ### The checks -/

section
variable (s : State) (pa v : Nat)

/-- The budget that a region begins with (R305). -/
def budgetFor (par : Option (BitVec 16)) : Int := match par.bind (regionOf s) with
  | some q => if inherits v 1 then regionField s q 1 416 64 else rf v 416 64
  | none => rf v 416 64

/-- The region that an RCB asks for, under a parent and with its cells. -/
def regionFor (par : Option (BitVec 16)) (ns : List Nat) : Region :=
  ⟨pa, BitVec.ofNat 16 (rf v 64 16), BitVec.ofNat 2048 v, par, ns, 0, budgetFor s v par, BitVec.ofNat 32 (rf v 768 32), 0, none, []⟩

/-- The last check: that of the shares of one CoS. -/
def lastCheck (r : Region) : Nat × Option Region := if cosAgree { s with regions := s.regions ++ [r] } r then (0, some r) else (1, none)

/-- An RCB that no region can have. -/
def rcbRefused : Prop :=
  pa % 256 ≠ 0 ∨ rcbReserved v ∨ (rf v 90 2 = 3 ∧ !inherits v 6) ∨ BitVec.ofNat 16 (rf v 64 16) = 0 ∨
    BitVec.ofNat 16 (rf v 64 16) = 0xFFFF ∨ (regionOf s (BitVec.ofNat 16 (rf v 64 16))).isSome

/-- The cells that a region can have under a parent: as a root those that no other root has, and else what its parent has for it. -/
def cellsFit (par : Option (BitVec 16)) (ns : List Nat) : Prop :=
  (par = none ∧ ((s.regions.filter fun r => r.parent.isNone).any fun r => r.cells.any ns.contains) = false) ∨
    ∃ q ∈ s.regions, par = some q.part ∧ childCells s q v = some ns

/-- The outcomes of the checks. -/
structure Checked (a : Nat × Option Region) : Prop where
  refused : a.1 ≠ 0 → a.2 = none
  admitted : a.1 = 0 → ∃ par ns, a.2 = some (regionFor s pa v par ns) ∧ ¬ rcbRefused s pa v ∧ cellsFit s v par ns

variable {s pa v}

theorem Checked.none {e : Nat} (he : e ≠ 0) : Checked s pa v (e, none) := ⟨fun _ => rfl, fun h => absurd h he⟩

theorem Checked.last {par : Option (BitVec 16)} {ns : List Nat} (hr : ¬ rcbRefused s pa v) (hc : cellsFit s v par ns) :
    Checked s pa v (lastCheck s (regionFor s pa v par ns)) := by
  unfold lastCheck
  split
  · exact ⟨fun h => absurd rfl h, fun _ => ⟨par, ns, rfl, hr, hc⟩⟩
  · exact .none (by decide)

/-- The checks of an RCB. -/
theorem admitCheck_checked : Checked s pa v (admitCheck s pa v) := by
  unfold admitCheck
  extract_lets part mk last
  split
  · exact .none (by decide)
  rename_i hr
  split
  · split
    · exact .none (by decide)
    next ns hrect =>
      split
      · exact .none (by decide)
      next hroot =>
        refine Checked.last hr (.inl ⟨rfl, ?_⟩)
        simp only [not_or, Bool.not_eq_true] at hroot
        exact hroot.2.2.1
  · split
    · exact .none (by decide)
    next q hq =>
      split
      · exact .none (by decide)
      split
      · exact .none (by decide)
      split
      · exact .none (by decide)
      next ns hns =>
        split
        · exact .none (by decide)
        · exact Checked.last hr (.inr ⟨q, List.mem_of_find?_eq_some hq, rfl, hns⟩)

theorem cosAgree_alone (r : Region) (h : s.regions = []) : lastCheck s r = (0, some r) := by
  refine if_pos ?_
  simp [cosAgree, h]

/-- A root that meets no bar, and no other root. -/
theorem admitCheck_root {ns : List Nat} (hr : ¬ rcbRefused s pa v) (hp : rf v 0 64 = 0) (hi : rf v 128 32 = 0) (hset : bit v 387 = true)
    (hrect : rcbRect v = some ns) (hq : ownQueue v = true) (h : s.regions = []) : admitCheck s pa v = (0, some (regionFor s pa v none ns)) := by
  unfold admitCheck
  simp only [hrect]
  refine (if_neg hr).trans ((if_pos hp).trans ((if_neg ?_).trans (cosAgree_alone _ h)))
  simp [hi, hset, h, hq]

/-- A child of a parent of level 7. -/
theorem admitCheck_depth {q : Region} (hr : ¬ rcbRefused s pa v) (hp : rf v 0 64 ≠ 0) (hq : s.regions.find? (fun r => r.pa == rf v 0 64) = some q)
    (hl : rcbField q 83 3 = 7) : admitCheck s pa v = (2, none) := by
  unfold admitCheck
  simp only [hq]
  exact (if_neg hr).trans ((if_neg hp).trans (if_pos hl))

/-! ### The cells of a child -/

/-- A child has cells of its parent alone, and where it does not inherit them none that a sibling of its own holds. -/
theorem childCells_of {q : Region} {ns : List Nat} (h : childCells s q v = some ns) : (∀ n ∈ ns, n ∈ q.cells) ∧
    (inherits v 0 = false → ∀ n ∈ ns, n ∉ heldCells s q.part) := by
  unfold childCells at h
  split at h
  · rename_i hin
    cases h
    exact ⟨fun _ h => h, fun hi => by rw [hi] at hin; cases hin⟩
  dsimp only at h
  split at h
  · split at h
    next m hm =>
      obtain ⟨hc, he⟩ := Option.ite_none_right_eq_some.1 h
      cases he
      simp only [Bool.and_eq_true, List.all_eq_true, List.contains_iff_mem, Bool.not_eq_true', List.any_eq_false] at hc
      exact ⟨hc.1, fun _ => hc.2⟩
    next => cases h
  · obtain ⟨-, he⟩ := Option.ite_none_left_eq_some.1 h
    cases he
    refine ⟨fun n hn => ?_, fun _ n hn => ?_⟩
    · have hm := List.mem_of_mem_take hn
      simp only [List.mem_filter, List.contains_iff_mem] at hm
      exact hm.1.2
    · have hm := List.mem_of_mem_take hn
      simp only [List.mem_filter, Bool.not_eq_true', List.contains_eq_mem, decide_eq_false_iff_not] at hm
      exact hm.2

theorem mem_heldCells {q u : Region} {n : Nat} (hu : u ∈ s.regions) (hp : u.parent = some q.part) (hi : inherits u.rcb.toNat 0 = false)
    (hn : n ∈ u.cells) : n ∈ heldCells s q.part := by
  simp only [heldCells, siblings, List.mem_flatten, List.mem_map, List.mem_filter, beq_iff_eq]
  exact ⟨u.cells, ⟨u, ⟨⟨hu, hp⟩, by simp [hi]⟩, rfl⟩, hn⟩

end

/-! ### The admission -/

/-- A region admitted, its RCB and its shares written. -/
def enrolled (s : State) (r : Region) : State :=
  let t := { s with regions := s.regions ++ [r], answer := 0 }
  writeShares (rcbWrite (rcbWrite t r 896 64 (wrap 64 r.erem)) r 960 64 0) r

section
variable {s : State} {r : Region}

theorem offHome_enrolled : offHome (enrolled s r) = offHome { s with regions := s.regions ++ [r], answer := 0 } := by
  rw [enrolled, offHome_writeShares, offHome_rcbWrite, offHome_rcbWrite]

theorem enrolled_regions : (enrolled s r).regions = s.regions ++ [r] := regions_of_offHome offHome_enrolled

theorem enrolled_answer : (enrolled s r).answer = 0 := show (offHome (enrolled s r)).answer = 0 by rw [offHome_enrolled]; rfl

variable {pa : Nat}

theorem exec_admitRcb_of (h : admitCheck (ownRead s pa 256) pa (rcbAt (ownRead s pa 256) pa).toNat = (0, some r)) :
    exec (.admitRcb pa) s = .next (pinAll (enrolled (ownRead s pa 256) r) r.part) := by
  change execAdmitRcb pa s = _
  rw [rcbAt_toNat] at h
  simp only [execAdmitRcb, h]
  rfl

theorem exec_admitRcb_refused {e : Nat} (h : admitCheck (ownRead s pa 256) pa (rcbAt (ownRead s pa 256) pa).toNat = (e, none)) :
    exec (.admitRcb pa) s = .next { ownRead s pa 256 with answer := e } := by
  change execAdmitRcb pa s = _
  rw [rcbAt_toNat] at h
  simp only [execAdmitRcb, h]

variable (hnew : regionOf s r.part = none)
include hnew

theorem regionOf_enrolled : regionOf (enrolled s r) r.part = some r := by
  rw [regionOf, enrolled_regions, List.find?_append, ← regionOf, hnew]
  simp

theorem enrolled_unique : ∀ q ∈ (enrolled s r).regions, q.part = r.part → q = r := by
  intro q hq hp
  rw [enrolled_regions] at hq
  rcases List.mem_append.1 hq with hq | hq
  · exact absurd hp (by simpa using List.find?_eq_none.1 hnew q hq)
  · exact List.mem_singleton.1 hq

end

end Sys2Proof.Machine

namespace Sys2Proof.Laws
open Sys2Proof Machine

/-- Of O57, the admissions. -/
theorem admissionsCheck : Sys2Proof.admissionsCheck := by
  intro s pa u v part ebud budget bare
  have hoff : offHome u = offHome s := offHome_ownRead
  have hreg : u.regions = s.regions := regions_of_offHome hoff
  have hof : regionOf u = regionOf s := funext fun p => by rw [regionOf, hreg, regionOf]
  have hpart : BitVec.ofNat 16 (rf v.toNat 64 16) = part := by rw [rf, bits_toNat, BitVec.ofNat_toNat, BitVec.setWidth_eq]
  have hrefused : rcbRefused u pa v.toNat ↔ pa % 256 ≠ 0 ∨ rcbReserved v.toNat ∨ (rf v.toNat 90 2 = 3 ∧ !inherits v.toNat 6) ∨
      part = 0 ∨ part = 0xFFFF ∨ (regionOf s part).isSome := by rw [rcbRefused, hpart, hof]
  have hbudget (par : Option (BitVec 16)) : budgetFor u v.toNat par = (budget par : Int) := by
    have hfield (r : Region) : regionField u r 1 416 64 = regionField s r 1 416 64 := regionField_bare (bareRegions_of_eq hreg) rfl 1 416 64
    dsimp only [budgetFor, budget, ebud]
    rw [hof, inherits_getLsbD v (by decide), rf, bits_toNat]
    cases par.bind (regionOf s) with
    | none => rfl
    | some q =>
      dsimp only
      rw [hfield]
      split <;> rfl
  have hclear (hk : v.extractLsb' 90 2 ≠ 3) (hpa : pa % 256 = 0) (hres : rcbReserved v.toNat = false) (hp0 : part ≠ 0) (hpf : part ≠ 0xFFFF)
      (hnone : regionOf s part = none) : ¬ rcbRefused u pa v.toNat := by
    have h3 : rf v.toNat 90 2 ≠ 3 := fun h => hk (BitVec.eq_of_toNat_eq ((bits_toNat v 90 2).symm.trans h))
    rw [hrefused]
    simp only [hpa, hres, h3, hp0, hpf, hnone]
    simp
  refine ⟨?_, fun ns hpa hres hk hp0 hpf hnone hpar hinh hset hrect h4 h16 hnil => ?_, fun q hpa hres hk hp0 hpf hnone hpar hq hl => ?_⟩
  · have hchecked := admitCheck_checked (s := u) (pa := pa) (v := v.toNat)
    generalize hcheck : admitCheck u pa v.toNat = a at hchecked
    obtain ⟨e, o⟩ := a
    by_cases he : e = 0
    · subst he
      obtain ⟨par, ns, ho, hr, hfit⟩ := hchecked.admitted rfl
      obtain rfl : o = some (regionFor u pa v.toNat par ns) := ho
      let r := regionFor u pa v.toNat par ns
      have hrp : r.part = part := hpart
      have hrv : r.rcb = v := by simp [r, regionFor]
      rw [hrefused] at hr
      simp only [not_or, ne_eq, not_not] at hr
      obtain ⟨hpa, -, -, hp0, hpf, hnone⟩ := hr
      have hnew : regionOf u r.part = none := by
        rw [hof, hrp]
        simpa using hnone
      have only := pinAll_only (enrolled u r) r.part
      have hans : (pinAll (enrolled u r) r.part).answer = 0 := by rw [only.rest]; exact enrolled_answer
      refine ⟨_, exec_admitRcb_of (r := r) hcheck, fun h => absurd hans h, fun _ => ⟨?_, hpa, hp0, hpf, ?_, r, ?_, hrp, rfl, hrv,
        hbudget par, rfl, rfl, fun hpn q hq hqn n hn hnq => ?_, fun p hp => ?_⟩⟩
      · exact hrp ▸ pinAll_areas (regionOf_enrolled hnew) (enrolled_unique hnew)
      · rw [← hof, ← hrp, hnew]
      · refine (pinAll_pinless _ _).trans ?_
        rw [enrolled_regions, hreg, List.map_append]
        rfl
      · rcases hfit with ⟨-, hroots⟩ | ⟨q, -, hq, -⟩
        · simp only [List.any_eq_false, List.any_eq_true, List.mem_filter, List.contains_iff_mem, not_exists, not_and] at hroots
          exact hroots q ⟨hreg ▸ hq, by simp [hqn]⟩ n hnq hn
        · rw [show par = none from hpn] at hq
          cases hq
      · rcases hfit with ⟨hpn, -⟩ | ⟨q, hq, hqp, hns⟩
        · rw [show par = some p from hp] at hpn
          cases hpn
        · obtain rfl : q.part = p := by
            rw [show par = some p from hp] at hqp
            exact (Option.some.inj hqp).symm
          obtain ⟨hin, hown⟩ := childCells_of hns
          refine ⟨q, hreg ▸ hq, rfl, hin, fun hi w hw hwp hwi n hn hnw => hown ?_ n hn ?_⟩
          · rw [inherits_getLsbD v (by decide)]
            exact hi
          · refine mem_heldCells (hreg ▸ hw) hwp ?_ hnw
            rw [inherits_getLsbD _ (by decide)]
            exact hwi
    · obtain rfl : o = none := hchecked.refused he
      exact ⟨_, exec_admitRcb_refused hcheck, fun _ => rfl, fun h => absurd h he⟩
  · have hi : rf v.toNat 128 32 = 0 := (bits_toNat v 128 32).trans (congrArg BitVec.toNat hinh)
    have hqueue : ownQueue v.toNat = true := by
      have h7 : inherits v.toNat 7 = false := by rw [inherits, hi]; rfl
      rw [ownQueue, h7, rf, bits_toNat, decide_eq_true h4, decide_eq_true h16]
      rfl
    have hcheck := admitCheck_root (hclear hk hpa hres hp0 hpf hnone) ((bits_toNat v 0 64).trans (congrArg BitVec.toNat hpar)) hi
      ((bit_getLsbD v 387).trans hset) hrect hqueue (hreg.trans hnil)
    let r := regionFor u pa v.toNat none ns
    have only := pinAll_only (enrolled u r) r.part
    have hregs : (pinAll (enrolled u r) r.part).regions.map bare = [bare r] := by
      refine (pinAll_pinless _ _).trans ?_
      rw [enrolled_regions, hreg, hnil]
      rfl
    obtain ⟨r', hr', hb⟩ := List.map_eq_singleton_iff.1 hregs
    refine ⟨_, r', exec_admitRcb_of hcheck, by rw [only.rest]; exact enrolled_answer, hr', ?_, ?_⟩
    · exact (congrArg Region.cells hb : (bare r').cells = (bare r).cells)
    · exact (congrArg Region.parent hb : (bare r').parent = (bare r).parent)
  · have hne : rf v.toNat 0 64 ≠ 0 := fun h => hpar (BitVec.eq_of_toNat_eq ((bits_toNat v 0 64).symm.trans h))
    refine exec_admitRcb_refused (admitCheck_depth (q := q) (hclear hk hpa hres hp0 hpf hnone) hne ?_ ?_)
    · rw [hreg, rf, bits_toNat]
      exact hq
    · exact (bits_toNat q.rcb 83 3).trans (congrArg BitVec.toNat hl)

end Sys2Proof.Laws
end

