-- ==== Sys2Proof/Proofs/Frees.lean ====
section
/-!
Cells that are charged, and that lose their tasks (R236, R303, R316, R317, R397): what else that leaves.
-/

namespace Sys2Proof.Machine

/-! ### Kernels but for their reserve -/

/-- A kernel but for its reserve. -/
def Kernel.bare (k : Kernel) : Kernel := { k with reserve := 0 }

/-- The same of every kernel. -/
def bareKernels (s : State) : List Kernel := s.kernels.map Kernel.bare

theorem bareKernels_of_eq {s t : State} (h : t.kernels = s.kernels) : bareKernels t = bareKernels s := by rw [bareKernels, h, bareKernels]

/-- A kernel that stands in one state stands in the other. -/
theorem kernelOf_some_bare {s t : State} (h : bareKernels t = bareKernels s) {kid : Nat} {k : Kernel} (hk : kernelOf s kid = some k) :
    ∃ k', kernelOf t kid = some k' ∧ k'.bare = k.bare := by
  have pull (u : State) : (kernelOf u kid).map Kernel.bare = (bareKernels u).find? fun k => k.kid == kid := by
    rw [bareKernels, List.find?_map]
    rfl
  have := pull t
  rw [h, ← pull s, hk, Option.map_some, Option.map_eq_some_iff] at this
  exact this

/-! ### What a charge leaves -/

/-- A state without memory, and without what a charge changes of regions and kernels. -/
def offEnergy (s : State) : State := { offHome s with regions := bareRegions s, kernels := bareKernels s }

section
variable {s t : State}

theorem offEnergy_of_offHome (h : offHome t = offHome s) : offEnergy t = offEnergy s := by
  rw [offEnergy, h, bareRegions_of_eq (regions_of_offHome h), bareKernels_of_eq (kernels_of_offHome h), offEnergy]

theorem offEnergy_modRegion {p : BitVec 16} {f : Region → Region} (hf : ∀ r, (f r).bare = r.bare) :
    offEnergy (modRegion s p f) = offEnergy s := by
  rw [offEnergy, bareRegions_modRegion hf, offEnergy]
  rfl

theorem offEnergy_modKernel {kid : Nat} {f : Kernel → Kernel} (hf : ∀ k, (f k).bare = k.bare) :
    offEnergy (modKernel s kid f) = offEnergy s := by
  have hk : bareKernels (modKernel s kid f) = bareKernels s := map_updFirst hf _
  rw [offEnergy, hk, offEnergy]
  rfl

theorem offEnergy_foldl {α : Type} {f : State → α → State} (hf : ∀ s x, offEnergy (f s x) = offEnergy s) (l : List α) :
    ∀ s, offEnergy (l.foldl f s) = offEnergy s := foldl_keeps offEnergy hf l

theorem offEnergy_rcbWrite {r : Region} {lo n v : Nat} : offEnergy (rcbWrite s r lo n v) = offEnergy s := offEnergy_of_offHome offHome_rcbWrite

theorem offEnergy_setErem {p : BitVec 16} {v : Int} : offEnergy (setErem s p v) = offEnergy s := by
  unfold setErem
  split
  · rfl
  · exact offEnergy_rcbWrite.trans (offEnergy_modRegion (f := fun r => { r with erem := v }) fun _ => rfl)

theorem offEnergy_addErem {ps : List (BitVec 16)} {v : Int} : offEnergy (addErem s ps v) = offEnergy s := by
  refine offEnergy_foldl (fun s p => ?_) _ _
  split
  · exact offEnergy_setErem
  · rfl

theorem offEnergy_addEcons {p : BitVec 16} {v : Word} : offEnergy (addEcons s p v) = offEnergy s := by
  unfold addEcons
  refine offEnergy_foldl (fun s r => ?_) _ _
  extract_lets e
  rw [offEnergy_rcbWrite]
  exact offEnergy_modRegion fun _ => rfl

variable (h : offEnergy t = offEnergy s)
include h

theorem regions_of_offEnergy : bareRegions t = bareRegions s := congrArg State.regions h
theorem kernels_of_offEnergy : bareKernels t = bareKernels s := congrArg State.kernels h
theorem cells_of_offEnergy : t.cells = s.cells := show (offEnergy t).cells = (offEnergy s).cells by rw [h]
theorem tctx_of_offEnergy : t.tctx = s.tctx := show (offEnergy t).tctx = (offEnergy s).tctx by rw [h]
theorem queues_of_offEnergy : t.queues = s.queues := show (offEnergy t).queues = (offEnergy s).queues by rw [h]

end

/-! ### What changes one cell -/

/-- The same without the cells and the messages on their way. -/
def offCells (s : State) : State := { offEnergy s with cells := [], chan := [] }

theorem offCells_of_offEnergy {s t : State} (h : offEnergy t = offEnergy s) : offCells t = offCells s := by rw [offCells, h, offCells]

/-- From s to t no cell has changed but n, and beside it memory, what charges change, and the messages on their way. -/
structure OneCell (n : Nat) (s t : State) : Prop where
  rest : offCells t = offCells s
  others : ∀ m, m ≠ n → getCell t m = getCell s m

section
variable {n : Nat} {s t u : State}

theorem OneCell.refl (n : Nat) (s : State) : OneCell n s s := ⟨rfl, fun _ _ => rfl⟩

theorem OneCell.trans (h : OneCell n s t) (k : OneCell n t u) : OneCell n s u :=
  ⟨k.rest.trans h.rest, fun m hm => (k.others m hm).trans (h.others m hm)⟩

theorem OneCell.ite {c : Prop} [Decidable c] (ht : OneCell n s t) (hu : OneCell n s u) : OneCell n s (if c then t else u) := by
  split
  · exact ht
  · exact hu

theorem OneCell.foldl {α : Type} {f : State → α → State} (hf : ∀ s x, OneCell n s (f s x)) (l : List α) : ∀ s, OneCell n s (l.foldl f s) := by
  induction l with
  | nil => exact .refl n
  | cons x l ih => exact fun s => (hf s x).trans (ih _)

theorem OneCell.of_offEnergy (h : offEnergy t = offEnergy s) : OneCell n s t :=
  ⟨offCells_of_offEnergy h, fun m _ => by rw [getCell, cells_of_offEnergy h, getCell]⟩

theorem OneCell.modCell (n : Nat) (s : State) (f : Cell → Cell) : OneCell n s (modCell s n f) :=
  ⟨rfl, fun _ hm => getCell_modCell_other s f hm⟩

theorem OneCell.kernels (h : OneCell n s t) : bareKernels t = bareKernels s := congrArg State.kernels h.rest
theorem OneCell.regions (h : OneCell n s t) : bareRegions t = bareRegions s := congrArg State.regions h.rest

/-- A charge, which notes in the cell what has been charged. -/
theorem chargeCell_one (s : State) (n : Nat) : OneCell n s (chargeCell s n) := by
  unfold chargeCell
  extract_lets x e s1 s2
  have h1 : OneCell n s s1 := .modCell n s fun c => { c with enjCharged := c.enj }
  refine .ite (.refl n s) ?_
  split
  · exact h1
  · extract_lets r s3
    have h2 : OneCell n s1 s2 := .of_offEnergy offEnergy_addEcons
    have h3 : OneCell n s2 s3 := .of_offEnergy (offEnergy_modKernel fun _ => rfl)
    have h123 := (h1.trans h2).trans h3
    exact .ite h123 (h123.trans (.of_offEnergy offEnergy_addErem))

theorem fileFreeze_one (s : State) (n : Nat) : OneCell n s (fileFreeze s n) := by
  rcases fileFreeze_eq s n with h | ⟨v, f, h⟩ <;> rw [h]
  · exact .refl n s
  · exact OneCell.trans (t := fresh s) (.of_offEnergy (offEnergy_of_offHome rfl)) (.modCell ..)

theorem closeFreeze_one (s : State) (n : Nat) : OneCell n s (closeFreeze s n) := by
  unfold closeFreeze
  split
  · exact .refl n s
  · exact (fileFreeze_one s n).trans (.modCell ..)

theorem flushL1_one (s : State) (n : Nat) : OneCell n s (flushL1 s n) := by
  rw [flushL1_eq]
  refine OneCell.trans (.foldl (fun s l => ?_) _ s) (.modCell ..)
  unfold sendWb
  exact .ite ⟨rfl, fun _ _ => rfl⟩ (.refl n s)

theorem freeAt_one (s : State) (n : Nat) : OneCell n s (freeAt s n) := by
  refine ((flushL1_one s n).trans (.modCell n _ freeCell)).trans ⟨rfl, fun _ _ => rfl⟩

theorem freeAt_task (s : State) (n : Nat) : (getCell (freeAt s n) n).task = none :=
  congrArg Cell.task (getCell_modCell_same (flushL1 s n) n freeCell)

/-! ### Tasks that leave cells -/

/-- A cell is charged and free. -/
def vacated (s : State) (n : Nat) : State := freeAt (closeFreeze (chargeCell s n) n) n

theorem vacated_one (s : State) (n : Nat) : OneCell n s (vacated s n) :=
  ((chargeCell_one s n).trans (closeFreeze_one ..)).trans (freeAt_one ..)

theorem vacated_task (s : State) (n : Nat) : (getCell (vacated s n) n).task = none := freeAt_task ..

end

/-- From s to t no cell has changed but those of a list, which run no task any more. -/
structure Vacates (ns : List Nat) (s t : State) : Prop where
  rest : offCells t = offCells s
  others : ∀ m, m ∉ ns → getCell t m = getCell s m
  gone : ∀ m ∈ ns, (getCell t m).task = none

section
variable {s t : State} {ns : List Nat}

theorem Vacates.foldl {f : State → Nat → State} (hf : ∀ s n, OneCell n s (f s n)) (ht : ∀ s n, (getCell (f s n) n).task = none)
    (ns : List Nat) : ∀ s, Vacates ns s (ns.foldl f s) := by
  induction ns with
  | nil => exact fun s => ⟨rfl, fun _ _ => rfl, by simp⟩
  | cons n ns ih =>
    intro s
    obtain ⟨rest, others, gone⟩ := ih (f s n)
    refine ⟨rest.trans (hf s n).rest, fun m hm => ?_, fun m hm => ?_⟩
    · obtain ⟨hn, hm⟩ := not_or.1 (mt List.mem_cons.2 hm)
      exact (others m hm).trans ((hf s n).others m hn)
    · by_cases h : m ∈ ns
      · exact gone m h
      · obtain rfl := (List.mem_cons.1 hm).resolve_right h
        exact (congrArg Cell.task (others m h)).trans (ht s m)

theorem Vacates.kernels (h : Vacates ns s t) : bareKernels t = bareKernels s := congrArg State.kernels h.rest
theorem Vacates.regions (h : Vacates ns s t) : bareRegions t = bareRegions s := congrArg State.regions h.rest
theorem Vacates.tctx (h : Vacates ns s t) : t.tctx = s.tctx := show (offCells t).tctx = (offCells s).tctx by rw [h.rest]

end

/-- A cell runs a task of a kernel. -/
def runs (s : State) (kid n : Nat) : Bool := match (getCell s n).task with
  | some t => t.kid == kid
  | none => false

theorem runs_iff {s : State} {kid n : Nat} : runs s kid n = true ↔ ∃ w, (getCell s n).task = some w ∧ w.kid = kid := by
  unfold runs
  split
  next t h => simp [h]
  next h => simp [h]

/-- The cells of a kernel, vacated. -/
theorem foldl_vacated (kid : Nat) (l : List Nat) : ∀ s, Vacates (l.filter (runs s kid)) s
    (l.foldl (fun s n => if runs s kid n then vacated s n else s) s) := by
  induction l with
  | nil => exact fun s => ⟨rfl, fun _ _ => rfl, by simp⟩
  | cons n l ih =>
    intro s
    by_cases hn : runs s kid n = true
    · rw [List.foldl_cons, if_pos hn, List.filter_cons_of_pos hn]
      obtain ⟨rest, others, gone⟩ := ih (vacated s n)
      have hruns (m : Nat) (hm : m ≠ n) : runs (vacated s n) kid m = runs s kid m := by rw [runs, (vacated_one s n).others m hm, runs]
      have hself : runs (vacated s n) kid n = false := by rw [runs, vacated_task]
      refine ⟨rest.trans (vacated_one s n).rest, fun m hm => ?_, fun m hm => ?_⟩
      · obtain ⟨hne, hm⟩ := not_or.1 (mt List.mem_cons.2 hm)
        refine (others m fun h => hm ?_).trans ((vacated_one s n).others m hne)
        rw [List.mem_filter, hruns m hne] at h
        exact List.mem_filter.2 h
      · by_cases hne : m = n
        · subst hne
          rw [others m (by simp [hself])]
          exact vacated_task s m
        · refine gone m ?_
          have := (List.mem_cons.1 hm).resolve_left hne
          rw [List.mem_filter] at this ⊢
          rwa [hruns m hne]
    · rw [List.foldl_cons, if_neg hn, List.filter_cons_of_neg hn]
      exact ih s

end Sys2Proof.Machine
end

