-- ==== Sys2Proof/Proofs/Cancels.lean ====
section
/-!
Cancels of packets and kernels (R317, R332).
-/

namespace Sys2Proof.Machine

/-! ### Killed kernels -/

/-- A change of the first that meets a condition, where the first of a wider condition meets it. -/
theorem find?_updFirst_narrow {α : Type} {p q : α → Bool} {f : α → α} (hpq : ∀ y, p y = true → q y = true) {x : α} (hf : q (f x) = true)
    (hx : p x = true) : ∀ {l : List α}, l.find? q = some x → (updFirst p f l).find? q = some (f x) := by
  intro l
  induction l with
  | nil => intro h; cases h
  | cons y l ih =>
    intro h
    by_cases hq : q y = true
    · rw [List.find?_cons_of_pos hq] at h
      obtain rfl := Option.some.inj h
      rw [updFirst, if_pos hx, List.find?_cons_of_pos hf]
    · rw [List.find?_cons_of_neg hq] at h
      have hp : ¬ p y = true := fun hp => hq (hpq y hp)
      rw [updFirst, if_neg hp, List.find?_cons_of_neg hq, ih h]

/-- A killed kernel. -/
structure Killed (status : Nat) (k : Kernel) : Prop where
  state : k.state = 2
  status : k.status = status
  running : k.running = []
  saved : k.saved = []

/-- A kernel that has not ended ends, with a status. -/
def endKernel (t : State) (kid status : Nat) : State :=
  let upd (k : Kernel) : Kernel := { k with state := 2, status := status, running := [], saved := [], rel := t.seq }
  { t with kernels := updFirst (fun k => k.kid == kid && decide (k.state < 2)) upd t.kernels }

section
variable {s : State} {kid status : Nat}

theorem killKernel_cells : ∃ t : State, Vacates ((listed s).filter (runs s kid)) s t ∧ killKernel s kid status = endKernel t kid status := by
  refine ⟨_, foldl_vacated kid (listed s) s, ?_⟩
  have hstep : (fun (s : State) n => match (getCell s n).task with
      | some t => if t.kid = kid then freeAt (closeFreeze (chargeCell s n) n) n else s
      | none => s) = fun s n => if runs s kid n then vacated s n else s := by
    funext s n
    unfold runs
    cases (getCell s n).task with
    | none => rfl
    | some t => simp [vacated]
  rw [← hstep]
  rfl

theorem killKernel_task {n : Nat} (hn : n ∈ listed s) (h : runs s kid n = true) : (getCell (killKernel s kid status) n).task = none := by
  obtain ⟨t, ht, e⟩ := killKernel_cells (s := s) (kid := kid) (status := status)
  rw [e]
  exact ht.gone n (List.mem_filter.2 ⟨hn, h⟩)

theorem killKernel_killed {k : Kernel} (hk : kernelOf s kid = some k) (hs : k.state < 2) :
    ∃ u, kernelOf (killKernel s kid status) kid = some u ∧ Killed status u := by
  obtain ⟨t, ht, e⟩ := killKernel_cells (s := s) (kid := kid) (status := status)
  obtain ⟨k', hk', hb⟩ := kernelOf_some_bare ht.kernels hk
  have hs' : k'.state = k.state := show k'.bare.state = k.bare.state by rw [hb]
  rw [e]
  refine ⟨_, find?_updFirst_narrow (fun y hy => (Bool.and_eq_true _ _ ▸ hy).1) ?_ ?_ hk', rfl, rfl, rfl, rfl⟩
  · simp [kernelOf_kid hk']
  · simp [kernelOf_kid hk', hs', hs]

end

/-! ### Cancels -/

/-- The status of a kernel that a cancel kills: in the race of its first dispatch it is free (log 41). -/
def killStatus (s : State) (k : Kernel) : Nat :=
  if s.newKernels.contains k.kid then (if (Config.freeVec s.free).getLsbD 0 then 4 else 3) else 3

section
variable {s : State} {q : Nat} {v : Word} (hh : bellHeld s q = false)
include hh

section
variable {k : Kernel} (hf : s.kernels.find? (fun k => k.q == some q && k.pidx == v.truncate 32) = some k)
include hf

theorem cancel_ended (hs : 2 ≤ k.state) : exec (.qnotifyCancel q v) s = .next s := by
  change execQnotifyCancel q v s = _
  simp only [execQnotifyCancel, hf]
  exact congrArg _ ((if_neg (by simp [hh])).trans (if_pos hs))

variable (hs : ¬ 2 ≤ k.state)
include hs

theorem cancel_waiting (hst : k.started = false) : exec (.qnotifyCancel q v) s = .next (modKernel s k.kid fun k => ended s k 2) := by
  change execQnotifyCancel q v s = _
  simp only [execQnotifyCancel, hf]
  exact congrArg _ ((if_neg (by simp [hh])).trans ((if_neg hs).trans (if_pos (by simp [hst]))))

/-- A kernel whose tasks have issued is killed. -/
theorem cancel_started (hst : k.started = true) : ∃ u, (u = s ∨ u = useFree s) ∧
    exec (.qnotifyCancel q v) s = .next (tryActivate (killKernel u k.kid (killStatus s k))) := by
  change ∃ u, (u = s ∨ u = useFree s) ∧ execQnotifyCancel q v s = _
  simp only [execQnotifyCancel, hf, killStatus]
  by_cases hn : s.newKernels.contains k.kid = true
  · refine ⟨useFree s, .inr rfl, congrArg _ ((if_neg (by simp [hh])).trans ((if_neg hs).trans ((if_neg (by simp [hst])).trans ?_)))⟩
    rw [if_pos hn, if_pos hn]
  · refine ⟨s, .inl rfl, congrArg _ ((if_neg (by simp [hh])).trans ((if_neg hs).trans ((if_neg (by simp [hst])).trans ?_)))⟩
    rw [if_neg hn, if_neg hn]

end

section
variable {r : Region} (hr : qRegion s (queueOf s q) = some r) (hk : ∀ k ∈ s.kernels, ¬ (k.q = some q ∧ k.pidx = v.truncate 32))
  (hc : cpHeld s (tctxOf s r.part false) (slotOf (queueOf s q) (v.truncate 32)) s.seq = false)
include hr hk hc

/-- A cancel of a packet that the CP has not read. -/
theorem cancel_unread : exec (.qnotifyCancel q v) s = .next (if written s q (v.truncate 32) then
    modQueue s q fun u => { u with cancels := u.cancels ++ [v.truncate 32] } else s) := by
  have hf : s.kernels.find? (fun k => k.q == some q && k.pidx == v.truncate 32) = none := by
    rw [List.find?_eq_none]
    exact fun k hm => by simpa using hk k hm
  have hch : cancelHeld s q (v.truncate 32) = false := by simp only [cancelHeld, hr, hc]
  change execQnotifyCancel q v s = _
  simp only [execQnotifyCancel, hf, hch]
  exact congrArg _ (if_neg (by simp [hh]))

end

omit hh in
/-- Where a packet that the CP has not read is written. -/
theorem written_iff {r : Region} (hr : qRegion s (queueOf s q) = some r) {j : BitVec 32} {m : State} {w : Nat}
    (hw : cpRead64 s (tctxOf s r.part false) (slotOf (queueOf s q) j) = some (m, w)) (hk : ∀ k ∈ s.kernels, ¬ (k.q = some q ∧ k.pidx = j)) :
    written s q j = true ↔ ((j - qRd (queueOf s q)).toNat < 2 ^ qLog (queueOf s q) ∧
      ∀ k ∈ s.kernels, k.q = some q → k.state < 3 → slotOf (queueOf s q) k.pidx ≠ slotOf (queueOf s q) j) ∧ bit w 0 = true := by
  simp only [written, hr, hw, Bool.and_eq_true, decide_eq_true_eq, Bool.not_eq_true', List.any_eq_false, beq_iff_eq, bne_iff_ne, and_assoc]
  refine and_congr_right fun _ => and_congr_left fun _ => forall₂_congr fun k hm => ?_
  refine ⟨fun h hq hs he => h ⟨hq, fun hp => hk k hm ⟨hq, hp⟩, hs, he⟩, fun h ⟨hq, _, hs, he⟩ => h hq hs he⟩

end

end Sys2Proof.Machine

namespace Sys2Proof.Laws
open Sys2Proof Machine

/-- Of O57, the cancels. -/
theorem cancelsAct : Sys2Proof.cancelsAct := by
  intro s q v hh
  refine ⟨fun k hf hk => ⟨cancel_ended hh hf, fun hs => ?_⟩, fun r hr hk => ?_⟩
  · have hs2 : ¬ 2 ≤ k.state := by omega
    cases hst : k.started with
    | false =>
      have hk2 : kernelOf (modKernel s k.kid fun k => ended s k 2) k.kid = some (ended s k 2) := by
        rw [kernelOf_modKernel_same (f := fun k => ended s k 2) fun _ => rfl, hk]
        rfl
      exact ⟨_, _, cancel_waiting hh hf hs2 hst, hk2, rfl, fun _ => ⟨rfl, rfl⟩, (by cases ·)⟩
    | true =>
      obtain ⟨u, hu, he⟩ := cancel_started hh hf hs2 hst
      have hku : kernelOf u k.kid = some k := by rcases hu with rfl | rfl <;> exact hk
      obtain ⟨x, hx, killed⟩ := killKernel_killed (status := killStatus s k) hku hs
      have acts := tryActivate_takesIn (killKernel u k.kid (killStatus s k))
      refine ⟨_, x, he, acts.kernelOf hx, killed.state, (by cases ·), fun _ => ⟨?_, killed.running, killed.saved, fun n hn hw => ?_⟩⟩
      · rw [killed.status, killStatus]
        by_cases hn : s.newKernels.contains k.kid = true
        · rw [if_pos hn]
          split
          · exact .inr ⟨rfl, List.contains_iff_mem.1 hn⟩
          · exact .inl rfl
        · rw [if_neg hn]
          exact .inl rfl
      · rw [acts.getCell]
        have hruns : runs u k.kid n = true := runs_iff.2 (by rcases hu with rfl | rfl <;> exact hw)
        exact killKernel_task (by rcases hu with rfl | rfl <;> exact hn) hruns
  · intro u j t open_ hc m w hw
    have hiff : written s q j = true ↔ open_ ∧ bit w 0 = true := written_iff hr hw hk
    rw [cancel_unread hh hr hk hc]
    refine ⟨fun ho hb => congrArg _ (if_pos (hiff.2 ⟨ho, hb⟩)), fun hn => congrArg _ (if_neg fun h => ?_)⟩
    obtain ⟨ho, hb⟩ := hiff.1 h
    rcases hn with hn | hn
    · exact hn ho
    · rw [hb] at hn
      cases hn

end Sys2Proof.Laws
end

