-- ==== Sys2Proof/Proofs/Budgets.lean ====
section
/-!
Budgets, RD, and the admission of kernels (R305, R311, R313, R316, R366).
-/

namespace Sys2Proof.Machine

/-! ### Budgets -/

theorem nodup_eraseDups {α : Type} [BEq α] [LawfulBEq α] (l : List α) : l.eraseDups.Nodup := by
  match l with
  | [] => exact List.nodup_nil
  | a :: l =>
    rw [List.eraseDups_cons, List.nodup_cons, List.mem_eraseDups]
    refine ⟨by simp, nodup_eraseDups _⟩
termination_by l.length
decreasing_by simpa using Nat.lt_succ_of_le (List.length_filter_le ..)

theorem nodup_budgetOf (s : State) (p : BitVec 16) : (budgetOf s p).Nodup := nodup_eraseDups _

/-- EREM of one region of a list takes an amount. -/
def addOne (v : Int) (s : State) (p : BitVec 16) : State := match regionOf s p with
  | some r => setErem s p (r.erem + v)
  | none => s

theorem addErem_eq (s : State) (ps : List (BitVec 16)) (v : Int) : addErem s ps v = ps.foldl (addOne v) s := rfl

section
variable {s : State} {v : Int}

theorem regionOf_rcbWrite (r : Region) (lo n x : Nat) (p : BitVec 16) : regionOf (rcbWrite s r lo n x) p = regionOf s p := by
  rw [regionOf, regions_of_offHome offHome_rcbWrite, regionOf]

theorem regionOf_addOne_same (p : BitVec 16) :
    regionOf (addOne v s p) p = (regionOf s p).map fun r => { r with erem := r.erem + v } := by
  unfold addOne
  cases hr : regionOf s p with
  | none => exact hr
  | some r =>
    dsimp only
    rw [setErem, hr]
    dsimp only
    rw [regionOf_rcbWrite, regionOf_modRegion_same (f := fun q => { q with erem := r.erem + v }) fun _ => rfl, hr]
    rfl

theorem regionOf_addOne_other {p q : BitVec 16} (h : q ≠ p) : regionOf (addOne v s p) q = regionOf s q := by
  unfold addOne
  cases hr : regionOf s p with
  | none => rfl
  | some r =>
    dsimp only
    rw [setErem, hr]
    dsimp only
    rw [regionOf_rcbWrite, regionOf_modRegion_other (f := fun q => { q with erem := r.erem + v }) (fun _ => rfl) h]

theorem regionOf_addOnes_other {q : BitVec 16} (ps : List (BitVec 16)) (h : q ∉ ps) : ∀ s, regionOf (ps.foldl (addOne v) s) q = regionOf s q := by
  induction ps with
  | nil => exact fun _ => rfl
  | cons p ps ih =>
    obtain ⟨hp, hps⟩ := not_or.1 (mt List.mem_cons.2 h)
    exact fun s => (ih hps _).trans (regionOf_addOne_other hp)

/-- EREM of each region of a list takes the amount once. -/
theorem regionOf_addErem {p : BitVec 16} {ps : List (BitVec 16)} (hn : ps.Nodup) (hp : p ∈ ps) :
    regionOf (addErem s ps v) p = (regionOf s p).map fun r => { r with erem := r.erem + v } := by
  rw [addErem_eq]
  induction ps generalizing s with
  | nil => cases hp
  | cons q ps ih =>
    obtain ⟨hq, hn⟩ := List.nodup_cons.1 hn
    rcases List.mem_cons.1 hp with rfl | hp
    · exact (regionOf_addOnes_other ps hq _).trans (regionOf_addOne_same p)
    · have hne : p ≠ q := fun h => hq (h ▸ hp)
      rw [List.foldl_cons, ih hn hp, regionOf_addOne_other hne]

theorem kernels_addOne (p : BitVec 16) : (addOne v s p).kernels = s.kernels := by
  unfold addOne
  split
  · unfold setErem
    split
    · rfl
    · rw [kernels_of_offHome offHome_rcbWrite]
      rfl
  · rfl

theorem kernels_addErem (ps : List (BitVec 16)) : (addErem s ps v).kernels = s.kernels :=
  foldl_keeps (f := addOne v) State.kernels (fun _ _ => kernels_addOne _) ps s

theorem queues_addErem (ps : List (BitVec 16)) : (addErem s ps v).queues = s.queues := queues_of_offEnergy offEnergy_addErem

end

/-! ### RD -/

theorem qRd_setRd (rd : BitVec 32) (u : Queue) : qRd (setRd rd u) = rd := by
  apply BitVec.eq_of_getLsbD_eq
  intro j hj
  rw [qRd, setRd, BitVec.getLsbD_ofNat, bits_testBit, BitVec.testBit_toNat, BitVec.getLsbD_ofNat, setBits_testBit]
  simp [hj, show 32 + j < 256 by omega, show 32 + j < 64 by omega, BitVec.getLsbD]

/-- RD moves past a packet. -/
def passed (s : State) (q : Nat) (j : BitVec 32) : State := modQueue s q fun u => if qRd u = j then setRd (j + 1) u else u

theorem qRd_passed {s : State} {q : Nat} {j : BitVec 32} (h : qRd (queueOf s q) = j) : qRd (queueOf (passed s q j) q) = j + 1 := by
  rw [passed, queueOf_modQueue_same, if_pos h, qRd_setRd]

/-! ### Admission -/

section
variable {s : State} {kid : Nat} {k : Kernel} {r : Region}

/-- A budget above a kernel is below its EEST. -/
def exceeds (s : State) (k : Kernel) : Bool := ((budgetOf s k.part).filterMap (regionOf s)).any fun r => decide (rcbField r 416 64 < kEest k)

/-- Every budget above a kernel can bear it. -/
def bears (s : State) (k : Kernel) : Bool :=
  ((budgetOf s k.part).filterMap (regionOf s)).all fun r => decide ((kEest k : Int) ≤ r.erem) && decide (0 < r.erem)

theorem exceeds_iff : exceeds s k = true ↔ ∃ p ∈ budgetOf s k.part, ∃ r, regionOf s p = some r ∧ rcbField r 416 64 < kEest k := by
  simp only [exceeds, List.any_eq_true, List.mem_filterMap, decide_eq_true_eq]
  constructor
  · rintro ⟨r, ⟨p, hp, hr⟩, h⟩
    exact ⟨p, hp, r, hr, h⟩
  · rintro ⟨p, hp, r, hr, h⟩
    exact ⟨r, ⟨p, hp, hr⟩, h⟩

theorem bears_iff : bears s k = true ↔ ∀ p ∈ budgetOf s k.part, ∀ r, regionOf s p = some r → (kEest k : Int) ≤ r.erem ∧ 0 < r.erem := by
  simp only [bears, List.all_eq_true, List.mem_filterMap, Bool.and_eq_true, decide_eq_true_eq]
  constructor
  · exact fun h p hp r hr => h r ⟨p, hp, hr⟩
  · rintro h r ⟨p, hp, hr⟩
    exact h p hp r hr

/-- A kernel that waits no more for its signal. -/
def met (s : State) (kid : Nat) : State := modKernel s kid fun k => { k with met := true }

/-- What an admission leaves before the CP reads on: the reserve is taken, and the ring is pinned. -/
def reserved (s : State) (k : Kernel) : State :=
  let t := pinRing (addErem s (budgetOf s k.part) (-(kEest k : Int))) k
  { t with kernels := (t.kernels.filter fun x => x.kid != k.kid) ++ [{ k with state := 1, reserve := kEest k }] }

/-- The CP reads on behind an admitted packet. -/
def readOn (s : State) (k : Kernel) : State := match k.q with
  | some q => takeIn (passed s q k.pidx) q
  | none => s

theorem admitKernel_exceeds (h : exceeds s k = true) : admitKernel s k r = modKernel s k.kid fun k => ended s k 8 := if_pos h

theorem admitKernel_waits (h : exceeds s k = false) (hw : tooHot s r = true ∨ bears s k = false) : admitKernel s k r = s := by
  refine (if_neg (by rw [exceeds] at h; simp [h])).trans (if_pos ?_)
  rcases hw with hw | hw
  · simp [hw]
  · rw [bears] at hw
    simp [hw]

theorem admitKernel_admits (h : exceeds s k = false) (hw : tooHot s r = false) (hb : bears s k = true) :
    admitKernel s k r = readOn (reserved s k) k := by
  refine (if_neg (by rw [exceeds] at h; simp [h])).trans ((if_neg ?_).trans rfl)
  rw [bears] at hb
  simp [hw, hb]

variable (hk : kernelOf s kid = some k) (hr : regionOf s k.part = some r) (hs : k.state = 0)
include hk hr

theorem exec_kernelAdmission_waits (hm : k.met = false) (hsig : signalMet s k = false) : exec (.kernelAdmission kid) s = .next s := by
  change execKernelAdmission kid s = _
  simp only [execKernelAdmission, hk, hr]
  exact congrArg _ (if_neg (by simp [hm, hsig]))

include hs in
theorem exec_kernelAdmission (hm : k.met = true ∨ signalMet s k = true) :
    exec (.kernelAdmission kid) s = .next (admitKernel (met s kid) { k with met := true } r) := by
  change execKernelAdmission kid s = _
  simp only [execKernelAdmission, hk, hr]
  rw [kernelOf_kid hk]
  exact congrArg _ (if_pos ⟨hs, hm⟩)

end

/-- A pinned ring leaves EREM. -/
theorem regionOf_pinRing {s : State} {k : Kernel} {p : BitVec 16} {r : Region} (hr : regionOf s p = some r) :
    ∃ u, regionOf (pinRing s k) p = some u ∧ u.erem = r.erem := by
  let f (q : Region) : Region := { q with pins := addPins q.pins (ringPins s k) }
  by_cases h : p = k.part
  · subst h
    exact ⟨f r, (regionOf_modRegion_same (f := f) fun _ => rfl).trans (by rw [hr]; rfl), rfl⟩
  · exact ⟨r, (regionOf_modRegion_other (f := f) (fun _ => rfl) h).trans hr, rfl⟩

theorem regionOf_reserved {s : State} {k : Kernel} {p : BitVec 16} {r : Region} (hp : p ∈ budgetOf s k.part) (hr : regionOf s p = some r) :
    ∃ u, regionOf (reserved s k) p = some u ∧ u.erem = r.erem - (kEest k : Int) := by
  obtain ⟨u, hu, he⟩ := regionOf_pinRing (k := k) ((regionOf_addErem (v := -(kEest k : Int)) (nodup_budgetOf s k.part) hp).trans
    (congrArg (Option.map _) hr))
  exact ⟨u, hu, he.trans rfl⟩

theorem kernelOf_reserved (s : State) (k : Kernel) :
    kernelOf (reserved s k) k.kid = some { k with state := 1, reserve := kEest k } := by
  have hnone (l : List Kernel) : (l.filter fun x => x.kid != k.kid).find? (fun x => x.kid == k.kid) = none := by
    rw [List.find?_eq_none]
    intro x hx
    simpa using (List.mem_filter.1 hx).2
  rw [kernelOf, reserved, List.find?_append, hnone]
  simp

section
variable {s : State} {k : Kernel}

theorem kernelOf_readOn {kid : Nat} {x : Kernel} (h : kernelOf s kid = some x) : kernelOf (readOn s k) kid = some x := by
  unfold readOn
  split
  · exact (takeIn_takesIn _ _).kernelOf h
  · exact h

theorem regionOf_readOn (p : BitVec 16) : regionOf (readOn s k) p = regionOf s p := by
  unfold readOn
  split
  · exact (takeIn_takesIn _ _).regionOf p
  · rfl

theorem qRd_readOn {q : Nat} (hq : k.q = some q) (h : qRd (queueOf s q) = k.pidx) : qRd (queueOf (readOn s k) q) = k.pidx + 1 := by
  simp only [readOn, hq]
  rw [(takeIn_takesIn _ _).rd, qRd_passed h]

end

end Sys2Proof.Machine

namespace Sys2Proof.Laws
open Sys2Proof Machine

/-- Of O57, the admission of kernels. -/
theorem kernelsAreAdmitted : Sys2Proof.kernelsAreAdmitted := by
  intro s kid k r hk hr hs
  refine ⟨exec_kernelAdmission_waits hk hr, fun hm => ?_⟩
  intro exceeds_ bears_
  have hexec := exec_kernelAdmission hk hr hs hm
  let k' : Kernel := { k with met := true }
  have hkid : k'.kid = kid := show k.kid = kid from kernelOf_kid hk
  have hbud : budgetOf (met s kid) k.part = budgetOf s k.part := budgetOf_bare (s := s) (t := met s kid) rfl k.part
  have hex : exceeds (met s kid) k' = true ↔ exceeds_ := by
    rw [exceeds_iff]
    exact (by rw [show k'.part = k.part from rfl, hbud]; rfl)
  have hbe : bears (met s kid) k' = true ↔ bears_ := by
    rw [bears_iff]
    exact (by rw [show k'.part = k.part from rfl, hbud]; rfl)
  rw [hexec]
  refine ⟨fun h => ?_, fun h hw => ?_, fun h hb hw => ?_⟩
  · rw [admitKernel_exceeds (hex.2 h), hkid]
    refine ⟨_, ended (met s kid) k' 8, rfl, ?_, rfl, rfl⟩
    rw [kernelOf_modKernel_same (f := fun k => ended (met s kid) k 8) fun _ => rfl, met,
      kernelOf_modKernel_same (f := fun k => { k with met := true }) fun _ => rfl, hk]
    rfl
  · exact congrArg _ (admitKernel_waits (by simpa using mt hex.1 h) (hw.symm.imp id fun hb => by simpa using mt hbe.1 hb))
  · refine ⟨_, congrArg _ (admitKernel_admits (k := k') (by simpa using mt hex.1 h) hw (hbe.2 hb)), kernelOf_readOn ?_, fun p hp q hq => ?_, fun q hq hrd => qRd_readOn (k := k') hq ?_⟩
    · rw [← hkid, kernelOf_reserved]
      rfl
    · rw [regionOf_readOn]
      exact regionOf_reserved (s := met s kid) (k := k') (hbud.symm ▸ hp) hq
    · have hqueue : (reserved (met s kid) k').queues = s.queues := queues_addErem (s := met s kid) _
      rw [queueOf, hqueue]
      exact hrd

end Sys2Proof.Laws
end

