-- ==== Sys2Proof/Proofs/Completions.lean ====
section
/-!
The end of a task: its release markers, and the cells that become free (R112, R227, R399).
-/

namespace Sys2Proof.Machine

/-! ### The cells of a task -/

theorem smGet_of_notMem {α : Type} {d : α} {i : Nat} : ∀ {m : SMap α}, i ∉ m.map Prod.fst → smGet d m i = d := by
  intro m
  induction m with
  | nil => exact fun _ => rfl
  | cons e m ih =>
    intro h
    rw [List.map_cons, List.mem_cons, not_or] at h
    rw [smGet, if_neg h.1]
    split
    · rfl
    · exact ih h.2

section
variable {s : State} {n : Nat} {t : TaskRef}

theorem mem_listed_of_task (h : (getCell s n).task = some t) : n ∈ listed s := by
  by_contra hn
  have : getCell s n = Cell.reset := smGet_of_notMem hn
  rw [this] at h
  cases h

/-- A cell that runs a member of a task. -/
def isMember (s : State) (t : TaskRef) (n : Nat) : Bool := match (getCell s n).task with
  | some u => u.kid == t.kid && u.tx == t.tx && u.ty == t.ty
  | none => false

theorem taskCells_eq (s : State) (t : TaskRef) : taskCells s t = (listed s).filter (isMember s t) := rfl

theorem mem_taskCells (h : (getCell s n).task = some t) : n ∈ taskCells s t := by
  rw [taskCells_eq, List.mem_filter]
  exact ⟨mem_listed_of_task h, by simp [isMember, h]⟩

theorem mem_taskCells_iff {m : Nat} : m ∈ taskCells s t ↔ ∃ u, (getCell s m).task = some u ∧ u.kid = t.kid ∧ u.tx = t.tx ∧ u.ty = t.ty := by
  rw [taskCells_eq, List.mem_filter]
  constructor
  · rintro ⟨-, h⟩
    unfold isMember at h
    split at h
    next u hu =>
      simp only [Bool.and_eq_true, beq_iff_eq] at h
      exact ⟨u, hu, h.1.1, h.1.2, h.2⟩
    next => cases h
  · rintro ⟨u, hu, h1, h2, h3⟩
    exact ⟨mem_listed_of_task hu, by simp [isMember, hu, h1, h2, h3]⟩

end

/-! ### The markers -/

/-- A step of a fold establishes a fact for what it takes, and the others keep it. -/
theorem foldl_establishes {α β : Type} {f : β → α → β} {P : β → α → Prop} (hf : ∀ b a, P (f b a) a) (hk : ∀ b a c, P b c → P (f b a) c)
    (l : List α) : ∀ b, ∀ a ∈ l, P (l.foldl f b) a := by
  have keep (l : List α) (c : α) : ∀ b, P b c → P (l.foldl f b) c := by
    induction l with
    | nil => exact fun _ h => h
    | cons x l ih => exact fun b h => ih _ (hk b x c h)
  induction l with
  | nil => simp
  | cons x l ih =>
    intro b a ha
    rcases List.mem_cons.1 ha with rfl | ha
    · exact keep l a _ (hf b a)
    · exact ih _ a ha

/-- The release marker of a member of an ended task. -/
def placeRelease (s : State) (m : Nat) : State :=
  let s := pushMarker s m 3 false false
  modCtx s m false fun c => { c with target := BitVec.ofNat 64 (s.seq + 1) }

/-- A cell has a release marker of device scope. -/
def Releases (s : State) (m : Nat) : Prop :=
  ∃ id, StoreEnt.mark id ∈ (getCell s m).storeb ∧ (⟨id, 3, false, none, id, false⟩ : Marker) ∈ (getCell s m).markers

theorem pushMarker_release (s : State) (m : Nat) : pushMarker s m 3 false false = modCell (fresh s) m fun c => { c with
    storeb := c.storeb ++ [.mark (fresh s).seq]
    markers := c.markers ++ [⟨(fresh s).seq, 3, false, none, (fresh s).seq, false⟩] } := if_neg (by decide)

theorem getCell_placeRelease (s : State) (m : Nat) : ∃ c : Ctx, getCell (placeRelease s m) m = { getCell s m with
    storeb := (getCell s m).storeb ++ [.mark (s.seq + 1)]
    markers := (getCell s m).markers ++ [⟨s.seq + 1, 3, false, none, s.seq + 1, false⟩]
    user := c } := by
  refine ⟨{ (getCell s m).user with target := BitVec.ofNat 64 (s.seq + 1 + 1) }, ?_⟩
  rw [placeRelease, modCtx_user, getCell_modCell_same, pushMarker_release, getCell_modCell_same]
  rfl

theorem placeRelease_releases (s : State) (m : Nat) : Releases (placeRelease s m) m := by
  obtain ⟨c, h⟩ := getCell_placeRelease s m
  exact ⟨s.seq + 1, by simp [h], by simp [h]⟩

theorem Releases.place {s : State} {m : Nat} (h : Releases s m) (n : Nat) : Releases (placeRelease s n) m := by
  obtain ⟨id, hs, hm⟩ := h
  by_cases hn : m = n
  · subst hn
    obtain ⟨c, h⟩ := getCell_placeRelease s m
    exact ⟨id, by simp [h, hs], by simp [h, hm]⟩
  · have hother : getCell (placeRelease s n) m = getCell s m := by
      rw [placeRelease, modCtx_user, getCell_modCell_other _ _ hn, pushMarker_release, getCell_modCell_other _ _ hn]
      rfl
    exact ⟨id, hother ▸ hs, hother ▸ hm⟩

/-! ### The end -/

/-- The task of a kernel that ends. -/
def taskEnded (seq : Nat) (t : TaskRef) (k : Kernel) : Kernel :=
  let c := t.ty * kTw k + t.tx
  let k := { k with ended := k.ended + 1, running := k.running.filter (· != c) }
  if k.ended = kTw k * kTh k then { k with state := 2, status := 1, rel := seq } else k

theorem taskEnded_ended (seq : Nat) (t : TaskRef) (k : Kernel) : (taskEnded seq t k).ended = k.ended + 1 := by
  unfold taskEnded
  dsimp only
  split <;> rfl

theorem taskEnded_kid (seq : Nat) (t : TaskRef) (k : Kernel) : (taskEnded seq t k).kid = k.kid := by
  unfold taskEnded
  dsimp only
  split <;> rfl

theorem taskEnded_last {seq : Nat} {t : TaskRef} {k : Kernel} (h : k.ended + 1 = kTw k * kTh k) :
    (taskEnded seq t k).state = 2 ∧ (taskEnded seq t k).status = 1 := by
  have he : taskEnded seq t k = _ := if_pos h
  rw [he]
  exact ⟨rfl, rfl⟩

theorem taskEnded_more {seq : Nat} {t : TaskRef} {k : Kernel} (h : k.ended + 1 ≠ kTw k * kTh k) : (taskEnded seq t k).state = k.state := by
  have he : taskEnded seq t k = _ := if_neg h
  rw [he]

theorem endTask_eq (s : State) (t : TaskRef) (ns : List Nat) :
    endTask s t ns = modKernel (ns.foldl vacated s) t.kid (taskEnded (ns.foldl vacated s).seq t) := rfl

theorem vacates (ns : List Nat) (s : State) : Vacates ns s (ns.foldl vacated s) := .foldl vacated_one vacated_task ns s

section
variable {s : State} {n : Nat} {t : TaskRef} (ht : (getCell s n).task = some t)
  (hr : ∀ m ∈ taskCells s t, endReady (getCell s m) = true ∧ (getDie s (m / 128)).melted = false)
include ht hr

omit ht in
theorem all_endReady : (taskCells s t).all (fun m => endReady (getCell s m) && !(getDie s (dieOf m)).melted) = true := by
  rw [List.all_eq_true]
  intro m hm
  obtain ⟨h1, h2⟩ := hr m hm
  rw [h1, dieOf, h2]
  rfl

theorem exec_taskCompletion_marks (hz : ∀ m ∈ taskCells s t, (getCell s m).user.target = 0) :
    exec (.taskCompletion n) s = .next ((taskCells s t).foldl placeRelease s) := by
  have hrel : ¬ (taskCells s t).all (endReleased s) = true := by
    rw [List.all_eq_true]
    intro h
    have := h n (mem_taskCells ht)
    simp [endReleased, hz n (mem_taskCells ht)] at this
  change execTaskCompletion n s = _
  simp only [execTaskCompletion, ht, all_endReady hr]
  refine congrArg _ ((if_neg (by simp)).trans ((if_neg hrel).trans (if_pos ?_)))
  rw [List.all_eq_true]
  exact fun m hm => beq_iff_eq.2 (hz m hm)

theorem exec_taskCompletion_ends (hrel : ∀ m ∈ taskCells s t, endReleased s m = true) :
    exec (.taskCompletion n) s = .next (tryActivate (endTask s t (taskCells s t))) := by
  change execTaskCompletion n s = _
  simp only [execTaskCompletion, ht, all_endReady hr]
  exact congrArg _ ((if_neg (by simp)).trans (if_pos (List.all_eq_true.2 hrel)))

end

end Sys2Proof.Machine

namespace Sys2Proof.Laws
open Sys2Proof Machine

/-- Of O57, the completions. -/
theorem tasksComplete : Sys2Proof.tasksComplete := by
  intro s n t k ns ht hk hr
  refine ⟨fun hz => ⟨_, exec_taskCompletion_marks ht hr hz, ?_⟩, fun hrel => ?_⟩
  · exact foldl_establishes (P := Releases) placeRelease_releases (fun s m c h => h.place m) ns s
  · have free := vacates ns s
    obtain ⟨k', hk', hb⟩ := kernelOf_some_bare free.kernels hk
    have hdesc : k'.desc = k.desc := show k'.bare.desc = k.bare.desc by rw [hb]
    have hended : k'.ended = k.ended := show k'.bare.ended = k.bare.ended by rw [hb]
    have hstate : k'.state = k.state := show k'.bare.state = k.bare.state by rw [hb]
    have htasks : kTw k' * kTh k' = kTw k * kTh k := by rw [kTw, kTh, hdesc, kTw, kTh]
    let w := taskEnded (ns.foldl vacated s).seq t k'
    have hw : w.ended = k.ended + 1 := (taskEnded_ended ..).trans (by rw [hended])
    have hfind : kernelOf (endTask s t ns) t.kid = some w := by
      rw [endTask_eq, kernelOf_modKernel_same (taskEnded_kid _ _), hk']
      rfl
    have acts := tryActivate_takesIn (endTask s t ns)
    refine ⟨_, w, exec_taskCompletion_ends ht hr hrel, acts.kernelOf hfind, hw, fun h => ?_, fun h => ?_, fun m hm => ?_⟩
    · exact taskEnded_last (by rw [htasks, hended, ← hw, h])
    · rw [hw] at h
      exact (taskEnded_more (by rw [htasks, hended]; exact h)).trans hstate
    · rw [acts.getCell]
      exact free.gone m hm

end Sys2Proof.Laws
end

