-- ==== Sys2Proof/Proofs/Dispatches.lean ====
section
/-!
The dispatch of a task to the cells of its gang, with the state of R231 (R229, R232, R306, R316).
-/

namespace Sys2Proof.Machine

/-! ### The state that a cell starts with -/

/-- A cell that has taken a member of a task. -/
def startedCell (k : Kernel) (tx ty r num : Nat) (x : Cell) : Cell :=
  let d := k.desc.toNat
  let keep := x.lastPart == k.part
  { x with
    user := startCtx k tx ty r
    acc := [], rcnt := [], tcnt := [], slices := [], l1 := (x.l1.map fun e => (e.1, l1Clean e.2)).filter fun e => e.2.words != []
    spad := if keep then x.spad else []
    isp0 := if keep then x.isp0 else []
    isp1 := if keep then x.isp1 else []
    ispAct := keep && x.ispAct
    dict := loadEntries (if keep then x.dict else []) k.image
    poison := x.poison.filter fun p => keep && (p.1 == 6 || p.1 == 8 || (p.1 == 7 && !k.image.any fun e => e.1 == p.2.1))
    exlbase := BitVec.ofNat 64 (bits d 260 44 * 16), exlsize := BitVec.ofNat 64 (bits d 336 5), exlhead := 0
    fwshare := BitVec.ofNat 64 (bits d 329 7)
    task := some ⟨k.kid, tx, ty, r, num⟩
    owners := if k.part = 0 then [] else (List.range 28).map fun i => (i, k.part)
    arrivals := x.arrivals.filter fun a => a.fw || (keep && !a.sync)
    saving := none, wasHeld := false, image := none
    enjCharged := x.enj
    lastPart := k.part }

theorem startCell_eq (s : State) (k : Kernel) (n tx ty r num : Nat) :
    startCell s k n tx ty r num = modCell s n (startedCell k tx ty r num) := rfl

section
variable {k : Kernel} {tx ty r num : Nat} {x : Cell}

theorem startedCell_clean : ∀ e ∈ (startedCell k tx ty r num x).l1, ∀ w ∈ e.2.words, w.2.dirty = true := by
  intro e he w hw
  obtain ⟨a, -, rfl⟩ := List.mem_map.1 (List.mem_filter.1 he).1
  exact (List.mem_filter.1 hw).2

theorem startedCell_owners (hp : k.part ≠ 0) {i : Nat} (hi : i < 28) : smGet 0 (startedCell k tx ty r num x).owners i = k.part := by
  have ho : (startedCell k tx ty r num x).owners = (List.range 28).map fun i => (i, k.part) := if_neg hp
  rw [ho, smGet_map_keys 0 (fun _ => k.part) i _ List.pairwise_lt_range, if_pos (List.mem_range.2 hi)]

theorem startCtx_x (i : Nat) : smGet 0 (startCtx k tx ty r).x i = if i = 1 then k.desc.extractLsb' 128 64
    else if i = 2 then (k.desc.extractLsb' 480 32).zeroExtend 64 else 0 := by
  have h1 : BitVec.ofNat 64 (bits k.desc.toNat 128 64) = k.desc.extractLsb' 128 64 := by
    rw [bits_toNat, BitVec.ofNat_toNat, BitVec.setWidth_eq]
  have h2 : BitVec.ofNat 64 (bits k.desc.toNat 480 32) = (k.desc.extractLsb' 480 32).zeroExtend 64 := by
    rw [bits_toNat, BitVec.ofNat_toNat]
  have hx : (startCtx k tx ty r).x = smSet 0 (smSet 0 [] 1 (k.desc.extractLsb' 128 64)) 2 ((k.desc.extractLsb' 480 32).zeroExtend 64) := by
    rw [← h1, ← h2]
    rfl
  have wf0 : smWf (0 : Word) 0 [] = true := rfl
  have wf1 := smWf_smSet (0 : Word) [] 1 (k.desc.extractLsb' 128 64) (Nat.zero_le 1) wf0
  rw [hx]
  by_cases hi2 : i = 2
  · subst hi2
    rw [smGet_smSet_same 0 _ 2 _ wf1, if_neg (by decide), if_pos rfl]
  · rw [smGet_smSet_other 0 _ _ wf1 hi2, if_neg hi2]
    by_cases hi1 : i = 1
    · subst hi1
      rw [smGet_smSet_same 0 _ 1 _ wf0, if_pos rfl]
    · rw [smGet_smSet_other 0 _ _ wf0 hi1, if_neg hi1]
      rfl

theorem startCtx_mode : creg (startCtx k tx ty r) 0x103 = (k.desc.extractLsb' 342 1).zeroExtend 64 := by
  have h1 : BitVec.ofNat 64 (bits k.desc.toNat 342 1) = (k.desc.extractLsb' 342 1).zeroExtend 64 := by
    rw [bits_toNat, BitVec.ofNat_toNat]
  have hc : (startCtx k tx ty r).cr = smSet 0 (smSet 0 [] 0x103 ((k.desc.extractLsb' 342 1).zeroExtend 64)) 0x104
      (BitVec.ofNat 64 (bits k.desc.toNat 341 1)) := by
    rw [← h1]
    rfl
  have wf0 : smWf (0 : Word) 0 [] = true := rfl
  have wf1 := smWf_smSet (0 : Word) [] 0x103 ((k.desc.extractLsb' 342 1).zeroExtend 64) (Nat.zero_le _) wf0
  rw [creg, hc, smGet_smSet_other 0 _ _ wf1 (by decide), smGet_smSet_same 0 _ _ _ wf0]

theorem startCtx_pc : (startCtx k tx ty r).pc = k.desc.extractLsb' 0 64 := by
  have h : (startCtx k tx ty r).pc = BitVec.ofNat 64 (bits k.desc.toNat 0 64) := rfl
  rw [h, bits_toNat, BitVec.ofNat_toNat, BitVec.setWidth_eq]

end

/-! ### A gang -/

/-- The record of the replay check takes a task in; the machine is else as it was. -/
theorem replayStart_rest (s : State) (n : Nat) (t : TaskRef) : ∃ r, replayStart s n t = { s with replay := r } := by
  unfold replayStart
  extract_lets own key s1 rs
  have h1 : ∃ r, s1 = { s with replay := r } := by
    dsimp only [s1]
    split
    · split
      · exact ⟨_, rfl⟩
      · exact ⟨s.replay, rfl⟩
    · exact ⟨s.replay, rfl⟩
  obtain ⟨r, h1⟩ := h1
  split
  · exact ⟨s.replay, rfl⟩
  · rw [h1]
    split <;> exact ⟨_, rfl⟩

section
variable (k : Kernel) (tx ty num lead : Nat)

/-- Member r of a task that starts anew. -/
def startMember (s : State) (r : Nat) : State :=
  replayStart (startCell s k (lead + r) tx ty r num) (lead + r) ⟨k.kid, tx, ty, r, num⟩

theorem startMember_eq (s : State) (r : Nat) : ∃ p, startMember k tx ty num lead s r =
    { modCell s (lead + r) (startedCell k tx ty r num) with replay := p } := replayStart_rest ..

theorem startMembers_cells (g : Nat) (s : State) (n : Nat) : getCell ((List.range g).foldl (startMember k tx ty num lead) s) n =
    if lead ≤ n ∧ n < lead + g then startedCell k tx ty (n - lead) num (getCell s n) else getCell s n := by
  induction g with
  | zero => rw [if_neg (by omega)]; rfl
  | succ g ih =>
    obtain ⟨p, hp⟩ := startMember_eq k tx ty num lead ((List.range g).foldl (startMember k tx ty num lead) s) g
    rw [List.range_succ, List.foldl_append, List.foldl_cons, List.foldl_nil, hp]
    change getCell (modCell ((List.range g).foldl (startMember k tx ty num lead) s) (lead + g) (startedCell k tx ty g num)) n = _
    by_cases hn : n = lead + g
    · subst hn
      rw [getCell_modCell_same, ih, if_neg (by omega), if_pos (by omega), Nat.add_sub_cancel_left]
    · rw [getCell_modCell_other _ _ hn, ih]
      congr 1
      exact propext (by omega)

theorem startMembers_rest {α : Type} {p : State → α} (hc : ∀ s c r, p { s with cells := c, replay := r } = p s) (l : List Nat) (s : State) :
    p (l.foldl (startMember k tx ty num lead) s) = p s := by
  refine foldl_keeps p (fun s r => ?_) l s
  obtain ⟨q, hq⟩ := startMember_eq k tx ty num lead s r
  rw [hq]
  exact hc s _ q

end

/-- A task that starts anew on a gang. -/
def started (s : State) (k : Kernel) (c lead : Nat) : State :=
  (List.range (kG k)).foldl (startMember k (c % kTw k) (c / kTw k) (s.seq + 1) lead) (fresh s)

/-- A kernel whose next task has been dispatched. -/
def issued (c : Nat) (k : Kernel) : Kernel := { k with next := c + 1, running := k.running ++ [c], started := true }

/-- The kernels that the scheduler began to dispatch in its cycle (R317). -/
def noteNew (s : State) (k : Kernel) : State :=
  if k.started || s.newKernels.contains k.kid then s else { s with newKernels := s.newKernels ++ [k.kid] }

theorem noteNew_rest {α : Type} {p : State → α} (hp : ∀ s l, p { s with newKernels := l } = p s) (s : State) (k : Kernel) :
    p (noteNew s k) = p s := by
  unfold noteNew
  split
  · rfl
  · exact hp s _

theorem bindTask_new (s : State) (k : Kernel) (c lead : Nat) :
    bindTask s k c none lead = takeTurn (modKernel (noteNew (started s k c lead) k) k.kid (issued c)) k.part := rfl

section
variable {s : State}

theorem groupRegion_regions {t : State} (h : t.regions = s.regions) (g n : Nat) : ∀ r, groupRegion t r g n = groupRegion s r g n := by
  have hreg (p : BitVec 16) : regionOf t p = regionOf s p := by rw [regionOf, h, regionOf]
  induction n with
  | zero => exact fun _ => rfl
  | succ n ih =>
    intro r
    rw [groupRegion, groupRegion]
    split
    · cases r.parent with
      | none => rfl
      | some p =>
        rw [Option.bind_some, Option.bind_some, hreg]
        cases regionOf s p with
        | none => rfl
        | some q => exact ih q
    · rfl

theorem takeTurn_rest {α : Type} {p : State → α} (hp : ∀ s l, p { s with regions := l } = p s) (s : State) (part : BitVec 16) :
    p (takeTurn s part) = p s := by
  unfold takeTurn
  split
  · rfl
  · exact hp s _

theorem takeTurn_turn {part : BitVec 16} {r : Region} (hr : regionOf s part = some r) : ∃ u, regionOf (takeTurn s part) part = some u ∧
    u.turn = r.turn + 2 ^ 32 / (max 1 ((groupRegion s r 1 8).erem / 1000)).toNat := by
  let f (q : Region) : Region := { q with turn := q.turn + 2 ^ 32 / (max 1 ((groupRegion s r 1 8).erem / 1000)).toNat }
  have ht : takeTurn s part = modRegion s part f := by
    simp only [takeTurn, hr]
    rfl
  refine ⟨f r, ?_, rfl⟩
  rw [ht, regionOf_modRegion_same (f := f) fun _ => rfl, hr]
  rfl

/-- The cells of a gang, once its task is dispatched. -/
theorem bindTask_cell (s : State) (k : Kernel) (c lead n : Nat) : getCell (bindTask s k c none lead) n =
    if lead ≤ n ∧ n < lead + kG k then startedCell k (c % kTw k) (c / kTw k) (n - lead) (s.seq + 1) (getCell s n) else getCell s n := by
  have h1 : (bindTask s k c none lead).cells = (started s k c lead).cells := by
    rw [bindTask_new, takeTurn_rest (p := State.cells) fun _ _ => rfl]
    exact noteNew_rest (p := State.cells) (fun _ _ => rfl) _ _
  rw [getCell, h1, ← getCell, started, startMembers_cells]
  rfl

theorem bindTask_kernel {k x : Kernel} (c lead : Nat) (hx : kernelOf s k.kid = some x) :
    kernelOf (bindTask s k c none lead) k.kid = some (issued c x) := by
  have hk (u : State) (h : u.kernels = s.kernels) : kernelOf u k.kid = some x := by rw [kernelOf, h, ← kernelOf, hx]
  have h1 : kernelOf (bindTask s k c none lead) k.kid = kernelOf (modKernel (noteNew (started s k c lead) k) k.kid (issued c)) k.kid := by
    rw [bindTask_new, kernelOf, takeTurn_rest (p := State.kernels) fun _ _ => rfl, kernelOf]
  rw [h1, kernelOf_modKernel_same (f := issued c) fun _ => rfl, hk _ ?_]
  · rfl
  · rw [noteNew_rest (p := State.kernels) fun _ _ => rfl, started, startMembers_rest (p := State.kernels) _ _ _ _ _ fun _ _ _ => rfl]
    rfl

theorem bindTask_turn {k : Kernel} {r : Region} (c lead : Nat) (hr : regionOf s k.part = some r) :
    ∃ u, regionOf (bindTask s k c none lead) k.part = some u ∧
      u.turn = r.turn + 2 ^ 32 / (max 1 ((groupRegion s r 1 8).erem / 1000)).toNat := by
  have hregs : (modKernel (noteNew (started s k c lead) k) k.kid (issued c)).regions = s.regions := by
    refine (noteNew_rest (p := State.regions) (fun _ _ => rfl) (started s k c lead) k).trans ?_
    rw [started, startMembers_rest (p := State.regions) _ _ _ _ _ fun _ _ _ => rfl]
    rfl
  rw [bindTask_new, ← groupRegion_regions hregs]
  exact takeTurn_turn (by rw [regionOf, hregs, ← regionOf, hr])

end

/-! ### The dispatch -/

section
variable {s : State} {kid lead : Nat} {k : Kernel}

theorem exec_taskDispatch (hk : kernelOf s kid = some k) (h1 : ready s k = true) (h2 : placeAt s k lead = true)
    (h3 : served s k (dieOf lead) = true) : exec (.taskDispatch kid lead) s = .next (dispatch s k lead) := by
  change execTaskDispatch kid lead s = _
  simp only [execTaskDispatch, hk, h1, h2, h3]
  rfl

theorem nextTask_new (hs : k.saved = []) (h : placeAt s k lead = true) : nextTask k = some (k.next, none) := by
  unfold placeAt at h
  unfold nextTask at h ⊢
  rw [hs] at h ⊢
  dsimp only at h ⊢
  by_cases hn : k.next < kTw k * kTh k
  · rw [if_pos hn]
  · rw [if_neg hn] at h
    split at h
    next he => cases he
    next => cases h

theorem dispatch_new {r : Region} {c : Nat} (hr : regionOf s k.part = some r) (hc : kCores k = false) (hn : nextTask k = some (c, none)) :
    dispatch s k lead = bindTask s k c none lead := by
  simp only [dispatch, hr, hn, imagesOk, hc]
  rfl

end

end Sys2Proof.Machine

namespace Sys2Proof.Laws
open Sys2Proof Machine

/-- Of O57, the dispatches. -/
theorem tasksAreDispatched : Sys2Proof.tasksAreDispatched := by
  intro s kid lead k r hk hr h1 h2 h3 hc hs
  have hexec : exec (.taskDispatch kid lead) s = .next (bindTask s k k.next none lead) := by
    rw [exec_taskDispatch hk h1 h2 h3, dispatch_new hr hc (nextTask_new hs h2)]
  have hcell := bindTask_cell s k k.next lead
  refine ⟨_, hexec, fun g hg => ⟨s.seq + 1, ?_⟩, fun n hn => ?_, ?_, bindTask_turn k.next lead hr⟩
  · intro x tx ty
    have hx : x = startedCell k tx ty g (s.seq + 1) (getCell s (lead + g)) := by
      refine (hcell (lead + g)).trans ((if_pos (by omega)).trans ?_)
      rw [Nat.add_sub_cancel_left]
    rw [hx]
    exact ⟨rfl, startCtx_pc, rfl, rfl, fun i _ => startCtx_x i, rfl, fun _ => rfl, rfl, rfl, rfl, startedCell_clean, startCtx_mode, rfl, rfl,
      rfl, fun hp i hi => startedCell_owners hp hi, rfl⟩
  · rw [hcell, if_neg (by omega)]
  · have hkid := kernelOf_kid hk
    subst hkid
    exact bindTask_kernel k.next lead hk

end Sys2Proof.Laws
end

