-- ==== Sys2Proof/Proofs/PlainReads.lean ====
section
/-!
Accesses of a command processor where no translation context is held and memory is plain (R318, R322, R336, R407): what they read, and
that all that a home answers stays but for what they write.
-/

namespace Sys2Proof.Machine

/-- From s to t a plain memory has stayed plain, and every line is as it was. -/
structure ReadsSame (s t : State) : Prop where
  plain : plainMemory t
  lines : ∀ k < 2 ^ 33, homeLine t 0 k = homeLine s 0 k

section
variable {s t u : State}

theorem ReadsSame.refl (hp : plainMemory s) : ReadsSame s s := ⟨hp, fun _ _ => rfl⟩

theorem ReadsSame.trans (h : ReadsSame s t) (k : ReadsSame t u) : ReadsSame s u :=
  ⟨k.plain, fun i hi => (k.lines i hi).trans (h.lines i hi)⟩

theorem HomesSame.reads (h : HomesSame s t) (hp : plainMemory s) : ReadsSame s t := ⟨h.plain hp, fun k _ => h.homeLine 0 k⟩

/-- A change of what no home answers from. -/
theorem ReadsSame.of_eq (hp : plainMemory s) (hm : t.mem = s.mem) (hc : t.codecs = s.codecs) (hf : t.free = s.free) (hd : t.dies = s.dies) :
    ReadsSame s t := (HomesSame.of_eq hm hc hf hd).reads hp

theorem ReadsSame.home64 (h : ReadsSame s t) {a : Nat} (ha : a < 2 ^ 40) : home64 t a = home64 s a := by
  rw [Machine.home64, homeRead, h.lines _ (by omega), Machine.home64, homeRead]

/-! ### Sirvy's own accesses -/

/-- The line that a lookup finds, where lines keep their data, slices, addresses and sets. -/
theorem l2Find_renewed (x : Die) (p : L2Line → Bool) (age : Nat) (sl k : Nat) :
    (l2Find { x with l2 := updFirst p (fun y => { y with age := age }) x.l2 } sl k).map (·.data) = (l2Find x sl k).map (·.data) := by
  have hat (y : L2Line) : l2At x sl k { y with age := age } = l2At x sl k y := rfl
  have hl2 : l2At { x with l2 := updFirst p (fun y => { y with age := age }) x.l2 } sl k = l2At x sl k := by
    funext y
    simp only [l2At, cosReach, cosOf]
  rw [l2Find, hl2, l2Find]
  induction x.l2 with
  | nil => rfl
  | cons y l ih =>
    by_cases hp : p y = true
    · rw [updFirst, if_pos hp, List.find?_cons, List.find?_cons, hat]
      split <;> rfl
    · rw [updFirst, if_neg hp, List.find?_cons, List.find?_cons]
      split
      · rfl
      · exact ih

theorem homeLine_plain_data (hp : plainMemory s) {k : Nat} (hk : k < 2 ^ 33) : homeLine s 0 k =
    ((l2Find (getDie s (homeDie (k * 128))) (sliceOf 0 (k * 128)) k).map fun x => x.data.toNat).getD (readNat s.mem (k * 128) 128) := by
  rw [homeLine_plain hp hk]
  cases l2Find (getDie s (homeDie (k * 128))) (sliceOf 0 (k * 128)) k <;> rfl

/-- A change of a die under which lookups find the same data. -/
theorem reads_modDie (hp : plainMemory s) {d : Nat} {f : Die → Die} (hq : plainMemory (modDie s d f))
    (hf : ∀ x sl k, (l2Find (f x) sl k).map (·.data) = (l2Find x sl k).map (·.data)) : ReadsSame s (modDie s d f) := by
  refine ⟨hq, fun k hk => ?_⟩
  have hdata : (l2Find (getDie (modDie s d f) (homeDie (k * 128))) (sliceOf 0 (k * 128)) k).map (·.data) =
      (l2Find (getDie s (homeDie (k * 128))) (sliceOf 0 (k * 128)) k).map (·.data) := by
    by_cases hd : homeDie (k * 128) = d
    · rw [hd, getDie_modDie_same, hf]
    · rw [getDie_modDie_other _ _ hd]
  have hnat (o : Option L2Line) : (o.map fun x => x.data.toNat) = (o.map (·.data)).map BitVec.toNat := by
    rw [Option.map_map]
    rfl
  rw [homeLine_plain_data hq hk, homeLine_plain_data hp hk, hnat, hnat, hdata]
  rfl

theorem l2Reach_reads (hp : plainMemory s) (sel pa c : Nat) (who : List Nat) : ReadsSame s (l2Reach s sel pa c who) := by
  have hq := l2Reach_plain hp sel pa c who
  unfold l2Reach at hq ⊢
  dsimp only at hq ⊢
  split
  · exact .refl hp
  · rename_i hb
    rw [if_neg hb] at hq
    split
    next hx =>
      rw [hx] at hq
      have hfresh : ReadsSame s (fresh s) := .of_eq hp rfl rfl rfl rfl
      exact hfresh.trans (reads_modDie hfresh.plain hq fun x sl k => l2Find_renewed x ..)
    next hx =>
      rw [hx] at hq
      refine reads_modDie hp hq fun x sl k => ?_
      obtain ⟨-, hl⟩ := l2Ask_kept (sliceOf sel pa) (pa / 128) c who x
      have hat : l2At (l2Ask (sliceOf sel pa) (pa / 128) c who x) sl k = l2At x sl k := by
        have hcos : (l2Ask (sliceOf sel pa) (pa / 128) c who x).cos = x.cos := by
          unfold l2Ask
          dsimp only
          split
          · rfl
          · split <;> rfl
        funext y
        simp only [l2At, cosReach, cosOf, hcos]
      rw [l2Find, hat, hl, l2Find]

theorem ownTouch_reads (hp : plainMemory s) (wr : Bool) (sel line : Nat) : ReadsSame s (ownTouch wr sel s line) := by
  have hr : ReadsSame s (l2Touch s sel (line * 128) 0) := l2Reach_reads hp ..
  have hc : ReadsSame (l2Touch s sel (line * 128) 0) (ownTouch wr sel s line) := by
    unfold ownTouch l2Choose
    rw [codecBring_plain hp, ite_self]
    split
    · exact ⟨hr.plain, fun k hk => by
        rw [homeLine_plain (s := useFree _) hr.plain hk, homeLine_plain hr.plain hk]
        rfl⟩
    · exact .refl hr.plain
  exact hr.trans hc

/-! ### Accesses of a command processor -/

theorem stage1Walk_off (s : State) (va : Nat) : stage1Walk s TCtx.reset va =
    if bits va 48 9 ≠ 0 then .error ⟨false, false, 2, 0, 0, none⟩ else .ok (offLeaf (va % 2 ^ 57)) := rfl

/-- The handle of an address with both stages off. -/
def offHandle (va pa : Nat) : Handle := combine TCtx.reset false va pa (offLeaf pa) (offLeaf pa)

theorem offHandle_rights (va pa : Nat) : (offHandle va pa).host = false ∧ handleSlice (offHandle va pa) = 0 ∧ (offHandle va pa).pr = true ∧
    (offHandle va pa).pw = true := by
  have h4 : bit 0x370 4 = true := by decide
  have h5 : bit 0x370 5 = true := by decide
  have h10 : bit 0x370 10 = false := by decide
  have h15 : bit 0x370 15 = false := by decide
  simp [offHandle, combine, offLeaf, handleSlice, h4, h5, h10, h15]

/-- Both stages off. -/
theorem translate_off (s : State) (va : Nat) : (∃ f, translate s TCtx.reset false va = .error f) ∨
    translate s TCtx.reset false va = .ok (s, offHandle va (va % 2 ^ 57)) := by
  have hby : (∃ f, translateBy TCtx.reset false va (stage1Walk s TCtx.reset va) (stage2Walk s TCtx.reset false) = .error f) ∨
      translateBy TCtx.reset false va (stage1Walk s TCtx.reset va) (stage2Walk s TCtx.reset false) =
        .ok (offLeaf (va % 2 ^ 57), offLeaf (va % 2 ^ 57), offHandle va (va % 2 ^ 57)) := by
    rw [stage1Walk_off]
    unfold translateBy
    by_cases h57 : bits va 57 7 ≠ (if bit va 56 = true then 127 else 0)
    · rw [if_pos h57]
      exact .inl ⟨_, rfl⟩
    · rw [if_neg h57]
      by_cases h48 : bits va 48 9 ≠ 0
      · rw [if_pos h48]
        exact .inl ⟨_, rfl⟩
      · rw [if_neg h48]
        exact .inr rfl
  unfold translate
  rcases hby with ⟨f, h⟩ | h <;> rw [h]
  · exact .inl ⟨f, rfl⟩
  · exact .inr rfl

/-- An access goes to the home of its line, or is refused. -/
theorem cpHandle_off (s : State) (va : Nat) (wr : Bool) : cpHandle s TCtx.reset va wr = none ∨
    ∃ h pa, cpHandle s TCtx.reset va wr = some (ownTouch wr 0 s (pa / 128), h, pa) ∧ h.host = false ∧ handleSlice h = 0 := by
  obtain ⟨hh, hs, hr, hw⟩ := offHandle_rights va (va % 2 ^ 57)
  unfold cpHandle
  rcases translate_off s va with ⟨f, h⟩ | ht
  · rw [h]
    exact .inl rfl
  · rw [ht]
    refine .inr ⟨offHandle va (va % 2 ^ 57), (offHandle va (va % 2 ^ 57)).ppage.toNat + va % pageSize (offHandle va (va % 2 ^ 57)), ?_, hh, hs⟩
    have hperm : (!(if wr then (offHandle va (va % 2 ^ 57)).pw else (offHandle va (va % 2 ^ 57)).pr)) = false := by rw [hr, hw, ite_self]; rfl
    simp only [hperm, hh, hs]
    rfl

/-- An address of a home is its own. -/
theorem cpHandle_home (s : State) {va : Nat} (hva : va < 2 ^ 40) (wr : Bool) :
    ∃ h, cpHandle s TCtx.reset va wr = some (ownTouch wr 0 s (va / 128), h, va) ∧ h.host = false ∧ handleSlice h = 0 := by
  have b57 : bits va 57 7 = 0 := by
    rw [bits, Nat.shiftRight_eq_div_pow]
    omega
  have b56 : bit va 56 = false := by
    rw [bit, Nat.shiftRight_eq_div_pow, Nat.div_eq_of_lt (by omega)]
    rfl
  have b48 : bits va 48 9 = 0 := by
    rw [bits, Nat.shiftRight_eq_div_pow]
    omega
  have hmod : va % 2 ^ 57 = va := Nat.mod_eq_of_lt (by omega)
  have ht : translate s TCtx.reset false va = .ok (s, offHandle va va) := by
    unfold translate translateBy
    rw [stage1Walk_off, b57, b56, b48, hmod]
    rfl
  have hpa : (offHandle va va).ppage.toNat + va % pageSize (offHandle va va) = va := by
    have hpage : (offHandle va va).ppage = BitVec.ofNat 64 (va - va % 2 ^ 30) := rfl
    have hsize : pageSize (offHandle va va) = 2 ^ 30 := rfl
    rw [hpage, hsize, BitVec.toNat_ofNat]
    omega
  obtain ⟨hh, hs, hr, hw⟩ := offHandle_rights va va
  refine ⟨offHandle va va, ?_, hh, hs⟩
  have hperm : (!(if wr then (offHandle va va).pw else (offHandle va va).pr)) = false := by rw [hr, hw, ite_self]; rfl
  unfold cpHandle
  rw [ht]
  simp only [hperm, hh, hs, hpa]
  rfl

theorem cpHandle_reads (hp : plainMemory s) {va : Nat} {wr : Bool} {r : Handle × Nat} (hu : cpHandle s TCtx.reset va wr = some (u, r)) :
    ReadsSame s u := by
  rcases cpHandle_off s va wr with h | ⟨h, pa, he, -, -⟩
  · rw [h] at hu
    cases hu
  · rw [he] at hu
    cases hu
    exact ownTouch_reads hp ..

theorem cpHeld_off (s : State) (va j : Nat) : cpHeld s TCtx.reset va j = false := by
  unfold cpHeld
  rw [Bool.and_eq_false_iff]
  refine .inr ?_
  rw [Bool.or_eq_false_iff]
  refine ⟨rfl, ?_⟩
  rcases cpHandle_off s va false with h | ⟨h, pa, he, hh, -⟩
  · rw [h]
  · rw [he]
    exact hh

theorem cpBlocks_reads (k : Nat) : ∀ {s va u v}, plainMemory s → cpBlocks TCtx.reset k s va = some (u, v) → ReadsSame s u := by
  induction k with
  | zero => intro s va u v hp h; cases h; exact .refl hp
  | succ k ih =>
    intro s va u v hp h
    unfold cpBlocks at h
    split at h
    · cases h
    next hc =>
      obtain ⟨r, hr, e⟩ := Option.map_eq_some_iff.1 h
      cases e
      have h1 := cpHandle_reads hp hc
      exact h1.trans (ih h1.plain hr)

theorem cpRead_reads (hp : plainMemory s) {va n v : Nat} (hu : cpRead s TCtx.reset va n = some (u, v)) : ReadsSame s u := by
  obtain ⟨r, hr, e⟩ := Option.map_eq_some_iff.1 hu
  cases e
  exact cpBlocks_reads _ hp hr

theorem cpRead64_reads (hp : plainMemory s) {va v : Nat} (hu : cpRead64 s TCtx.reset va = some (u, v)) : ReadsSame s u := by
  unfold cpRead64 at hu
  split at hu
  · cases hu
  next hc => cases hu; exact cpHandle_reads hp hc

theorem imageAtVirtual_reads (hp : plainMemory s) {va : Nat} {es : SMap Bundle} (hu : imageAtVirtual s TCtx.reset va = some (u, es)) :
    ReadsSame s u := by
  unfold imageAtVirtual at hu
  split at hu
  · cases hu
  next h1 =>
    split at hu
    · cases hu
    · split at hu
      · cases hu
      next h2 =>
        obtain ⟨_, -, e⟩ := Option.map_eq_some_iff.1 hu
        cases e
        have h := cpRead_reads hp h1
        exact h.trans (cpRead_reads h.plain h2)

/-! ### Packets -/

theorem tctxOf_off (h : s.tctx = []) (p : BitVec 16) : tctxOf s p false = TCtx.reset := by
  have hkey : tctxKey s p = none := by
    rw [tctxKey, h, List.find?_eq_none]
    simp
  simp [tctxOf, hkey]

theorem loadKernel_reads (hp : plainMemory s) (h : s.tctx = []) (r : Region) (k : Kernel) : ReadsSame s (loadKernel s r k).1 := by
  unfold loadKernel
  simp only [tctxOf_off h]
  split
  · exact .refl hp
  · split
    · exact .refl hp
    next h1 =>
      have h2 := cpRead_reads hp h1
      split
      · exact h2
      · split
        · exact h2
        · split
          · exact h2
          next h3 => exact h2.trans (imageAtVirtual_reads h2.plain h3)

theorem Packet.taken_reads (hp : plainMemory s) (h : s.tctx = []) (p : Packet) : ReadsSame s (p.taken s) := by
  have hfresh : ReadsSame s (fresh s) := .of_eq hp rfl rfl rfl rfl
  have hc : ReadsSame (fresh s) (p.checked (fresh s)).1 := by
    unfold Packet.checked
    split
    · exact .refl hfresh.plain
    · split
      · exact loadKernel_reads hfresh.plain h ..
      · exact .refl hfresh.plain
  exact (hfresh.trans hc).trans (.of_eq hc.plain rfl rfl rfl rfl)

/-- What a command processor takes in leaves every line. -/
theorem takeIn_reads (hp : plainMemory s) (h : s.tctx = []) (q : Nat) : ReadsSame s (takeIn s q) := by
  rcases takeIn_cases s q with he | he | ⟨r, s1, w, s2, p, hw, hr, he⟩ <;> rw [he]
  · exact .refl hp
  · exact .of_eq hp rfl rfl rfl rfl
  · have ht2 : s2.tctx = [] := (tctx_of_offHome ((offHome_cpRead hr).trans (offHome_cpRead64 hw))).trans h
    rw [tctxOf_off h] at hw hr
    have h1 := cpRead64_reads hp hw
    have h2 := h1.trans (cpRead_reads h1.plain hr)
    exact h2.trans (Packet.taken_reads h2.plain ht2 _)

/-! ### Doublewords -/

/-- A doubleword that is read. -/
theorem cpRead64_home (hp : plainMemory s) {a : Nat} (ha : a < 2 ^ 40) : ∃ u, cpRead64 s TCtx.reset a = some (u, (home64 s a).toNat) ∧
    ReadsSame s u := by
  obtain ⟨h, hc, hh, hs⟩ := cpHandle_home s ha false
  have reads := ownTouch_reads hp false 0 (a / 128)
  refine ⟨_, ?_, reads⟩
  have hval : homeRead (ownTouch false 0 s (a / 128)) 0 a 8 = (home64 s a).toNat := by
    have hlt : homeRead s 0 a 8 < 2 ^ 64 := bits_lt ..
    rw [homeRead, reads.lines _ (by omega), home64, BitVec.toNat_ofNat, Nat.mod_eq_of_lt hlt, homeRead]
  simp only [cpRead64, hc, hh, hs]
  exact congrArg some (Prod.ext rfl hval)

/-- A doubleword that is written. -/
theorem cpWrite64_home (s : State) {a v : Nat} (h8 : a % 8 = 0) (ha : a < 2 ^ 40) :
    cpWrite64 s TCtx.reset a v = homeWriteN (ownTouch true 0 s (a / 128)) a 8 v := by
  obtain ⟨h, hc, hh, hs⟩ := cpHandle_home s ha true
  simp only [cpWrite64, hc, hh, hs]
  rw [homeWriteN_word _ v h8]
  rfl

theorem cpWrite64_plain (hp : plainMemory s) {a v : Nat} (h8 : a % 8 = 0) (ha : a < 2 ^ 40) :
    plainMemory (cpWrite64 s TCtx.reset a v) ∧ home64 (cpWrite64 s TCtx.reset a v) a = BitVec.ofNat 64 v := by
  have reads := ownTouch_reads hp true 0 (a / 128)
  rw [cpWrite64_home s h8 ha]
  exact ⟨(homeWriteN_written reads.plain).1, home64_homeWriteN_same reads.plain v h8 ha⟩

/-- A doubleword apart from what is written. -/
theorem home64_apart {pa n v b : Nat} (h : Written pa n v s t) (h8 : b % 8 = 0) (hb : b < 2 ^ 40) (hapart : b + 8 ≤ pa ∨ pa + n ≤ b) :
    home64 t b = home64 s b := by
  apply BitVec.eq_of_getLsbD_eq
  intro j hj
  simp only [home64, homeRead, BitVec.getLsbD_ofNat, bits_testBit]
  rw [h.2 _ (by omega) _ (by omega), if_neg (by omega)]

end

end Sys2Proof.Machine
end

