-- ==== Sys2Proof/Proofs/Retirements.lean ====
section
/-!
The retirement of packets: word 0, the signal, and what is left of the reserve (R26, R261, R313, R315, R366, R367).
-/

namespace Sys2Proof.Machine

/-! ### Word 0 -/

theorem retiredWord_eq (k : Kernel) : BitVec.ofNat 64 (retiredWord k) =
    (k.packet.extractLsb' 0 64 &&& 0xFFFFFFFF0000FFFE) ||| BitVec.ofNat 64 (k.status % 2 ^ 16 * 2 ^ 16) := by
  have mask : ∀ j < 64, (0xFFFFFFFF0000FFFE : BitVec 64).getLsbD j = (decide (1 ≤ j ∧ j < 16) || decide (32 ≤ j)) := by decide
  apply BitVec.eq_of_getLsbD_eq
  intro j hj
  have low : 2 ^ 1 * bits k.packet.toNat 1 15 < 2 ^ 32 := by
    have := bits_lt k.packet.toNat 1 15
    omega
  have htype : (2 ^ 1 * bits k.packet.toNat 1 15).testBit j = (decide (1 ≤ j ∧ j < 16) && k.packet.getLsbD j) := by
    rw [Nat.testBit_two_pow_mul, bits_testBit, BitVec.testBit_toNat]
    by_cases h1 : 1 ≤ j
    · rw [decide_eq_true h1, show 1 + (j - 1) = j by omega, Bool.true_and]
      congr 1
      exact decide_eq_decide.2 (by omega)
    · simp [h1]
  have hword : (bits k.packet.toNat 1 15 * 2 + bits k.packet.toNat 32 32 * 2 ^ 32).testBit j =
      if j < 32 then (2 ^ 1 * bits k.packet.toNat 1 15).testBit j else k.packet.getLsbD j := by
    rw [Nat.add_comm, Nat.mul_comm _ (2 ^ 32), Nat.mul_comm _ 2, show 2 * bits k.packet.toNat 1 15 = 2 ^ 1 * bits k.packet.toNat 1 15 by omega,
      Nat.testBit_two_pow_mul_add _ low, bits_testBit, BitVec.testBit_toNat]
    split
    · rfl
    · rw [decide_eq_true (by omega), Bool.true_and, show 32 + (j - 32) = j by omega]
  have hstat : (k.status % 2 ^ 16 * 2 ^ 16).testBit j = (decide (16 ≤ j ∧ j < 32) && k.status.testBit (j - 16)) := by
    rw [Nat.mul_comm, Nat.testBit_two_pow_mul, Nat.testBit_mod_two_pow]
    by_cases h : 16 ≤ j
    · rw [decide_eq_true h, Bool.true_and]
      congr 1
      exact decide_eq_decide.2 (by omega)
    · simp [h]
  rw [BitVec.getLsbD_ofNat, decide_eq_true hj, Bool.true_and, retiredWord, setBits_testBit, hword, htype, BitVec.getLsbD_or, BitVec.getLsbD_and,
    BitVec.getLsbD_extractLsb', mask j hj, BitVec.getLsbD_ofNat, hstat]
  by_cases h16 : j < 16
  · simp [h16, hj, show j < 32 by omega, show ¬ 32 ≤ j by omega, show ¬ 16 ≤ j by omega, Bool.and_comm]
  · by_cases h32 : j < 32
    · simp [h16, h32, hj, show ¬ 32 ≤ j by omega, show 16 ≤ j by omega]
    · simp [h16, h32, hj, show 32 ≤ j by omega]

theorem decrements_iff (k : Kernel) : decrements k = true ↔
    (k.entry.isSome = true ∨ k.packet.extractLsb' 1 3 = 1) ∧ k.status ∈ [1, 2, 3, 4, 9] := by
  have htype : bits k.packet.toNat 1 3 = 1 ↔ k.packet.extractLsb' 1 3 = 1 := by
    rw [bits_toNat, ← BitVec.toNat_inj]
    rfl
  rw [decrements, Bool.and_eq_true, Bool.or_eq_true, beq_iff_eq, htype, List.contains_iff_mem]

/-! ### The step -/

/-- The packet is retired, and the CP reads on. -/
def goOn (s : State) (k : Kernel) : State := match k.q with
  | some q => takeIn s q
  | none => s

/-- A kernel leaves. -/
def without (s : State) (kid : Nat) : State := { s with kernels := s.kernels.filter fun x => x.kid != kid }

section
variable {s : State} {kid : Nat} {k : Kernel} (hk : kernelOf s kid = some k)
include hk

section
variable (hs : k.state = 2)
include hs

theorem exec_packetRetirement_behind (hb : hostBehind s k.rel = true) : exec (.packetRetirement kid) s = .next s := by
  change execPacketRetirement kid s = _
  simp only [execPacketRetirement, hk]
  exact congrArg _ ((if_pos hs).trans (if_pos hb))

variable (hb : hostBehind s k.rel = false)
include hb

theorem exec_packetRetirement_decrements (hd : decrements k = true) : exec (.packetRetirement kid) s = .next
    (goOn (modKernel (retireWord s k) kid fun x => { x with state := 3, rel := (retireWord s k).seq }) k) := by
  change execPacketRetirement kid s = _
  simp only [execPacketRetirement, hk]
  exact congrArg _ ((if_pos hs).trans ((if_neg (by simp [hb])).trans (if_pos hd)))

theorem exec_packetRetirement_leaves (hd : decrements k = false) :
    exec (.packetRetirement kid) s = .next (goOn (without (retireWord s k) kid) k) := by
  change execPacketRetirement kid s = _
  simp only [execPacketRetirement, hk]
  exact congrArg _ ((if_pos hs).trans ((if_neg (by simp [hb])).trans (if_neg (by simp [hd]))))

end

section
variable (hs : k.state = 3)
include hs

theorem exec_packetRetirement_records (hr : recordsOut s k = false) : exec (.packetRetirement kid) s = .next s := by
  change execPacketRetirement kid s = _
  simp only [execPacketRetirement, hk]
  exact congrArg _ ((if_neg (by omega)).trans (if_neg (by simp [hr])))

theorem exec_packetRetirement_returns (hr : recordsOut s k = true) (ht : s.tctx = []) : exec (.packetRetirement kid) s =
    .next (without (addErem (decrement s k) (budgetOf s k.part) k.reserve) kid) := by
  change execPacketRetirement kid s = _
  simp only [execPacketRetirement, hk, tctxOf_off ht, cpHeld_off]
  exact congrArg _ ((if_neg (by omega)).trans (if_pos (by simp [hs, hr])))

end

end

/-! ### Word 0 written -/

/-- A schedule entry takes the status of its last firing. -/
def entryStatus (s : State) (k : Kernel) : State := match k.entry with
  | some (d, i) =>
    if smGet 0 (getDie s d).fired i ≠ k.kid then s else modDie s d fun x =>
      { x with sched := smSet 0 x.sched i (BitVec.ofNat 256 (setBits (smGet 0 x.sched i).toNat 216 8 k.status)) }
  | none => s

theorem entryStatus_homes (s : State) (k : Kernel) : HomesSame s (entryStatus s k) := by
  unfold entryStatus
  split
  · split
    · exact .refl s
    · exact .modDie s _ (fun _ => rfl) (fun _ => rfl) fun _ => rfl
  · exact .refl s

theorem offHome_entryStatus (s : State) (k : Kernel) : offHome (entryStatus s k) = offHome s := by
  unfold entryStatus
  split
  · split <;> rfl
  · rfl

section
variable {s : State} {k : Kernel}

theorem retireWord_queue {q : Nat} (hq : k.q = some q) (ht : s.tctx = []) :
    retireWord s k = entryStatus (passed (cpWrite64 s TCtx.reset (slotOf (queueOf s q) k.pidx) (retiredWord k)) q k.pidx) k := by
  simp only [retireWord, hq, tctxOf_off ht]
  rfl

theorem retireWord_entry (hq : k.q = none) : retireWord s k = entryStatus s k := by
  simp only [retireWord, hq]
  rfl

theorem entryStatus_last {d i : Nat} (he : k.entry = some (d, i)) (hf : smGet 0 (getDie s d).fired i = k.kid)
    (hwf : smWf 0 0 (getDie s d).sched = true) :
    (smGet 0 (getDie (entryStatus s k) d).sched i).extractLsb' 216 8 = BitVec.ofNat 8 k.status := by
  have h : entryStatus s k = modDie s d fun x =>
      { x with sched := smSet 0 x.sched i (BitVec.ofNat 256 (setBits (smGet 0 x.sched i).toNat 216 8 k.status)) } := by
    simp only [entryStatus, he]
    exact if_neg (by simp [hf])
  rw [h, getDie_modDie_same, smGet_smSet_same 0 _ i _ hwf]
  apply BitVec.eq_of_getLsbD_eq
  intro j hj
  rw [BitVec.getLsbD_extractLsb', BitVec.getLsbD_ofNat, BitVec.getLsbD_ofNat, setBits_testBit]
  simp [hj, show 216 + j < 256 by omega, show 216 + j < 224 by omega]

theorem entryStatus_older {d i : Nat} (he : k.entry = some (d, i)) (hf : smGet 0 (getDie s d).fired i ≠ k.kid) : entryStatus s k = s := by
  simp only [entryStatus, he]
  exact if_pos hf

/-- Word 0 in a plain memory, with RD past a packet that was never admitted. -/
structure WordRetired (s t : State) (q : Nat) (k : Kernel) : Prop where
  plain : plainMemory t
  word : home64 t (slotOf (queueOf s q) k.pidx) = BitVec.ofNat 64 (retiredWord k)
  moved : qRd (queueOf s q) = k.pidx → qRd (queueOf t q) = k.pidx + 1
  stays : qRd (queueOf s q) ≠ k.pidx → qRd (queueOf t q) = qRd (queueOf s q)
  kernels : t.kernels = s.kernels
  tctx : t.tctx = []

theorem retireWord_retired {q : Nat} (hq : k.q = some q) (ht : s.tctx = []) (h8 : slotOf (queueOf s q) k.pidx % 8 = 0)
    (ha : slotOf (queueOf s q) k.pidx < 2 ^ 40) (hp : plainMemory s) : WordRetired s (retireWord s k) q k := by
  rw [retireWord_queue hq ht]
  obtain ⟨hp1, hw⟩ := cpWrite64_plain hp h8 ha (v := retiredWord k)
  let w := cpWrite64 s TCtx.reset (slotOf (queueOf s q) k.pidx) (retiredWord k)
  have hoff : offHome w = offHome s := offHome_cpWrite64
  have hoff' := offHome_entryStatus (passed w q k.pidx) k
  have homes : HomesSame w (entryStatus (passed w q k.pidx) k) :=
    HomesSame.trans (t := passed w q k.pidx) (.of_eq rfl rfl rfl rfl) (entryStatus_homes _ k)
  have hqueue : queueOf (entryStatus (passed w q k.pidx) k) q = queueOf (passed w q k.pidx) q := by
    rw [queueOf, queues_of_offHome hoff', queueOf]
  have hqw : queueOf w q = queueOf s q := by rw [queueOf, queues_of_offHome hoff, queueOf]
  refine ⟨homes.plain hp1, (homes.home64 _).trans hw, fun h => ?_, fun h => ?_, ?_, ?_⟩
  · rw [hqueue]
    exact qRd_passed (by rw [hqw, h])
  · rw [hqueue, passed, queueOf_modQueue_same, hqw, if_neg h]
  · have hw : (passed w q k.pidx).kernels = w.kernels := rfl
    exact (kernels_of_offHome hoff').trans (hw.trans (kernels_of_offHome hoff))
  · have hw : (passed w q k.pidx).tctx = w.tctx := rfl
    exact (tctx_of_offHome hoff').trans (hw.trans ((tctx_of_offHome hoff).trans ht))

end

/-- The kernels that a command processor takes in from a queue are those of its packet at RD. -/
theorem takeIn_kernels (s : State) (q : Nat) : ∃ l, (takeIn s q).kernels = s.kernels ++ l ∧ ∀ k ∈ l, k.pidx = qRd (queueOf s q) := by
  rcases takeIn_cases s q with h | h | ⟨r, s1, w, s2, p, hw, hp, h⟩ <;> rw [h]
  · exact ⟨[], (List.append_nil _).symm, by simp⟩
  · exact ⟨[], (List.append_nil _).symm, by simp⟩
  · have hoff : offHome s2 = offHome s := (offHome_cpRead hp).trans (offHome_cpRead64 hw)
    let pk : Packet := ⟨q, queueOf s q, r, p⟩
    refine ⟨[pk.cancelled (pk.checked (fresh s2))], pk.taken_kernels s2 (kernels_of_offHome hoff), fun k hk => ?_⟩
    obtain rfl := List.mem_singleton.1 hk
    exact (pk.cancelled_kept (fresh s2)).pidx

/-- After word 0 a command processor reads on, which leaves word 0 and RD. -/
theorem WordRetired.readOn {s w t : State} {q : Nat} {k : Kernel} (h : WordRetired s w q k) (ha : slotOf (queueOf s q) k.pidx < 2 ^ 40)
    (hr : ReadsSame w t) (hq : t.queues = w.queues) (hc : t.tctx = w.tctx) :
    home64 (takeIn t q) (slotOf (queueOf s q) k.pidx) = BitVec.ofNat 64 (retiredWord k) ∧
      (qRd (queueOf s q) = k.pidx → qRd (queueOf (takeIn t q) q) = k.pidx + 1) := by
  have reads := takeIn_reads hr.plain (hc.trans h.tctx) q
  have hqt : queueOf t q = queueOf w q := by rw [queueOf, hq, queueOf]
  refine ⟨(reads.home64 ha).trans ((hr.home64 ha).trans h.word), fun hrd => ?_⟩
  rw [(takeIn_takesIn t q).rd, hqt, h.moved hrd]

/-- RD of its queue has left a packet whose word 0 is written. -/
theorem WordRetired.rd_ne {s w : State} {q : Nat} {k : Kernel} (h : WordRetired s w q k) : qRd (queueOf w q) ≠ k.pidx := by
  by_cases hrd : qRd (queueOf s q) = k.pidx
  · rw [h.moved hrd]
    simp
  · rwa [h.stays hrd]

/-! ### The signal -/

section
variable {s : State} {k : Kernel}

theorem decrement_none (h : kSignal k = 0) : decrement s k = s := if_pos h

theorem decrement_plain (ht : s.tctx = []) (h0 : kSignal k ≠ 0) (h8 : kSignal k % 8 = 0) (ha : kSignal k < 2 ^ 40) (hp : plainMemory s) :
    plainMemory (decrement s k) ∧ home64 (decrement s k) (kSignal k) = home64 s (kSignal k) - 1 := by
  obtain ⟨u, hu, reads⟩ := cpRead64_home hp ha
  have hd : decrement s k = cpWrite64 u TCtx.reset (kSignal k) (((home64 s (kSignal k)).toNat + 2 ^ 64 - 1) % 2 ^ 64) := by
    simp only [decrement, tctxOf_off ht, hu]
    exact if_neg h0
  obtain ⟨hp1, hw⟩ := cpWrite64_plain reads.plain h8 ha (v := ((home64 s (kSignal k)).toNat + 2 ^ 64 - 1) % 2 ^ 64)
  rw [hd]
  refine ⟨hp1, hw.trans ?_⟩
  bv_omega

theorem offHome_decrement (s : State) (k : Kernel) : offHome (decrement s k) = offHome s := by
  unfold decrement
  dsimp only
  split
  · rfl
  · split
    · rfl
    next hr => exact offHome_cpWrite64.trans (offHome_cpRead64 hr)

/-- A write of Sirvy's leaves the doublewords apart from it. -/
theorem ownWrite_apart {pa n v b : Nat} (hp : plainMemory s) (h8 : b % 8 = 0) (hb : b < 2 ^ 40) (hapart : b + 8 ≤ pa ∨ pa + n ≤ b) :
    plainMemory (ownWrite s pa n v) ∧ home64 (ownWrite s pa n v) b = home64 s b := by
  have touched (l : List Nat) : ∀ s, plainMemory s → ReadsSame s (l.foldl (ownTouch true 0) s) := by
    induction l with
    | nil => exact fun _ hp => .refl hp
    | cons x l ih =>
      intro s hp
      have hx := ownTouch_reads hp true 0 x
      exact hx.trans (ih _ hx.plain)
  have reads := touched (linesOf pa n) s hp
  have written := homeWriteN_written (pa := pa) (n := n) (v := v) reads.plain
  exact ⟨written.1, (home64_apart written h8 hb hapart).trans (reads.home64 hb)⟩

theorem addOne_some {v : Int} {p : BitVec 16} {r : Region} (hr : regionOf s p = some r) :
    addOne v s p = rcbWrite (modRegion s p fun q => { q with erem := r.erem + v }) r 896 64 (wrap 64 (r.erem + v)) := by
  simp only [addOne, setErem, hr]

/-- What is left of a reserve returns beside the RCBs that take it. -/
theorem addOne_apart {v : Int} {a : Nat} (h8 : a % 8 = 0) (ha : a < 2 ^ 40) (p : BitVec 16) (hp : plainMemory s)
    (hr : ∀ r ∈ s.regions, a + 8 ≤ r.pa ∨ r.pa + 256 ≤ a) : plainMemory (addOne v s p) ∧ home64 (addOne v s p) a = home64 s a := by
  cases hreg : regionOf s p with
  | none =>
    have h : addOne v s p = s := by simp only [addOne, hreg]
    rw [h]
    exact ⟨hp, rfl⟩
  | some r =>
    rw [addOne_some hreg]
    have hapart := hr r (mem_of_regionOf hreg)
    have hmod : ReadsSame s (modRegion s p fun q => { q with erem := r.erem + v }) := .of_eq hp rfl rfl rfl rfl
    have h := ownWrite_apart (pa := r.pa + 896 / 8) (n := 64 / 8) (v := wrap 64 (r.erem + v)) hmod.plain h8 ha (by omega)
    exact ⟨h.1, h.2.trans (hmod.home64 ha)⟩

/-- Where no RCB has a doubleword, none of a tree has it after a charge. -/
theorem addOne_places {v : Int} {a : Nat} (p : BitVec 16) (hr : ∀ r ∈ s.regions, a + 8 ≤ r.pa ∨ r.pa + 256 ≤ a) :
    ∀ r ∈ (addOne v s p).regions, a + 8 ≤ r.pa ∨ r.pa + 256 ≤ a := by
  intro r hm
  have hbare : bareRegions (addOne v s p) = bareRegions s := regions_of_offEnergy (offEnergy_addErem (ps := [p]))
  have hin : r.bare ∈ bareRegions (addOne v s p) := List.mem_map_of_mem hm
  rw [hbare] at hin
  obtain ⟨q, hq, hb⟩ := List.mem_map.1 hin
  rw [← Region.pa_of_bare hb]
  exact hr q hq

theorem addErem_apart {v : Int} {a : Nat} (h8 : a % 8 = 0) (ha : a < 2 ^ 40) (ps : List (BitVec 16)) (hp : plainMemory s)
    (hr : ∀ r ∈ s.regions, a + 8 ≤ r.pa ∨ r.pa + 256 ≤ a) : home64 (addErem s ps v) a = home64 s a := by
  rw [addErem_eq]
  induction ps generalizing s with
  | nil => rfl
  | cons p ps ih =>
    obtain ⟨hp1, h1⟩ := addOne_apart (v := v) h8 ha p hp hr
    exact (ih hp1 (addOne_places p hr)).trans h1

end

end Sys2Proof.Machine

namespace Sys2Proof.Laws
open Sys2Proof Machine

/-- Of O57, the retirement. -/
theorem packetsRetire : Sys2Proof.packetsRetire := by
  intro s kid k hk ht plain word sig
  have hkid := kernelOf_kid hk
  refine ⟨exec_packetRetirement_behind hk, fun hs hb q hq hplain => ?_, fun hs hb hq d i he hwf => ?_, exec_packetRetirement_records hk,
    fun hs hr hsig => ?_, decrements_iff k⟩
  · obtain ⟨h8, ha, hp⟩ := hplain
    have retired := retireWord_retired hq ht h8 ha hp
    have hgo (u : State) : goOn u k = takeIn u q := by simp only [goOn, hq]
    cases hd : decrements k with
    | true =>
      let f (x : Kernel) : Kernel := { x with state := 3, rel := (retireWord s k).seq }
      have on := retired.readOn (t := modKernel (retireWord s k) kid f) ha (.of_eq retired.plain rfl rfl rfl rfl) rfl rfl
      have hfind : kernelOf (modKernel (retireWord s k) kid f) kid = some (f k) := by
        rw [kernelOf_modKernel_same (f := f) fun _ => rfl, kernelOf, retired.kernels, ← kernelOf, hk]
        rfl
      refine ⟨_, (exec_packetRetirement_decrements hk hs hb hd).trans (congrArg _ (hgo _)), on.1.trans (retiredWord_eq k), on.2,
        fun _ => ⟨(retireWord s k).seq, (takeIn_takesIn _ q).kernelOf hfind⟩, (by cases ·)⟩
    | false =>
      have on := retired.readOn (t := without (retireWord s k) kid) ha (.of_eq retired.plain rfl rfl rfl rfl) rfl rfl
      obtain ⟨l, hl, hnew⟩ := takeIn_kernels (without (retireWord s k) kid) q
      refine ⟨_, (exec_packetRetirement_leaves hk hs hb hd).trans (congrArg _ (hgo _)), on.1.trans (retiredWord_eq k), on.2,
        (by cases ·), fun _ x hx hxk => ?_⟩
      rw [hl] at hx
      rcases List.mem_append.1 hx with hx | hx
      · exact absurd hxk (by simpa using (List.mem_filter.1 hx).2)
      · rw [hnew x hx]
        exact retired.rd_ne
  · have hgo (u : State) : goOn u k = u := by simp only [goOn, hq]
    have hlast (t : State) (hdies : t.dies = (entryStatus s k).dies) :
        (smGet 0 (getDie s d).fired i = kid → (smGet 0 (getDie t d).sched i).extractLsb' 216 8 = BitVec.ofNat 8 k.status) ∧
        (smGet 0 (getDie s d).fired i ≠ kid → (getDie t d).sched = (getDie s d).sched) := by
      have hdie : getDie t d = getDie (entryStatus s k) d := by rw [getDie, hdies, getDie]
      rw [hdie, ← hkid]
      exact ⟨fun hf => entryStatus_last he hf hwf, fun hf => by rw [entryStatus_older he hf]⟩
    have hword : retireWord s k = entryStatus s k := retireWord_entry hq
    cases hd : decrements k with
    | true =>
      refine ⟨_, (exec_packetRetirement_decrements hk hs hb hd).trans (congrArg _ (hgo _)), hlast _ ?_⟩
      rw [hword]
      rfl
    | false =>
      refine ⟨_, (exec_packetRetirement_leaves hk hs hb hd).trans (congrArg _ (hgo _)), hlast _ ?_⟩
      rw [hword]
      rfl
  · have hoff := offHome_decrement s k
    have hregs := regions_of_offHome hoff
    refine ⟨_, exec_packetRetirement_returns hk hs hr ht, ?_, fun hapart h0 => ?_, fun p hp r hreg => ?_⟩
    · have hkernels : (addErem (decrement s k) (budgetOf s k.part) k.reserve).kernels = s.kernels :=
        (kernels_addErem _).trans (kernels_of_offHome hoff)
      rw [without, hkernels]
    · obtain ⟨h8, ha, hp⟩ := hsig.resolve_left h0
      obtain ⟨hp1, hdec⟩ := decrement_plain ht h0 h8 ha hp
      exact (addErem_apart h8 ha _ hp1 (hregs ▸ hapart)).trans hdec
    · refine ⟨{ r with erem := r.erem + (k.reserve : Int) }, ?_, rfl⟩
      have hfind := regionOf_addErem (s := decrement s k) (v := k.reserve) (nodup_budgetOf s k.part) hp
      have hsame : regionOf (decrement s k) p = some r := by rw [regionOf, hregs, ← regionOf, hreg]
      rw [hsame] at hfind
      exact hfind

end Sys2Proof.Laws
end

