-- ==== Sys2Proof/Proofs/Quiets.lean ====
section
/-!
What the operations on the segments of a cell leave of its task, of the other cells, and of the rest of the machine (R357, R361, R364).
-/

namespace Sys2Proof.Machine

/-- From s to t one cell alone may have changed, and it runs the task that it ran. -/
structure Quiet (n : Nat) (s t : State) : Prop extends OneCell n s t where
  task : (getCell t n).task = (getCell s n).task

namespace Quiet

variable {n : Nat} {s t u : State}

theorem refl (n : Nat) (s : State) : Quiet n s s := ⟨.refl n s, rfl⟩

theorem trans (h : Quiet n s t) (k : Quiet n t u) : Quiet n s u := ⟨h.toOneCell.trans k.toOneCell, k.task.trans h.task⟩

theorem ite {p : Prop} [Decidable p] (ht : Quiet n s t) (hu : Quiet n s u) : Quiet n s (if p then t else u) := by
  split
  · exact ht
  · exact hu

theorem foldl {α : Type} {f : State → α → State} (hf : ∀ s x, Quiet n s (f s x)) (l : List α) : ∀ s, Quiet n s (l.foldl f s) := by
  induction l with
  | nil => exact .refl n
  | cons x l ih => exact fun s => (hf s x).trans (ih _)

theorem modCell {f : Cell → Cell} (hf : ∀ c, (f c).task = c.task) : Quiet n s (modCell s n f) :=
  ⟨.modCell n s f, by rw [getCell_modCell_same, hf]⟩

theorem modUser {f : Ctx → Ctx} : Quiet n s (modCtx s n false f) := by
  rw [modCtx_user]
  exact .modCell fun _ => rfl

/-- A change of what no cell holds. -/
theorem of_offEnergy (h : offEnergy t = offEnergy s) : Quiet n s t :=
  ⟨.of_offEnergy h, by rw [getCell, cells_of_offEnergy h, getCell]⟩

theorem tasks (h : Quiet n s t) (m : Nat) : (getCell t m).task = (getCell s m).task := by
  by_cases hm : m = n
  · rw [hm, h.task]
  · rw [h.others m hm]

end Quiet

section
variable (s : State) (n : Nat)

theorem flushL1_quiet : Quiet n s (flushL1 s n) := by
  rw [flushL1_eq]
  refine Quiet.trans (.foldl (fun s l => ?_) _ s) (.modCell fun _ => rfl)
  unfold sendWb
  split
  · exact ⟨⟨rfl, fun _ _ => rfl⟩, rfl⟩
  · exact .refl n s

omit s n in
theorem tilePut_task (v : Nat) (x : Cell) : (tilePut v x).task = x.task := by
  unfold tilePut
  extract_lets k c put
  rfl

omit s n in
theorem linkUnpack_task (v : Nat) (x : Cell) : (linkUnpack v x).task = x.task := by
  unfold linkUnpack
  rfl

omit s n in
theorem ctlUnpack_task (v : Nat) (x : Cell) : (ctlUnpack v x).task = x.task := by
  unfold ctlUnpack
  extract_lets at_ own c
  rfl

omit s n in
theorem accSeg_task (i v : Nat) (x : Cell) : (accSeg i v x).task = x.task := by
  unfold accSeg
  split
  · rfl
  · extract_lets y
    have hy : y.task = x.task := foldl_keeps Cell.task (fun _ _ => by rfl) _ x
    clear_value y
    exact hy

theorem putSnaps_quiet (c : Ctx) (v : Nat) : Quiet n s (putSnaps s n c v) := by
  unfold putSnaps
  extract_lets was old t img kept live lost one new bs s'
  have hs : Quiet n s s' := .of_offEnergy rfl
  clear_value s' bs new
  exact hs.trans .modUser

theorem latchPut_quiet (v : Nat) : Quiet n s (latchPut s n v) := by
  unfold latchPut
  extract_lets sl vl sums u s' slice
  have hs : Quiet n s s' := putSnaps_quiet ..
  clear_value s' sl vl slice
  exact hs.trans (.modCell fun _ => rfl)

/-- A segment is put into a cell. -/
theorem segPut_quiet (seg v : Nat) : Quiet n s (segPut s n seg v) := by
  unfold segPut
  extract_lets user
  refine .ite .modUser (.ite .modUser (.ite .modUser ?_))
  refine .ite (.modCell (tilePut_task v)) ?_
  refine .ite (.modCell (accSeg_task _ v)) ?_
  refine .ite (latchPut_quiet ..) ?_
  refine .ite (.modCell (linkUnpack_task v)) ?_
  refine .ite .modUser (.ite .modUser (.ite (.refl n s) ?_))
  refine .ite (.modCell fun _ => rfl) ?_
  refine .ite (.modCell (ctlUnpack_task v)) ?_
  refine .ite (.modCell fun _ => rfl) ?_
  refine .ite (.modCell fun _ => rfl) ?_
  exact .ite .modUser (.refl n s)

theorem unmarkSeg_quiet (seg : Nat) : Quiet n s (unmarkSeg s n seg) := by
  unfold unmarkSeg unmarkAt
  split
  · exact .refl n s
  · exact .modCell fun _ => rfl

theorem dropPending_quiet : Quiet n s (dropPending s n) := by
  unfold dropPending
  extract_lets s'
  have hs : Quiet n s s' := .modCell fun _ => rfl
  exact hs.trans ⟨⟨rfl, fun _ _ => rfl⟩, rfl⟩

/-- A segment takes its value of R231. -/
theorem clearSeg_quiet (seg : Nat) : Quiet n s (clearSeg s n seg) := by
  unfold clearSeg
  refine .ite .modUser (.ite (.modCell fun _ => rfl) ?_)
  refine .ite ((segPut_quiet ..).trans (dropPending_quiet ..)) ?_
  refine .ite ((segPut_quiet ..).trans (.modCell fun _ => rfl)) ?_
  exact .ite ((flushL1_quiet ..).trans (.modCell fun _ => rfl)) (segPut_quiet ..)

/-- A segment changes hands. -/
theorem ownSeg_quiet (p : BitVec 16) (seg : Nat) : Quiet n s (ownSeg s n p seg) := by
  unfold ownSeg
  split
  · exact .refl n s
  · exact ((clearSeg_quiet ..).trans (unmarkSeg_quiet ..)).trans (.modCell fun _ => rfl)

/-- A cell takes an image. -/
theorem readImage_quiet (a segs : Nat) : Quiet n s (readImage s n a segs) := by
  unfold readImage
  extract_lets have_ s1 s2 s3 s4
  have h1 : Quiet n s s1 := .ite .modUser (.refl n s)
  have h2 : Quiet n s1 s2 := .ite ((flushL1_quiet s1 n).trans (.modCell fun _ => rfl)) (.refl n s1)
  have h3 : Quiet n s2 s3 := .foldl (fun s k => (unmarkSeg_quiet s n k).trans (segPut_quiet ..)) _ s2
  have h4 : Quiet n s3 s4 := .modUser
  exact (((h1.trans h2).trans h3).trans h4).trans .modUser

end

/-! ### A task that is placed -/

/-- From s to t tasks of one kernel alone have come to cells, and the other kernels stand as they stood but for what charges change. -/
structure Places (kid : Nat) (s t : State) : Prop where
  tasks : ∀ n y, (getCell t n).task = some y → (getCell s n).task = some y ∨ y.kid = kid
  kernels : ∀ i x, i ≠ kid → kernelOf s i = some x → ∃ x', kernelOf t i = some x' ∧ x'.bare = x.bare

section
variable {kid : Nat} {s t u : State}

theorem Places.refl (kid : Nat) (s : State) : Places kid s s := ⟨fun _ _ h => .inl h, fun _ x _ h => ⟨x, h, rfl⟩⟩

theorem Places.trans (h : Places kid s t) (k : Places kid t u) : Places kid s u := by
  refine ⟨fun n y hy => ?_, fun i x hi hx => ?_⟩
  · rcases k.tasks n y hy with hy | hy
    · exact h.tasks n y hy
    · exact .inr hy
  · obtain ⟨x', hx', hb⟩ := h.kernels i x hi hx
    obtain ⟨x'', hx'', hb'⟩ := k.kernels i x' hi hx'
    exact ⟨x'', hx'', hb'.trans hb⟩

theorem Places.foldl {α : Type} {f : State → α → State} (hf : ∀ s x, Places kid s (f s x)) (l : List α) : ∀ s, Places kid s (l.foldl f s) := by
  induction l with
  | nil => exact .refl kid
  | cons x l ih => exact fun s => (hf s x).trans (ih _)

theorem Quiet.places {n : Nat} (h : Quiet n s t) : Places kid s t :=
  ⟨fun m _ hy => .inl (h.tasks m ▸ hy), fun _ _ _ hx => kernelOf_some_bare h.kernels hx⟩

theorem Places.of_eq (hc : t.cells = s.cells) (hk : t.kernels = s.kernels) : Places kid s t :=
  ⟨fun n y hy => .inl (by rwa [getCell, hc] at hy), fun _ x _ hx => ⟨x, by rwa [kernelOf, hk], rfl⟩⟩

theorem startCell_places (s : State) (k : Kernel) (n tx ty r num : Nat) : Places k.kid s (startCell s k n tx ty r num) := by
  refine ⟨fun m y hy => ?_, fun _ x _ hx => ⟨x, hx, rfl⟩⟩
  rw [startCell_eq] at hy
  by_cases hm : m = n
  · subst hm
    rw [getCell_modCell_same] at hy
    cases hy
    exact .inr rfl
  · rw [getCell_modCell_other _ _ hm] at hy
    exact .inl hy

theorem bindTask_places (s : State) (k : Kernel) (c : Nat) (saved : Option Nat) (lead : Nat) : Places k.kid s (bindTask s k c saved lead) := by
  unfold bindTask
  extract_lets tx ty s1 num one s2 s3 s4
  have h1 : Places k.kid s s1 := .of_eq rfl rfl
  have hone (s : State) (r : Nat) : Places k.kid s (one s r) := by
    dsimp only [one]
    refine (startCell_places s k (lead + r) tx ty r num).trans ?_
    split
    · exact (readImage_quiet ..).places
    · obtain ⟨p, hp⟩ := replayStart_rest (startCell s k (lead + r) tx ty r num) (lead + r) ⟨k.kid, tx, ty, r, num⟩
      rw [hp]
      exact .of_eq rfl rfl
  have h2 : Places k.kid s1 s2 := .foldl hone _ s1
  have h3 : Places k.kid s2 s3 := by
    dsimp only [s3]
    split
    · exact .refl _ s2
    · exact .of_eq rfl rfl
  have h4 : Places k.kid s3 s4 := by
    refine ⟨fun _ _ hy => .inl hy, fun i x hi hx => ⟨x, ?_, rfl⟩⟩
    refine (kernelOf_modKernel_other (fun k => ?_) hi).trans hx
    split <;> rfl
  have h5 : Places k.kid s4 (takeTurn s4 k.part) :=
    .of_eq (takeTurn_rest (p := State.cells) (fun _ _ => rfl) s4 _) (takeTurn_rest (p := State.kernels) (fun _ _ => rfl) s4 _)
  exact (((h1.trans h2).trans h3).trans h4).trans h5

theorem dispatch_places (s : State) (k : Kernel) (lead : Nat) : Places k.kid s (dispatch s k lead) := by
  unfold dispatch
  split
  · split
    · exact .refl _ s
    · split
      · refine .foldl (fun s c => ?_) _ s
        split
        · exact bindTask_places ..
        · exact .refl _ s
      · exact bindTask_places ..
  · exact .refl _ s

end

end Sys2Proof.Machine
end

