-- ==== Sys2Proof/Proofs/CellSaves.lean ====
section
/-!
The images that a save of Sirvy's own writes of the cells of a task (R348, R349, R352, R359, R360, R364).
-/

namespace Sys2Proof.Machine

/-! ### What a scan reads -/

/-- What neither a cell, nor a message, nor a number given out changes. -/
theorem scanned_keeps {α : Type} {p : State → α} (hp : ∀ s c m i, p { s with cells := c, chan := m, seq := i } = p s) (s : State) (n segs : Nat) :
    p (scanned s n segs) = p s := by
  have cells (s : State) (n : Nat) (f : Cell → Cell) : p (modCell s n f) = p s := hp s _ s.chan s.seq
  have send (c : Cell) (s : State) (l : Nat × L1Line) : p (sendWb n c s l) = p s := by
    unfold sendWb
    split
    · exact hp s s.cells _ _
    · rfl
  have file (s : State) : p (fileFreeze s n) = p s := by
    rcases fileFreeze_eq s n with h | ⟨v, f, h⟩ <;> rw [h]
    exact (cells _ n _).trans (hp s s.cells s.chan _)
  have flush (s : State) : p (flushL1 s n) = p s := by
    rw [flushL1_eq]
    exact (cells _ n _).trans (foldl_keeps p (send _) _ s)
  have walk : p (walkLess s n) = p s := by
    rw [walkLess, modCtx_user]
    exact cells s n _
  rw [scanned_eq, file]
  split
  · exact (flush _).trans walk
  · exact walk

/-- The task, the PC and HOLD of a cell. -/
structure CellStays (y z : Cell) : Prop where
  task : z.task = y.task
  pc : z.user.pc = y.user.pc
  hold : z.hold = y.hold

theorem CellStays.refl (y : Cell) : CellStays y y := ⟨rfl, rfl, rfl⟩

theorem CellStays.trans {x y z : Cell} (h : CellStays x y) (k : CellStays y z) : CellStays x z :=
  ⟨k.task.trans h.task, k.pc.trans h.pc, k.hold.trans h.hold⟩

theorem filed_stays (id : Nat) (v : BitVec 256) (f : Frozen) (c : Cell) : CellStays c (c.filed id v f) := by
  unfold Cell.filed
  split
  · exact ⟨rfl, rfl, rfl⟩
  · unfold appendRecord
    extract_lets size
    split
    · exact ⟨rfl, rfl, rfl⟩
    · split <;> exact ⟨rfl, rfl, rfl⟩

theorem fileFreeze_stays (s : State) (n : Nat) : CellStays (getCell s n) (getCell (fileFreeze s n) n) := by
  rcases fileFreeze_eq s n with h | ⟨v, f, h⟩ <;> rw [h]
  · exact .refl _
  · rw [getCell_modCell_same]
    exact filed_stays ..

theorem flushL1_stays (s : State) (n : Nat) : CellStays (getCell s n) (getCell (flushL1 s n) n) := by
  have hsend : getCell ((getCell s n).l1.foldl (sendWb n (getCell s n)) s) n = getCell s n := by
    refine foldl_keeps (getCell · n) (fun s l => ?_) _ s
    unfold sendWb
    split <;> rfl
  rw [flushL1_eq, getCell_modCell_same, hsend]
  exact ⟨rfl, rfl, rfl⟩

theorem scanned_stays (s : State) (n segs : Nat) : CellStays (getCell s n) (getCell (scanned s n segs) n) := by
  have h0 : CellStays (getCell s n) (getCell (walkLess s n) n) := by
    rw [walkLess, modCtx_user, getCell_modCell_same]
    exact ⟨rfl, rfl, rfl⟩
  rw [scanned_eq]
  split
  · exact (h0.trans (flushL1_stays ..)).trans (fileFreeze_stays ..)
  · exact h0.trans (fileFreeze_stays ..)

theorem wbOut_sendWb_other {n m : Nat} (hm : m ≠ n) (c : Cell) (s : State) (l : Nat × L1Line) : wbOut (sendWb n c s l) m = wbOut s m := by
  unfold sendWb
  split
  · simp [wbOut, sendMsg, fresh, hm.symm]
  · rfl

theorem wbOut_scanned_other {n m : Nat} (hm : m ≠ n) (s : State) (segs : Nat) : wbOut (scanned s n segs) m = wbOut s m := by
  rw [scanned_eq, wbOut_fileFreeze]
  split
  · rw [flushL1_eq]
    refine (wbOut_congr rfl m).trans ?_
    refine (foldl_keeps (wbOut · m) (fun s l => wbOut_sendWb_other hm _ s l) _ (walkLess s n)).trans ?_
    exact wbOut_congr rfl m
  · exact wbOut_congr rfl m

/-! ### Pins -/

theorem mem_lineage {s : State} {r : Region} (n : Nat) : ∀ {p : BitVec 16}, r ∈ lineage s p n → r ∈ s.regions := by
  induction n with
  | zero => intro p h; cases h
  | succ n ih =>
    intro p h
    rw [lineage] at h
    split at h
    · cases h
    next q hq =>
      rcases List.mem_cons.1 h with rfl | h
      · exact mem_of_regionOf hq
      · split at h
        · exact ih h
        · cases h

/-- Where no region keeps a pin, none fails. -/
theorem pinFails_none {s : State} (h : ∀ r ∈ s.regions, r.pins = []) (p : BitVec 16) (a n : Nat) : pinFails s p a n = none := by
  unfold pinFails
  split
  · rfl
  next r hr =>
    have hm : r ∈ s.regions := mem_lineage 9 (List.mem_of_find?_eq_some hr)
    rw [List.find?_eq_none]
    intro b _
    simp [pinOk, h r hm]

/-! ### One cell -/

/-- All segments. -/
def allSegs : Nat := 0x0FFFFFFF

theorem allSegs_l1 : bit allSegs 19 = true := by decide

/-- The bytes of an image of all segments. -/
@[irreducible] def fullImage : Nat := imageBytes allSegs

theorem fullImage_eq : fullImage = imageBytes 0x0FFFFFFF := by
  unfold fullImage allSegs
  rfl

theorem fullImage_pos : 0 < fullImage := fullImage_eq ▸ Nat.lt_of_lt_of_le (by decide) (imageBytes_bounds 0x0FFFFFFF).1

/-- The image of a cell is written, and its D words are on their way. -/
def savedOne (segs len : Nat) (s : State) (n base v : Nat) : State :=
  modCell (scanned (imagePart s base v 0 len) n segs) n fun x => { x with image := some ⟨base, v, len, false⟩ }

theorem savedOne_keeps {α : Type} {p : State → α} (hp : ∀ s c m i, p { s with cells := c, chan := m, seq := i } = p s) (s : State)
    (segs len n base v : Nat) : p (savedOne segs len s n base v) = p (imagePart s base v 0 len) :=
  (hp (scanned (imagePart s base v 0 len) n segs) _ _ _).trans (scanned_keeps hp ..)

theorem saveOne_begun {s : State} {n : Nat} (hi : (getCell s n).image = none) (hpins : ∀ r ∈ s.regions, r.pins = []) (base v : Nat) :
    saveOne s n base v = savedOne allSegs fullImage s n base v := by
  simp only [saveOne, hi, pinFails_none hpins, ← fullImage_eq]
  exact if_pos fullImage_pos

/-- From s to t the images of some cells have been written, and nothing of any cell is lost. -/
structure SavesCells (len : Nat) (ns : List Nat) (s t : State) : Prop where
  others : ∀ m, m ∉ ns → getCell t m = getCell s m
  stays : ∀ m, CellStays (getCell s m) (getCell t m)
  images : ∀ m ∈ ns, ∃ g, (getCell t m).image = some g ∧ g.done = len ∧ g.whole = false
  wb : ∀ m, wbOut t m = (wbOut s m || (ns.contains m && (getCell s m).l1.any dirtyLine))
  sys : ∀ d, (getDie t d).sys = (getDie s d).sys
  regions : t.regions = s.regions
  kernels : t.kernels = s.kernels

theorem savedOne_saves {segs : Nat} (hl1 : bit segs 19 = true) (len : Nat) (s : State) (n base v : Nat) :
    SavesCells len [n] s (savedOne segs len s n base v) := by
  let u := imagePart s base v 0 len
  let w := scanned u n segs
  have hu : HomeFrame s u := imagePart_frame s base v 0 len
  have hw : ScalarFrame n u w := scanned_frame u n segs
  have hcell (m : Nat) (hm : m ≠ n) : getCell (savedOne segs len s n base v) m = getCell s m :=
    (getCell_modCell_other w _ hm).trans ((hw.others m hm).trans (hu.cell m))
  have hself : getCell (savedOne segs len s n base v) n = { getCell w n with image := some ⟨base, v, len, false⟩ } := getCell_modCell_same ..
  refine ⟨fun m hm => hcell m (by simpa using hm), fun m => ?_, fun m hm => ?_, fun m => ?_, fun d => ?_, ?_, ?_⟩
  · by_cases hm : m = n
    · subst hm
      rw [hself, ← hu.cell m]
      exact (scanned_stays u m segs).trans ⟨rfl, rfl, rfl⟩
    · rw [hcell m hm]
      exact .refl _
  · obtain rfl := List.mem_singleton.1 hm
    exact ⟨⟨base, v, len, false⟩, by rw [hself], rfl, rfl⟩
  · have hsaved : wbOut (savedOne segs len s n base v) m = wbOut w m := wbOut_congr rfl m
    rw [hsaved, ← wbOut_congr hu.chan m]
    by_cases hm : m = n
    · subst hm
      rw [wbOut_scanned, hl1, hu.cell]
      simp
    · rw [wbOut_scanned_other hm]
      simp [hm]
  · have hdies : (savedOne segs len s n base v).dies = u.dies := savedOne_keeps (p := State.dies) (fun _ _ _ _ => rfl) s segs len n base v
    rw [getDie, hdies, ← getDie, hu.sys]
  · exact (savedOne_keeps (p := State.regions) (fun _ _ _ _ => rfl) s segs len n base v).trans hu.regions
  · exact (savedOne_keeps (p := State.kernels) (fun _ _ _ _ => rfl) s segs len n base v).trans (kernels_of_offHome offHome_imagePart)

theorem SavesCells.refl (len : Nat) (s : State) : SavesCells len [] s s :=
  ⟨fun _ _ => rfl, fun _ => .refl _, by simp, by simp, fun _ => rfl, rfl, rfl⟩

/-- One cell, and then others. -/
theorem SavesCells.cons {len : Nat} {s t u : State} {n : Nat} {ns : List Nat} (h : SavesCells len [n] s t)
    (k : SavesCells len ns t u) (hn : n ∉ ns) : SavesCells len (n :: ns) s u := by
  refine ⟨fun m hm => ?_, fun m => (h.stays m).trans (k.stays m), fun m hm => ?_, fun m => ?_, fun d => (k.sys d).trans (h.sys d),
    k.regions.trans h.regions, k.kernels.trans h.kernels⟩
  · obtain ⟨h1, h2⟩ := not_or.1 (mt List.mem_cons.2 hm)
    exact (k.others m h2).trans (h.others m (by simpa using h1))
  · by_cases hmn : m = n
    · subst hmn
      rw [k.others m hn]
      exact h.images m (by simp)
    · exact k.images m ((List.mem_cons.1 hm).resolve_left hmn)
  · rw [k.wb, h.wb]
    by_cases hmn : m = n
    · subst hmn
      simp [hn]
    · rw [h.others m (by simpa using hmn)]
      simp [hmn]

/-- A list of cells that no save is held back at is saved whole. -/
theorem saveAll_saves (bytes : State → Nat → Nat) (l : List (Nat × Nat)) : ∀ {s : State}, (l.map Prod.fst).Nodup →
    (∀ n ∈ l.map Prod.fst, (getCell s n).image = none) → (∀ r ∈ s.regions, r.pins = []) → saveHeld s (l.map Prod.fst) = false →
    SavesCells fullImage (l.map Prod.fst) s (saveAll bytes s l) := by
  induction l with
  | nil => exact fun _ _ _ _ => .refl _ _
  | cons e l ih =>
    obtain ⟨n, base⟩ := e
    intro s hnd himg hpins hheld
    rw [List.map_cons, List.nodup_cons] at hnd
    have hone : saveOne s n base (bytes s n) = savedOne allSegs fullImage s n base (bytes s n) := saveOne_begun (himg n (by simp)) hpins base (bytes s n)
    have h1 := savedOne_saves allSegs_l1 fullImage s n base (bytes s n)
    have held (ns : List Nat) : saveHeld (savedOne allSegs fullImage s n base (bytes s n)) ns = saveHeld s ns := by simp only [saveHeld, h1.sys]
    rw [List.map_cons, saveHeld, List.any_cons, Bool.or_eq_false_iff] at hheld
    have hfirst : saveHeld (savedOne allSegs fullImage s n base (bytes s n)) [n] = false := by
      rw [held, saveHeld, List.any_cons, hheld.1]
      rfl
    have hgo : saveAll bytes s ((n, base) :: l) = saveAll bytes (savedOne allSegs fullImage s n base (bytes s n)) l := by
      rw [saveAll, hone]
      exact if_neg (by rw [hfirst]; decide)
    rw [hgo]
    refine h1.cons (ih hnd.2 (fun m hm => ?_) (h1.regions ▸ hpins) ((held _).trans hheld.2)) hnd.1
    rw [h1.others m (by
      rw [List.mem_singleton]
      rintro rfl
      exact hnd.1 hm)]
    exact himg m (List.mem_cons_of_mem _ hm)

end Sys2Proof.Machine
end

