-- ==== Sys2Proof/Proofs/Preemptions.lean ====
section
/-!
Pre-emption: the freeze of a victim, the images of its cells, and the task that leaves them (R238, R316, R348, R360, R364, R382, R408).
-/

namespace Sys2Proof.Machine

/-! ### The first call -/

theorem openFreeze_eq (cause causer : Nat) (c : Cell) : ∃ f, openFreeze cause causer c = { c with frozen := f } := by
  unfold openFreeze
  split
  · exact ⟨_, rfl⟩
  · split
    · exact ⟨c.frozen, rfl⟩
    · exact ⟨_, rfl⟩

/-- A cell that is held for a cause. -/
def heldFor (cause causer : Nat) (c : Cell) : Cell := openFreeze cause causer { c with hold := true }

theorem heldFor_eq (cause causer : Nat) (c : Cell) : ∃ f, heldFor cause causer c = { c with hold := true, frozen := f } :=
  openFreeze_eq cause causer { c with hold := true }

theorem heldFor_heldFor (cause causer : Nat) (c : Cell) : heldFor cause causer (heldFor cause causer c) = heldFor cause causer c := by
  cases hf : c.frozen with
  | none => simp [heldFor, openFreeze, hf]
  | some f => by_cases hc : f.cause = cause <;> simp [heldFor, openFreeze, hf, hc]

/-- A cell whose task is to be saved for a kernel. -/
def chosenFor (kid : Nat) (c : Cell) : Cell := { c with saving := some kid, wasHeld := c.hold }

/-- The cells of a victim, frozen for a kernel. -/
def frozenFor (s : State) (kid victim : Nat) (ns : List Nat) : State :=
  holdCells (ns.foldl (fun s n => modCell s n (chosenFor kid)) s) 8 victim ns

theorem getCell_frozenFor (s : State) (kid victim : Nat) (ns : List Nat) (n : Nat) :
    getCell (frozenFor s kid victim ns) n = if n ∈ ns then heldFor 8 victim (chosenFor kid (getCell s n)) else getCell s n := by
  refine (getCell_foldl_modCell _ (heldFor_heldFor 8 victim) ns _ n).trans ?_
  rw [getCell_foldl_modCell (chosenFor kid) (fun _ => rfl) ns s n]
  split <;> rfl

section
variable {s : State} {kid victim base w : Nat} {t : TaskRef}

theorem exec_preemption_freezes {k : Kernel} {r : Region} (ht : (getCell s victim).task = some t) (hh : saveHeld s (taskCells s t) = false)
    (hs : (getCell s victim).saving = none) (hk : kernelOf s kid = some k) (hr : regionOf s k.part = some r) (hready : ready s k = true)
    (hfull : r.cells.any (placeAt s k) = false) (hv : chosenVictim s r k = some victim)
    (hp : placeImages s (seqOwner (getCell s victim)) (taskCells s t).length base = true) :
    exec (.preemption kid victim base) s = .next (frozenFor s kid victim (taskCells s t)) := by
  change execPreemption kid victim base s = _
  simp only [execPreemption, ht, hh, hs, hk, hr, hready, hfull, hv, hp]
  rfl

theorem exec_preemption_saves (ht : (getCell s victim).task = some t) (hh : saveHeld s (taskCells s t) = false)
    (hs : (getCell s victim).saving = some w) : exec (.preemption kid victim base) s = .next (preemptSave s w victim t base) := by
  change execPreemption kid victim base s = _
  simp only [execPreemption, ht, hh, hs]
  rfl

end

/-! ### A save that is given up -/

/-- A change of the cells of a list in which each stands once. -/
theorem getCell_foldl_modCell_nodup (f : Cell → Cell) {l : List Nat} (hl : l.Nodup) : ∀ (s : State) (n : Nat),
    getCell (l.foldl (fun s m => modCell s m f) s) n = if n ∈ l then f (getCell s n) else getCell s n := by
  induction l with
  | nil => exact fun _ _ => rfl
  | cons m l ih =>
    intro s n
    obtain ⟨hm, hl⟩ := List.nodup_cons.1 hl
    rw [List.foldl_cons, ih hl]
    by_cases hn : n = m
    · subst hn
      rw [getCell_modCell_same, if_neg hm, if_pos (by simp)]
    · rw [getCell_modCell_other s f hn]
      simp only [List.mem_cons, hn, false_or]

/-- A cell that no save goes on with. -/
def unsaved (x : Cell) : Cell := { x with saving := none, wasHeld := false, image := none }

theorem getCell_noSave (s : State) (ns : List Nat) (n : Nat) :
    getCell (noSave s ns) n = if n ∈ ns then unsaved (getCell s n) else getCell s n :=
  getCell_foldl_modCell unsaved (fun _ => rfl) ns s n

/-- A cell whose task goes on. -/
def thawed (x : Cell) : Cell := if x.wasHeld then { x with saving := none, wasHeld := false } else release x

theorem getCell_thaw (s : State) {ns : List Nat} (hns : ns.Nodup) (n : Nat) :
    getCell (thaw s ns) n = if n ∈ ns then thawed (getCell s n) else getCell s n :=
  getCell_foldl_modCell_nodup thawed hns s n

theorem release_task (x : Cell) : (release x).task = x.task := by
  unfold release
  split <;> rfl

theorem thawed_task (x : Cell) : (thawed x).task = x.task := by
  unfold thawed
  split
  · rfl
  · exact release_task x

theorem thawed_pc (x : Cell) : (thawed x).user.pc = x.user.pc := by
  unfold thawed
  split
  · rfl
  · exact release_pc x

theorem thawed_hold (x : Cell) : (thawed x).hold = (x.hold && (x.wasHeld || !x.ok)) := by
  unfold thawed
  split
  next h => simp [h]
  next h => simp [h, release_hold]

theorem stillWaits_iff {s : State} {w : Nat} : stillWaits s w = true ↔ ∃ k r, kernelOf s w = some k ∧ regionOf s k.part = some r ∧
    ready s k = true ∧ r.cells.any (placeAt s k) = false := by
  unfold stillWaits
  cases hk : kernelOf s w with
  | none => simp
  | some k => cases hr : regionOf s k.part <;> simp [hr]

/-! ### A task that leaves its cells -/

/-- A cell that a saved task leaves goes to a new owner. -/
def handedOver (owner : BitVec 16) (s : State) (n : Nat) : State := (List.range 28).foldl (fun s g => ownSeg s n owner g) (vacated s n)

theorem owned_quiet (owner : BitVec 16) (s : State) (n : Nat) :
    Quiet n (vacated s n) (handedOver owner s n) := .foldl (fun s g => ownSeg_quiet s n owner g) _ _

theorem handedOver_one (owner : BitVec 16) (s : State) (n : Nat) : OneCell n s (handedOver owner s n) :=
  (vacated_one s n).trans (owned_quiet owner s n).toOneCell

theorem handedOver_task (owner : BitVec 16) (s : State) (n : Nat) : (getCell (handedOver owner s n) n).task = none :=
  (owned_quiet owner s n).task.trans (vacated_task s n)

/-- A kernel with a task more that is saved. -/
def taskSaved (c base seq : Nat) (k : Kernel) : Kernel := { k with saved := (c, base, seq) :: k.saved, running := k.running.filter (· != c) }

section
variable {s : State} {t : TaskRef} {v : Kernel} (hv : kernelOf s t.kid = some v) (ns : List Nat) (base : Nat) (owner : BitVec 16)

include hv in
theorem leaveTask_eq : leaveTask s t ns base owner = modKernel (fresh (ns.foldl (handedOver owner) s)) t.kid
    (taskSaved (t.ty * kTw v + t.tx) base (fresh (ns.foldl (handedOver owner) s)).seq) := by
  simp only [leaveTask, hv]
  rfl

include hv in
theorem leaveTask_gone {n : Nat} (hn : n ∈ ns) : (getCell (leaveTask s t ns base owner) n).task = none := by
  rw [leaveTask_eq hv]
  exact (Vacates.foldl (handedOver_one owner) (handedOver_task owner) ns s).gone n hn

include hv in
theorem leaveTask_saved : ∃ x i, kernelOf (leaveTask s t ns base owner) t.kid = some x ∧
    x.saved = (t.ty * kTw v + t.tx, base, i) :: v.saved := by
  have free := Vacates.foldl (handedOver_one owner) (handedOver_task owner) ns s
  obtain ⟨v', hv', hb⟩ := kernelOf_some_bare (t := fresh (ns.foldl (handedOver owner) s)) free.kernels hv
  have hsaved : v'.saved = v.saved := show v'.bare.saved = v.bare.saved by rw [hb]
  refine ⟨taskSaved (t.ty * kTw v + t.tx) base (fresh (ns.foldl (handedOver owner) s)).seq v', _, ?_, congrArg _ hsaved⟩
  rw [leaveTask_eq hv, kernelOf_modKernel_same (f := taskSaved _ _ _) (fun _ => rfl), hv']
  rfl

end

/-- A task leaves its cells, and where the kernel that waits can take the place, its own task comes. -/
def makesRoom (s : State) (k : Kernel) (victim : Nat) (t : TaskRef) (ns : List Nat) (base : Nat) : State :=
  let s := leaveTask s t ns base k.part
  if ready s k && placeAt s k victim && served s k (dieOf victim) then dispatch s k victim else s

theorem makesRoom_places (s : State) (k : Kernel) (victim : Nat) (t : TaskRef) (ns : List Nat) (base : Nat) :
    Places k.kid (leaveTask s t ns base k.part) (makesRoom s k victim t ns base) := by
  unfold makesRoom
  dsimp only
  split
  · exact dispatch_places ..
  · exact .refl ..

/-- What stands once the images of the cells of a task are whole. -/
theorem makesRoom_leaves {s : State} {k v : Kernel} {t : TaskRef} (hv : kernelOf s t.kid = some v) (hne : t.kid ≠ k.kid) (victim : Nat)
    (ns : List Nat) (base : Nat) : ∃ x i, kernelOf (makesRoom s k victim t ns base) t.kid = some x ∧
      x.saved = (t.ty * kTw v + t.tx, base, i) :: v.saved ∧
      ∀ n ∈ ns, ∀ y, (getCell (makesRoom s k victim t ns base) n).task = some y → y.kid = k.kid := by
  have places := makesRoom_places s k victim t ns base
  obtain ⟨x, i, hx, hsaved⟩ := leaveTask_saved hv ns base k.part
  obtain ⟨x', hx', hb⟩ := places.kernels t.kid x hne hx
  refine ⟨x', i, hx', (show x'.bare.saved = x.bare.saved by rw [hb]).trans hsaved, fun n hn y hy => ?_⟩
  refine (places.tasks n y hy).resolve_left fun h => ?_
  rw [leaveTask_gone hv ns base k.part hn] at h
  cases h

theorem saveWhole_kernels (valid : Nat → Nat) (s : State) (ns : List Nat) : (saveWhole s valid ns).kernels = s.kernels := by
  refine foldl_keeps State.kernels (fun s n => ?_) ns s
  split
  next g hg =>
    have hv : (imageValid s g.base (valid n)).kernels = s.kernels := kernels_of_offHome offHome_imageValid
    exact (modCell_kernels ..).trans hv
  · rfl

/-! ### The later calls -/

/-- The bytes of the image of a cell. -/
@[irreducible] def ownBytes (s : State) (n : Nat) : Nat := imageHeld s n 0x0FFFFFFF (seqOwner (getCell s n)).toNat fun _ v => v

/-- The images of some cells are written. -/
def imaged (s : State) (ns : List Nat) (base : Nat) : State := saveAll ownBytes s (imagePlaces s ns base)

theorem ownBytes_eq : (fun s n => imageHeld s n 0x0FFFFFFF (seqOwner (getCell s n)).toNat fun _ v => v) = ownBytes := by
  unfold ownBytes
  rfl

theorem map_imagePlaces (s : State) (ns : List Nat) (base : Nat) : (imagePlaces s ns base).map Prod.fst = ns := by
  rw [imagePlaces, List.map_map]
  exact List.map_id ns

section
variable {s : State} {w victim base : Nat} {t : TaskRef}

theorem preemptSave_failed (hf : ∃ n ∈ taskCells s t, (getCell s n).failed ≠ 0) :
    preemptSave s w victim t base = noSave s (taskCells s t) := by
  obtain ⟨n, hn, hf⟩ := hf
  exact if_pos (List.any_eq_true.2 ⟨n, hn, by simpa using hf⟩)

variable (hc : ∀ n ∈ taskCells s t, (getCell s n).failed = 0 ∧ (getCell s n).image = none)
include hc

theorem savedBase_none : savedBase s (taskCells s t) = none := by
  rw [savedBase, List.findSome?_eq_none_iff]
  intro e he
  have hmem : e.1 ∈ taskCells s t := by
    rw [← map_imagePlaces s (taskCells s t) 0]
    exact List.mem_map_of_mem he
  rw [(hc e.1 hmem).2]
  rfl

theorem none_failed : ¬ ((taskCells s t).any fun n => (getCell s n).failed != 0) = true := by
  rw [List.any_eq_true]
  rintro ⟨n, hn, h⟩
  exact bne_iff_ne.1 h (hc n hn).1

theorem preemptSave_thaws (h : stillWaits s w = false ∨ firstPlace s (seqOwner (getCell s victim)) (taskCells s t).length = none) :
    preemptSave s w victim t base = thaw s (taskCells s t) := by
  refine (if_neg (none_failed hc)).trans (if_pos ⟨by rw [savedBase_none hc]; rfl, ?_⟩)
  rcases h with h | h
  · exact .inl (by rw [h]; rfl)
  · exact .inr (by rw [h]; rfl)

variable (hw : stillWaits s w = true) (hplace : (firstPlace s (seqOwner (getCell s victim)) (taskCells s t).length).isSome = true)
include hw hplace

omit hc in
theorem not_given_up : ¬ ((!stillWaits s w) = true ∨ (firstPlace s (seqOwner (getCell s victim)) (taskCells s t).length).isNone = true) := by
  rw [hw, ← Option.not_isSome, hplace]
  decide

theorem preemptSave_waits (hq : ∃ n ∈ taskCells s t, quiescent s n = false) : preemptSave s w victim t base = s := by
  obtain ⟨n, hn, hq⟩ := hq
  refine (if_neg (none_failed hc)).trans ((if_neg fun h => not_given_up hw hplace h.2).trans (if_pos ⟨by rw [savedBase_none hc]; rfl, .inr ?_⟩))
  rw [Bool.not_eq_true', List.all_eq_false]
  exact ⟨n, hn, by rw [hq]; decide⟩

variable (hq : ∀ n ∈ taskCells s t, quiescent s n = true)
  (hbase : placeImages s (seqOwner (getCell s victim)) (taskCells s t).length base = true)
include hq hbase

omit hc hw hplace in
theorem not_put_off : ¬ ((!placeImages s (seqOwner (getCell s victim)) (taskCells s t).length base) = true ∨
    (!(taskCells s t).all (quiescent s)) = true) := by
  rw [hbase, List.all_eq_true.2 hq]
  decide

theorem preemptSave_images (h : saveHeld (imaged s (taskCells s t) base) (taskCells s t) = true ∨
    (taskCells s t).any (wbOut (imaged s (taskCells s t) base)) = true) :
    preemptSave s w victim t base = imaged s (taskCells s t) base := by
  refine (if_neg (none_failed hc)).trans ((if_neg fun h => not_given_up hw hplace h.2).trans ((if_neg fun h => not_put_off hq hbase h.2).trans ?_))
  simp only [savedBase_none hc, Option.getD_none, ownBytes_eq]
  exact if_pos h

theorem preemptSave_leaves {k : Kernel} (h : ¬ (saveHeld (imaged s (taskCells s t) base) (taskCells s t) = true ∨
    (taskCells s t).any (wbOut (imaged s (taskCells s t) base)) = true))
    (hk : kernelOf (saveWhole (imaged s (taskCells s t) base) (fun _ => 1) (taskCells s t)) w = some k) :
    preemptSave s w victim t base =
      makesRoom (saveWhole (imaged s (taskCells s t) base) (fun _ => 1) (taskCells s t)) k victim t (taskCells s t) base := by
  refine (if_neg (none_failed hc)).trans ((if_neg fun h => not_given_up hw hplace h.2).trans ((if_neg fun h => not_put_off hq hbase h.2).trans ?_))
  simp only [savedBase_none hc, Option.getD_none, ownBytes_eq]
  refine (if_neg h).trans ?_
  rw [imaged] at hk
  simp only [hk]
  rfl

end

/-! ### What the images leave -/

section
variable {s : State} {t : TaskRef} {base : Nat} (hnd : (listed s).Nodup) (hh : saveHeld s (taskCells s t) = false)
  (hi : ∀ n ∈ taskCells s t, (getCell s n).image = none) (hpins : ∀ r ∈ s.regions, r.pins = [])
include hnd

omit hnd in
theorem nodup_taskCells (hnd : (listed s).Nodup) (t : TaskRef) : (taskCells s t).Nodup := hnd.filter _

include hh hi hpins

theorem imaged_saves : SavesCells fullImage (taskCells s t) s (imaged s (taskCells s t) base) := by
  have h := saveAll_saves ownBytes (imagePlaces s (taskCells s t) base) (s := s)
  rw [map_imagePlaces] at h
  exact h (nodup_taskCells hnd t) hi hpins hh

theorem not_saveHeld_imaged : saveHeld (imaged s (taskCells s t) base) (taskCells s t) = false := by
  simp only [saveHeld, (imaged_saves hnd hh hi hpins (base := base)).sys]
  exact hh

variable (hq : ∀ n ∈ taskCells s t, quiescent s n = true)
include hq

/-- What the images of quiescent cells leave to be written back is their D words. -/
theorem wbOut_imaged {n : Nat} (hn : n ∈ taskCells s t) : wbOut (imaged s (taskCells s t) base) n = (getCell s n).l1.any dirtyLine := by
  rw [(imaged_saves hnd hh hi hpins).wb, wbOut_quiescent (hq n hn), List.contains_iff_mem.2 hn]
  simp

theorem any_wbOut_imaged : (taskCells s t).any (wbOut (imaged s (taskCells s t) base)) = true ↔
    ∃ n ∈ taskCells s t, ∃ e ∈ (getCell s n).l1, ∃ x ∈ e.2.words, x.2.dirty = true := by
  have line (n : Nat) : (getCell s n).l1.any dirtyLine = true ↔ ∃ e ∈ (getCell s n).l1, ∃ x ∈ e.2.words, x.2.dirty = true := by
    rw [← Bool.not_eq_false, any_dirtyLine]
    push Not
    simp
  rw [List.any_eq_true]
  refine exists_congr fun n => and_congr_right fun hn => ?_
  rw [wbOut_imaged hnd hh hi hpins hq hn, line]

end

end Sys2Proof.Machine

namespace Sys2Proof.Laws
open Sys2Proof Machine

/-- Of O57, the pre-emptions. -/
theorem tasksArePreempted : Sys2Proof.tasksArePreempted := by
  intro s kid victim base t ns p same waits ht hh hnd
  refine ⟨fun k r hs hk hr hready hfull hv hp => ?_, fun w hs => ⟨fun hf => ?_, fun hc => ⟨fun hno => ?_, fun hw hplace hq => ?_, ?_⟩⟩⟩
  · refine ⟨_, exec_preemption_freezes ht hh hs hk hr hready hfull hv hp, fun n => ?_, fun n => ?_⟩
    · rw [getCell_frozenFor]
      obtain ⟨f, hf⟩ := heldFor_eq 8 victim (chosenFor kid (getCell s n))
      split
      · rw [hf]
        exact ⟨rfl, rfl⟩
      · exact ⟨rfl, rfl⟩
    · rw [getCell_frozenFor]
      obtain ⟨f, hf⟩ := heldFor_eq 8 victim (chosenFor kid (getCell s n))
      by_cases hn : n ∈ ns
      · rw [if_pos hn, if_pos hn, if_pos hn, hf, List.contains_iff_mem.2 hn]
        exact ⟨rfl, rfl, rfl⟩
      · rw [if_neg hn, if_neg hn, if_neg hn]
        simp [hn]
  · refine ⟨_, (exec_preemption_saves ht hh hs).trans (congrArg _ (preemptSave_failed hf)), fun n => ?_, fun n => ?_⟩
    · rw [getCell_noSave]
      split <;> exact ⟨rfl, rfl⟩
    · rw [getCell_noSave]
      split
      · exact ⟨rfl, fun _ => ⟨rfl, rfl⟩⟩
      next hn => exact ⟨rfl, fun h => absurd h hn⟩
  · have hthaw : preemptSave s w victim t base = thaw s ns := preemptSave_thaws hc
      (hno.imp_left fun h => Bool.eq_false_iff.2 (mt stillWaits_iff.1 h))
    refine ⟨_, (exec_preemption_saves ht hh hs).trans (congrArg _ hthaw), fun n => ?_, fun n hn => ?_⟩
    · rw [getCell_thaw s (nodup_taskCells hnd t)]
      split
      · exact ⟨thawed_task _, thawed_pc _⟩
      · exact ⟨rfl, rfl⟩
    · rw [getCell_thaw s (nodup_taskCells hnd t), if_pos hn]
      exact thawed_hold _
  · exact (exec_preemption_saves ht hh hs).trans (congrArg _ (preemptSave_waits hc (stillWaits_iff.2 hw) hplace hq))
  · intro hw hplace hq hbase hpins
    have hstill : stillWaits s w = true := stillWaits_iff.2 hw
    have hi : ∀ n ∈ ns, (getCell s n).image = none := fun n hn => (hc n hn).2
    have saves : SavesCells fullImage ns s (imaged s ns base) := imaged_saves hnd hh hi hpins
    have hheld : saveHeld (imaged s ns base) ns = false := not_saveHeld_imaged hnd hh hi hpins
    have hwb := any_wbOut_imaged (base := base) hnd hh hi hpins hq
    refine ⟨fun hclean v hv hne => ?_, fun hdirty => ?_⟩
    · obtain ⟨k, _, hk, _⟩ := hw
      have hout : ¬ (saveHeld (imaged s ns base) ns = true ∨ ns.any (wbOut (imaged s ns base)) = true) := by
        rw [hheld, hwb]
        rintro (h | ⟨n, hn, e, he, x, hx, hd⟩)
        · cases h
        · exact Bool.false_ne_true ((hclean n hn e he x hx).symm.trans hd)
      have kernels (i : Nat) : kernelOf (saveWhole (imaged s ns base) (fun _ => 1) ns) i = kernelOf s i := by
        rw [kernelOf, saveWhole_kernels, saves.kernels, kernelOf]
      have hgo := preemptSave_leaves (s := s) (victim := victim) hc hstill hplace hq hbase hout ((kernels w).trans hk)
      have hkid := kernelOf_kid hk
      obtain ⟨x, i, hx, hsaved, htasks⟩ := makesRoom_leaves ((kernels t.kid).trans hv) (hkid ▸ hne) victim ns base
      exact ⟨_, x, i, (exec_preemption_saves ht hh hs).trans (congrArg _ hgo), hx, hsaved, hkid ▸ htasks⟩
    · have hgo := preemptSave_images (s := s) (victim := victim) hc hstill hplace hq hbase (.inr (hwb.2 hdirty))
      refine ⟨_, (exec_preemption_saves ht hh hs).trans (congrArg _ hgo), fun n => ⟨(saves.stays n).task, (saves.stays n).pc⟩, fun n hn => ?_⟩
      obtain ⟨g, hg, hdone, hwhole⟩ := saves.images n hn
      exact ⟨(saves.stays n).hold, g, hg, hdone.trans fullImage_eq, hwhole⟩

/-- Settles O57: each of its nine parts is proved on its own, from what the operations on regions, queues, kernels and cells change. -/
theorem regionsQueuesAndKernels : Obligations.RegionsQueuesAndKernels :=
  ⟨admissionsCheck, contextsAreWritten, packetsAreTaken, cancelsAct, kernelsAreAdmitted, tasksAreDispatched, tasksArePreempted,
    tasksComplete, packetsRetire⟩

end Sys2Proof.Laws
end
